-- ==== Sys2Proof/Word.lean ====
section
/-! DEFINITION. Bytes, wrapping counters and identifiers of the GP416, and plain saturating addition. -/

namespace Sys2Proof

/-- One byte on a link, or an 8-bit sequence or directive number that follows 255 with 0 (R92, R207, R212). -/
abbrev Byte := BitVec 8

/-- A cumulative gate count: 32 bits, wrapping from 4,294,967,295 to 0 (R165). -/
abbrev GateCount := BitVec 32

/-- A reel ID as carried in messages: eleven ASCII characters (R17, 11.4). -/
abbrev ReelId := List Byte

/-- The sum of two counts, held at the largest value of the field (R18). -/
def satAdd (limit a b : Nat) : Nat := min limit (a + b)

end Sys2Proof
end

