-- ==== Sys2Proof/Syntax.lean ====
section
/-! DEFINITION. The commands of the GP416: one constructor of Instr for each row of spec/opcode_table.json. -/

namespace Sys2Proof

/-- One arm of a reelstand (00_scope). -/
inductive ArmName | a | b
deriving DecidableEq, Repr

/-- The other arm of the stand. -/
def ArmName.other : ArmName → ArmName
  | .a => .b
  | .b => .a

/-- A stand address, line.stand, 1.1 to 4.8. -/
structure StandAddr where
  line : Nat
  stand : Nat
deriving DecidableEq, Repr

/-- A bay address, aisle.position. -/
structure BayAddr where
  aisle : Nat
  pos : Nat
deriving DecidableEq, Repr

/-- The six links (R208). -/
inductive Link | host | fleet | line (n : Nat)
deriving DecidableEq, Repr

/-- Kind of a bay (3.1). -/
inductive BayKind | normal | quarantine
deriving DecidableEq, Repr

/-- The place given by Declare Reel Location (R37). -/
inductive DeclPlace | bay (b : BayAddr) | dock (n : Nat) | nowhere
deriving DecidableEq, Repr

/-- A reel named by ID or by index (R40). -/
inductive ReelSel | byId (id : ReelId) | byIndex (n : Nat)
deriving DecidableEq, Repr

/-- Kind of a zone with what it serves, or its loop position (R62). -/
inductive ZoneUse
  | loop (pos : Nat) | aisle (n : Nat) | spur (st : StandAddr) | dock (n : Nat) | charger (n : Nat) | park (n : Nat)
deriving DecidableEq, Repr

/-- The configuration fields of a zone; a LOOP zone has no attach zone and holds 0 there (R62). -/
structure ZoneConfig where
  use : ZoneUse
  attach : Nat
  time : Nat
deriving DecidableEq, Repr

/-- Kinds of mission (R94); `ret` is RETURN. -/
inductive MissionKind | intake | deliver | ret | charge | park
deriving DecidableEq, Repr

/-- Roles a STAND STATUS or Declare Arm gives an arm (R139). -/
inductive Role | running | prepared | standby | expired
deriving DecidableEq, Repr

/-- Run state of a press line (6.1). -/
inductive RunState | stopped | running | broken
deriving DecidableEq, Repr

/-- The completion a vehicle report carries (R93). -/
inductive Completion | pick | place | transfer | unload
deriving DecidableEq, Repr

/-- Classes of fault (R196). -/
inductive FaultClass | note | degraded | fatal
deriving DecidableEq, Repr

/-- The 24 fault kinds, in code order (R196). -/
inductive FaultKind
  | configDefaults | registerFull | stockLow | stockOut | custodyError | noFreeBay | zoneConflict | vehicleUnknown
  | vehicleSilent | vehicleLost | fleetLinkDown | diameterImplausible | sensorFailed | armMismatch | prepOverdue
  | spliceAborted | spliceFailed | cutFailed | phaseUnexpected | standStarved | starving | lineLinkDown | countJump | startLimit
deriving DecidableEq, Repr

/-- The subject of a fault (R196). -/
inductive Subject | none | line (n : Nat) | stand (st : StandAddr) | vehicle (v : Nat)
deriving DecidableEq, Repr

/-- The optional filter of Query Faults (R200); a kind is named by its code. -/
inductive FaultFilter | cls (c : FaultClass) | kind (code : Nat) | subject (s : Subject)
deriving DecidableEq, Repr

/-- Mode given by Restart (R221). -/
inductive RestartMode | cold | warm
deriving DecidableEq, Repr

/-- Causes of a reset (R221). -/
inductive ResetCause | powerOn | supplyLow | resetPin | hostCold | hostWarm
deriving DecidableEq, Repr

/-- What the HLI sees of a request frame beside its fields: the tag, the number of body bytes, and whether every code,
flag and alternative byte of the body is one R209 lists (log 10, log 11). -/
structure Req where
  tag : Byte
  len : Nat
  listed : Bool
deriving DecidableEq, Repr

/-- What a partner link sees of a frame beside its fields: the link's line (any number on the Fleet Link), the number of
body bytes, and whether every code byte of the body is one the layout lists (R214, log 10). -/
structure Frame where
  link : Nat
  len : Nat
  listed : Bool
deriving DecidableEq, Repr

/-- Fields of Set Line Feed (R117). -/
structure LineFeedArgs where
  lineMax : Option Nat := none
  crawl : Option Nat := none
  prepAllowance : Option Nat := none
  callLength : Option Nat := none
  partials : Option Bool := none
  minIssue : Option Nat := none
  stripDepth : Option Nat := none
  autoPrepare : Option Bool := none
deriving DecidableEq, Repr

/-- Fields of Set Stand (R119): the plan, always given, and the others. -/
structure StandArgs where
  grade : Nat
  width : Nat
  ds : Option Nat := none
  dmin : Option Nat := none
  lockMargin : Option Nat := none
  maxStep : Option Nat := none
  webPath : Option Nat := none
  allowance : Option Nat := none
  offset : Option Int := none
deriving DecidableEq, Repr

/-- Fields of Set Line Counting (R164). -/
structure CountArgs where
  cutoff : Option Nat := none
  depth : Option Nat := none
  preMargin : Option Nat := none
  spliceWindow : Option Nat := none
  restartWindow : Option Nat := none
  startLimit : Option Nat := none
  jumpLimit : Option Nat := none
  holdOnDegraded : Option Bool := none
deriving DecidableEq, Repr

/-- Fields of Set Fleet Parameters (R113). -/
structure FleetArgs where
  reportPeriod : Option Nat := none
  lostCount : Option Nat := none
  lowCharge : Option Nat := none
  resumeCharge : Option Nat := none
  holdTime : Option Nat := none
  missionAllowance : Option Nat := none
  pickTime : Option Nat := none
  transferTime : Option Nat := none
  waitLimit : Option Nat := none
deriving DecidableEq, Repr

/-- Fields of VEHICLE REPORT (11.4); zone 0 and the ID of eleven zero bytes are `none`. -/
structure VehicleReport where
  vehicle : Nat
  directive : Byte
  front : Nat
  tail : Option Nat
  request : Option Nat
  charge : Nat
  completion : Option Completion
  onBoard : Bool
  reel : Option ReelId
deriving DecidableEq, Repr

/-- What STAND STATUS gives for one arm: its role, and the reel ID or EMPTY (R139). -/
structure ArmReading where
  role : Role
  reel : Option ReelId
deriving DecidableEq, Repr

/-- The commands: one constructor for each row of spec/opcode_table.json, in its order. -/
inductive Instr
  | registerReel (q : Req) (id : ReelId) (grade width d0 : Nat) (core : Option Nat) (mass dock : Nat) (arrival : Option Nat)
  | setGrade (q : Req) (number : Nat) (name : List Byte) (caliper basis : Nat) (core hours threshold : Option Nat)
  | releaseQuarantine (q : Req) (id : ReelId)
  | declareReelLocation (q : Req) (id : ReelId) (place : DeclPlace)
  | withdrawReel (q : Req) (id : ReelId)
  | purgeSpent (q : Req)
  | queryReel (q : Req) (sel : ReelSel)
  | queryStock (q : Req)
  | setBay (q : Req) (bay : BayAddr) (kind : Option BayKind) (blocked : Bool)
  | setAisle (q : Req) (aisle : Nat) (grade : Option Nat)
  | queryBay (q : Req) (bay : BayAddr)
  | queryAisles (q : Req)
  | setZone (q : Req) (number : Nat) (cfg : Option ZoneConfig)
  | queryZone (q : Req) (number : Nat)
  | queryTraffic (q : Req)
  | queryRoute (q : Req) (start dest : Nat)
  | commissionVehicle (q : Req) (v : Nat)
  | decommissionVehicle (q : Req) (v : Nat)
  | clearLostVehicle (q : Req) (v : Nat)
  | manualMission (q : Req) (kind : MissionKind) (reel : ReelId) (bay : Option BayAddr) (park : Nat) (deadline : Option Nat)
  | cancelMission (q : Req) (slot : Nat)
  | acknowledgeVehicleAbort (q : Req) (v : Nat)
  | stopFleet (q : Req)
  | resumeFleet (q : Req)
  | setFleetParameters (q : Req) (args : FleetArgs)
  | queryVehicle (q : Req) (v : Nat)
  | queryMissions (q : Req)
  | setLineFeed (q : Req) (line : Nat) (args : LineFeedArgs)
  | setStand (q : Req) (st : StandAddr) (args : StandArgs)
  | standOutOfService (q : Req) (st : StandAddr)
  | standInService (q : Req) (st : StandAddr)
  | returnReel (q : Req) (st : StandAddr)
  | declareArm (q : Req) (st : StandAddr) (arm : ArmName) (reel : Option ReelId) (role : Role)
  | queryStand (q : Req) (st : StandAddr)
  | queryLineFeed (q : Req) (line : Nat)
  | setCeiling (q : Req) (line value : Nat)
  | acknowledgeCeilingFlags (q : Req) (line : Nat)
  | setLineCounting (q : Req) (line : Nat) (args : CountArgs)
  | clearLineCounters (q : Req) (line : Nat)
  | queryLineCounts (q : Req) (line : Nat)
  | openEdition (q : Req) (number line target : Nat)
  | closeEdition (q : Req) (line number : Nat)
  | queryEdition (q : Req) (line number : Nat)
  | queryEditions (q : Req)
  | queryUnassigned (q : Req) (line : Nat)
  | clearUnassigned (q : Req) (line : Nat)
  | acknowledgeFault (q : Req) (code : Nat) (subject : Subject)
  | acknowledgeAllFaults (q : Req)
  | queryFaults (q : Req) (filter : Option FaultFilter)
  | queryFault (q : Req) (code : Nat) (subject : Subject)
  | queryStatus (q : Req)
  | setClock (q : Req) (value : Nat)
  | setMassTolerance (q : Req) (value : Nat)
  | saveConfiguration (q : Req)
  | reloadConfiguration (q : Req)
  | restart (q : Req) (mode : RestartMode)
  | unknownRequest (tag : Byte) (kind : Nat)
  | frameDiscard (link : Link) (bytes : List Byte)
  | interByteTimeout (link : Link) (bytes : List Byte)
  | hostLinkTransmit
  | vehicleReport (f : Frame) (r : VehicleReport)
  | lineStatus (f : Frame) (line : Nat) (run : RunState) (speed : Nat) (gate : GateCount)
  | diameter (f : Frame) (st : StandAddr) (arm : ArmName) (raw : Nat)
  | ready (f : Frame) (st : StandAddr) (arm : ArmName)
  | loadOk (f : Frame) (st : StandAddr) (arm : ArmName)
  | loadWait (f : Frame) (st : StandAddr) (arm : ArmName)
  | loadRefuse (f : Frame) (st : StandAddr) (arm : ArmName) (reason : Nat)
  | armLoaded (f : Frame) (st : StandAddr) (arm : ArmName) (reel : Option ReelId)
  | prepStart (f : Frame) (st : StandAddr) (arm : ArmName)
  | prepared (f : Frame) (st : StandAddr) (arm : ArmName)
  | unloaded (f : Frame) (st : StandAddr) (arm : ArmName)
  | ejected (f : Frame) (st : StandAddr) (arm : ArmName)
  | accelOk (f : Frame) (st : StandAddr)
  | accelFail (f : Frame) (st : StandAddr)
  | pasteOk (f : Frame) (st : StandAddr)
  | pasteFail (f : Frame) (st : StandAddr)
  | cutOk (f : Frame) (st : StandAddr) (gate : GateCount)
  | cutFail (f : Frame) (st : StandAddr) (gate : GateCount)
  | webBreak (f : Frame) (line : Nat)
  | consoleGood (f : Frame) (line : Nat)
  | consoleDivertOn (f : Frame) (line : Nat)
  | consoleDivertOff (f : Frame) (line : Nat)
  | consoleSpliceRetry (f : Frame) (line stand : Nat)
  | standStatus (f : Frame) (st : StandAddr) (a b : ArmReading)
  | supervisionTimerExpiry (v : Nat)
  | lineLinkDown (line : Nat)
  | fleetLinkDown
  | handoverWaitLimit (st : StandAddr)
  | retryWaitExpiry (st : StandAddr)
  | hallClockAdvance
  | conditioningEnd (index : Nat)
  | chargerHoldExpiry (zone : Nat)
  | saveComplete (readBackOk : Bool)
  | coldReset (cause : ResetCause) (strap : Bool)
  | warmRestart (cause : ResetCause)
deriving DecidableEq, Repr

end Sys2Proof
end

