-- ==== Sys2Proof/Config.lean ====
section
/-! DEFINITION. The fixed sizes, limits, periods and built-in defaults of the GP416. -/

namespace Sys2Proof.Config

/-- Largest hall time, and largest 32-bit field (R18, R220). -/
def max32 : Nat := 4294967295

/-- Largest 48-bit total (R18). -/
def max48 : Nat := 281474976710655

/-- Time to splice, queue estimate, lead time, ETA, needed time (R18). -/
def maxSeconds : Nat := 65535

/-- Fault occurrences, refusal counts, missed reports, re-raise counts, dropped notices (R18, R89, R212). -/
def max8 : Nat := 255

/-- Link error counts (R208). -/
def max16 : Nat := 65535

/-- Reel slots of the register (2.1). -/
def reelSlots : Nat := 1024

/-- Mission slots (R94). -/
def missionSlots : Nat := 48

/-- Edition slots (R183). -/
def editionSlots : Nat := 16

/-- Entries of the notice queue (R212). -/
def noticeSlots : Nat := 64

/-- Entries of a zone's wait list (R74). -/
def waitSlots : Nat := 4

/-- Zones granted ahead of a vehicle at most (R73). -/
def aheadSlots : Nat := 2

/-- Divert intervals of a line (R169). -/
def intervalSlots : Nat := 8

/-- Entries of a reels-used list (R186). -/
def reelsUsedSlots : Nat := 48

/-- Ticks of the 10 ms timebase in one second (R220). -/
def ticksPerSecond : Nat := 100

/-- Milliseconds in one tick. -/
def msPerTick : Nat := 10

/-- Link silence, 2,000 ms, in ticks (R204, R205). -/
def silenceTicks : Nat := 200

/-- Splice retry wait, 10 s, in ticks (R151). -/
def retryTicks : Nat := 1000

/-- Longest interval of an estimate step, in milliseconds (R7). -/
def maxStepMs : Nat := 2000

/-- Largest web speed taken (R118). -/
def maxSpeed : Nat := 1200

/-- Built-in mass tolerance, percent (R215). -/
def massTolerance : Nat := 8

/-- Defaults of a grade's optional fields (2.2). -/
def gradeCore : Nat := 100
def gradeHours : Nat := 24
def gradeThreshold : Nat := 4

/-- Most consequences one event makes before the next command is taken (the model's own, log 5). -/
def cascadeBound : Nat := 4096

end Sys2Proof.Config
end

