-- ==== Sys2Proof/Machine/Tables.lean ====
section
/-! DEFINITION. Tables of numbered records, and the numbers under which stands, bays and fault entries stand in them. -/

namespace Sys2Proof.Machine

/-- A table: the numbers in use with their records, numbers strictly rising. A number not listed is a free slot,
an unconfigured object, or an entry with nothing in it, as the table says. -/
abbrev Table (α : Type) := List (Nat × α)

/-- The record at number `k`. -/
def tget {α : Type} (t : Table α) (k : Nat) : Option α :=
  match t with
  | [] => none
  | (j, v) :: rest => if j = k then some v else tget rest k

/-- Enter a record at a number `k` that is not in use, keeping the numbers rising. -/
def tins {α : Type} (t : Table α) (k : Nat) (v : α) : Table α :=
  match t with
  | [] => [(k, v)]
  | (j, w) :: rest => if k < j then (k, v) :: (j, w) :: rest else (j, w) :: tins rest k v

/-- Change the record at number `k`, when there is one. -/
def tmod {α : Type} (t : Table α) (k : Nat) (f : α → α) : Table α :=
  match t with
  | [] => []
  | (j, w) :: rest => if j = k then (j, f w) :: rest else (j, w) :: tmod rest k f

/-- Set the record at number `k`, keeping the numbers rising. -/
def tput {α : Type} (t : Table α) (k : Nat) (v : α) : Table α :=
  if (tget t k).isSome then tmod t k fun _ => v else tins t k v

/-- Remove number `k`. -/
def tdel {α : Type} (t : Table α) (k : Nat) : Table α :=
  match t with
  | [] => []
  | (j, w) :: rest => if j = k then rest else (j, w) :: tdel rest k

/-- A table with a view taken of every record. -/
def tview {α β : Type} (g : α → β) (t : Table α) : Table β := t.map fun p => (p.1, g p.2)

/-- Numbers strictly rising. -/
def tsorted {α : Type} : Table α → Bool
  | [] => true
  | [_] => true
  | (j, _) :: (k, w) :: rest => decide (j < k) && tsorted ((k, w) :: rest)

/-- The lowest number below `limit`, from `start` on, that the table does not list. -/
def firstFree {α : Type} (t : Table α) (start : Nat) : Nat → Option Nat
  | 0 => none
  | fuel + 1 => if (tget t start).isNone then some start else firstFree t (start + 1) fuel

/-- The lowest free slot of a table of `slots` slots numbered from 0 (R19, R95, R185). -/
def lowestFree {α : Type} (t : Table α) (slots : Nat) : Option Nat := firstFree t 0 slots

/-- A number for each pair of numbers, no two pairs the same. -/
def pairNumber (a b : Nat) : Nat := (a + b) * (a + b + 1) / 2 + b

/-- Number of a stand: addresses in order, 1.1 first. An address outside 1.1 to 4.8 has a number of its own beyond them,
under which no stand is configured. -/
def standKey (st : StandAddr) : Nat :=
  if st.line ≤ 4 ∧ st.stand ≤ 8 then st.line * 16 + st.stand else 128 + pairNumber st.line st.stand

/-- The stand of a number. -/
def standOfKey (k : Nat) : StandAddr := ⟨k / 16, k % 16⟩

/-- Number of a bay: lowest aisle first, then lowest position. An address outside 1.1 to 16.48 has a number of its own
beyond them, under which no bay is configured. -/
def bayKey (b : BayAddr) : Nat :=
  if b.aisle ≤ 16 ∧ b.pos ≤ 48 then b.aisle * 64 + b.pos else 2048 + pairNumber b.aisle b.pos

/-- The bay of a number. -/
def bayOfKey (k : Nat) : BayAddr := ⟨k / 64, k % 64⟩

/-- The code of a fault kind (R196). -/
def faultCode : FaultKind → Nat
  | .configDefaults => 1 | .registerFull => 2 | .stockLow => 3 | .stockOut => 4 | .custodyError => 5 | .noFreeBay => 6
  | .zoneConflict => 7 | .vehicleUnknown => 8 | .vehicleSilent => 9 | .vehicleLost => 10 | .fleetLinkDown => 11
  | .diameterImplausible => 12 | .sensorFailed => 13 | .armMismatch => 14 | .prepOverdue => 15 | .spliceAborted => 16
  | .spliceFailed => 17 | .cutFailed => 18 | .phaseUnexpected => 19 | .standStarved => 20 | .starving => 21
  | .lineLinkDown => 22 | .countJump => 23 | .startLimit => 24

/-- The fault kinds in code order (R196). -/
def faultKinds : List FaultKind :=
  [.configDefaults, .registerFull, .stockLow, .stockOut, .custodyError, .noFreeBay, .zoneConflict, .vehicleUnknown,
   .vehicleSilent, .vehicleLost, .fleetLinkDown, .diameterImplausible, .sensorFailed, .armMismatch, .prepOverdue,
   .spliceAborted, .spliceFailed, .cutFailed, .phaseUnexpected, .standStarved, .starving, .lineLinkDown, .countJump, .startLimit]

/-- The kind of a code, 1 to 24. -/
def faultOfCode (n : Nat) : Option FaultKind := if n = 0 then none else faultKinds[n - 1]?

/-- The class fixed by the kind (R196). -/
def faultClass : FaultKind → FaultClass
  | .stockOut | .vehicleLost | .sensorFailed | .spliceFailed | .starving | .lineLinkDown | .countJump => .degraded
  | .zoneConflict | .fleetLinkDown | .cutFailed | .standStarved => .fatal
  | .configDefaults | .registerFull | .stockLow | .custodyError | .noFreeBay | .vehicleUnknown | .vehicleSilent
  | .diameterImplausible | .armMismatch | .prepOverdue | .spliceAborted | .phaseUnexpected | .startLimit => .note

/-- Whether the subject is of the type, and within the range, the kind calls for (R196, R199). -/
def subjectFits : FaultKind → Subject → Bool
  | .configDefaults, .none | .registerFull, .none | .stockLow, .none | .custodyError, .none | .noFreeBay, .none
  | .fleetLinkDown, .none => true
  | .zoneConflict, .vehicle v | .vehicleUnknown, .vehicle v | .vehicleSilent, .vehicle v | .vehicleLost, .vehicle v =>
    decide (1 ≤ v) && decide (v ≤ 24)
  | .stockOut, .stand s | .diameterImplausible, .stand s | .sensorFailed, .stand s | .armMismatch, .stand s
  | .prepOverdue, .stand s | .spliceAborted, .stand s | .spliceFailed, .stand s | .cutFailed, .stand s
  | .phaseUnexpected, .stand s | .standStarved, .stand s | .starving, .stand s =>
    decide (1 ≤ s.line) && decide (s.line ≤ 4) && decide (1 ≤ s.stand) && decide (s.stand ≤ 8)
  | .lineLinkDown, .line n | .countJump, .line n | .startLimit, .line n => decide (1 ≤ n) && decide (n ≤ 4)
  | _, _ => false

/-- Place of a subject among the subjects of one kind (R196, table order). -/
def subjectKey : Subject → Nat
  | .none => 0
  | .line n => n
  | .stand st => standKey st
  | .vehicle v => v

/-- A fault entry's name: its kind and its subject (R196). -/
structure FaultKey where
  kind : FaultKind
  subject : Subject
deriving DecidableEq, Repr

/-- Place of an entry in the table order: by kind code, then by subject (R196). The subjects in range have keys below 73. -/
def FaultKey.num (k : FaultKey) : Nat := faultCode k.kind * 1024 + min 1023 (subjectKey k.subject)

/-- The links as numbers of the link table: Host 0, Line 1 to 4, Fleet 5. -/
def linkKey : Link → Nat
  | .host => 0
  | .fleet => 5
  | .line n => n

end Sys2Proof.Machine
end

