-- ==== Sys2Proof/Machine/Records.lean ====
section
/-! DEFINITION. The records of the GP416's blocks, the messages it sends and the contents of its replies and notices. -/

namespace Sys2Proof.Machine

/-! ### Reels (Chapter 2) -/

/-- A reel by index and reel ID, as other blocks hold it (R19). -/
structure ReelRef where
  index : Nat
  id : ReelId
deriving DecidableEq, Repr

/-- States of a reel (2.1). -/
inductive ReelState | atDock | inTransit | conditioning | stored | allocated | onArm | spent | quarantined
deriving DecidableEq, Repr

/-- Quarantine reasons (2.1). -/
inductive Reason | badWeight | refusedAtStand | idMismatch | pickupEmpty | vehicleLost | armMismatch | host
deriving DecidableEq, Repr

/-- Locations of a reel (2.1). -/
inductive Location
  | nowhere | dock (n : Nat) | bay (b : BayAddr) | vehicle (v : Nat) | arm (st : StandAddr) (arm : ArmName)
deriving DecidableEq, Repr

/-- A reel record (2.1); its index is its number in the register. -/
structure Reel where
  id : ReelId
  grade : Nat
  width : Nat
  d0 : Nat
  core : Nat
  mass : Nat
  arrival : Nat
  earliest : Nat
  state : ReelState
  loc : Location
  reason : Option Reason
  initial : Nat
  strip : Nat
  consumed : Nat
  remaining : Nat
  accepted : Nat
  estimate : Bool
  isPartial : Bool
  stripped : Bool
  call : Option StandAddr
  refusals : Nat
deriving DecidableEq, Repr

/-- A defined grade (2.2). -/
structure Grade where
  name : List Byte
  caliper : Nat
  basis : Nat
  core : Nat
  hours : Nat
  threshold : Nat
deriving DecidableEq, Repr

/-- The watched and low flags of a grade (R41). -/
structure Watch where
  watched : Bool
  low : Bool
deriving DecidableEq, Repr

/-- The custody changes of 2.4, as a Custody Refused notice names them (R26). -/
inductive Custody
  | pick | place | pickupEmpty | idMismatch | vehicleLost | load | adopt | eject | unload | armMismatch | refusedAtStand
  | strip | diameterStep | enterEstimate | estimateStep | runStart | release
deriving DecidableEq, Repr

/-- The blocks that ask custody changes (R26). -/
inductive Block | fleetController | feedPlanner | bayMap
deriving DecidableEq, Repr

/-! ### Bays and zones (Chapters 3 and 4) -/

/-- The stored fields of a bay (3.1). -/
structure BayCfg where
  kind : BayKind
  blocked : Bool
deriving DecidableEq, Repr

/-- A configured bay (3.1). -/
structure Bay where
  kind : BayKind
  blocked : Bool
  occupant : Option ReelRef
  reserved : Option Nat
deriving DecidableEq, Repr

/-- A charger hold (R78). -/
structure ChargerHold where
  vehicle : Nat
  expiry : Nat
deriving DecidableEq, Repr

/-- A configured zone (R62). -/
structure Zone where
  cfg : ZoneConfig
  holder : Option Nat
  wait : List Nat
  hold : Option ChargerHold
deriving DecidableEq, Repr

/-! ### Vehicles and missions (Chapter 5) -/

/-- Places a mission picks up from or drops at (R94). -/
inductive Place | dock (n : Nat) | bay (b : BayAddr) | arm (st : StandAddr) (arm : ArmName) | charger (n : Nat) | park (n : Nat)
deriving DecidableEq, Repr

/-- Activity states of a vehicle (R86). -/
inductive Activity | offline | idle | toPickup | picking | carrying | handover | toCharger | charging | stopped
deriving DecidableEq, Repr

/-- Supervision states of a vehicle (5.1). -/
inductive Supervision | reporting | silent | lost
deriving DecidableEq, Repr

/-- Kinds of directive with their arguments (R92). -/
inductive DirKind
  | hold | move (route : List Nat) (through : Nat) | pick (place : Place) (id : ReelId) | place (b : BayAddr) | placeHere
  | transfer (st : StandAddr) (arm : ArmName) (id : ReelId) | unload (st : StandAddr) (arm : ArmName) (id : ReelId)
  | charge (n : Nat) | stop
deriving DecidableEq, Repr

/-- A numbered directive (R92). -/
structure Directive where
  number : Byte
  kind : DirKind
deriving DecidableEq, Repr

/-- A kept directive; it has a number when it was issued before the stop (R110, R111, log 27). -/
structure Kept where
  number : Option Byte
  kind : DirKind
deriving DecidableEq, Repr

/-- Causes in an abort record (R105). -/
inductive AbortCause
  | hostCancel | vehicleLost | transferRefused | transferTimeout | pickupEmpty | idMismatch | standOutOfService | restart
deriving DecidableEq, Repr

/-- An abort record (R105); the causes are a set, listed in the order they were added. -/
structure AbortRecord where
  causes : List AbortCause
  kind : Option MissionKind
  reel : Option ReelRef
  zonesLeft : Nat
  time : Nat
deriving DecidableEq, Repr

/-- A vehicle record (5.1), with the seating and zones Traffic Control keeps for it (R68, R80), its supervision timer
(R89) and whether a withdrawal is owed at the next acknowledgement (R93). -/
structure Vehicle where
  number : Nat
  commissioned : Bool
  seated : Bool
  activity : Activity
  supervision : Supervision
  missed : Nat
  front : Option Nat
  tail : Option Nat
  ahead : List Nat
  charge : Nat
  load : Option ReelRef
  mission : Option Nat
  directive : Directive
  kept : Option Kept
  beforeStop : Option Activity
  abort : Option AbortRecord
  timer : Option Nat
  withdraw : Bool
deriving DecidableEq, Repr

/-- A vehicle after a cold reset, under no number of the table (5.1). -/
def Vehicle.cold : Vehicle where
  number := 0
  commissioned := false
  seated := false
  activity := .offline
  supervision := .reporting
  missed := 0
  front := none
  tail := none
  ahead := []
  charge := 0
  load := none
  mission := none
  directive := ⟨0, .hold⟩
  kept := none
  beforeStop := none
  abort := none
  timer := none
  withdraw := false

/-- Mission classes (R94). -/
inductive MissionClass | urgent | deliver | ret | intake | park | charge
deriving DecidableEq, Repr

/-- Mission states (R94). -/
inductive MissionState | waiting | assigned | carrying | handover
deriving DecidableEq, Repr

/-- A route with its progress index, 1 at the start (R66). -/
structure Route where
  zones : List Nat
  progress : Nat
deriving DecidableEq, Repr

/-- A mission record (R94); `holdBack` says that the rule that made it names a quarantine bay (R53, R55). -/
structure Mission where
  kind : MissionKind
  reel : Option ReelRef
  pickup : Option Place
  drop : Option Place
  cls : MissionClass
  deadline : Nat
  created : Nat
  state : MissionState
  vehicle : Option Nat
  route : Option Route
  call : Option StandAddr
  holdBack : Bool
deriving DecidableEq, Repr

/-- Outcomes of a mission (R94). -/
inductive MissionOutcome | done | aborted | cancelled
deriving DecidableEq, Repr

/-- The fleet parameters (R113). -/
structure FleetParams where
  reportPeriod : Nat
  lostCount : Nat
  lowCharge : Nat
  resumeCharge : Nat
  holdTime : Nat
  missionAllowance : Nat
  pickTime : Nat
  transferTime : Nat
  waitLimit : Nat
deriving DecidableEq, Repr

/-- Built-in defaults of the fleet parameters (R113). -/
def FleetParams.default : FleetParams := ⟨500, 4, 25, 80, 600, 180, 20, 40, 30⟩

/-! ### Lines and stands (Chapters 6 and 7) -/

/-- Feed settings of a line (6.1). -/
structure LineCfg where
  lineMax : Nat
  crawl : Nat
  prepAllowance : Nat
  callLength : Nat
  partials : Bool
  minIssue : Nat
  stripDepth : Nat
  autoPrepare : Bool
deriving DecidableEq, Repr

/-- Defaults of the feed settings (6.1). -/
def LineCfg.default : LineCfg := ⟨900, 60, 240, 6000, false, 3000, 5, false⟩

/-- A preparation request: its stand, the arm it was made for, its deadline (R136). -/
structure PrepEntry where
  st : StandAddr
  arm : ArmName
  deadline : Nat
deriving DecidableEq, Repr

/-- A configured press line in the Feed Planner (6.1, 7.6), with the time of its last LINE STATUS (R7), its silence timer
(R204) and what is owed to its first frame (R163, R202). -/
structure Line where
  cfg : LineCfg
  run : RunState
  speed : Nat
  slot : Option PrepEntry
  waiting : List PrepEntry
  hostCeiling : Nat
  ceiling : Nat
  reduced : Bool
  byHost : Bool
  /-- The constraining stands with the values of the formation that found them (R160, R162). -/
  constraining : List (StandAddr × Nat)
  lastStatus : Option Nat
  silence : Option Nat
  oweCeiling : Bool
  oweHold : Bool
deriving DecidableEq, Repr

/-- Stored fields of a stand but its in-service flag (6.1). -/
structure StandCfg where
  grade : Nat
  width : Nat
  ds : Nat
  dmin : Nat
  lockMargin : Nat
  maxStep : Nat
  webPath : Nat
  allowance : Nat
  offset : Int
deriving DecidableEq, Repr

/-- Arm states (6.1). -/
inductive ArmState | empty | loading | loaded | preparing | prepared | running | expired | unloading
deriving DecidableEq, Repr

/-- An arm record (6.1). -/
structure Arm where
  state : ArmState
  reel : Option ReelRef
  loadedAt : Nat
  carry : Nat
  beforeUnload : Option ArmState
  known : Bool
deriving DecidableEq, Repr

/-- An arm after a cold reset (R144). -/
def Arm.cold : Arm := ⟨.empty, none, 0, 0, none, false⟩

/-- Call states (6.3). -/
inductive CallState | raised | starved | allocated | dispatched
deriving DecidableEq, Repr

/-- A call record (6.3). -/
structure Call where
  state : CallState
  raisedAt : Nat
  deadline : Nat
  reel : Option ReelRef
  mission : Option Nat
  reraises : Nat
deriving DecidableEq, Repr

/-- Outcomes of a call (R126). -/
inductive CallOutcome | loaded | cancelled | planChanged | outOfService
deriving DecidableEq, Repr

/-- Kinds of handover (6.4). -/
inductive HandoverKind | load | unload
deriving DecidableEq, Repr

/-- Phases of a handover (6.4). -/
inductive Phase | asked | waiting | granted
deriving DecidableEq, Repr

/-- A handover record (6.4); `started` is in ticks of the timebase. -/
structure Handover where
  kind : HandoverKind
  arm : ArmName
  reel : ReelRef
  vehicle : Nat
  mission : Nat
  phase : Phase
  started : Nat
  transferDone : Bool
  armDone : Bool
deriving DecidableEq, Repr

/-- Modes of a stand (6.1). -/
inductive Mode | outOfService | unknown | normal | locked | splicing | starved
deriving DecidableEq, Repr

/-- Result of a splice phase (R146). -/
inductive PhaseResult | ok | fail | notReached
deriving DecidableEq, Repr

/-- Outcomes of a splice (R146). -/
inductive SpliceOutcome | done | aborted | failed | broken
deriving DecidableEq, Repr

/-- A splice record (R146). -/
structure SpliceRecord where
  st : StandAddr
  time : Nat
  fromReel : Option ReelRef
  toReel : Option ReelRef
  fromArm : ArmName
  toArm : ArmName
  diameter : Nat
  accel : PhaseResult
  paste : PhaseResult
  cut : PhaseResult
  gate : Option GateCount
  outcome : Option SpliceOutcome
deriving DecidableEq, Repr

/-- A configured stand (6.1); `retry` is an expiry in ticks (R146), `rolesDue` is set from a web break until the first
STAND STATUS after the line runs again (R157). -/
structure Stand where
  cfg : StandCfg
  inService : Bool
  mode : Mode
  running : Option ArmName
  call : Option Call
  handover : Option Handover
  implausible : Nat
  lastSplice : Option SpliceRecord
  attempts : Nat
  retry : Option Nat
  rolesDue : Bool
  armA : Arm
  armB : Arm
deriving DecidableEq, Repr

/-! ### Counting and editions (Chapters 8 and 9) -/

/-- Counting settings of a line (R164). -/
structure CountCfg where
  cutoff : Nat
  depth : Nat
  preMargin : Nat
  spliceWindow : Nat
  restartWindow : Nat
  startLimit : Nat
  jumpLimit : Nat
  holdOnDegraded : Bool
deriving DecidableEq, Repr

/-- Defaults of the counting settings (R164). -/
def CountCfg.default : CountCfg := ⟨578, 50, 20, 150, 300, 3000, 500, false⟩

/-- Causes of waste (R169); `brk` is BREAK. -/
inductive Cause | start | splice | brk | operator
deriving DecidableEq, Repr

/-- A divert interval: first copy, end (none is OPEN), cause, sent-to-gate flag, and the gate value of the entry the gate
holds for it (R169, R177). R18 gives first copy and end no width, and the model's choice is to keep them unbounded (log 72). -/
structure Interval where
  first : Nat
  stop : Option Nat
  cause : Cause
  sent : Bool
  key : Option GateCount
  /-- The end has changed since the interval was last sent (R177). -/
  endMoved : Bool
deriving DecidableEq, Repr

/-- Waste by cause. -/
structure Waste where
  start : Nat
  splice : Nat
  brk : Nat
  operator : Nat
deriving DecidableEq, Repr

/-- The sum of the four causes. -/
def Waste.total (w : Waste) : Nat := w.start + w.splice + w.brk + w.operator

/-- A line in the Waste Counter (8.1, 8.2). -/
structure LineCount where
  cfg : CountCfg
  gate : Option GateCount
  counted : Nat
  finalized : Nat
  good : Nat
  waste : Waste
  edition : Option Nat
  intervals : List Interval
  /-- A warm restart waits for the line's first LINE STATUS, which sends every interval in full (R182). -/
  resend : Bool
deriving DecidableEq, Repr

/-- The counting state a line starts with (R181). -/
def LineCount.fresh (cfg : CountCfg) : LineCount := ⟨cfg, none, 0, 0, 0, ⟨0, 0, 0, 0⟩, none, [], false⟩

/-- Unassigned totals of a line (R188). -/
structure Totals where
  finalized : Nat
  good : Nat
  waste : Waste
  splices : Nat
  breaks : Nat
  printedLength : Nat
  printedMass : Nat
  whiteLength : Nat
  whiteMass : Nat
deriving DecidableEq, Repr

/-- All totals 0 (R188). -/
def Totals.zero : Totals := ⟨0, 0, ⟨0, 0, 0, 0⟩, 0, 0, 0, 0, 0, 0⟩

/-- An edition record (R183); masses in milligrams. -/
structure Edition where
  number : Nat
  line : Nat
  isOpen : Bool
  collected : Bool
  target : Nat
  opened : Nat
  closed : Option Nat
  finalized : Nat
  good : Nat
  overrun : Nat
  waste : Waste
  splices : Nat
  breaks : Nat
  printedLength : Nat
  printedMass : Nat
  whiteLength : Nat
  whiteMass : Nat
  reelsUsed : List ReelId
  truncated : Bool
deriving DecidableEq, Repr

/-! ### Faults (Chapter 10) -/

/-- The changing fields of a fault entry (R196); an entry not listed has all of them clear. -/
structure FaultEntry where
  active : Bool
  latched : Bool
  first : Option Nat
  last : Option Nat
  occurrences : Nat
deriving DecidableEq, Repr

/-- An entry with nothing in it (R206). -/
def FaultEntry.clear : FaultEntry := ⟨false, false, none, none, 0⟩

/-- A line that is HELD, with the content of its HOLD message: the number of holding entries and the first (R202). -/
structure LineHold where
  count : Nat
  first : FaultKey
deriving DecidableEq, Repr

/-! ### Configuration (Chapter 11) -/

/-- The image of every configuration record (11.6). -/
structure Image where
  grades : Table Grade
  bays : Table BayCfg
  aisles : Table Nat
  zones : Table ZoneConfig
  commissioned : List Nat
  params : FleetParams
  lines : Table (LineCfg × CountCfg)
  stands : Table (StandCfg × Bool)
  massTolerance : Nat
deriving DecidableEq, Repr

/-- The built-in defaults (R215). -/
def Image.default : Image := ⟨[], [], [], [], [], FleetParams.default, [], [], Config.massTolerance⟩

/-- The two banks (R215). -/
inductive BankName | a | b
deriving DecidableEq, Repr

/-- A bank with a valid CRC: its image and generation (R215, log 8). -/
structure Bank where
  generation : Nat
  image : Image
deriving DecidableEq, Repr

/-- A Save Configuration in progress: the record being written, its generation and its bank (R218). -/
structure Save where
  generation : Nat
  image : Image
  target : BankName
deriving DecidableEq, Repr

/-- What START reports of the configuration (R221). -/
inductive LoadResult | loaded (generation : Nat) | defaults | kept
deriving DecidableEq, Repr

/-! ### Messages on the partner links (11.4) -/

/-- What PREP PANEL shows (R136). -/
structure Panel where
  st : StandAddr
  arm : ArmName
  reel : Option ReelId
  grade : Nat
  stripped : Bool
  waiting : Nat
deriving DecidableEq, Repr

/-- Outward messages on a Line Link (11.4). -/
inductive LineMsg
  | ceiling (v : Nat)
  | loadRequest (st : StandAddr) (arm : ArmName) (id : ReelId)
  | unloadRequest (st : StandAddr) (arm : ArmName) (id : ReelId)
  | splice (st : StandAddr) (fromArm toArm : ArmName)
  | prepPanel (p : Option Panel)
  | gateInterval (first : GateCount) (stop : Option GateCount) (cause : Cause)
  | gateEnd (first stop : GateCount)
  | hold (count : Nat) (first : FaultKey)
  | release
deriving DecidableEq, Repr

/-! ### Notices (11.2) -/

/-- What a FAULT notice reports (R198). -/
inductive FaultChange | active | inactive | pulse | unlatched
deriving DecidableEq, Repr

/-- The spoilage report of an Edition Closed notice (R194), masses in grams. -/
structure SpoilageReport where
  line : Nat
  number : Nat
  opened : Nat
  closed : Nat
  target : Nat
  finalized : Nat
  good : Nat
  overrun : Nat
  waste : Waste
  splices : Nat
  breaks : Nat
  printedLength : Nat
  printedMass : Nat
  whiteLength : Nat
  whiteMass : Nat
  reelsUsed : Nat
  truncated : Bool
  copySpoilage : Nat
  paperSpoilage : Nat
deriving DecidableEq, Repr

/-- The notices (11.2), with the content their owning rules give. -/
inductive Notice
  | start (cause : ResetCause) (load : LoadResult) (clock : Nat) (strap : Bool)
  | fault (key : FaultKey) (change : FaultChange) (entry : FaultEntry)
  | lineHold (line : Nat) (hold : Option LineHold)
  | custodyRefused (reel : ReelRef) (change : Custody) (block : Block) (found : Option (ReelState × Location))
  | stockLevel (grade count threshold : Nat) (low : Bool)
  | missionEnd (slot : Nat) (kind : MissionKind) (reel : Option ReelRef) (vehicle : Option Nat) (outcome : MissionOutcome)
  | vehicleAbort (v : Nat) (record : AbortRecord)
  | callRaised (st : StandAddr) (deadline reraises : Nat)
  | callEnd (st : StandAddr) (outcome : CallOutcome) (reel : Option ReelRef)
  | loadRefused (st : StandAddr) (arm : ArmName) (id : ReelId) (reason : Nat)
  | spliceEnd (record : SpliceRecord)
  | ceilingChanged (line ceiling top : Nat) (reduced byHost : Bool) (lowest : Option StandAddr)
  | targetReached (line number target good clock : Nat)
  | editionClosed (report : SpoilageReport)
  | configurationSaved (ok : Bool) (generation : Nat)
deriving DecidableEq, Repr

/-- A notice with the sequence number that is its tag (R212). -/
structure Queued where
  seq : Byte
  notice : Notice
deriving DecidableEq, Repr

/-! ### Replies (11.2) -/

/-- Reply statuses (11.2). -/
inductive Status | ok | busy | state | range | full | notFound | duplicate | badId | badFormat | unknown
deriving DecidableEq, Repr

/-- One grade in Query Stock (R40). -/
structure StockRow where
  number : Nat
  grade : Grade
  issuable : Nat
  conditioning : Nat
  allocated : Nat
  quarantined : Nat
  watch : Watch
deriving DecidableEq, Repr

/-- Numbers of bays of one kind in an aisle (R59). -/
structure BayCounts where
  configured : Nat
  occupied : Nat
  reserved : Nat
  blocked : Nat
  free : Nat
deriving DecidableEq, Repr

/-- One aisle in Query Aisles (R59). -/
structure AisleRow where
  aisle : Nat
  grade : Option Nat
  served : Bool
  normal : BayCounts
  quarantine : BayCounts
deriving DecidableEq, Repr

/-- How a vehicle holds a zone (R83). -/
inductive Holding | front | tail | ahead | other
deriving DecidableEq, Repr

/-- The answer of Query Zone for a configured zone (R83): the charger hold carries the time left, and `holding` says how the
holder has the zone. -/
structure ZoneRow where
  cfg : ZoneConfig
  holder : Option Nat
  wait : List Nat
  hold : Option (Nat × Nat)
  holding : Option Holding
deriving DecidableEq, Repr

/-- One vehicle in Query Traffic (R83). -/
structure TrafficRow where
  vehicle : Nat
  seated : Bool
  front : Option Nat
  tail : Option Nat
  ahead : List Nat
  waitsFor : Option Nat
  charger : Option Nat
deriving DecidableEq, Repr

/-- What Query Stand adds for the running reel (R143). -/
structure RunningRow where
  diameter : Nat
  estimate : Bool
  remaining : Nat
  runLength : Nat
  timeToSplice : Nat
  leadTime : Nat
deriving DecidableEq, Repr

/-- The answer of Query Stand (R143, R146): the record, the running reel, ETA and needed time, the time left of the wait
limit and of the retry wait in ticks, and the place in the slot (0) or pending list (1 on). -/
structure StandRow where
  st : StandAddr
  stand : Stand
  runningReel : Option RunningRow
  eta : Option Nat
  needed : Option Nat
  waitLeft : Option Nat
  retryLeft : Option Nat
  prepPlace : Option Nat
deriving DecidableEq, Repr

/-- The answer of Query Line Feed (R143). -/
structure LineFeedRow where
  cfg : LineCfg
  run : RunState
  speed : Nat
  slot : Option PrepEntry
  waiting : List PrepEntry
  stands : List (StandAddr × Mode × Option CallState)
deriving DecidableEq, Repr

/-- The answer of Query Status (R213). -/
structure StatusRow where
  clock : Nat
  cause : ResetCause
  generation : Option Nat
  fromDefaults : Bool
  saving : Bool
  allStop : Bool
  errors : List Nat
  fleetDown : Bool
  linesDown : List (Nat × Bool)
  queued : Nat
  dropped : Nat
  active : Nat
  latched : Nat
deriving DecidableEq, Repr

/-- One record in Query Editions (R193). -/
structure EditionRow where
  slot : Nat
  line : Nat
  number : Nat
  isOpen : Bool
  collected : Bool
  target : Nat
  good : Nat
  finalized : Nat
deriving DecidableEq, Repr

/-- Content of a reply after its status. -/
inductive Content
  | none
  | number (n : Nat)
  | reel (index : Nat) (r : Reel)
  | stock (rows : List StockRow) (records : Nat)
  | bay (bay : Option Bay) (grade : Option Nat) (served : Bool)
  | aisles (rows : List AisleRow) (waiting : Nat)
  | zone (number : Nat) (row : Option ZoneRow)
  | traffic (n : Nat) (complete : Bool) (count : Nat) (rows : List TrafficRow)
  | route (zones : List Nat) (time : Nat)
  | causes (l : List AbortCause)
  | vehicle (v : Vehicle)
  | missions (rows : List (Nat × Mission)) (free : Nat)
  | stand (row : StandRow)
  | lineFeed (row : LineFeedRow)
  | counts (c : LineCount) (gates : List (GateCount × Option GateCount))
  | copies (counted finalized good : Nat) (waste : Waste)
  | opened (slot : Nat) (replaced : Option (Nat × Nat × Bool))
  | closed (finalized good overrun : Nat) (waste : Waste)
  | edition (e : Edition) (provisional : Option Nat)
  | editions (rows : List EditionRow) (free : Nat)
  | totals (t : Totals)
  | fault (key : FaultKey) (e : FaultEntry)
  | unlatched (n active : Nat)
  | faults (rows : List (FaultKey × FaultEntry)) (holds : List (Nat × List FaultKey)) (allStop : Bool)
  | status (row : StatusRow)
deriving DecidableEq, Repr

/-- A reply: the tag of its request, its kind, its status and its content (R210). -/
structure Reply where
  tag : Byte
  kind : Nat
  status : Status
  content : Content
deriving DecidableEq, Repr

/-- A frame handed to a transmitter, with its tag (R207, log 1). -/
inductive Sent
  | reply (r : Reply)
  | notice (n : Queued)
  | line (n : Nat) (tag : Byte) (m : LineMsg)
  | directive (tag : Byte) (v : Nat) (d : Directive)
deriving DecidableEq, Repr

/-- One link: its error count (R208), its transmit sequence number (R207) and the unfinished frame
its receiver was left with when it last hunted on (log 65). -/
structure LinkRec where
  errors : Nat
  txSeq : Byte
  rx : List Byte
deriving DecidableEq, Repr

end Sys2Proof.Machine
end

