-- ==== Sys2Proof/Machine/Geometry.lean ====
section
/-! DEFINITION. The Geometry Unit (Chapter 1): paper arithmetic on numbers alone. -/

namespace Sys2Proof.Machine

/-- Length of paper on a reel of outer diameter `dia`, core `core`, caliper `cal`, in metres (R1). -/
def lengthOf (cal core dia : Nat) : Nat :=
  if dia ≤ core then 0 else (dia * dia - core * core) * 3217 / (4096 * cal)

/-- Diameter after stripping `s` millimetres of radius, not below the core (R2). -/
def strippedDiameter (core d0 s : Nat) : Nat := max core (d0 - 2 * s)

/-- Mass of a length of paper in milligrams (R5). -/
def massOf (length width basis : Nat) : Nat := length * width * basis

/-- Expected mass of a reel in kilograms (R6). -/
def expectedMass (length width basis : Nat) : Nat := massOf length width basis / 1000000

/-- Deviation of the expected from the declared mass, in percent (R6). -/
def massDeviation (expected declared : Nat) : Nat := (max expected declared - min expected declared) * 100 / declared

/-- The metres of an estimate step (R7): interval `dt` in milliseconds. -/
def stepMetres (speed dt carry : Nat) : Nat := (speed * dt + carry) / 60000

/-- The carry an estimate step leaves (R7). -/
def stepCarry (speed dt carry : Nat) : Nat := (speed * dt + carry) % 60000

/-- Integer square root by bits: `r` has the bits above bit `b` already. -/
def isqrtBits (n : Nat) : Nat → Nat → Nat
  | 0, r => r
  | b + 1, r => if (r + 2 ^ b) * (r + 2 ^ b) ≤ n then isqrtBits n b (r + 2 ^ b) else isqrtBits n b r

/-- The largest whole number whose square does not exceed `n`, for `n` below 2^64 (R8). -/
def isqrt (n : Nat) : Nat := isqrtBits n 32 0

/-- Diameter of a reel in estimate mode from its remaining length (R8). -/
def estimateDiameter (cal core remaining : Nat) : Nat := isqrt (core * core + remaining * (4096 * cal) / 3217)

/-- Effective splice diameter for a reel of core `core` (R9). -/
def effDs (ds core : Nat) : Nat := max ds (core + 20)

/-- Effective minimum diameter for a reel of core `core` (R9). -/
def effDmin (dmin core : Nat) : Nat := max dmin (core + 5)

/-- A number of seconds held at 65,535 (R18). -/
def satSeconds (n : Nat) : Nat := min n Config.maxSeconds

/-- Time to splice from run length and speed (R10). -/
def timeToSpliceOf (run speed : Nat) : Nat :=
  if run = 0 then 0 else if speed = 0 then Config.maxSeconds else satSeconds (60 * run / speed)

/-- Needed time from ETA and prep remaining (R14). -/
def neededOf (eta prep : Nat) : Nat := satSeconds (max 10 (eta + prep))

/-- Prep remaining of a reel on the arm, not yet prepared (R14). -/
def prepRemaining (allowance clock loadedAt : Nat) : Nat := max 30 (allowance - satSeconds (clock - loadedAt))

/-- A web speed floored to a multiple of 10. -/
def floor10 (v : Nat) : Nat := v / 10 * 10

/-- Ceiling value of a stand (R15). -/
def ceilingValue (run needed crawl lineMax : Nat) : Nat := min lineMax (max crawl (floor10 (60 * run / needed)))

/-- Splice delay of a stand in copies, rounded up (R16). -/
def spliceDelay (webPath cutoff : Nat) : Nat := (webPath + cutoff - 1) / cutoff

/-- First copy of a SPLICE interval; a result below 1 is taken as 1 (R16). -/
def spliceFirst (ccut delay preMargin : Nat) : Nat := max 1 (ccut + delay - preMargin)

/-- The value of an ASCII digit. -/
def digitOf (c : Byte) : Option Nat := if 48 ≤ c.toNat ∧ c.toNat ≤ 57 then some (c.toNat - 48) else none

/-- Sum of the digits times the weights `w`, `w - 1`, … (R17). -/
def weightedSum : List Nat → Nat → Nat
  | [], _ => 0
  | d :: ds, w => d * w + weightedSum ds (w - 1)

/-- The check character of ten digits, as its ASCII code (R17). -/
def checkChar (ds : List Nat) : Nat :=
  let v := (11 - weightedSum ds 10 % 11) % 11
  if v = 10 then 88 else 48 + v

/-- Whether a reel ID is well-formed (R17). -/
def idWellFormed (id : ReelId) : Bool :=
  match (id.take 10).mapM digitOf, id.drop 10 with
  | some ds, [c] => decide (ds.length = 10) && decide (c.toNat = checkChar ds)
  | _, _ => false

/-- Parts per thousand, 0 when the divisor is 0 (R194). -/
def perThousand (n d : Nat) : Nat := if d = 0 then 0 else n * 1000 / d

end Sys2Proof.Machine
end

