-- ==== Sys2Proof/Machine/State.lean ====
section
/-! DEFINITION. The state of the GP416, the reasons a step could stop, and the machine right after reset. -/

namespace Sys2Proof.Machine

/-- A consequence of the event being taken that one block owes to another, made before the next command (log 4). -/
inductive Job
  | bayWalk | missionLeft | chargersFree | arbiter
  | starvedRetry (grade width : Nat)
  | gotDrop (slot : Nat)
  | loadReady (slot : Nat)
  | unloadReady (slot : Nat)
  | chargeNeed (v : Nat)
  | reRaise (st : StandAddr)
  | callTest (st : StandAddr)
  | spliceTest (st : StandAddr)
  | requestLoad (st : StandAddr)
  | retryRoutes
deriving DecidableEq, Repr

/-- Everything the blocks own but the store, the replies and the queue of commands. -/
structure Hall where
  /-- Hall clock (R220). -/
  clock : Nat
  /-- Supervision timebase, in ticks of 10 ms (log 6). -/
  timebase : Nat
  /-- Timebase at which the current count of 100 ticks began (R220). -/
  secondFrom : Nat
  /-- Notice queue, oldest first, at most 64 (R212). -/
  notices : List Queued
  noticeSeq : Byte
  dropped : Nat
  /-- The six links: Host 0, Line 1 to 4, Fleet 5. -/
  links : Table LinkRec
  /-- Frames handed to the transmitters, oldest first (log 1). -/
  sent : List Sent
  lastReset : ResetCause
  fromDefaults : Bool
  strap : Bool
  grades : Table Grade
  /-- Watched and low flags by grade; a grade not listed has both clear (R41). -/
  watch : Table Watch
  reels : Table Reel
  massTolerance : Nat
  bays : Table Bay
  /-- Grade assignments by aisle; an aisle not listed is ANY (R50). -/
  aisles : Table Nat
  zones : Table Zone
  vehicles : Table Vehicle
  missions : Table Mission
  allStop : Bool
  params : FleetParams
  /-- Expiry of the fleet link silence timer (R205). -/
  fleetSilence : Option Nat
  lines : Table Line
  stands : Table Stand
  counts : Table LineCount
  editions : Table Edition
  unassigned : Table Totals
  faults : Table (FaultKey × FaultEntry)
  /-- The lines that are HELD; the HOLD output of a line is high while it is listed (R201, R202). -/
  holds : Table LineHold
  agenda : List Job
  /-- Lines whose ceiling is to be formed at the end of the event (log 4). -/
  ceilings : List Nat
deriving DecidableEq, Repr

/-- The Host Link's replies waiting for the transmitter, and the modes of the restarts replied OK and not yet made, oldest
first (R210, R221). -/
structure HostPort where
  replies : List Reply
  restarts : List RestartMode
deriving DecidableEq, Repr

/-- The Configuration Store: two banks, none where the CRC is not valid, and the save in progress (R215, R218). -/
structure Store where
  bankA : Option Bank
  bankB : Option Bank
  save : Option Save
deriving DecidableEq, Repr

/-- The state of the GP416, with the queue of commands that are waiting, first in first out. -/
structure State where
  pending : List Instr
  host : HostPort
  store : Store
  hall : Hall
deriving DecidableEq, Repr

/-- Reasons a step could fault. The part never stops: no meaning raises one (INVENTORY, Faults). -/
inductive Fault
  /-- Raised by no meaning; safe. -/
  | none
deriving DecidableEq, Repr

/-- Reasons a step could be refused. -/
inductive Refusal
  /-- Raised by exec for a command that has no meaning yet; safe. -/
  | notModelled (mnemonic : String)
deriving DecidableEq, Repr

/-- A link after a reset: no errors, sequence number 0, hunting (R207, R208). -/
def LinkRec.fresh : LinkRec := ⟨0, 0, []⟩

/-- The entry CONFIG_DEFAULTS as a cold reset with no valid bank leaves it (R206). -/
def FaultEntry.configDefaults : FaultEntry := ⟨true, true, some 0, some 0, 1⟩

/-- The hall after a cold reset by POWER_ON that finds no valid bank (R206, R217, R221, log 7). -/
def Hall.reset : Hall where
  clock := 0
  timebase := 0
  secondFrom := 0
  notices := [⟨0, .start .powerOn .defaults 0 false⟩, ⟨1, .fault ⟨.configDefaults, .none⟩ .active FaultEntry.configDefaults⟩]
  noticeSeq := 2
  dropped := 0
  links := [(0, LinkRec.fresh), (1, LinkRec.fresh), (2, LinkRec.fresh), (3, LinkRec.fresh), (4, LinkRec.fresh), (5, LinkRec.fresh)]
  sent := []
  lastReset := .powerOn
  fromDefaults := true
  strap := false
  grades := []
  watch := []
  reels := []
  massTolerance := Config.massTolerance
  bays := []
  aisles := []
  zones := []
  vehicles := (List.range 24).map fun i => (i + 1, { Vehicle.cold with number := i + 1 })
  missions := []
  allStop := false
  params := FleetParams.default
  fleetSilence := none
  lines := []
  stands := []
  counts := []
  editions := []
  unassigned := []
  faults := [(1024, ⟨.configDefaults, .none⟩, FaultEntry.configDefaults)]
  holds := []
  agenda := []
  ceilings := []

/-- The machine right after reset: power-on of a part whose banks hold no valid image (log 7). -/
def State.reset : State where
  pending := []
  host := ⟨[], []⟩
  store := ⟨none, none, none⟩
  hall := Hall.reset

end Sys2Proof.Machine
end

