-- ==== Sys2Proof/Machine/Ops.lean ====
section
/-! DEFINITION. Operations every block uses: the tables of the hall, notices, frames sent, directives, the all-stop. -/

namespace Sys2Proof.Machine

/-! ### Consequences owed (log 4) -/

/-- Owe a consequence; one already owed is not owed twice. -/
def Hall.push (j : Job) (h : Hall) : Hall :=
  if j ∈ h.agenda then h else { h with agenda := h.agenda ++ [j] }

/-- Whether a consequence may ask for a mission slot other than as `missionLeft` gives it (R95). -/
def Job.asksSlot : Job → Bool
  | .chargersFree | .starvedRetry _ _ | .chargeNeed _ | .reRaise _ | .callTest _ => true
  | _ => false

/-- A mission has left the table: owe the serving of the requesters that wait for a slot, ahead of every consequence owed
that may ask for one (R95), so that calls RAISED already are served before one the same event re-raises, by the model's choice
(log 87). -/
def Hall.oweSlots (h : Hall) : Hall :=
  if .missionLeft ∈ h.agenda then h
  else { h with agenda := h.agenda.takeWhile (fun j => !j.asksSlot) ++ .missionLeft :: h.agenda.dropWhile fun j => !j.asksSlot }

/-- Owe the forming of a line's ceiling at the end of the event (R161). -/
def Hall.oweCeiling (line : Nat) (h : Hall) : Hall :=
  if line ∈ h.ceilings then h else { h with ceilings := h.ceilings ++ [line] }

/-! ### Records -/

/-- The record of vehicle `v`. -/
def Hall.vehicle (h : Hall) (v : Nat) : Vehicle := (tget h.vehicles v).getD Vehicle.cold

/-- Change the record of vehicle `v`. -/
def Hall.modVehicle (v : Nat) (f : Vehicle → Vehicle) (h : Hall) : Hall := { h with vehicles := tmod h.vehicles v f }

/-- The mission in a slot. -/
def Hall.mission (h : Hall) (slot : Nat) : Option Mission := tget h.missions slot

/-- Change the mission in a slot. -/
def Hall.modMission (slot : Nat) (f : Mission → Mission) (h : Hall) : Hall := { h with missions := tmod h.missions slot f }

/-- The configured line `n`. -/
def Hall.line (h : Hall) (n : Nat) : Option Line := tget h.lines n

/-- Change line `n`. -/
def Hall.modLine (n : Nat) (f : Line → Line) (h : Hall) : Hall := { h with lines := tmod h.lines n f }

/-- Whether the run state of a line is BROKEN (R157). -/
def Hall.broken (h : Hall) (n : Nat) : Bool := (h.line n).any fun l => decide (l.run = .broken)

/-- The configured stand `st`. -/
def Hall.stand (h : Hall) (st : StandAddr) : Option Stand := tget h.stands (standKey st)

/-- Change stand `st`. -/
def Hall.modStand (st : StandAddr) (f : Stand → Stand) (h : Hall) : Hall := { h with stands := tmod h.stands (standKey st) f }

/-- The stands of a line, in address order. -/
def Hall.standsOf (h : Hall) (line : Nat) : List StandAddr :=
  (h.stands.map fun p => standOfKey p.1).filter fun st => st.line = line

/-- An arm of a stand record. -/
def Stand.arm (s : Stand) : ArmName → Arm
  | .a => s.armA
  | .b => s.armB

/-- Change an arm of a stand record. -/
def Stand.modArm (x : ArmName) (f : Arm → Arm) (s : Stand) : Stand :=
  match x with
  | .a => { s with armA := f s.armA }
  | .b => { s with armB := f s.armB }

/-- The standby arm: the arm that is not the running arm; none without a running arm (6.1). -/
def Stand.standby (s : Stand) : Option ArmName := s.running.map ArmName.other

/-- Change an arm of stand `st`. -/
def Hall.modArm (st : StandAddr) (x : ArmName) (f : Arm → Arm) (h : Hall) : Hall := h.modStand st (Stand.modArm x f)

/-- The zone `z`, when configured. -/
def Hall.zone (h : Hall) (z : Nat) : Option Zone := tget h.zones z

/-- Change zone `z`. -/
def Hall.modZone (z : Nat) (f : Zone → Zone) (h : Hall) : Hall := { h with zones := tmod h.zones z f }

/-- The bay `b`, when configured. -/
def Hall.bay (h : Hall) (b : BayAddr) : Option Bay := tget h.bays (bayKey b)

/-- Change bay `b`. -/
def Hall.modBay (b : BayAddr) (f : Bay → Bay) (h : Hall) : Hall := { h with bays := tmod h.bays (bayKey b) f }

/-- The line's counting record. -/
def Hall.count (h : Hall) (n : Nat) : Option LineCount := tget h.counts n

/-! ### Notices and frames (R207, R212) -/

/-- Offer a notice: it takes the next sequence number, and is dropped when the queue is full (R212). -/
def Hall.notify (n : Notice) (h : Hall) : Hall :=
  if h.notices.length < Config.noticeSlots then
    { h with notices := h.notices ++ [⟨h.noticeSeq, n⟩], noticeSeq := h.noticeSeq + 1 }
  else { h with noticeSeq := h.noticeSeq + 1, dropped := satAdd Config.max8 h.dropped 1 }

/-- The record of a link. -/
def Hall.link (h : Hall) (l : Link) : LinkRec := (tget h.links (linkKey l)).getD LinkRec.fresh

/-- Count one link error, held at 65,535 (R208). -/
def Hall.linkError (l : Link) (h : Hall) : Hall :=
  { h with links := tmod h.links (linkKey l) fun r => { r with errors := satAdd Config.max16 r.errors 1 } }

/-- Send a message on Line Link `n` with the link's next transmit sequence number (R207). -/
def Hall.sendLine (n : Nat) (m : LineMsg) (h : Hall) : Hall :=
  { h with
    sent := h.sent ++ [.line n (h.link (.line n)).txSeq m]
    links := tmod h.links n fun r => { r with txSeq := r.txSeq + 1 } }

/-- Send a DIRECTIVE on the Fleet Link (R92, R207). -/
def Hall.sendDirective (v : Nat) (d : Directive) (h : Hall) : Hall :=
  { h with
    sent := h.sent ++ [.directive (h.link .fleet).txSeq v d]
    links := tmod h.links (linkKey .fleet) fun r => { r with txSeq := r.txSeq + 1 } }

/-! ### Directives (R92, R93, R110) -/

/-- The zone whose wait list vehicle `v` stands in. -/
def Hall.waitsFor (h : Hall) (v : Nat) : Option Nat := (h.zones.find? fun p => p.2.wait.contains v).map (·.1)

/-- Whether replacing `old` by `new` drops or replaces the route of a MOVE (R77, R93); a STOP drops no route (R82). -/
def dropsMove : DirKind → DirKind → Bool
  | .move r _, .move r' _ => decide (r ≠ r')
  | .move _ _, .stop => false
  | .move _ _, _ => true
  | _, _ => false

/-- Whether a withdrawal is owed once the directive that replaces `old` is acknowledged: the route is dropped and the
vehicle has granted-ahead zones or a wait entry to give up (R77, R93, log 14). -/
def Hall.owesWithdrawal (h : Hall) (v : Nat) (old new : DirKind) : Bool :=
  (h.vehicle v).withdraw || (dropsMove old new && (!(h.vehicle v).ahead.isEmpty || (h.waitsFor v).isSome))

/-- Issue a directive: number plus 1, current, sent at once (R92). -/
def Hall.issue (v : Nat) (k : DirKind) (h : Hall) : Hall :=
  let d : Directive := ⟨(h.vehicle v).directive.number + 1, k⟩
  let owed := h.owesWithdrawal v (h.vehicle v).directive.kind k
  (h.modVehicle v fun x => { x with directive := d, withdraw := owed }).sendDirective v d

/-- Stop a vehicle: activity and directive are kept, STOP is issued (R110). -/
def Hall.stopVehicle (v : Nat) (kept : Kept) (h : Hall) : Hall :=
  (h.modVehicle v fun x => { x with kept := some kept, beforeStop := some x.activity, activity := .stopped }).issue v .stop

/-- Give a vehicle a directive. During all-stop it becomes the kept directive of a STOPPED vehicle (R92), and a vehicle
whose transfer was let run on is stopped with it as the others (R110). -/
def Hall.direct (v : Nat) (k : DirKind) (h : Hall) : Hall :=
  let x := h.vehicle v
  if h.allStop && x.seated then
    if x.activity = .stopped then
      let old := match x.kept with
        | some q => q.kind
        | none => .hold
      let owed := h.owesWithdrawal v old k
      h.modVehicle v fun y => { y with kept := some ⟨none, k⟩, withdraw := owed }
    else h.stopVehicle v ⟨none, k⟩
  else h.issue v k

/-- Set a vehicle's activity; a STOPPED vehicle takes it as its activity before stop (R111), and a vehicle that is not
seated stays OFFLINE (R86). -/
def Hall.setActivity (v : Nat) (a : Activity) (h : Hall) : Hall :=
  h.modVehicle v fun x =>
    if !x.seated then x
    else if h.allStop && decide (x.activity = .stopped) then { x with beforeStop := some a }
    else { x with activity := a }

/-- What a vehicle does, or did before the all-stop while it is STOPPED (R86, R111). -/
def Vehicle.pursuit (x : Vehicle) : Activity := if x.activity = .stopped then x.beforeStop.getD .idle else x.activity

/-- Place of a zone in a route, counted from 1; 1 when it is not there. -/
def placeIn (zones : List Nat) (z : Nat) : Nat :=
  match zones.findIdx? (· = z) with
  | some i => i + 1
  | none => 1

/-- The furthest zone a vehicle holds: its last granted-ahead zone, or its front (R73, R93). -/
def Vehicle.furthest (x : Vehicle) : Option Nat := x.ahead.getLast?.or x.front

/-- Granted-through index of a MOVE along `zones` (R92): the furthest held zone, or the front while a withdrawal is owed. -/
def Vehicle.through (x : Vehicle) (zones : List Nat) : Nat :=
  placeIn zones (((if x.withdraw then x.front else x.furthest)).getD 0)

/-- Issue the current MOVE again when its granted-through index has changed (R92). -/
def Hall.refreshMove (v : Nat) (h : Hall) : Hall :=
  match (h.vehicle v).directive.kind with
  | .move zones t =>
    let t' := (h.vehicle v).through zones
    if t' = t then h else h.issue v (.move zones t')
  | _ => h

/-- The vehicle numbers. -/
def vehicleNumbers : List Nat := (List.range 24).map (· + 1)

/-- Whether the vehicle's TRANSFER or UNLOAD is current, which an all-stop lets run on (R110). -/
def Vehicle.transferring (x : Vehicle) : Bool :=
  match x.directive.kind with
  | .transfer _ _ _ | .unload _ _ _ => decide (x.activity = .handover)
  | _ => false

/-- The all-stop of one vehicle (R110). -/
def Hall.haltVehicle (h : Hall) (v : Nat) : Hall :=
  let x := h.vehicle v
  if x.seated && !x.transferring then h.stopVehicle v ⟨some x.directive.number, x.directive.kind⟩ else h

/-- The fleet becomes all-stopped; while it is, nothing changes (R110). -/
def Hall.haltFleet (h : Hall) : Hall :=
  if h.allStop then h else vehicleNumbers.foldl Hall.haltVehicle { h with allStop := true }

/-- Milliseconds from one time of the timebase to another. -/
def msSince (now past : Nat) : Nat := (now - past) * Config.msPerTick

end Sys2Proof.Machine
end

