-- ==== Sys2Proof/Machine/Flags.lean ====
section
/-! DEFINITION. The Fault Table's flags (Chapter 10): making entries active, inactive, pulsed and unlatched, and line holds. -/

namespace Sys2Proof.Machine

/-- The entry of a kind and subject; one not listed has nothing in it (R196). -/
def Hall.fault (h : Hall) (k : FaultKey) : FaultEntry := ((tget h.faults k.num).map (·.2)).getD FaultEntry.clear

/-- Store an entry; an entry with nothing in it is not listed. -/
def Hall.setFault (k : FaultKey) (e : FaultEntry) (h : Hall) : Hall :=
  { h with faults := if e = FaultEntry.clear then tdel h.faults k.num else tput h.faults k.num (k, e) }

/-- The line of a line or stand subject. -/
def subjectLine : Subject → Option Nat
  | .line n => some n
  | .stand st => some st.line
  | .none | .vehicle _ => none

/-- Whether an entry holds line `n` (R201). -/
def holdsLine (degraded : Bool) (n : Nat) (k : FaultKey) (e : FaultEntry) : Bool :=
  e.latched && decide (subjectLine k.subject = some n) &&
    (decide (faultClass k.kind = .fatal) || (degraded && decide (faultClass k.kind = .degraded)))

/-- The line's hold-on-degraded setting (R164). -/
def Hall.holdOnDegraded (h : Hall) (n : Nat) : Bool :=
  match h.count n with
  | some c => c.cfg.holdOnDegraded
  | none => false

/-- The holding entries of line `n` in table order; none for a line not configured (R201). -/
def Hall.holding (h : Hall) (n : Nat) : List FaultKey :=
  if (h.line n).isSome then
    (h.faults.filter fun p => holdsLine (h.holdOnDegraded n) n p.2.1 p.2.2).map fun p => p.2.1
  else []

/-- What HOLD would carry of line `n`; none while no entry holds it (R202). -/
def Hall.holdContent (h : Hall) (n : Nat) : Option LineHold :=
  match h.holding n with
  | [] => none
  | k :: rest => some ⟨rest.length + 1, k⟩

/-- Send the present hold state of line `n` as HOLD or RELEASE (R202). -/
def Hall.sendHold (n : Nat) (h : Hall) : Hall :=
  match tget h.holds n with
  | some x => h.sendLine n (.hold x.count x.first)
  | none => h.sendLine n .release

/-- Send the hold state of line `n` again; a HOLD queues its notice (R202). -/
def Hall.resendHold (n : Nat) (h : Hall) : Hall :=
  match tget h.holds n with
  | some x => (h.sendHold n).notify (.lineHold n (some x))
  | none => h.sendHold n

/-- Evaluate the hold of line `n` anew: the output, HOLD or RELEASE, and Line Hold follow a change (R201, R202). -/
def Hall.evalHold (n : Nat) (h : Hall) : Hall :=
  let now := h.holdContent n
  if now = tget h.holds n then h
  else
    let h' := { h with holds := match now with
      | some x => tput h.holds n x
      | none => tdel h.holds n }
    (h'.sendHold n).notify (.lineHold n now)

/-- Evaluate the hold of a subject's line. -/
def Hall.evalSubject (s : Subject) (h : Hall) : Hall :=
  match subjectLine s with
  | some n => h.evalHold n
  | none => h

/-- An entry made active (R197). -/
def FaultEntry.activate (e : FaultEntry) (clock : Nat) : FaultEntry :=
  { active := true, latched := true, first := some (e.first.getD clock), last := some clock
    occurrences := satAdd Config.max8 e.occurrences 1 }

/-- The FATAL fleet kinds (R203). -/
def stopsFleet : FaultKind → Bool
  | .zoneConflict | .fleetLinkDown => true
  | _ => false

/-- Store a changed entry, queue its FAULT notice, then let its line's hold follow (R198). -/
def Hall.changeFault (k : FaultKey) (c : FaultChange) (e : FaultEntry) (h : Hall) : Hall :=
  ((h.setFault k e).notify (.fault k c e)).evalSubject k.subject

/-- Make an entry active; a FATAL fleet entry then asks the all-stop (R197, R203). -/
def Hall.raise (k : FaultKey) (h : Hall) : Hall :=
  if (h.fault k).active then h
  else
    let h := h.changeFault k .active ((h.fault k).activate h.clock)
    if stopsFleet k.kind then h.haltFleet else h

/-- Make an entry inactive (R197). -/
def Hall.lower (k : FaultKey) (h : Hall) : Hall :=
  if (h.fault k).active then h.changeFault k .inactive { h.fault k with active := false } else h

/-- Pulse an entry (R197). -/
def Hall.pulse (k : FaultKey) (h : Hall) : Hall :=
  let e := h.fault k
  h.changeFault k .pulse { e.activate h.clock with active := e.active }

/-- Make an entry active or inactive as a condition holds or not. -/
def Hall.setActive (k : FaultKey) (b : Bool) (h : Hall) : Hall := if b then h.raise k else h.lower k

/-- Clear the latch of an inactive latched entry (R199). -/
def Hall.unlatch (k : FaultKey) (h : Hall) : Hall := h.changeFault k .unlatched FaultEntry.clear

/-- A stand's entry of a kind. -/
def standFault (k : FaultKind) (st : StandAddr) : FaultKey := ⟨k, .stand st⟩

/-- Whether a line's link is down (R204). -/
def Hall.linkDown (h : Hall) (n : Nat) : Bool := (h.fault ⟨.lineLinkDown, .line n⟩).active

end Sys2Proof.Machine
end

