-- ==== Sys2Proof/Machine/Register.lean ====
section
/-! DEFINITION. The Reel Register's operations (Chapter 2): stock watch, custody changes, allocation and release. -/

namespace Sys2Proof.Machine

/-! ### Records -/

/-- The record a custody request names: its slot holds a record with that ID (R26). -/
def Hall.reel (h : Hall) (ref : ReelRef) : Option Reel := (tget h.reels ref.index).filter fun r => decide (r.id = ref.id)

/-- The record with a reel ID, with its index (R19). -/
def Hall.reelById (h : Hall) (id : ReelId) : Option (Nat × Reel) := h.reels.find? fun p => decide (p.2.id = id)

/-- The grade of a reel; a grade in use is defined (R23). -/
def Hall.gradeOf (h : Hall) (r : Reel) : Grade := (tget h.grades r.grade).getD ⟨[], 0, 0, 0, 0, 0⟩

/-- Length of paper on reel `r` at diameter `d` (R1). -/
def Hall.reelLength (h : Hall) (r : Reel) (d : Nat) : Nat := lengthOf (h.gradeOf r).caliper r.core d

/-- Whether a mission in the table names the reel (R95). -/
def Hall.named (h : Hall) (ref : ReelRef) : Bool := h.missions.any fun p => decide (p.2.reel = some ref)

/-- The issuable count of a grade: its STORED reels (R41). -/
def Hall.issuable (h : Hall) (g : Nat) : Nat :=
  (h.reels.filter fun p => decide (p.2.grade = g ∧ p.2.state = .stored)).length

/-- The state of a reel at rest by the clock: STORED once its earliest issue time is reached (R28, R36). -/
def Reel.restState (r : Reel) (clock : Nat) : ReelState := if r.earliest ≤ clock then .stored else .conditioning

/-! ### Stock watch (R41) -/

/-- The flags of a grade after an evaluation (R41). -/
def Watch.next (w : Watch) (count threshold : Nat) : Watch :=
  let watched := w.watched || decide (threshold < count)
  ⟨watched, watched && decide (count ≤ threshold)⟩

/-- Evaluate the flags of a grade; a change of the low flag is noticed and moves STOCK_LOW (R41). -/
def Hall.stockWatch (g : Nat) (h : Hall) : Hall :=
  match tget h.grades g with
  | none => h
  | some gr =>
    let old := (tget h.watch g).getD ⟨false, false⟩
    let new := old.next (h.issuable g) gr.threshold
    if new = old then h
    else
      let h' := { h with watch := tput h.watch g new }
      if new.low = old.low then h'
      else (h'.notify (.stockLevel g (h.issuable g) gr.threshold new.low)).setActive ⟨.stockLow, .none⟩
        (h'.watch.any fun p => p.2.low)

/-- Store a changed record; the stock watch follows a change of the issuable count (R41). -/
def Hall.putReel (i : Nat) (r : Reel) (h : Hall) : Hall :=
  let was := (tget h.reels i).any fun o => decide (o.state = .stored)
  let h' := { h with reels := tput h.reels i r }
  if was = decide (r.state = .stored) then h' else h'.stockWatch r.grade

/-! ### Places (R20, R51) -/

/-- A bay whose occupant or reservation has gone is free when unblocked and empty, and then starts the walk (R51, R57). -/
def Hall.bayMayBeFree (b : BayAddr) (h : Hall) : Hall :=
  match h.bay b with
  | some x => if !x.blocked && x.occupant.isNone && x.reserved.isNone then h.push .bayWalk else h
  | none => h

/-- Clear the occupant a place records (R20). A vehicle that loses its load may become available (R97). -/
def Hall.clearPlace (l : Location) (h : Hall) : Hall :=
  match l with
  | .bay b => (h.modBay b fun x => { x with occupant := none }).bayMayBeFree b
  | .vehicle v => (h.modVehicle v fun x => { x with load := none }).push .arbiter
  | .arm st arm => h.modArm st arm fun x => { x with reel := none }
  | .dock _ | .nowhere => h

/-- Record the occupant of a place (R20); a bay's reservation ends with it (R57). -/
def Hall.fillPlace (l : Location) (ref : ReelRef) (h : Hall) : Hall :=
  match l with
  | .bay b => h.modBay b fun x => { x with occupant := some ref, reserved := none }
  | .vehicle v => h.modVehicle v fun x => { x with load := some ref }
  | .arm st arm => h.modArm st arm fun x => { x with reel := some ref }
  | .dock _ | .nowhere => h

/-- Make a custody change: the record and the places of R20 together. -/
def Hall.custody (ref : ReelRef) (r r' : Reel) (h : Hall) : Hall :=
  if r.loc = r'.loc then h.putReel ref.index r'
  else ((h.clearPlace r.loc).fillPlace r'.loc ref).putReel ref.index r'

/-- Start the starved-call retry of a reel that has become STORED (R45). -/
def Hall.retryIfStored (r r' : Reel) (h : Hall) : Hall :=
  if r.state ≠ .stored ∧ r'.state = .stored then h.push (.starvedRetry r'.grade r'.width) else h

/-- Hand the call a reel held back to the Feed Planner for re-raising (R29, R30, R31, R34). -/
def Hall.handBack (r : Reel) (h : Hall) : Hall :=
  match r.call with
  | some st => h.push (.reRaise st)
  | none => h

/-! ### Custody requests (R26) -/

/-- Refuse a custody request: CUSTODY_ERROR counts one occurrence, and a Custody Refused notice is queued (R26). -/
def Hall.refuseCustody (ref : ReelRef) (c : Custody) (b : Block) (h : Hall) : Hall :=
  (h.pulse ⟨.custodyError, .none⟩).notify (.custodyRefused ref c b ((tget h.reels ref.index).map fun r => (r.state, r.loc)))

/-- A custody request: made when the record meets `ok`, and refused otherwise. The answer is the metres booked, or
none for a refusal (R26). -/
def Hall.askCustody (ref : ReelRef) (c : Custody) (b : Block) (ok : Reel → Bool) (make : Reel → Hall → Hall)
    (metres : Reel → Nat) (h : Hall) : Hall × Option Nat :=
  match h.reel ref with
  | some r => if ok r then (make r h, some (metres r)) else (h.refuseCustody ref c b, none)
  | none => (h.refuseCustody ref c b, none)

/-- No metres are booked. -/
def noMetres (_ : Reel) : Nat := 0

/-- A reel on vehicle `v` as R28, R30 and R34 expect it. -/
def Reel.aboard (r : Reel) (v : Nat) : Bool := decide (r.loc = .vehicle v ∧ (r.state = .inTransit ∨ r.state = .quarantined))

/-- A reel ON_ARM at the arm named. -/
def Reel.onArm (r : Reel) (st : StandAddr) (arm : ArmName) : Bool := decide (r.state = .onArm ∧ r.loc = .arm st arm)

/-- The record QUARANTINED for a reason. -/
def Reel.quarantine (r : Reel) (why : Reason) : Reel := { r with state := .quarantined, reason := some why }

/-- Pick (R27): `pickup` is the dock or bay of the mission; none for a stray load, which expects no place (R109). -/
def Hall.askPick (v : Nat) (ref : ReelRef) (pickup : Option Location) (h : Hall) : Hall × Option Nat :=
  h.askCustody ref .pick .fleetController
    (fun r => decide (some r.loc = pickup) && decide (r.state = .atDock ∨ r.state = .conditioning ∨ r.state = .stored ∨
      r.state = .allocated ∨ r.state = .quarantined))
    (fun r => Hall.custody ref r
      { r with loc := .vehicle v, state := if r.state = .quarantined then .quarantined else .inTransit }) noMetres

/-- The record of a reel placed in a bay of kind `k` (R28). -/
def Reel.placedIn (r : Reel) (b : BayAddr) (k : BayKind) (clock : Nat) : Reel :=
  let r := { r with loc := .bay b, call := none }
  if r.state = .quarantined then r
  else match k with
    | .quarantine => r.quarantine .host
    | .normal => { r with state := r.restState clock }

/-- Place (R28) into the drop bay. -/
def Hall.askPlace (v : Nat) (ref : ReelRef) (b : BayAddr) (h : Hall) : Hall × Option Nat :=
  h.askCustody ref .place .fleetController
    (fun r => r.aboard v && (h.bay b).any fun x => x.occupant.isNone)
    (fun r h => match h.bay b with
      | some x => (h.custody ref r (r.placedIn b x.kind h.clock)).retryIfStored r (r.placedIn b x.kind h.clock)
      | none => h) noMetres

/-- Pickup empty (R29). -/
def Hall.askPickupEmpty (ref : ReelRef) (pickup : Location) (h : Hall) : Hall × Option Nat :=
  h.askCustody ref .pickupEmpty .fleetController (fun r => decide (r.loc = pickup))
    (fun r h => (h.custody ref r { r.quarantine .pickupEmpty with loc := .nowhere, call := none }).handBack r) noMetres

/-- Block the bay of an ID mismatch (R58). -/
def Hall.blockBay (l : Location) (h : Hall) : Hall :=
  match l with
  | .bay b => h.modBay b fun x => { x with blocked := true }
  | _ => h

/-- ID mismatch (R29, R58). -/
def Hall.askIdMismatch (ref : ReelRef) (pickup : Location) (h : Hall) : Hall × Option Nat :=
  h.askCustody ref .idMismatch .fleetController (fun r => decide (r.loc = pickup))
    (fun r h => ((h.custody ref r { r.quarantine .idMismatch with call := none }).blockBay pickup).handBack r) noMetres

/-- Vehicle lost (R30). -/
def Hall.askVehicleLost (v : Nat) (ref : ReelRef) (h : Hall) : Hall × Option Nat :=
  h.askCustody ref .vehicleLost .fleetController (fun r => r.aboard v)
    (fun r h => (h.custody ref r { r.quarantine .vehicleLost with call := none }).handBack r) noMetres

/-- Whether a location is a vehicle. -/
def Location.isVehicle : Location → Bool
  | .vehicle _ => true
  | _ => false

/-- Load onto an arm (R31). -/
def Hall.askLoad (st : StandAddr) (arm : ArmName) (v : Nat) (ref : ReelRef) (h : Hall) : Hall × Option Nat :=
  h.askCustody ref .load .feedPlanner
    (fun r => decide (r.state = .inTransit ∧ r.loc = .vehicle v) ||
      (decide (r.state = .quarantined ∧ r.reason = some .vehicleLost) && r.loc.isVehicle))
    (fun r => Hall.custody ref r { r with state := .onArm, loc := .arm st arm, reason := none, call := none }) noMetres

/-- Adoption (R31); the cancel of a mission naming the reel is the Fleet Controller's. -/
def Hall.askAdopt (st : StandAddr) (arm : ArmName) (ref : ReelRef) (h : Hall) : Hall × Option Nat :=
  h.askCustody ref .adopt .feedPlanner (fun r => decide (r.state ≠ .onArm ∧ r.state ≠ .spent))
    (fun r h => (h.custody ref r { r with state := .onArm, loc := .arm st arm, reason := none, call := none }).handBack r)
    noMetres

/-- Run start (R32). -/
def Hall.askRunStart (st : StandAddr) (arm : ArmName) (ref : ReelRef) (h : Hall) : Hall × Option Nat :=
  h.askCustody ref .runStart .feedPlanner (fun r => r.onArm st arm)
    (fun r => Hall.putReel ref.index { r with isPartial := true }) noMetres

/-- Eject (R33): the answer is the stub of R4. -/
def Hall.askEject (st : StandAddr) (arm : ArmName) (ref : ReelRef) (h : Hall) : Hall × Option Nat :=
  h.askCustody ref .eject .feedPlanner (fun r => r.onArm st arm)
    (fun r => Hall.custody ref r { r with state := .spent, loc := .nowhere, estimate := false }) fun r => r.remaining

/-- The record of a reel that leaves its arm in estimate mode, with the metres of the adjustment (R21). -/
def Hall.leaveEstimate (h : Hall) (r : Reel) : Reel × Nat :=
  if r.estimate then
    let d := estimateDiameter (h.gradeOf r).caliper r.core r.remaining
    let left := h.reelLength r d
    ({ r with estimate := false, accepted := d, remaining := left, consumed := r.consumed + (r.remaining - left) },
      r.remaining - left)
  else (r, 0)

/-- Unload onto vehicle `v` (R33): the answer is the metres of the estimate mode adjustment. -/
def Hall.askUnload (st : StandAddr) (arm : ArmName) (v : Nat) (ref : ReelRef) (h : Hall) : Hall × Option Nat :=
  h.askCustody ref .unload .feedPlanner (fun r => r.onArm st arm)
    (fun r => Hall.custody ref r { (h.leaveEstimate r).1 with state := .inTransit, loc := .vehicle v })
    fun r => (h.leaveEstimate r).2

/-- Arm mismatch (R33): the answer is the metres of the estimate mode adjustment. -/
def Hall.askArmMismatch (st : StandAddr) (arm : ArmName) (ref : ReelRef) (h : Hall) : Hall × Option Nat :=
  h.askCustody ref .armMismatch .feedPlanner (fun r => r.onArm st arm)
    (fun r => Hall.custody ref r { (h.leaveEstimate r).1.quarantine .armMismatch with loc := .nowhere })
    fun r => (h.leaveEstimate r).2

/-- Refused at the stand (R34). -/
def Hall.askRefusedAtStand (v : Nat) (ref : ReelRef) (h : Hall) : Hall × Option Nat :=
  h.askCustody ref .refusedAtStand .feedPlanner (fun r => r.aboard v)
    (fun r h => (h.custody ref r
      { r.quarantine .refusedAtStand with call := none, refusals := satAdd Config.max8 r.refusals 1 }).handBack r) noMetres

/-- Strip (R2, R21): the answer is the strip length. The stripped flag alone says whether a reel is stripped already, by the
model's choice (log 71). -/
def Hall.askStrip (st : StandAddr) (arm : ArmName) (ref : ReelRef) (depth : Nat) (h : Hall) : Hall × Option Nat :=
  let after (r : Reel) : Nat := h.reelLength r (strippedDiameter r.core r.d0 depth)
  h.askCustody ref .strip .feedPlanner (fun r => r.onArm st arm && !r.stripped)
    (fun r => Hall.putReel ref.index
      { r with strip := h.reelLength r r.d0 - after r, accepted := strippedDiameter r.core r.d0 depth
               remaining := after r, stripped := true })
    fun r => h.reelLength r r.d0 - after r

/-- Diameter step (R3, R21): the answer is the metres consumed. -/
def Hall.askDiameterStep (st : StandAddr) (arm : ArmName) (ref : ReelRef) (d : Nat) (h : Hall) : Hall × Option Nat :=
  let step (r : Reel) : Nat := h.reelLength r r.accepted - h.reelLength r d
  h.askCustody ref .diameterStep .feedPlanner
    (fun r => r.onArm st arm && !r.estimate && decide (d ≤ r.accepted) && decide (r.core ≤ d))
    (fun r => Hall.putReel ref.index { r with consumed := r.consumed + step r, remaining := h.reelLength r d, accepted := d })
    step

/-- Enter estimate mode (R21). -/
def Hall.askEnterEstimate (st : StandAddr) (arm : ArmName) (ref : ReelRef) (h : Hall) : Hall × Option Nat :=
  h.askCustody ref .enterEstimate .feedPlanner (fun r => r.onArm st arm && !r.estimate)
    (fun r => Hall.putReel ref.index { r with estimate := true }) noMetres

/-- Estimate step (R7, R21): at most the remaining length is booked. -/
def Hall.askEstimateStep (st : StandAddr) (arm : ArmName) (ref : ReelRef) (metres : Nat) (h : Hall) : Hall × Option Nat :=
  h.askCustody ref .estimateStep .feedPlanner (fun r => r.onArm st arm && r.estimate)
    (fun r => Hall.putReel ref.index
      { r with consumed := r.consumed + min metres r.remaining, remaining := r.remaining - min metres r.remaining })
    fun r => min metres r.remaining

/-- Release (R44) of the call of stand `st`; `retry` is false after a DELIVER mission refused for a full table. -/
def Hall.askRelease (st : StandAddr) (ref : ReelRef) (b : Block) (retry : Bool) (h : Hall) : Hall × Option Nat :=
  h.askCustody ref .release b (fun r => decide (r.call = some st))
    (fun r h =>
      let r' := if r.state = .allocated then { r with state := .stored, call := none } else { r with call := none }
      let h := h.putReel ref.index r'
      if retry then h.retryIfStored r r' else h) noMetres

/-! ### Allocation (R42, R43) -/

/-- The first of a list with the smallest key. -/
def firstLeast (key : Reel → Nat) : List (Nat × Reel) → Option (Nat × Reel)
  | [] => none
  | p :: rest => match firstLeast key rest with
    | some q => if key q.2 < key p.2 then some q else some p
    | none => some p

/-- The candidates for a grade and width, in index order (R42); each is the record of its index. -/
def Hall.candidates (h : Hall) (grade width : Nat) : List (Nat × Reel) :=
  h.reels.filter fun p => decide (p.2.grade = grade ∧ p.2.width = width ∧ p.2.state = .stored ∧ p.2.call = none) &&
    !h.named ⟨p.1, p.2.id⟩ && decide (tget h.reels p.1 = some p.2)

/-- The reel R42 chooses. -/
def Hall.chooseReel (h : Hall) (grade width : Nat) (partials : Bool) (minIssue : Nat) : Option (Nat × Reel) :=
  let all := h.candidates grade width
  let whole := firstLeast (·.arrival) (all.filter fun p => !p.2.isPartial)
  if partials then
    (firstLeast (·.remaining) (all.filter fun p => p.2.isPartial && decide (minIssue ≤ p.2.remaining))).or whole
  else whole

/-- Allocate a reel to the call of stand `st`, or make its STOCK_OUT active (R42, R43). -/
def Hall.allocate (st : StandAddr) (h : Hall) : Hall × Option ReelRef :=
  match h.stand st, h.line st.line with
  | some s, some l =>
    match h.chooseReel s.cfg.grade s.cfg.width l.cfg.partials l.cfg.minIssue with
    | some (i, r) =>
      ((h.putReel i { r with state := .allocated, call := some st }).lower (standFault .stockOut st), some ⟨i, r.id⟩)
    | none => (h.raise (standFault .stockOut st), none)
  | _, _ => (h, none)

/-! ### Records made and deleted (R19) -/

/-- Add a record in a slot; REGISTER_FULL follows the last free one (R19). -/
def Hall.addReel (i : Nat) (r : Reel) (h : Hall) : Hall :=
  let h := h.putReel i r
  if (lowestFree h.reels Config.reelSlots).isNone then h.raise ⟨.registerFull, .none⟩ else h

/-- Delete a record and clear its place (R19, R20). -/
def Hall.deleteReel (i : Nat) (r : Reel) (h : Hall) : Hall :=
  let h := h.clearPlace r.loc
  let h := { h with reels := tdel h.reels i }
  (if r.state = .stored then h.stockWatch r.grade else h).lower ⟨.registerFull, .none⟩

/-- A CONDITIONING reel whose earliest issue time is reached becomes STORED (R35). -/
def Hall.conditionReel (i : Nat) (h : Hall) : Hall :=
  match tget h.reels i with
  | some r =>
    if r.state = .conditioning ∧ r.earliest ≤ h.clock then
      (h.putReel i { r with state := .stored }).push (.starvedRetry r.grade r.width)
    else h
  | none => h

end Sys2Proof.Machine
end

