-- ==== Sys2Proof/Machine/BayMap.lean ====
section
/-! DEFINITION. The Bay Map's choices and reservations (Chapter 3), and the mission table's order and slots (R94, R95). -/

namespace Sys2Proof.Machine

/-! ### The mission table's order (R95) -/

/-- Rank of a mission class; CHARGE stands outside the order (R95). -/
def classRank : MissionClass → Nat
  | .urgent => 0 | .deliver => 1 | .ret => 2 | .intake => 3 | .park => 4 | .charge => 5

/-- Whether the first of two lists of keys comes before the second; equal lists do not. -/
def keysBefore : List Nat → List Nat → Bool
  | x :: xs, y :: ys => decide (x < y) || (decide (x = y) && keysBefore xs ys)
  | _, _ => false

/-- The keys of a mission in table order (R95). -/
def Mission.keys (m : Mission) (slot : Nat) : List Nat := [classRank m.cls, m.deadline, m.created, slot]

/-- Insert into a list ordered by `before`, after its equals. -/
def insertBy {α : Type} (before : α → α → Bool) (x : α) : List α → List α
  | [] => [x]
  | y :: ys => if before x y then x :: y :: ys else y :: insertBy before x ys

/-- A list put in the order of `before`; equals keep their order. -/
def sortBy {α : Type} (before : α → α → Bool) (l : List α) : List α := l.foldl (fun acc x => insertBy before x acc) []

/-- The missions in table order, CHARGE missions last (R95, R113). -/
def Hall.tableOrder (h : Hall) : List (Nat × Mission) :=
  sortBy (fun p q => keysBefore (p.2.keys p.1) (q.2.keys q.1)) h.missions

/-! ### Bays (R48, R52, R53) -/

/-- The zone that serves an object or holds a loop position. -/
def Hall.zoneOf (h : Hall) (u : ZoneUse) : Option Nat := (h.zones.find? fun p => decide (p.2.cfg.use = u)).map (·.1)

/-- Whether an object is served (R62). -/
def Hall.served (h : Hall) (u : ZoneUse) : Bool := (h.zoneOf u).isSome

/-- Whether a bay is free (R48). -/
def Bay.free (b : Bay) : Bool := !b.blocked && b.occupant.isNone && b.reserved.isNone

/-- The first free bay of a kind in served aisles that meet `ok`: lowest aisle, then lowest position. -/
def Hall.firstBay (h : Hall) (k : BayKind) (ok : Nat → Bool) : Option BayAddr :=
  (h.bays.find? fun p => decide (p.2.kind = k) && p.2.free && h.served (.aisle (bayOfKey p.1).aisle) &&
    ok (bayOfKey p.1).aisle).map fun p => bayOfKey p.1

/-- The bay for a reel of a grade: R53 for one held back, and else R52. -/
def Hall.selectBay (h : Hall) (grade : Nat) (held : Bool) : Option BayAddr :=
  if held then h.firstBay .quarantine fun _ => true
  else (h.firstBay .normal fun a => decide (tget h.aisles a = some grade)).or
    (h.firstBay .normal fun a => (tget h.aisles a).isNone)

/-- Whether a reel of a mission is to be held back: its state, or the rule that made the mission (R53). -/
def Hall.heldBack (h : Hall) (ref : ReelRef) (hold : Bool) : Bool :=
  hold || (h.reel ref).any fun r => decide (r.state = .quarantined)

/-- The bay chosen for a reel by reference (R52, R53). -/
def Hall.selectFor (h : Hall) (ref : ReelRef) (hold : Bool) : Option BayAddr :=
  (h.reel ref).bind fun r => h.selectBay r.grade (h.heldBack ref hold)

/-- Reserve a bay for a mission (R57). -/
def Hall.reserve (slot : Nat) (b : Option BayAddr) (h : Hall) : Hall :=
  match b with
  | some b => h.modBay b fun x => { x with reserved := some slot }
  | none => h

/-- The bay reserved for a mission. -/
def Hall.reservedBay (h : Hall) (slot : Nat) : Option BayAddr :=
  (h.bays.find? fun p => decide (p.2.reserved = some slot)).map fun p => bayOfKey p.1

/-- Drop the reservation of a mission, if it has one; this starts the walk, whether or not the bay is free now (R56, R57). -/
def Hall.dropReservation (slot : Nat) (h : Hall) : Hall :=
  match h.reservedBay slot with
  | some b => (h.modBay b fun x => { x with reserved := none }).push .bayWalk
  | none => h

/-- Whether a mission waits for a bay (R56). -/
def Mission.waitsForBay (m : Mission) : Bool := decide (m.kind = .intake ∨ m.kind = .ret) && m.drop.isNone

/-- NO_FREE_BAY follows the missions that wait for a bay (R56). -/
def Hall.watchBays (h : Hall) : Hall := h.setActive ⟨.noFreeBay, .none⟩ (h.missions.any fun p => p.2.waitsForBay)

/-- Give one waiting mission of the walk a bay, when one is free for it (R56). -/
def Hall.walkOne (h : Hall) (slot : Nat) : Hall :=
  match h.mission slot with
  | some m =>
    if m.waitsForBay then
      match m.reel.bind fun ref => h.selectFor ref m.holdBack with
      | some b =>
        ((h.modMission slot fun m => { m with drop := some (.bay b) }).reserve slot (some b)).push (.gotDrop slot)
      | none => h
    else h
  | none => h

/-- The walk of the missions waiting for a bay, in table order (R56). -/
def Hall.walkBays (h : Hall) : Hall := ((h.tableOrder.map (·.1)).foldl Hall.walkOne h).watchBays

/-! ### Slots of the mission table (R95) -/

/-- Enter a mission in a slot; a WAITING one starts a run of the arbiter (R95). -/
def Hall.enterMission (slot : Nat) (m : Mission) (h : Hall) : Hall :=
  let h := ({ h with missions := tput h.missions slot m } : Hall).watchBays
  if m.state = .waiting then h.push .arbiter else h

/-- Create a mission in the lowest free slot, refused when there is none or when its reel is named already (R95). -/
def Hall.createMission (m : Mission) (h : Hall) : Hall × Option Nat :=
  match lowestFree h.missions Config.missionSlots with
  | some slot => if m.reel.any h.named then (h, none) else (h.enterMission slot { m with created := h.clock }, some slot)
  | none => (h, none)

/-- Create a mission whose drop is a bay, and reserve the bay for it (R54, R55). -/
def Hall.createWithBay (m : Mission) (b : Option BayAddr) (h : Hall) : Hall × Option Nat :=
  match h.createMission { m with drop := b.map .bay } with
  | (h', some slot) => (h'.reserve slot b, some slot)
  | (h', none) => (h', none)

/-- The content of an INTAKE mission of reel `r` from dock `d` (R54). -/
def intakeMission (ref : ReelRef) (d deadline : Nat) : Mission where
  kind := .intake
  reel := some ref
  pickup := some (.dock d)
  drop := none
  cls := .intake
  deadline := deadline
  created := 0
  state := .waiting
  vehicle := none
  route := none
  call := none
  holdBack := false

/-- Make the INTAKE mission of an AT_DOCK reel (R54). -/
def Hall.makeIntake (ref : ReelRef) (h : Hall) : Hall × Option Nat :=
  match h.reel ref with
  | some r =>
    match r.loc with
    | .dock d => h.createWithBay (intakeMission ref d r.earliest) (h.selectFor ref false)
    | _ => (h, none)
  | none => (h, none)

/-- The content of a RETURN mission (R55). -/
def returnMission (ref : ReelRef) (pickup : Option Place) (clock : Nat) (hold : Bool) : Mission where
  kind := .ret
  reel := some ref
  pickup := pickup
  drop := none
  cls := .ret
  deadline := clock
  created := 0
  state := .waiting
  vehicle := none
  route := none
  call := none
  holdBack := hold

/-- Whether bay `b` is of the kind a reel needs (R55). -/
def Hall.rightKind (h : Hall) (b : BayAddr) (held : Bool) : Bool :=
  (h.bay b).any fun x => decide (x.kind = if held then .quarantine else .normal)

/-- Give a mission in the table the content of a RETURN: a reserved bay of the right kind is kept, and else a new one is
selected (R55). -/
def Hall.contentOfReturn (slot : Nat) (hold : Bool) (h : Hall) : Hall :=
  match h.mission slot with
  | some m =>
    match m.reel with
    | some ref =>
      let held := h.heldBack ref hold
      let kept := (h.reservedBay slot).filter fun b => h.rightKind b held
      let m' := { m with kind := .ret, cls := .ret, deadline := h.clock, call := none, holdBack := hold }
      match kept with
      | some b => h.modMission slot fun _ => { m' with drop := some (.bay b) }
      | none =>
        let h := h.dropReservation slot
        let b := h.selectFor ref hold
        ((h.modMission slot fun _ => { m' with drop := b.map .bay }).reserve slot b).watchBays
    | none => h
  | none => h

/-- Whether a bay becomes free by a change: it is free now, and it was not, or not of this kind (R49). -/
def Bay.becomesFree (x : Bay) (was : Option Bay) : Bool := x.free && !was.any fun y => y.free && decide (y.kind = x.kind)

/-- Set the bay of one address; one that becomes free starts the walk (R49). -/
def Hall.configureBay (b : BayAddr) (x : Bay) (h : Hall) : Hall :=
  let g := { h with bays := tput h.bays (bayKey b) x }
  if x.becomesFree (h.bay b) then g.push .bayWalk else g

end Sys2Proof.Machine
end

