-- ==== Sys2Proof/Machine/Editions.lean ====
section
/-! DEFINITION. The Edition Store's bookings (Chapter 9): copies, paper, splices, breaks and reels used. -/

namespace Sys2Proof.Machine

/-- Sum of two waste fields, each held at `limit` (R18). -/
def Waste.add (limit : Nat) (w x : Waste) : Waste :=
  ⟨satAdd limit w.start x.start, satAdd limit w.splice x.splice, satAdd limit w.brk x.brk, satAdd limit w.operator x.operator⟩

/-- The slot and record of an edition by line and number (R183). -/
def Hall.findEdition (h : Hall) (line number : Nat) : Option (Nat × Edition) :=
  h.editions.find? fun p => decide (p.2.line = line ∧ p.2.number = number)

/-- The slot and record of the edition open on a line. -/
def Hall.openOn (h : Hall) (line : Nat) : Option (Nat × Edition) :=
  ((h.count line).bind (·.edition)).bind (h.findEdition line)

/-- Change the unassigned totals of a line (R188). -/
def Hall.modTotals (line : Nat) (f : Totals → Totals) (h : Hall) : Hall := { h with unassigned := tmod h.unassigned line f }

/-- Change the record of the edition open on a line, or else its unassigned totals. -/
def Hall.book (line : Nat) (f : Edition → Edition) (g : Totals → Totals) (h : Hall) : Hall :=
  match h.openOn line with
  | some (slot, e) => { h with editions := tput h.editions slot (f e) }
  | none => h.modTotals line g

/-- Book printed paper of a reel on a line (R189); 0 m books nothing. -/
def Hall.bookPrinted (line metres width grade : Nat) (h : Hall) : Hall :=
  if metres = 0 then h
  else
    let mass := massOf metres width (((tget h.grades grade).map (·.basis)).getD 0)
    h.book line
      (fun e => { e with printedLength := satAdd Config.max32 e.printedLength metres
                         printedMass := satAdd Config.max32 e.printedMass mass })
      fun t => { t with printedLength := satAdd Config.max48 t.printedLength metres
                        printedMass := satAdd Config.max48 t.printedMass mass }

/-- Book white waste of a reel on a line (R190); 0 m books nothing. -/
def Hall.bookWhite (line metres width grade : Nat) (h : Hall) : Hall :=
  if metres = 0 then h
  else
    let mass := massOf metres width (((tget h.grades grade).map (·.basis)).getD 0)
    h.book line
      (fun e => { e with whiteLength := satAdd Config.max32 e.whiteLength metres
                         whiteMass := satAdd Config.max32 e.whiteMass mass })
      fun t => { t with whiteLength := satAdd Config.max48 t.whiteLength metres
                        whiteMass := satAdd Config.max48 t.whiteMass mass }

/-- Count a splice of a line (R191). -/
def Hall.bookSplice (line : Nat) (h : Hall) : Hall :=
  h.book line (fun e => { e with splices := satAdd Config.max32 e.splices 1 })
    fun t => { t with splices := satAdd Config.max48 t.splices 1 }

/-- Count a break of a line (R191). -/
def Hall.bookBreak (line : Nat) (h : Hall) : Hall :=
  h.book line (fun e => { e with breaks := satAdd Config.max32 e.breaks 1 })
    fun t => { t with breaks := satAdd Config.max48 t.breaks 1 }

/-- Offer a reel to an edition's reels-used list (R186). -/
def Edition.offerReel (e : Edition) (id : ReelId) : Edition :=
  if e.reelsUsed.contains id then e
  else if e.reelsUsed.length < Config.reelsUsedSlots then { e with reelsUsed := e.reelsUsed ++ [id] }
  else { e with truncated := true }

/-- Report a run start on a line to its open edition (R186). -/
def Hall.reportRun (line : Nat) (id : ReelId) (h : Hall) : Hall := h.book line (·.offerReel id) fun t => t

/-- Add a transfer of copies to unassigned totals (R188). -/
def Totals.addCopies (t : Totals) (good : Nat) (w : Waste) : Totals :=
  { t with finalized := satAdd Config.max48 t.finalized (good + w.total), good := satAdd Config.max48 t.good good
           waste := t.waste.add Config.max48 w }

/-- Add a transfer of copies to an edition, with its overrun (R187). -/
def Edition.addCopies (e : Edition) (good : Nat) (w : Waste) : Edition :=
  { e with finalized := e.finalized + (good + w.total), good := e.good + good
           waste := ⟨e.waste.start + w.start, e.waste.splice + w.splice, e.waste.brk + w.brk, e.waste.operator + w.operator⟩
           overrun := e.good + good - e.target }

/-- Book a transfer of finalized copies to the open edition, or unassigned (R187). -/
def Hall.bookCopies (line good : Nat) (w : Waste) (h : Hall) : Hall :=
  match h.openOn line with
  | some (slot, e) =>
    if Config.max32 < e.finalized + (good + w.total) then h.modTotals line fun t => t.addCopies good w
    else
      let e' := e.addCopies good w
      let h := { h with editions := tput h.editions slot e' }
      if e.good < e.target ∧ e.target ≤ e'.good then h.notify (.targetReached line e.number e.target e'.good h.clock) else h
  | none => h.modTotals line fun t => t.addCopies good w

/-- The spoilage report of an edition (R194). -/
def Edition.report (e : Edition) : SpoilageReport where
  line := e.line
  number := e.number
  opened := e.opened
  closed := e.closed.getD 0
  target := e.target
  finalized := e.finalized
  good := e.good
  overrun := e.overrun
  waste := e.waste
  splices := e.splices
  breaks := e.breaks
  printedLength := e.printedLength
  printedMass := e.printedMass / 1000
  whiteLength := e.whiteLength
  whiteMass := e.whiteMass / 1000
  reelsUsed := e.reelsUsed.length
  truncated := e.truncated
  copySpoilage := perThousand e.waste.total e.finalized
  paperSpoilage := perThousand e.whiteLength (e.printedLength + e.whiteLength)

/-- The editions in store order: by opened time, then slot (R183). -/
def Hall.storeOrder (h : Hall) : List (Nat × Edition) :=
  sortBy (fun p q => keysBefore [p.2.opened, p.1] [q.2.opened, q.1]) h.editions

/-- The slot given to a new edition, with the record it replaces (R185). -/
def Hall.slotForEdition (h : Hall) (line number : Nat) : Option (Nat × Option Edition) :=
  match h.findEdition line number with
  | some (slot, e) => some (slot, some e)
  | none =>
    match lowestFree h.editions Config.editionSlots with
    | some slot => some (slot, none)
    | none => (h.storeOrder.find? fun p => !p.2.isOpen && p.2.collected).map fun p => (p.1, some p.2)

end Sys2Proof.Machine
end

