-- ==== Sys2Proof/Machine/Arms.lean ====
section
/-! DEFINITION. Arms, modes, handover records and the preparation slot of the Feed Planner (6.1, 6.4, 6.5). -/

namespace Sys2Proof.Machine

/-! ### The preparation slot and pending list (R136, R137) -/

/-- What PREP PANEL shows of the stand in a line's slot (R136). -/
def Hall.panel (h : Hall) (l : Line) : Option Panel :=
  l.slot.map fun e =>
    let ref := (h.stand e.st).bind fun s => (s.arm e.arm).reel
    let r := ref.bind h.reel
    ⟨e.st, e.arm, ref.map (·.id), (r.map (·.grade)).getD 0, (r.map (·.stripped)).getD false, l.waiting.length⟩

/-- Send PREP PANEL for a line's slot, or clear (R136, R137). -/
def Hall.sendPanel (n : Nat) (h : Hall) : Hall :=
  match h.line n with
  | some l => h.sendLine n (.prepPanel (h.panel l))
  | none => h

/-- Whether a stand is in its line's slot or pending list. -/
def Line.preparing (l : Line) (st : StandAddr) : Bool :=
  l.slot.any (fun e => decide (e.st = st)) || l.waiting.any fun e => decide (e.st = st)

/-- Whether a stand is in its line's slot for an arm other than `arm`. -/
def Line.slotElse (l : Line) (st : StandAddr) (arm : ArmName) : Bool := l.slot.any fun e => decide (e.st = st ∧ e.arm ≠ arm)

/-- A listed stand requests for an arm: it keeps its place and its deadline, and the request is for that arm (R136, log 66). -/
def Line.retarget (l : Line) (st : StandAddr) (arm : ArmName) : Line :=
  let aim (e : PrepEntry) : PrepEntry := if e.st = st then { e with arm := arm } else e
  { l with slot := l.slot.map aim, waiting := l.waiting.map aim }

/-- A preparation request of a stand for an arm that has become LOADED (R136). PREP PANEL is shown again for a stand in the
slot whose arm has changed (log 66). -/
def Hall.requestPrep (st : StandAddr) (arm : ArmName) (deadline : Nat) (h : Hall) : Hall :=
  match h.line st.line with
  | some l =>
    if l.cfg.autoPrepare then h
    else if l.preparing st then
      let h := h.modLine st.line fun l => l.retarget st arm
      if l.slotElse st arm then h.sendPanel st.line else h
    else
      let e : PrepEntry := ⟨st, arm, deadline⟩
      let h := h.modLine st.line fun l =>
        if l.slot.isNone then { l with slot := some e }
        else { l with waiting := insertBy (fun x y => decide (x.deadline < y.deadline)) e l.waiting }
      h.sendPanel st.line
  | none => h

/-- End the preparation request of a stand (R137). PREP PANEL follows a change of the slot or of the number pending
(R136, log 31). -/
def Hall.endPrep (st : StandAddr) (h : Hall) : Hall :=
  match h.line st.line with
  | some l =>
    if !l.preparing st then h
    else
      let h := h.modLine st.line fun l =>
        if l.slot.any fun e => decide (e.st = st) then { l with slot := l.waiting.head?, waiting := l.waiting.tail }
        else { l with waiting := l.waiting.filter fun e => decide (e.st ≠ st) }
      h.sendPanel st.line
  | none => h

/-- Whether the standby arm has waited for preparation longer than the allowance (R138). -/
def Hall.overdue (h : Hall) (st : StandAddr) : Bool :=
  match h.stand st, h.line st.line with
  | some s, some l => s.standby.any fun x =>
      decide ((s.arm x).state = .loaded ∨ (s.arm x).state = .preparing) &&
        decide (l.cfg.prepAllowance < h.clock - (s.arm x).loadedAt)
  | _, _ => false

/-- The test of PREP_OVERDUE on a clock advance or a change of the allowance (R138). -/
def Hall.testOverdue (st : StandAddr) (h : Hall) : Hall := h.setActive (standFault .prepOverdue st) (h.overdue st)

/-- PREP_OVERDUE becomes inactive when the arm no longer waits too long (R138). -/
def Hall.easeOverdue (st : StandAddr) (h : Hall) : Hall :=
  if h.overdue st then h else h.lower (standFault .prepOverdue st)

/-! ### Arms and modes (R116) -/

/-- Change an arm's record, with what follows every such change: the ceiling, PREP_OVERDUE (R138, R161). -/
def Hall.changeArm (st : StandAddr) (arm : ArmName) (f : Arm → Arm) (h : Hall) : Hall :=
  ((h.modArm st arm f).easeOverdue st).oweCeiling st.line

/-- The state of an arm; EMPTY at a stand not configured. -/
def Hall.armState (h : Hall) (st : StandAddr) (arm : ArmName) : ArmState :=
  ((h.stand st).map fun s => (s.arm arm).state).getD .empty

/-- An arm becomes EMPTY; the stand loses it as its running arm. The call test follows, and the splice test where the arm was
EXPIRED (R116, R125, R150). -/
def Hall.emptyArm (st : StandAddr) (arm : ArmName) (h : Hall) : Hall :=
  let was := h.armState st arm
  let h := h.modStand st fun s => { s with running := s.running.filter (· ≠ arm) }
  let h := h.changeArm st arm fun x => { x with state := .empty, reel := none, beforeUnload := none }
  let h := h.push (.callTest st)
  if was = .expired then h.push (.spliceTest st) else h

/-- An arm becomes LOADED: its loaded-at time and carry (R116). The preparation request is the caller's to make. -/
def Hall.loadArm (st : StandAddr) (arm : ArmName) (h : Hall) : Hall :=
  let h := h.modStand st fun s => { s with running := s.running.filter (· ≠ arm) }
  h.changeArm st arm fun x => { x with state := .loaded, loadedAt := h.clock, carry := 0, beforeUnload := none }

/-- An arm becomes RUNNING: the running arm, its carry, the run start and the reels-used list (R116, R186). -/
def Hall.runArm (st : StandAddr) (arm : ArmName) (h : Hall) : Hall :=
  let h := h.modStand st fun s => { s with running := some arm }
  let h := h.changeArm st arm fun x => { x with state := .running, carry := 0, beforeUnload := none }
  match (h.stand st).bind fun s => (s.arm arm).reel with
  | some ref => (h.askRunStart st arm ref).1.reportRun st.line ref.id
  | none => h

/-- An arm takes another state in which it holds its reel. -/
def Hall.setArmState (st : StandAddr) (arm : ArmName) (x : ArmState) (h : Hall) : Hall :=
  let h := h.modStand st fun s => { s with running := s.running.filter (· ≠ arm) }
  h.changeArm st arm fun a => { a with state := x, beforeUnload := none }

/-- The RETURN of reel `ref` has ended before the unload: the arm that is still UNLOADING that reel returns to its state before
unloading, and joins the preparation list if it was not PREPARED (R116, R135). It keeps its loaded-at time and its carry, by
the model's choice (log 77). -/
def Hall.restoreArm (st : StandAddr) (arm : ArmName) (ref : Option ReelRef) (h : Hall) : Hall :=
  match h.stand st with
  | some s =>
    if (s.arm arm).state = .unloading ∧ (s.arm arm).reel = ref then
      let old := (s.arm arm).beforeUnload.getD .loaded
      let h := h.changeArm st arm fun x => { x with state := old, beforeUnload := none }
      if old = .prepared then h.push (.spliceTest st) else h.requestPrep st arm h.clock
    else h
  | none => h

/-- Modes in which a WAITING handover is not sent its LOAD REQUEST (R130). -/
def Mode.barsLoad : Mode → Bool
  | .normal | .starved => false
  | .outOfService | .unknown | .locked | .splicing => true

/-- Give a stand a mode. In NORMAL the call test follows, and a WAITING handover is sent its LOAD REQUEST when the stand
returns to NORMAL or STARVED (R125, R130). -/
def Hall.setMode (st : StandAddr) (m : Mode) (h : Hall) : Hall :=
  let barred := (h.stand st).any fun s => s.mode.barsLoad
  let h := (h.modStand st fun s => { s with mode := m }).oweCeiling st.line
  let h := if barred && !m.barsLoad then h.push (.requestLoad st) else h
  if m = .normal then h.push (.callTest st) else h

/-- Pulse ARM_MISMATCH of a stand. -/
def Hall.mismatch (st : StandAddr) (h : Hall) : Hall := h.pulse (standFault .armMismatch st)

/-! ### Handover records (6.4) -/

/-- The handover record of a stand. -/
def Hall.handover (h : Hall) (st : StandAddr) : Option Handover := (h.stand st).bind (·.handover)

/-- Change the handover record of a stand. -/
def Hall.modHandover (st : StandAddr) (f : Handover → Handover) (h : Hall) : Hall :=
  (h.modStand st fun s => { s with handover := s.handover.map f }).oweCeiling st.line

/-- The stand with the handover of a mission. -/
def Hall.handoverOf (h : Hall) (slot : Nat) : Option (StandAddr × Handover) :=
  h.stands.findSome? fun p => (p.2.handover.filter fun x => decide (x.mission = slot)).map fun x => (standOfKey p.1, x)

/-- The handover record leaves the stand. An arm still LOADING becomes EMPTY, and a call still standing is looked at for
re-raising (R116, R134). -/
def Hall.closeHandover (st : StandAddr) (h : Hall) : Hall :=
  match h.handover st with
  | some x =>
    let h := (h.modStand st fun s => { s with handover := none }).oweCeiling st.line
    let loading := (h.stand st).any fun s => decide ((s.arm x.arm).state = .loading)
    let h := if loading then h.emptyArm st x.arm else h
    (if x.kind = .load then h.push (.reRaise st) else h).push (.spliceTest st)
  | none => h

end Sys2Proof.Machine
end

