-- ==== Sys2Proof/Machine/Traffic.lean ====
section
/-! DEFINITION. Traffic Control (Chapter 4): the loop, routes, grants, waiting, arbitration, releases and charger holds. -/

namespace Sys2Proof.Machine

/-! ### The loop and its routes (R63, R66, R67) -/

/-- The loop position of a zone, when it is a LOOP zone. -/
def Zone.loopPos (z : Zone) : Option Nat :=
  match z.cfg.use with
  | .loop p => some p
  | _ => none

/-- Whether zone `z` is a configured LOOP zone. -/
def Hall.isLoop (h : Hall) (z : Nat) : Bool := (h.zone z).any fun x => x.loopPos.isSome

/-- Whether zone `z` is a configured CHARGER zone. -/
def Hall.isCharger (h : Hall) (z : Nat) : Bool :=
  (h.zone z).any fun x => match x.cfg.use with
    | .charger _ => true
    | _ => false

/-- The number N of configured LOOP zones (R63). -/
def Hall.loopSize (h : Hall) : Nat := (h.zones.filter fun p => p.2.loopPos.isSome).length

/-- Whether the loop is complete (R63). -/
def Hall.loopComplete (h : Hall) : Bool :=
  decide (8 ≤ h.loopSize ∧ h.loopSize ≤ 48) && (List.range h.loopSize).all fun i => h.served (.loop (i + 1))

/-- The first served loop position of `start`, `start + 1`, …, with its zone. -/
def Hall.loopFrom (h : Hall) (start : Nat) : Nat → Option Nat
  | 0 => none
  | fuel + 1 => (h.zoneOf (.loop start)).or (h.loopFrom (start + 1) fuel)

/-- The LOOP zone after loop position `p`: the next above, or the lowest of all (R63). -/
def Hall.nextLoop (h : Hall) (p : Nat) : Option Nat := (h.loopFrom (p + 1) 48).or (h.loopFrom 1 48)

/-- Whether `b` is a successor of zone `a` (R63). -/
def Hall.successor (h : Hall) (a b : Nat) : Bool :=
  match h.zone a, h.zone b with
  | some za, some zb =>
    match za.loopPos with
    | some p => if zb.loopPos.isSome then decide (h.nextLoop p = some b) else decide (zb.cfg.attach = a)
    | none => decide (za.cfg.attach = b)
  | _, _ => false

/-- The LOOP zones after `z` round the loop as far as `stop`. -/
def Hall.loopTo (h : Hall) (stop : Nat) : Nat → Nat → List Nat
  | 0, _ => []
  | fuel + 1, z =>
    if z = stop then []
    else match ((h.zone z).bind Zone.loopPos).bind h.nextLoop with
      | some n => n :: h.loopTo stop fuel n
      | none => []

/-- The LOOP zone by which a zone joins the loop: itself, or its attach zone. -/
def Zone.joint (z : Zone) (number : Nat) : Nat := if z.loopPos.isSome then number else z.cfg.attach

/-- The route from one zone to another; none is NO_ROUTE (R66). -/
def Hall.route (h : Hall) (start dest : Nat) : Option (List Nat) :=
  match h.zone start, h.zone dest with
  | some a, some b =>
    if !h.loopComplete then none
    else if start = dest then some [start]
    else
      some ((start :: if a.loopPos.isSome then [] else [a.joint start]) ++ h.loopTo (b.joint dest) 48 (a.joint start) ++
        if b.loopPos.isSome then [] else [dest])
  | _, _ => none

/-- Traverse time of a zone. -/
def Hall.traverse (h : Hall) (z : Nat) : Nat := ((h.zone z).map fun x => x.cfg.time).getD 0

/-- Sum of traverse times (R67). -/
def Hall.timeOf (h : Hall) (zones : List Nat) : Nat := (zones.map h.traverse).foldl (· + ·) 0

/-- Route time of a route: all zones but the first (R67). -/
def Hall.routeTime (h : Hall) (zones : List Nat) : Nat := h.timeOf (zones.drop 1)

/-- Route time between two zones (R67). -/
def Hall.timeBetween (h : Hall) (start dest : Nat) : Option Nat := (h.route start dest).map h.routeTime

/-- The zone of a place a mission names (R65). -/
def Hall.placeZone (h : Hall) : Place → Option Nat
  | .dock n => h.zoneOf (.dock n)
  | .bay b => h.zoneOf (.aisle b.aisle)
  | .arm st _ => h.zoneOf (.spur st)
  | .charger n => h.zoneOf (.charger n)
  | .park n => h.zoneOf (.park n)

/-! ### Holding (R68, R69) -/

/-- Whether a zone is free: no holder and no charger hold (R62). -/
def Zone.free (z : Zone) : Bool := z.holder.isNone && z.hold.isNone

/-- The zones a vehicle holds, in rising number. -/
def Hall.held (h : Hall) (v : Nat) : List Nat := (h.zones.filter fun p => decide (p.2.holder = some v)).map (·.1)

/-- Whether a vehicle holds a LOOP zone (R69). -/
def Hall.holdsLoop (h : Hall) (v : Nat) : Bool :=
  h.zones.any fun p => decide (p.2.holder = some v) && p.2.loopPos.isSome

/-- The loop-holding count (R69). -/
def Hall.loopCount (h : Hall) : Nat := (vehicleNumbers.filter h.holdsLoop).length

/-- Whether the count is below N − 1 (R69). -/
def Hall.admits (h : Hall) : Bool := decide (h.loopCount + 1 < h.loopSize)

/-- Whether a grant of zone `z` to `v` is admitted: a merge only below N − 1 (R69). -/
def Hall.mayGrant (h : Hall) (v z : Nat) : Bool := !(h.isLoop z && !h.holdsLoop v) || h.admits

/-- Remove the wait entry of a vehicle (R74). -/
def Hall.unwait (v : Nat) (h : Hall) : Hall :=
  match h.waitsFor v with
  | some z => h.modZone z fun x => { x with wait := x.wait.filter (· ≠ v) }
  | none => h

/-- Grant zone `z` to `v`: the holder, the granted-ahead list, and the MOVE directive (R73, R92). -/
def Hall.grant (v z : Nat) (h : Hall) : Hall :=
  let h := (h.unwait v).modZone z fun x => { x with holder := some v, hold := none }
  (h.modVehicle v fun x => { x with ahead := x.ahead ++ [z] }).refreshMove v

/-! ### Waiting and arbitration (R74, R75, R76) -/

/-- Whether `z` may follow the furthest zone of vehicle `v` (R73, R75). -/
def Hall.follows (h : Hall) (v z : Nat) : Bool := (h.vehicle v).furthest.any fun f => h.successor f z

/-- Whether the arbiter may give `z` to the waiting vehicle `v` (R75). -/
def Hall.eligible (h : Hall) (v z : Nat) : Bool :=
  decide ((h.vehicle v).supervision = .reporting) && !h.allStop && decide ((h.vehicle v).ahead.length < Config.aheadSlots) &&
    h.mayGrant v z

/-- One pass over waiting vehicles: stale entries leave, and the first eligible vehicle is granted the zone (R75). -/
def Hall.arbitrate (z : Nat) (h : Hall) : List Nat → Hall
  | [] => h
  | v :: rest =>
    if !h.follows v z then (h.unwait v).arbitrate z rest
    else if h.eligible v z then h.grant v z
    else h.arbitrate z rest

/-- The zone arbiter on zone `z`: vehicles on the loop first (R75). -/
def Hall.runZone (z : Nat) (h : Hall) : Hall :=
  match h.zone z with
  | some x =>
    if x.free then h.arbitrate z (x.wait.filter h.holdsLoop ++ x.wait.filter fun v => !h.holdsLoop v) else h
  | none => h

/-- The zone numbers in use, rising. -/
def Hall.zoneNumbers (h : Hall) : List Nat := h.zones.map (·.1)

/-- The admission walk (R76). -/
def Hall.admissionWalk (h : Hall) : Hall :=
  h.zoneNumbers.foldl (fun h z =>
    if h.isLoop z && (h.zone z).any fun x => x.free && x.wait.any fun v => !h.holdsLoop v then h.runZone z else h) h

/-- The arbiter on every free zone with a wait list, when an all-stop ends (R76). -/
def Hall.resumeWalk (h : Hall) : Hall :=
  h.zoneNumbers.foldl (fun h z => if (h.zone z).any fun x => x.free && !x.wait.isEmpty then h.runZone z else h) h

/-! ### Releases (R72, R77, R81) -/

/-- Clear the holder of zone `z`; a charger so freed is told to the Fleet Controller (R72). -/
def Hall.dropHolder (z : Nat) (h : Hall) : Hall :=
  let h := h.modZone z fun x => { x with holder := none }
  if h.isCharger z then h.push .chargersFree else h

/-- Start the admission walk when vehicle `v`, that held a LOOP zone, holds none now and the count is below N − 1 (R69). -/
def Hall.afterFall (was : Bool) (v : Nat) (below : Bool) (h : Hall) : Hall :=
  if was && !h.holdsLoop v && below then h.admissionWalk else h

/-- Release zone `z` of vehicle `v`, run the arbiter on it, and start the admission walk when the count has fallen (R72). -/
def Hall.releaseZone (v : Nat) (h : Hall) (z : Nat) : Hall :=
  let was := h.holdsLoop v
  let h := h.dropHolder z
  let below := h.admits
  (h.runZone z).afterFall was v below

/-- End a charger hold as released or expired (R79). -/
def Hall.endHold (z : Nat) (h : Hall) : Hall :=
  ((h.modZone z fun x => { x with hold := none }).push .chargersFree).runZone z

/-- The zone under a charger hold of vehicle `v` (R78). -/
def Hall.heldCharger (h : Hall) (v : Nat) : Option Nat :=
  (h.zones.find? fun p => p.2.hold.any fun c => decide (c.vehicle = v)).map (·.1)

/-- End the charger hold of vehicle `v`, if it has one (R79). -/
def Hall.releaseHold (v : Nat) (h : Hall) : Hall :=
  match h.heldCharger v with
  | some z => h.endHold z
  | none => h

/-- Whether leaving a charger makes a charger hold: a mission other than CHARGE and a hold time above 0 (R78). -/
def Hall.keepsCharger (h : Hall) (v : Nat) : Bool :=
  decide (0 < h.params.holdTime) &&
    ((h.vehicle v).mission.bind h.mission).any fun m => decide (m.kind ≠ .charge)

/-- A zone vehicle `v` has left: a charger may become a charger hold, any other zone is released (R72, R78). -/
def Hall.leaveZone (v : Nat) (h : Hall) (z : Nat) : Hall :=
  if h.isCharger z && h.keepsCharger v then
    let h := h.releaseHold v
    h.modZone z fun x => { x with holder := none, hold := some ⟨v, satAdd Config.max32 h.clock h.params.holdTime⟩ }
  else h.releaseZone v z

/-- Releases of a report: held zones that are neither front, tail nor granted ahead, rising (R72). -/
def Hall.releaseLeft (v : Nat) (h : Hall) : Hall :=
  let x := h.vehicle v
  ((h.held v).filter fun z => !(decide (x.front = some z) || decide (x.tail = some z) || x.ahead.contains z)).foldl
    (Hall.leaveZone v) h

/-- The withdrawal of vehicle `v` (R77). -/
def Hall.withdraw (v : Nat) (h : Hall) : Hall :=
  let ahead := (h.vehicle v).ahead
  let h := (h.unwait v).modVehicle v fun x => { x with ahead := [], withdraw := false }
  ahead.foldl (Hall.releaseZone v) h

/-- The zones of a cleared lost vehicle: its front and tail are kept, those of the last report that passed the conflict check
(R70, R81, log 74). Where the loop-holding count falls below N - 1 too, the arbiter runs on the zones released before the admission
walk, by the model's choice (R76, log 85). -/
def Hall.clearLostZones (v : Nat) (h : Hall) : Hall :=
  let x := h.vehicle v
  let was := h.holdsLoop v
  let gone := (h.held v).filter fun z => !(decide (x.front = some z) || decide (x.tail = some z))
  let h := (h.unwait v).modVehicle v fun x => { x with ahead := [], withdraw := false }
  let h := gone.foldl (fun h z => h.dropHolder z) h
  let below := h.admits
  (gone.foldl (fun h z => h.runZone z) h).afterFall was v below

/-- The zones, hold and wait entry of a decommissioned vehicle (R81). -/
def Hall.unseat (v : Nat) (h : Hall) : Hall :=
  let h := (h.unwait v).modVehicle v fun x =>
    { x with ahead := [], front := none, tail := none, seated := false, withdraw := false }
  (((h.held v).foldl (Hall.releaseZone v) h).releaseHold v).lower ⟨.zoneConflict, .vehicle v⟩

/-! ### Requests (R73, R74) -/

/-- Join the wait list of zone `z`; a full list takes nobody and nothing changes (R74, log 28). The answer says whether
the vehicle stands in the list. -/
def Hall.join (v z : Nat) (h : Hall) : Hall × Bool :=
  match h.zone z with
  | some x =>
    if x.wait.contains v then (h, true)
    else if x.wait.length < Config.waitSlots then ((h.unwait v).modZone z fun x => { x with wait := x.wait ++ [v] }, true)
    else (h, false)
  | none => (h, false)

/-- A request of the REPORTING vehicle `v` for zone `z` (R73). -/
def Hall.requestZone (v z : Nat) (h : Hall) : Hall :=
  match h.zone z with
  | none => h
  | some x =>
    if !h.follows v z then h
    else if Config.aheadSlots ≤ (h.vehicle v).ahead.length then h
    else if x.holder = some v then h
    else if h.allStop then (h.join v z).1
    else if (x.hold.any fun c => decide (c.vehicle = v)) then h.grant v z
    else if !x.free then (h.join v z).1
    else if !x.wait.isEmpty then
      match h.join v z with
      | (h, true) => h.runZone z
      | (h, false) => h
    else if !h.mayGrant v z then (h.join v z).1
    else h.grant v z

/-! ### Reports (R70, R71, R80) -/

/-- A report's tail as Traffic Control takes it: one in no vehicle's hands is taken as not reported (R71). -/
def Hall.takenTail (h : Hall) (tail : Option Nat) : Option Nat :=
  tail.filter fun t => (h.zone t).any fun x => x.holder.isSome

/-- The conflict check (R71). -/
def Hall.conflicts (h : Hall) (v front : Nat) (tail : Option Nat) : Bool :=
  !((h.zone front).any fun x => decide (x.holder = some v)) ||
    tail.any fun t => (h.zone t).any fun x => x.holder.isSome && decide (x.holder ≠ some v)

/-- The granted-ahead list after the front is reported in zone `front` (R70). -/
def aheadAfter (ahead : List Nat) (front : Nat) : List Nat :=
  match ahead.findIdx? (· = front) with
  | some i => ahead.drop (i + 1)
  | none => ahead

/-- Take the position and the passed request of a seated vehicle's report (R70). -/
def Hall.takePosition (v front : Nat) (tail request : Option Nat) (h : Hall) : Hall :=
  let key : FaultKey := ⟨.zoneConflict, .vehicle v⟩
  if h.conflicts v front tail then h.raise key
  else
    let h := h.lower key
    let tail := h.takenTail tail
    let h := h.modVehicle v fun x => { x with ahead := aheadAfter x.ahead front, front := some front, tail := tail }
    if (h.vehicle v).supervision = .reporting then
      let h := h.releaseLeft v
      match request with
      | some z => h.requestZone v z
      | none => h
    else h

/-- Examine one zone of a seating report (R80). The answer says whether it conflicts. A charger hold on it ends and the zone is
granted in one: no waiting vehicle is offered it in between, by the model's choice (log 79). -/
def Hall.seatZone (v z : Nat) (h : Hall) : Hall × Bool :=
  match h.zone z with
  | some x =>
    if x.holder.isSome then (h, decide (x.holder ≠ some v))
    else
      let h' := h.modZone z fun x => { x with holder := some v, hold := none }
      (if x.hold.isSome then h'.push .chargersFree else h', false)
  | none => (h, true)

/-- Seat vehicle `v` by its report (R80). The answer says whether it is seated. -/
def Hall.seat (v front : Nat) (tail : Option Nat) (h : Hall) : Hall × Bool :=
  let gone := (h.held v).filter fun z => !(decide (z = front) || decide (tail = some z))
  let h := gone.foldl (Hall.releaseZone v) h
  let (h, c1) := h.seatZone v front
  let (h, c2) := match tail with
    | some t => h.seatZone v t
    | none => (h, false)
  let key : FaultKey := ⟨.zoneConflict, .vehicle v⟩
  if c1 || c2 then (h.raise key, false)
  else
    ((h.lower key).modVehicle v fun x => { x with seated := true, front := some front, tail := tail, ahead := [] }, true)

end Sys2Proof.Machine
end

