-- ==== Sys2Proof/Machine/Fleet.lean ====
section
/-! DEFINITION. The Fleet Controller (Chapter 5): assignment, travel, mission ends, charging, abort records and cancels. -/

namespace Sys2Proof.Machine

/-! ### Availability and charge need (R97, R104) -/

/-- Whether a vehicle is available (R97). -/
def Hall.available (h : Hall) (v : Nat) : Bool :=
  let x := h.vehicle v
  x.commissioned && x.seated && decide (x.supervision = .reporting) && x.abort.isNone && x.mission.isNone && x.load.isNone &&
    decide (h.params.lowCharge ≤ x.charge) && !h.allStop &&
    (decide (x.activity = .idle) || (decide (x.activity = .charging) && decide (h.params.resumeCharge ≤ x.charge)))

/-- The number of available vehicles (R97). -/
def Hall.availableCount (h : Hall) : Nat := (vehicleNumbers.filter h.available).length

/-- Whether a vehicle needs charge (R104). -/
def Hall.needsCharge (h : Hall) (v : Nat) : Bool :=
  let x := h.vehicle v
  x.seated && decide (x.supervision = .reporting) && decide (x.activity = .idle) && x.mission.isNone && x.abort.isNone &&
    x.load.isNone && !h.allStop && decide (x.charge < h.params.lowCharge)

/-- The charger a zone serves. -/
def Zone.charger (z : Zone) : Option Nat :=
  match z.cfg.use with
  | .charger n => some n
  | _ => none

/-- The lowest-numbered free charger (R104). -/
def Hall.freeCharger (h : Hall) : Option Nat :=
  ((List.range 24).map (· + 1)).find? fun n =>
    (h.zones.any fun p => decide (p.2.charger = some n) && p.2.free) &&
      !h.missions.any fun p => decide (p.2.kind = .charge ∧ p.2.drop = some (.charger n))

/-- The charger a vehicle would be sent to: the one it has on hold, or else the lowest free one (R104). -/
def Hall.chargerFor (h : Hall) (v : Nat) : Option Nat :=
  match ((h.heldCharger v).bind h.zone).bind Zone.charger with
  | some n => some n
  | none => h.freeCharger

/-! ### Travel (R99, R101, R102) -/

/-- Whether the vehicle waits under its abort record (R105, R106). -/
def Hall.aborted (h : Hall) (v : Nat) : Bool := (h.vehicle v).abort.isSome

/-- Set off along a route to zone `dest` with an activity; without a route the vehicle is put under HOLD (R101, R102). -/
def Hall.travel (slot v : Nat) (dest : Option Nat) (act : Activity) (h : Hall) : Hall :=
  match dest.bind fun z => (h.vehicle v).front.bind fun f => h.route f z with
  | some zones =>
    ((h.modMission slot fun m => { m with route := some ⟨zones, 1⟩ }).setActivity v act).direct v (.move zones 1)
  | none => ((h.modMission slot fun m => { m with route := none }).setActivity v act).direct v .hold

/-- Owe the ceiling of the line whose call a mission serves (R161). -/
def Hall.oweCall (call : Option StandAddr) (h : Hall) : Hall :=
  match call with
  | some st => h.oweCeiling st.line
  | none => h

/-- A mission becomes CARRYING, and its vehicle sets off for the drop (R101, R102). -/
def Hall.carry (slot : Nat) (h : Hall) : Hall :=
  match h.mission slot with
  | some m =>
    match m.vehicle with
    | some v =>
      let h := (h.modMission slot fun m => { m with state := .carrying }).oweCall m.call
      h.travel slot v (m.drop.bind h.placeZone) (if m.kind = .charge then .toCharger else .carrying)
    | none => h
  | none => h

/-- The expected reel ID of a mission. -/
def Mission.reelId (m : Mission) : ReelId := (m.reel.map (·.id)).getD []

/-- Arrival at the pickup (R99). -/
def Hall.arrivePickup (slot v : Nat) (m : Mission) (h : Hall) : Hall :=
  match m.pickup with
  | some (.arm _ _) =>
    (((h.modMission slot fun m => { m with state := .handover }).setActivity v .handover).direct v .hold).push (.unloadReady slot)
  | some p => (h.setActivity v .picking).direct v (.pick p m.reelId)
  | none => h

/-- Assign a WAITING mission to a vehicle (R99). A vehicle that stands in the pickup zone arrives at once (log 15). -/
def Hall.assign (slot v : Nat) (h : Hall) : Hall :=
  match h.mission slot with
  | some m =>
    let h := (h.modMission slot fun m => { m with state := .assigned, vehicle := some v }).modVehicle v fun x =>
      { x with mission := some slot }
    let h := match m.call with
      | some st => (h.modStand st fun s => { s with call := s.call.map fun c : Call => ({ c with state := .dispatched } : Call) }).oweCeiling st.line
      | none => h
    if m.kind = .park then h.carry slot
    else
      let z := m.pickup.bind h.placeZone
      let h := h.travel slot v z .toPickup
      if z.isSome ∧ (h.vehicle v).front = z then h.arrivePickup slot v m else h
  | none => h

/-! ### The assignment arbiter (R98) -/

/-- The zone a WAITING mission starts from: its pickup, or the drop of a PARK mission (R98). -/
def Hall.startZone (h : Hall) (m : Mission) : Option Nat :=
  (if m.kind = .park then m.drop else m.pickup).bind h.placeZone

/-- The vehicle with the smallest route time to a zone, lowest number first (R98). -/
def Hall.nearest (h : Hall) (z : Nat) : List Nat → Option (Nat × Nat)
  | [] => none
  | v :: rest =>
    match (h.vehicle v).front.bind fun f => h.timeBetween f z, h.nearest z rest with
    | some t, some (w, u) => if t ≤ u then some (v, t) else some (w, u)
    | some t, none => some (v, t)
    | none, best => best

/-- One mission of the walk (R98). -/
def Hall.arbiterOne (h : Hall) (slot : Nat) : Hall :=
  match h.mission slot with
  | some m =>
    if m.state = .waiting ∧ m.kind ≠ .charge ∧ m.drop.isSome then
      match (h.startZone m).bind fun z => h.nearest z (vehicleNumbers.filter h.available) with
      | some (v, _) => h.assign slot v
      | none => h
    else h
  | none => h

/-- A run of the assignment arbiter: the WAITING missions in table order; not during all-stop (R98). -/
def Hall.runArbiter (h : Hall) : Hall :=
  if h.allStop then h else (h.tableOrder.map (·.1)).foldl Hall.arbiterOne h

/-! ### Charging (R104) -/

/-- The content of a CHARGE mission (R104). -/
def chargeMission (v charger clock : Nat) : Mission where
  kind := .charge
  reel := none
  pickup := none
  drop := some (.charger charger)
  cls := .charge
  deadline := clock
  created := 0
  state := .assigned
  vehicle := some v
  route := none
  call := none
  holdBack := false

/-- Test the charge need of a vehicle, and send it to a charger when there is one (R104). -/
def Hall.chargeNeed (h : Hall) (v : Nat) : Hall :=
  if h.needsCharge v then
    match h.chargerFor v with
    | some n =>
      match h.createMission (chargeMission v n h.clock) with
      | (h, some slot) => (h.modVehicle v fun x => { x with mission := some slot }).carry slot
      | (h, none) => h
    | none => h
  else h

/-- The vehicles that need charge, in order of charge and number, each given a charger (R104). -/
def Hall.serveChargers (h : Hall) : Hall :=
  (sortBy (fun v w => keysBefore [(h.vehicle v).charge, v] [(h.vehicle w).charge, w])
    (vehicleNumbers.filter h.needsCharge)).foldl Hall.chargeNeed h

/-! ### The end of a mission (R94, R103) -/

/-- A mission leaves the table: Mission End, its vehicle's mission, its reservation, the slot it leaves, its handover, an arm
it was still to unload, and the call it served (R57, R94, R95, R134, R135). -/
def Hall.endMission (slot : Nat) (o : MissionOutcome) (h : Hall) : Hall :=
  match h.mission slot with
  | some m =>
    let h : Hall := { h with missions := tdel h.missions slot }
    let h := h.notify (.missionEnd slot m.kind m.reel m.vehicle o)
    let h := match m.vehicle with
      | some v => h.modVehicle v fun x => { x with mission := none }
      | none => h
    let h := ((h.dropReservation slot).watchBays).oweSlots
    let h := match h.handoverOf slot with
      | some (st, _) => h.closeHandover st
      | none => h
    let h := match m.kind, m.pickup with
      | .ret, some (.arm st arm) => h.restoreArm st arm m.reel
      | _, _ => h
    match m.call with
    | some st => (h.push (.reRaise st)).oweCeiling st.line
    | none => h
  | none => h

/-- The charge test at the end of a mission other than CHARGE, or when the abort record it left is removed (R103). A slot
that the mission left free goes to the requesters that wait for it first (R95). -/
def Hall.chargeTest (v : Nat) (h : Hall) : Hall :=
  let x := h.vehicle v
  if h.params.resumeCharge ≤ x.charge then h.releaseHold v
  else if x.charge < h.params.lowCharge then h.push (.chargeNeed v)
  else h

/-- What follows a mission's end for its vehicle (R103). An abort record puts the charge test off. -/
def Hall.afterEnd (v : Nat) (kind : MissionKind) (act : Activity) (h : Hall) : Hall :=
  let h := h.setActivity v act
  (if (h.vehicle v).abort.isSome || decide (kind = .charge) then h else h.chargeTest v).push .arbiter

/-! ### Abort records (R105) -/

/-- Add a cause to a vehicle's abort record, or make the record (R105). -/
def Hall.abort (v : Nat) (c : AbortCause) (h : Hall) : Hall :=
  let x := h.vehicle v
  let m := x.mission.bind h.mission
  let fresh : AbortRecord :=
    { causes := [c], kind := m.map (·.kind), reel := (m.bind (·.reel)).or x.load
      zonesLeft := ((m.bind (·.route)).map fun r => r.zones.length - r.progress).getD 0, time := h.clock }
  let record := match x.abort with
    | some r => if r.causes.contains c then r else { r with causes := r.causes ++ [c] }
    | none => fresh
  if x.abort = some record then h
  else (h.modVehicle v fun x => { x with abort := some record }).notify (.vehicleAbort v record)

/-! ### RETURN missions (R55, R107) -/

/-- Release the call field of a mission's reel, when the reel still carries it (R44). -/
def Hall.releaseReel (m : Mission) (b : Block) (h : Hall) : Hall :=
  match m.reel, m.call with
  | some ref, some st =>
    if (h.reel ref).any fun r => decide (r.call = some st) then (h.askRelease st ref b true).1 else h
  | _, _ => h

/-- Turn a mission whose reel is on its vehicle into a RETURN: the call is given up, a handover not yet answered LOAD_OK
ends, and the bay is chosen (R55, R105, log 32). What the vehicle does next is the caller's. -/
def Hall.turnToReturn (slot : Nat) (quarantine : Bool) (h : Hall) : Hall :=
  match h.mission slot with
  | some m =>
    let h := h.releaseReel m .feedPlanner
    let h := h.modMission slot fun m => { m with state := .carrying, route := none }
    let h := h.contentOfReturn slot quarantine
    let h := match h.handoverOf slot with
      | some (st, x) => if x.phase = .granted then h else h.closeHandover st
      | none => h
    match m.call with
    | some st => (h.push (.reRaise st)).oweCeiling st.line
    | none => h
  | none => h

/-- Put a vehicle under HOLD with its abort record and its mission, if any, waiting (R105). -/
def Hall.holdAborted (v : Nat) (h : Hall) : Hall :=
  (if (h.vehicle v).mission.isSome then h.setActivity v .carrying else h).direct v .hold

/-- Whether a vehicle is one for which the RETURN of R107 is made (R107, log 22). -/
def Hall.owedReturn (h : Hall) (v : Nat) : Bool :=
  let x := h.vehicle v
  x.seated && x.abort.isNone && x.mission.isNone && x.load.isSome

/-- Make the RETURN of R107 for the load of a vehicle, with a bay given by the host or chosen; the answer is its slot. -/
def Hall.makeReturn (v : Nat) (named : Option BayAddr) (h : Hall) : Hall × Option Nat :=
  match (h.vehicle v).load with
  | some ref =>
    let m := { returnMission ref none h.clock false with state := .carrying, vehicle := some v }
    match h.createWithBay m (named.or (h.selectFor ref false)) with
    | (h, some slot) => ((h.modVehicle v fun x => { x with mission := some slot }).carry slot, some slot)
    | (h, none) => (h, none)
  | none => (h, none)

/-- Make the RETURN of R107 for one vehicle, when it is owed. -/
def Hall.returnIfOwed (h : Hall) (v : Nat) : Hall := if h.owedReturn v then (h.makeReturn v none).1 else h

/-! ### Cancels (R108) -/

/-- Remove a mission before its pick: its reservation and its allocated reel are released, and its vehicle is put under
HOLD (R108). -/
def Hall.cancelBeforePick (slot : Nat) (o : MissionOutcome) (h : Hall) : Hall :=
  match h.mission slot with
  | some m =>
    let h := (h.releaseReel m .fleetController).endMission slot o
    match m.vehicle with
    | some v => (h.direct v .hold).afterEnd v m.kind .idle
    | none => h
  | none => h

/-- Whether a mission's reel has been picked: it is under way with its reel (R108). -/
def Mission.picked (m : Mission) : Bool :=
  decide (m.state = .carrying ∨ m.state = .handover) && m.reel.isSome

/-- Whether the reel of a mission is at its vehicle (R108). -/
def Hall.reelAboard (h : Hall) (m : Mission) : Bool :=
  match m.reel, m.vehicle with
  | some ref, some v => (h.reel ref).any fun r => decide (r.loc = .vehicle v)
  | _, _ => false

/-- The directive a vehicle is under, or its kept directive while it is STOPPED (R110). -/
def Vehicle.underWay (x : Vehicle) : DirKind :=
  match x.kept with
  | some k => k.kind
  | none => x.directive.kind

/-- Whether TRANSFER or UNLOAD is current for the vehicle (R108); the kept directive of a STOPPED vehicle counts, by the
model's choice (log 76). -/
def Vehicle.atTransfer (x : Vehicle) : Bool :=
  match x.underWay with
  | .transfer _ _ _ | .unload _ _ _ => true
  | _ => false

/-- Cancel Mission from the host; the answer is false where R108 refuses it. A PARK mission has no reel, and is cancelled as
before its pick wherever its vehicle is, by the model's choice (log 76). -/
def Hall.hostCancel (slot : Nat) (m : Mission) (h : Hall) : Hall × Bool :=
  match m.vehicle with
  | none => (h.cancelBeforePick slot .cancelled, true)
  | some v =>
    if m.kind = .charge then
      ((((h.endMission slot .cancelled).direct v .hold).setActivity v .idle).push (.chargeNeed v) |>.push .arbiter, true)
    else if (h.vehicle v).atTransfer then (h, false)
    else if !m.picked then ((h.abort v .hostCancel).cancelBeforePick slot .cancelled, true)
    else if !h.reelAboard m then ((h.abort v .hostCancel).cancelBeforePick slot .cancelled, true)
    else if m.kind = .ret then (h, false)
    else (((h.abort v .hostCancel).turnToReturn slot false).holdAborted v, true)

/-! ### Losing a vehicle (R90) -/

/-- What a vehicle's loss does to its mission (R90). The new INTAKE of a reel still at its dock is made at once, ahead of the
requesters that wait for a slot (R95), by the model's choice (log 81). -/
def Hall.loseMission (slot : Nat) (h : Hall) : Hall :=
  match h.mission slot with
  | some m =>
    let h := (h.releaseReel m .fleetController).endMission slot .aborted
    match m.kind, m.reel with
    | .intake, some ref =>
      if (h.reel ref).any fun r => decide (r.state = .atDock) then (h.makeIntake ref).1 else h
    | _, _ => h
  | none => h

/-- A vehicle becomes LOST (R90). -/
def Hall.loseVehicle (v : Nat) (h : Hall) : Hall :=
  let h := h.modVehicle v fun x => { x with supervision := .lost }
  let h := (h.lower ⟨.vehicleSilent, .vehicle v⟩).raise ⟨.vehicleLost, .vehicle v⟩
  let h := h.abort v .vehicleLost
  let h := match (h.vehicle v).load with
    | some ref => (h.askVehicleLost v ref).1
    | none => h
  let h := match (h.vehicle v).mission with
    | some slot => (h.loseMission slot).setActivity v .idle
    | none => if (h.vehicle v).pursuit = Activity.charging then h else h.setActivity v .idle
  h.direct v .hold

/-! ### Waiting missions that can go on (R102, R106) -/

/-- Let a mission that waits with its vehicle go on: its drop is reached by R101, once no abort record holds it. -/
def Hall.resumeMission (slot : Nat) (h : Hall) : Hall :=
  match h.mission slot with
  | some m =>
    match m.vehicle with
    | some v => if h.aborted v || decide (m.state ≠ .carrying) then h else h.carry slot
    | none => h
  | none => h

/-- The Bay Map has given a mission a bay (R56, R95, R102). -/
def Hall.gotDrop (slot : Nat) (h : Hall) : Hall :=
  match h.mission slot with
  | some m => (if m.vehicle.isSome then h.resumeMission slot else h).push .arbiter
  | none => h

/-- Whether a route leads from a vehicle to a zone. -/
def Hall.reaches (h : Hall) (v : Nat) (z : Option Nat) : Bool :=
  (z.bind fun z => (h.vehicle v).front.bind fun f => h.route f z).isSome

/-- Make R99 or R101 again for a mission left without a route, once one can be built (R102). -/
def Hall.retryRoute (h : Hall) (slot : Nat) : Hall :=
  match h.mission slot with
  | some m =>
    match m.vehicle, m.route with
    | some v, none =>
      if h.aborted v then h
      else if m.state = .assigned ∧ h.reaches v (h.startZone m) then h.assign slot v
      else if m.state = .carrying ∧ h.reaches v (m.drop.bind h.placeZone) then h.carry slot
      else h
    | _, _ => h
  | none => h

/-- Make R99 and R101 again after a change of the zone table (R102). -/
def Hall.retryRoutes (h : Hall) : Hall := (h.missions.map (·.1)).foldl Hall.retryRoute h

end Sys2Proof.Machine
end

