-- ==== Sys2Proof/Machine/Ceiling.lean ====
section
/-! DEFINITION. Supply timing (R10 to R14) and the speed ceiling of a line (7.6). -/

namespace Sys2Proof.Machine

/-! ### The running reel (R9, R10, R148) -/

/-- The record of the reel on a stand's running arm. -/
def Hall.runningReel (h : Hall) (st : StandAddr) : Option Reel :=
  (h.stand st).bind fun s => s.running.bind fun arm => (s.arm arm).reel.bind h.reel

/-- The tracked diameter of a reel (R148). -/
def Hall.tracked (h : Hall) (r : Reel) : Nat :=
  if r.estimate then estimateDiameter (h.gradeOf r).caliper r.core r.remaining else r.accepted

/-- Run length to splice of a reel on a stand with splice diameter `ds` (R10). -/
def Hall.runLength (h : Hall) (r : Reel) (ds : Nat) : Nat := r.remaining - h.reelLength r (effDs ds r.core)

/-- Actual speed of a line. -/
def Hall.speed (h : Hall) (n : Nat) : Nat := ((h.line n).map (·.speed)).getD 0

/-- Time to splice of a stand's running reel (R10). -/
def Hall.timeToSplice (h : Hall) (st : StandAddr) (r : Reel) (ds : Nat) : Nat :=
  timeToSpliceOf (h.runLength r ds) (h.speed st.line)

/-! ### Supply timing (R11 to R14) -/

/-- Whether a mission is one of class DELIVER or URGENT. -/
def Mission.delivers (m : Mission) : Bool := decide (m.cls = .deliver ∨ m.cls = .urgent)

/-- The DELIVER or URGENT mission of a stand (R11). -/
def Hall.deliveryOf (h : Hall) (st : StandAddr) : Option (Nat × Mission) :=
  h.missions.find? fun p => p.2.delivers && match p.2.drop with
    | some (.arm x _) => decide (x = st)
    | _ => false

/-- Whether a mission stands ahead of the place of a stand's delivery; `deadline` is the one a new mission would take
(R11). -/
def aheadOf (own : Option (Nat × Mission)) (deadline : Nat) (p : Nat × Mission) : Bool :=
  match own with
  | some q => keysBefore (p.2.keys p.1) (q.2.keys q.1)
  | none => decide (p.2.cls = .urgent ∨ p.2.deadline ≤ deadline)

/-- The queue estimate of a stand with time to splice `t` (R11). -/
def Hall.queueEstimate (h : Hall) (st : StandAddr) (t : Nat) : Nat :=
  let n := (h.missions.filter fun p => decide (p.2.state = .waiting) && p.2.delivers &&
    aheadOf (h.deliveryOf st) (satAdd Config.max32 h.clock t) p).length
  satSeconds (n * h.params.missionAllowance / max 1 h.availableCount)

/-- The lead time of a stand (R12). -/
def Hall.leadTime (h : Hall) (st : StandAddr) (s : Stand) (l : Line) (t : Nat) : Nat :=
  satSeconds (s.cfg.allowance + l.cfg.prepAllowance + h.queueEstimate st t)

/-- Route time of the zones of a route not yet travelled (R67). -/
def Hall.timeLeft (h : Hall) (r : Route) : Nat := h.timeOf (r.zones.drop r.progress)

/-- Route time from a mission's pickup to a stand's SPUR (R13). -/
def Hall.legToSpur (h : Hall) (m : Mission) (st : StandAddr) : Option Nat :=
  match m.pickup.bind h.placeZone, h.zoneOf (.spur st) with
  | some a, some b => h.timeBetween a b
  | _, _ => none

/-- ETA by a mission; 65,535 when no route can be built (R13, R160). -/
def Hall.etaOf (h : Hall) (st : StandAddr) (m : Mission) (q : Nat) : Nat :=
  let p := h.params
  match m.state with
  | .waiting => ((h.legToSpur m st).map fun leg => satSeconds (q + leg + p.pickTime + p.transferTime)).getD Config.maxSeconds
  | .assigned =>
    match m.route, h.legToSpur m st with
    | some r, some leg => satSeconds (h.timeLeft r + leg + p.pickTime + p.transferTime)
    | _, _ => Config.maxSeconds
  | .carrying => (m.route.map fun r => satSeconds (h.timeLeft r + p.transferTime)).getD Config.maxSeconds
  | .handover => satSeconds p.transferTime

/-- Whether an arm holds the stand's next reel: LOADED, PREPARING or PREPARED. -/
def Arm.holdsNext (a : Arm) : Bool := decide (a.state = .loaded ∨ a.state = .preparing ∨ a.state = .prepared)

/-- The standby arm record of a stand. -/
def Stand.standbyArm (s : Stand) : Option Arm := s.standby.map s.arm

/-- The arm for a stand's next reel: the standby arm, or, while no arm runs, the arm of the LOAD handover. -/
def Stand.nextArm (s : Stand) : Option Arm :=
  s.standbyArm.or ((s.handover.filter fun x => decide (x.kind = .load)).map fun x => s.arm x.arm)

/-- The ETA of a stand's next reel (R13). -/
def Hall.eta (h : Hall) (st : StandAddr) (s : Stand) (t : Nat) : Option Nat :=
  if s.nextArm.any Arm.holdsNext then some 0
  else
    let slot := (s.call.bind (·.mission)).or ((s.handover.filter fun x => decide (x.kind = .load)).map (·.mission))
    (slot.bind h.mission).map fun m => h.etaOf st m (h.queueEstimate st t)

/-- The preparation time still needed by a stand's next reel (R14). -/
def Hall.prepLeft (h : Hall) (s : Stand) (l : Line) : Nat :=
  match s.nextArm.filter Arm.holdsNext with
  | some a => prepRemaining l.cfg.prepAllowance h.clock a.loadedAt
  | none => l.cfg.prepAllowance

/-- The needed time of a stand (R14); none once its reel is prepared. -/
def Hall.needed (h : Hall) (st : StandAddr) (s : Stand) (l : Line) (t : Nat) : Option Nat :=
  if s.nextArm.any fun a => decide (a.state = .prepared) then none
  else (h.eta st s t).map fun e => neededOf e (h.prepLeft s l)

/-! ### The line ceiling (R160, R161) -/

/-- Whether a stand's matters call for a ceiling value (R160). -/
def Stand.contributes (s : Stand) : Bool :=
  s.inService && decide (s.mode ≠ .outOfService ∧ s.mode ≠ .unknown) &&
    (s.call.any (fun c => decide (c.state = .allocated ∨ c.state = .dispatched)) ||
      s.standbyArm.any fun a => decide (a.state = .loading ∨ a.state = .loaded ∨ a.state = .preparing))

/-- The ceiling value a stand contributes (R15, R160). -/
def Hall.standValue (h : Hall) (st : StandAddr) : Option Nat :=
  match h.stand st, h.line st.line, h.runningReel st with
  | some s, some l, some r =>
    if s.contributes then
      (h.needed st s l (h.timeToSplice st r s.cfg.ds)).map fun need =>
        ceilingValue (h.runLength r s.cfg.ds) need l.cfg.crawl l.cfg.lineMax
    else none
  | _, _, _ => none

/-- The values contributed to a line, by stand in address order. -/
def Hall.lineValues (h : Hall) (n : Nat) : List (StandAddr × Nat) :=
  (h.standsOf n).filterMap fun st => (h.standValue st).map fun v => (st, v)

/-- The top of a line (R161). -/
def Line.top (l : Line) : Nat := min l.hostCeiling l.cfg.lineMax

/-- The value formed from the contributed ones (R161). -/
def Line.formed (l : Line) (values : List Nat) : Nat := max l.cfg.crawl (floor10 (values.foldl min l.top))

/-- Whether the current ceiling moves to a formed value (R161). -/
def Line.moves (l : Line) (formed : Nat) : Bool :=
  decide (formed < l.ceiling) ||
    (decide (l.ceiling < formed) &&
      (decide (l.ceiling + 30 ≤ formed) || decide (formed = l.top) || decide (l.ceiling < l.cfg.crawl)))

/-- Whether a stand is in the line's constraining set (R160). -/
def Line.constrains (l : Line) (st : StandAddr) : Bool := l.constraining.any fun p => decide (p.1 = st)

/-- The stand with the lowest value of a list (R162); of several with the same value the first in address order, by the model's
choice (log 82). -/
def lowestStand : List (StandAddr × Nat) → Option (StandAddr × Nat)
  | [] => none
  | p :: rest =>
    match lowestStand rest with
    | some q => if p.2 ≤ q.2 then some p else some q
    | none => some p

/-- Queue a Ceiling Changed notice of a line; the stand it names is taken from the line's constraining set (R162). -/
def Hall.noteCeiling (n : Nat) (h : Hall) : Hall :=
  match h.line n with
  | some l =>
    h.notify (.ceilingChanged n l.ceiling l.top l.reduced l.byHost ((lowestStand l.constraining).map (·.1)))
  | none => h

/-- Send the current ceiling; below the top it sets REDUCED_BY_SUPPLY (R161, R162). -/
def Hall.sendCeiling (n : Nat) (h : Hall) : Hall :=
  match h.line n with
  | some l =>
    ((h.modLine n fun l => { l with reduced := l.reduced || decide (l.ceiling < l.top) }).sendLine n (.ceiling l.ceiling)).noteCeiling n
  | none => h

/-- The DELIVER mission of a stand becomes URGENT while it is constraining, and DELIVER again (R95, R160). -/
def Hall.setUrgent (on : Bool) (h : Hall) (st : StandAddr) : Hall :=
  match h.deliveryOf st with
  | some (slot, _) => h.modMission slot fun m => { m with cls := if on then .urgent else .deliver }
  | none => h

/-- Take the constraining set anew: missions of stands that join or leave it, and STARVING (R160). -/
def Hall.takeConstraining (n : Nat) (values : List (StandAddr × Nat)) (h : Hall) : Hall :=
  match h.line n with
  | some l =>
    let now := values.filter fun p => decide (p.2 < l.cfg.lineMax)
    let h := h.modLine n fun l => { l with constraining := now }
    let h := ((l.constraining.map (·.1)).filter fun st => !now.any fun p => decide (p.1 = st)).foldl (Hall.setUrgent false) h
    let h := ((now.map (·.1)).filter fun st => !l.constrains st).foldl (Hall.setUrgent true) h
    (h.standsOf n).foldl (fun h st =>
      h.setActive (standFault .starving st) (values.any fun p => decide (p.1 = st ∧ p.2 = l.cfg.crawl))) h
  | none => h

/-- Form the ceiling of a line anew (R160, R161). -/
def Hall.formCeiling (h : Hall) (n : Nat) : Hall :=
  match h.line n with
  | some l =>
    let values := h.lineValues n
    let h := h.takeConstraining n values
    let formed := l.formed (values.map (·.2))
    if l.moves formed then (h.modLine n fun l => { l with ceiling := formed }).sendCeiling n else h
  | none => h

/-- Form the ceilings owed (log 4). -/
def Hall.formCeilings (h : Hall) : Hall := h.ceilings.foldl Hall.formCeiling { h with ceilings := [] }

/-- A host ceiling brought into the range of a line (R162). -/
def LineCfg.fitCeiling (c : LineCfg) (v : Nat) : Nat := floor10 (min c.lineMax (max c.crawl v))

end Sys2Proof.Machine
end

