-- ==== Sys2Proof/Machine/Calls.lean ====
section
/-! DEFINITION. Calls and handovers of the Feed Planner (6.3, 6.4): raising, allocating, ending, re-raising, opening. -/

namespace Sys2Proof.Machine

/-! ### Calls (R124 to R128) -/

/-- The call of a stand. -/
def Hall.call (h : Hall) (st : StandAddr) : Option Call := (h.stand st).bind (·.call)

/-- Change the call of a stand; its line's ceiling follows (R161). -/
def Hall.modCall (st : StandAddr) (f : Call → Call) (h : Hall) : Hall :=
  (h.modStand st fun s => { s with call := s.call.map f }).oweCeiling st.line

/-- The content of a DELIVER mission (R127). -/
def deliverMission (st : StandAddr) (arm : ArmName) (ref : ReelRef) (pickup : Option Place) (urgent : Bool) (deadline : Nat) :
    Mission where
  kind := .deliver
  reel := some ref
  pickup := pickup
  drop := some (.arm st arm)
  cls := if urgent then .urgent else .deliver
  deadline := deadline
  created := 0
  state := .waiting
  vehicle := none
  route := none
  call := some st
  holdBack := false

/-- The bay a reel rests in, as a pickup. -/
def Hall.bayOf (h : Hall) (ref : ReelRef) : Option Place :=
  (h.reel ref).bind fun r => match r.loc with
    | .bay b => some (.bay b)
    | _ => none

/-- Allocate a reel for a stand's RAISED or STARVED call and make its DELIVER mission (R127). The answer is true when the
mission table was full. A stand without a standby arm allocates nothing (log 33). -/
def Hall.allocateFor (st : StandAddr) (h : Hall) : Hall × Bool :=
  match h.stand st, h.line st.line with
  | some s, some l =>
    match s.call, s.standby with
    | some c, some arm =>
      match h.allocate st with
      | (h, some ref) =>
        match h.createMission (deliverMission st arm ref (h.bayOf ref) (l.constrains st) c.deadline) with
        | (h, some slot) =>
          (h.modCall st fun c => { c with state := .allocated, reel := some ref, mission := some slot }, false)
        | (h, none) =>
          (((h.askRelease st ref .feedPlanner false).1).modCall st fun c =>
            { c with state := .raised, reel := none, mission := none }, true)
      | (h, none) => (h.modCall st fun c => { c with state := .starved, reel := none, mission := none }, false)
    | _, _ => (h, false)
  | _, _ => (h, false)

/-- The stands with a call in a state, by call deadline and then by address (R45, R127). -/
def Hall.callsIn (h : Hall) (x : CallState) : List StandAddr :=
  let rows := h.stands.filterMap fun p => (p.2.call.filter fun c => decide (c.state = x)).map fun c => (c.deadline, p.1)
  (sortBy (fun p q => keysBefore [p.1, p.2] [q.1, q.2]) rows).map fun p => standOfKey p.2

/-- The starved-call retry for a grade and width (R45). -/
def Hall.starvedRetry (grade width : Nat) (h : Hall) : Hall :=
  ((h.callsIn CallState.starved).filter fun st => (h.stand st).any fun s => decide (s.cfg.grade = grade ∧ s.cfg.width = width)).foldl
    (fun h st => (h.allocateFor st).1) h

/-- Allocate RAISED calls again until one is refused for a full table (R127). -/
def Hall.raisedRetry (h : Hall) : List StandAddr → Hall
  | [] => h
  | st :: rest =>
    match h.allocateFor st with
    | (h, true) => h
    | (h, false) => h.raisedRetry rest

/-- Queue a Call Raised notice (R125, R128). -/
def Hall.noteCall (st : StandAddr) (h : Hall) : Hall :=
  match h.call st with
  | some c => h.notify (.callRaised st c.deadline c.reraises)
  | none => h

/-- Whether the conditions of the call test hold (R125). -/
def Hall.callDue (h : Hall) (st : StandAddr) : Bool :=
  match h.stand st, h.line st.line, h.runningReel st with
  | some s, some l, some r =>
    s.inService && decide (s.mode ≠ .outOfService ∧ s.mode ≠ .unknown) &&
      s.running.any (fun arm => decide ((s.arm arm).state = .running)) &&
      s.standbyArm.any (fun a => decide (a.state = .empty)) && s.handover.isNone && s.call.isNone &&
      (decide (h.timeToSplice st r s.cfg.ds ≤ h.leadTime st s l (h.timeToSplice st r s.cfg.ds)) ||
        decide (h.runLength r s.cfg.ds ≤ l.cfg.callLength))
  | _, _, _ => false

/-- The call test of a stand (R125). -/
def Hall.callTest (st : StandAddr) (h : Hall) : Hall :=
  if h.callDue st then
    match h.stand st, h.runningReel st with
    | some s, some r =>
      let c : Call :=
        { state := .raised, raisedAt := h.clock, deadline := satAdd Config.max32 h.clock (h.timeToSplice st r s.cfg.ds)
          reel := none, mission := none, reraises := 0 }
      let h := (h.modStand st fun s => { s with call := some c }).oweCeiling st.line
      (h.allocateFor st).1.noteCall st
    | _, _ => h
  else h

/-- Deal with the reel and mission of a call that has ended without that reel being loaded (R126). -/
def Hall.dropCallReel (st : StandAddr) (o : CallOutcome) (ref : ReelRef) (slot : Option Nat) (h : Hall) : Hall :=
  let release (h : Hall) : Hall :=
    if (h.reel ref).any fun r : Reel => decide (r.call = some st) then (h.askRelease st ref .feedPlanner true).1 else h
  match slot.bind fun n => (h.mission n).map fun m => (n, m) with
  | some (n, m) =>
    if m.kind ≠ .deliver ∨ m.reel ≠ some ref then release h
    else if (h.handover st).any fun x => decide (x.mission = n ∧ x.phase = .granted) then release h
    else if m.picked && h.reelAboard m then
      match m.vehicle with
      | some v =>
        if o = .outOfService then ((h.abort v .standOutOfService).turnToReturn n false).holdAborted v
        else (h.turnToReturn n false).resumeMission n
      | none => release h
    else h.cancelBeforePick n .cancelled
  | none => release h

/-- A call ends (R126); `loaded` is the reel that became LOADED on the arm, if any. -/
def Hall.endCall (st : StandAddr) (o : CallOutcome) (loaded : Option ReelRef) (h : Hall) : Hall :=
  match h.call st with
  | some c =>
    let h := (h.modStand st fun s => { s with call := none }).oweCeiling st.line
    let h := match c.reel with
      | some ref => if loaded = some ref then h else h.dropCallReel st o ref c.mission
      | none => if c.state = CallState.starved then h.lower (standFault .stockOut st) else h
    h.notify (.callEnd st o loaded)
  | none => h

/-- Whether a call has lost its reel: the reel no longer carries the call, or its DELIVER mission is gone (R128). -/
def Hall.callLost (h : Hall) (st : StandAddr) (c : Call) : Bool :=
  match c.reel with
  | some ref =>
    !((h.reel ref).any fun r : Reel => decide (r.call = some st)) ||
      !((c.mission.bind h.mission).any fun m => decide (m.kind = .deliver ∧ m.call = some st ∧ m.reel = some ref))
  | none => false

/-- Re-raise the call of a stand that has lost its reel, or end it (R128). -/
def Hall.reRaise (st : StandAddr) (h : Hall) : Hall :=
  match h.stand st with
  | some s =>
    match s.call with
    | some c =>
      if !h.callLost st c then h
      else if !s.inService then h.endCall st .outOfService none
      else if !(s.standbyArm.any fun a => decide (a.state = .empty)) then h.endCall st .cancelled none
      else
        let h := match c.reel with
          | some ref =>
            if (h.reel ref).any fun r : Reel => decide (r.call = some st) then (h.askRelease st ref .feedPlanner true).1 else h
          | none => h
        let h := h.modCall st fun c =>
          { c with state := .raised, reel := none, mission := none, reraises := satAdd Config.max8 c.reraises 1 }
        (h.allocateFor st).1.noteCall st
    | none => h
  | none => h

/-! ### Handovers (R130, R135) -/

/-- Send LOAD REQUEST for a stand's handover (R130). -/
def Hall.sendLoad (st : StandAddr) (x : Handover) (h : Hall) : Hall := h.sendLine st.line (.loadRequest st x.arm x.reel.id)

/-- A WAITING handover is sent LOAD REQUEST while the stand is NORMAL or STARVED (R130, R131). -/
def Hall.requestLoad (st : StandAddr) (h : Hall) : Hall :=
  match h.stand st with
  | some s =>
    match s.handover with
    | some x =>
      if x.kind = .load ∧ x.phase = .waiting ∧ (s.mode = .normal ∨ s.mode = .starved) then
        (h.modHandover st fun x => { x with phase := .asked }).sendLoad st x
      else h
    | none => h
  | none => h

/-- Open a LOAD handover for a vehicle that has arrived with a DELIVER mission (R130). -/
def Hall.openLoad (slot : Nat) (h : Hall) : Hall :=
  match h.mission slot with
  | some m =>
    match m.drop, m.reel, m.vehicle with
    | some (.arm st arm), some ref, some v =>
      match h.stand st with
      | some s =>
        if s.handover.isSome then h
        else
          let ask := decide (s.mode = .normal ∨ s.mode = .starved) && decide ((s.arm arm).state = .empty)
          let x : Handover := ⟨.load, arm, ref, v, slot, if ask then .asked else .waiting, h.timebase, false, false⟩
          let h := (h.modStand st fun s => { s with handover := some x }).oweCeiling st.line
          if ask then h.sendLoad st x else h
      | none => h
    | _, _, _ => h
  | none => h

/-- Open an UNLOAD handover for a vehicle that stands ready to unload (R135). -/
def Hall.openUnload (slot : Nat) (h : Hall) : Hall :=
  match h.mission slot with
  | some m =>
    match m.pickup, m.reel, m.vehicle with
    | some (.arm st arm), some ref, some v =>
      if (h.stand st).any fun s => s.handover.isNone && decide ((s.arm arm).state = .unloading) then
        let x : Handover := ⟨.unload, arm, ref, v, slot, .granted, h.timebase, false, false⟩
        ((h.modStand st fun s => { s with handover := some x }).oweCeiling st.line).direct v (.unload st arm ref.id)
      else h
    | _, _, _ => h
  | none => h

/-- A reel has become LOADED on an arm by a load or an adoption: the arm, the end of the stand's call, and the preparation
request with the deadline of the call so ended (R116, R126, R136, R139). -/
def Hall.loaded (st : StandAddr) (arm : ArmName) (ref : ReelRef) (h : Hall) : Hall :=
  let deadline := ((h.call st).map (·.deadline)).getD h.clock
  ((h.loadArm st arm).endCall st .loaded (some ref)).requestPrep st arm deadline

end Sys2Proof.Machine
end

