-- ==== Sys2Proof/Machine/Waste.lean ====
section
/-! DEFINITION. The Waste Counter (Chapter 8): counting, finalizing, divert intervals and the gate schedule. -/

namespace Sys2Proof.Machine

/-! ### Finalizing (R165, R166, R172) -/

/-- Copies of the run `lo + 1` to `hi` that an interval covers (R169). -/
def Interval.covered (iv : Interval) (lo hi : Nat) : Nat :=
  let stop := match iv.stop with
    | some e => min e (hi + 1)
    | none => hi + 1
  stop - max iv.first (lo + 1)

/-- Copies of a run covered by the intervals of a cause. -/
def coveredBy (c : Cause) (lo hi : Nat) (ivs : List Interval) : Nat :=
  ((ivs.filter fun iv => decide (iv.cause = c)).map fun iv => iv.covered lo hi).foldl (· + ·) 0

/-- The waste of a run by cause (R166). -/
def runWaste (lo hi : Nat) (ivs : List Interval) : Waste :=
  ⟨coveredBy .start lo hi ivs, coveredBy .splice lo hi ivs, coveredBy .brk lo hi ivs, coveredBy .operator lo hi ivs⟩

/-- The intervals not yet retired when copies up to `f` are final (R172). -/
def retire (f : Nat) (ivs : List Interval) : List Interval :=
  ivs.filter fun iv => match iv.stop with
    | some e => decide (f + 1 < e)
    | none => true

/-- Finalize the copies after F up to `upTo`, and retire (R166). -/
def LineCount.finalizeTo (c : LineCount) (upTo : Nat) : LineCount :=
  let w := runWaste c.finalized upTo c.intervals
  { c with finalized := upTo
           good := satAdd Config.max48 c.good (upTo - c.finalized - w.total)
           waste := c.waste.add Config.max48 w
           intervals := retire upTo c.intervals }

/-- Change the counting record of a line. -/
def Hall.modCount (n : Nat) (f : LineCount → LineCount) (h : Hall) : Hall := { h with counts := tmod h.counts n f }

/-- Finalize the copies of a line up to `upTo`, booked in one transfer to the open edition or unassigned (R166). -/
def Hall.finalizeTo (n upTo : Nat) (h : Hall) : Hall :=
  match h.count n with
  | some c =>
    if upTo ≤ c.finalized then h
    else
      let w := runWaste c.finalized upTo c.intervals
      (h.modCount n fun c => c.finalizeTo upTo).bookCopies n (upTo - c.finalized - w.total) w
  | none => h

/-- Finalize every provisional copy of a line (R167). -/
def Hall.finalizeAll (n : Nat) (h : Hall) : Hall :=
  match h.count n with
  | some c => h.finalizeTo n c.counted
  | none => h

/-- Finalize the copies of a line that lie deeper than B (R165, R167). -/
def Hall.finalizeDepth (n : Nat) (h : Hall) : Hall :=
  match h.count n with
  | some c => h.finalizeTo n (c.counted - c.cfg.depth)
  | none => h

/-! ### The divert interval list (R169 to R171) -/

/-- Whether an end lies at or before copy `n`. -/
def endsBy (e : Option Nat) (n : Nat) : Bool := e.any fun x => decide (x ≤ n)

/-- The portions of a new interval that no interval of the list covers (R170, steps 2 and 3). -/
def uncovered (a : Nat) (e : Option Nat) : List Interval → List (Nat × Option Nat)
  | [] => [(a, e)]
  | iv :: rest =>
    if endsBy e iv.first then [(a, e)]
    else match iv.stop with
      | none => if a < iv.first then [(a, some iv.first)] else []
      | some s =>
        if s ≤ iv.first then uncovered a e rest
        else (if a < iv.first then [(a, some iv.first)] else []) ++ if endsBy e s then [] else uncovered (max a s) e rest

/-- Insert an interval by first copy (R169, R170). -/
def insertInterval (iv : Interval) : List Interval → List Interval
  | [] => [iv]
  | x :: rest => if iv.first < x.first then iv :: x :: rest else x :: insertInterval iv rest

/-- Replace an interval of the list. -/
def replaceInterval (old new : Interval) (ivs : List Interval) : List Interval := ivs.map fun x => if x = old then new else x

/-- An interval list in the making, with the gate keys of intervals that have gone into a neighbour (log 29). -/
structure Offer where
  ivs : List Interval
  gone : List GateCount
deriving DecidableEq, Repr

/-- Let interval `l`, already grown to `e`, take in the interval of its cause that begins where it ends, if any (R170). -/
def joinRight (l : Interval) (e : Option Nat) (o : Offer) : Offer :=
  let grown := { l with stop := e, sent := false, endMoved := true }
  match e.bind fun x => o.ivs.find? fun r => decide (r.first = x ∧ r.cause = l.cause ∧ r ≠ l) with
  | some r =>
    { ivs := replaceInterval l { grown with stop := r.stop, key := l.key.or r.key } (o.ivs.erase r)
      gone := o.gone ++ if l.key.isSome then r.key.toList else [] }
  | none => { o with ivs := replaceInterval l grown o.ivs }

/-- Place one uncovered portion (R170 step 4, R171). -/
def placePortion (cause : Cause) (o : Offer) (p : Nat × Option Nat) : Offer :=
  match o.ivs.find? fun l => decide (l.stop = some p.1 ∧ l.cause = cause) with
  | some l => joinRight l p.2 o
  | none =>
    match p.2.bind fun x => o.ivs.find? fun r => decide (r.first = x ∧ r.cause = cause) with
    | some r => { o with ivs := replaceInterval r { r with first := p.1, sent := false } o.ivs }
    | none =>
      if o.ivs.length < Config.intervalSlots then { o with ivs := insertInterval ⟨p.1, p.2, cause, false, none, false⟩ o.ivs }
      else match (o.ivs.filter fun x => decide (x.first < p.1)).getLast? with
        | some l => joinRight l p.2 o
        | none => match o.ivs with
          | r :: rest => { o with ivs := { r with first := p.1, sent := false } :: rest }
          | [] => o

/-- Offer a new interval to a list whose copies up to `f` are final (R170). -/
def offerInterval (f : Nat) (ivs : List Interval) (first : Nat) (stop : Option Nat) (cause : Cause) : Offer :=
  let a := max first (f + 1)
  if endsBy stop a then ⟨ivs, []⟩ else (uncovered a stop ivs).foldl (placePortion cause) ⟨ivs, []⟩

/-- Whether the list has an OPEN interval of a cause. -/
def LineCount.openCause (c : LineCount) : Option Cause := (c.intervals.find? fun iv => iv.stop.isNone).map (·.cause)

/-- An interval after end `e` has been set for the OPEN one (R174 to R176): one that then covers nothing leaves the list, by the
model's reading (R170, R172, log 19). -/
def Interval.endAt (e : Nat) (iv : Interval) : Option Interval :=
  if iv.stop.isSome then some iv
  else if iv.first < e then some { iv with stop := some e, sent := false, endMoved := true }
  else none

/-- Set the end of the OPEN interval (R174 to R176). -/
def LineCount.endOpen (c : LineCount) (e : Nat) : LineCount := { c with intervals := c.intervals.filterMap (Interval.endAt e) }

/-- The gate entries of the intervals that leave the list when end `e` is set (log 19). -/
def LineCount.emptied (c : LineCount) (e : Nat) : List GateCount :=
  (c.intervals.filter fun iv => (iv.endAt e).isNone).filterMap (·.key)

/-! ### The gate schedule (R177, R178) -/

/-- The gate value of copy `n` (R177); with no gate count it is reckoned from 0, by the model's choice (log 69). -/
def LineCount.gateValue (c : LineCount) (n : Nat) : GateCount :=
  c.gate.getD 0 + BitVec.ofNat 32 n - BitVec.ofNat 32 c.counted

/-- GATE INTERVAL for an interval. -/
def LineCount.fullMessage (c : LineCount) (iv : Interval) : LineMsg :=
  .gateInterval (c.gateValue iv.first) (iv.stop.map c.gateValue) iv.cause

/-- The messages an interval with its flag clear is sent by: GATE END when its end alone has changed, and in full when it
has never been sent, when its first copy has changed, or when only its flag was cleared (R177, R178, log 30). -/
def LineCount.messages (c : LineCount) (iv : Interval) : List LineMsg :=
  match iv.key with
  | none => [c.fullMessage iv]
  | some old =>
    if old = c.gateValue iv.first then
      match iv.stop.filter fun _ => iv.endMoved with
      | some e => [.gateEnd old (c.gateValue e)]
      | none => [c.fullMessage iv]
    else [.gateEnd old old, c.fullMessage iv]

/-- The interval after it has been sent: the flag is set unless the link is down (R177, R178). -/
def LineCount.markSent (c : LineCount) (down : Bool) (iv : Interval) : Interval :=
  if iv.sent then iv else { iv with sent := !down, key := some (c.gateValue iv.first), endMoved := false }

/-- Send a list of messages on a Line Link. -/
def Hall.sendAll (n : Nat) (ms : List LineMsg) (h : Hall) : Hall := ms.foldl (fun h m => h.sendLine n m) h

/-- The gate schedule: every interval of a line whose flag is clear is sent; nothing while the gate has no counts (R177). -/
def Hall.schedule (n : Nat) (h : Hall) : Hall :=
  match h.count n with
  | some c =>
    if c.gate.isSome then
      let ms := ((c.intervals.filter fun iv => !iv.sent).map c.messages).flatten
      (h.sendAll n ms).modCount n fun c => { c with intervals := c.intervals.map (c.markSent (h.linkDown n)) }
    else h
  | none => h

/-- Clear the sent-to-gate flag of every interval of a line (R178). -/
def Hall.unsend (n : Nat) (h : Hall) : Hall :=
  h.modCount n fun c => { c with intervals := c.intervals.map fun iv => { iv with sent := false } }

/-- An interval whose flag is clear, or any interval at the first LINE STATUS after a warm restart, is taken as never sent, so
that the schedule sends it in full (R178, R182). -/
def Interval.forget (every : Bool) (iv : Interval) : Interval :=
  if iv.sent && !every then iv else { iv with sent := false, key := none }

/-- Take the intervals of a line that are to be sent in full as never sent; a warm restart waits no more (R178, R182). -/
def Hall.forget (n : Nat) (h : Hall) : Hall :=
  h.modCount n fun c => { c with intervals := c.intervals.map (Interval.forget c.resend), resend := false }

/-- Offer an interval to a line's list; GATE END removes the entries of intervals taken in by a neighbour (log 29). The
schedule is the caller's to follow. -/
def Hall.offer (n first : Nat) (stop : Option Nat) (cause : Cause) (h : Hall) : Hall :=
  match h.count n with
  | some c =>
    let o := offerInterval c.finalized c.intervals first stop cause
    (h.sendAll n (o.gone.map fun k => .gateEnd k k)).modCount n fun c => { c with intervals := o.ivs }
  | none => h

/-- The intervals of a line. -/
def Hall.intervals (h : Hall) (n : Nat) : List Interval := ((h.count n).map (·.intervals)).getD []

/-- Offer an interval, and send the schedule when the list has changed (R170, R177). -/
def Hall.divert (n first : Nat) (stop : Option Nat) (cause : Cause) (h : Hall) : Hall :=
  let h' := h.offer n first stop cause
  if h'.intervals n = h.intervals n then h' else h'.schedule n

/-! ### Where intervals come from (R173 to R176) -/

/-- Whether the OPEN START interval is longer than the start limit (R175). -/
def LineCount.overStart (c : LineCount) : Bool :=
  c.intervals.any fun iv => iv.stop.isNone && decide (iv.cause = .start ∧ c.cfg.startLimit < c.counted + 1 - iv.first)

/-- The test of the start limit (R175). -/
def Hall.testStart (n : Nat) (h : Hall) : Hall :=
  h.setActive ⟨.startLimit, .line n⟩ ((h.count n).any LineCount.overStart)

/-- START_LIMIT becomes inactive when the interval that made it active has taken an end or gone (R175). -/
def Hall.easeStart (n : Nat) (h : Hall) : Hall :=
  if (h.count n).any LineCount.overStart then h else h.lower ⟨.startLimit, .line n⟩

/-- The copy number of a splice cut (R173). -/
def LineCount.cutCopy (c : LineCount) (cut : GateCount) : Nat :=
  match c.gate with
  | none => c.counted
  | some g =>
    if (cut - g).toNat ≤ c.cfg.jumpLimit then c.counted + (cut - g).toNat
    else if (g - cut).toNat ≤ c.cfg.jumpLimit then c.counted - (g - cut).toNat
    else c.counted

/-- A splice cut on a stand with web path `webPath` (R16, R173). -/
def Hall.spliceCut (n webPath : Nat) (cut : GateCount) (h : Hall) : Hall :=
  match h.count n with
  | some c =>
    let first := spliceFirst (c.cutCopy cut) (spliceDelay webPath c.cfg.cutoff) c.cfg.preMargin
    h.divert n first (some (first + c.cfg.spliceWindow)) .splice
  | none => h

/-- A web break that is not a repeat: the BREAK interval (R174). -/
def Hall.openBreak (n : Nat) (h : Hall) : Hall :=
  match h.count n with
  | some c => h.divert n (c.finalized + 1) none .brk
  | none => h

/-- The OPEN interval of a line takes an end at `e` when its cause is `cause`, and GATE END removes its entry where it then covers
nothing (log 19); a BREAK interval follows it while the line is BROKEN (R174, R175, R176), also where a LINE STATUS alone
reported the break, by the model's choice (log 18). -/
def Hall.closeOpen (n e : Nat) (cause : Cause) (h : Hall) : Hall :=
  match h.count n with
  | some c =>
    if c.openCause = some cause then
      let h := (h.sendAll n ((c.emptied e).map fun k => .gateEnd k k)).modCount n fun c => c.endOpen e
      let h := if h.broken n then h.offer n e none .brk else h
      (h.schedule n).easeStart n
    else h
  | none => h

/-! ### Count intake (R165, R168) -/

/-- Take the gate count of a LINE STATUS: count and finalize, or re-base (R165, R168). -/
def Hall.takeCount (n : Nat) (new : GateCount) (h : Hall) : Hall :=
  match h.count n with
  | none => h
  | some c =>
    match c.gate with
    | none => h.modCount n fun c => { c with gate := some new }
    | some g =>
      let delta := (new - g).toNat
      if delta ≤ c.cfg.jumpLimit then
        ((h.modCount n fun c => { c with counted := satAdd Config.max48 c.counted delta, gate := some new }).finalizeDepth n).lower
          ⟨.countJump, .line n⟩
      else
        (((h.modCount n fun c => { c with gate := some new }).unsend n).forget n).raise ⟨.countJump, .line n⟩

/-- Renumber the list when the counters are cleared at counted total `c` (R179). -/
def renumber (c : Nat) (iv : Interval) : Interval :=
  { iv with first := max 1 (iv.first - c), stop := iv.stop.map (· - c), sent := iv.sent && decide (c < iv.first) }

/-- Clear a line's counters, its provisional copies being final (R179). -/
def LineCount.cleared (c : LineCount) : LineCount :=
  { c with counted := 0, finalized := 0, good := 0, waste := ⟨0, 0, 0, 0⟩
           intervals := (retire c.counted c.intervals).map (renumber c.counted) }

end Sys2Proof.Machine
end

