-- ==== Sys2Proof/Machine/Splice.lean ====
section
/-! DEFINITION. Splicing (7.2 to 7.5): the lock, splice and starvation tests, the phases and their outcomes. -/

namespace Sys2Proof.Machine

/-! ### The tests (R148, R150, R159) -/

/-- Whether the running reel of a stand is tracked at or below a diameter. -/
def Hall.downTo (h : Hall) (st : StandAddr) (limit : Stand → Reel → Nat) : Bool :=
  match h.stand st, h.runningReel st with
  | some s, some r => decide (h.tracked r ≤ limit s r)
  | _, _ => false

/-- Effective splice diameter of a stand for a reel (R9). -/
def Stand.ds (s : Stand) (r : Reel) : Nat := effDs s.cfg.ds r.core

/-- Effective minimum diameter of a stand for a reel (R9). -/
def Stand.dmin (s : Stand) (r : Reel) : Nat := effDmin s.cfg.dmin r.core

/-- The mode of a stand; a stand not configured has the mode of one out of service. -/
def Hall.mode (h : Hall) (st : StandAddr) : Mode := ((h.stand st).map (·.mode)).getD .outOfService

/-- The lock test (R148). -/
def Hall.lockTest (st : StandAddr) (h : Hall) : Hall :=
  if h.mode st = .normal ∧ h.downTo st (fun s r => s.ds r + s.cfg.lockMargin) then h.setMode st .locked else h

/-- Whether a SPLICE is to be commanded: the seven conditions of R150. -/
def Hall.spliceDue (h : Hall) (st : StandAddr) : Bool :=
  match h.stand st, h.line st.line with
  | some s, some l =>
    decide (s.mode = .locked ∨ s.mode = .starved) && h.downTo st Stand.ds &&
      s.standbyArm.any (fun a => decide (a.state = .prepared)) &&
      s.handover.isNone && decide (s.armA.state ≠ .expired ∧ s.armB.state ≠ .expired) &&
      decide (s.attempts < 2) && s.retry.isNone && decide (l.run ≠ .broken) && !h.linkDown st.line &&
      (!h.downTo st Stand.dmin || decide (l.speed = 0))
  | _, _ => false

/-- The record a SPLICE command makes (R146). -/
def Hall.newSplice (h : Hall) (st : StandAddr) (s : Stand) (arm : ArmName) : SpliceRecord where
  st := st
  time := h.clock
  fromReel := (s.arm arm).reel
  toReel := (s.arm arm.other).reel
  fromArm := arm
  toArm := arm.other
  diameter := ((h.runningReel st).map h.tracked).getD 0
  accel := .notReached
  paste := .notReached
  cut := .notReached
  gate := none
  outcome := none

/-- Command the splice (R150). -/
def Hall.commandSplice (st : StandAddr) (h : Hall) : Hall :=
  match h.stand st with
  | some s =>
    match s.running with
    | some arm =>
      let record := h.newSplice st s arm
      let h := h.sendLine st.line (.splice st arm arm.other)
      let h := h.modStand st fun s => { s with lastSplice := some record, attempts := s.attempts + 1, mode := .splicing }
      (h.oweCeiling st.line).lower (standFault .standStarved st)
    | none => h
  | none => h

/-- The starvation test (R159). -/
def Hall.starveTest (st : StandAddr) (h : Hall) : Hall :=
  if (h.stand st).any (fun s => s.inService && decide (s.mode = .normal ∨ s.mode = .locked)) && h.downTo st Stand.dmin then
    (h.setMode st .starved).raise (standFault .standStarved st)
  else h

/-- The splice test, with the starvation test made with it (R150, R159). -/
def Hall.spliceTest (st : StandAddr) (h : Hall) : Hall :=
  (if h.spliceDue st then h.commandSplice st else h).starveTest st

/-- The tests after an accepted sample or an estimate step: lock, splice, starvation, the ceiling and the call (R121,
R122, R123, R150). -/
def Hall.diameterTests (st : StandAddr) (h : Hall) : Hall :=
  ((((h.lockTest st).spliceTest st).oweCeiling st.line).push (.callTest st))

/-! ### The end of a splice (R146, R148, R151) -/

/-- The open splice record of a SPLICING stand. -/
def Hall.openSplice (h : Hall) (st : StandAddr) : Option SpliceRecord :=
  (h.stand st).bind fun s => if s.mode = .splicing then s.lastSplice.filter fun r => r.outcome.isNone else none

/-- Set the outcome of a stand's splice and queue Splice End (R146). -/
def Hall.setOutcome (st : StandAddr) (r : SpliceRecord) (o : SpliceOutcome) (h : Hall) : Hall :=
  let r := { r with outcome := some o }
  (h.modStand st fun s => { s with lastSplice := some r }).notify (.spliceEnd r)

/-- A stand leaves SPLICING for NORMAL, and the lock and starvation tests follow (R148). -/
def Hall.afterSplice (st : StandAddr) (h : Hall) : Hall := ((h.setMode st .normal).lockTest st).starveTest st

/-- ACCEL FAIL (R151, R153). -/
def Hall.spliceAborted (st : StandAddr) (r : SpliceRecord) (h : Hall) : Hall :=
  let h := h.setOutcome st r .aborted
  let h := h.pulse (standFault .spliceAborted st)
  let h := h.modStand st fun s => if s.attempts < 2 then { s with retry := some (h.timebase + Config.retryTicks) } else s
  h.afterSplice st

/-- PASTE FAIL (R154). A standby arm that STAND STATUS has emptied meanwhile becomes LOADED without a reel, by the model's
choice (log 83). -/
def Hall.spliceFailed (st : StandAddr) (r : SpliceRecord) (h : Hall) : Hall :=
  let h := h.setOutcome st r .failed
  let h := (h.loadArm st r.toArm).requestPrep st r.toArm h.clock
  (h.pulse (standFault .spliceFailed st)).afterSplice st

/-- The new reel is in the web: the arms take their new parts, and the SPLICE interval is made (R155 steps 1 to 3, R156), also
where STAND STATUS has emptied an arm meanwhile, by the model's choice (log 83). -/
def Hall.webMoves (st : StandAddr) (r : SpliceRecord) (gate : GateCount) (h : Hall) : Hall :=
  let h := h.runArm st r.toArm
  let h := h.changeArm st r.fromArm fun a => { a with state := .expired }
  h.spliceCut st.line (((h.stand st).map (·.cfg.webPath)).getD 0) gate

/-- CUT OK (R155). -/
def Hall.spliceDone (st : StandAddr) (r : SpliceRecord) (gate : GateCount) (h : Hall) : Hall :=
  let h := h.setOutcome st { r with gate := some gate } .done
  let h := (h.webMoves st r gate).bookSplice st.line
  (h.modStand st fun s => { s with attempts := 0 }).afterSplice st

/-- CUT FAIL (R156). -/
def Hall.cutFailed (st : StandAddr) (r : SpliceRecord) (gate : GateCount) (h : Hall) : Hall :=
  let h := h.setOutcome st { r with gate := some gate } .failed
  let h := h.webMoves st r gate
  let h := (h.modStand st fun s => { s with attempts := 0 }).afterSplice st
  h.raise (standFault .cutFailed st)

/-- A splice broken by a web break or the loss of the line's link: the stand is UNKNOWN (R157). -/
def Hall.breakSplice (h : Hall) (st : StandAddr) : Hall :=
  match h.openSplice st with
  | some r =>
    let h := h.setOutcome st r .broken
    let h := h.modStand st fun s =>
      { s with retry := none, attempts := 0, armA := { s.armA with known := false }, armB := { s.armB with known := false } }
    h.setMode st .unknown
  | none => h

/-- Break the splice of every SPLICING stand of a line (R157). -/
def Hall.breakSplices (n : Nat) (h : Hall) : Hall := (h.standsOf n).foldl Hall.breakSplice h

/-! ### Butts (R158) -/

/-- EJECTED, or an EXPIRED arm shown empty: the ejection is asked, the arm becomes EMPTY, the stub is booked and a
CUT_FAILED entry becomes inactive (R158). -/
def Hall.eject (st : StandAddr) (arm : ArmName) (h : Hall) : Hall :=
  match (h.stand st).bind fun s => (s.arm arm).reel with
  | some ref =>
    let r := h.reel ref
    let (h, stub) := h.askEject st arm ref
    let h := h.emptyArm st arm
    let h := match stub, r with
      | some metres, some r => h.bookWhite st.line metres r.width r.grade
      | _, _ => h
    h.lower (standFault .cutFailed st)
  | none => (h.emptyArm st arm).lower (standFault .cutFailed st)

end Sys2Proof.Machine
end

