-- ==== Sys2Proof/Machine/Settle.lean ====
section
/-! DEFINITION. The consequences blocks owe each other within one event, made first in, first out (log 4, log 5). -/

namespace Sys2Proof.Machine

/-- The requesters waiting for a mission slot, in the order of R95, once a mission has left the table. -/
def Hall.serveSlots (h : Hall) : Hall :=
  let h := (vehicleNumbers.foldl Hall.returnIfOwed h).serveChargers
  h.raisedRetry (h.callsIn .raised)

/-- Make one consequence. -/
def Hall.runJob (j : Job) (h : Hall) : Hall :=
  match j with
  | .bayWalk => h.walkBays
  | .missionLeft => h.serveSlots
  | .chargersFree => h.serveChargers
  | .arbiter => h.runArbiter
  | .starvedRetry grade width => h.starvedRetry grade width
  | .gotDrop slot => h.gotDrop slot
  | .loadReady slot => h.openLoad slot
  | .unloadReady slot => h.openUnload slot
  | .chargeNeed v => h.chargeNeed v
  | .reRaise st => h.reRaise st
  | .callTest st => h.callTest st
  | .spliceTest st => h.spliceTest st
  | .requestLoad st => h.requestLoad st
  | .retryRoutes => h.retryRoutes

/-- Make the consequences owed, at most `fuel` of them (log 5). -/
def Hall.settle : Nat → Hall → Hall
  | 0, h => h
  | fuel + 1, h =>
    match h.agenda with
    | [] => h
    | j :: rest => (({ h with agenda := rest } : Hall).runJob j).settle fuel

/-- End an event: make its consequences, then form the ceilings owed (log 4). -/
def Hall.finish (h : Hall) : Hall := (h.settle Config.cascadeBound).formCeilings

end Sys2Proof.Machine
end

