-- ==== Sys2Proof/Machine/Operands.lean ====
section
/-! DEFINITION. How the operands of commands are taken: request bodies, replies, frame checks and field ranges. -/

namespace Sys2Proof.Machine

/-! ### Host requests (R209, R210) -/

/-- Number of body bytes of a request kind, by R209 (log 34). -/
def bodyLength : Nat → Nat
  | 0x01 => 26 | 0x02 => 17 | 0x03 => 11 | 0x04 => 14 | 0x05 => 11 | 0x06 => 0 | 0x07 => 12 | 0x08 => 0
  | 0x09 => 4 | 0x0A => 3 | 0x0B => 2 | 0x0C => 0 | 0x0D => 7 | 0x0E => 1 | 0x0F => 0 | 0x10 => 2
  | 0x11 => 1 | 0x12 => 1 | 0x13 => 1 | 0x14 => 21 | 0x15 => 1 | 0x16 => 1 | 0x17 => 0 | 0x18 => 0
  | 0x19 => 23 | 0x1A => 1 | 0x1B => 0 | 0x1C => 21 | 0x1D => 25 | 0x1E => 2 | 0x1F => 2 | 0x20 => 2
  | 0x21 => 16 | 0x22 => 2 | 0x23 => 1 | 0x24 => 3 | 0x25 => 1 | 0x26 => 22 | 0x27 => 1 | 0x28 => 1
  | 0x29 => 7 | 0x2A => 3 | 0x2B => 3 | 0x2C => 0 | 0x2D => 1 | 0x2E => 1 | 0x2F => 4 | 0x30 => 0
  | 0x31 => 5 | 0x32 => 4 | 0x33 => 0 | 0x34 => 4 | 0x35 => 1 | 0x36 => 0 | 0x37 => 0 | 0x38 => 1
  | _ => 0

/-- What a block answers to a request: its state afterwards, the status and the content of the reply. -/
structure Answer where
  hall : Hall
  status : Status
  content : Content
deriving DecidableEq, Repr

/-- Refuse a request with a status; nothing changes. -/
def Hall.refuse (h : Hall) (x : Status) : Answer := ⟨h, x, .none⟩

/-- Accept a request and end its event (log 4). -/
def Hall.accept (h : Hall) (c : Content) : Answer := ⟨h.finish, .ok, c⟩

/-- Answer a query: nothing changes. -/
def Hall.tell (h : Hall) (c : Content) : Answer := ⟨h, .ok, c⟩

/-- Place a reply of a request kind for the transmitter (R210). -/
def State.reply (q : Req) (kind : Nat) (x : Status) (c : Content) (s : State) : State :=
  { s with host := { s.host with replies := s.host.replies ++ [⟨q.tag, kind + 128, x, c⟩] } }

/-- Take a request: the body length first, the codes of its fields, then the owning block (R210, log 11). -/
def State.request (q : Req) (kind : Nat) (s : State) (block : Hall → Answer) : State :=
  if q.len ≠ bodyLength kind then s.reply q kind .badFormat .none
  else if !q.listed then s.reply q kind .range .none
  else ({ s with hall := (block s.hall).hall } : State).reply q kind (block s.hall).status (block s.hall).content

/-- Whether a Save Configuration is in progress (R218). -/
def State.saving (s : State) : Bool := s.store.save.isSome

/-! ### Field ranges -/

/-- Whether a number lies in a range. -/
def inRange (lo hi n : Nat) : Bool := decide (lo ≤ n) && decide (n ≤ hi)

/-- Whether an optional number, when given, lies in a range. -/
def optIn (lo hi : Nat) (n : Option Nat) : Bool := n.all (inRange lo hi)

/-- Whether an optional number, when given, is a multiple of a step. -/
def optStep (step : Nat) (n : Option Nat) : Bool := n.all fun x => decide (x % step = 0)

/-- Whether a stand address is one of 1.1 to 4.8. -/
def standInRange (st : StandAddr) : Bool := inRange 1 4 st.line && inRange 1 8 st.stand

/-- Whether a bay address is one of 1.1 to 16.48. -/
def bayInRange (b : BayAddr) : Bool := inRange 1 16 b.aisle && inRange 1 48 b.pos

/-! ### Frames of the partner links (R204, R205, R208, R214) -/

/-- Body lengths of the inward line frames (11.4). -/
def lineStatusLength : Nat := 8
def diameterLength : Nat := 5
def armEventLength : Nat := 16
def splicePhaseLength : Nat := 8
def webBreakLength : Nat := 1
def consoleLength : Nat := 3
def standStatusLength : Nat := 26
def vehicleReportLength : Nat := 19

/-- The line's link has returned: the entry, the panel, the LOAD REQUESTs, the ceiling and the hold state (R142, R163,
R202, R204). The next estimate step has an interval of 0 (R7). -/
def Hall.linkReturns (n : Nat) (h : Hall) : Hall :=
  let h := h.lower ⟨.lineLinkDown, .line n⟩
  let h := h.modLine n fun l => { l with lastStatus := none, oweCeiling := true, oweHold := true }
  let h := h.sendPanel n
  (h.standsOf n).foldl (fun h st => match h.handover st with
    | some x => if x.kind = .load ∧ x.phase = .asked then h.sendLine n (.loadRequest st x.arm x.reel.id) else h
    | none => h) h

/-- Send a line the ceiling and the hold state it is owed (R163, R202, log 26). -/
def Hall.greet (n : Nat) (h : Hall) : Hall :=
  match h.line n with
  | some l =>
    let h := h.modLine n fun l => { l with oweCeiling := false, oweHold := false }
    let h := if l.oweCeiling then h.sendCeiling n else h
    if l.oweHold then h.resendHold n else h
  | none => h

/-- A frame of line `n` has passed the envelope checks: its silence timer starts again, a link that was down has returned,
and the line is sent what it is owed (R204). -/
def Hall.lineHeard (n : Nat) (h : Hall) : Hall :=
  match h.line n with
  | some _ =>
    let h := h.modLine n fun l => { l with silence := some (h.timebase + Config.silenceTicks) }
    (if h.linkDown n then h.linkReturns n else h).greet n
  | none => h

/-- Take a frame of Line Link `f.link` (R214): the link is heard, a body fault counts one link error, and else the block
takes the message and the event ends. -/
def Hall.lineFrame (f : Frame) (length : Nat) (ok : Bool) (take : Hall → Hall) (h : Hall) : Hall :=
  let h := h.lineHeard f.link
  if decide (f.len = length) && f.listed && ok then (take h).finish else (h.linkError (.line f.link)).finish

/-- Whether a message's stand fits the layout and its line is that of the link (R214). -/
def frameFits (f : Frame) (st : StandAddr) : Bool := decide (st.line = f.link) && inRange 1 8 st.stand

/-- A frame of the gateway has passed the envelope checks: the silence timer starts again while a vehicle is commissioned,
and an active FLEET_LINK_DOWN becomes inactive (R205). -/
def Hall.fleetHeard (h : Hall) : Hall :=
  let h := if h.vehicles.any fun p => p.2.commissioned then
    { h with fleetSilence := some (h.timebase + Config.silenceTicks) } else h
  h.lower ⟨.fleetLinkDown, .none⟩

end Sys2Proof.Machine
end

