-- ==== Sys2Proof/Machine/Reels.lean ====
section
/-! DEFINITION. Host requests on reels and grades (Chapter 2), kinds 01h to 08h. -/

namespace Sys2Proof.Machine

/-! ### Register Reel (R24, R25) -/

/-- The record of an accepted registration, before the mass check (2.1, R25). -/
def newReel (id : ReelId) (grade width d0 core mass dock arrival : Nat) (g : Grade) : Reel where
  id := id
  grade := grade
  width := width
  d0 := d0
  core := core
  mass := mass
  arrival := arrival
  earliest := satAdd Config.max32 arrival (g.hours * 3600)
  state := .atDock
  loc := .dock dock
  reason := none
  initial := lengthOf g.caliper core d0
  strip := 0
  consumed := 0
  remaining := lengthOf g.caliper core d0
  accepted := d0
  estimate := false
  isPartial := false
  stripped := false
  call := none
  refusals := 0

/-- Whether the mass check passes (R6). -/
def Hall.massPasses (h : Hall) (r : Reel) : Bool :=
  decide (massDeviation (expectedMass r.initial r.width (h.gradeOf r).basis) r.mass ≤ h.massTolerance)

/-- An accepted registration in slot `i` (R25). -/
def Hall.registerReel (i : Nat) (r : Reel) (h : Hall) : Answer :=
  if h.massPasses r then
    match (h.addReel i r).makeIntake ⟨i, r.id⟩ with
    | (h', some _) => h'.accept (.number i)
    | (_, none) => h.refuse .full
  else (h.addReel i (r.quarantine .badWeight)).accept (.number i)

/-- REGISTER_REEL (R24). -/
def Hall.takeRegister (id : ReelId) (grade width d0 : Nat) (core : Option Nat) (mass dock : Nat) (arrival : Option Nat)
    (h : Hall) : Answer :=
  if !idWellFormed id then h.refuse .badId
  else if (h.reelById id).isSome then h.refuse .duplicate
  else match lowestFree h.reels Config.reelSlots with
    | none => h.refuse .full
    | some i =>
      match (if grade ≤ 15 then tget h.grades grade else none) with
      | none => h.refuse .notFound
      | some g =>
        if inRange 300 2400 width && inRange 200 1500 d0 && optIn 70 160 core && inRange 1 4000 mass && h.served (.dock dock) then
          h.registerReel i (newReel id grade width d0 (core.getD g.core) mass dock (arrival.getD h.clock) g)
        else h.refuse .range

/-- REGISTER_REEL (R24, R25). -/
def execRegisterReel (q : Req) (id : ReelId) (grade width d0 : Nat) (core : Option Nat) (mass dock : Nat)
    (arrival : Option Nat) (s : State) : Host.Outcome State Fault Refusal :=
  .next (s.request q 0x01 fun h => h.takeRegister id grade width d0 core mass dock arrival)

/-! ### Set Grade (R22, R23) -/

/-- Whether a grade is in use: a record of it exists (R23). -/
def Hall.gradeInUse (h : Hall) (g : Nat) : Bool := h.reels.any fun p => decide (p.2.grade = g)

/-- The grade Set Grade gives (R22). -/
def newGrade (old : Option Grade) (name : List Byte) (caliper basis : Nat) (core hours threshold : Option Nat) : Grade where
  name := name
  caliper := caliper
  basis := basis
  core := core.getD ((old.map (·.core)).getD Config.gradeCore)
  hours := hours.getD ((old.map (·.hours)).getD Config.gradeHours)
  threshold := threshold.getD ((old.map (·.threshold)).getD Config.gradeThreshold)

/-- SET_GRADE (R22, R23). -/
def Hall.takeGrade (saving : Bool) (number : Nat) (name : List Byte) (caliper basis : Nat) (core hours threshold : Option Nat)
    (h : Hall) : Answer :=
  if !(decide (number ≤ 15) && inRange 30 250 caliper && inRange 20 120 basis && optIn 70 160 core && optIn 0 72 hours &&
      optIn 0 255 threshold) then h.refuse .range
  else if saving then h.refuse .busy
  else
    let old := tget h.grades number
    let new := newGrade old name caliper basis core hours threshold
    if h.gradeInUse number && old.any fun o => decide (o.caliper ≠ new.caliper ∨ o.basis ≠ new.basis ∨ o.core ≠ new.core) then
      h.refuse .state
    else (({ h with grades := tput h.grades number new } : Hall).stockWatch number).accept .none

/-- SET_GRADE (R22, R23). -/
def execSetGrade (q : Req) (number : Nat) (name : List Byte) (caliper basis : Nat) (core hours threshold : Option Nat)
    (s : State) : Host.Outcome State Fault Refusal :=
  .next (s.request q 0x02 fun h => h.takeGrade s.saving number name caliper basis core hours threshold)

/-! ### Release Quarantine, Declare Reel Location, Withdraw Reel, Purge Spent (R36 to R39) -/

/-- Whether a location is a bay. -/
def Location.isBay : Location → Bool
  | .bay _ => true
  | _ => false

/-- RELEASE_QUARANTINE (R36). -/
def Hall.takeRelease (id : ReelId) (h : Hall) : Answer :=
  match h.reelById id with
  | none => h.refuse .notFound
  | some (i, r) =>
    if r.state = .quarantined ∧ r.loc.isBay then
      let r' := { r with reason := none, state := r.restState h.clock }
      ((h.putReel i r').retryIfStored r r').accept .none
    else h.refuse .state

/-- RELEASE_QUARANTINE (R36). -/
def execReleaseQuarantine (q : Req) (id : ReelId) (s : State) : Host.Outcome State Fault Refusal :=
  .next (s.request q 0x03 fun h => h.takeRelease id)

/-- Whether the place of Declare Reel Location exists (R37, check 2). -/
def Hall.placeExists (h : Hall) : DeclPlace → Bool
  | .bay b => bayInRange b && (h.bay b).isSome
  | .dock n => h.served (.dock n)
  | .nowhere => true

/-- Whether a reel's state bars a declaration (R37, check 3). -/
def Hall.barsDeclare (h : Hall) (ref : ReelRef) (r : Reel) : Bool :=
  decide (r.state = .onArm ∨ r.state = .inTransit ∨ r.state = .allocated ∨ r.state = .spent) || r.call.isSome || h.named ref ||
    match r.loc with
    | .vehicle v => (h.vehicle v).mission.isSome
    | _ => false

/-- Whether the bay of a declaration is reserved or holds another reel (R37, check 4). -/
def Hall.bayTaken (h : Hall) (ref : ReelRef) : DeclPlace → Bool
  | .bay b => (h.bay b).any fun x => x.reserved.isSome || x.occupant.any fun o => decide (o ≠ ref)
  | _ => false

/-- DECLARE_REEL_LOCATION (R37). -/
def Hall.takeDeclare (id : ReelId) (place : DeclPlace) (h : Hall) : Answer :=
  match h.reelById id with
  | none => h.refuse .notFound
  | some (i, r) =>
    let ref : ReelRef := ⟨i, id⟩
    if !h.placeExists place then h.refuse .range
    else if h.barsDeclare ref r then h.refuse .state
    else if h.bayTaken ref place then h.refuse .state
    else match place with
      | .bay b => (h.custody ref r { r.quarantine .host with loc := .bay b }).accept .none
      | .nowhere => (h.custody ref r { r.quarantine .host with loc := .nowhere }).accept .none
      | .dock n =>
        if (lowestFree h.missions Config.missionSlots).isNone then h.refuse .full
        else ((h.custody ref r { r with state := .atDock, reason := none, loc := .dock n }).makeIntake ref).1.accept .none

/-- DECLARE_REEL_LOCATION (R37). -/
def execDeclareReelLocation (q : Req) (id : ReelId) (place : DeclPlace) (s : State) : Host.Outcome State Fault Refusal :=
  .next (s.request q 0x04 fun h => h.takeDeclare id place)

/-- The slot of the mission that names a reel. -/
def Hall.missionOf (h : Hall) (ref : ReelRef) : Option Nat :=
  (h.missions.find? fun p => decide (p.2.reel = some ref)).map (·.1)

/-- Cancel the mission that names a reel, for another block (R31, R38, R108). -/
def Hall.cancelMissionOf (ref : ReelRef) (h : Hall) : Hall :=
  match h.missionOf ref with
  | some slot => h.cancelBeforePick slot .cancelled
  | none => h

/-- WITHDRAW_REEL (R38). -/
def Hall.takeWithdraw (id : ReelId) (h : Hall) : Answer :=
  match h.reelById id with
  | none => h.refuse .notFound
  | some (i, r) =>
    if decide (r.state = .inTransit ∨ r.state = .allocated ∨ r.state = .onArm) || r.loc.isVehicle then h.refuse .state
    else ((h.cancelMissionOf ⟨i, id⟩).deleteReel i r).accept .none

/-- WITHDRAW_REEL (R38). -/
def execWithdrawReel (q : Req) (id : ReelId) (s : State) : Host.Outcome State Fault Refusal :=
  .next (s.request q 0x05 fun h => h.takeWithdraw id)

/-- PURGE_SPENT (R39). -/
def Hall.takePurge (h : Hall) : Answer :=
  let n := (h.reels.filter fun p => decide (p.2.state = .spent)).length
  let h := { h with reels := h.reels.filter fun p => decide (p.2.state ≠ ReelState.spent) }
  (if n = 0 then h else h.lower ⟨.registerFull, .none⟩).accept (.number n)

/-- PURGE_SPENT (R39). -/
def execPurgeSpent (q : Req) (s : State) : Host.Outcome State Fault Refusal := .next (s.request q 0x06 Hall.takePurge)

/-! ### Queries (R40) -/

/-- QUERY_REEL (R40). An index above the register's slots is answered NOT_FOUND as a free slot is, by the model's choice
(log 78). -/
def Hall.tellReel (sel : ReelSel) (h : Hall) : Answer :=
  match sel with
  | .byId id => match h.reelById id with
    | some (i, r) => h.tell (.reel i r)
    | none => h.refuse .notFound
  | .byIndex n => match tget h.reels n with
    | some r => h.tell (.reel n r)
    | none => h.refuse .notFound

/-- QUERY_REEL (R40). -/
def execQueryReel (q : Req) (sel : ReelSel) (s : State) : Host.Outcome State Fault Refusal :=
  .next (s.request q 0x07 fun h => h.tellReel sel)

/-- Number of reels of a grade in a state. -/
def Hall.countReels (h : Hall) (g : Nat) (x : ReelState) : Nat :=
  (h.reels.filter fun p => decide (p.2.grade = g ∧ p.2.state = x)).length

/-- QUERY_STOCK (R40). -/
def Hall.tellStock (h : Hall) : Answer :=
  h.tell (.stock (h.grades.map fun p =>
    ⟨p.1, p.2, h.issuable p.1, h.countReels p.1 .conditioning, h.countReels p.1 .allocated, h.countReels p.1 .quarantined,
      (tget h.watch p.1).getD ⟨false, false⟩⟩) h.reels.length)

/-- QUERY_STOCK (R40). -/
def execQueryStock (q : Req) (s : State) : Host.Outcome State Fault Refusal := .next (s.request q 0x08 Hall.tellStock)

end Sys2Proof.Machine
end

