-- ==== Sys2Proof/Machine/Timers.lean ====
section
/-! DEFINITION. The timers of the part and the events they make due (R89, R132, R151, R204, R205, R220, log 2, log 3). -/

namespace Sys2Proof.Machine

/-- Whether an expiry on the timebase has been reached. -/
def Hall.reached (h : Hall) (t : Option Nat) : Bool := t.any fun x => decide (x ≤ h.timebase)

/-- Whether a handover's wait limit is running: a LOAD until LOAD_OK, an UNLOAD until UNLOADED (R130, R135). -/
def Handover.waits (x : Handover) : Bool :=
  match x.kind with
  | .load => decide (x.phase ≠ .granted)
  | .unload => !x.armDone

/-- When a handover's wait limit runs out (R113, R130). -/
def Hall.waitEnd (h : Hall) (x : Handover) : Option Nat :=
  if x.waits then some (x.started + h.params.waitLimit * Config.ticksPerSecond) else none

/-- Whether 100 ticks have passed since the hall clock last advanced or was set (R220). -/
def Hall.secondDue (h : Hall) : Bool := decide (h.secondFrom + Config.ticksPerSecond ≤ h.timebase)

/-- The events due on the timebase, in the model's order (log 2). -/
def Hall.dueEvents (h : Hall) : List Instr :=
  ((h.vehicles.filter fun p => h.reached p.2.timer).map fun p => .supervisionTimerExpiry p.1) ++
  ((h.lines.filter fun p => h.reached p.2.silence).map fun p => .lineLinkDown p.1) ++
  (if h.reached h.fleetSilence then [.fleetLinkDown] else []) ++
  ((h.stands.filter fun p => h.reached (p.2.handover.bind h.waitEnd)).map fun p => .handoverWaitLimit (standOfKey p.1)) ++
  ((h.stands.filter fun p => h.reached p.2.retry).map fun p => .retryWaitExpiry (standOfKey p.1)) ++
  (if h.secondDue then [.hallClockAdvance] else [])

/-- One tick of the 10 ms timebase with no command waiting: the events it makes due are queued (log 2). -/
def State.tick (s : State) : State :=
  let h := { s.hall with timebase := s.hall.timebase + 1 }
  { s with hall := h, pending := h.dueEvents }

end Sys2Proof.Machine
end

