-- ==== Sys2Proof/Machine/Reports.lean ====
section
/-! DEFINITION. VEHICLE REPORT and the supervision of vehicles and of the fleet link (Chapter 5, R205). -/

namespace Sys2Proof.Machine

/-! ### Supervision (R88, R89, R91) -/

/-- Start a vehicle's supervision timer (R89). -/
def Hall.startTimer (v : Nat) (h : Hall) : Hall :=
  h.modVehicle v fun x => { x with timer := some (h.timebase + h.params.reportPeriod / Config.msPerTick) }

/-- A report of a seated vehicle as supervision takes it (R89, R91). -/
def Hall.heard (v : Nat) (h : Hall) : Hall :=
  let h := h.startTimer v
  if (h.vehicle v).supervision = .silent then
    (h.modVehicle v fun x => { x with supervision := .reporting, missed := 0 }).lower ⟨.vehicleSilent, .vehicle v⟩
  else h

/-- A report has seated vehicle `v` (R88, R111). -/
def Hall.seated (v charge : Nat) (h : Hall) : Hall :=
  let h := h.modVehicle v fun x => { x with charge := min 100 charge, supervision := .reporting, missed := 0, activity := .idle }
  let h := h.startTimer v
  let h := if h.allStop then h.stopVehicle v ⟨none, .hold⟩ else h.issue v .hold
  let h := match (h.vehicle v).mission with
    | some slot => h.resumeMission slot
    | none => h.returnIfOwed v
  (h.push (.chargeNeed v)).push .arbiter

/-! ### Position and request (R70, R86, R93) -/

/-- The route of the MOVE that governs a vehicle's requests: the current one, or the kept one during all-stop (R93,
log 13). -/
def Vehicle.moveRoute (x : Vehicle) : Option (List Nat) :=
  match x.underWay with
  | .move zones _ => some zones
  | _ => none

/-- The request of a report as the Fleet Controller passes it: the zone of the route after the furthest held one (R93). -/
def passedRequest (x : Vehicle) (ahead : List Nat) (front : Nat) (request : Option Nat) : Option Nat :=
  request.filter fun z => x.moveRoute.any fun zones =>
    match zones.findIdx? (· = (ahead.getLast?).getD front) with
    | some i => decide (zones[i + 1]? = some z)
    | none => false

/-- Set the progress index of the vehicle's route from its front zone (R66, R70); the ceiling follows (R161). -/
def Hall.progress (v : Nat) (h : Hall) : Hall :=
  let x := h.vehicle v
  match x.mission, x.front with
  | some slot, some f =>
    match h.mission slot with
    | some m =>
      match m.route with
      | some r =>
        if r.zones.contains f then
          (h.modMission slot fun m => { m with route := some { r with progress := placeIn r.zones f } }).oweCall m.call
        else h
      | none => h
    | none => h
  | _, _ => h

/-- A CHARGING vehicle without a mission that has left its charger becomes IDLE (R86). -/
def Hall.leftCharger (v : Nat) (before : Option Nat) (h : Hall) : Hall :=
  let x := h.vehicle v
  if decide (x.pursuit = .charging) && x.mission.isNone && decide (x.front ≠ before) then h.setActivity v .idle else h

/-- The position and the request of a seated vehicle's report (R51, R70, R93). -/
def Hall.takeReportPosition (r : VehicleReport) (h : Hall) : Hall :=
  let x := h.vehicle r.vehicle
  let request := passedRequest x (aheadAfter x.ahead r.front) r.front r.request
  ((h.takePosition r.vehicle r.front r.tail request).progress r.vehicle).leftCharger r.vehicle x.front

/-! ### Completions (R93, R100, R101, R134, R135) -/

/-- The location a pickup place stands for. -/
def Place.location : Place → Location
  | .dock n => .dock n
  | .bay b => .bay b
  | .arm st x => .arm st x
  | .charger _ | .park _ => .nowhere

/-- A pick failed: abort record, end of the mission, and the vehicle's next directive (R100, R105). -/
def Hall.pickFailed (v slot : Nat) (c : AbortCause) (next : DirKind) (h : Hall) : Hall :=
  let h := ((h.abort v c).endMission slot .aborted).direct v next
  if c = .idMismatch then h else h.setActivity v .idle

/-- A pick the Register refused: the mission waits anew, and the vehicle sets the reel down (R100). -/
def Hall.pickRefused (v slot : Nat) (m : Mission) (h : Hall) : Hall :=
  let h := h.modMission slot fun m => { m with state := .waiting, vehicle := none, route := none }
  let h := h.modVehicle v fun x => { x with mission := none }
  let h := match m.call with
    | some st => h.modCall st fun c => if c.state = CallState.dispatched then { c with state := .allocated } else c
    | none => h
  (h.direct v .placeHere).push .arbiter

/-- The completion of PICK (R100); `scan` is the ID scanned. -/
def Hall.pickDone (v : Nat) (scan : Option ReelId) (h : Hall) : Hall :=
  match (h.vehicle v).mission with
  | some slot =>
    match h.mission slot with
    | some m =>
      match m.reel, m.pickup with
      | some ref, some p =>
        match scan with
        | none => ((h.askPickupEmpty ref p.location).1.pickFailed v slot .pickupEmpty .hold)
        | some id =>
          if id = ref.id then
            match h.askPick v ref (some p.location) with
            | (h, some _) => h.carry slot
            | (h, none) => h.pickRefused v slot m
          else (h.askIdMismatch ref p.location).1.pickFailed v slot .idMismatch .placeHere
      | _, _ => h
    | none => h
  | none => h

/-- The completion of PLACE in a bay (R101). -/
def Hall.placeDone (v : Nat) (b : BayAddr) (h : Hall) : Hall :=
  match (h.vehicle v).mission with
  | some slot =>
    match (h.mission slot).bind (·.reel) with
    | some ref =>
      match h.askPlace v ref b with
      | (h, some _) => ((h.endMission slot .done).direct v .hold).afterEnd v .ret .idle
      | (h, none) => h.direct v .hold
    | none => h
  | none => h

/-- Give a vehicle the directive its mission calls for, or HOLD when it has none (R109). -/
def Hall.recall (v : Nat) (h : Hall) : Hall :=
  match (h.vehicle v).mission.bind fun n => (h.mission n).map fun m => (n, m) with
  | none => h.direct v .hold
  | some (slot, m) =>
    if h.aborted v then h.direct v .hold
    else match m.state with
      | .waiting => h.direct v .hold
      | .assigned => h.assign slot v
      | .carrying => h.carry slot
      | .handover =>
        match m.drop, h.handoverOf slot with
        | some (.bay b), none => if h.reelAboard m then h.direct v (.place b) else h.direct v .hold
        | some (.arm st arm), some (_, x) =>
          if x.phase = .granted ∧ !x.transferDone then h.direct v (.transfer st arm x.reel.id) else h.direct v .hold
        | _, _ => h.direct v .hold

/-- The completion of PLACE HERE: a set-down after a failed pick, or of a stray load (R100, R109). A vehicle without a mission then
takes the charge test of a mission's end, by the model's choice (R103, log 86). -/
def Hall.setDownDone (v : Nat) (h : Hall) : Hall :=
  let h := h.recall v
  if (h.vehicle v).mission.isSome then h
  else if (h.vehicle v).pursuit = .charging then h
  else h.afterEnd v .ret .idle

/-- Both halves of a load have been taken: the mission ends DONE (R134). -/
def Hall.loadFinished (x : Handover) (h : Hall) : Hall := (h.endMission x.mission .done).afterEnd x.vehicle .deliver .idle

/-- Both halves of an unload have been taken: the mission becomes CARRYING and travels to its drop (R135). -/
def Hall.unloadFinished (st : StandAddr) (x : Handover) (h : Hall) : Hall := (h.closeHandover st).carry x.mission

/-- The completion of TRANSFER (R134) or UNLOAD (R135): the vehicle's half of the handover. -/
def Hall.transferDone (v : Nat) (k : HandoverKind) (h : Hall) : Hall :=
  match (h.vehicle v).mission.bind h.handoverOf with
  | some (st, x) =>
    if x.kind = k then
      let h := h.modHandover st fun x => { x with transferDone := true }
      if x.armDone then (match k with
        | .load => (h.direct v .hold).loadFinished x
        | .unload => h.unloadFinished st x)
      else h.direct v .hold
    else h
  | none => h.direct v .hold

/-- Whether a completion is of a directive's kind (R93). -/
def completes : DirKind → Completion → Bool
  | .pick _ _, .pick | .place _, .place | .placeHere, .place | .transfer _ _ _, .transfer | .unload _ _ _, .unload => true
  | _, _ => false

/-- The directive a report's number stands for: the current one, or the kept one during all-stop (R93, R111). -/
def Vehicle.reported (x : Vehicle) (number : Byte) : Option DirKind :=
  if number = x.directive.number then some x.directive.kind
  else match x.kept with
    | some k => if k.number = some number then some k.kind else none
    | none => none

/-- Take the completion a report carries (R93). -/
def Hall.takeCompletion (r : VehicleReport) (c : Completion) (h : Hall) : Hall :=
  let v := r.vehicle
  match (h.vehicle v).reported r.directive with
  | some k =>
    if completes k c then
      match k with
      | .pick _ _ => h.pickDone v r.reel
      | .place b => h.placeDone v b
      | .placeHere => h.setDownDone v
      | .transfer _ _ _ => h.transferDone v .load
      | .unload _ _ _ => h.transferDone v .unload
      | _ => h
    else h
  | none => h

/-! ### Arrival (R93, R99, R101) -/

/-- Arrival at the drop (R101). -/
def Hall.arriveDrop (slot v : Nat) (m : Mission) (h : Hall) : Hall :=
  match m.drop with
  | some (.bay b) =>
    ((h.modMission slot fun m => { m with state := .handover }).setActivity v .handover).direct v (.place b)
  | some (.arm _ _) =>
    (((h.modMission slot fun m => { m with state := .handover }).setActivity v .handover).oweCall m.call).direct v .hold
      |>.push (.loadReady slot)
  | some (.charger n) => ((h.direct v (.charge n)).endMission slot .done).afterEnd v .charge .charging
  | some (.park _) => ((h.direct v .hold).endMission slot .done).afterEnd v .park .idle
  | some (.dock _) | none => h

/-- Whether a report shows the arrival at the end of the current MOVE (R93). -/
def Vehicle.arrived (x : Vehicle) (number : Byte) : Bool :=
  match x.directive.kind with
  | .move zones _ => decide (number = x.directive.number) && decide (zones.getLast? = x.front) && x.tail.isNone
  | _ => false

/-- Take an arrival (R99, R101). -/
def Hall.takeArrival (r : VehicleReport) (h : Hall) : Hall :=
  let v := r.vehicle
  if (h.vehicle v).arrived r.directive then
    match (h.vehicle v).mission.bind fun n => (h.mission n).map fun m => (n, m) with
    | some (slot, m) =>
      match m.state with
      | .assigned => h.arrivePickup slot v m
      | .carrying => h.arriveDrop slot v m
      | .waiting | .handover => h
    | none => h
  else h

/-! ### Stray loads and acknowledgement (R93, R109) -/

/-- Whether a vehicle stands in an UNLOAD handover (R109). -/
def Hall.unloading (h : Hall) (v : Nat) : Bool :=
  h.stands.any fun p => p.2.handover.any fun x => decide (x.kind = .unload ∧ x.vehicle = v)

/-- Whether PICK or PLACE HERE is the directive a vehicle is under. -/
def Vehicle.handling (x : Vehicle) : Bool :=
  match x.underWay with
  | .pick _ _ | .placeHere => true
  | _ => false

/-- The reel ID a message gives as "none": eleven bytes of 00h (11.4). -/
def noId : ReelId := List.replicate 11 0

/-- A reel by its reported ID; one not registered has no slot. -/
def Hall.refOf (h : Hall) (id : ReelId) : ReelRef := ⟨((h.reelById id).map (·.1)).getD Config.reelSlots, id⟩

/-- The stray load check (R109). -/
def Hall.strayCheck (r : VehicleReport) (h : Hall) : Hall :=
  let x := h.vehicle r.vehicle
  if r.onBoard && x.load.isNone && !x.handling && !h.unloading r.vehicle then
    ((h.askPick r.vehicle (h.refOf (r.reel.getD noId)) none).1).direct r.vehicle .placeHere
  else h

/-- Compare the report's number with the current directive's: send the directive again, or take the acknowledgement, at
which an owed withdrawal is made (R77, R93, log 14). -/
def Hall.compareNumber (r : VehicleReport) (h : Hall) : Hall :=
  let x := h.vehicle r.vehicle
  if r.directive ≠ x.directive.number then h.sendDirective r.vehicle x.directive
  else if x.withdraw && decide (x.directive.kind ≠ .stop ∧ x.supervision ≠ .lost) then
    (h.withdraw r.vehicle).refreshMove r.vehicle
  else h

/-- A report of a seated vehicle, in the order of R88. R88 does not place the arrival of R93: the model's choice is to take it
after the completion and before the stray load check (log 70). -/
def Hall.takeSeated (r : VehicleReport) (h : Hall) : Hall :=
  let v := r.vehicle
  let was := h.available v
  let h := (h.heard v).takeReportPosition r
  let h := h.modVehicle v fun x => { x with charge := min 100 r.charge }
  if (h.vehicle v).supervision = .lost then h.compareNumber r
  else
    let h := match r.completion with
      | some c => h.takeCompletion r c
      | none => h
    let h := ((h.takeArrival r).strayCheck r).compareNumber r
    let h := if (h.vehicle v).activity = .idle then h.push (.chargeNeed v) else h
    if h.available v && !was then h.push .arbiter else h

/-- A VEHICLE REPORT that passes the body checks (R88). -/
def Hall.takeReport (r : VehicleReport) (h : Hall) : Hall :=
  let x := h.vehicle r.vehicle
  if !x.commissioned then h.raise ⟨.vehicleUnknown, .vehicle r.vehicle⟩
  else if x.seated then h.takeSeated r
  else match h.seat r.vehicle r.front r.tail with
    | (h, true) => h.seated r.vehicle r.charge
    | (h, false) => h

/-- VEHICLE_REPORT (R88, R214). -/
def execVehicleReport (f : Frame) (r : VehicleReport) (s : State) : Host.Outcome State Fault Refusal :=
  let h := s.hall.fleetHeard
  let h := if decide (f.len = vehicleReportLength) && f.listed && inRange 1 24 r.vehicle then h.takeReport r
    else h.linkError .fleet
  .next { s with hall := h.finish }

/-! ### Expiries (R89, R90, R205) -/

/-- An expiry of a vehicle's supervision timer (R89, R90). -/
def Hall.supervisionExpiry (v : Nat) (h : Hall) : Hall :=
  let h := (h.startTimer v).modVehicle v fun x => { x with missed := satAdd Config.max8 x.missed 1 }
  let h := if (h.vehicle v).supervision = .reporting then
    (h.modVehicle v fun x => { x with supervision := .silent }).raise ⟨.vehicleSilent, .vehicle v⟩ else h
  if (h.vehicle v).supervision ≠ .lost ∧ h.params.lostCount ≤ (h.vehicle v).missed then h.loseVehicle v else h

/-- SUPERVISION_TIMER_EXPIRY (R89, R90), when the timer has run out (log 3). -/
def execSupervisionTimerExpiry (v : Nat) (s : State) : Host.Outcome State Fault Refusal :=
  .next (if s.hall.reached (s.hall.vehicle v).timer then { s with hall := (s.hall.supervisionExpiry v).finish } else s)

/-- FLEET_LINK_DOWN (R205), when the silence timer has run out (log 3). -/
def execFleetLinkDown (s : State) : Host.Outcome State Fault Refusal :=
  .next (if s.hall.reached s.hall.fleetSilence then
    { s with hall := (({ s.hall with fleetSilence := none } : Hall).raise ⟨.fleetLinkDown, .none⟩).finish } else s)

end Sys2Proof.Machine
end

