-- ==== Sys2Proof/Machine/Keeping.lean ====
section
/-! DEFINITION. Keeping the arms true (6.6): loads, adoptions, arm mismatches, roles, and a stand's service. -/

namespace Sys2Proof.Machine

/-! ### Loads (R129, R134) -/

/-- Clear the arm half of the handover: ARM LOADED of its reel has been taken, and the load ends when both halves have
been (R134). -/
def Hall.loadTaken (st : StandAddr) (x : Handover) (h : Hall) : Hall :=
  let h := match h.askLoad st x.arm x.vehicle x.reel with
    | (h, some _) => h.loaded st x.arm x.reel
    | (h, none) => (h.mismatch st).emptyArm st x.arm
  let h := h.modHandover st fun x => { x with armDone := true }
  if x.transferDone then h.loadFinished x else h

/-- Whether ARM LOADED on an arm is the reel of a lost vehicle (R129). -/
def Hall.lostReel (h : Hall) (st : StandAddr) (arm : ArmName) (id : ReelId) : Option (Nat × ReelRef) :=
  match h.stand st, h.reelById id with
  | some s, some (i, r) =>
    if s.standby = some arm ∧ (s.arm arm).state = .empty ∧ r.state = .quarantined ∧ r.reason = some .vehicleLost then
      match r.loc with
      | .vehicle v => some (v, ⟨i, id⟩)
      | _ => none
    else none
  | _, _ => none

/-- Whether a stand's LOAD handover awaits this reel on this arm (R134, R140). -/
def Stand.awaits (s : Stand) (arm : ArmName) (id : ReelId) : Option Handover :=
  if (s.arm arm).state = .loading then
    s.handover.filter fun x => decide (x.kind = .load ∧ x.arm = arm ∧ x.reel.id = id ∧ x.armDone = false)
  else none

/-- ARM LOADED with an ID read (R129, R134, R140). -/
def Hall.takeLoaded (st : StandAddr) (arm : ArmName) (id : ReelId) (h : Hall) : Hall :=
  match h.stand st with
  | some s =>
    match s.awaits arm id with
    | some x => h.loadTaken st x
    | none =>
      match h.lostReel st arm id with
      | some (v, ref) =>
        match h.askLoad st arm v ref with
        | (h, some _) => h.loaded st arm ref
        | (h, none) => h.mismatch st
      | none => h.mismatch st
  | none => h

/-! ### Adoption and arm mismatch (R31, R33, R139) -/

/-- The arm of an adopted reel takes its state: LOADED, or that of the role taken with it; the stand's call ends (R116,
R126, R139). -/
def Hall.adopted (st : StandAddr) (arm : ArmName) (ref : ReelRef) (role : Option Role) (h : Hall) : Hall :=
  match role with
  | some .running => (h.endCall st .loaded (some ref)).runArm st arm
  | some .prepared => ((h.setArmState st arm .prepared).endCall st .loaded (some ref)).push (.spliceTest st)
  | some .expired => (h.setArmState st arm .expired).endCall st .loaded (some ref)
  | some .standby | none => h.loaded st arm ref

/-- Adopt a registered reel on an EMPTY arm; the answer is false when the Register refuses (R31, R139). -/
def Hall.adopt (st : StandAddr) (arm : ArmName) (ref : ReelRef) (role : Option Role) (h : Hall) : Hall × Bool :=
  match h.askAdopt st arm ref with
  | (h, some _) => ((h.cancelMissionOf ref).adopted st arm ref role, true)
  | (h, none) => (h, false)

/-- The mission that is to unload a reel from an arm; an older one from the same arm names another reel (R95, R135). -/
def Hall.unloadMission (h : Hall) (st : StandAddr) (arm : ArmName) (ref : ReelRef) : Option Nat :=
  (h.missions.find? fun p => decide (p.2.pickup = some (.arm st arm) ∧ p.2.reel = some ref)).map (·.1)

/-- Cancel the RETURN mission that is to unload a reel from an arm, before its pick (R139). -/
def Hall.cancelUnload (st : StandAddr) (arm : ArmName) (ref : ReelRef) (h : Hall) : Hall :=
  match h.unloadMission st arm ref with
  | some slot => h.cancelBeforePick slot .cancelled
  | none => h

/-- A stand has lost its running arm by a mismatch: LOCKED and STARVED become NORMAL (R148, R159). -/
def Hall.lostRunning (st : StandAddr) (h : Hall) : Hall :=
  if h.mode st = .locked ∨ h.mode st = .starved then (h.setMode st .normal).lower (standFault .standStarved st) else h

/-- Arm mismatch: the recorded reel leaves the arm (R33, R139). The arm becomes EMPTY whatever the Register answers
(log 23). -/
def Hall.armMismatch (st : StandAddr) (arm : ArmName) (ref : ReelRef) (h : Hall) : Hall :=
  let was := h.armState st arm
  let r := h.reel ref
  let (h, metres) := h.askArmMismatch st arm ref
  let h := h.emptyArm st arm
  let h := match metres, r with
    | some m, some r => h.bookPrinted st.line m r.width r.grade
    | _, _ => h
  let h := (h.mismatch st).endPrep st
  match was with
  | .running => h.lostRunning st
  | .unloading => h.cancelUnload st arm ref
  | .expired => h.lower (standFault .cutFailed st)
  | .empty | .loading | .loaded | .preparing | .prepared => h

/-- The occupancy rows for an EMPTY arm (R139). -/
def Hall.emptyShows (st : StandAddr) (arm : ArmName) (reading : Option ReelId) (role : Option Role) (h : Hall) : Hall :=
  match reading with
  | none => h
  | some id =>
    match h.reelById id with
    | some (i, _) => match h.adopt st arm ⟨i, id⟩ role with
      | (h, true) => h
      | (h, false) => h.mismatch st
    | none => h.mismatch st

/-- A STAND STATUS or Declare Arm finds an arm that holds no reel, though a splice has made it LOADED, RUNNING or EXPIRED: it becomes EMPTY, and
an EXPIRED one is taken as EJECTED (R139, R158, log 83). -/
def Hall.vacate (st : StandAddr) (arm : ArmName) (h : Hall) : Hall :=
  match h.armState st arm with
  | .empty | .loading => h
  | .expired => h.eject st arm
  | .running => ((h.emptyArm st arm).endPrep st).lostRunning st
  | .loaded | .preparing | .prepared | .unloading => (h.emptyArm st arm).endPrep st

/-- Take the occupancy of an arm (R139); `role` is given when roles are taken too. -/
def Hall.takeOccupancy (st : StandAddr) (arm : ArmName) (reading : Option ReelId) (role : Option Role) (h : Hall) : Hall :=
  match h.stand st with
  | none => h
  | some s =>
    match (s.arm arm).reel with
    | some ref =>
      if reading = some ref.id then h
      else if reading = none ∧ (s.arm arm).state = .expired then h.eject st arm
      else (h.armMismatch st arm ref).emptyShows st arm reading role
    | none =>
      if (s.arm arm).state = .loading then
        match reading with
        | none => h
        | some id => match s.awaits arm id with
          | some x => h.loadTaken st x
          | none => h.mismatch st
      else (h.vacate st arm).emptyShows st arm reading role

/-! ### Roles (R139, R157) -/

/-- An arm holding a reel takes the state of its role (R139). The unload of an UNLOADING arm ends with its mission first
(log 21). -/
def Hall.takeRole (st : StandAddr) (arm : ArmName) (role : Role) (h : Hall) : Hall :=
  match (h.stand st).map fun s => s.arm arm with
  | some a =>
    match a.reel with
    | none => h
    | some ref =>
      let h := if a.state = .unloading then h.cancelUnload st arm ref else h
      match role with
      | .running => if h.armState st arm = .running then h else h.runArm st arm
      | .prepared => if h.armState st arm = .prepared then h else (h.setArmState st arm .prepared).push (.spliceTest st)
      | .expired => if h.armState st arm = .expired then h else h.setArmState st arm .expired
      | .standby => if h.armState st arm = .loaded then h else (h.loadArm st arm).requestPrep st arm h.clock
  | none => h

/-- Whether an arm of a stand waits to be prepared. -/
def Stand.unprepared (s : Stand) : Bool :=
  [s.armA, s.armB].any fun a => decide (a.state = .loaded ∨ a.state = .preparing)

/-- The preparation request of a stand ends when no arm of it waits to be prepared any more (R137). -/
def Hall.trimPrep (st : StandAddr) (h : Hall) : Hall :=
  if (h.stand st).any Stand.unprepared then h else h.endPrep st

/-- Both arms become known. -/
def Hall.knowArms (st : StandAddr) (h : Hall) : Hall :=
  h.modStand st fun s => { s with armA := { s.armA with known := true }, armB := { s.armB with known := true } }

/-- Take the roles of both arms (R139): two arms RUNNING are taken as arm A RUNNING and arm B LOADED. -/
def Hall.takeRoles (st : StandAddr) (a b : ArmReading) (h : Hall) : Hall :=
  let both := decide (a.role = .running ∧ b.role = .running) && a.reel.isSome && b.reel.isSome
  let h := (h.takeRole st .a a.role).takeRole st .b (if both then .standby else b.role)
  ((if both then h.mismatch st else h).trimPrep st).knowArms st

/-- What follows the taking of roles for the mode: UNKNOWN becomes NORMAL, and LOCKED and STARVED do when the running arm
has changed; then the lock test, and on a new running reel the starvation test (R139, R148, R157). -/
def Hall.rolesTaken (st : StandAddr) (before : Option ArmName) (h : Hall) : Hall :=
  match h.stand st with
  | some s =>
    let h := match s.mode with
      | .unknown => h.setMode st .normal
      | .locked | .starved =>
        if s.running = before then h else (h.setMode st .normal).lower (standFault .standStarved st)
      | .outOfService | .normal | .splicing => h
    let h := h.lockTest st
    if s.mode = .unknown ∨ s.running = before then h else h.starveTest st
  | none => h

/-- Whether a reported role agrees with an arm's record (R139). R139 gives PREPARING and UNLOADING no role: the model's choice
is STANDBY for the one, and STANDBY or PREPARED for the other (log 84). -/
def Arm.agrees (a : Arm) (role : Role) : Bool :=
  match a.state, role with
  | .empty, _ | .loading, _ => true
  | .running, .running | .prepared, .prepared | .expired, .expired => true
  | .loaded, .standby | .preparing, .standby | .unloading, .standby | .unloading, .prepared => true
  | _, _ => false

/-- A role that differs from the record raises ARM_MISMATCH and changes nothing (R139). -/
def Hall.compareRole (st : StandAddr) (arm : ArmName) (x : ArmReading) (h : Hall) : Hall :=
  if x.reel.isNone || (h.stand st).all fun s => (s.arm arm).agrees x.role then h else h.mismatch st

/-- A STAND STATUS of a configured stand (R139, R157). -/
def Hall.takeStatus (st : StandAddr) (a b : ArmReading) (h : Hall) : Hall :=
  match h.stand st with
  | none => h
  | some s =>
    let roles := decide (s.mode = .unknown) || s.rolesDue
    let both := decide (a.role = .running ∧ b.role = .running) && a.reel.isSome && b.reel.isSome
    let h := h.takeOccupancy st .a a.reel (if roles then some a.role else none)
    let h := h.takeOccupancy st .b b.reel (if roles then some (if both then .standby else b.role) else none)
    if roles then
      let h := (h.takeRoles st a b).rolesTaken st s.running
      if h.broken st.line then h
      else h.modStand st fun s => { s with rolesDue := false }
    else (h.compareRole st .a a).compareRole st .b b

/-! ### Service (R120) -/

/-- Take a stand out of service (R120). -/
def Hall.outOfService (st : StandAddr) (h : Hall) : Hall :=
  let h := (h.modStand st fun s => { s with inService := false }).setMode st .outOfService
  let h := (h.lower (standFault .standStarved st)).endCall st .outOfService none
  let h := match h.handover st with
    | some x =>
      if x.kind = HandoverKind.load ∧ x.phase ≠ Phase.granted then
        ((h.abort x.vehicle .standOutOfService).turnToReturn x.mission false).holdAborted x.vehicle
      else h
    | none => h
  h.endPrep st

/-- Put a stand in service: UNKNOWN until its arms are established (R120). -/
def Hall.intoService (st : StandAddr) (h : Hall) : Hall :=
  (h.modStand st fun s =>
    { s with inService := true, armA := { s.armA with known := false }, armB := { s.armB with known := false } }).setMode st .unknown

end Sys2Proof.Machine
end

