-- ==== Sys2Proof/Machine/ArmEvents.lean ====
section
/-! DEFINITION. ARM EVENT and SPLICE PHASE messages from a press line (R131 to R137, R140, R152 to R158). -/

namespace Sys2Proof.Machine

/-! ### Shared forms (R140, R214) -/

/-- Take an ARM EVENT frame: a body fault counts a link error, an event of a stand not configured is disregarded (R214,
log 12). -/
def Hall.armEvent (f : Frame) (st : StandAddr) (take : Stand → Hall → Hall) (h : Hall) : Hall :=
  h.lineFrame f armEventLength (frameFits f st) fun h =>
    match h.stand st with
    | some s => take s h
    | none => h

/-- The LOAD handover of a stand that an answer may be taken for: ASKED or WAITING (R131, R140). -/
def Stand.asked (s : Stand) : Option Handover := s.handover.filter fun x => decide (x.kind = .load ∧ x.phase ≠ .granted)

/-! ### Answers to a LOAD REQUEST (R131, R133) -/

/-- READY (R131, R149): a WAITING handover is sent LOAD REQUEST while the stand is NORMAL or STARVED. -/
def execReady (f : Frame) (st : StandAddr) (_arm : ArmName) (s : State) : Host.Outcome State Fault Refusal :=
  .next { s with hall := s.hall.armEvent f st fun _ h => h.requestLoad st }

/-- LOAD_OK to a stand's handover (R131). -/
def Hall.loadOk (st : StandAddr) (x : Handover) (h : Hall) : Hall :=
  let h := h.modHandover st fun x => { x with phase := .granted }
  let h := h.changeArm st x.arm fun a => { a with state := .loading }
  h.direct x.vehicle (.transfer st x.arm x.reel.id)

/-- LOAD_OK (R131, R140). An answer for an arm that is no longer EMPTY finds the arm in another state (log 45). -/
def execLoadOk (f : Frame) (st : StandAddr) (_arm : ArmName) (s : State) : Host.Outcome State Fault Refusal :=
  .next { s with hall := s.hall.armEvent f st fun s h =>
    match s.asked with
    | some x => if (s.arm x.arm).state = .empty then h.loadOk st x else h.mismatch st
    | none => h.mismatch st }

/-- LOAD_WAIT (R131, R140). -/
def execLoadWait (f : Frame) (st : StandAddr) (_arm : ArmName) (s : State) : Host.Outcome State Fault Refusal :=
  .next { s with hall := s.hall.armEvent f st fun s h =>
    match s.asked with
    | some _ => h.modHandover st fun x => { x with phase := .waiting }
    | none => h.mismatch st }

/-- LOAD_REFUSE to a stand's handover: the refusal change, the abort record, the RETURN to a quarantine bay with the end of
the handover, and the notice (R133). -/
def Hall.loadRefuse (st : StandAddr) (reason : Nat) (x : Handover) (h : Hall) : Hall :=
  let h := (h.askRefusedAtStand x.vehicle x.reel).1
  let h := ((h.abort x.vehicle .transferRefused).turnToReturn x.mission true).holdAborted x.vehicle
  h.notify (.loadRefused st x.arm x.reel.id reason)

/-- LOAD_REFUSE (R133, R140). -/
def execLoadRefuse (f : Frame) (st : StandAddr) (_arm : ArmName) (reason : Nat) (s : State) : Host.Outcome State Fault Refusal :=
  .next { s with hall := s.hall.armEvent f st fun s h =>
    match s.asked with
    | some x => h.loadRefuse st reason x
    | none => h.mismatch st }

/-- ARM_LOADED (R129, R134, R140). -/
def execArmLoaded (f : Frame) (st : StandAddr) (arm : ArmName) (reel : Option ReelId) (s : State) :
    Host.Outcome State Fault Refusal :=
  .next { s with hall := s.hall.armEvent f st fun _ h => h.takeLoaded st arm (reel.getD noId) }

/-! ### Preparation (R137) -/

/-- PREP_START (R137, R140). -/
def execPrepStart (f : Frame) (st : StandAddr) (arm : ArmName) (s : State) : Host.Outcome State Fault Refusal :=
  .next { s with hall := s.hall.armEvent f st fun s h =>
    if (s.arm arm).state = .loaded then h.changeArm st arm fun a => { a with state := .preparing } else h.mismatch st }

/-- Strip the reel of an arm at its first preparation, and book the strip as white waste (R2, R137, R190). -/
def Hall.stripReel (st : StandAddr) (arm : ArmName) (h : Hall) : Hall :=
  match (h.stand st).bind fun s => (s.arm arm).reel with
  | none => h
  | some ref =>
    match h.reel ref with
    | none => h
    | some r =>
      if r.stripped then h
      else match h.askStrip st arm ref (((h.line st.line).map fun l => l.cfg.stripDepth).getD 0) with
        | (h, some m) => h.bookWhite st.line m r.width r.grade
        | (h, none) => h

/-- PREPARED of a LOADED or PREPARING arm (R137). -/
def Hall.becomePrepared (st : StandAddr) (arm : ArmName) (h : Hall) : Hall :=
  let h := (h.changeArm st arm fun a => { a with state := .prepared }).endPrep st
  (h.stripReel st arm).push (.spliceTest st)

/-- PREPARED (R137, R140). -/
def execPrepared (f : Frame) (st : StandAddr) (arm : ArmName) (s : State) : Host.Outcome State Fault Refusal :=
  .next { s with hall := s.hall.armEvent f st fun s h =>
    if (s.arm arm).state = .loaded ∨ (s.arm arm).state = .preparing then h.becomePrepared st arm else h.mismatch st }

/-! ### Unloading and ejection (R135, R158) -/

/-- UNLOADED taken for a handover: the unload, the booking of its adjustment, and the arm half (R33, R135, R189). The arm
becomes EMPTY (R116); when the Register refuses the unload, the mission has not its reel and does not go on (R99, log 47). -/
def Hall.unloaded (st : StandAddr) (x : Handover) (h : Hall) : Hall :=
  let r := h.reel x.reel
  let (h, metres) := h.askUnload st x.arm x.vehicle x.reel
  let h := match metres, r with
    | some m, some r => h.bookPrinted st.line m r.width r.grade
    | _, _ => h
  let h := h.emptyArm st x.arm
  if metres.isNone then h
  else
    let h := h.modHandover st fun x => { x with armDone := true }
    if x.transferDone then h.unloadFinished st x else h

/-- The UNLOAD handover of a stand that UNLOADED of an arm completes (R135, R140). -/
def Stand.unloads (s : Stand) (arm : ArmName) : Option Handover :=
  if (s.arm arm).state = .unloading then
    s.handover.filter fun x => decide (x.kind = .unload ∧ x.arm = arm ∧ x.armDone = false)
  else none

/-- UNLOADED of an UNLOADING arm with no handover to unload it: the reel has left the arm with no vehicle to take it, as
when STAND STATUS shows the arm empty (R139, R140, log 46). -/
def Hall.unloadedAlone (st : StandAddr) (arm : ArmName) (s : Stand) (h : Hall) : Hall :=
  match (s.arm arm).reel with
  | some ref => h.armMismatch st arm ref
  | none => h.emptyArm st arm

/-- UNLOADED (R135, R140). -/
def execUnloaded (f : Frame) (st : StandAddr) (arm : ArmName) (s : State) : Host.Outcome State Fault Refusal :=
  .next { s with hall := s.hall.armEvent f st fun s h =>
    match s.unloads arm with
    | some x => h.unloaded st x
    | none => if (s.arm arm).state = .unloading then h.unloadedAlone st arm s else h.mismatch st }

/-- EJECTED (R140, R158). -/
def execEjected (f : Frame) (st : StandAddr) (arm : ArmName) (s : State) : Host.Outcome State Fault Refusal :=
  .next { s with hall := s.hall.armEvent f st fun s h =>
    if (s.arm arm).state = .expired then h.eject st arm else h.mismatch st }

/-! ### SPLICE PHASE (R152 to R156) -/

/-- The phases of a splice, in order (7.1). -/
inductive SplicePhase | accel | paste | cut
deriving DecidableEq, Repr

/-- The first phase of a record that is still NOT_REACHED (R152). -/
def SpliceRecord.awaited (r : SpliceRecord) : Option SplicePhase :=
  if r.accel = .notReached then some .accel
  else if r.paste = .notReached then some .paste
  else if r.cut = .notReached then some .cut
  else none

/-- Write a phase's result into a record (R152). -/
def SpliceRecord.set (r : SpliceRecord) (p : SplicePhase) (x : PhaseResult) : SpliceRecord :=
  match p with
  | .accel => { r with accel := x }
  | .paste => { r with paste := x }
  | .cut => { r with cut := x }

/-- Take a SPLICE PHASE frame: a report out of order counts PHASE_UNEXPECTED; one of a stand not configured is disregarded
silently (R152, R214). `then_` is given the record with the result written in. -/
def Hall.splicePhase (f : Frame) (st : StandAddr) (p : SplicePhase) (x : PhaseResult) (then_ : SpliceRecord → Hall → Hall)
    (h : Hall) : Hall :=
  h.lineFrame f splicePhaseLength (frameFits f st) fun h =>
    if (h.stand st).isNone then h
    else match h.openSplice st with
      | some r => if r.awaited = some p then then_ (r.set p x) h else h.pulse (standFault .phaseUnexpected st)
      | none => h.pulse (standFault .phaseUnexpected st)

/-- A phase that went well: the splice waits for the next one (R153, R154). -/
def Hall.phaseOk (st : StandAddr) (r : SpliceRecord) (h : Hall) : Hall := h.modStand st fun s => { s with lastSplice := some r }

/-- ACCEL_OK (R152, R153). -/
def execAccelOk (f : Frame) (st : StandAddr) (s : State) : Host.Outcome State Fault Refusal :=
  .next { s with hall := s.hall.splicePhase f st .accel .ok fun r h => h.phaseOk st r }

/-- ACCEL_FAIL (R152, R153). -/
def execAccelFail (f : Frame) (st : StandAddr) (s : State) : Host.Outcome State Fault Refusal :=
  .next { s with hall := s.hall.splicePhase f st .accel .fail fun r h => h.spliceAborted st r }

/-- PASTE_OK (R152, R154). -/
def execPasteOk (f : Frame) (st : StandAddr) (s : State) : Host.Outcome State Fault Refusal :=
  .next { s with hall := s.hall.splicePhase f st .paste .ok fun r h => h.phaseOk st r }

/-- PASTE_FAIL (R152, R154). -/
def execPasteFail (f : Frame) (st : StandAddr) (s : State) : Host.Outcome State Fault Refusal :=
  .next { s with hall := s.hall.splicePhase f st .paste .fail fun r h => h.spliceFailed st r }

/-- CUT_OK (R152, R155). -/
def execCutOk (f : Frame) (st : StandAddr) (gate : GateCount) (s : State) : Host.Outcome State Fault Refusal :=
  .next { s with hall := s.hall.splicePhase f st .cut .ok fun r h => h.spliceDone st r gate }

/-- CUT_FAIL (R152, R156). -/
def execCutFail (f : Frame) (st : StandAddr) (gate : GateCount) (s : State) : Host.Outcome State Fault Refusal :=
  .next { s with hall := s.hall.splicePhase f st .cut .fail fun r h => h.cutFailed st r gate }

end Sys2Proof.Machine
end

