-- ==== Sys2Proof/Machine/Clock.lean ====
section
/-! DEFINITION. The hall clock and the expiries of timers (R35, R79, R132, R138, R151, R204, R220). -/

namespace Sys2Proof.Machine

/-! ### Expiries on the timebase (R132, R135, R151, R204) -/

/-- The silence timer of a line runs out (R157, R178, R204). -/
def Hall.lineSilent (n : Nat) (h : Hall) : Hall :=
  let h := (h.modLine n fun l => { l with silence := none }).raise ⟨.lineLinkDown, .line n⟩
  (h.breakSplices n).unsend n

/-- LINE_LINK_DOWN (R204), when the line's silence timer has run out (log 3). -/
def execLineLinkDown (line : Nat) (s : State) : Host.Outcome State Fault Refusal :=
  .next (if s.hall.reached ((s.hall.line line).bind fun l => l.silence) then
    { s with hall := (s.hall.lineSilent line).finish } else s)

/-- The wait limit of a handover runs out: a LOAD becomes a RETURN, an UNLOAD's mission is aborted (R132, R135). -/
def Hall.waitOver (x : Handover) (h : Hall) : Hall :=
  let h := h.abort x.vehicle .transferTimeout
  match x.kind with
  | .load => (h.turnToReturn x.mission false).holdAborted x.vehicle
  | .unload => ((h.endMission x.mission .aborted).setActivity x.vehicle .idle).direct x.vehicle .hold

/-- HANDOVER_WAIT_LIMIT (R132, R135), when the wait limit has run out (log 3). -/
def execHandoverWaitLimit (st : StandAddr) (s : State) : Host.Outcome State Fault Refusal :=
  .next (match s.hall.handover st with
    | some x => if s.hall.reached (s.hall.waitEnd x) then { s with hall := (s.hall.waitOver x).finish } else s
    | none => s)

/-- The retry wait of a stand ends, and the splice test is made (R151). -/
def Hall.retryOver (st : StandAddr) (h : Hall) : Hall := (h.modStand st fun s => { s with retry := none }).spliceTest st

/-- RETRY_WAIT_EXPIRY (R151), when the wait has run out (log 3). -/
def execRetryWaitExpiry (st : StandAddr) (s : State) : Host.Outcome State Fault Refusal :=
  .next (if s.hall.reached ((s.hall.stand st).bind fun x => x.retry) then
    { s with hall := (s.hall.retryOver st).finish } else s)

/-! ### The hall clock (R35, R79, R138, R220) -/

/-- Whether a CONDITIONING reel has reached its earliest issue time (R35). -/
def Hall.conditioned (h : Hall) (i : Nat) : Bool :=
  (tget h.reels i).any fun r => decide (r.state = .conditioning ∧ r.earliest ≤ h.clock)

/-- Whether a charger hold has reached its expiry time (R79). -/
def Hall.holdExpired (h : Hall) (z : Nat) : Bool :=
  (h.zone z).any fun x => x.hold.any fun c => decide (c.expiry ≤ h.clock)

/-- Each CONDITIONING reel whose time has come becomes STORED as an event of its own, in index order (R35). -/
def Hall.conditionAll (h : Hall) : Hall :=
  (h.reels.map (·.1)).foldl (fun h i => if h.conditioned i then (h.conditionReel i).settle Config.cascadeBound else h) h

/-- The charger holds whose expiry time is reached end, in rising zone number (R79). -/
def Hall.expireHolds (h : Hall) : Hall :=
  h.zoneNumbers.foldl (fun h z => if h.holdExpired z then (h.endHold z).settle Config.cascadeBound else h) h

/-- What the hall clock's new value brings about (R35, R79, R138, log 42). -/
def Hall.clockMoved (h : Hall) : Hall :=
  let h := h.conditionAll.expireHolds
  h.stands.foldl (fun h p => h.testOverdue (standOfKey p.1)) h

/-- The hall clock advances by one second, and stays at its largest value (R220); every ceiling is formed anew (R161). -/
def Hall.advance (h : Hall) : Hall :=
  let h : Hall := { h with clock := satAdd Config.max32 h.clock 1, secondFrom := h.secondFrom + Config.ticksPerSecond }
  (h.clockMoved.lines.map (·.1)).foldl (fun h n => h.oweCeiling n) h.clockMoved

/-- HALL_CLOCK_ADVANCE (R220), when 100 ticks have passed (log 3). -/
def execHallClockAdvance (s : State) : Host.Outcome State Fault Refusal :=
  .next (if s.hall.secondDue then { s with hall := s.hall.advance.finish } else s)

/-- CONDITIONING_END (R35), when the reel's earliest issue time is reached (log 3, log 16). -/
def execConditioningEnd (index : Nat) (s : State) : Host.Outcome State Fault Refusal :=
  .next (if s.hall.conditioned index then { s with hall := (s.hall.conditionReel index).finish } else s)

/-- CHARGER_HOLD_EXPIRY (R79), when the hold's expiry time is reached (log 3, log 16). -/
def execChargerHoldExpiry (zone : Nat) (s : State) : Host.Outcome State Fault Refusal :=
  .next (if s.hall.holdExpired zone then { s with hall := (s.hall.endHold zone).finish } else s)

end Sys2Proof.Machine
end

