-- ==== Sys2Proof/Machine/Counting.lean ====
section
/-! DEFINITION. Host requests on copy counting (Chapter 8), kinds 26h to 28h. -/

namespace Sys2Proof.Machine

/-! ### Set Line Counting (R164) -/

/-- The counting settings with the given fields set (R164). -/
def CountCfg.set (c : CountCfg) (a : CountArgs) : CountCfg where
  cutoff := a.cutoff.getD c.cutoff
  depth := a.depth.getD c.depth
  preMargin := a.preMargin.getD c.preMargin
  spliceWindow := a.spliceWindow.getD c.spliceWindow
  restartWindow := a.restartWindow.getD c.restartWindow
  startLimit := a.startLimit.getD c.startLimit
  jumpLimit := a.jumpLimit.getD c.jumpLimit
  holdOnDegraded := a.holdOnDegraded.getD c.holdOnDegraded

/-- Whether given counting settings lie in their ranges (R164). -/
def countArgsFit (a : CountArgs) : Bool :=
  optIn 400 700 a.cutoff && optIn 0 200 a.depth && optIn 0 200 a.preMargin && optIn 0 2000 a.spliceWindow &&
    optIn 0 5000 a.restartWindow && optIn 100 20000 a.startLimit && optIn 50 5000 a.jumpLimit

/-- Give a line its counting settings: a lowered depth finalizes at once, and START_LIMIT and the hold are tested anew
(R164, R167, R175, R201, log 38). -/
def Hall.recount (n : Nat) (k : CountCfg) (h : Hall) : Hall :=
  let limit := (h.count n).map fun c => c.cfg.startLimit
  let h := (h.modCount n fun c => { c with cfg := k }).finalizeDepth n
  let h := if limit = some k.startLimit then h else h.testStart n
  h.evalHold n

/-- SET_LINE_COUNTING (R164). -/
def Hall.takeCounting (saving : Bool) (n : Nat) (a : CountArgs) (h : Hall) : Answer :=
  match h.count n with
  | none => h.refuse .notFound
  | some c =>
    if !countArgsFit a then h.refuse .range
    else if saving then h.refuse .busy
    else (h.recount n (c.cfg.set a)).accept .none

/-- SET_LINE_COUNTING (R164). -/
def execSetLineCounting (q : Req) (line : Nat) (args : CountArgs) (s : State) : Host.Outcome State Fault Refusal :=
  .next (s.request q 0x26 fun h => h.takeCounting s.saving line args)

/-! ### Clear Line Counters (R179) -/

/-- Whether the line's run state is STOPPED. -/
def Hall.stopped (h : Hall) (n : Nat) : Bool := (h.line n).any fun l => decide (l.run = .stopped)

/-- Send the first interval of a list, whose first copy has been raised to 1 (R179). -/
def Hall.sendRaised (n : Nat) (h : Hall) : Hall :=
  match h.count n with
  | some c =>
    match c.intervals with
    | iv :: rest =>
      if c.gate.isSome then
        (h.sendAll n (c.messages iv)).modCount n fun c => { c with intervals := c.markSent (h.linkDown n) iv :: rest }
      else h
    | [] => h
  | none => h

/-- Whether clearing the counters raises the first copy of the list's first interval (R179). -/
def LineCount.raises (c : LineCount) : Bool := ((retire c.counted c.intervals).head?).any fun iv => decide (iv.first ≤ c.counted)

/-- Clear the counters of a line whose provisional copies are final, and send the interval that was raised (R179). -/
def Hall.clearCounts (n : Nat) (c : LineCount) (h : Hall) : Hall :=
  let h := h.modCount n LineCount.cleared
  if c.raises then h.sendRaised n else h

/-- CLEAR_LINE_COUNTERS (R179). -/
def Hall.takeClearCounters (n : Nat) (h : Hall) : Answer :=
  match h.count n with
  | none => h.refuse .notFound
  | some c =>
    if !h.stopped n || c.edition.isSome || c.openCause.isSome then h.refuse .state
    else
      let h := h.finalizeAll n
      match h.count n with
      | some c => (h.clearCounts n c).accept (.copies c.counted c.finalized c.good c.waste)
      | none => h.refuse .notFound

/-- CLEAR_LINE_COUNTERS (R179). -/
def execClearLineCounters (q : Req) (line : Nat) (s : State) : Host.Outcome State Fault Refusal :=
  .next (s.request q 0x27 fun h => h.takeClearCounters line)

/-! ### Query Line Counts (R180) -/

/-- QUERY_LINE_COUNTS (R180). -/
def Hall.tellCounts (n : Nat) (h : Hall) : Answer :=
  match h.count n with
  | none => h.refuse .notFound
  | some c => h.tell (.counts c (c.intervals.map fun iv => (c.gateValue iv.first, iv.stop.map c.gateValue)))

/-- QUERY_LINE_COUNTS (R180). -/
def execQueryLineCounts (q : Req) (line : Nat) (s : State) : Host.Outcome State Fault Refusal :=
  .next (s.request q 0x28 fun h => h.tellCounts line)

end Sys2Proof.Machine
end

