-- ==== Sys2Proof/Machine/EditionReqs.lean ====
section
/-! DEFINITION. Host requests on editions and unassigned totals (Chapter 9), kinds 29h to 2Eh. -/

namespace Sys2Proof.Machine

/-! ### Open Edition (R184, R185, R186) -/

/-- An edition record at Open Edition (R183). -/
def Edition.fresh (line number target clock : Nat) : Edition where
  number := number
  line := line
  isOpen := true
  collected := false
  target := target
  opened := clock
  closed := none
  finalized := 0
  good := 0
  overrun := 0
  waste := ⟨0, 0, 0, 0⟩
  splices := 0
  breaks := 0
  printedLength := 0
  printedMass := 0
  whiteLength := 0
  whiteMass := 0
  reelsUsed := []
  truncated := false

/-- Enter the reels on the running arms of a line's stands, in stand address order (R186). -/
def Hall.enterRunning (n : Nat) (h : Hall) : Hall :=
  (h.standsOf n).foldl (fun h st =>
    match (h.stand st).bind fun s => s.running.bind fun arm => (s.arm arm).reel with
    | some ref => h.reportRun n ref.id
    | none => h) h

/-- Offer the START interval of an opening or a start, from the copy after the counted total, and follow the gate
schedule (R175). -/
def Hall.startInterval (n : Nat) (h : Hall) : Hall :=
  match h.count n with
  | some c => h.divert n (c.counted + 1) none .start
  | none => h

/-- Steps 1 to 4 of R184 in a slot. -/
def Hall.openEdition (slot n number target : Nat) (h : Hall) : Hall :=
  let h : Hall := { h with editions := tput h.editions slot (Edition.fresh n number target h.clock) }
  let h := (h.finalizeAll n).modCount n fun c => { c with edition := some number }
  (h.startInterval n).enterRunning n

/-- Whether a record bars a new edition of its line and number (R184 check 4). -/
def Edition.bars (e : Edition) : Bool := e.isOpen || !e.collected

/-- OPEN_EDITION (R184). -/
def Hall.takeOpen (number n target : Nat) (h : Hall) : Answer :=
  if number = 0 ∨ target = 0 ∨ !inRange 1 4 n then h.refuse .range
  else match h.count n with
    | none => h.refuse .notFound
    | some c =>
      if c.edition.isSome then h.refuse .state
      else if (h.findEdition n number).any fun p => p.2.bars then h.refuse .duplicate
      else match h.slotForEdition n number with
        | none => h.refuse .full
        | some (slot, old) =>
          (h.openEdition slot n number target).accept (.opened slot (old.map fun e => (e.line, e.number, e.isOpen)))

/-- OPEN_EDITION (R184). -/
def execOpenEdition (q : Req) (number line target : Nat) (s : State) : Host.Outcome State Fault Refusal :=
  .next (s.request q 0x29 fun h => h.takeOpen number line target)

/-! ### Close Edition (R192, R194) -/

/-- Steps 1 to 4 of R192. -/
def Hall.closeEdition (slot n : Nat) (h : Hall) : Hall :=
  let h := (h.finalizeAll n).modCount n fun c => { c with edition := none }
  let h := { h with editions := tmod h.editions slot fun e => { e with isOpen := false, closed := some h.clock } }
  match tget h.editions slot with
  | some e => h.notify (.editionClosed e.report)
  | none => h

/-- The counts a Close Edition reply gives (R192). -/
def Edition.closing (e : Edition) : Content := .closed e.finalized e.good e.overrun e.waste

/-- CLOSE_EDITION (R192). -/
def Hall.takeClose (n number : Nat) (h : Hall) : Answer :=
  if !inRange 1 4 n then h.refuse .range
  else match h.findEdition n number with
    | none => h.refuse .notFound
    | some (slot, e) =>
      if e.isOpen then
        let h := h.closeEdition slot n
        h.accept (((tget h.editions slot).map Edition.closing).getD .none)
      else h.refuse .state

/-- CLOSE_EDITION (R192). -/
def execCloseEdition (q : Req) (line number : Nat) (s : State) : Host.Outcome State Fault Refusal :=
  .next (s.request q 0x2A fun h => h.takeClose line number)

/-! ### Queries (R193) -/

/-- A record with its masses in grams (R193). -/
def Edition.inGrams (e : Edition) : Edition := { e with printedMass := e.printedMass / 1000, whiteMass := e.whiteMass / 1000 }

/-- QUERY_EDITION (R193): the record as it stands before its collected flag is set (log 39). -/
def Hall.takeQueryEdition (n number : Nat) (h : Hall) : Answer :=
  match h.findEdition n number with
  | none => h.refuse .notFound
  | some (slot, e) =>
    if e.isOpen then h.tell (.edition e.inGrams ((h.count n).map fun c => c.counted - c.finalized))
    else ⟨{ h with editions := tput h.editions slot { e with collected := true } }, .ok, .edition e.inGrams none⟩

/-- QUERY_EDITION (R193). -/
def execQueryEdition (q : Req) (line number : Nat) (s : State) : Host.Outcome State Fault Refusal :=
  .next (s.request q 0x2B fun h => h.takeQueryEdition line number)

/-- QUERY_EDITIONS (R193). -/
def Hall.tellEditions (h : Hall) : Answer :=
  h.tell (.editions (h.storeOrder.map fun p =>
    ⟨p.1, p.2.line, p.2.number, p.2.isOpen, p.2.collected, p.2.target, p.2.good, p.2.finalized⟩)
    (Config.editionSlots - h.editions.length))

/-- QUERY_EDITIONS (R193). -/
def execQueryEditions (q : Req) (s : State) : Host.Outcome State Fault Refusal := .next (s.request q 0x2C Hall.tellEditions)

/-! ### Unassigned totals (R188) -/

/-- Unassigned totals with their masses in grams (R188). -/
def Totals.inGrams (t : Totals) : Totals := { t with printedMass := t.printedMass / 1000, whiteMass := t.whiteMass / 1000 }

/-- QUERY_UNASSIGNED (R188). -/
def Hall.tellUnassigned (n : Nat) (h : Hall) : Answer :=
  match tget h.unassigned n with
  | none => h.refuse .notFound
  | some t => h.tell (.totals t.inGrams)

/-- QUERY_UNASSIGNED (R188). -/
def execQueryUnassigned (q : Req) (line : Nat) (s : State) : Host.Outcome State Fault Refusal :=
  .next (s.request q 0x2D fun h => h.tellUnassigned line)

/-- CLEAR_UNASSIGNED (R188): the reply gives the values as they stood before, masses in grams as Query Unassigned does
(log 40). -/
def Hall.takeClearUnassigned (n : Nat) (h : Hall) : Answer :=
  match tget h.unassigned n with
  | none => h.refuse .notFound
  | some t => ⟨h.modTotals n fun _ => Totals.zero, .ok, .totals t.inGrams⟩

/-- CLEAR_UNASSIGNED (R188). -/
def execClearUnassigned (q : Req) (line : Nat) (s : State) : Host.Outcome State Fault Refusal :=
  .next (s.request q 0x2E fun h => h.takeClearUnassigned line)

end Sys2Proof.Machine
end

