-- ==== Sys2Proof/Machine/FaultReqs.lean ====
section
/-! DEFINITION. Host requests on the Fault Table (Chapter 10), kinds 2Fh to 32h. -/

namespace Sys2Proof.Machine

/-- The entry a request names by code and subject (R199). -/
def namedFault (code : Nat) (subject : Subject) : Option FaultKey :=
  match faultOfCode code with
  | some k => if subjectFits k subject then some ⟨k, subject⟩ else none
  | none => none

/-- Whether an arm of a stand holds a reel in estimate mode (R123). -/
def Hall.standEstimates (h : Hall) (st : StandAddr) : Bool :=
  (h.stand st).any fun s => [s.armA, s.armB].any fun a => (a.reel.bind h.reel).any fun r => r.estimate

/-- An acknowledgement of an active SENSOR_FAILED entry whose stand runs no reel in estimate mode makes it inactive first
(R123, R199). -/
def Hall.easeSensor (k : FaultKey) (h : Hall) : Hall :=
  match k.kind, k.subject with
  | .sensorFailed, .stand st => if h.standEstimates st then h else h.lower k
  | _, _ => h

/-- ACKNOWLEDGE_FAULT (R199). -/
def Hall.takeAck (code : Nat) (subject : Subject) (h : Hall) : Answer :=
  match namedFault code subject with
  | none => h.refuse .range
  | some k =>
    let h := h.easeSensor k
    if (h.fault k).active then ⟨h, .state, .fault k (h.fault k)⟩
    else if (h.fault k).latched then
      let h := h.unlatch k
      h.accept (.fault k (h.fault k))
    else h.accept (.fault k (h.fault k))

/-- ACKNOWLEDGE_FAULT (R199). -/
def execAcknowledgeFault (q : Req) (code : Nat) (subject : Subject) (s : State) : Host.Outcome State Fault Refusal :=
  .next (s.request q 0x2F fun h => h.takeAck code subject)

/-- The entries that are inactive and latched, in table order. -/
def Hall.unlatchable (h : Hall) : List FaultKey :=
  (h.faults.filter fun p => !p.2.2.active && p.2.2.latched).map fun p => p.2.1

/-- The number of entries active. -/
def Hall.activeCount (h : Hall) : Nat := (h.faults.filter fun p => p.2.2.active).length

/-- The number of entries latched. -/
def Hall.latchedCount (h : Hall) : Nat := (h.faults.filter fun p => p.2.2.latched).length

/-- ACKNOWLEDGE_ALL_FAULTS (R199). -/
def Hall.takeAckAll (h : Hall) : Answer :=
  let keys := h.unlatchable
  let h := keys.foldl (fun h k => h.unlatch k) h
  h.accept (.unlatched keys.length h.activeCount)

/-- ACKNOWLEDGE_ALL_FAULTS (R199). -/
def execAcknowledgeAllFaults (q : Req) (s : State) : Host.Outcome State Fault Refusal := .next (s.request q 0x30 Hall.takeAckAll)

/-- Whether an entry matches a filter (R200). -/
def FaultKey.matches (k : FaultKey) : Option FaultFilter → Bool
  | none => true
  | some (.cls c) => decide (faultClass k.kind = c)
  | some (.kind n) => decide (faultCode k.kind = n)
  | some (.subject s) => decide (k.subject = s)

/-- QUERY_FAULTS (R200). A filter that names no kind or subject of the table is answered with an empty list, by the model's choice
(log 89). -/
def Hall.tellFaults (f : Option FaultFilter) (h : Hall) : Answer :=
  h.tell (.faults
    ((h.faults.filter fun p => (p.2.2.active || p.2.2.latched) && p.2.1.matches f).map (·.2))
    (h.lines.map fun p => (p.1, h.holding p.1)) h.allStop)

/-- QUERY_FAULTS (R200). -/
def execQueryFaults (q : Req) (filter : Option FaultFilter) (s : State) : Host.Outcome State Fault Refusal :=
  .next (s.request q 0x31 fun h => h.tellFaults filter)

/-- QUERY_FAULT (R200). -/
def Hall.tellFault (code : Nat) (subject : Subject) (h : Hall) : Answer :=
  match namedFault code subject with
  | none => h.refuse .range
  | some k => h.tell (.fault k (h.fault k))

/-- QUERY_FAULT (R200). -/
def execQueryFault (q : Req) (code : Nat) (subject : Subject) (s : State) : Host.Outcome State Fault Refusal :=
  .next (s.request q 0x32 fun h => h.tellFault code subject)

end Sys2Proof.Machine
end

