-- ==== Sys2Proof/Machine/Stands.lean ====
section
/-! DEFINITION. Host requests on line feed and stands (Chapter 6), kinds 1Ch to 23h. -/

namespace Sys2Proof.Machine

/-! ### Set Line Feed (R117) -/

/-- The feed settings with the given fields set (R117). -/
def LineCfg.set (c : LineCfg) (a : LineFeedArgs) : LineCfg where
  lineMax := a.lineMax.getD c.lineMax
  crawl := a.crawl.getD c.crawl
  prepAllowance := a.prepAllowance.getD c.prepAllowance
  callLength := a.callLength.getD c.callLength
  partials := a.partials.getD c.partials
  minIssue := a.minIssue.getD c.minIssue
  stripDepth := a.stripDepth.getD c.stripDepth
  autoPrepare := a.autoPrepare.getD c.autoPrepare

/-- Whether given feed settings lie in their ranges (6.1). -/
def feedArgsFit (a : LineFeedArgs) : Bool :=
  optIn 100 1200 a.lineMax && optStep 10 a.lineMax && optIn 30 200 a.crawl && optStep 10 a.crawl &&
    optIn 30 1800 a.prepAllowance && optIn 0 60000 a.callLength && optIn 0 60000 a.minIssue && optIn 0 30 a.stripDepth

/-- A line as Set Line Feed or a cold reset first configures it: its ceiling and its hold state are owed to the first frame
received from it (R117, R163, R202, R221), and its silence timer runs from `now` (R204). -/
def Line.fresh (c : LineCfg) (now : Nat) : Line where
  cfg := c
  run := .stopped
  speed := 0
  slot := none
  waiting := []
  hostCeiling := c.lineMax
  ceiling := c.lineMax
  reduced := false
  byHost := false
  constraining := []
  lastStatus := none
  silence := some (now + Config.silenceTicks)
  oweCeiling := true
  oweHold := true

/-- Configure a line that was not configured (R117, R163, R164, R188, R201). -/
def Hall.configureLine (n : Nat) (c : LineCfg) (k : CountCfg) (h : Hall) : Hall :=
  let h : Hall := { h with
    lines := tput h.lines n (Line.fresh c h.timebase)
    counts := tput h.counts n (LineCount.fresh k)
    unassigned := tput h.unassigned n Totals.zero }
  h.evalHold n

/-- Give a configured line its feed settings: the host ceiling is brought into range, and PREP_OVERDUE follows the
allowance (R117, R138, R162). -/
def Hall.refeedLine (n : Nat) (c : LineCfg) (h : Hall) : Hall :=
  let allowance := (h.line n).map fun l => l.cfg.prepAllowance
  let h := (h.modLine n fun l => { l with cfg := c, hostCeiling := c.fitCeiling l.hostCeiling }).oweCeiling n
  if allowance = some c.prepAllowance then h else (h.standsOf n).foldl (fun h st => h.testOverdue st) h

/-- SET_LINE_FEED (R117). -/
def Hall.takeFeed (saving : Bool) (n : Nat) (a : LineFeedArgs) (h : Hall) : Answer :=
  let old := (h.line n).map (·.cfg)
  let c := (old.getD LineCfg.default).set a
  if !(inRange 1 4 n && feedArgsFit a) || decide (c.lineMax < c.crawl) then h.refuse .range
  else if saving then h.refuse .busy
  else if old.isSome then (h.refeedLine n c).accept .none
  else (h.configureLine n c CountCfg.default).accept .none

/-- SET_LINE_FEED (R117). -/
def execSetLineFeed (q : Req) (line : Nat) (args : LineFeedArgs) (s : State) : Host.Outcome State Fault Refusal :=
  .next (s.request q 0x1C fun h => h.takeFeed s.saving line args)

/-! ### Set Stand (R119) -/

/-- The configuration of a stand with the given fields set (R119). -/
def StandCfg.set (old : Option StandCfg) (a : StandArgs) : StandCfg where
  grade := a.grade
  width := a.width
  ds := a.ds.getD ((old.map (·.ds)).getD 140)
  dmin := a.dmin.getD ((old.map (·.dmin)).getD 115)
  lockMargin := a.lockMargin.getD ((old.map (·.lockMargin)).getD 15)
  maxStep := a.maxStep.getD ((old.map (·.maxStep)).getD 40)
  webPath := a.webPath.getD ((old.map (·.webPath)).getD 46000)
  allowance := a.allowance.getD ((old.map (·.allowance)).getD 300)
  offset := a.offset.getD ((old.map (·.offset)).getD 0)

/-- Whether given stand fields lie in their ranges (6.1, R119). -/
def standArgsFit (a : StandArgs) : Bool :=
  inRange 0 15 a.grade && inRange 300 2400 a.width && optIn 110 300 a.ds && optIn 100 280 a.dmin && optIn 0 50 a.lockMargin &&
    optIn 10 100 a.maxStep && optIn 5000 120000 a.webPath && optIn 0 3600 a.allowance &&
    a.offset.all fun x => decide (-20 ≤ x ∧ x ≤ 20)

/-- A stand as Set Stand, a reload or a cold reset first makes it (R119, R144, R147, R219). -/
def Stand.fresh (c : StandCfg) (inService : Bool) : Stand where
  cfg := c
  inService := inService
  mode := if inService then .unknown else .outOfService
  running := none
  call := none
  handover := none
  implausible := 0
  lastSplice := none
  attempts := 0
  retry := none
  rolesDue := false
  armA := Arm.cold
  armB := Arm.cold

/-- Whether a plan differs from the stand's (R119). -/
def Stand.replans (s : Stand) (c : StandCfg) : Bool := decide (s.cfg.grade ≠ c.grade ∨ s.cfg.width ≠ c.width)

/-- Whether the stand's call is DISPATCHED with its reel on a vehicle (R119). -/
def Hall.reelUnderWay (h : Hall) (s : Stand) : Bool :=
  s.call.any fun c => decide (c.state = .dispatched) && c.reel.any fun ref => (h.reel ref).any fun r => r.loc.isVehicle

/-- Give a configured stand its configuration; a change of plan ends its call (R119, R126). -/
def Hall.reconfigureStand (st : StandAddr) (c : StandCfg) (h : Hall) : Hall :=
  let replan := (h.stand st).any fun s => s.replans c
  let h := (h.modStand st fun s => { s with cfg := c }).oweCeiling st.line
  if replan then h.endCall st .planChanged none else h

/-- SET_STAND (R119). A stand configured while its line is BROKEN has its roles taken as the line's other stands have
(R157, log 18). -/
def Hall.takeStand (saving : Bool) (st : StandAddr) (a : StandArgs) (h : Hall) : Answer :=
  let old := h.stand st
  let c := StandCfg.set (old.map (·.cfg)) a
  if !(standInRange st && standArgsFit a) || decide (c.ds ≤ c.dmin) then h.refuse .range
  else if saving then h.refuse .busy
  else if (h.line st.line).isNone || (tget h.grades a.grade).isNone then h.refuse .notFound
  else match old with
    | none =>
      let new := { Stand.fresh c false with rolesDue := h.broken st.line }
      (({ h with stands := tput h.stands (standKey st) new } : Hall).oweCeiling st.line).accept .none
    | some s =>
      if s.replans c && h.reelUnderWay s then h.refuse .state
      else (h.reconfigureStand st c).accept .none

/-- SET_STAND (R119). -/
def execSetStand (q : Req) (st : StandAddr) (args : StandArgs) (s : State) : Host.Outcome State Fault Refusal :=
  .next (s.request q 0x1D fun h => h.takeStand s.saving st args)

/-! ### Service (R120) -/

/-- Whether a stand has a RUNNING arm while its line runs (R120). -/
def Hall.runsNow (h : Hall) (st : StandAddr) (s : Stand) : Bool :=
  (decide (s.armA.state = .running) || decide (s.armB.state = .running)) &&
    (h.line st.line).any fun l => decide (l.run = .running)

/-- STAND_OUT_OF_SERVICE (R120). -/
def Hall.takeOut (st : StandAddr) (h : Hall) : Answer :=
  match h.stand st with
  | none => h.refuse .notFound
  | some s =>
    if decide (s.mode = .outOfService ∨ s.mode = .splicing) || h.runsNow st s then h.refuse .state
    else (h.outOfService st).accept .none

/-- STAND_OUT_OF_SERVICE (R120). -/
def execStandOutOfService (q : Req) (st : StandAddr) (s : State) : Host.Outcome State Fault Refusal :=
  .next (s.request q 0x1E fun h => h.takeOut st)

/-- STAND_IN_SERVICE (R120). -/
def Hall.takeIn (st : StandAddr) (h : Hall) : Answer :=
  match h.stand st with
  | none => h.refuse .notFound
  | some s => if s.mode = .outOfService then (h.intoService st).accept .none else h.refuse .state

/-- STAND_IN_SERVICE (R120). -/
def execStandInService (q : Req) (st : StandAddr) (s : State) : Host.Outcome State Fault Refusal :=
  .next (s.request q 0x1F fun h => h.takeIn st)

/-! ### Return Reel (R135) -/

/-- Begin the unload of the standby arm: the arm, the panel and UNLOAD REQUEST (R135). -/
def Hall.beginUnload (st : StandAddr) (arm : ArmName) (ref : ReelRef) (h : Hall) : Hall :=
  let h := h.changeArm st arm fun a => { a with state := .unloading, beforeUnload := some a.state }
  (h.endPrep st).sendLine st.line (.unloadRequest st arm ref.id)

/-- RETURN_REEL (R135). -/
def Hall.takeReturn (st : StandAddr) (h : Hall) : Answer :=
  match h.stand st with
  | none => h.refuse .notFound
  | some s =>
    match s.standby with
    | none => h.refuse .state
    | some arm =>
      match (s.arm arm).reel with
      | none => h.refuse .state
      | some ref =>
        if !(s.arm arm).holdsNext || decide (s.mode = .locked ∨ s.mode = .splicing) || s.handover.isSome || h.named ref then
          h.refuse .state
        else match h.createWithBay (returnMission ref (some (.arm st arm)) h.clock false) (h.selectFor ref false) with
          | (h', some _) => (h'.beginUnload st arm ref).accept .none
          | (_, none) => h.refuse .full

/-- RETURN_REEL (R135). -/
def execReturnReel (q : Req) (st : StandAddr) (s : State) : Host.Outcome State Fault Refusal :=
  .next (s.request q 0x20 fun h => h.takeReturn st)

/-! ### Declare Arm (R141) -/

/-- Whether the stand is in a condition in which its arms may be declared (R141 check 2). -/
def Hall.declarable (h : Hall) (st : StandAddr) (s : Stand) : Bool :=
  s.handover.isNone && (decide (s.mode = .unknown) ||
    (decide (s.mode = .normal) && (h.line st.line).any fun l => decide (l.run = .stopped)))

/-- An arm has been declared: it is known, and an UNKNOWN stand both of whose arms are known becomes NORMAL (R141, R148). -/
def Hall.armDeclared (st : StandAddr) (arm : ArmName) (h : Hall) : Hall :=
  let h := (h.trimPrep st).modArm st arm fun a => { a with known := true }
  match h.stand st with
  | some s =>
    if s.mode = .unknown ∧ s.armA.known ∧ s.armB.known then (h.setMode st .normal).lockTest st else h
  | none => h

/-- DECLARE_ARM (R141). An adoption the Register refuses counts its CUSTODY_ERROR and answers STATE (R26, log 35); an arm that a
splice has left in another state without a reel is taken as EMPTY, as at STAND STATUS (log 83). -/
def Hall.takeDeclareArm (st : StandAddr) (arm : ArmName) (reel : Option ReelId) (role : Role) (h : Hall) : Answer :=
  match h.stand st with
  | none => h.refuse .notFound
  | some s =>
    if !h.declarable st s then h.refuse .state
    else match reel with
      | none => ((h.takeOccupancy st arm none none).armDeclared st arm).accept .none
      | some id =>
        match h.reelById id with
        | none => h.refuse .notFound
        | some (i, _) =>
          if role = .running ∧ (s.arm arm.other).state = .running then h.refuse .state
          else match (s.arm arm).reel with
            | some ref =>
              if ref.id = id then ((h.takeRole st arm role).armDeclared st arm).accept .none else h.refuse .state
            | none => match h.adopt st arm ⟨i, id⟩ (some role) with
              | (_, true) => (((h.vacate st arm).adopt st arm ⟨i, id⟩ (some role)).1.armDeclared st arm).accept .none
              | (h', false) => ⟨h'.finish, .state, .none⟩

/-- DECLARE_ARM (R141). -/
def execDeclareArm (q : Req) (st : StandAddr) (arm : ArmName) (reel : Option ReelId) (role : Role) (s : State) :
    Host.Outcome State Fault Refusal :=
  .next (s.request q 0x21 fun h => h.takeDeclareArm st arm reel role)

/-! ### Queries (R143) -/

/-- The place of a stand in preparation: 0 in the slot and 1 on in the pending list, by the model's choice (R143, log 49). -/
def Line.place (l : Line) (st : StandAddr) : Option Nat :=
  if l.slot.any fun e => decide (e.st = st) then some 0
  else (l.waiting.findIdx? fun e => decide (e.st = st)).map (· + 1)

/-- What Query Stand returns (R143, R146); the time left of a wait is in ticks, by the model's choice (log 49). -/
def Hall.standRow (h : Hall) (st : StandAddr) (s : Stand) : StandRow :=
  let r := h.runningReel st
  let t := (r.map fun r => h.timeToSplice st r s.cfg.ds).getD Config.maxSeconds
  let l := h.line st.line
  { st := st
    stand := s
    runningReel := match r, l with
      | some r, some l =>
        some ⟨h.tracked r, r.estimate, r.remaining, h.runLength r s.cfg.ds, t, h.leadTime st s l t⟩
      | _, _ => none
    eta := h.eta st s t
    needed := l.bind fun l => h.needed st s l t
    waitLeft := (s.handover.bind h.waitEnd).map (· - h.timebase)
    retryLeft := s.retry.map (· - h.timebase)
    prepPlace := l.bind fun l => l.place st }

/-- QUERY_STAND (R143). -/
def Hall.tellStand (st : StandAddr) (h : Hall) : Answer :=
  match h.stand st with
  | some s => h.tell (.stand (h.standRow st s))
  | none => h.refuse .notFound

/-- QUERY_STAND (R143). -/
def execQueryStand (q : Req) (st : StandAddr) (s : State) : Host.Outcome State Fault Refusal :=
  .next (s.request q 0x22 fun h => h.tellStand st)

/-- QUERY_LINE_FEED (R143); a line not configured is answered NOT_FOUND (log 36). -/
def Hall.tellFeed (n : Nat) (h : Hall) : Answer :=
  match h.line n with
  | some l =>
    h.tell (.lineFeed ⟨l.cfg, l.run, l.speed, l.slot, l.waiting,
      (h.standsOf n).map fun st => (st, h.mode st, (h.call st).map (·.state))⟩)
  | none => h.refuse .notFound

/-- QUERY_LINE_FEED (R143). -/
def execQueryLineFeed (q : Req) (line : Nat) (s : State) : Host.Outcome State Fault Refusal :=
  .next (s.request q 0x23 fun h => h.tellFeed line)

end Sys2Proof.Machine
end

