-- ==== Sys2Proof/Machine/Vehicles.lean ====
section
/-! DEFINITION. Host requests on vehicles, missions and the fleet (Chapter 5), kinds 11h to 1Bh. -/

namespace Sys2Proof.Machine

/-! ### Commissioning (R87, R205) -/

/-- Commission a vehicle that is not commissioned; the first one starts the fleet link's silence timer (R87, R205). -/
def Hall.commission (v : Nat) (h : Hall) : Hall :=
  let first := !h.vehicles.any fun p => p.2.commissioned
  let h := h.modVehicle v fun x =>
    { x with commissioned := true, activity := .offline, seated := false, supervision := .reporting, missed := 0, timer := none }
  let h := if first then { h with fleetSilence := some (h.timebase + Config.silenceTicks) } else h
  h.lower ⟨.vehicleUnknown, .vehicle v⟩

/-- Decommission a vehicle; the last one stops the fleet link's silence timer (R81, R87, R205). -/
def Hall.decommission (v : Nat) (h : Hall) : Hall :=
  let h := h.unseat v
  let h := h.modVehicle v fun x =>
    { x with abort := none, kept := none, beforeStop := none, timer := none, commissioned := false, activity := .offline }
  let h := (h.lower ⟨.vehicleSilent, .vehicle v⟩).lower ⟨.vehicleLost, .vehicle v⟩
  if h.vehicles.any fun p => p.2.commissioned then h
  else ({ h with fleetSilence := none } : Hall).lower ⟨.fleetLinkDown, .none⟩

/-- COMMISSION_VEHICLE (R87). -/
def Hall.takeCommission (saving : Bool) (v : Nat) (h : Hall) : Answer :=
  if !inRange 1 24 v then h.refuse .range
  else if saving then h.refuse .busy
  else if (h.vehicle v).commissioned then h.accept .none
  else (h.commission v).accept .none

/-- COMMISSION_VEHICLE (R87). -/
def execCommissionVehicle (q : Req) (v : Nat) (s : State) : Host.Outcome State Fault Refusal :=
  .next (s.request q 0x11 fun h => h.takeCommission s.saving v)

/-- DECOMMISSION_VEHICLE (R87). -/
def Hall.takeDecommission (saving : Bool) (v : Nat) (h : Hall) : Answer :=
  let x := h.vehicle v
  if !inRange 1 24 v then h.refuse .range
  else if saving then h.refuse .busy
  else if !x.commissioned || x.mission.isSome || x.load.isSome then h.refuse .state
  else (h.decommission v).accept .none

/-- DECOMMISSION_VEHICLE (R87). -/
def execDecommissionVehicle (q : Req) (v : Nat) (s : State) : Host.Outcome State Fault Refusal :=
  .next (s.request q 0x12 fun h => h.takeDecommission s.saving v)

/-- A LOST vehicle is cleared (R81, R91). -/
def Hall.clearLost (v : Nat) (h : Hall) : Hall :=
  let h := h.modVehicle v fun x => { x with supervision := .reporting, missed := 0 }
  let h := (h.lower ⟨.vehicleLost, .vehicle v⟩).clearLostZones v
  (((h.setActivity v .idle).direct v .hold).push .arbiter)

/-- CLEAR_LOST_VEHICLE (R91). -/
def Hall.takeClearLost (v : Nat) (h : Hall) : Answer :=
  let x := h.vehicle v
  if !inRange 1 24 v then h.refuse .range
  else if !x.commissioned || decide (x.supervision ≠ .lost) then h.refuse .state
  else (h.clearLost v).accept .none

/-- CLEAR_LOST_VEHICLE (R91). -/
def execClearLostVehicle (q : Req) (v : Nat) (s : State) : Host.Outcome State Fault Refusal :=
  .next (s.request q 0x13 fun h => h.takeClearLost v)

/-! ### Missions by the host (R96, R108) -/

/-- Whether a named drop bay exists (R96 check 1). -/
def Hall.namedExists (h : Hall) (b : Option BayAddr) : Bool := b.all fun b => bayInRange b && (h.bay b).isSome

/-- Whether a named drop bay is free (R96 check 3). -/
def Hall.namedFree (h : Hall) (b : Option BayAddr) : Bool := b.all fun b => (h.bay b).any Bay.free

/-- Answer a request for a mission with its slot, or FULL. -/
def answerSlot (refused : Hall) (r : Hall × Option Nat) : Answer :=
  match r with
  | (h, some slot) => h.accept (.number slot)
  | (_, none) => refused.refuse .full

/-- Manual Mission INTAKE or RETURN of reel `r` (R96, checks 3 and 4). By the model's choice any reel at a BAY location is in a
bay, a QUARANTINED one too (log 68), and the RETURN of a reel on a vehicle takes the host's deadline (log 80). -/
def Hall.manualReel (kind : MissionKind) (ref : ReelRef) (r : Reel) (bay : Option BayAddr) (deadline : Nat) (h : Hall) : Answer :=
  if r.call.isSome || h.named ref || !h.namedFree bay then h.refuse .state
  else
    let drop := bay.or (h.selectFor ref false)
    match kind, r.loc with
    | .intake, .dock d =>
      if r.state = .atDock ∨ r.state = .quarantined then answerSlot h (h.createWithBay (intakeMission ref d deadline) drop)
      else h.refuse .state
    | .ret, .bay b => answerSlot h (h.createWithBay { returnMission ref (some (.bay b)) h.clock false with deadline := deadline } drop)
    | .ret, .vehicle v =>
      let x := h.vehicle v
      if x.mission.isSome || x.abort.isSome || decide (x.supervision ≠ .reporting) then h.refuse .state
      else match h.makeReturn v bay with
        | (h', some slot) => (h'.modMission slot fun m => { m with deadline := deadline }).accept (.number slot)
        | (_, none) => h.refuse .full
    | _, _ => h.refuse .state

/-- The content of a PARK mission (R96). -/
def parkMission (park deadline : Nat) : Mission where
  kind := .park
  reel := none
  pickup := none
  drop := some (.park park)
  cls := .park
  deadline := deadline
  created := 0
  state := .waiting
  vehicle := none
  route := none
  call := none
  holdBack := false

/-- MANUAL_MISSION (R96). -/
def Hall.takeManual (kind : MissionKind) (id : ReelId) (bay : Option BayAddr) (park : Nat) (deadline : Option Nat) (h : Hall) :
    Answer :=
  let due := deadline.getD h.clock
  match kind with
  | .park =>
    if inRange 1 24 park && h.served (.park park) then answerSlot h (h.createMission (parkMission park due))
    else h.refuse .range
  | .intake | .ret =>
    if !h.namedExists bay then h.refuse .range
    else match h.reelById id with
      | some (i, r) => h.manualReel kind ⟨i, id⟩ r bay due
      | none => h.refuse .notFound
  | .deliver | .charge => h.refuse .range

/-- MANUAL_MISSION (R96). -/
def execManualMission (q : Req) (kind : MissionKind) (reel : ReelId) (bay : Option BayAddr) (park : Nat) (deadline : Option Nat)
    (s : State) : Host.Outcome State Fault Refusal :=
  .next (s.request q 0x14 fun h => h.takeManual kind reel bay park deadline)

/-- CANCEL_MISSION (R96, R108). -/
def Hall.takeCancel (slot : Nat) (h : Hall) : Answer :=
  match h.mission slot with
  | none => h.refuse .notFound
  | some m =>
    match h.hostCancel slot m with
    | (h', true) => h'.accept .none
    | (_, false) => h.refuse .state

/-- CANCEL_MISSION (R96, R108). -/
def execCancelMission (q : Req) (slot : Nat) (s : State) : Host.Outcome State Fault Refusal :=
  .next (s.request q 0x15 fun h => h.takeCancel slot)

/-! ### Abort records (R106) -/

/-- What a vehicle does once its abort record has been removed (R103, R106). -/
def Hall.goOn (v : Nat) (h : Hall) : Hall :=
  let x := h.vehicle v
  match x.mission, x.load with
  | some slot, _ => h.resumeMission slot
  | none, some _ => h.returnIfOwed v
  | none, none => (h.chargeTest v).push .arbiter

/-- ACKNOWLEDGE_VEHICLE_ABORT (R106). -/
def Hall.takeAckAbort (v : Nat) (h : Hall) : Answer :=
  if !inRange 1 24 v then h.refuse .range
  else match (h.vehicle v).abort with
    | none => h.refuse .state
    | some r =>
      if (h.vehicle v).supervision = .lost ∧ .vehicleLost ∈ r.causes then
        (h.modVehicle v fun x => { x with abort := some { r with causes := [.vehicleLost] } }).accept (.causes [.vehicleLost])
      else ((h.modVehicle v fun x => { x with abort := none }).goOn v).accept (.causes [])

/-- ACKNOWLEDGE_VEHICLE_ABORT (R106). -/
def execAcknowledgeVehicleAbort (q : Req) (v : Nat) (s : State) : Host.Outcome State Fault Refusal :=
  .next (s.request q 0x16 fun h => h.takeAckAbort v)

/-! ### The all-stop (R110, R112) -/

/-- STOP_FLEET (R110). -/
def execStopFleet (q : Req) (s : State) : Host.Outcome State Fault Refusal :=
  .next (s.request q 0x17 fun h => h.haltFleet.accept .none)

/-- A STOPPED vehicle goes on: its activity before stop, and its kept directive issued again (R112). -/
def Hall.resumeVehicle (h : Hall) (v : Nat) : Hall :=
  let x := h.vehicle v
  if x.activity = .stopped then
    let kind := match x.kept with
      | some ⟨_, .move zones _⟩ => DirKind.move zones (x.through zones)
      | some k => k.kind
      | none => .hold
    (h.modVehicle v fun x => { x with activity := x.beforeStop.getD .idle, beforeStop := none, kept := none }).issue v kind
  else h

/-- Whether any ZONE_CONFLICT entry is active (R71). -/
def Hall.anyConflict (h : Hall) : Bool := h.faults.any fun p => decide (p.2.1.kind = .zoneConflict) && p.2.2.active

/-- RESUME_FLEET (R112). -/
def Hall.takeResume (h : Hall) : Answer :=
  if !h.allStop || h.anyConflict then h.refuse .state
  else
    let h := Hall.resumeWalk { h with allStop := false }
    let h := vehicleNumbers.foldl Hall.resumeVehicle h
    (h.serveChargers.push .arbiter).accept .none

/-- RESUME_FLEET (R112). -/
def execResumeFleet (q : Req) (s : State) : Host.Outcome State Fault Refusal := .next (s.request q 0x18 Hall.takeResume)

/-! ### Fleet parameters and queries (R113) -/

/-- The fleet parameters with the given ones set (R113). -/
def FleetParams.set (p : FleetParams) (a : FleetArgs) : FleetParams where
  reportPeriod := a.reportPeriod.getD p.reportPeriod
  lostCount := a.lostCount.getD p.lostCount
  lowCharge := a.lowCharge.getD p.lowCharge
  resumeCharge := a.resumeCharge.getD p.resumeCharge
  holdTime := a.holdTime.getD p.holdTime
  missionAllowance := a.missionAllowance.getD p.missionAllowance
  pickTime := a.pickTime.getD p.pickTime
  transferTime := a.transferTime.getD p.transferTime
  waitLimit := a.waitLimit.getD p.waitLimit

/-- Whether given parameters lie in their ranges (R113). -/
def fleetArgsFit (a : FleetArgs) : Bool :=
  optIn 250 5000 a.reportPeriod && optStep 50 a.reportPeriod && optIn 2 15 a.lostCount && optIn 10 60 a.lowCharge &&
    optIn 40 100 a.resumeCharge && optIn 0 3600 a.holdTime && optIn 30 1800 a.missionAllowance && optIn 0 600 a.pickTime &&
    optIn 0 600 a.transferTime && optIn 5 120 a.waitLimit

/-- Owe the ceilings of every line (R161). -/
def Hall.oweAll (h : Hall) : Hall := (h.lines.map (·.1)).foldl (fun h n => h.oweCeiling n) h

/-- SET_FLEET_PARAMETERS (R113). -/
def Hall.takeParams (saving : Bool) (a : FleetArgs) (h : Hall) : Answer :=
  let p := h.params.set a
  if !fleetArgsFit a || decide (p.resumeCharge < p.lowCharge + 10) then h.refuse .range
  else if saving then h.refuse .busy
  else ((({ h with params := p } : Hall).oweAll).push .arbiter).accept .none

/-- SET_FLEET_PARAMETERS (R113). -/
def execSetFleetParameters (q : Req) (args : FleetArgs) (s : State) : Host.Outcome State Fault Refusal :=
  .next (s.request q 0x19 fun h => h.takeParams s.saving args)

/-- QUERY_VEHICLE (R113). -/
def Hall.tellVehicle (v : Nat) (h : Hall) : Answer :=
  if inRange 1 24 v then h.tell (.vehicle (h.vehicle v)) else h.refuse .range

/-- QUERY_VEHICLE (R113). -/
def execQueryVehicle (q : Req) (v : Nat) (s : State) : Host.Outcome State Fault Refusal :=
  .next (s.request q 0x1A fun h => h.tellVehicle v)

/-- QUERY_MISSIONS (R113). -/
def Hall.tellMissions (h : Hall) : Answer := h.tell (.missions h.tableOrder (Config.missionSlots - h.missions.length))

/-- QUERY_MISSIONS (R113). -/
def execQueryMissions (q : Req) (s : State) : Host.Outcome State Fault Refusal := .next (s.request q 0x1B Hall.tellMissions)

end Sys2Proof.Machine
end

