-- ==== Sys2Proof/Machine/Zones.lean ====
section
/-! DEFINITION. Host requests on zones, traffic and routes (Chapter 4), kinds 0Dh to 10h. -/

namespace Sys2Proof.Machine

/-! ### Set Zone (R64) -/

/-- Whether the configuration fields of a zone lie in their ranges (R62, R64 check 1); that an attach zone outside 1 to 128 fails
this check, and not check 4, is the model's choice (log 73). -/
def zoneFits (c : ZoneConfig) : Bool :=
  inRange 1 120 c.time &&
    match c.use with
    | .loop p => inRange 1 48 p
    | .aisle n => inRange 1 16 n && inRange 1 128 c.attach
    | .spur st => standInRange st && inRange 1 128 c.attach
    | .dock n => inRange 1 16 n && inRange 1 128 c.attach
    | .charger n | .park n => inRange 1 24 n && inRange 1 128 c.attach

/-- Whether a zone use is a loop position. -/
def usesLoop : ZoneUse → Bool
  | .loop _ => true
  | _ => false

/-- The configuration of a zone as it is kept: a LOOP zone has no attach zone (R62). -/
def keptConfig (c : ZoneConfig) : ZoneConfig := if usesLoop c.use then { c with attach := 0 } else c

/-- Whether a mission in the table has a route that contains the zone, or names a place the zone serves (R64 check 6). -/
def Hall.zoneNamed (h : Hall) (n : Nat) : Bool :=
  h.missions.any fun p =>
    p.2.route.any (fun r => r.zones.contains n) || decide (p.2.pickup.bind h.placeZone = some n) ||
      decide (p.2.drop.bind h.placeZone = some n)

/-- Whether other zones attach to a zone. -/
def Hall.attached (h : Hall) (n : Nat) : Bool :=
  h.zones.any fun p => !usesLoop p.2.cfg.use && decide (p.2.cfg.attach = n)

/-- Whether a request changes more of a configured zone than its traverse time, or removes it (R64 check 6). -/
def recasts (old : Option Zone) (cfg : Option ZoneConfig) : Bool :=
  match old, cfg with
  | some z, some c => decide (z.cfg.use ≠ c.use ∨ z.cfg.attach ≠ c.attach)
  | some _, none => true
  | none, _ => false

/-- Tell the blocks what a change of the zone table has made served (R64, R102). -/
def Hall.zonesChanged (use : Option ZoneUse) (h : Hall) : Hall :=
  let h := match use with
    | some (.aisle _) => h.push .bayWalk
    | some (.charger _) => h.push .chargersFree
    | _ => h
  h.push .retryRoutes

/-- The use a request makes served that was not served before. -/
def Hall.newlyServed (h : Hall) (cfg : Option ZoneConfig) : Option ZoneUse :=
  (cfg.map (·.use)).filter fun u => !h.served u

/-- SET_ZONE (R64); `cfg` absent is NONE. A change of the traverse time alone meets checks 1 to 3 only. -/
def Hall.takeZone (saving : Bool) (n : Nat) (cfg : Option ZoneConfig) (h : Hall) : Answer :=
  let cfg := cfg.map keptConfig
  let old := h.zone n
  if !(inRange 1 128 n && cfg.all zoneFits) then h.refuse .range
  else if saving then h.refuse .busy
  else if old.any fun z => z.holder.isSome || z.hold.isSome || !z.wait.isEmpty then h.refuse .state
  else
    let served := h.newlyServed cfg
    let set := match cfg with
      | some c => (({ h with zones := tput h.zones n ⟨c, none, [], none⟩ } : Hall).zonesChanged served)
      | none => (({ h with zones := tdel h.zones n } : Hall).zonesChanged none)
    if old.isSome && !recasts old cfg then set.accept .none
    else if cfg.any fun c => !usesLoop c.use && (decide (c.attach = n) || !h.isLoop c.attach) then h.refuse .notFound
    else if cfg.any fun c => h.zones.any fun p => decide (p.1 ≠ n ∧ p.2.cfg.use = c.use) then h.refuse .duplicate
    else if recasts old cfg && h.zoneNamed n then h.refuse .state
    else if h.isLoop n && h.attached n && !(cfg.any fun c => usesLoop c.use) then h.refuse .state
    else set.accept .none

/-- SET_ZONE (R64). -/
def execSetZone (q : Req) (number : Nat) (cfg : Option ZoneConfig) (s : State) : Host.Outcome State Fault Refusal :=
  .next (s.request q 0x0D fun h => h.takeZone s.saving number cfg)

/-! ### Queries (R83) -/

/-- How a vehicle holds a zone (R83); a zone that is neither its front, its tail nor granted ahead is told as a fourth way, by
the model's choice (log 75). -/
def Hall.holdingOf (h : Hall) (v z : Nat) : Holding :=
  let x := h.vehicle v
  if x.front = some z then .front
  else if x.tail = some z then .tail
  else if x.ahead.contains z then .ahead
  else .other

/-- QUERY_ZONE (R83). -/
def Hall.tellZone (n : Nat) (h : Hall) : Answer :=
  if inRange 1 128 n then
    h.tell (.zone n ((h.zone n).map fun z =>
      { cfg := z.cfg, holder := z.holder, wait := z.wait, hold := z.hold.map fun c => (c.vehicle, c.expiry - h.clock)
        holding := z.holder.map fun v => h.holdingOf v n }))
  else h.refuse .range

/-- QUERY_ZONE (R83). -/
def execQueryZone (q : Req) (number : Nat) (s : State) : Host.Outcome State Fault Refusal :=
  .next (s.request q 0x0E fun h => h.tellZone number)

/-- QUERY_TRAFFIC (R83); of a charger hold the zone alone is told, by the model's choice (log 75). -/
def Hall.tellTraffic (h : Hall) : Answer :=
  h.tell (.traffic h.loopSize h.loopComplete h.loopCount
    ((vehicleNumbers.filter fun v => (h.vehicle v).commissioned).map fun v =>
      let x := h.vehicle v
      ⟨v, x.seated, x.front, x.tail, x.ahead, h.waitsFor v, h.heldCharger v⟩))

/-- QUERY_TRAFFIC (R83). -/
def execQueryTraffic (q : Req) (s : State) : Host.Outcome State Fault Refusal := .next (s.request q 0x0F Hall.tellTraffic)

/-- QUERY_ROUTE (R66, R83): no route is answered with a route of 0 zones (11.2). -/
def Hall.tellRoute (start dest : Nat) (h : Hall) : Answer :=
  if inRange 1 128 start && inRange 1 128 dest then
    let zones := (h.route start dest).getD []
    h.tell (.route zones (h.routeTime zones))
  else h.refuse .range

/-- QUERY_ROUTE (R66, R83). -/
def execQueryRoute (q : Req) (start dest : Nat) (s : State) : Host.Outcome State Fault Refusal :=
  .next (s.request q 0x10 fun h => h.tellRoute start dest)

end Sys2Proof.Machine
end

