-- ==== Sys2Proof/Machine/Stored.lean ====
section
/-! DEFINITION. The Configuration Store (11.6): the current image, recording the active configuration, and reloading it. -/

namespace Sys2Proof.Machine

/-! ### Banks (R215, R218) -/

/-- The record of a bank. -/
def Store.bank (x : Store) : BankName → Option Bank
  | .a => x.bankA
  | .b => x.bankB

/-- Put a bank. -/
def Store.setBank (x : Store) (n : BankName) (b : Option Bank) : Store :=
  match n with
  | .a => { x with bankA := b }
  | .b => { x with bankB := b }

/-- The bank that holds the current image: valid, with the higher generation (R215). -/
def Store.currentName (x : Store) : Option BankName :=
  match x.bankA, x.bankB with
  | some a, some b => if a.generation < b.generation then some .b else some .a
  | some _, none => some .a
  | none, some _ => some .b
  | none, none => none

/-- The current image with its generation (R215). -/
def Store.current (x : Store) : Option Bank := x.currentName.bind x.bank

/-- The bank a save writes: the one that does not hold the current image (R218); bank A of two invalid ones (log 9). -/
def Store.target (x : Store) : BankName :=
  match x.currentName with
  | some .a => .b
  | some .b | none => .a

/-- The generation a save will write: the current generation plus 1, held at the field's largest value, or 1 (R218, log 9). -/
def Store.nextGeneration (x : Store) : Nat :=
  match x.current with
  | some b => satAdd Config.max32 b.generation 1
  | none => 1

/-- Begin a save: the bank being written has a bad CRC from now on (R218). -/
def Store.begin (x : Store) (image : Image) : Store :=
  { x.setBank x.target none with save := some ⟨x.nextGeneration, image, x.target⟩ }

/-- End a save (R218). -/
def Store.complete (x : Store) (v : Save) (ok : Bool) : Store :=
  { x.setBank v.target (if ok then some ⟨v.generation, v.image⟩ else none) with save := none }

/-- A reset abandons a save; the bank being written stays without a valid CRC (R218). -/
def Store.abandon (x : Store) : Store := { x with save := none }

/-! ### The active configuration (11.6) -/

/-- The active configuration as an image (11.6). -/
def Hall.image (h : Hall) : Image where
  grades := h.grades
  bays := h.bays.map fun p => (p.1, ⟨p.2.kind, p.2.blocked⟩)
  aisles := h.aisles
  zones := h.zones.map fun p => (p.1, p.2.cfg)
  commissioned := (h.vehicles.filter fun p => p.2.commissioned).map (·.1)
  params := h.params
  lines := h.lines.filterMap fun p => (h.count p.1).map fun c => (p.1, (p.2.cfg, c.cfg))
  stands := h.stands.map fun p => (p.1, (p.2.cfg, p.2.inService))
  massTolerance := h.massTolerance

/-! ### Reload (R219) -/

/-- Whether a stand's plan or an aisle's assignment names a grade (R23). -/
def Hall.gradeNamed (h : Hall) (g : Nat) : Bool :=
  (h.stands.any fun p => decide (p.2.cfg.grade = g)) || h.aisles.any fun p => decide (p.2 = g)

/-- The grade a reload leaves at a number (R23). -/
def Hall.reloadedGrade (h : Hall) (img : Image) (inUse : Bool) (g : Nat) : Option Grade :=
  match tget h.grades g, tget img.grades g with
  | some old, some new =>
    some (if inUse then { old with name := new.name, hours := new.hours, threshold := new.threshold } else new)
  | some old, none => if inUse || h.gradeNamed g then some old else none
  | none, new => new

/-- Replace the grade table; the flags of a grade no longer defined go, and STOCK_LOW follows (R23, R41, log 41). -/
def Hall.reloadGrades (img : Image) (h : Hall) : Hall :=
  let grades := (List.range 16).filterMap fun g =>
    (h.reloadedGrade img (h.reels.any fun p => decide (p.2.grade = g)) g).map fun x => (g, x)
  let h := { h with grades := grades, watch := h.watch.filter fun p => (tget grades p.1).isSome }
  if h.watch.any fun p => p.2.low then h else h.lower ⟨.stockLow, .none⟩

/-- Whether a bay keeps its kind through a reload: it is occupied or reserved (R61). -/
def Bay.kept (b : Bay) : Bool := b.occupant.isSome || b.reserved.isSome

/-- Replace the bays and the aisle assignments; one walk follows (R61). -/
def Hall.reloadBays (img : Image) (h : Hall) : Hall :=
  let kept : Table Bay := (h.bays.filter fun p => p.2.kept).map fun p =>
    (p.1, { p.2 with blocked := ((tget img.bays p.1).map (·.blocked)).getD p.2.blocked })
  let bays := (img.bays.filter fun p => (tget kept p.1).isNone).foldl
    (fun t p => tput t p.1 ⟨p.2.kind, p.2.blocked, none, none⟩) kept
  ({ h with bays := bays, aisles := img.aisles } : Hall).push .bayWalk

/-- Whether a zone keeps its configuration through a reload (R85). -/
def Hall.keepsZone (h : Hall) (p : Nat × Zone) : Bool :=
  p.2.holder.isSome || p.2.hold.isSome || !p.2.wait.isEmpty || h.missions.any fun m => m.2.route.any fun r => r.zones.contains p.1

/-- Whether a zone may stand in a table: it is a LOOP zone or attaches to one (R85). -/
def zoneAttaches (t : Table Zone) (z : Zone) : Bool :=
  usesLoop z.cfg.use || (tget t z.cfg.attach).any fun x => usesLoop x.cfg.use

/-- The zone table a reload leaves (R85). -/
def Hall.reloadedZones (h : Hall) (img : Image) : Table Zone :=
  let kept := h.zones.filter h.keepsZone
  let loaded := img.zones.filter fun p => (tget kept p.1).isNone && !kept.any fun q => decide (q.2.cfg.use = p.2.use)
  let merged := loaded.foldl (fun t p => tput t p.1 ⟨p.2, none, [], none⟩) kept
  merged.filter fun p => (tget kept p.1).isSome || zoneAttaches merged p.2

/-- Replace the zone table; aisles and chargers that have become served are told (R64, R85, R102). -/
def Hall.reloadZones (img : Image) (h : Hall) : Hall :=
  (({ h with zones := h.reloadedZones img } : Hall).push .chargersFree).push .retryRoutes

/-- Commission or decommission one vehicle as the image says (R219). -/
def Hall.reloadVehicle (img : Image) (h : Hall) (v : Nat) : Hall :=
  let x := h.vehicle v
  if img.commissioned.contains v then (if x.commissioned then h else h.commission v)
  else if x.commissioned && x.mission.isNone && x.load.isNone then h.decommission v
  else h

/-- Give one line its image (R117, R162, R181, R219). -/
def Hall.reloadLine (h : Hall) (p : Nat × (LineCfg × CountCfg)) : Hall :=
  if (h.line p.1).isSome then (h.refeedLine p.1 p.2.1).recount p.1 p.2.2 else h.configureLine p.1 p.2.1 p.2.2

/-- Put a stand in or out of service as its image says (R219); a SPLICING stand is not taken out (R120, log 48). -/
def Hall.reloadService (st : StandAddr) (inService : Bool) (h : Hall) : Hall :=
  match h.stand st with
  | some s =>
    if inService then (if s.mode = .outOfService then h.intoService st else h)
    else if s.mode = .outOfService ∨ s.mode = .splicing then h else h.outOfService st
  | none => h

/-- Give one stand its image (R119, R219). -/
def Hall.reloadStand (h : Hall) (p : Nat × (StandCfg × Bool)) : Hall :=
  if (tget h.stands p.1).isSome then (h.reconfigureStand (standOfKey p.1) p.2.1).reloadService (standOfKey p.1) p.2.2
  else { h with stands := tput h.stands p.1 (Stand.fresh p.2.1 p.2.2) }

/-- Replace the active configuration with an image, record by record (R219). -/
def Hall.reload (img : Image) (h : Hall) : Hall :=
  let h : Hall := { h with params := img.params, massTolerance := img.massTolerance, fromDefaults := false }
  let h := (h.reloadBays img).reloadZones img
  let h := vehicleNumbers.foldl (Hall.reloadVehicle img) h
  let h := img.stands.foldl Hall.reloadStand (img.lines.foldl Hall.reloadLine h)
  let h := (h.reloadGrades img).oweAll
  ((h.lines.map (·.1)).foldl (fun h n => h.evalHold n) h).lower ⟨.configDefaults, .none⟩

end Sys2Proof.Machine
end

