-- ==== Sys2Proof/Machine/Part.lean ====
section
/-! DEFINITION. Host requests on the part as a whole (Chapter 11), kinds 33h to 38h, and SAVE_COMPLETE. -/

namespace Sys2Proof.Machine

/-! ### Query Status (R213) -/

/-- What Query Status returns (R213). -/
def Hall.statusRow (x : Store) (h : Hall) : StatusRow where
  clock := h.clock
  cause := h.lastReset
  generation := x.current.map (·.generation)
  fromDefaults := h.fromDefaults
  saving := x.save.isSome
  allStop := h.allStop
  errors := h.links.map fun p => p.2.errors
  fleetDown := (h.fault ⟨.fleetLinkDown, .none⟩).active
  linesDown := h.lines.map fun p => (p.1, h.linkDown p.1)
  queued := h.notices.length
  dropped := h.dropped
  active := h.activeCount
  latched := h.latchedCount

/-- QUERY_STATUS (R213): the dropped count is then set to 0. -/
def Hall.takeStatusQuery (x : Store) (h : Hall) : Answer := ⟨{ h with dropped := 0 }, .ok, .status (h.statusRow x)⟩

/-- QUERY_STATUS (R213). -/
def execQueryStatus (q : Req) (s : State) : Host.Outcome State Fault Refusal :=
  .next (s.request q 0x33 fun h => h.takeStatusQuery s.store)

/-! ### Set Clock, Set Mass Tolerance (R216, R220) -/

/-- SET_CLOCK (R220). -/
def Hall.takeClock (v : Nat) (h : Hall) : Answer :=
  (({ h with clock := v, secondFrom := h.timebase } : Hall).clockMoved).accept (.number h.clock)

/-- SET_CLOCK (R220). -/
def execSetClock (q : Req) (value : Nat) (s : State) : Host.Outcome State Fault Refusal :=
  .next (s.request q 0x34 fun h => h.takeClock value)

/-- SET_MASS_TOLERANCE (R216). -/
def Hall.takeTolerance (saving : Bool) (v : Nat) (h : Hall) : Answer :=
  if !inRange 1 25 v then h.refuse .range
  else if saving then h.refuse .busy
  else ({ h with massTolerance := v } : Hall).accept .none

/-- SET_MASS_TOLERANCE (R216). -/
def execSetMassTolerance (q : Req) (value : Nat) (s : State) : Host.Outcome State Fault Refusal :=
  .next (s.request q 0x35 fun h => h.takeTolerance s.saving value)

/-! ### Save and Reload Configuration (R218, R219) -/

/-- Whether a request is one the HLI hands to its owning block (R210, log 11). -/
def reqTaken (q : Req) (kind : Nat) : Bool := decide (q.len = bodyLength kind) && q.listed

/-- SAVE_CONFIGURATION (R218). -/
def State.saveConfiguration (q : Req) (s : State) : State :=
  if !reqTaken q 0x36 || s.saving then s.request q 0x36 fun h => h.refuse .busy
  else { s with store := s.store.begin s.hall.image }.request q 0x36 fun h => h.tell (.number s.store.nextGeneration)

/-- SAVE_CONFIGURATION (R218). -/
def execSaveConfiguration (q : Req) (s : State) : Host.Outcome State Fault Refusal := .next (s.saveConfiguration q)

/-- RELOAD_CONFIGURATION (R219). -/
def Hall.takeReload (x : Store) (h : Hall) : Answer :=
  if x.save.isSome then h.refuse .busy
  else if !h.allStop || h.lines.any fun p => decide (p.2.run ≠ .stopped) then h.refuse .state
  else match x.current with
    | none => h.refuse .notFound
    | some b => (h.reload b.image).accept (.number b.generation)

/-- RELOAD_CONFIGURATION (R219). -/
def execReloadConfiguration (q : Req) (s : State) : Host.Outcome State Fault Refusal :=
  .next (s.request q 0x37 fun h => h.takeReload s.store)

/-- The end of a save: the read-back decides (R218). -/
def State.saveDone (x : Save) (ok : Bool) (s : State) : State :=
  let h := s.hall.notify (.configurationSaved ok x.generation)
  { s with store := s.store.complete x ok, hall := if ok then h.lower ⟨.configDefaults, .none⟩ else h }

/-- SAVE_COMPLETE (R218), while a save is in progress (log 3). -/
def execSaveComplete (readBackOk : Bool) (s : State) : Host.Outcome State Fault Refusal :=
  .next (match s.store.save with
    | some x => s.saveDone x readBackOk
    | none => s)

/-! ### Restart (R221) -/

/-- RESTART (R221): the reply is OK; the restart is made when it has been sent, by COLD_RESET or WARM_RESTART (log 25). -/
def State.askRestart (q : Req) (mode : RestartMode) (s : State) : State :=
  let s' := s.request q 0x38 fun h => h.tell .none
  if reqTaken q 0x38 then { s' with host := { s'.host with restarts := s'.host.restarts ++ [mode] } } else s'

/-- RESTART (R221). -/
def execRestart (q : Req) (mode : RestartMode) (s : State) : Host.Outcome State Fault Refusal := .next (s.askRestart q mode)

end Sys2Proof.Machine
end

