-- ==== Sys2Proof/Machine/Press.lean ====
section
/-! DEFINITION. LINE STATUS, DIAMETER, WEB BREAK, CONSOLE and STAND STATUS from a press line (Chapters 6 to 8). -/

namespace Sys2Proof.Machine

/-! ### LINE STATUS (R7, R118, R165, R174, R175, R178) -/

/-- The run state after a LINE STATUS: BROKEN stays until RUNNING with a speed above 0 is reported (R157). -/
def runAfter (before reported : RunState) (speed : Nat) : RunState :=
  if before = .broken then (if reported = .running ∧ 0 < speed then .running else .broken) else reported

/-- Whether a LINE STATUS turns the run state from STOPPED to RUNNING while an edition is open (R175). -/
def Hall.starts (h : Hall) (n : Nat) (before reported : RunState) : Bool :=
  decide (before = .stopped ∧ reported = .running) && (h.count n).any fun c => c.edition.isSome

/-- Offer the START interval from the first copy the LINE STATUS counts (R175, log 17). -/
def Hall.offerStart (n : Nat) (h : Hall) : Hall :=
  match h.count n with
  | some c => h.offer n (c.counted + 1) none .start
  | none => h

/-- The end of a break: the OPEN BREAK interval takes its end after the restart window (R174). -/
def Hall.endBreak (n : Nat) (h : Hall) : Hall :=
  match h.count n with
  | some c => h.closeOpen n (c.counted + 1 + c.cfg.restartWindow) .brk
  | none => h

/-- The Waste Counter's part of a LINE STATUS, the run state and speed being taken with it (R165, R174, R175, R178). -/
def Hall.countStatus (n : Nat) (l : Line) (run : RunState) (speed : Nat) (gate : GateCount) (h : Hall) : Hall :=
  let after := runAfter l.run run speed
  let h := h.forget n
  let h := (if h.starts n l.run run then h.offerStart n else h).takeCount n gate
  let h := h.modLine n fun l => { l with run := after, speed := speed }
  let h := if l.run = .broken ∧ after = .running then h.endBreak n else h
  (h.schedule n).testStart n

/-- Make the estimate step of a stand whose running reel is in estimate mode (R7, R123). No step is made for a stand out of
service (R120); a step the Register refuses books nothing and leaves the carry. -/
def Hall.estimateStep (speed dt : Nat) (h : Hall) (st : StandAddr) : Hall :=
  match h.stand st with
  | none => h
  | some s =>
    match s.running with
    | none => h
    | some arm =>
      match (s.arm arm).reel with
      | none => h
      | some ref =>
        match h.reel ref with
        | none => h
        | some r =>
          if s.mode = .outOfService ∨ (s.arm arm).state ≠ .running ∨ !r.estimate then h
          else
            match h.askEstimateStep st arm ref (stepMetres speed dt (s.arm arm).carry) with
            | (h, none) => h
            | (h, some m) =>
              let h := h.modArm st arm fun a => { a with carry := stepCarry speed dt a.carry }
              (h.bookPrinted st.line m r.width r.grade).diameterTests st

/-- Whether a stand has a running arm. -/
def Hall.runs (h : Hall) (st : StandAddr) : Bool := (h.stand st).any fun s => s.running.isSome

/-- The interval of an estimate step in milliseconds: since the previous LINE STATUS, at most 2,000, and 0 where none counts
(R7). -/
def Hall.stepInterval (h : Hall) (last : Option Nat) : Nat :=
  match last with
  | some t => min Config.maxStepMs (msSince h.timebase t)
  | none => 0

/-- The Feed Planner's part of a LINE STATUS: the estimate steps, the call tests and the splice tests (R118, R123, R125,
R150). -/
def Hall.feedStatus (n : Nat) (last : Option Nat) (speed : Nat) (h : Hall) : Hall :=
  let dt := h.stepInterval last
  let h := h.modLine n fun l => { l with lastStatus := some h.timebase }
  let h := (h.standsOf n).foldl (Hall.estimateStep speed dt) h
  let h := ((h.standsOf n).filter h.runs).foldl (fun h st => h.push (.callTest st)) h
  (h.standsOf n).foldl (fun h st => h.spliceTest st) h

/-- A LINE STATUS of a line; one of a line not configured is disregarded (R118, R165, log 12). -/
def Hall.takeLineStatus (n : Nat) (run : RunState) (speed : Nat) (gate : GateCount) (h : Hall) : Hall :=
  match h.line n with
  | none => h
  | some l =>
    let v := min Config.maxSpeed speed
    (h.countStatus n l run v gate).feedStatus n l.lastStatus v

/-- LINE_STATUS (R118, R165, R214). -/
def execLineStatus (f : Frame) (line : Nat) (run : RunState) (speed : Nat) (gate : GateCount) (s : State) :
    Host.Outcome State Fault Refusal :=
  .next { s with hall := s.hall.lineFrame f lineStatusLength (decide (line = f.link)) fun h => h.takeLineStatus line run speed gate }

/-! ### DIAMETER (R121, R122, R123) -/

/-- The candidate diameter of a sample (R121). -/
def candidate (raw : Nat) (offset : Int) (core : Nat) : Nat := (max (core : Int) (raw + offset)).toNat

/-- A stand's running reel enters estimate mode (R123). -/
def Hall.failSensor (st : StandAddr) (arm : ArmName) (ref : ReelRef) (h : Hall) : Hall :=
  let h := h.raise (standFault .sensorFailed st)
  let h := (h.askEnterEstimate st arm ref).1
  (h.modArm st arm fun a => { a with carry := 0 }).modStand st fun s => { s with implausible := 0 }

/-- An implausible sample (R121). -/
def Hall.implausibleSample (st : StandAddr) (arm : ArmName) (ref : ReelRef) (h : Hall) : Hall :=
  let h := h.pulse (standFault .diameterImplausible st)
  let h := h.modStand st fun s => { s with implausible := s.implausible + 1 }
  if (h.stand st).any fun s => decide (3 ≤ s.implausible) then h.failSensor st arm ref else h

/-- An accepted sample: the diameter step, its booking and the tests (R122). -/
def Hall.acceptSample (st : StandAddr) (arm : ArmName) (ref : ReelRef) (r : Reel) (d : Nat) (h : Hall) : Hall :=
  match h.askDiameterStep st arm ref d with
  | (h, some m) =>
    ((h.bookPrinted st.line m r.width r.grade).modStand st fun s => { s with implausible := 0 }).diameterTests st
  | (h, none) => h

/-- A sample of a stand's running reel, with candidate `d` (R121). The call test follows every sample taken. -/
def Hall.takeSample (st : StandAddr) (arm : ArmName) (ref : ReelRef) (r : Reel) (maxStep d : Nat) (h : Hall) : Hall :=
  (if r.accepted ≤ d + maxStep ∧ d ≤ r.accepted then h.acceptSample st arm ref r d
  else if r.accepted < d ∧ d ≤ r.accepted + 3 then h
  else h.implausibleSample st arm ref).push (.callTest st)

/-- A DIAMETER of a stand (R121). -/
def Hall.takeDiameter (st : StandAddr) (arm : ArmName) (raw : Nat) (h : Hall) : Hall :=
  match h.stand st with
  | none => h
  | some s =>
    if s.mode = .outOfService ∨ s.mode = .unknown ∨ (s.arm arm).state ≠ .running then h
    else
      match (s.arm arm).reel with
      | none => h
      | some ref =>
        match h.reel ref with
        | none => h
        | some r => if r.estimate then h else h.takeSample st arm ref r s.cfg.maxStep (candidate raw s.cfg.offset r.core)

/-- DIAMETER (R121, R214). -/
def execDiameter (f : Frame) (st : StandAddr) (arm : ArmName) (raw : Nat) (s : State) : Host.Outcome State Fault Refusal :=
  .next { s with hall := s.hall.lineFrame f diameterLength (frameFits f st) fun h => h.takeDiameter st arm raw }

/-! ### WEB BREAK (R157, R174) -/

/-- A WEB BREAK of a line; a repeat makes no interval and is not counted (R157, R174, R191). -/
def Hall.takeBreak (n : Nat) (h : Hall) : Hall :=
  match h.line n with
  | none => h
  | some l =>
    let h := (h.modLine n fun l => { l with run := .broken }).breakSplices n
    let h := (h.standsOf n).foldl (fun h st => h.modStand st fun s => { s with rolesDue := true }) h
    if l.run = .broken then h else (h.openBreak n).bookBreak n

/-- WEB_BREAK (R157, R214). -/
def execWebBreak (f : Frame) (line : Nat) (s : State) : Host.Outcome State Fault Refusal :=
  .next { s with hall := s.hall.lineFrame f webBreakLength (decide (line = f.link)) fun h => h.takeBreak line }

/-! ### CONSOLE (R151, R175, R176) -/

/-- The OPEN interval of a line takes end C + 1 when its cause is `cause` (R175, R176). -/
def Hall.endOpenHere (n : Nat) (cause : Cause) (h : Hall) : Hall :=
  match h.count n with
  | some c => h.closeOpen n (c.counted + 1) cause
  | none => h

/-- CONSOLE_GOOD (R175, R214). -/
def execConsoleGood (f : Frame) (line : Nat) (s : State) : Host.Outcome State Fault Refusal :=
  .next { s with hall := s.hall.lineFrame f consoleLength (decide (line = f.link)) fun h => h.endOpenHere line .start }

/-- An operator's diversion begins at the next copy (R176). -/
def Hall.divertOn (n : Nat) (h : Hall) : Hall :=
  match h.count n with
  | some c => h.divert n (c.counted + 1) none .operator
  | none => h

/-- CONSOLE_DIVERT_ON (R176, R214). -/
def execConsoleDivertOn (f : Frame) (line : Nat) (s : State) : Host.Outcome State Fault Refusal :=
  .next { s with hall := s.hall.lineFrame f consoleLength (decide (line = f.link)) fun h => h.divertOn line }

/-- CONSOLE_DIVERT_OFF (R176, R214). -/
def execConsoleDivertOff (f : Frame) (line : Nat) (s : State) : Host.Outcome State Fault Refusal :=
  .next { s with hall := s.hall.lineFrame f consoleLength (decide (line = f.link)) fun h => h.endOpenHere line .operator }

/-- CONSOLE SPLICE RETRY of a stand (R151). -/
def Hall.retrySplice (st : StandAddr) (h : Hall) : Hall :=
  match h.stand st with
  | some s =>
    if s.inService ∧ (s.mode = .locked ∨ s.mode = .starved) then
      (h.modStand st fun s => { s with attempts := 0, retry := none }).spliceTest st
    else h
  | none => h

/-- CONSOLE_SPLICE_RETRY (R151, R214). -/
def execConsoleSpliceRetry (f : Frame) (line stand : Nat) (s : State) : Host.Outcome State Fault Refusal :=
  .next { s with hall := s.hall.lineFrame f consoleLength (frameFits f ⟨line, stand⟩) fun h => h.retrySplice ⟨line, stand⟩ }

/-! ### STAND STATUS (R139, R157) -/

/-- STAND_STATUS (R139, R214). -/
def execStandStatus (f : Frame) (st : StandAddr) (a b : ArmReading) (s : State) : Host.Outcome State Fault Refusal :=
  .next { s with hall := s.hall.lineFrame f standStatusLength (frameFits f st) fun h => h.takeStatus st a b }

end Sys2Proof.Machine
end

