-- ==== Sys2Proof/Machine/Racks.lean ====
section
/-! DEFINITION. Host requests on bays and aisles (Chapter 3), kinds 09h to 0Ch. -/

namespace Sys2Proof.Machine

/-- SET_BAY (R49); `kind` absent is NONE. -/
def Hall.takeBay (saving : Bool) (b : BayAddr) (kind : Option BayKind) (blocked : Bool) (h : Hall) : Answer :=
  if !bayInRange b then h.refuse .range
  else if saving then h.refuse .busy
  else
    match h.bay b, kind with
    | none, none => h.accept .none
    | none, some k => (h.configureBay b ⟨k, blocked, none, none⟩).accept .none
    | some x, k =>
      if x.occupant.isNone && x.reserved.isNone then
        match k with
        | some k => (h.configureBay b { x with kind := k, blocked := blocked }).accept .none
        | none => ({ h with bays := tdel h.bays (bayKey b) } : Hall).accept .none
      else if decide (k = some x.kind) && !(blocked && !x.blocked) then
        (h.configureBay b { x with blocked := blocked }).accept .none
      else h.refuse .state

/-- SET_BAY (R49). -/
def execSetBay (q : Req) (bay : BayAddr) (kind : Option BayKind) (blocked : Bool) (s : State) :
    Host.Outcome State Fault Refusal :=
  .next (s.request q 0x09 fun h => h.takeBay s.saving bay kind blocked)

/-- The grade assignments with aisle `n` set; ANY is not listed (R50). -/
def setAssignment (t : Table Nat) (n : Nat) (g : Option Nat) : Table Nat :=
  match g with
  | some g => tput t n g
  | none => tdel t n

/-- SET_AISLE (R50); `grade` absent is ANY. -/
def Hall.takeAisle (saving : Bool) (n : Nat) (grade : Option Nat) (h : Hall) : Answer :=
  if !(inRange 1 16 n && optIn 0 15 grade) then h.refuse .range
  else if grade.any fun g => (tget h.grades g).isNone then h.refuse .notFound
  else if saving then h.refuse .busy
  else
    let changed := decide (tget h.aisles n ≠ grade)
    let h := { h with aisles := setAssignment h.aisles n grade }
    (if changed then h.push .bayWalk else h).accept .none

/-- SET_AISLE (R50). -/
def execSetAisle (q : Req) (aisle : Nat) (grade : Option Nat) (s : State) : Host.Outcome State Fault Refusal :=
  .next (s.request q 0x0A fun h => h.takeAisle s.saving aisle grade)

/-- QUERY_BAY (R59). -/
def Hall.tellBay (b : BayAddr) (h : Hall) : Answer :=
  if bayInRange b then h.tell (.bay (h.bay b) (tget h.aisles b.aisle) (h.served (.aisle b.aisle))) else h.refuse .range

/-- QUERY_BAY (R59). -/
def execQueryBay (q : Req) (bay : BayAddr) (s : State) : Host.Outcome State Fault Refusal :=
  .next (s.request q 0x0B fun h => h.tellBay bay)

/-- The counts of the bays of one kind in an aisle (R59). -/
def countBays (bays : List Bay) (k : BayKind) : BayCounts :=
  let l := bays.filter fun x => decide (x.kind = k)
  { configured := l.length
    occupied := (l.filter fun x => x.occupant.isSome).length
    reserved := (l.filter fun x => x.reserved.isSome).length
    blocked := (l.filter fun x => x.blocked).length
    free := (l.filter Bay.free).length }

/-- One row of Query Aisles (R59). -/
def Hall.aisleRow (h : Hall) (n : Nat) : AisleRow :=
  let bays := (h.bays.filter fun p => decide ((bayOfKey p.1).aisle = n)).map (·.2)
  ⟨n, tget h.aisles n, h.served (.aisle n), countBays bays .normal, countBays bays .quarantine⟩

/-- QUERY_AISLES (R59). -/
def Hall.tellAisles (h : Hall) : Answer :=
  h.tell (.aisles ((List.range 16).map fun i => h.aisleRow (i + 1)) (h.missions.filter fun p => p.2.waitsForBay).length)

/-- QUERY_AISLES (R59). -/
def execQueryAisles (q : Req) (s : State) : Host.Outcome State Fault Refusal := .next (s.request q 0x0C Hall.tellAisles)

end Sys2Proof.Machine
end

