-- ==== Sys2Proof/Machine/Links.lean ====
section
/-! DEFINITION. The frame envelope and its checks, unknown requests and the Host Link transmitter (11.1 to 11.3). -/

namespace Sys2Proof.Machine

/-! ### The envelope (R207, R208) -/

/-- The start byte of a frame (11.1). -/
def startByte : Byte := 0xC3

/-- One bit step of the CRC-16, generator polynomial x¹⁶ + x¹² + x⁵ + 1 (R207). -/
def crcBit (c : BitVec 16) : BitVec 16 := if c.msb then (c <<< 1) ^^^ 0x1021 else c <<< 1

/-- The CRC-16 after one byte, most significant bit first (R207). -/
def crcByte (c : BitVec 16) (b : Byte) : BitVec 16 :=
  crcBit (crcBit (crcBit (crcBit (crcBit (crcBit (crcBit (crcBit (c ^^^ (b.zeroExtend 16 <<< 8)))))))))

/-- The CRC-16 of a list of bytes, started from FFFFh (R207). -/
def crc16 (bs : List Byte) : BitVec 16 := bs.foldl crcByte 0xFFFF

/-- A 16-bit value as two bytes, high byte first (11.1). -/
def bytes16 (w : BitVec 16) : List Byte := [(w >>> 8).truncate 8, w.truncate 8]

/-- A frame in its envelope (R207). -/
def envelope (tag kind : Byte) (body : List Byte) : List Byte :=
  let inner := bytes16 (BitVec.ofNat 16 (body.length + 2)) ++ tag :: kind :: body
  startByte :: inner ++ bytes16 (crc16 inner)

/-- The length field of the bytes of a frame, once both its bytes are there (11.1). -/
def frameLength : List Byte → Option Nat
  | _ :: hi :: lo :: _ => some (hi.toNat * 256 + lo.toNat)
  | _ => none

/-- Whether a link carries a kind inward (R208, R211, 11.4). -/
def carriedInward (l : Link) (kind : Byte) : Bool :=
  match l with
  | .host => decide (1 ≤ kind.toNat) && decide (kind.toNat ≤ 127)
  | .fleet => decide (kind.toNat = 1)
  | .line _ => decide (1 ≤ kind.toNat) && decide (kind.toNat ≤ 7)

/-- Whether the bytes of a whole frame of length `n` pass the CRC and kind checks (R208). -/
def frameGood (l : Link) (bs : List Byte) (n : Nat) : Bool :=
  let inner := (bs.drop 1).take (n + 2)
  decide ((bs.drop (n + 3)).take 2 = bytes16 (crc16 inner)) && carriedInward l (inner.getD 3 0)

/-- Whether received bytes, from a start byte on, are discarded: a length outside 2 to 252, or all the frame's bytes there
with a wrong CRC or a kind not carried inward (R208). -/
def frameDiscarded (l : Link) (bs : List Byte) : Bool :=
  decide (bs.head? = some startByte) &&
    match frameLength bs with
    | some n =>
      if n < 2 ∨ 252 < n then true else decide (n + 5 ≤ bs.length) && !frameGood l bs n
    | none => false

/-- Whether received bytes, from a start byte on, are a frame whose next byte has not arrived (R208). -/
def frameUnfinished (bs : List Byte) : Bool :=
  decide (bs.head? = some startByte) &&
    match frameLength bs with
    | some n => decide (2 ≤ n) && decide (n ≤ 252) && decide (bs.length < n + 5)
    | none => true

/-! ### Unknown requests (R211) -/

/-- Whether a kind is in the request range and absent from the catalogue (R211). -/
def unknownKind (kind : Nat) : Bool := inRange 0x39 0x7F kind

/-- UNKNOWN_REQUEST (R211). -/
def execUnknownRequest (tag : Byte) (kind : Nat) (s : State) : Host.Outcome State Fault Refusal :=
  .next (if unknownKind kind then s.reply ⟨tag, 0, true⟩ kind .unknown .none else s)

/-! ### The Host Link transmitter (R210, R212) -/

/-- The transmitter begins a frame: a reply waiting to be sent, or else the oldest notice (R210, R212). -/
def State.transmit (s : State) : State :=
  match s.host.replies with
  | r :: rest => { s with host := { s.host with replies := rest }, hall := { s.hall with sent := s.hall.sent ++ [.reply r] } }
  | [] =>
    match s.hall.notices with
    | n :: rest => { s with hall := { s.hall with notices := rest, sent := s.hall.sent ++ [.notice n] } }
    | [] => s

/-- HOST_LINK_TRANSMIT (R210). -/
def execHostLinkTransmit (s : State) : Host.Outcome State Fault Refusal := .next s.transmit

end Sys2Proof.Machine
end

