-- ==== Sys2Proof/Machine/Receive.lean ====
section
/-! DEFINITION. The commands that the bytes of received frames spell (R209, R211, 11.4). -/

namespace Sys2Proof.Machine

/-! ### Fields of a body (R209) -/

/-- The byte at an offset of a body; 0 beyond its end. -/
def u8 (b : List Byte) (i : Nat) : Nat := (b.getD i 0).toNat

/-- Two bytes, most significant first. -/
def u16 (b : List Byte) (i : Nat) : Nat := u8 b i * 256 + u8 b (i + 1)

/-- Four bytes, most significant first. -/
def u32 (b : List Byte) (i : Nat) : Nat := u16 b i * 65536 + u16 b (i + 2)

/-- One byte in two's complement. -/
def s8 (b : List Byte) (i : Nat) : Int := (b.getD i 0).toInt

/-- A field of `w` bytes. -/
def chunk (b : List Byte) (i w : Nat) : List Byte := (b.drop i).take w

/-- A reel ID. -/
def idAt (b : List Byte) (i : Nat) : ReelId := chunk b i 11

/-- A reel ID, or "none" (11.4). -/
def idOrNone (b : List Byte) (i : Nat) : Option ReelId := if idAt b i = List.replicate 11 0 then none else some (idAt b i)

/-- A stand: line, then stand. -/
def standAt (b : List Byte) (i : Nat) : StandAddr := ⟨u8 b i, u8 b (i + 1)⟩

/-- A bay: aisle, then position. -/
def bayAt (b : List Byte) (i : Nat) : BayAddr := ⟨u8 b i, u8 b (i + 1)⟩

/-- An arm: 1 for A and 2 for B. -/
def armAt (b : List Byte) (i : Nat) : ArmName := if u8 b i = 2 then .b else .a

/-- A zone, or 0 for none (11.4). -/
def zoneAt (b : List Byte) (i : Nat) : Option Nat := if u8 b i = 0 then none else some (u8 b i)

/-- A flag. -/
def flagAt (b : List Byte) (i : Nat) : Bool := decide (u8 b i = 1)

/-- An optional field: 1 and its value, or 0. -/
def optAt {α : Type} (b : List Byte) (i : Nat) (f : List Byte → Nat → α) : Option α :=
  if u8 b i = 1 then some (f b (i + 1)) else none

/-- Whether every byte named is a flag: 0 or 1. -/
def flagsListed (b : List Byte) (is : List Nat) : Bool := is.all fun i => decide (u8 b i ≤ 1)

/-- Whether the byte at an offset is a code of a list of `n` codes from 1 on. -/
def codeListed (b : List Byte) (i n : Nat) : Bool := inRange 1 n (u8 b i)

/-- A role: RUNNING 1, PREPARED 2, STANDBY 3, EXPIRED 4 (11.4). -/
def roleAt (b : List Byte) (i : Nat) : Role :=
  match u8 b i with
  | 1 => .running
  | 2 => .prepared
  | 3 => .standby
  | _ => .expired

/-- A place: BAY 1, DOCK 2, NONE 3 (R37). -/
def placeAt (b : List Byte) (i : Nat) : DeclPlace :=
  match u8 b i with
  | 1 => .bay (bayAt b (i + 1))
  | 2 => .dock (u8 b (i + 1))
  | _ => .nowhere

/-- A fault's subject: line 1, stand 2, vehicle 3, none 4 (R196). -/
def subjectAt (b : List Byte) (i : Nat) : Subject :=
  match u8 b i with
  | 1 => .line (u8 b (i + 1))
  | 2 => .stand (standAt b (i + 1))
  | 3 => .vehicle (u8 b (i + 1))
  | _ => .none

/-- A class of fault: NOTE 1, DEGRADED 2, FATAL 3 (R196). -/
def classAt (b : List Byte) (i : Nat) : FaultClass :=
  match u8 b i with
  | 1 => .note
  | 2 => .degraded
  | _ => .fatal

/-- A filter of Query Faults: class 1, kind 2, subject 3 (R200). -/
def filterAt (b : List Byte) (i : Nat) : FaultFilter :=
  match u8 b i with
  | 1 => .cls (classAt b (i + 1))
  | 2 => .kind (u8 b (i + 1))
  | _ => .subject (subjectAt b (i + 1))

/-- Whether the codes of a filter are listed. -/
def filterListed (b : List Byte) (i : Nat) : Bool :=
  match u8 b i with
  | 1 => codeListed b (i + 1) 3
  | 2 => true
  | 3 => codeListed b (i + 1) 4
  | _ => false

/-- The kind of a Manual Mission: INTAKE 1, RETURN 2, PARK 3 (R96). -/
def manualKindAt (b : List Byte) (i : Nat) : MissionKind :=
  match u8 b i with
  | 1 => .intake
  | 2 => .ret
  | _ => .park

/-- The kind of a bay: NORMAL 1, QUARANTINE 2, NONE 3 (R49). -/
def bayKindAt (b : List Byte) (i : Nat) : Option BayKind :=
  match u8 b i with
  | 1 => some .normal
  | 2 => some .quarantine
  | _ => none

/-- The configuration of Set Zone: kind, loop position, attach zone, served object, traverse time (R64). -/
def zoneCfgAt (b : List Byte) (i : Nat) : Option ZoneConfig :=
  let make (u : ZoneUse) (attach : Nat) : Option ZoneConfig := some ⟨u, attach, u8 b (i + 5)⟩
  let n := u8 b (i + 3)
  match u8 b i with
  | 1 => make (.loop (u8 b (i + 1))) 0
  | 2 => make (.aisle n) (u8 b (i + 2))
  | 3 => make (.spur (standAt b (i + 3))) (u8 b (i + 2))
  | 4 => make (.dock n) (u8 b (i + 2))
  | 5 => make (.charger n) (u8 b (i + 2))
  | 6 => make (.park n) (u8 b (i + 2))
  | _ => none

/-- The fields of Set Fleet Parameters (R113). -/
def fleetArgsAt (b : List Byte) : FleetArgs where
  reportPeriod := optAt b 0 u16
  lostCount := optAt b 3 u8
  lowCharge := optAt b 5 u8
  resumeCharge := optAt b 7 u8
  holdTime := optAt b 9 u16
  missionAllowance := optAt b 12 u16
  pickTime := optAt b 15 u16
  transferTime := optAt b 18 u16
  waitLimit := optAt b 21 u8

/-- The fields of Set Line Feed after the line (R117). -/
def lineFeedArgsAt (b : List Byte) : LineFeedArgs where
  lineMax := optAt b 1 u16
  crawl := optAt b 4 u8
  prepAllowance := optAt b 6 u16
  callLength := optAt b 9 u16
  partials := optAt b 12 flagAt
  minIssue := optAt b 14 u16
  stripDepth := optAt b 17 u8
  autoPrepare := optAt b 19 flagAt

/-- The fields of Set Stand after the stand (R119). -/
def standArgsAt (b : List Byte) : StandArgs where
  grade := u8 b 2
  width := u16 b 3
  ds := optAt b 5 u16
  dmin := optAt b 8 u16
  lockMargin := optAt b 11 u8
  maxStep := optAt b 13 u8
  webPath := optAt b 15 u32
  allowance := optAt b 20 u16
  offset := optAt b 23 s8

/-- The fields of Set Line Counting after the line (R164). -/
def countArgsAt (b : List Byte) : CountArgs where
  cutoff := optAt b 1 u16
  depth := optAt b 4 u8
  preMargin := optAt b 6 u8
  spliceWindow := optAt b 8 u16
  restartWindow := optAt b 11 u16
  startLimit := optAt b 14 u16
  jumpLimit := optAt b 17 u16
  holdOnDegraded := optAt b 20 flagAt

/-! ### The command of a frame (R209, R211, 11.4) -/

/-- Requests of the Reel Register, the Bay Map and Traffic Control, kinds 01h to 10h (R211). -/
def storeRequest (tag : Byte) (kind : Nat) (b : List Byte) : Instr :=
  let q (listed : Bool) : Req := ⟨tag, b.length, listed⟩
  match kind with
  | 0x01 => .registerReel (q (flagsListed b [16, 21])) (idAt b 0) (u8 b 11) (u16 b 12) (u16 b 14) (optAt b 16 u8)
      (u16 b 18) (u8 b 20) (optAt b 21 u32)
  | 0x02 => .setGrade (q (flagsListed b [11, 13, 15])) (u8 b 0) (chunk b 1 8) (u8 b 9) (u8 b 10) (optAt b 11 u8)
      (optAt b 13 u8) (optAt b 15 u8)
  | 0x03 => .releaseQuarantine (q true) (idAt b 0)
  | 0x04 => .declareReelLocation (q (codeListed b 11 3)) (idAt b 0) (placeAt b 11)
  | 0x05 => .withdrawReel (q true) (idAt b 0)
  | 0x06 => .purgeSpent (q true)
  | 0x07 => .queryReel (q (codeListed b 0 2)) (if u8 b 0 = 2 then .byIndex (u16 b 1) else .byId (idAt b 1))
  | 0x08 => .queryStock (q true)
  | 0x09 => .setBay (q (codeListed b 2 3 && flagsListed b [3])) (bayAt b 0) (bayKindAt b 2) (flagAt b 3)
  | 0x0A => .setAisle (q (codeListed b 1 2)) (u8 b 0) (optAt b 1 u8)
  | 0x0B => .queryBay (q true) (bayAt b 0)
  | 0x0C => .queryAisles (q true)
  | 0x0D => .setZone (q (codeListed b 1 7)) (u8 b 0) (zoneCfgAt b 1)
  | 0x0E => .queryZone (q true) (u8 b 0)
  | 0x0F => .queryTraffic (q true)
  | _ => .queryRoute (q true) (u8 b 0) (u8 b 1)

/-- Requests of the Fleet Controller and the Feed Planner, kinds 11h to 25h (R211). -/
def feedRequest (tag : Byte) (kind : Nat) (b : List Byte) : Instr :=
  let q (listed : Bool) : Req := ⟨tag, b.length, listed⟩
  match kind with
  | 0x11 => .commissionVehicle (q true) (u8 b 0)
  | 0x12 => .decommissionVehicle (q true) (u8 b 0)
  | 0x13 => .clearLostVehicle (q true) (u8 b 0)
  | 0x14 => .manualMission (q (codeListed b 0 3 && flagsListed b [12, 16]))
      (manualKindAt b 0) (idAt b 1) (optAt b 12 bayAt) (u8 b 15) (optAt b 16 u32)
  | 0x15 => .cancelMission (q true) (u8 b 0)
  | 0x16 => .acknowledgeVehicleAbort (q true) (u8 b 0)
  | 0x17 => .stopFleet (q true)
  | 0x18 => .resumeFleet (q true)
  | 0x19 => .setFleetParameters (q (flagsListed b [0, 3, 5, 7, 9, 12, 15, 18, 21])) (fleetArgsAt b)
  | 0x1A => .queryVehicle (q true) (u8 b 0)
  | 0x1B => .queryMissions (q true)
  | 0x1C => .setLineFeed (q (flagsListed b [1, 4, 6, 9, 12, 13, 14, 17, 19, 20])) (u8 b 0) (lineFeedArgsAt b)
  | 0x1D => .setStand (q (flagsListed b [5, 8, 11, 13, 15, 20, 23])) (standAt b 0) (standArgsAt b)
  | 0x1E => .standOutOfService (q true) (standAt b 0)
  | 0x1F => .standInService (q true) (standAt b 0)
  | 0x20 => .returnReel (q true) (standAt b 0)
  | 0x21 => .declareArm (q (codeListed b 2 2 && codeListed b 3 2 && (decide (u8 b 3 = 1) || codeListed b 15 3)))
      (standAt b 0) (armAt b 2) (if u8 b 3 = 2 then some (idAt b 4) else none) (roleAt b 15)
  | 0x22 => .queryStand (q true) (standAt b 0)
  | 0x23 => .queryLineFeed (q true) (u8 b 0)
  | 0x24 => .setCeiling (q true) (u8 b 0) (u16 b 1)
  | _ => .acknowledgeCeilingFlags (q true) (u8 b 0)

/-- Requests of the other blocks, kinds 26h to 38h, and of kinds the catalogue does not hold (R211). -/
def otherRequest (tag : Byte) (kind : Nat) (b : List Byte) : Instr :=
  let q (listed : Bool) : Req := ⟨tag, b.length, listed⟩
  match kind with
  | 0x26 => .setLineCounting (q (flagsListed b [1, 4, 6, 8, 11, 14, 17, 20, 21])) (u8 b 0) (countArgsAt b)
  | 0x27 => .clearLineCounters (q true) (u8 b 0)
  | 0x28 => .queryLineCounts (q true) (u8 b 0)
  | 0x29 => .openEdition (q true) (u16 b 0) (u8 b 2) (u32 b 3)
  | 0x2A => .closeEdition (q true) (u8 b 0) (u16 b 1)
  | 0x2B => .queryEdition (q true) (u8 b 0) (u16 b 1)
  | 0x2C => .queryEditions (q true)
  | 0x2D => .queryUnassigned (q true) (u8 b 0)
  | 0x2E => .clearUnassigned (q true) (u8 b 0)
  | 0x2F => .acknowledgeFault (q (codeListed b 1 4)) (u8 b 0) (subjectAt b 1)
  | 0x30 => .acknowledgeAllFaults (q true)
  | 0x31 => .queryFaults (q (flagsListed b [0] && (decide (u8 b 0 = 0) || filterListed b 1))) (optAt b 0 filterAt)
  | 0x32 => .queryFault (q (codeListed b 1 4)) (u8 b 0) (subjectAt b 1)
  | 0x33 => .queryStatus (q true)
  | 0x34 => .setClock (q true) (u32 b 0)
  | 0x35 => .setMassTolerance (q true) (u8 b 0)
  | 0x36 => .saveConfiguration (q true)
  | 0x37 => .reloadConfiguration (q true)
  | 0x38 => .restart (q (codeListed b 0 2)) (if u8 b 0 = 2 then .warm else .cold)
  | k => .unknownRequest tag k

/-- The request of a Host Link frame (R211). -/
def hostCommand (tag : Byte) (kind : Nat) (b : List Byte) : Instr :=
  if kind ≤ 0x10 then storeRequest tag kind b else if kind ≤ 0x25 then feedRequest tag kind b else otherRequest tag kind b

/-- The VEHICLE REPORT of a Fleet Link frame (11.4). -/
def fleetCommand (b : List Byte) : Instr :=
  .vehicleReport ⟨0, b.length, decide (u8 b 6 ≤ 4) && flagsListed b [7]⟩
    { vehicle := u8 b 0, directive := b.getD 1 0, front := u8 b 2, tail := zoneAt b 3, request := zoneAt b 4, charge := u8 b 5
      completion := match u8 b 6 with
        | 1 => some .pick
        | 2 => some .place
        | 3 => some .transfer
        | 4 => some .unload
        | _ => none
      onBoard := flagAt b 7
      reel := idOrNone b 8 }

/-- The ARM EVENT of a line frame (11.4). -/
def armEventCommand (f : Bool → Frame) (b : List Byte) : Instr :=
  let g : Frame := f (codeListed b 2 2 && codeListed b 3 9)
  let st := standAt b 0
  let arm := armAt b 2
  match u8 b 3 with
  | 1 => .ready g st arm
  | 2 => .loadOk g st arm
  | 3 => .loadWait g st arm
  | 4 => .loadRefuse g st arm (u8 b 4)
  | 5 => .armLoaded g st arm (idOrNone b 5)
  | 6 => .prepStart g st arm
  | 7 => .prepared g st arm
  | 8 => .unloaded g st arm
  | _ => .ejected g st arm

/-- The SPLICE PHASE of a line frame (11.4). -/
def phaseCommand (f : Bool → Frame) (b : List Byte) : Instr :=
  let g : Frame := f (codeListed b 2 3 && codeListed b 3 2)
  let st := standAt b 0
  let cut : GateCount := BitVec.ofNat 32 (u32 b 4)
  match u8 b 2, decide (u8 b 3 = 1) with
  | 1, true => .accelOk g st
  | 1, false => .accelFail g st
  | 2, true => .pasteOk g st
  | 2, false => .pasteFail g st
  | _, true => .cutOk g st cut
  | _, false => .cutFail g st cut

/-- The CONSOLE command of a line frame (11.4). -/
def consoleCommand (f : Bool → Frame) (b : List Byte) : Instr :=
  let g : Frame := f (codeListed b 1 4)
  match u8 b 1 with
  | 1 => .consoleGood g (u8 b 0)
  | 2 => .consoleDivertOn g (u8 b 0)
  | 3 => .consoleDivertOff g (u8 b 0)
  | _ => .consoleSpliceRetry g (u8 b 0) (u8 b 2)

/-- The message of a frame of Line Link `n` (11.4). -/
def lineCommand (n kind : Nat) (b : List Byte) : Instr :=
  let f (listed : Bool) : Frame := ⟨n, b.length, listed⟩
  match kind with
  | 1 => .lineStatus (f (decide (u8 b 1 ≤ 2))) (u8 b 0) (match u8 b 1 with
      | 0 => .stopped
      | 1 => .running
      | _ => .broken) (u16 b 2) (BitVec.ofNat 32 (u32 b 4))
  | 2 => .diameter (f (codeListed b 2 2)) (standAt b 0) (armAt b 2) (u16 b 3)
  | 3 => armEventCommand f b
  | 4 => phaseCommand f b
  | 5 => .webBreak (f true) (u8 b 0)
  | 6 => consoleCommand f b
  | _ => .standStatus (f (codeListed b 2 4 && codeListed b 14 4))
      (standAt b 0) ⟨roleAt b 2, idOrNone b 3⟩ ⟨roleAt b 14, idOrNone b 15⟩

/-- The command of a frame that has passed the envelope checks: its bytes from the start byte to the last CRC byte. -/
def frameCommand (l : Link) (bs : List Byte) : Instr :=
  let tag := bs.getD 3 0
  let kind := u8 bs 4
  let body := (bs.drop 5).take (bs.length - 7)
  match l with
  | .host => hostCommand tag kind body
  | .fleet => fleetCommand body
  | .line n => lineCommand n kind body

end Sys2Proof.Machine
end

