-- ==== Sys2Proof/Machine/Speed.lean ====
section
/-! DEFINITION. Host requests on the speed ceiling (7.6), kinds 24h and 25h. -/

namespace Sys2Proof.Machine

/-- Set the host ceiling of a line; a change of CHANGED_BY_HOST is noticed (R162). -/
def Hall.hostCeiling (n v : Nat) (l : Line) (h : Hall) : Hall :=
  if v = l.hostCeiling then h
  else
    let h := h.modLine n fun l => { l with hostCeiling := v, byHost := true }
    if l.byHost then h else h.noteCeiling n

/-- SET_CEILING (R162). -/
def Hall.takeCeiling (n v : Nat) (h : Hall) : Answer :=
  match h.line n with
  | none => h.refuse .notFound
  | some l => ((h.hostCeiling n (l.cfg.fitCeiling v) l).oweCeiling n).accept (.number (l.cfg.fitCeiling v))

/-- SET_CEILING (R162). -/
def execSetCeiling (q : Req) (line value : Nat) (s : State) : Host.Outcome State Fault Refusal :=
  .next (s.request q 0x24 fun h => h.takeCeiling line value)

/-- ACKNOWLEDGE_CEILING_FLAGS (R162). -/
def Hall.takeAckCeiling (n : Nat) (h : Hall) : Answer :=
  match h.line n with
  | none => h.refuse .notFound
  | some l =>
    if l.reduced || l.byHost then
      ((h.modLine n fun l => { l with reduced := false, byHost := false }).noteCeiling n).accept .none
    else h.accept .none

/-- ACKNOWLEDGE_CEILING_FLAGS (R162). -/
def execAcknowledgeCeilingFlags (q : Req) (line : Nat) (s : State) : Host.Outcome State Fault Refusal :=
  .next (s.request q 0x25 fun h => h.takeAckCeiling line)

end Sys2Proof.Machine
end

