-- ==== Sys2Proof/Machine/Hunt.lean ====
section
/-! DEFINITION. Discarded frames, and the hunting that goes on in the bytes received (R208). -/

namespace Sys2Proof.Machine

/-! ### What a received frame does -/

/-- The meaning of the command that a received frame spells: of a host request, a report or a line message. No frame spells the
other commands. -/
def takeFrame (c : Instr) (s : State) : Host.Outcome State Fault Refusal :=
  match c with
  | .registerReel q id grade width d0 core mass dock arrival => execRegisterReel q id grade width d0 core mass dock arrival s
  | .setGrade q number name caliper basis core hours threshold => execSetGrade q number name caliper basis core hours threshold s
  | .releaseQuarantine q id => execReleaseQuarantine q id s
  | .declareReelLocation q id place => execDeclareReelLocation q id place s
  | .withdrawReel q id => execWithdrawReel q id s
  | .purgeSpent q => execPurgeSpent q s
  | .queryReel q sel => execQueryReel q sel s
  | .queryStock q => execQueryStock q s
  | .setBay q bay kind blocked => execSetBay q bay kind blocked s
  | .setAisle q aisle grade => execSetAisle q aisle grade s
  | .queryBay q bay => execQueryBay q bay s
  | .queryAisles q => execQueryAisles q s
  | .setZone q number cfg => execSetZone q number cfg s
  | .queryZone q number => execQueryZone q number s
  | .queryTraffic q => execQueryTraffic q s
  | .queryRoute q start dest => execQueryRoute q start dest s
  | .commissionVehicle q v => execCommissionVehicle q v s
  | .decommissionVehicle q v => execDecommissionVehicle q v s
  | .clearLostVehicle q v => execClearLostVehicle q v s
  | .manualMission q kind reel bay park deadline => execManualMission q kind reel bay park deadline s
  | .cancelMission q slot => execCancelMission q slot s
  | .acknowledgeVehicleAbort q v => execAcknowledgeVehicleAbort q v s
  | .stopFleet q => execStopFleet q s
  | .resumeFleet q => execResumeFleet q s
  | .setFleetParameters q args => execSetFleetParameters q args s
  | .queryVehicle q v => execQueryVehicle q v s
  | .queryMissions q => execQueryMissions q s
  | .setLineFeed q line args => execSetLineFeed q line args s
  | .setStand q st args => execSetStand q st args s
  | .standOutOfService q st => execStandOutOfService q st s
  | .standInService q st => execStandInService q st s
  | .returnReel q st => execReturnReel q st s
  | .declareArm q st arm reel role => execDeclareArm q st arm reel role s
  | .queryStand q st => execQueryStand q st s
  | .queryLineFeed q line => execQueryLineFeed q line s
  | .setCeiling q line value => execSetCeiling q line value s
  | .acknowledgeCeilingFlags q line => execAcknowledgeCeilingFlags q line s
  | .setLineCounting q line args => execSetLineCounting q line args s
  | .clearLineCounters q line => execClearLineCounters q line s
  | .queryLineCounts q line => execQueryLineCounts q line s
  | .openEdition q number line target => execOpenEdition q number line target s
  | .closeEdition q line number => execCloseEdition q line number s
  | .queryEdition q line number => execQueryEdition q line number s
  | .queryEditions q => execQueryEditions q s
  | .queryUnassigned q line => execQueryUnassigned q line s
  | .clearUnassigned q line => execClearUnassigned q line s
  | .acknowledgeFault q code subject => execAcknowledgeFault q code subject s
  | .acknowledgeAllFaults q => execAcknowledgeAllFaults q s
  | .queryFaults q filter => execQueryFaults q filter s
  | .queryFault q code subject => execQueryFault q code subject s
  | .queryStatus q => execQueryStatus q s
  | .setClock q value => execSetClock q value s
  | .setMassTolerance q value => execSetMassTolerance q value s
  | .saveConfiguration q => execSaveConfiguration q s
  | .reloadConfiguration q => execReloadConfiguration q s
  | .restart q mode => execRestart q mode s
  | .unknownRequest tag kind => execUnknownRequest tag kind s
  | .vehicleReport f r => execVehicleReport f r s
  | .lineStatus f line run speed gate => execLineStatus f line run speed gate s
  | .diameter f st arm raw => execDiameter f st arm raw s
  | .ready f st arm => execReady f st arm s
  | .loadOk f st arm => execLoadOk f st arm s
  | .loadWait f st arm => execLoadWait f st arm s
  | .loadRefuse f st arm reason => execLoadRefuse f st arm reason s
  | .armLoaded f st arm reel => execArmLoaded f st arm reel s
  | .prepStart f st arm => execPrepStart f st arm s
  | .prepared f st arm => execPrepared f st arm s
  | .unloaded f st arm => execUnloaded f st arm s
  | .ejected f st arm => execEjected f st arm s
  | .accelOk f st => execAccelOk f st s
  | .accelFail f st => execAccelFail f st s
  | .pasteOk f st => execPasteOk f st s
  | .pasteFail f st => execPasteFail f st s
  | .cutOk f st gate => execCutOk f st gate s
  | .cutFail f st gate => execCutFail f st gate s
  | .webBreak f line => execWebBreak f line s
  | .consoleGood f line => execConsoleGood f line s
  | .consoleDivertOn f line => execConsoleDivertOn f line s
  | .consoleDivertOff f line => execConsoleDivertOff f line s
  | .consoleSpliceRetry f line stand => execConsoleSpliceRetry f line stand s
  | .standStatus f st a b => execStandStatus f st a b s
  | _ => .next s

/-! ### Hunting (R208) -/

/-- The length of the frame that bytes from a start byte on hold whole, envelope included (11.1). -/
def wholeFrame (bs : List Byte) : Option Nat := (frameLength bs).bind fun n => if n + 5 ≤ bs.length then some (n + 5) else none

/-- From the first start byte on. -/
def fromStart (bs : List Byte) : List Byte := bs.dropWhile fun b => decide (b ≠ startByte)

/-- What hunting meets first in received bytes that begin with a start byte, and the bytes it goes on with: a frame that is
discarded (none), after whose start byte it goes on, or a good frame, behind which it goes on (R208). It meets nothing where
the frame is not finished. -/
def huntIn (l : Link) (rx : List Byte) : Option (Option Instr × List Byte) :=
  if frameDiscarded l rx then some (none, fromStart (rx.drop 1))
  else if rx.head? = some startByte then
    (wholeFrame rx).map fun n => (some (frameCommand l (rx.take n)), fromStart (rx.drop n))
  else none

/-- All that hunting meets in received bytes, in order, and the unfinished frame it is left with (R208). -/
def huntAll (l : Link) : Nat → List Byte → List (Option Instr) × List Byte
  | 0, rx => ([], rx)
  | fuel + 1, rx =>
    match huntIn l rx with
    | some (x, rest) => (x :: (huntAll l fuel rest).1, (huntAll l fuel rest).2)
    | none => ([], rx)

/-- Take one thing hunting has met: a discard counts a link error, and restarts no silence timer; a good frame's command is
carried out (R208). -/
def State.takeFound (l : Link) (s : State) (x : Option Instr) : State :=
  match x with
  | none => { s with hall := s.hall.linkError l }
  | some c => match takeFrame c s with
    | .next t => t
    | .fault _ | .refused _ => s

/-- Hunt in received bytes: all that is met is taken in the order it arrived, before any later command (R208, R210, log 65). -/
def State.hunt (l : Link) (bs : List Byte) (s : State) : State :=
  let found := huntAll l bs.length bs
  found.1.foldl (State.takeFound l)
    { s with hall := { s.hall with links := tmod s.hall.links (linkKey l) fun r => { r with rx := found.2 } } }

/-- A frame is discarded: it counts a link error, and hunting goes on in the bytes received behind its start byte (R208). -/
def State.discard (l : Link) (bytes : List Byte) (s : State) : State :=
  ({ s with hall := s.hall.linkError l } : State).hunt l (fromStart (bytes.drop 1))

/-- FRAME_DISCARD (R208): `bytes` are those received from the start byte on; others are not discarded here (log 3). -/
def execFrameDiscard (link : Link) (bytes : List Byte) (s : State) : Host.Outcome State Fault Refusal :=
  .next (if frameDiscarded link bytes then s.discard link bytes else s)

/-- INTER_BYTE_TIMEOUT (R208): `bytes` are those received from the start byte on, an unfinished frame (log 3). -/
def execInterByteTimeout (link : Link) (bytes : List Byte) (s : State) : Host.Outcome State Fault Refusal :=
  .next (if frameUnfinished bytes then s.discard link bytes else s)

end Sys2Proof.Machine
end

