-- ==== Sys2Proof/Machine/Resets.lean ====
section
/-! DEFINITION. The cold reset and the warm restart (R221 and the reset rules of every chapter). -/

namespace Sys2Proof.Machine

/-! ### The cold reset -/

/-- The fresh links of a reset (R207, R208). -/
def freshLinks : Table LinkRec := (List.range 6).map fun i => (i, LinkRec.fresh)

/-- The blocks at their cold reset values with an image as active configuration, before any notice (R46, R60, R84, R114,
R144, R147, R163, R181, R195, R206, R217). -/
def Hall.blank (cause : ResetCause) (strap : Bool) (img : Image) (fromDefaults : Bool) (sent : List Sent) : Hall where
  clock := 0
  timebase := 0
  secondFrom := 0
  notices := []
  noticeSeq := 0
  dropped := 0
  links := freshLinks
  sent := sent
  lastReset := cause
  fromDefaults := fromDefaults
  strap := strap
  grades := img.grades
  watch := []
  reels := []
  massTolerance := img.massTolerance
  bays := img.bays.map fun p => (p.1, ⟨p.2.kind, p.2.blocked, none, none⟩)
  aisles := img.aisles
  zones := img.zones.map fun p => (p.1, ⟨p.2, none, [], none⟩)
  vehicles := vehicleNumbers.map fun v => (v, { Vehicle.cold with number := v, commissioned := img.commissioned.contains v })
  missions := []
  allStop := false
  params := img.params
  fleetSilence := if img.commissioned.isEmpty then none else some Config.silenceTicks
  lines := img.lines.map fun p => (p.1, Line.fresh p.2.1 0)
  stands := img.stands.map fun p => (p.1, Stand.fresh p.2.1 p.2.2)
  counts := img.lines.map fun p => (p.1, LineCount.fresh p.2.2)
  editions := []
  unassigned := img.lines.map fun p => (p.1, Totals.zero)
  faults := []
  holds := []
  agenda := []
  ceilings := []

/-- The hall after a cold reset: START is the first notice, and CONFIG_DEFAULTS follows when no bank is valid (R206, R217,
R221). What has been handed to the transmitters stays in the model's record (log 1). -/
def Hall.cold (cause : ResetCause) (strap : Bool) (bank : Option Bank) (sent : List Sent) : Hall :=
  match bank with
  | some b => (Hall.blank cause strap b.image false sent).notify (.start cause (.loaded b.generation) 0 strap)
  | none =>
    ((Hall.blank cause strap Image.default true sent).notify (.start cause .defaults 0 strap)).raise ⟨.configDefaults, .none⟩

/-- The part after a cold reset (R221); a save in progress is abandoned (R218), and replies still waiting are lost (log 43). -/
def State.coldReset (cause : ResetCause) (strap : Bool) (s : State) : State :=
  { s with host := ⟨[], []⟩, store := s.store.abandon, hall := Hall.cold cause strap s.store.current s.hall.sent }

/-- Whether a reply is the OK to a Restart: kind B8h (R221). -/
def Reply.restarts (r : Reply) : Bool := decide (r.kind = 0x38 + 128 ∧ r.status = .ok)

/-- Whether the part makes a restart of a mode now: the oldest restart asked and not yet made is of that mode, and its reply
has been sent. Each restart asked has one OK reply of kind B8h, so that reply has gone when fewer of them wait than restarts
(R221, log 25). -/
def State.restartDue (s : State) (mode : RestartMode) : Bool :=
  decide (s.host.restarts.head? = some mode ∧ (s.host.replies.filter Reply.restarts).length < s.host.restarts.length)

/-- Whether a cause makes a cold reset now (R221); the one for SUPPLY_LOW is made when the low supply ends (log 67). -/
def State.coldDue (s : State) : ResetCause → Bool
  | .powerOn | .supplyLow => true
  | .hostCold => s.restartDue .cold
  | .resetPin | .hostWarm => false

/-- COLD_RESET (R221); a cause that makes no cold reset now changes nothing (log 25). -/
def execColdReset (cause : ResetCause) (strap : Bool) (s : State) : Host.Outcome State Fault Refusal :=
  .next (if s.coldDue cause then s.coldReset cause strap else s)

/-! ### The warm restart -/

/-- The mission of one slot leaves the table: RESTART in its vehicle's abort record, and Mission End (R94, R105, R115,
log 20); NO_FREE_BAY follows (R56). -/
def Hall.dropMission (h : Hall) (p : Nat × Mission) : Hall :=
  let h := match p.2.vehicle with
    | some v => h.abort v .restart
    | none => h
  (({ h with missions := tdel h.missions p.1 } : Hall).notify (.missionEnd p.1 p.2.kind p.2.reel p.2.vehicle .aborted)).watchBays

/-- One reel at a warm restart: an ALLOCATED reel becomes STORED, and every call field is cleared (R47). -/
def Hall.freeReel (h : Hall) (p : Nat × Reel) : Hall :=
  if p.2.state = .allocated then h.putReel p.1 { p.2 with state := .stored, call := none }
  else if p.2.call.isSome then h.putReel p.1 { p.2 with call := none }
  else h

/-- A commissioned vehicle at a warm restart (R84, R115). -/
def Vehicle.restarted (x : Vehicle) : Vehicle :=
  { x with activity := .offline, seated := false, supervision := .reporting, missed := 0, front := none, tail := none
           ahead := [], mission := none, kept := none, beforeStop := none, timer := none, withdraw := false }

/-- One vehicle at a warm restart: its entries become inactive and HOLD is issued (R115). -/
def Hall.restartVehicle (h : Hall) (v : Nat) : Hall :=
  if (h.vehicle v).commissioned then
    (((h.modVehicle v Vehicle.restarted).lower ⟨.vehicleSilent, .vehicle v⟩).lower ⟨.vehicleLost, .vehicle v⟩).issue v .hold
  else h

/-- An arm at a warm restart: LOADING becomes EMPTY, UNLOADING takes its state before unloading (R145). Its known flag is kept, by
the model's choice (log 88). -/
def Arm.restarted (a : Arm) : Arm :=
  match a.state with
  | .loading => { a with state := .empty, reel := none, beforeUnload := none }
  | .unloading => { a with state := a.beforeUnload.getD .loaded, beforeUnload := none }
  | _ => a

/-- A stand at a warm restart: no call, no handover, no retry wait (R145, R147). -/
def Stand.restarted (s : Stand) : Stand :=
  { s with call := none, handover := none, retry := none, armA := s.armA.restarted, armB := s.armB.restarted }

/-- The arm of a stand that waits to be prepared, A first. -/
def Stand.unpreparedArm (s : Stand) : Option ArmName :=
  [ArmName.a, ArmName.b].find? fun x => decide ((s.arm x).state = .loaded ∨ (s.arm x).state = .preparing)

/-- Rebuild the preparation slot and pending list of a line, and show the panel; nothing on a line with auto-prepare set
(R145). -/
def Hall.rebuildPrep (h : Hall) (n : Nat) : Hall :=
  match h.line n with
  | some l =>
    if l.cfg.autoPrepare then h.modLine n fun l => { l with slot := none, waiting := [] }
    else
      let entries := (h.standsOf n).filterMap fun st =>
        ((h.stand st).bind Stand.unpreparedArm).map fun arm => (⟨st, arm, h.clock⟩ : PrepEntry)
      (h.modLine n fun l => { l with slot := entries.head?, waiting := entries.tail }).sendPanel n
  | none => h

/-- A line's own fields at a warm restart (R7, R163, R202, R204, log 44). -/
def Line.restarted (now : Nat) (l : Line) : Line :=
  { l with reduced := false, byHost := false, constraining := [], lastStatus := none, silence := some (now + Config.silenceTicks)
           oweCeiling := true, oweHold := true }

/-- Set a line's ceiling to the formed value without hysteresis, and send it (R163). -/
def Hall.restartCeiling (h : Hall) (n : Nat) : Hall :=
  match h.line n with
  | some l =>
    let values := h.lineValues n
    ((h.takeConstraining n values).modLine n fun x => { x with ceiling := l.formed (values.map (·.2)) }).sendCeiling n
  | none => h

/-- Make the INTAKE mission of one AT_DOCK reel (R47). -/
def Hall.restartIntake (h : Hall) (p : Nat × Reel) : Hall :=
  if p.2.state = .atDock then (h.makeIntake ⟨p.1, p.2.id⟩).1 else h

/-- The Host Link Interface and the links at a warm restart, with START as the first notice (R208, R212, R221). -/
def Hall.restartLinks (cause : ResetCause) (h : Hall) : Hall :=
  ({ h with notices := [], noticeSeq := 0, dropped := 0, links := freshLinks, lastReset := cause, agenda := [], ceilings := [] } :
    Hall).notify (.start cause .kept h.clock h.strap)

/-- Missions, reels, bays, zones and vehicles at a warm restart (R47, R60, R84, R115, R206). -/
def Hall.restartFleet (h : Hall) : Hall :=
  let h := h.missions.foldl Hall.dropMission { h with allStop := false }
  let h := h.reels.foldl Hall.freeReel h
  let h : Hall := { h with
    bays := h.bays.map fun p => (p.1, { p.2 with reserved := none })
    zones := h.zones.map fun p => (p.1, { p.2 with holder := none, wait := [], hold := none }) }
  let h := vehicleNumbers.foldl Hall.restartVehicle h
  ({ h with fleetSilence := if h.vehicles.any fun p => p.2.commissioned then some (h.timebase + Config.silenceTicks) else none } :
    Hall).lower ⟨.fleetLinkDown, .none⟩

/-- Stands and lines at a warm restart (R47, R145, R147, R163, R182). -/
def Hall.restartFeed (h : Hall) : Hall :=
  let h := h.stands.foldl (fun h p => h.lower (standFault .stockOut (standOfKey p.1))) h
  let h : Hall := { h with
    stands := h.stands.map fun p => (p.1, p.2.restarted)
    lines := h.lines.map fun p => (p.1, p.2.restarted h.timebase)
    counts := h.counts.map fun p => (p.1, { p.2 with resend := true, intervals := p.2.intervals.map fun iv => { iv with sent := false } }) }
  let h := (h.lines.map (·.1)).foldl Hall.rebuildPrep h
  let h := (h.lines.map (·.1)).foldl Hall.restartCeiling h
  (h.lines.map (·.1)).foldl (fun h n => h.evalHold n) h

/-- The hall after a warm restart (R221). The INTAKE missions follow the clearing of the others, and NO_FREE_BAY follows them
(R47, R60). -/
def Hall.warm (cause : ResetCause) (h : Hall) : Hall :=
  let h := ((h.restartLinks cause).restartFleet).restartFeed
  (h.reels.foldl Hall.restartIntake h).watchBays.finish

/-- The part after a warm restart (R221). -/
def State.warmRestart (cause : ResetCause) (s : State) : State :=
  { s with host := ⟨[], []⟩, store := s.store.abandon, hall := s.hall.warm cause }

/-- Whether a cause makes a warm restart now (R221). -/
def State.warmDue (s : State) : ResetCause → Bool
  | .resetPin => true
  | .hostWarm => s.restartDue .warm
  | .powerOn | .supplyLow | .hostCold => false

/-- WARM_RESTART (R221); a cause that makes no warm restart now changes nothing (log 25). -/
def execWarmRestart (cause : ResetCause) (s : State) : Host.Outcome State Fault Refusal :=
  .next (if s.warmDue cause then s.warmRestart cause else s)

end Sys2Proof.Machine
end

