-- ==== Sys2Proof/Machine/Dispatch.lean ====
section
/-! DEFINITION. The meaning of every command, one arm for each constructor of Instr. -/

namespace Sys2Proof.Machine

/-- The effect of a command on everything but the queue. -/
def exec (i : Instr) (s : State) : Host.Outcome State Fault Refusal :=
  match i with
  | .registerReel q id grade width d0 core mass dock arrival => Sys2Proof.Machine.execRegisterReel q id grade width d0 core mass dock arrival s
  | .setGrade q number name caliper basis core hours threshold => Sys2Proof.Machine.execSetGrade q number name caliper basis core hours threshold s
  | .releaseQuarantine q id => Sys2Proof.Machine.execReleaseQuarantine q id s
  | .declareReelLocation q id place => Sys2Proof.Machine.execDeclareReelLocation q id place s
  | .withdrawReel q id => Sys2Proof.Machine.execWithdrawReel q id s
  | .purgeSpent q => Sys2Proof.Machine.execPurgeSpent q s
  | .queryReel q sel => Sys2Proof.Machine.execQueryReel q sel s
  | .queryStock q => Sys2Proof.Machine.execQueryStock q s
  | .setBay q bay kind blocked => Sys2Proof.Machine.execSetBay q bay kind blocked s
  | .setAisle q aisle grade => Sys2Proof.Machine.execSetAisle q aisle grade s
  | .queryBay q bay => Sys2Proof.Machine.execQueryBay q bay s
  | .queryAisles q => Sys2Proof.Machine.execQueryAisles q s
  | .setZone q number cfg => Sys2Proof.Machine.execSetZone q number cfg s
  | .queryZone q number => Sys2Proof.Machine.execQueryZone q number s
  | .queryTraffic q => Sys2Proof.Machine.execQueryTraffic q s
  | .queryRoute q start dest => Sys2Proof.Machine.execQueryRoute q start dest s
  | .commissionVehicle q v => Sys2Proof.Machine.execCommissionVehicle q v s
  | .decommissionVehicle q v => Sys2Proof.Machine.execDecommissionVehicle q v s
  | .clearLostVehicle q v => Sys2Proof.Machine.execClearLostVehicle q v s
  | .manualMission q kind reel bay park deadline => Sys2Proof.Machine.execManualMission q kind reel bay park deadline s
  | .cancelMission q slot => Sys2Proof.Machine.execCancelMission q slot s
  | .acknowledgeVehicleAbort q v => Sys2Proof.Machine.execAcknowledgeVehicleAbort q v s
  | .stopFleet q => Sys2Proof.Machine.execStopFleet q s
  | .resumeFleet q => Sys2Proof.Machine.execResumeFleet q s
  | .setFleetParameters q args => Sys2Proof.Machine.execSetFleetParameters q args s
  | .queryVehicle q v => Sys2Proof.Machine.execQueryVehicle q v s
  | .queryMissions q => Sys2Proof.Machine.execQueryMissions q s
  | .setLineFeed q line args => Sys2Proof.Machine.execSetLineFeed q line args s
  | .setStand q st args => Sys2Proof.Machine.execSetStand q st args s
  | .standOutOfService q st => Sys2Proof.Machine.execStandOutOfService q st s
  | .standInService q st => Sys2Proof.Machine.execStandInService q st s
  | .returnReel q st => Sys2Proof.Machine.execReturnReel q st s
  | .declareArm q st arm reel role => Sys2Proof.Machine.execDeclareArm q st arm reel role s
  | .queryStand q st => Sys2Proof.Machine.execQueryStand q st s
  | .queryLineFeed q line => Sys2Proof.Machine.execQueryLineFeed q line s
  | .setCeiling q line value => Sys2Proof.Machine.execSetCeiling q line value s
  | .acknowledgeCeilingFlags q line => Sys2Proof.Machine.execAcknowledgeCeilingFlags q line s
  | .setLineCounting q line args => Sys2Proof.Machine.execSetLineCounting q line args s
  | .clearLineCounters q line => Sys2Proof.Machine.execClearLineCounters q line s
  | .queryLineCounts q line => Sys2Proof.Machine.execQueryLineCounts q line s
  | .openEdition q number line target => Sys2Proof.Machine.execOpenEdition q number line target s
  | .closeEdition q line number => Sys2Proof.Machine.execCloseEdition q line number s
  | .queryEdition q line number => Sys2Proof.Machine.execQueryEdition q line number s
  | .queryEditions q => Sys2Proof.Machine.execQueryEditions q s
  | .queryUnassigned q line => Sys2Proof.Machine.execQueryUnassigned q line s
  | .clearUnassigned q line => Sys2Proof.Machine.execClearUnassigned q line s
  | .acknowledgeFault q code subject => Sys2Proof.Machine.execAcknowledgeFault q code subject s
  | .acknowledgeAllFaults q => Sys2Proof.Machine.execAcknowledgeAllFaults q s
  | .queryFaults q filter => Sys2Proof.Machine.execQueryFaults q filter s
  | .queryFault q code subject => Sys2Proof.Machine.execQueryFault q code subject s
  | .queryStatus q => Sys2Proof.Machine.execQueryStatus q s
  | .setClock q value => Sys2Proof.Machine.execSetClock q value s
  | .setMassTolerance q value => Sys2Proof.Machine.execSetMassTolerance q value s
  | .saveConfiguration q => Sys2Proof.Machine.execSaveConfiguration q s
  | .reloadConfiguration q => Sys2Proof.Machine.execReloadConfiguration q s
  | .restart q mode => Sys2Proof.Machine.execRestart q mode s
  | .unknownRequest tag kind => Sys2Proof.Machine.execUnknownRequest tag kind s
  | .frameDiscard link bytes => Sys2Proof.Machine.execFrameDiscard link bytes s
  | .interByteTimeout link bytes => Sys2Proof.Machine.execInterByteTimeout link bytes s
  | .hostLinkTransmit => Sys2Proof.Machine.execHostLinkTransmit s
  | .vehicleReport f r => Sys2Proof.Machine.execVehicleReport f r s
  | .lineStatus f line run speed gate => Sys2Proof.Machine.execLineStatus f line run speed gate s
  | .diameter f st arm raw => Sys2Proof.Machine.execDiameter f st arm raw s
  | .ready f st arm => Sys2Proof.Machine.execReady f st arm s
  | .loadOk f st arm => Sys2Proof.Machine.execLoadOk f st arm s
  | .loadWait f st arm => Sys2Proof.Machine.execLoadWait f st arm s
  | .loadRefuse f st arm reason => Sys2Proof.Machine.execLoadRefuse f st arm reason s
  | .armLoaded f st arm reel => Sys2Proof.Machine.execArmLoaded f st arm reel s
  | .prepStart f st arm => Sys2Proof.Machine.execPrepStart f st arm s
  | .prepared f st arm => Sys2Proof.Machine.execPrepared f st arm s
  | .unloaded f st arm => Sys2Proof.Machine.execUnloaded f st arm s
  | .ejected f st arm => Sys2Proof.Machine.execEjected f st arm s
  | .accelOk f st => Sys2Proof.Machine.execAccelOk f st s
  | .accelFail f st => Sys2Proof.Machine.execAccelFail f st s
  | .pasteOk f st => Sys2Proof.Machine.execPasteOk f st s
  | .pasteFail f st => Sys2Proof.Machine.execPasteFail f st s
  | .cutOk f st gate => Sys2Proof.Machine.execCutOk f st gate s
  | .cutFail f st gate => Sys2Proof.Machine.execCutFail f st gate s
  | .webBreak f line => Sys2Proof.Machine.execWebBreak f line s
  | .consoleGood f line => Sys2Proof.Machine.execConsoleGood f line s
  | .consoleDivertOn f line => Sys2Proof.Machine.execConsoleDivertOn f line s
  | .consoleDivertOff f line => Sys2Proof.Machine.execConsoleDivertOff f line s
  | .consoleSpliceRetry f line stand => Sys2Proof.Machine.execConsoleSpliceRetry f line stand s
  | .standStatus f st a b => Sys2Proof.Machine.execStandStatus f st a b s
  | .supervisionTimerExpiry v => Sys2Proof.Machine.execSupervisionTimerExpiry v s
  | .lineLinkDown line => Sys2Proof.Machine.execLineLinkDown line s
  | .fleetLinkDown => Sys2Proof.Machine.execFleetLinkDown s
  | .handoverWaitLimit st => Sys2Proof.Machine.execHandoverWaitLimit st s
  | .retryWaitExpiry st => Sys2Proof.Machine.execRetryWaitExpiry st s
  | .hallClockAdvance => Sys2Proof.Machine.execHallClockAdvance s
  | .conditioningEnd index => Sys2Proof.Machine.execConditioningEnd index s
  | .chargerHoldExpiry zone => Sys2Proof.Machine.execChargerHoldExpiry zone s
  | .saveComplete readBackOk => Sys2Proof.Machine.execSaveComplete readBackOk s
  | .coldReset cause strap => Sys2Proof.Machine.execColdReset cause strap s
  | .warmRestart cause => Sys2Proof.Machine.execWarmRestart cause s

end Sys2Proof.Machine
end

