-- ==== Sys2Proof/Safety.lean ====
section
/-! DEFINITION. The words the statements are written in: what a step that goes on is, what the consequences of an event
leave as it was, and what holds of every state the part can be in. -/

namespace Sys2Proof

/-- A step from `s` goes on: the part never stops (INVENTORY, Faults). -/
def StepGoesOn (s : Machine.State) : Prop := ∃ t, Machine.step s = .next t

/-- A request of a kind is well-formed: its body has the kind's length and every code of it is listed (R209, R210). -/
def Req.ok (q : Req) (kind : Nat) : Prop := q.len = Machine.bodyLength kind ∧ q.listed = true

/-- A frame of a partner link has the body length of its kind, and every code of it is listed (R214). -/
def Frame.ok (f : Frame) (length : Nat) : Prop := f.len = length ∧ f.listed = true

namespace Machine

/-! ### Requests -/

/-- The request form and the kind of a host request. -/
def requestOf : Instr → Option (Req × Nat)
  | .registerReel q .. => some (q, 0x01) | .setGrade q .. => some (q, 0x02) | .releaseQuarantine q _ => some (q, 0x03)
  | .declareReelLocation q .. => some (q, 0x04) | .withdrawReel q _ => some (q, 0x05) | .purgeSpent q => some (q, 0x06)
  | .queryReel q _ => some (q, 0x07) | .queryStock q => some (q, 0x08) | .setBay q .. => some (q, 0x09)
  | .setAisle q .. => some (q, 0x0A) | .queryBay q _ => some (q, 0x0B) | .queryAisles q => some (q, 0x0C)
  | .setZone q .. => some (q, 0x0D) | .queryZone q _ => some (q, 0x0E) | .queryTraffic q => some (q, 0x0F)
  | .queryRoute q .. => some (q, 0x10) | .commissionVehicle q _ => some (q, 0x11) | .decommissionVehicle q _ => some (q, 0x12)
  | .clearLostVehicle q _ => some (q, 0x13) | .manualMission q .. => some (q, 0x14) | .cancelMission q _ => some (q, 0x15)
  | .acknowledgeVehicleAbort q _ => some (q, 0x16) | .stopFleet q => some (q, 0x17) | .resumeFleet q => some (q, 0x18)
  | .setFleetParameters q _ => some (q, 0x19) | .queryVehicle q _ => some (q, 0x1A) | .queryMissions q => some (q, 0x1B)
  | .setLineFeed q .. => some (q, 0x1C) | .setStand q .. => some (q, 0x1D) | .standOutOfService q _ => some (q, 0x1E)
  | .standInService q _ => some (q, 0x1F) | .returnReel q _ => some (q, 0x20) | .declareArm q .. => some (q, 0x21)
  | .queryStand q _ => some (q, 0x22) | .queryLineFeed q _ => some (q, 0x23) | .setCeiling q .. => some (q, 0x24)
  | .acknowledgeCeilingFlags q _ => some (q, 0x25) | .setLineCounting q .. => some (q, 0x26)
  | .clearLineCounters q _ => some (q, 0x27) | .queryLineCounts q _ => some (q, 0x28) | .openEdition q .. => some (q, 0x29)
  | .closeEdition q .. => some (q, 0x2A) | .queryEdition q .. => some (q, 0x2B) | .queryEditions q => some (q, 0x2C)
  | .queryUnassigned q _ => some (q, 0x2D) | .clearUnassigned q _ => some (q, 0x2E) | .acknowledgeFault q .. => some (q, 0x2F)
  | .acknowledgeAllFaults q => some (q, 0x30) | .queryFaults q _ => some (q, 0x31) | .queryFault q .. => some (q, 0x32)
  | .queryStatus q => some (q, 0x33) | .setClock q _ => some (q, 0x34) | .setMassTolerance q _ => some (q, 0x35)
  | .saveConfiguration q => some (q, 0x36) | .reloadConfiguration q => some (q, 0x37) | .restart q _ => some (q, 0x38)
  | _ => none

/-- `t` answers a request made at `s`: one reply is placed after those waiting, and nothing but the hall has changed
besides (R210). -/
def State.Answers (s t : State) (q : Req) (kind : Nat) (x : Status) (c : Content) : Prop :=
  t = { s with hall := t.hall, host := { s.host with replies := s.host.replies ++ [⟨q.tag, kind + 128, x, c⟩] } }

/-- Two tables list the same numbers, and their records are related one by one. -/
def TableRel {α : Type} (r : α → α → Prop) (t u : Table α) : Prop := List.Forall₂ (fun p q => p.1 = q.1 ∧ r p.2 q.2) t u

/-! ### What the consequences of an event leave as it was (log 4)

`fixed` blanks out of a record what a consequence may change of it; `Hall.ground` does so for the whole hall. -/

/-- A reel but its call, ALLOCATED and STORED being taken as one. -/
def Reel.fixed (r : Reel) : Reel := { r with state := if r.state = .allocated then .stored else r.state, call := none }

/-- A bay but its reservation. -/
def Bay.fixed (b : Bay) : Bay := { b with reserved := none }

/-- The configuration of a zone. -/
def Zone.fixed (z : Zone) : Zone := { z with holder := none, wait := [], hold := none }

/-- A vehicle but its mission, directives, zones ahead, activity and abort record. -/
def Vehicle.fixed (x : Vehicle) : Vehicle :=
  { x with activity := .offline, ahead := [], mission := none, directive := ⟨0, .hold⟩, kept := none, beforeStop := none
           abort := none, withdraw := false }

/-- A line but its preparation list and its ceiling. -/
def Line.fixed (l : Line) : Line := { l with slot := none, waiting := [], ceiling := 0, reduced := false, constraining := [] }

/-- An arm's times, carry and known flag. -/
def Arm.fixed (a : Arm) : Arm := { a with state := .empty, reel := none, beforeUnload := none }

/-- A stand's configuration, service, implausible count, retry wait and what of its arms is fixed. -/
def Stand.fixed (s : Stand) : Stand :=
  { s with mode := .unknown, running := none, call := none, handover := none, lastSplice := none, attempts := 0
           armA := s.armA.fixed, armB := s.armB.fixed }

/-- A link but its transmit sequence number. -/
def LinkRec.fixed (r : LinkRec) : LinkRec := { r with txSeq := 0 }

/-- Whether the entry at a number of the Fault Table is of a kind a consequence may change: STOCK_LOW, STOCK_OUT,
CUSTODY_ERROR, NO_FREE_BAY, PREP_OVERDUE, STAND_STARVED, STARVING. -/
def cascadeEntry (num : Nat) : Bool := [3, 4, 5, 6, 15, 20, 21].contains (num / 1024)

/-- The hall but what the consequences of an event may change. -/
def Hall.ground (h : Hall) : Hall :=
  { h with
    notices := [], noticeSeq := 0, dropped := 0, links := tview LinkRec.fixed h.links, sent := [], watch := []
    reels := tview Reel.fixed h.reels, bays := tview Bay.fixed h.bays, zones := tview Zone.fixed h.zones
    vehicles := tview Vehicle.fixed h.vehicles, missions := [], lines := tview Line.fixed h.lines
    stands := tview Stand.fixed h.stands, faults := h.faults.filter fun p => !cascadeEntry p.1
    holds := [], agenda := [], ceilings := [] }

/-- What consequences may do to a stand: an arm is touched only while LOADING, the running arm and the modes UNKNOWN,
OUT_OF_SERVICE and SPLICING are not left, no splice is commanded in those modes, and a new mode is STARVED, or SPLICING with
one attempt more. -/
structure StandStep (s t : Stand) : Prop where
  arm : ∀ x, (s.arm x).state ≠ .loading → t.arm x = s.arm x
  running : ∀ x, s.running = some x → (s.arm x).state ≠ .loading → t.running = some x
  idle : s.running = none → t.running = none
  onward : t.mode = s.mode ∨ t.mode = .starved ∨ t.mode = .splicing
  attempts : t.attempts = s.attempts ∨ t.mode = .splicing ∧ t.attempts = s.attempts + 1
  mode : (s.mode = .unknown ∨ s.mode = .outOfService ∨ s.mode = .splicing) →
    t.mode = s.mode ∧ t.lastSplice = s.lastSplice ∧ t.attempts = s.attempts

/-- What consequences may do to a mission that is not a DELIVER: assign it, give it a route or a drop bay. -/
structure MissionStep (m n : Mission) : Prop where
  kind : n.kind = m.kind
  reel : n.reel = m.reel
  pickup : n.pickup = m.pickup
  deadline : n.deadline = m.deadline
  created : n.created = m.created
  call : n.call = m.call
  drop : m.drop.isSome → n.drop = m.drop

/-- What consequences may do to the charger hold of a zone: end it. -/
structure ZoneStep (s t : Zone) : Prop where
  hold : t.hold = s.hold ∨ t.hold = none

/-- Every stand with a call or a handover is in service (R120). -/
def Hall.Served (h : Hall) : Prop := ∀ p ∈ h.stands, (p.2.call.isSome ∨ p.2.handover.isSome) → p.2.inService = true

/-- What consequences leave: the ground is the same, what was sent or queued is still there, stands, zones and
missions have taken only the steps of `StandStep`, `ZoneStep` and `MissionStep`, and while every stand with a call or a
handover is in service no abort record is made, changed or removed. -/
structure Hall.Trace (a b : Hall) : Prop where
  same : b.ground = a.ground
  sent : a.sent <+: b.sent
  notices : a.notices <+: b.notices
  stands : TableRel StandStep a.stands b.stands
  missions : ∀ k m, tget a.missions k = some m → m.kind ≠ .deliver → ∃ n, tget b.missions k = some n ∧ MissionStep m n
  zones : TableRel ZoneStep a.zones b.zones
  aborts : a.Served → ∀ v, (b.vehicle v).abort = (a.vehicle v).abort

/-- `t` is `s` after a request that was accepted: one OK reply with content `c`, and a hall to which the consequences of the
event lead from `g`, what the request itself makes of the hall (log 4). -/
def State.Accepts (s t : State) (q : Req) (kind : Nat) (c : Content) (g : Hall) : Prop :=
  s.Answers t q kind .ok c ∧ Hall.Trace g t.hall

/-- `t` is `s` after a message or an expiry that makes `g` of the hall: only the hall has changed, and the consequences of
the event lead to it from `g` (log 4). -/
def State.Becomes (s t : State) (g : Hall) : Prop := t = { s with hall := t.hall } ∧ Hall.Trace g t.hall

/-! ### What a message or an expiry leaves as it was

`Hall.setting` is what only the host, the clock and the message's own rule set. -/

/-- Where a vehicle stands and what its reports have said of it. -/
def Vehicle.place (x : Vehicle) : Vehicle := { x.fixed with load := none }

/-- A stand's configuration and service. -/
def Stand.setup (s : Stand) : Stand :=
  { s.fixed with implausible := 0, retry := none, rolesDue := false, armA := Arm.cold, armB := Arm.cold }

/-- The hall's configuration, clocks, runs of the lines and places of the vehicles. -/
def Hall.setting (h : Hall) : Hall :=
  { h.ground with
    reels := [], bays := [], vehicles := tview Vehicle.place h.ground.vehicles, stands := tview Stand.setup h.ground.stands
    faults := [], counts := [], editions := [], unassigned := [], allStop := false }

/-! ### What holds of every state -/

/-- A list of divert intervals is ordered: each closed interval covers a copy, none begins before the one ahead of it has ended, and
so none follows an OPEN one (R169). -/
structure IntervalsOrdered (l : List Interval) : Prop where
  filled : ∀ x ∈ l, ∀ e, x.stop = some e → x.first < e
  apart : l.Pairwise fun x y => ∃ e, x.stop = some e ∧ e ≤ y.first

/-- A line's counts keep their order and range, the buffer depth, the room and the order of the list, and every final copy is
counted once, as good or as waste (R18, R165, R169). -/
structure LineCount.Sound (c : LineCount) : Prop where
  range : c.counted ≤ Config.max48
  order : c.finalized ≤ c.counted
  depth : c.counted - c.finalized ≤ c.cfg.depth
  room : c.intervals.length ≤ Config.intervalSlots
  list : IntervalsOrdered c.intervals
  books : c.good + c.waste.total = c.finalized

/-- A line's settings are multiples of 10 in order (6.1). -/
structure LineCfg.Sound (c : LineCfg) : Prop where
  lineMax : c.lineMax % 10 = 0
  crawl : c.crawl % 10 = 0
  order : c.crawl ≤ c.lineMax

/-- A line's settings and its host ceiling lie in their ranges, and its ceiling is a multiple of 10 (6.1, 7.6). -/
structure Line.Sound (l : Line) : Prop where
  cfg : l.cfg.Sound
  step : l.ceiling % 10 = 0
  host : l.hostCeiling % 10 = 0
  low : l.cfg.crawl ≤ l.hostCeiling
  high : l.hostCeiling ≤ l.cfg.lineMax

/-- A line's current ceiling lies between crawl and the top (R161). -/
structure Line.CeilingSound (l : Line) : Prop where
  low : l.cfg.crawl ≤ l.ceiling
  high : l.ceiling ≤ l.top

/-- What holds of the Fault Table: its entries stand in table order under their own numbers, none of them has nothing in it,
and an active entry is latched (R196, R197). -/
def FaultsSound (t : Table (FaultKey × FaultEntry)) : Prop :=
  tsorted t = true ∧
    ∀ p ∈ t, p.1 = p.2.1.num ∧ p.2.2 ≠ FaultEntry.clear ∧ (p.2.2.active = true → p.2.2.latched = true)

/-- What holds of the hall: the Fault Table is sound (R197), the notice queue is within its room (R212), every line's
counts and settings are sound, and its ceiling is sound, or is owed a forming by the hall or by the list `owed`. -/
structure Hall.SoundBut (owed : List Nat) (h : Hall) : Prop where
  faults : FaultsSound h.faults
  notices : h.notices.length ≤ Config.noticeSlots
  counts : ∀ n c, tget h.counts n = some c → c.Sound
  lines : ∀ p ∈ h.lines, p.2.Sound
  ceilings : ∀ n l, tget h.lines n = some l → l.CeilingSound ∨ n ∈ h.ceilings ∨ n ∈ owed

/-- What holds of the hall within an event. -/
abbrev Hall.Sound (h : Hall) : Prop := h.SoundBut []

/-- Every line setting of an image is sound. -/
def Image.Sound (i : Image) : Prop := ∀ p ∈ i.lines, p.2.1.Sound

/-- What holds of the Configuration Store: the images it holds have sound line settings, and while a save is in progress the
bank being written is not valid and the generation being written is the next one (R215, R218). -/
structure Store.Sound (x : Store) : Prop where
  bankA : ∀ b, x.bankA = some b → b.image.Sound
  bankB : ∀ b, x.bankB = some b → b.image.Sound
  save : ∀ v, x.save = some v → v.image.Sound ∧ x.bank v.target = none ∧ v.generation = x.nextGeneration

/-- What holds of every state: no ceiling is owed between events. -/
structure State.Sound (s : State) : Prop where
  hall : s.hall.Sound
  settled : s.hall.ceilings = []
  store : s.store.Sound

end Machine

end Sys2Proof
end

