-- ==== Sys2Proof/Certificates/Slice0/Obligations.lean ====
section
/-! DEFINITION. The statements for the provers: what the rules of the spec make of the commands, written in the words of
Safety. -/

open Sys2Proof Sys2Proof.Machine

/-! ### The machine -/

/-- A step takes the command at the front of the queue and runs it on the rest. -/
def Obligations.StepRunsFrontCommand : Prop :=
  ∀ (c : Instr) (rest : List Instr) (s : State),
    step { s with pending := c :: rest } = exec c { s with pending := rest }

/-- With no command waiting a step is one tick of the timebase, and the events it makes due are queued (log 2). -/
def Obligations.IdleStepIsOneTick : Prop :=
  ∀ s : State, s.pending = [] →
    ∃ t, step s = .next t ∧ t = { s with hall := { s.hall with timebase := s.hall.timebase + 1 }, pending := t.pending } ∧
      ∀ c, c ∈ t.pending ↔
        (∃ p ∈ s.hall.vehicles, (∃ x, p.2.timer = some x ∧ x ≤ s.hall.timebase + 1) ∧ c = .supervisionTimerExpiry p.1) ∨
        (∃ p ∈ s.hall.lines, (∃ x, p.2.silence = some x ∧ x ≤ s.hall.timebase + 1) ∧ c = .lineLinkDown p.1) ∨
        ((∃ x, s.hall.fleetSilence = some x ∧ x ≤ s.hall.timebase + 1) ∧ c = .fleetLinkDown) ∨
        (∃ p ∈ s.hall.stands, (∃ x, p.2.handover = some x ∧ x.waits = true ∧
          x.started + s.hall.params.waitLimit * 100 ≤ s.hall.timebase + 1) ∧ c = .handoverWaitLimit (standOfKey p.1)) ∨
        (∃ p ∈ s.hall.stands, (∃ x, p.2.retry = some x ∧ x ≤ s.hall.timebase + 1) ∧ c = .retryWaitExpiry (standOfKey p.1)) ∨
        (s.hall.secondFrom + 100 ≤ s.hall.timebase + 1 ∧ c = .hallClockAdvance)

/-- Every command runs in every state, and leaves the queue alone. -/
def Obligations.EveryCommandGoesOn : Prop :=
  ∀ (c : Instr) (s : State), ∃ t, exec c s = .next t ∧ t.pending = s.pending

/-- What `State.Sound` says holds after every step when it holds before: every ceiling is a multiple of 10 between crawl and
top, 0 ≤ C − F ≤ B, good plus waste is F and the divert intervals are in order (R165, R169), an active fault is latched, the queue of
notices is within its room, a bank being written is not valid. -/
def Obligations.EveryStepKeepsSound : Prop :=
  ∀ s : State, s.Sound → ∃ t, step s = .next t ∧ t.Sound

/-- The state after reset is sound. -/
def Obligations.ResetIsSound : Prop := State.reset.Sound

/-- The model's state after reset is what POWER_ON makes of a part with no valid bank (log 7), with the built-in defaults as
configuration, START as the first notice, and CONFIG_DEFAULTS active. -/
def Obligations.ColdResetWithoutImageGivesReset : Prop :=
  (∀ (s : State) (strap : Bool), s.store.bankA = none → s.store.bankB = none →
    exec (.coldReset .powerOn strap) s = .next { State.reset with
      pending := s.pending
      hall := { State.reset.hall with
        sent := s.hall.sent
        strap := strap
        notices := [⟨0, .start .powerOn .defaults 0 strap⟩,
          ⟨1, .fault ⟨.configDefaults, .none⟩ .active ⟨true, true, some 0, some 0, 1⟩⟩] } }) ∧
  State.reset.hall.params = ⟨500, 4, 25, 80, 600, 180, 20, 40, 30⟩ ∧ State.reset.hall.massTolerance = 8 ∧
  State.reset.hall.lines = [] ∧ State.reset.hall.stands = [] ∧ State.reset.hall.grades = [] ∧ State.reset.hall.bays = [] ∧
  State.reset.hall.zones = [] ∧ State.reset.hall.aisles = [] ∧ State.reset.hall.reels = [] ∧ State.reset.hall.missions = [] ∧
  (∀ p ∈ State.reset.hall.vehicles, p.2.commissioned = false) ∧ (∀ p ∈ State.reset.hall.links, p.2.errors = 0) ∧
  State.reset.hall.clock = 0 ∧ State.reset.hall.holds = [] ∧ State.reset.host.replies = []

/-! ### The Host Link Interface (11.1 to 11.3) -/

/-- Every request is answered by one reply, with its tag and its kind plus 80h, placed after those waiting; a body of the wrong length
is answered BAD_FORMAT, and nothing else happens (R210). -/
def Obligations.RequestsAreAnsweredOnce : Prop :=
  (∀ (c : Instr) (q : Req) (kind : Nat) (s : State), requestOf c = some (q, kind) →
    ∃ t x y, exec c s = .next t ∧ t.host.replies = s.host.replies ++ [⟨q.tag, kind + 128, x, y⟩]) ∧
  (∀ (c : Instr) (q : Req) (kind : Nat) (s : State), requestOf c = some (q, kind) → q.len ≠ bodyLength kind →
    exec c s = .next { s with host := { s.host with replies := s.host.replies ++ [⟨q.tag, kind + 128, .badFormat, .none⟩] } })

/-- A code the layout does not list is answered RANGE, and nothing else happens: the model's choice (log 11). -/
def Obligations.UnlistedCodeIsRange : Prop :=
  ∀ (c : Instr) (q : Req) (kind : Nat) (s : State), requestOf c = some (q, kind) → q.len = bodyLength kind → q.listed = false →
    exec c s = .next { s with host := { s.host with replies := s.host.replies ++ [⟨q.tag, kind + 128, .range, .none⟩] } }

/-- While a save is in progress no configuration request is answered OK, and none of them changes anything: it is answered BUSY, unless
a check ahead of that refuses it, which RANGE and BAD_FORMAT are in every request that has them, and NOT_FOUND in Set Aisle and Set Line
Counting (R210, R218). -/
def Obligations.ConfigurationWaitsForSave : Prop :=
  ∀ (c : Instr) (q : Req) (kind : Nat) (s : State), requestOf c = some (q, kind) → s.store.save.isSome →
    kind ∈ [0x02, 0x09, 0x0A, 0x0D, 0x11, 0x12, 0x19, 0x1C, 0x1D, 0x26, 0x35, 0x36, 0x37] →
    ∃ x, x ≠ .ok ∧
      exec c s = .next { s with host := { s.host with replies := s.host.replies ++ [⟨q.tag, kind + 128, x, .none⟩] } } ∧
      ∀ t y, exec c { s with store := { s.store with save := none } } = .next t → t.host.replies.getLast? = some y →
        x = if y.status = .badFormat ∨ y.status = .range ∨ (y.status = .notFound ∧ (kind = 0x0A ∨ kind = 0x26)) then y.status
          else .busy

/-- A refused request changes nothing but the replies. Two requests may change more before they refuse, and are not meant:
Declare Arm with an adoption the Register refuses (log 35), and Acknowledge Fault of a SENSOR_FAILED entry (R199). -/
def Obligations.RefusedRequestsChangeNothing : Prop :=
  ∀ (c : Instr) (q : Req) (kind : Nat) (s t : State), requestOf c = some (q, kind) → kind ≠ 0x21 → kind ≠ 0x2F →
    exec c s = .next t → (∃ r, t.host.replies = s.host.replies ++ [r] ∧ r.status ≠ .ok) →
    t = { s with host := { s.host with replies := t.host.replies } }

/-- UNKNOWN_REQUEST is answered UNKNOWN, with its kind plus 80h; a frame with a kind the Host Link does not carry inward is
discarded and counted (R211), and hunting goes on behind its start byte (R208): in the same step, leaving the receiver the frame
that is not finished, by the model's choice (log 65). -/
def Obligations.UnknownKindsAreAnsweredOrDiscarded : Prop :=
  (∀ (s : State) (tag : Byte) (kind : Nat), 0x39 ≤ kind → kind ≤ 0x7F →
    exec (.unknownRequest tag kind) s = .next { s with
      host := { s.host with replies := s.host.replies ++ [⟨tag, kind + 128, .unknown, .none⟩] } }) ∧
  ∀ (s : State) (tag kind : Byte) (body : List Byte), body.length ≤ 250 → (kind = 0 ∨ 0x80 ≤ kind.toNat) →
    let counted : Hall := { s.hall with links := tmod s.hall.links 0 fun r => { r with errors := min 65535 (r.errors + 1) } }
    let behind := (envelope tag kind body).drop 1
    exec (.frameDiscard .host (envelope tag kind body)) s =
      .next (State.hunt .host (behind.dropWhile fun b => decide (b ≠ 0xC3)) { s with hall := counted }) ∧
    ((∀ b ∈ behind, b ≠ 0xC3) → exec (.frameDiscard .host (envelope tag kind body)) s = .next { s with
      hall := { counted with links := tmod counted.links 0 fun r => { r with rx := [] } } })

/-- The Host Link transmitter takes a reply that waits, or else the oldest notice; with neither it stays free (R210). An offered notice
takes the next sequence number; it joins the queue while that holds fewer than 64, and else is dropped and counted, held at 255 (R212). -/
def Obligations.RepliesGoBeforeNumberedNotices : Prop :=
  (∀ s : State, exec .hostLinkTransmit s = .next (match s.host.replies, s.hall.notices with
    | r :: rest, _ => { s with host := { s.host with replies := rest }, hall := { s.hall with sent := s.hall.sent ++ [.reply r] } }
    | [], n :: rest => { s with hall := { s.hall with notices := rest, sent := s.hall.sent ++ [.notice n] } }
    | [], [] => s)) ∧
  (∀ (h : Hall) (n : Notice),
    h.notify n = if h.notices.length < 64
      then { h with notices := h.notices ++ [⟨h.noticeSeq, n⟩], noticeSeq := h.noticeSeq + 1 }
      else { h with noticeSeq := h.noticeSeq + 1, dropped := min 255 (h.dropped + 1) })

/-- A frame found bad adds 1 to its link's error count, held at 65,535, and hunting goes on after its start byte; other
bytes change nothing (R208, log 3). Bad are a length outside 2 to 252, and a whole frame with a wrong CRC-16 or a kind its link does not carry
inward; a frame whose next byte has not come is discarded by the time-out alone. What hunting meets in the bytes received is taken in the order it
arrived: a bad frame is counted, after whose start byte hunting goes on, and a good one's command is carried out, behind which it goes on; the
frame it is left with unfinished stays in the link's received bytes (R208, R210, log 65). -/
def Obligations.DiscardedFramesAreCounted : Prop :=
  (∀ (s : State) (l : Link) (bytes : List Byte),
    let counted : State := { s with hall := { s.hall with links := tmod s.hall.links (linkKey l) fun r =>
      { r with errors := min 65535 (r.errors + 1) } } }
    let rest := (bytes.drop 1).dropWhile fun b => decide (b ≠ 0xC3)
    let found := huntAll l rest.length rest
    (exec (.frameDiscard l bytes) s = .next (if frameDiscarded l bytes then counted.hunt l rest else s)) ∧
    (exec (.interByteTimeout l bytes) s = .next (if frameUnfinished bytes then counted.hunt l rest else s)) ∧
    (s.takeFound l none = counted) ∧ (∀ c, some c ∈ found.1 → exec c s = .next (s.takeFound l (some c))) ∧
    s.hunt l rest = found.1.foldl (State.takeFound l)
      { s with hall := { s.hall with links := tmod s.hall.links (linkKey l) fun r => { r with rx := found.2 } } }) ∧
  (∀ (l : Link) (bytes : List Byte),
    let all (bs : List Byte) : List (Option Instr) × List Byte := huntAll l bs.length bs
    let onward (bs : List Byte) : List Byte := bs.dropWhile fun b => decide (b ≠ 0xC3)
    (frameDiscarded l bytes = true → all bytes = (none :: (all (onward (bytes.drop 1))).1, (all (onward (bytes.drop 1))).2)) ∧
    ((frameUnfinished bytes = true ∨ bytes.head? ≠ some 0xC3) → all bytes = ([], bytes)) ∧
    (∀ (tag kind : Byte) (body rest : List Byte) (c : Instr), bytes = envelope tag kind body ++ rest → body.length ≤ 250 →
      (l = .host ∧ 1 ≤ kind.toNat ∧ kind.toNat ≤ 127 ∧ c = hostCommand tag kind.toNat body ∨
        l = .fleet ∧ kind = 1 ∧ c = fleetCommand body ∨
        (∃ n, l = .line n ∧ 1 ≤ kind.toNat ∧ kind.toNat ≤ 7 ∧ c = lineCommand n kind.toNat body)) →
      all bytes = (some c :: (all (onward rest)).1, (all (onward rest)).2))) ∧
  (∀ (l : Link) (bytes : List Byte), frameDiscarded l bytes = true ↔ ∃ hi lo rest, bytes = 0xC3 :: hi :: lo :: rest ∧
    let n := hi.toNat * 256 + lo.toNat
    let kind := (rest.getD 1 0).toNat
    (n < 2 ∨ 252 < n ∨ (n + 2 ≤ rest.length ∧
      ((rest.drop n).take 2 ≠ bytes16 (crc16 (hi :: lo :: rest.take n)) ∨
        (l = .host ∧ (kind = 0 ∨ 0x80 ≤ kind)) ∨ (l = .fleet ∧ kind ≠ 1) ∨ ((∃ j, l = .line j) ∧ (kind = 0 ∨ 7 < kind)))))) ∧
  (∀ bytes : List Byte, frameUnfinished bytes = true ↔ ∃ rest, bytes = 0xC3 :: rest ∧
    (rest.length < 2 ∨ ∃ hi lo tail, rest = hi :: lo :: tail ∧
      let n := hi.toNat * 256 + lo.toNat
      (2 ≤ n ∧ n ≤ 252 ∧ tail.length < n + 2)))

/-! ### Queries -/

/-- Query Reel by ID or by index, and Query Stock (R40); an index above 1023 is NOT_FOUND too, by the model's choice (log 78). -/
def Obligations.ReelQueriesTell : Prop :=
  ∀ (s : State) (q : Req),
    (q.ok 0x07 → ∀ id, exec (.queryReel q (.byId id)) s = .next (match s.hall.reels.find? fun p => decide (p.2.id = id) with
      | some (i, r) => s.reply q 0x07 .ok (.reel i r)
      | none => s.reply q 0x07 .notFound .none)) ∧
    (q.ok 0x07 → ∀ n, exec (.queryReel q (.byIndex n)) s = .next (match tget s.hall.reels n with
      | some r => s.reply q 0x07 .ok (.reel n r)
      | none => s.reply q 0x07 .notFound .none)) ∧
    (q.ok 0x08 → exec (.queryStock q) s = .next (s.reply q 0x08 .ok (.stock
      (s.hall.grades.map fun p =>
        { number := p.1
          grade := p.2
          issuable := (s.hall.reels.filter fun r => decide (r.2.grade = p.1 ∧ r.2.state = .stored)).length
          conditioning := (s.hall.reels.filter fun r => decide (r.2.grade = p.1 ∧ r.2.state = .conditioning)).length
          allocated := (s.hall.reels.filter fun r => decide (r.2.grade = p.1 ∧ r.2.state = .allocated)).length
          quarantined := (s.hall.reels.filter fun r => decide (r.2.grade = p.1 ∧ r.2.state = .quarantined)).length
          watch := (tget s.hall.watch p.1).getD ⟨false, false⟩ })
      s.hall.reels.length)))

/-- Query Bay and Query Aisles (R59); that each row of Query Aisles tells its aisle number is the model's choice (log 49). -/
def Obligations.BayQueriesTell : Prop :=
  ∀ (s : State) (q : Req),
    (q.ok 0x0B → ∀ b : BayAddr, exec (.queryBay q b) s = .next
      (if 1 ≤ b.aisle ∧ b.aisle ≤ 16 ∧ 1 ≤ b.pos ∧ b.pos ≤ 48 then
        s.reply q 0x0B .ok (.bay (s.hall.bay b) (tget s.hall.aisles b.aisle) (s.hall.served (.aisle b.aisle)))
      else s.reply q 0x0B .range .none)) ∧
    (q.ok 0x0C → exec (.queryAisles q) s = .next (s.reply q 0x0C .ok (.aisles
      ((List.range 16).map fun i =>
        let bays (k : BayKind) := ((s.hall.bays.filter fun p => decide ((bayOfKey p.1).aisle = i + 1)).map (·.2)).filter
          fun b => decide (b.kind = k)
        let counts (k : BayKind) : BayCounts :=
          { configured := (bays k).length
            occupied := ((bays k).filter fun b => b.occupant.isSome).length
            reserved := ((bays k).filter fun b => b.reserved.isSome).length
            blocked := ((bays k).filter fun b => b.blocked).length
            free := ((bays k).filter fun b => !b.blocked && b.occupant.isNone && b.reserved.isNone).length }
        ⟨i + 1, tget s.hall.aisles (i + 1), s.hall.served (.aisle (i + 1)), counts .normal, counts .quarantine⟩)
      (s.hall.missions.filter fun p => decide (p.2.kind = .intake ∨ p.2.kind = .ret) && p.2.drop.isNone).length)))

/-- Query Zone, Query Traffic and Query Route (R83), the route of R66 and its time (R67); Query Vehicle and Query Missions (R113); Query Stand
and Query Line Feed (R143), a line not configured being NOT_FOUND by the model's choice (log 36). That Query Zone tells a holding that is none of
front, tail and ahead as `other`, and Query Traffic the charger hold by its zone, are the model's choices (log 75). -/
def Obligations.TrafficFleetAndFeedQueriesTell : Prop :=
  (∀ (s : State) (q : Req),
    (q.ok 0x0E → ∀ n, exec (.queryZone q n) s = .next
      (if 1 ≤ n ∧ n ≤ 128 then s.reply q 0x0E .ok (.zone n ((tget s.hall.zones n).map fun z =>
        { cfg := z.cfg
          holder := z.holder
          wait := z.wait
          hold := z.hold.map fun c => (c.vehicle, c.expiry - s.hall.clock)
          holding := z.holder.map fun v => if (s.hall.vehicle v).front = some n then .front
            else if (s.hall.vehicle v).tail = some n then .tail
            else if n ∈ (s.hall.vehicle v).ahead then .ahead else .other }))
      else s.reply q 0x0E .range .none)) ∧
    (q.ok 0x0F → exec (.queryTraffic q) s = .next (s.reply q 0x0F .ok (.traffic s.hall.loopSize s.hall.loopComplete
      s.hall.loopCount ((vehicleNumbers.filter fun v => (s.hall.vehicle v).commissioned).map fun v =>
        { vehicle := v
          seated := (s.hall.vehicle v).seated
          front := (s.hall.vehicle v).front
          tail := (s.hall.vehicle v).tail
          ahead := (s.hall.vehicle v).ahead
          waitsFor := s.hall.waitsFor v
          charger := s.hall.heldCharger v })))) ∧
    (q.ok 0x10 → ∀ a b, exec (.queryRoute q a b) s = .next
      (if 1 ≤ a ∧ a ≤ 128 ∧ 1 ≤ b ∧ b ≤ 128 then
        match s.hall.route a b with
        | some zones => s.reply q 0x10 .ok (.route zones (s.hall.routeTime zones))
        | none => s.reply q 0x10 .ok (.route [] 0)
      else s.reply q 0x10 .range .none))) ∧
  (∀ (h : Hall) (a b : Nat),
    let size := (h.zones.filter fun p => match p.2.cfg.use with
      | .loop _ => true
      | _ => false).length
    let time (z : Nat) : Nat := ((h.zone z).map fun x => x.cfg.time).getD 0
    let joint (z : Nat) : Nat := if h.isLoop z then z else ((h.zone z).map fun x => x.cfg.attach).getD 0
    let next (x y : Nat) : Prop := ∃ zx zy p, h.zone x = some zx ∧ zx.cfg.use = .loop p ∧ h.zone y = some zy ∧
      zy.cfg.use = .loop (if p = size then 1 else p + 1)
    (h.loopComplete = true ↔ 8 ≤ size ∧ size ≤ 48 ∧ ∀ p, 1 ≤ p → p ≤ size → ∃ z ∈ h.zones, z.2.cfg.use = .loop p) ∧
    (h.route a b = none ↔ h.zone a = none ∨ h.zone b = none ∨ h.loopComplete = false) ∧
    (∀ zones, h.route a b = some zones → zones.head? = some a ∧ zones.getLast? = some b ∧
      (a = b → zones = [a]) ∧
      (a ≠ b → tsorted h.zones = true → h.isLoop (joint a) = true → h.isLoop (joint b) = true → ∃ round : List Nat,
        zones = (a :: if h.isLoop a then [] else [joint a]) ++ round ++ (if h.isLoop b then [] else [b]) ∧
        (joint a = joint b → round = []) ∧
        (joint a ≠ joint b → (joint a :: round).IsChain next ∧ round.getLast? = some (joint b) ∧
          joint a ∉ round ∧ round.Nodup))) ∧
    ∀ zones, h.routeTime zones = ((zones.drop 1).map time).sum) ∧
  (∀ (s : State) (q : Req),
    (q.ok 0x1A → ∀ v, exec (.queryVehicle q v) s = .next
      (if 1 ≤ v ∧ v ≤ 24 then s.reply q 0x1A .ok (.vehicle (s.hall.vehicle v)) else s.reply q 0x1A .range .none)) ∧
    (q.ok 0x1B → exec (.queryMissions q) s = .next
      (s.reply q 0x1B .ok (.missions s.hall.tableOrder (48 - s.hall.missions.length)))) ∧
    (∀ p, p ∈ s.hall.tableOrder ↔ p ∈ s.hall.missions)) ∧
  (∀ (s : State) (q : Req),
    (q.ok 0x22 → ∀ st x, s.hall.stand st = some x → ∃ row : StandRow,
      exec (.queryStand q st) s = .next (s.reply q 0x22 .ok (.stand row)) ∧ row.stand = x ∧
      (∀ r l, s.hall.runningReel st = some r → s.hall.line st.line = some l →
        row.runningReel = some
          { diameter := if r.estimate then estimateDiameter (s.hall.gradeOf r).caliper r.core r.remaining else r.accepted
            estimate := r.estimate
            remaining := r.remaining
            runLength := s.hall.runLength r x.cfg.ds
            timeToSplice := s.hall.timeToSplice st r x.cfg.ds
            leadTime := s.hall.leadTime st x l (s.hall.timeToSplice st r x.cfg.ds) } ∧
        row.eta = s.hall.eta st x (s.hall.timeToSplice st r x.cfg.ds) ∧
        row.needed = s.hall.needed st x l (s.hall.timeToSplice st r x.cfg.ds)) ∧
      (s.hall.runningReel st = none → row.runningReel = none) ∧
      (∀ y, x.handover = some y → y.waits = true →
        row.waitLeft = some (y.started + s.hall.params.waitLimit * 100 - s.hall.timebase)) ∧
      (∀ l, s.hall.line st.line = some l → row.prepPlace = l.place st)) ∧
    (q.ok 0x22 → ∀ st, s.hall.stand st = none → exec (.queryStand q st) s = .next (s.reply q 0x22 .notFound .none)) ∧
    (q.ok 0x23 → ∀ n l, s.hall.line n = some l →
      exec (.queryLineFeed q n) s = .next (s.reply q 0x23 .ok (.lineFeed ⟨l.cfg, l.run, l.speed, l.slot, l.waiting,
        (s.hall.standsOf n).map fun st => (st, s.hall.mode st, (s.hall.call st).map (·.state))⟩))) ∧
    (q.ok 0x23 → ∀ n, s.hall.line n = none → exec (.queryLineFeed q n) s = .next (s.reply q 0x23 .notFound .none)))

/-- Query Line Counts (R180): the counts, settings and list, and the gate values of each interval's first copy and end, each the gate count
plus the copy less the counted total (R177); for a line with no gate count they are reckoned from 0, the model's choice (log 69). -/
def Obligations.CountQueryTells : Prop :=
  ∀ (s : State) (q : Req) (n : Nat), q.ok 0x28 →
    exec (.queryLineCounts q n) s = .next (match s.hall.count n with
      | some c => s.reply q 0x28 .ok (.counts c (c.intervals.map fun iv =>
          (c.gate.getD 0 + BitVec.ofNat 32 iv.first - BitVec.ofNat 32 c.counted,
            iv.stop.map fun e => c.gate.getD 0 + BitVec.ofNat 32 e - BitVec.ofNat 32 c.counted)))
      | none => s.reply q 0x28 .notFound .none)

/-- Query Edition, Query Editions, Query Unassigned and Clear Unassigned (R188, R193). That the reply shows the collected flag as it
was before, and that Clear Unassigned answers grams, are the model's choices (logs 39 and 40). -/
def Obligations.EditionQueriesTell : Prop :=
  ∀ (s : State) (q : Req),
    (q.ok 0x2B → ∀ n number, s.hall.findEdition n number = none →
      exec (.queryEdition q n number) s = .next (s.reply q 0x2B .notFound .none)) ∧
    (q.ok 0x2B → ∀ n number slot e, s.hall.findEdition n number = some (slot, e) →
      (e.isOpen = true → exec (.queryEdition q n number) s = .next (s.reply q 0x2B .ok (.edition
        { e with printedMass := e.printedMass / 1000, whiteMass := e.whiteMass / 1000 }
        ((s.hall.count n).map fun c => c.counted - c.finalized)))) ∧
      (e.isOpen = false → exec (.queryEdition q n number) s = .next
        (({ s with hall := { s.hall with editions := tput s.hall.editions slot { e with collected := true } } } : State).reply q
          0x2B .ok (.edition { e with printedMass := e.printedMass / 1000, whiteMass := e.whiteMass / 1000 } none)))) ∧
    (q.ok 0x2C → exec (.queryEditions q) s = .next (s.reply q 0x2C .ok (.editions
      (s.hall.storeOrder.map fun p =>
        ⟨p.1, p.2.line, p.2.number, p.2.isOpen, p.2.collected, p.2.target, p.2.good, p.2.finalized⟩)
      (16 - s.hall.editions.length)))) ∧
    (q.ok 0x2D → ∀ n, exec (.queryUnassigned q n) s = .next (match tget s.hall.unassigned n with
      | some t => s.reply q 0x2D .ok (.totals { t with printedMass := t.printedMass / 1000, whiteMass := t.whiteMass / 1000 })
      | none => s.reply q 0x2D .notFound .none)) ∧
    (q.ok 0x2E → ∀ n, exec (.clearUnassigned q n) s = .next (match tget s.hall.unassigned n with
      | some t => ({ s with hall := { s.hall with unassigned := tmod s.hall.unassigned n fun _ =>
            ⟨0, 0, ⟨0, 0, 0, 0⟩, 0, 0, 0, 0, 0, 0⟩ } } : State).reply q 0x2E .ok
          (.totals { t with printedMass := t.printedMass / 1000, whiteMass := t.whiteMass / 1000 })
      | none => s.reply q 0x2E .notFound .none))

/-- Query Faults and Query Fault (R200): every entry active or latched that the filter admits, in table order, the holding
entries of each configured line, and the all-stop; or one entry in any state. A filter that names a kind code or subject outside the table
lists nothing, by the model's choice (log 89). -/
def Obligations.FaultQueriesTell : Prop :=
  ∀ (s : State) (q : Req),
    (q.ok 0x31 → ∀ f, exec (.queryFaults q f) s = .next (s.reply q 0x31 .ok (.faults
      ((s.hall.faults.filter fun p => (p.2.2.active || p.2.2.latched) && match f with
        | none => true
        | some (.cls c) => decide (faultClass p.2.1.kind = c)
        | some (.kind n) => decide (faultCode p.2.1.kind = n)
        | some (.subject x) => decide (p.2.1.subject = x)).map (·.2))
      (s.hall.lines.map fun p => (p.1, s.hall.holding p.1)) s.hall.allStop))) ∧
    (q.ok 0x32 → ∀ k : FaultKind, ∀ x, exec (.queryFault q (faultCode k) x) s = .next
      (if subjectFits k x then s.reply q 0x32 .ok (.fault ⟨k, x⟩ (s.hall.fault ⟨k, x⟩)) else s.reply q 0x32 .range .none)) ∧
    (q.ok 0x32 → ∀ n x, (n = 0 ∨ 24 < n) → exec (.queryFault q n x) s = .next (s.reply q 0x32 .range .none))

/-- Query Status (R213): the state of the part, after which the dropped count is 0. -/
def Obligations.StatusQueryTells : Prop :=
  ∀ (s : State) (q : Req), q.ok 0x33 →
    exec (.queryStatus q) s = .next (({ s with hall := { s.hall with dropped := 0 } } : State).reply q 0x33 .ok (.status
      { clock := s.hall.clock
        cause := s.hall.lastReset
        generation := s.store.current.map (·.generation)
        fromDefaults := s.hall.fromDefaults
        saving := s.store.save.isSome
        allStop := s.hall.allStop
        errors := s.hall.links.map fun p => p.2.errors
        fleetDown := (s.hall.fault ⟨.fleetLinkDown, .none⟩).active
        linesDown := s.hall.lines.map fun p => (p.1, (s.hall.fault ⟨.lineLinkDown, .line p.1⟩).active)
        queued := s.hall.notices.length
        dropped := s.hall.dropped
        active := (s.hall.faults.filter fun p => p.2.2.active).length
        latched := (s.hall.faults.filter fun p => p.2.2.latched).length }))

/-! ### Paper arithmetic (Chapter 1) -/

/-- The length of paper on a reel (R1). The integer square root is the largest whole number whose square does not exceed the number; the diameter of a reel in
estimate mode is that of d² + R × 4096 × t / 3217, and is the core diameter for R = 0 (R8). Effective splice and minimum diameters, and
where they are used: the run length, the lock, splice and starvation limits (R9). -/
def Obligations.DiametersFollowLengthAndCore : Prop :=
  ((∀ cal core dia, (dia ≤ core → lengthOf cal core dia = 0) ∧
      (core < dia → lengthOf cal core dia = (dia ^ 2 - core ^ 2) * 3217 / (4096 * cal)) ∧
      ∀ wide, dia ≤ wide → lengthOf cal core dia ≤ lengthOf cal core wide) ∧
    lengthOf 30 70 1500 = 58776 ∧ ∀ (h : Hall) (r : Reel) (d : Nat), h.reelLength r d = lengthOf (h.gradeOf r).caliper r.core d) ∧
  ((∀ n, n < 2 ^ 64 → isqrt n * isqrt n ≤ n ∧ n < (isqrt n + 1) * (isqrt n + 1)) ∧
  (∀ cal core remaining, estimateDiameter cal core remaining = isqrt (core * core + remaining * (4096 * cal) / 3217)) ∧
  (∀ cal core, core < 2 ^ 32 → estimateDiameter cal core 0 = core) ∧
  (∀ cal core d0 remaining, 0 < cal → core ≤ d0 → d0 ≤ 1500 → remaining ≤ lengthOf cal core d0 →
    core ≤ estimateDiameter cal core remaining ∧ estimateDiameter cal core remaining ≤ d0 ∧
      remaining * (4096 * cal) < 2 ^ 40)) ∧
  ((∀ ds core, effDs ds core = max ds (core + 20)) ∧ (∀ dmin core, effDmin dmin core = max dmin (core + 5)) ∧
  (∀ (h : Hall) (r : Reel) (ds : Nat), h.runLength r ds = r.remaining - h.reelLength r (max ds (r.core + 20))) ∧
  (∀ (x : Stand) (r : Reel), x.ds r = max x.cfg.ds (r.core + 20) ∧ x.dmin r = max x.cfg.dmin (r.core + 5)) ∧
  effDs 110 100 = 120 ∧ effDmin 100 100 = 105)

/-- The run length to splice is what remains above the effective splice diameter, at least 0; the time to splice is 60 times it over
the line's speed, with the limits of R10, and the product stays within its bound. -/
def Obligations.TimeToSpliceFollowsSpeed : Prop :=
  (∀ (h : Hall) (st : StandAddr) (r : Reel) (l : Line) (ds : Nat), h.line st.line = some l →
    let run := r.remaining - lengthOf (h.gradeOf r).caliper r.core (max ds (r.core + 20))
    h.timeToSplice st r ds = if run = 0 then 0 else if l.speed = 0 then 65535
      else if 65535 < 60 * run / l.speed then 65535 else 60 * run / l.speed) ∧
  ∀ cal core d0 remaining used, 30 ≤ cal → 70 ≤ core → d0 ≤ 1500 → remaining ≤ lengthOf cal core d0 →
    60 * (remaining - used) ≤ 3526560 ∧ 3526560 < 2 ^ 32

/-- The splice delay is the web path over the cutoff, rounded up, from 8 to 300 copies in the ranges of the manual; the first
copy of a SPLICE interval is the cut plus the delay less the pre-margin, and at least 1 (R16). -/
def Obligations.SpliceDelayRoundsUp : Prop :=
  (∀ web cutoff, 5000 ≤ web → web ≤ 120000 → 400 ≤ cutoff → cutoff ≤ 700 →
    web ≤ spliceDelay web cutoff * cutoff ∧ spliceDelay web cutoff * cutoff < web + cutoff ∧
      8 ≤ spliceDelay web cutoff ∧ spliceDelay web cutoff ≤ 300) ∧
  ∀ ccut delay pre : Nat, (spliceFirst ccut delay pre : Int) = max 1 ((ccut : Int) + delay - pre)

/-- A reel ID is well-formed when its first ten characters are digits and the eleventh is their check character; Register
Reel answers BAD_ID to any other, and a reel is found by all eleven characters (R17). -/
def Obligations.ReelIdsCarryTheirCheckCharacter : Prop :=
  (∀ (ds : List Nat) (c : Byte), ds.length = 10 → (∀ d ∈ ds, d < 10) →
    (idWellFormed (ds.map (fun d => BitVec.ofNat 8 (48 + d)) ++ [c]) = true ↔
      c.toNat = if (11 - weightedSum ds 10 % 11) % 11 = 10 then 88 else 48 + (11 - weightedSum ds 10 % 11) % 11)) ∧
  (∀ id : ReelId, idWellFormed id = true → id.length = 11 ∧ ∀ c ∈ id.take 10, 48 ≤ c.toNat ∧ c.toNat ≤ 57) ∧
  (∀ d1 d2 d3 d4 d5 d6 d7 d8 d9 d10 : Nat, weightedSum [d1, d2, d3, d4, d5, d6, d7, d8, d9, d10] 10 =
    10 * d1 + 9 * d2 + 8 * d3 + 7 * d4 + 6 * d5 + 5 * d6 + 4 * d7 + 3 * d8 + 2 * d9 + d10) ∧
  (∀ (h : Hall) (id : ReelId) i r, h.reelById id = some (i, r) → r.id = id) ∧
  ∀ (s : State) (q : Req) id g w d c m dock a, q.ok 0x01 → idWellFormed id = false →
    exec (.registerReel q id g w d c m dock a) s = .next (s.reply q 0x01 .badId .none)

/-! ### Reels and grades (Chapter 2) -/

/-- A registration that passes the checks of R24 makes the record of R25, and the INTAKE mission with it when the mass check
passes; the record is QUARANTINED(BAD_WEIGHT), with no mission, when it fails, also while the Mission Table is full. One that passes while the
table is full is refused FULL, and so is any ID not known while the register has no free slot. -/
def Obligations.RegisterReelMakesRecord : Prop :=
  (∀ (s : State) (q : Req) (id : ReelId) (grade width d0 : Nat) (core : Option Nat) (mass dock : Nat) (arrival : Option Nat)
    (i : Nat) (g : Grade), q.ok 0x01 → idWellFormed id = true → s.hall.reelById id = none →
    lowestFree s.hall.reels 1024 = some i → grade ≤ 15 → tget s.hall.grades grade = some g → 300 ≤ width → width ≤ 2400 →
    200 ≤ d0 → d0 ≤ 1500 → (∀ c, core = some c → 70 ≤ c ∧ c ≤ 160) → 1 ≤ mass → mass ≤ 4000 →
    s.hall.served (.dock dock) = true → s.hall.named ⟨i, id⟩ = false →
    let d := core.getD g.core
    let len := lengthOf g.caliper d d0
    let expected := len * width * g.basis / 1000000
    let heavy := decide (s.hall.massTolerance < (max expected mass - min expected mass) * 100 / mass)
    let r : Reel :=
      { id := id, grade := grade, width := width, d0 := d0, core := d, mass := mass
        arrival := arrival.getD s.hall.clock
        earliest := min 4294967295 (arrival.getD s.hall.clock + g.hours * 3600)
        state := if heavy then .quarantined else .atDock
        loc := .dock dock
        reason := if heavy then some .badWeight else none
        initial := len, strip := 0, consumed := 0, remaining := len, accepted := d0, estimate := false, isPartial := false
        stripped := false, call := none, refusals := 0 }
    let made (t : State) : Prop := s.Answers t q 0x01 .ok (.number i) ∧
      (∃ x, tget t.hall.reels i = some x ∧ x.fixed = r.fixed) ∧
      (∀ j, j ≠ i → (tget t.hall.reels j).map Reel.fixed = (tget s.hall.reels j).map Reel.fixed) ∧ t.hall.setting = s.hall.setting
    (heavy = true → ∃ t, exec (.registerReel q id grade width d0 core mass dock arrival) s = .next t ∧ made t ∧
      t.hall = (s.hall.addReel i r).finish ∧ (s.hall.addReel i r).missions = s.hall.missions ∧
      (s.hall.agenda = [] → s.hall.ceilings = [] → t.hall.missions = s.hall.missions)) ∧
    (heavy = false → ∀ slot, lowestFree s.hall.missions 48 = some slot →
      ∃ t, exec (.registerReel q id grade width d0 core mass dock arrival) s = .next t ∧ made t ∧
        ∃ m, tget t.hall.missions slot = some m ∧ m.kind = .intake ∧ m.reel = some ⟨i, id⟩ ∧ m.pickup = some (.dock dock)) ∧
    (heavy = false → lowestFree s.hall.missions 48 = none →
      exec (.registerReel q id grade width d0 core mass dock arrival) s = .next (s.reply q 0x01 .full .none))) ∧
  ∀ (s : State) (q : Req) (id : ReelId) (grade width d0 : Nat) (core : Option Nat) (mass dock : Nat) (arrival : Option Nat),
    q.ok 0x01 → idWellFormed id = true → s.hall.reelById id = none → lowestFree s.hall.reels 1024 = none →
    exec (.registerReel q id grade width d0 core mass dock arrival) s = .next (s.reply q 0x01 .full .none)

/-- A custody change moves the record and the places of R20 together: the old place, a bay, a vehicle or an arm, is left empty, the new one
holds the reel, and a bay that takes it loses its reservation. Release Quarantine of a reel QUARANTINED in a bay: the reason goes, and it is
STORED or CONDITIONING by the clock (R36). Declare Reel Location of a reel at rest: to a bay or to no place it is QUARANTINED(HOST), to a dock
it is AT_DOCK and an INTAKE mission is made for it; a bay out of range or not configured is RANGE (R37). Withdraw Reel deletes the record,
clears the place that held it, and cancels the mission that names it, with its Mission End notice (R38). -/
def Obligations.ReelsMoveWithTheirPlaces : Prop :=
  (∀ (h : Hall) (ref : ReelRef) (r r' : Reel), r.loc ≠ r'.loc →
    tget (h.custody ref r r').reels ref.index = some r' ∧
    (∀ j, j ≠ ref.index → tget (h.custody ref r r').reels j = tget h.reels j) ∧
    (∀ b, r'.loc = .bay b → ∀ x, h.bay b = some x →
      (h.custody ref r r').bay b = some { x with occupant := some ref, reserved := none }) ∧
    (∀ b, r.loc = .bay b → ∀ x, h.bay b = some x → (h.custody ref r r').bay b = some { x with occupant := none }) ∧
    (∀ v, r'.loc = .vehicle v → (tget h.vehicles v).isSome → ((h.custody ref r r').vehicle v).load = some ref) ∧
    (∀ v, r.loc = .vehicle v → ((h.custody ref r r').vehicle v).load = none) ∧
    (∀ st x, r'.loc = .arm st x → ∀ k, h.stand st = some k →
      ∃ k', (h.custody ref r r').stand st = some k' ∧ (k'.arm x).reel = some ref) ∧
    (∀ st x, r.loc = .arm st x → ∀ k, h.stand st = some k →
      ∃ k', (h.custody ref r r').stand st = some k' ∧ (k'.arm x).reel = none) ∧
    (h.custody ref r r').missions = h.missions ∧ (h.custody ref r r').zones = h.zones) ∧
  (∀ (s : State) (q : Req) (id : ReelId) (i : Nat) (r : Reel) (b : BayAddr), q.ok 0x03 → s.hall.reelById id = some (i, r) →
    r.state = .quarantined → r.loc = .bay b →
    ∃ t, exec (.releaseQuarantine q id) s = .next t ∧
      s.Accepts t q 0x03 .none { s.hall with
        reels := tput s.hall.reels i
          { r with reason := none, state := if r.earliest ≤ s.hall.clock then .stored else .conditioning } }) ∧
  (∀ (s : State) (q : Req) (id : ReelId) (i : Nat) (r : Reel), q.ok 0x04 → s.hall.reelById id = some (i, r) →
    (∀ b, (b.aisle < 1 ∨ 16 < b.aisle ∨ b.pos < 1 ∨ 48 < b.pos ∨ s.hall.bay b = none) →
      exec (.declareReelLocation q id (.bay b)) s = .next (s.reply q 0x04 .range .none)) ∧
    (r.state ≠ .onArm → r.state ≠ .inTransit → r.state ≠ .allocated → r.state ≠ .spent → r.call = none →
      s.hall.named ⟨i, id⟩ = false → (∀ v, r.loc = .vehicle v → (s.hall.vehicle v).mission = none) →
      (∀ b x, 1 ≤ b.aisle → b.aisle ≤ 16 → 1 ≤ b.pos → b.pos ≤ 48 → s.hall.bay b = some x → x.reserved = none →
        (x.occupant = none ∨ x.occupant = some ⟨i, id⟩) →
        ∃ t, exec (.declareReelLocation q id (.bay b)) s = .next t ∧ s.Accepts t q 0x04 .none
          (s.hall.custody ⟨i, id⟩ r { r with state := .quarantined, reason := some .host, loc := .bay b })) ∧
      (∃ t, exec (.declareReelLocation q id .nowhere) s = .next t ∧ s.Accepts t q 0x04 .none
        (s.hall.custody ⟨i, id⟩ r { r with state := .quarantined, reason := some .host, loc := .nowhere })) ∧
      (∀ n slot, s.hall.served (.dock n) = true → lowestFree s.hall.missions 48 = some slot →
        ∃ t, exec (.declareReelLocation q id (.dock n)) s = .next t ∧ s.Accepts t q 0x04 .none
            (s.hall.custody ⟨i, id⟩ r { r with state := .atDock, reason := none, loc := .dock n }) ∧
          ∃ m, tget t.hall.missions slot = some m ∧ m.kind = .intake ∧ m.reel = some ⟨i, id⟩ ∧ m.pickup = some (.dock n)))) ∧
  (∀ (s : State) (q : Req) (id : ReelId) (i : Nat) (r : Reel), q.ok 0x05 → s.hall.reelById id = some (i, r) →
    r.state ≠ .inTransit → r.state ≠ .allocated → r.state ≠ .onArm → (∀ v, r.loc ≠ .vehicle v) →
    ∃ t, exec (.withdrawReel q id) s = .next t ∧ s.Answers t q 0x05 .ok .none ∧
      t.hall = ((s.hall.cancelMissionOf ⟨i, id⟩).deleteReel i r).finish ∧
      tview Reel.fixed t.hall.reels = tview Reel.fixed (tdel s.hall.reels i) ∧
      (∀ b x, r.loc = .bay b → t.hall.bay b = some x → x.occupant = none) ∧
      (∀ slot m, s.hall.missionOf ⟨i, id⟩ = some slot → s.hall.mission slot = some m →
        (tsorted s.hall.missions = true → (s.hall.cancelMissionOf ⟨i, id⟩).mission slot = none) ∧
        (∀ k, k ≠ slot → (s.hall.cancelMissionOf ⟨i, id⟩).mission k = s.hall.mission k) ∧
        (s.hall.notices.length ≤ 48 → ∃ k, ⟨k, .missionEnd slot m.kind m.reel m.vehicle .cancelled⟩ ∈ t.hall.notices)) ∧
      t.hall.setting = s.hall.setting)

/-- An accepted Set Grade defines or changes the grade: fields not given take the defaults or keep their values (R22, R23). -/
def Obligations.SetGradeSetsFields : Prop :=
  ∀ (s : State) (q : Req) (n : Nat) (name : List Byte) (caliper basis : Nat) (core hours threshold : Option Nat),
    q.ok 0x02 → s.store.save = none → n ≤ 15 → 30 ≤ caliper → caliper ≤ 250 → 20 ≤ basis → basis ≤ 120 →
    (∀ x, core = some x → 70 ≤ x ∧ x ≤ 160) → (∀ x, hours = some x → x ≤ 72) → (∀ x, threshold = some x → x ≤ 255) →
    (∀ o, tget s.hall.grades n = some o → (∃ p ∈ s.hall.reels, p.2.grade = n) →
      o.caliper = caliper ∧ o.basis = basis ∧ o.core = core.getD o.core) →
    ∃ t, exec (.setGrade q n name caliper basis core hours threshold) s = .next t ∧
      s.Accepts t q 0x02 .none { s.hall with grades := tput s.hall.grades n (match tget s.hall.grades n with
        | some o => ⟨name, caliper, basis, core.getD o.core, hours.getD o.hours, threshold.getD o.threshold⟩
        | none => ⟨name, caliper, basis, core.getD 100, hours.getD 24, threshold.getD 4⟩) }

/-- The Bay Map: the free bay a reel is given, lowest aisle and position first, in an aisle of its grade before one assigned ANY, or a
quarantine bay for a reel held back (R52, R53); the reservation of a mission and its end (R55, R57); the walk of the waiting missions in table
order, after which no mission waits that a bay is free for, and NO_FREE_BAY (R51, R56). A mission is created in the lowest free slot, and refused
when there is none or when its reel is named already, so that no reel is named by two missions; a slot that a mission leaves goes to the requesters
that wait for one, RETURNs before CHARGE missions before RAISED calls, ahead of all that the same end makes ask for one (R95). -/
def Obligations.BaysAreChosenAndReserved : Prop :=
  (∀ (h : Hall) (grade : Nat), tsorted h.bays = true → (∀ p ∈ h.bays, bayKey (bayOfKey p.1) = p.1) →
    let fits (k : BayKind) (ok : Nat → Prop) (b : BayAddr) : Prop := ok b.aisle ∧ (∃ p ∈ h.zones, p.2.cfg.use = .aisle b.aisle) ∧
      ∃ x, h.bay b = some x ∧ x.kind = k ∧ x.blocked = false ∧ x.occupant = none ∧ x.reserved = none
    let first (k : BayKind) (ok : Nat → Prop) (b : BayAddr) : Prop := fits k ok b ∧
      ∀ c, fits k ok c → b.aisle < c.aisle ∨ (b.aisle = c.aisle ∧ b.pos ≤ c.pos)
    let ofGrade (a : Nat) : Prop := tget h.aisles a = some grade
    let any (a : Nat) : Prop := tget h.aisles a = none
    (∀ b, h.selectBay grade true = some b → first .quarantine (fun _ => True) b) ∧
    (h.selectBay grade true = none → ∀ b, ¬fits .quarantine (fun _ => True) b) ∧
    (∀ b, h.selectBay grade false = some b →
      first .normal ofGrade b ∨ ((∀ c, ¬fits .normal ofGrade c) ∧ first .normal any b)) ∧
    (h.selectBay grade false = none → ∀ b, ¬fits .normal ofGrade b ∧ ¬fits .normal any b)) ∧
  (∀ (h : Hall) (ref : ReelRef) (hold : Bool),
    (∀ r, h.reel ref = some r → h.selectFor ref hold = h.selectBay r.grade (hold || decide (r.state = .quarantined))) ∧
    (h.reel ref = none → h.selectFor ref hold = none)) ∧
  (∀ (h : Hall) (m : Mission),
    (let single (g : Hall) : Prop := ∀ p ∈ g.missions, ∀ q ∈ g.missions, ∀ ref, p.2.reel = some ref → q.2.reel = some ref → p.1 = q.1
     single h → single (h.createMission m).1) ∧
    (lowestFree h.missions 48 = none → h.createMission m = (h, none)) ∧
    (∀ ref, m.reel = some ref → h.named ref = true → h.createMission m = (h, none)) ∧
    ∀ slot, lowestFree h.missions 48 = some slot → (∀ ref, m.reel = some ref → h.named ref = false) →
      (h.createMission m).2 = some slot ∧ (h.createMission m).1.missions = tput h.missions slot { m with created := h.clock } ∧
      (m.state = .waiting → Job.arbiter ∈ (h.createMission m).1.agenda) ∧
      ∀ b x, h.bay b = some x → (h.createWithBay m (some b)).2 = some slot ∧
        (h.createWithBay m (some b)).1.bay b = some { x with reserved := some slot } ∧
        (h.createWithBay m (some b)).1.mission slot = some { m with created := h.clock, drop := some (.bay b) }) ∧
  (∀ (h : Hall), h.Sound → ((h.watchBays.fault ⟨.noFreeBay, .none⟩).active = true ↔
    ∃ p ∈ h.missions, (p.2.kind = .intake ∨ p.2.kind = .ret) ∧ p.2.drop = none)) ∧
  (∀ (h : Hall) (slot : Nat) (m : Mission), h.mission slot = some m →
    Job.arbiter ∈ (h.gotDrop slot).agenda ∧
    (∀ ref b x, (m.kind = .intake ∨ m.kind = .ret) → m.drop = none → m.reel = some ref → h.selectFor ref m.holdBack = some b →
      h.bay b = some x → let t := h.walkOne slot
      t.mission slot = some { m with drop := some (.bay b) } ∧ t.bay b = some { x with reserved := some slot } ∧
        Job.gotDrop slot ∈ t.agenda) ∧
    (∀ ref, m.reel = some ref → h.selectFor ref m.holdBack = none → h.walkOne slot = h) ∧
    ((m.kind ≠ .intake ∧ m.kind ≠ .ret ∨ m.drop.isSome) → h.walkOne slot = h)) ∧
  (∀ (h : Hall),
    h.tableOrder.Perm h.missions ∧
    h.tableOrder.Pairwise (fun p q =>
      let rank (m : Mission) : Nat := match m.cls with
        | .urgent => 0 | .deliver => 1 | .ret => 2 | .intake => 3 | .park => 4 | .charge => 5
      rank p.2 < rank q.2 ∨ (rank p.2 = rank q.2 ∧ (p.2.deadline < q.2.deadline ∨ (p.2.deadline = q.2.deadline ∧
        (p.2.created < q.2.created ∨ (p.2.created = q.2.created ∧ p.1 ≤ q.1)))))) ∧
    h.walkBays = ((h.tableOrder.map (·.1)).foldl Hall.walkOne h).watchBays ∧
    ∀ slot m ref, h.walkBays.mission slot = some m → (m.kind = .intake ∨ m.kind = .ret) → m.drop = none → m.reel = some ref →
      h.walkBays.selectFor ref m.holdBack = none) ∧
  (∀ (h : Hall) (slot : Nat) (b : BayAddr) (x : Bay), h.reservedBay slot = some b → h.bay b = some x →
    (h.dropReservation slot).bay b = some { x with reserved := none } ∧
    Job.bayWalk ∈ (h.dropReservation slot).agenda ∧
    ∀ m ref hold, h.mission slot = some m → m.reel = some ref →
      let held := hold || (h.reel ref).any fun r => decide (r.state = .quarantined)
      (x.kind = (if held then .quarantine else .normal) → (h.contentOfReturn slot hold).bays = h.bays ∧
        (h.contentOfReturn slot hold).mission slot = some { m with
          kind := .ret, cls := .ret, deadline := h.clock, call := none, holdBack := hold, drop := some (.bay b) }) ∧
      (x.kind ≠ (if held then .quarantine else .normal) →
        let c := (h.dropReservation slot).selectFor ref hold
        (h.contentOfReturn slot hold).mission slot = some { m with
          kind := .ret, cls := .ret, deadline := h.clock, call := none, holdBack := hold, drop := c.map .bay } ∧
        ∀ d y, c = some d → (h.contentOfReturn slot hold).bay d = some y → y.reserved = some slot)) ∧
  (∀ (h : Hall) (b : BayAddr) (x : Bay), h.bay b = some x → x.blocked = false → x.reserved = none →
    (h.clearPlace (.bay b)).bay b = some { x with occupant := none } ∧ Job.bayWalk ∈ (h.clearPlace (.bay b)).agenda) ∧
  (∀ (h : Hall) (slot : Nat) (m : Mission) (o : MissionOutcome), h.mission slot = some m → Job.missionLeft ∉ h.agenda →
    ∃ pre post, (h.endMission slot o).agenda = pre ++ Job.missionLeft :: post ∧ ∀ j ∈ pre, j ≠ .chargersFree ∧
      (∀ g w, j ≠ .starvedRetry g w) ∧ (∀ v, j ≠ .chargeNeed v) ∧ (∀ st, j ≠ .reRaise st) ∧ ∀ st, j ≠ .callTest st) ∧
  (∀ (h : Hall), let returned := vehicleNumbers.foldl Hall.returnIfOwed h
    h.runJob .missionLeft = returned.serveChargers.raisedRetry (returned.serveChargers.callsIn .raised) ∧
    vehicleNumbers = [1, 2, 3, 4, 5, 6, 7, 8, 9, 10, 11, 12, 13, 14, 15, 16, 17, 18, 19, 20, 21, 22, 23, 24])

/-- Purge Spent deletes every SPENT record and answers how many; one freed slot makes REGISTER_FULL inactive; no edition is
changed (R39). -/
def Obligations.PurgeSpentDeletesSpent : Prop :=
  ∀ (s : State) (q : Req), q.ok 0x06 →
    let n := (s.hall.reels.filter fun p => decide (p.2.state = .spent)).length
    ∃ t, exec (.purgeSpent q) s = .next t ∧ s.Answers t q 0x06 .ok (.number n) ∧
      tview Reel.fixed t.hall.reels = tview Reel.fixed (s.hall.reels.filter fun p => decide (p.2.state ≠ .spent)) ∧
      (s.Sound → 0 < n → (t.hall.fault ⟨.registerFull, .none⟩).active = false) ∧ t.hall.editions = s.hall.editions ∧
      t.hall.setting = s.hall.setting ∧ (s.hall.reels.length ≤ 1024 → n ≤ 1024)

/-! ### Bays and zones (Chapters 3 and 4) -/

/-- Set Bay by the condition of the bay: configured, changed or removed while nothing is in it or on its way, and else only
unblocked or left; one that becomes free owes the bay walk (R49). Set Aisle sets the grade assignment; ANY is no assignment (R50). Set Zone of a zone nobody holds or waits
for: it is given its configuration, changed or removed, when the checks of R64 pass; a LOOP zone is kept without an attach zone. -/
def Obligations.BaysAislesAndZonesAreSet : Prop :=
  (∀ (h : Hall) (b : BayAddr) (x : Bay), .bayWalk ∉ h.agenda → (.bayWalk ∈ (h.configureBay b x).agenda ↔
    (x.occupant = none ∧ x.reserved = none ∧ x.blocked = false) ∧ ∀ y, h.bay b = some y →
      ¬(y.occupant = none ∧ y.reserved = none ∧ y.blocked = false ∧ y.kind = x.kind))) ∧
  (∀ (s : State) (q : Req) (b : BayAddr) (blocked : Bool), q.ok 0x09 → s.store.save = none → 1 ≤ b.aisle → b.aisle ≤ 16 →
    1 ≤ b.pos → b.pos ≤ 48 →
    (∀ k, (∀ x, s.hall.bay b = some x → x.occupant = none ∧ x.reserved = none) →
      ∃ t, exec (.setBay q b (some k) blocked) s = .next t ∧
        s.Accepts t q 0x09 .none { s.hall with bays := tput s.hall.bays (bayKey b) ⟨k, blocked, none, none⟩ }) ∧
    ((∀ x, s.hall.bay b = some x → x.occupant = none ∧ x.reserved = none) →
      ∃ t, exec (.setBay q b none blocked) s = .next t ∧
        s.Accepts t q 0x09 .none { s.hall with bays := if (s.hall.bay b).isSome then tdel s.hall.bays (bayKey b) else s.hall.bays }) ∧
    (∀ x, s.hall.bay b = some x → (x.occupant.isSome ∨ x.reserved.isSome) → (blocked = false ∨ blocked = x.blocked) →
      ∃ t, exec (.setBay q b (some x.kind) blocked) s = .next t ∧
        s.Accepts t q 0x09 .none { s.hall with bays := tput s.hall.bays (bayKey b) { x with blocked := blocked } }) ∧
    (∀ x k, s.hall.bay b = some x → (x.occupant.isSome ∨ x.reserved.isSome) →
      (k ≠ some x.kind ∨ (blocked = true ∧ x.blocked = false)) →
      exec (.setBay q b k blocked) s = .next (s.reply q 0x09 .state .none))) ∧
  (∀ (s : State) (q : Req) (n : Nat), q.ok 0x0A → s.store.save = none → 1 ≤ n → n ≤ 16 →
    (∀ g, g ≤ 15 → (tget s.hall.grades g).isSome → ∃ t, exec (.setAisle q n (some g)) s = .next t ∧
      s.Accepts t q 0x0A .none { s.hall with aisles := tput s.hall.aisles n g }) ∧
    (∃ t, exec (.setAisle q n none) s = .next t ∧ s.Accepts t q 0x0A .none { s.hall with aisles := tdel s.hall.aisles n })) ∧
  (∀ (s : State) (q : Req) (n : Nat), q.ok 0x0D → s.store.save = none → 1 ≤ n → n ≤ 128 →
    (∀ z, s.hall.zone n = some z → z.holder = none ∧ z.wait = [] ∧ z.hold = none) →
    (∀ c, zoneFits c = true → c = keptConfig c →
      (usesLoop c.use = false → c.attach ≠ n ∧ s.hall.isLoop c.attach = true) →
      (∀ p ∈ s.hall.zones, p.1 ≠ n → p.2.cfg.use ≠ c.use) →
      (∀ z, s.hall.zone n = some z → (z.cfg.use ≠ c.use ∨ z.cfg.attach ≠ c.attach) → s.hall.zoneNamed n = false) →
      (s.hall.isLoop n = true → s.hall.attached n = true → usesLoop c.use = true) →
      ∃ t, exec (.setZone q n (some c)) s = .next t ∧
        s.Accepts t q 0x0D .none { s.hall with zones := tput s.hall.zones n ⟨c, none, [], none⟩ }) ∧
    (s.hall.zoneNamed n = false → (s.hall.isLoop n = true → s.hall.attached n = false) →
      ∃ t, exec (.setZone q n none) s = .next t ∧ s.Accepts t q 0x0D .none { s.hall with zones := tdel s.hall.zones n }))


/-! ### The fleet (Chapter 5) -/

/-- Commission, Decommission and Clear Lost Vehicle (R81, R87, R91, R205). -/
def Obligations.VehiclesAreCommissionedAndCleared : Prop :=
  ∀ (s : State) (q : Req) (v : Nat), 1 ≤ v → v ≤ 24 →
    (q.ok 0x11 → s.store.save = none → (s.hall.vehicle v).commissioned = false →
      ∃ t, exec (.commissionVehicle q v) s = .next t ∧ s.Accepts t q 0x11 .none
        (({ s.hall with
          vehicles := tmod s.hall.vehicles v fun x =>
            { x with commissioned := true, activity := .offline, seated := false, supervision := .reporting, missed := 0, timer := none }
          fleetSilence := if s.hall.vehicles.any (fun p => p.2.commissioned) then s.hall.fleetSilence
            else some (s.hall.timebase + 200) } : Hall).lower ⟨.vehicleUnknown, .vehicle v⟩)) ∧
    (q.ok 0x11 → s.store.save = none → (s.hall.vehicle v).commissioned = true →
      ∃ t, exec (.commissionVehicle q v) s = .next t ∧ s.Accepts t q 0x11 .none s.hall) ∧
    (q.ok 0x12 → s.store.save = none → ∀ x, tget s.hall.vehicles v = some x → x.commissioned = true → x.mission = none →
      x.load = none →
      ∃ t, exec (.decommissionVehicle q v) s = .next t ∧ s.Answers t q 0x12 .ok .none ∧
        (tget t.hall.vehicles v).map Vehicle.place =
          some { x with commissioned := false, seated := false, front := none, tail := none, timer := none }.place ∧
        (∀ u, u ≠ v → (tget t.hall.vehicles u).map Vehicle.place = (tget s.hall.vehicles u).map Vehicle.place) ∧
        t.hall.fleetSilence = (if (tmod s.hall.vehicles v fun x => { x with commissioned := false }).any (fun p => p.2.commissioned)
          then s.hall.fleetSilence else none) ∧
        (s.Sound → ∀ k ∈ [FaultKind.zoneConflict, .vehicleSilent, .vehicleLost], (t.hall.fault ⟨k, .vehicle v⟩).active = false)) ∧
    (q.ok 0x12 → s.store.save = none → ((s.hall.vehicle v).commissioned = false ∨ (s.hall.vehicle v).mission.isSome ∨
        (s.hall.vehicle v).load.isSome) → exec (.decommissionVehicle q v) s = .next (s.reply q 0x12 .state .none)) ∧
    (q.ok 0x13 → (s.hall.vehicle v).commissioned = true → (s.hall.vehicle v).supervision = .lost →
      ∃ t, exec (.clearLostVehicle q v) s = .next t ∧ s.Accepts t q 0x13 .none
        (({ s.hall with vehicles := tmod s.hall.vehicles v fun x => { x with supervision := .reporting, missed := 0 } } : Hall).lower
          ⟨.vehicleLost, .vehicle v⟩)) ∧
    (q.ok 0x13 → ((s.hall.vehicle v).commissioned = false ∨ (s.hall.vehicle v).supervision ≠ .lost) →
      exec (.clearLostVehicle q v) s = .next (s.reply q 0x13 .state .none))

/-- Manual Mission enters a PARK, INTAKE or RETURN mission in the lowest free slot; a drop bay not named is chosen by the Bay Map
(R55, R95, R96); a RETURN from a bay is made of any reel there that no call or mission has, QUARANTINED ones too, by the model's reading
(log 68). Cancel Mission ends a mission no vehicle has, a CHARGE mission, or one whose reel is not yet picked, with its Mission End notice; it
turns one whose reel is aboard into a RETURN; a RETURN already picked and a mission at its transfer are refused, a mission whose reel is no
longer at its vehicle is removed, and an empty slot is NOT_FOUND (R96, R108). That a transfer kept under STOP counts too, and that a PARK
mission under way is cancelled as before its pick, are the model's choices (log 76). Manual Mission RETURN of a reel on a vehicle without a
mission is made under way (R96, R107), with the host's deadline by the model's choice (log 80). Acknowledge Vehicle Abort removes the record, or, of a LOST vehicle with VEHICLE_LOST in it, every other cause; the reply gives the causes left
(R106). -/
def Obligations.HostMissionsEnterAndLeave : Prop :=
  (∀ (s : State) (q : Req) (slot : Nat) (deadline : Option Nat), q.ok 0x14 → lowestFree s.hall.missions 48 = some slot →
    (∀ id bay n, 1 ≤ n → n ≤ 24 → s.hall.served (.park n) = true →
      ∃ t, exec (.manualMission q .park id bay n deadline) s = .next t ∧ s.Accepts t q 0x14 (.number slot)
        { s.hall with
          missions := tput s.hall.missions slot
            { kind := .park, reel := none, pickup := none, drop := some (.park n), cls := .park
              deadline := deadline.getD s.hall.clock, created := s.hall.clock, state := .waiting, vehicle := none, route := none
              call := none, holdBack := false } }) ∧
    (∀ id i r bay n, s.hall.reelById id = some (i, r) → r.call = none → s.hall.named ⟨i, id⟩ = false →
      (∀ b, bay = some b → 1 ≤ b.aisle ∧ b.aisle ≤ 16 ∧ 1 ≤ b.pos ∧ b.pos ≤ 48 ∧
        ∃ x, s.hall.bay b = some x ∧ x.blocked = false ∧ x.occupant = none ∧ x.reserved = none) →
      (∀ d, r.loc = .dock d → (r.state = .atDock ∨ r.state = .quarantined) →
        ∃ t, exec (.manualMission q .intake id bay n deadline) s = .next t ∧ s.Accepts t q 0x14 (.number slot)
          { s.hall with
            missions := tput s.hall.missions slot
              { kind := .intake, reel := some ⟨i, id⟩, pickup := some (.dock d)
                drop := (bay.or (s.hall.selectFor ⟨i, id⟩ false)).map .bay, cls := .intake
                deadline := deadline.getD s.hall.clock, created := s.hall.clock, state := .waiting, vehicle := none, route := none
                call := none, holdBack := false } }) ∧
      (∀ b, r.loc = .bay b →
        ∃ t, exec (.manualMission q .ret id bay n deadline) s = .next t ∧ s.Accepts t q 0x14 (.number slot)
          { s.hall with
            missions := tput s.hall.missions slot
              { kind := .ret, reel := some ⟨i, id⟩, pickup := some (.bay b)
                drop := (bay.or (s.hall.selectFor ⟨i, id⟩ false)).map .bay, cls := .ret
                deadline := deadline.getD s.hall.clock, created := s.hall.clock, state := .waiting, vehicle := none, route := none
                call := none, holdBack := false } }) ∧
      (∀ v x, r.loc = .vehicle v → tget s.hall.vehicles v = some x →
        (x.mission.isSome ∨ x.abort.isSome ∨ x.supervision ≠ .reporting →
          exec (.manualMission q .ret id bay n deadline) s = .next (s.reply q 0x14 .state .none)) ∧
        (x.mission = none → x.abort = none → x.supervision = .reporting → x.load = some ⟨i, id⟩ →
          ∃ t m, exec (.manualMission q .ret id bay n deadline) s = .next t ∧ s.Answers t q 0x14 .ok (.number slot) ∧
            t.hall.setting = s.hall.setting ∧ t.hall.mission slot = some m ∧ m.kind = .ret ∧ m.reel = some ⟨i, id⟩ ∧
            m.pickup = none ∧ m.deadline = deadline.getD s.hall.clock ∧ m.created = s.hall.clock ∧ m.call = none ∧
            t.hall = ((s.hall.makeReturn v bay).1.modMission slot fun m => { m with deadline := deadline.getD s.hall.clock }).finish ∧
            ((s.hall.makeReturn v bay).1.mission slot).map (fun m => (m.drop, m.cls, m.state, m.vehicle)) =
              some ((bay.or (s.hall.selectFor ⟨i, id⟩ false)).map .bay, .ret, .carrying, some v) ∧
            ((s.hall.makeReturn v bay).1.vehicle v).mission = some slot)))) ∧
  (∀ (s : State) (q : Req) (slot : Nat), q.ok 0x15 →
    (∀ m, s.hall.mission slot = some m →
      (m.vehicle = none ∨ ∃ v, m.vehicle = some v ∧ (m.kind = .charge ∨
        (s.hall.vehicle v).atTransfer = false ∧ ((m.state ≠ .carrying ∧ m.state ≠ .handover) ∨
          ∀ ref r, m.reel = some ref → s.hall.reel ref = some r → r.loc ≠ .vehicle v))) →
      ∃ t, exec (.cancelMission q slot) s = .next t ∧ s.Answers t q 0x15 .ok .none ∧ t.hall = (s.hall.hostCancel slot m).1.finish ∧
        (tsorted s.hall.missions = true → (s.hall.hostCancel slot m).1.mission slot = none) ∧
        (∀ k, k ≠ slot → (s.hall.hostCancel slot m).1.mission k = s.hall.mission k) ∧ t.hall.setting = s.hall.setting ∧
        (∀ v, m.vehicle = some v → m.kind ≠ .charge → (tget s.hall.vehicles v).isSome →
          ∃ x, ((s.hall.hostCancel slot m).1.vehicle v).abort = some x ∧ .hostCancel ∈ x.causes) ∧
        (s.hall.notices.length ≤ 48 → ∃ k, ⟨k, .missionEnd slot m.kind m.reel m.vehicle .cancelled⟩ ∈ t.hall.notices)) ∧
    (∀ m v ref r, s.hall.mission slot = some m → m.vehicle = some v → (m.kind = .intake ∨ m.kind = .deliver) →
      (s.hall.vehicle v).atTransfer = false → (m.state = .carrying ∨ m.state = .handover) → m.reel = some ref →
      s.hall.reel ref = some r → r.loc = .vehicle v →
      ∃ t n, exec (.cancelMission q slot) s = .next t ∧ s.Answers t q 0x15 .ok .none ∧ t.hall.mission slot = some n ∧
        n.kind = .ret ∧ n.reel = some ref ∧ t.hall.setting = s.hall.setting) ∧
    (∀ m v, s.hall.mission slot = some m → m.vehicle = some v → m.kind ≠ .charge → (s.hall.vehicle v).atTransfer = true →
      exec (.cancelMission q slot) s = .next (s.reply q 0x15 .state .none)) ∧
    (∀ m v ref r, s.hall.mission slot = some m → m.vehicle = some v → m.kind = .ret → (m.state = .carrying ∨ m.state = .handover) →
      m.reel = some ref → s.hall.reel ref = some r → r.loc = .vehicle v →
      exec (.cancelMission q slot) s = .next (s.reply q 0x15 .state .none)) ∧
    (s.hall.mission slot = none → exec (.cancelMission q slot) s = .next (s.reply q 0x15 .notFound .none))) ∧
  (∀ (s : State) (q : Req) (v : Nat), q.ok 0x16 → 1 ≤ v → v ≤ 24 →
    (∀ r, (s.hall.vehicle v).abort = some r → ¬((s.hall.vehicle v).supervision = .lost ∧ AbortCause.vehicleLost ∈ r.causes) →
      ∃ t, exec (.acknowledgeVehicleAbort q v) s = .next t ∧ s.Accepts t q 0x16 (.causes [])
          { s.hall with vehicles := tmod s.hall.vehicles v fun x => { x with abort := none } } ∧
        (s.hall.Served → (t.hall.vehicle v).abort = none)) ∧
    (∀ r, (s.hall.vehicle v).abort = some r → (s.hall.vehicle v).supervision = .lost → AbortCause.vehicleLost ∈ r.causes →
      s.hall.agenda = [] → s.hall.ceilings = [] →
      exec (.acknowledgeVehicleAbort q v) s = .next (({ s with hall := { s.hall with
        vehicles := tmod s.hall.vehicles v fun x => { x with abort := some { r with causes := [.vehicleLost] } } } } : State).reply q
          0x16 .ok (.causes [.vehicleLost]))) ∧
    ((s.hall.vehicle v).abort = none → exec (.acknowledgeVehicleAbort q v) s = .next (s.reply q 0x16 .state .none)))

/-- Traffic Control's acts on zones: when a merge is admitted (R69); a report's position, conflict and releases (R70 to R72); the cases of a
request (R73); wait lists of four (R74); the zone arbiter, vehicles on the loop first (R75); the admission walk (R76); withdrawal (R77); charger
holds and their end (R78, R79); Clear Lost Vehicle and decommissioning (R81). That a vehicle which joins no full list keeps its old entry is
the model's choice (log 28), and so are that a reported tail under a charger hold counts as not reported (log 57), and that Clear Lost Vehicle
leaves it the zones of its recorded front and tail (log 74). -/
def Obligations.ZonesAreGrantedAndReleased : Prop :=
  (∀ (h : Hall),
    h.loopCount = (vehicleNumbers.filter fun u => h.zones.any fun p =>
      decide (p.2.holder = some u) && match p.2.cfg.use with
        | .loop _ => true
        | _ => false).length) ∧
  (∀ (h : Hall) (v z : Nat), h.mayGrant v z = true ↔
    (h.isLoop z = true → h.loopCount + 1 < h.loopSize ∨ ∃ p ∈ h.zones, p.2.holder = some v ∧ ∃ k, p.2.cfg.use = .loop k)) ∧
  (∀ (h : Hall) (v z : Nat) (x : Zone), tsorted h.zones = true → h.zone z = some x → (tget h.vehicles v).isSome →
    let t := h.grant v z
    (t.zone z).map (fun y => (y.holder, y.hold)) = some (some v, none) ∧ (t.vehicle v).ahead = (h.vehicle v).ahead ++ [z] ∧
    (∀ k, k ≠ z → (t.zone k).map (fun y => (y.holder, y.hold)) = (h.zone k).map fun y => (y.holder, y.hold)) ∧
    (∀ k y, h.waitsFor v = some k → t.zone k = some y → v ∉ y.wait) ∧
    (∀ zones n, (h.vehicle v).directive.kind = .move zones n → (h.vehicle v).withdraw = false →
      (t.vehicle v).directive.kind = .move zones (placeIn zones z))) ∧
  (∀ (h : Hall) (v z : Nat), h.zone z = none → h.requestZone v z = h) ∧
  (∀ (h : Hall) (v z : Nat) (x : Zone), h.zone z = some x →
    ((∀ f, (h.vehicle v).furthest = some f → h.successor f z = false) → h.requestZone v z = h) ∧
    (2 ≤ (h.vehicle v).ahead.length → h.requestZone v z = h) ∧ (x.holder = some v → h.requestZone v z = h) ∧
    (∀ f, (h.vehicle v).furthest = some f → h.successor f z = true → (h.vehicle v).ahead.length < 2 → x.holder ≠ some v →
      (h.allStop = true → h.requestZone v z = (h.join v z).1) ∧
      (h.allStop = false → (∃ c, x.hold = some c ∧ c.vehicle = v) → h.requestZone v z = h.grant v z) ∧
      (h.allStop = false → (x.holder.isSome ∨ ∃ c, x.hold = some c) → (∀ c, x.hold = some c → c.vehicle ≠ v) →
        h.requestZone v z = (h.join v z).1) ∧
      (h.allStop = false → x.holder = none → x.hold = none →
        (x.wait ≠ [] → h.requestZone v z = if (h.join v z).2 then (h.join v z).1.runZone z else h) ∧
        (x.wait = [] → h.mayGrant v z = false → h.requestZone v z = (h.join v z).1) ∧
        (x.wait = [] → h.mayGrant v z = true → h.requestZone v z = h.grant v z))) ∧
    (v ∈ x.wait → h.join v z = (h, true)) ∧ (v ∉ x.wait → 4 ≤ x.wait.length → h.join v z = (h, false)) ∧
    (v ∉ x.wait → x.wait.length < 4 → (h.join v z).2 = true ∧ ((h.join v z).1.zone z).map (·.wait) = some (x.wait ++ [v]) ∧
      ∀ k y, k ≠ z → h.waitsFor v = some k → (h.join v z).1.zone k = some y → v ∉ y.wait) ∧
    ((x.holder.isSome ∨ x.hold.isSome) → h.runZone z = h) ∧
    (x.holder = none → x.hold = none → (∀ w ∈ x.wait, h.follows w z = true) →
      h.runZone z = match (x.wait.filter h.holdsLoop ++ x.wait.filter fun w => !h.holdsLoop w).find? fun w =>
          decide ((h.vehicle w).supervision = .reporting ∧ h.allStop = false ∧ (h.vehicle w).ahead.length < 2) && h.mayGrant w z with
        | some w => h.grant w z
        | none => h) ∧
    (∀ w rest, h.follows w z = false → h.arbitrate z (w :: rest) = (h.unwait w).arbitrate z rest) ∧
    (let g : Hall := { h with zones := tmod h.zones z fun y => { y with holder := none } }
     let f := if h.isCharger z then g.push .chargersFree else g
     h.releaseZone v z = if h.holdsLoop v = true ∧ (f.runZone z).holdsLoop v = false ∧ g.loopCount + 1 < g.loopSize then
       (f.runZone z).admissionWalk else f.runZone z) ∧
    (let leaves := h.isCharger z = true ∧ 0 < h.params.holdTime ∧ ∃ slot m, (h.vehicle v).mission = some slot ∧
       h.mission slot = some m ∧ m.kind ≠ .charge
     (leaves → ((h.leaveZone v z).zone z).map (fun y => (y.holder, y.hold)) =
         some (none, some ⟨v, min 4294967295 (h.clock + h.params.holdTime)⟩) ∧
       ∀ k y, k ≠ z → h.heldCharger v = some k → (h.leaveZone v z).zone k = some y → y.hold = none) ∧
     (¬leaves → h.leaveZone v z = h.releaseZone v z)) ∧
    h.endHold z = (({ h with zones := tmod h.zones z fun y => { y with hold := none } } : Hall).push .chargersFree).runZone z) ∧
  (∀ (h : Hall), h.admissionWalk = (h.zones.map (·.1)).foldl (fun g z =>
    if g.isLoop z && (g.zone z).any fun x => x.holder.isNone && x.hold.isNone && x.wait.any fun w => !g.holdsLoop w then g.runZone z else g) h) ∧
  (∀ (h : Hall) (v : Nat), tsorted h.zones = true → (∀ p ∈ h.zones, v ∈ p.2.wait → h.waitsFor v = some p.1) →
    ((h.withdraw v).vehicle v).ahead = [] ∧
    (∀ z x, z ∈ (h.vehicle v).ahead → (h.withdraw v).zone z = some x → x.holder ≠ some v) ∧
    (∀ z x, z ∉ (h.vehicle v).ahead → h.zone z = some x → x.holder = some v → ∃ y, (h.withdraw v).zone z = some y ∧ y.holder = some v) ∧
    (∀ p ∈ (h.withdraw v).zones, v ∉ p.2.wait) ∧
    (∀ z x, (h.clearLostZones v).zone z = some x → x.holder = some v → (h.vehicle v).front = some z ∨ (h.vehicle v).tail = some z) ∧
    ∀ z x, (h.unseat v).zone z = some x → x.holder ≠ some v) ∧
  (∀ (h : Hall) (v front : Nat) (tail : Option Nat), tsorted h.zones = true → (tget h.vehicles v).isSome →
    let conflict := (∀ x, h.zone front = some x → x.holder ≠ some v) ∨
      ∃ t x u, tail = some t ∧ h.zone t = some x ∧ x.holder = some u ∧ u ≠ v
    (conflict → ∀ request, (h.takePosition v front tail request).zones = h.zones ∧
      ((h.takePosition v front tail request).fault ⟨.zoneConflict, .vehicle v⟩).active = true ∧
      ((h.takePosition v front tail request).vehicle v).ahead = (h.vehicle v).ahead) ∧
    (¬conflict →
      let taken := tail.filter fun t => (h.zone t).any fun x => x.holder.isSome
      let ahead := match (h.vehicle v).ahead.findIdx? (· = front) with
        | some i => (h.vehicle v).ahead.drop (i + 1)
        | none => (h.vehicle v).ahead
      ((h.vehicle v).supervision = .lost → ∀ request, (h.takePosition v front tail request).zones = h.zones ∧
        ((h.takePosition v front tail request).vehicle v).front = some front ∧
        ((h.takePosition v front tail request).vehicle v).tail = taken ∧
        ((h.takePosition v front tail request).vehicle v).ahead = ahead) ∧
      ((h.vehicle v).supervision = .reporting →
        let t := h.takePosition v front tail none
        (t.vehicle v).front = some front ∧ (t.vehicle v).tail = taken ∧ ahead <+: (t.vehicle v).ahead ∧
        (∀ k x, h.zone k = some x → x.holder = some v → (k = front ∨ taken = some k ∨ k ∈ ahead) →
          ∃ y, t.zone k = some y ∧ y.holder = some v) ∧
        (∀ k x, t.zone k = some x → x.holder = some v → k = front ∨ taken = some k ∨ k ∈ (t.vehicle v).ahead) ∧
        ∀ z, h.takePosition v front tail (some z) = t.requestZone v z)))

/-- Stop Fleet makes the fleet all-stopped: every seated vehicle but one whose TRANSFER or UNLOAD is current is STOPPED, under
STOP, and its activity and directive are kept. Resume Fleet ends the all-stop, runs the zone arbiter, and gives each STOPPED vehicle its
activity and its kept directive again under a new number, a MOVE granted through the furthest zone it holds, or through its front while its
grants ahead are being withdrawn; it is refused while there is no all-stop, and while a ZONE_CONFLICT is active (R92, R110, R112). -/
def Obligations.AllStopKeepsAndResumes : Prop :=
  (∀ (h : Hall) (v : Nat) (x : Vehicle), tget h.vehicles v = some x →
    (x.activity ≠ .stopped → h.resumeVehicle v = h) ∧
    (x.activity = .stopped → ∃ y seq, tget (h.resumeVehicle v).vehicles v = some y ∧
      y.activity = x.beforeStop.getD .idle ∧ y.beforeStop = none ∧ y.kept = none ∧ y.directive.number = x.directive.number + 1 ∧
      (h.resumeVehicle v).sent = h.sent ++ [.directive seq v y.directive] ∧
      (x.kept = none → y.directive.kind = .hold) ∧
      (∀ k, x.kept = some k → (∀ zones n, k.kind ≠ .move zones n) → y.directive.kind = k.kind) ∧
      (∀ k zones n, x.kept = some k → k.kind = .move zones n → ∃ place, y.directive.kind = .move zones place ∧
        ∀ z, (if x.withdraw then x.front else x.ahead.getLast?.or x.front) = some z → z ∈ zones → zones[place - 1]? = some z) ∧
      ∀ w, w ≠ v → tget (h.resumeVehicle v).vehicles w = tget h.vehicles w)) ∧
  ∀ (s : State) (q : Req),
    (q.ok 0x17 → s.hall.allStop = false →
      ∃ t, exec (.stopFleet q) s = .next t ∧ s.Accepts t q 0x17 .none { s.hall with allStop := true } ∧
        (s.hall.agenda = [] → s.hall.ceilings = [] → ∀ v, 1 ≤ v → v ≤ 24 →
          let x := s.hall.vehicle v
          let y := t.hall.vehicle v
          (x.seated = true → x.transferring = false →
            y.activity = .stopped ∧ y.beforeStop = some x.activity ∧ y.kept = some ⟨some x.directive.number, x.directive.kind⟩ ∧
              y.directive = ⟨x.directive.number + 1, .stop⟩) ∧
          ((x.seated = false ∨ x.transferring = true) → y = x))) ∧
    (q.ok 0x17 → s.hall.allStop = true → ∃ t, exec (.stopFleet q) s = .next t ∧ s.Accepts t q 0x17 .none s.hall) ∧
    (q.ok 0x18 → s.hall.allStop = true → (∀ p ∈ s.hall.faults, p.2.1.kind = .zoneConflict → p.2.2.active = false) →
      ∃ t, exec (.resumeFleet q) s = .next t ∧ s.Accepts t q 0x18 .none { s.hall with allStop := false } ∧
        t.hall = ((((List.range 24).map (· + 1)).foldl Hall.resumeVehicle
          (Hall.resumeWalk { s.hall with allStop := false })).serveChargers.push .arbiter).finish) ∧
    (q.ok 0x18 → (s.hall.allStop = false ∨ ∃ p ∈ s.hall.faults, p.2.1.kind = .zoneConflict ∧ p.2.2.active = true) →
      exec (.resumeFleet q) s = .next (s.reply q 0x18 .state .none))

/-- Set Fleet Parameters and Set Mass Tolerance: values in range become the parameters, fields not given keep theirs
(R113, R216). -/
def Obligations.ParametersAreSet : Prop :=
  ∀ (s : State) (q : Req), s.store.save = none →
    (q.ok 0x19 → ∀ a : FleetArgs,
      (∀ x, a.reportPeriod = some x → 250 ≤ x ∧ x ≤ 5000 ∧ x % 50 = 0) → (∀ x, a.lostCount = some x → 2 ≤ x ∧ x ≤ 15) →
      (∀ x, a.lowCharge = some x → 10 ≤ x ∧ x ≤ 60) → (∀ x, a.resumeCharge = some x → 40 ≤ x ∧ x ≤ 100) →
      (∀ x, a.holdTime = some x → x ≤ 3600) → (∀ x, a.missionAllowance = some x → 30 ≤ x ∧ x ≤ 1800) →
      (∀ x, a.pickTime = some x → x ≤ 600) → (∀ x, a.transferTime = some x → x ≤ 600) →
      (∀ x, a.waitLimit = some x → 5 ≤ x ∧ x ≤ 120) →
      let p := s.hall.params
      let new : FleetParams :=
        ⟨a.reportPeriod.getD p.reportPeriod, a.lostCount.getD p.lostCount, a.lowCharge.getD p.lowCharge,
          a.resumeCharge.getD p.resumeCharge, a.holdTime.getD p.holdTime, a.missionAllowance.getD p.missionAllowance,
          a.pickTime.getD p.pickTime, a.transferTime.getD p.transferTime, a.waitLimit.getD p.waitLimit⟩
      (new.lowCharge + 10 ≤ new.resumeCharge → ∃ t, exec (.setFleetParameters q a) s = .next t ∧
        s.Accepts t q 0x19 .none { s.hall with params := new }) ∧
      (new.resumeCharge < new.lowCharge + 10 → exec (.setFleetParameters q a) s = .next (s.reply q 0x19 .range .none))) ∧
    (q.ok 0x35 → ∀ v, (1 ≤ v → v ≤ 25 → ∃ t, exec (.setMassTolerance q v) s = .next t ∧
        s.Accepts t q 0x35 .none { s.hall with massTolerance := v }) ∧
      ((v < 1 ∨ 25 < v) → exec (.setMassTolerance q v) s = .next (s.reply q 0x35 .range .none)))

/-! ### Lines and stands (Chapters 6 and 7) -/

/-- Set Line Feed, Set Ceiling and Acknowledge Ceiling Flags: a line configured the first time starts as R163 and R181 say; the
host ceiling is brought between crawl and line max and floored to a multiple of 10, which Set Line Feed does without CHANGED_BY_HOST by the
model's choice (R117, R162, log 61). A frame of a configured line that passes the envelope checks starts its silence timer again and sends the ceiling
and the hold state that the line is owed; of a link that was down, PREP PANEL and the LOAD REQUESTs too; of a link that was up and owes nothing it
does nothing else; a body fault then counts one link error (R142, R163, R202, R204, R214, log 26). -/
def Obligations.LinesAreFedAndHeard : Prop :=
  (∀ (s : State) (q : Req) (n : Nat),
      (q.ok 0x1C → s.store.save = none → 1 ≤ n → n ≤ 4 → ∀ a : LineFeedArgs,
        (∀ x, a.lineMax = some x → 100 ≤ x ∧ x ≤ 1200 ∧ x % 10 = 0) → (∀ x, a.crawl = some x → 30 ≤ x ∧ x ≤ 200 ∧ x % 10 = 0) →
        (∀ x, a.prepAllowance = some x → 30 ≤ x ∧ x ≤ 1800) → (∀ x, a.callLength = some x → x ≤ 60000) →
        (∀ x, a.minIssue = some x → x ≤ 60000) → (∀ x, a.stripDepth = some x → x ≤ 30) →
        let old := ((s.hall.line n).map (·.cfg)).getD ⟨900, 60, 240, 6000, false, 3000, 5, false⟩
        let c : LineCfg := ⟨a.lineMax.getD old.lineMax, a.crawl.getD old.crawl, a.prepAllowance.getD old.prepAllowance,
          a.callLength.getD old.callLength, a.partials.getD old.partials, a.minIssue.getD old.minIssue,
          a.stripDepth.getD old.stripDepth, a.autoPrepare.getD old.autoPrepare⟩
        c.crawl ≤ c.lineMax →
        (s.hall.line n = none → ∃ t, exec (.setLineFeed q n a) s = .next t ∧ s.Accepts t q 0x1C .none { s.hall with
          lines := tput s.hall.lines n
            { cfg := c, run := .stopped, speed := 0, slot := none, waiting := [], hostCeiling := c.lineMax, ceiling := c.lineMax
              reduced := false, byHost := false, constraining := [], lastStatus := none, silence := some (s.hall.timebase + 200)
              oweCeiling := true, oweHold := true }
          counts := tput s.hall.counts n
            ⟨⟨578, 50, 20, 150, 300, 3000, 500, false⟩, none, 0, 0, 0, ⟨0, 0, 0, 0⟩, none, [], false⟩
          unassigned := tput s.hall.unassigned n ⟨0, 0, ⟨0, 0, 0, 0⟩, 0, 0, 0, 0, 0, 0⟩ }) ∧
        (∀ l, s.hall.line n = some l → ∃ t, exec (.setLineFeed q n a) s = .next t ∧ s.Accepts t q 0x1C .none { s.hall with
          lines := tmod s.hall.lines n fun l =>
            { l with cfg := c, hostCeiling := min c.lineMax (max c.crawl l.hostCeiling) / 10 * 10 } })) ∧
      (q.ok 0x24 → ∀ l v, s.hall.line n = some l →
        let u := min l.cfg.lineMax (max l.cfg.crawl v) / 10 * 10
        ∃ t, exec (.setCeiling q n v) s = .next t ∧ s.Accepts t q 0x24 (.number u) { s.hall with
          lines := tmod s.hall.lines n fun l => if u = l.hostCeiling then l else { l with hostCeiling := u, byHost := true } }) ∧
      (q.ok 0x25 → ∀ l, s.hall.line n = some l →
        ∃ t, exec (.acknowledgeCeilingFlags q n) s = .next t ∧ s.Accepts t q 0x25 .none { s.hall with
          lines := tmod s.hall.lines n fun l => { l with reduced := false, byHost := false } } ∧
          (s.hall.agenda = [] → s.hall.ceilings = [] → t.hall.line n = some { l with reduced := false, byHost := false })) ∧
      (s.hall.line n = none → (q.ok 0x24 → ∀ v, exec (.setCeiling q n v) s = .next (s.reply q 0x24 .notFound .none)) ∧
        (q.ok 0x25 → exec (.acknowledgeCeilingFlags q n) s = .next (s.reply q 0x25 .notFound .none)))) ∧
  (∀ (h : Hall) (n : Nat) (l : Line), h.line n = some l →
      (l.oweCeiling = false → l.oweHold = false → (h.fault ⟨.lineLinkDown, .line n⟩).active = false →
        h.lineHeard n = { h with lines := tmod h.lines n fun l => { l with silence := some (h.timebase + 200) } }) ∧
      (h.lineHeard n).reels = h.reels ∧ (h.lineHeard n).stands = h.stands ∧ (h.lineHeard n).missions = h.missions ∧
      (h.lineHeard n).vehicles = h.vehicles ∧ (h.lineHeard n).counts = h.counts ∧ (h.lineHeard n).editions = h.editions ∧
      (h.Sound → ((h.lineHeard n).fault ⟨.lineLinkDown, .line n⟩).active = false) ∧
      (∃ l', (h.lineHeard n).line n = some l' ∧ l'.silence = some (h.timebase + 200) ∧ l'.oweCeiling = false ∧ l'.oweHold = false ∧
        l'.cfg = l.cfg ∧ l'.run = l.run ∧ l'.speed = l.speed) ∧
      (let down := (h.fault ⟨.lineLinkDown, .line n⟩).active
       ((l.oweCeiling = true ∨ down = true) → ∃ seq, Sent.line n seq (.ceiling l.ceiling) ∈ (h.lineHeard n).sent) ∧
       ((l.oweHold = true ∨ down = true) →
         (∃ seq, Sent.line n seq (match tget (h.lineHeard n).holds n with
           | some x => .hold x.count x.first
           | none => .release) ∈ (h.lineHeard n).sent) ∧
         ∀ x, tget (h.lineHeard n).holds n = some x → h.notices.length ≤ 56 →
           ∃ k, ⟨k, .lineHold n (some x)⟩ ∈ (h.lineHeard n).notices) ∧
       (down = true → (∃ seq, Sent.line n seq (.prepPanel (h.panel l)) ∈ (h.lineHeard n).sent) ∧
         ∀ st ∈ h.standsOf n, ∀ y, h.handover st = some y → y.kind = .load → y.phase = .asked →
           ∃ seq, Sent.line n seq (.loadRequest st y.arm y.reel.id) ∈ (h.lineHeard n).sent)) ∧
      ∀ (f : Frame) (k : Nat) (ok : Bool) (take : Hall → Hall), f.link = n → (f.len ≠ k ∨ f.listed = false ∨ ok = false) →
        h.lineFrame f k ok take = ((h.lineHeard n).linkError (.line n)).finish)

/-- Set Stand: a new stand is out of service with cold arms; that its roles are due while its line is BROKEN is the model's choice
(log 18); a known one is given its configuration, but not a new plan while a
reel of the old one is on a vehicle for it. Stand Out of Service and Stand In Service (R119, R120). -/
def Obligations.StandsAreSetAndServed : Prop :=
  ∀ (s : State) (q : Req) (st : StandAddr),
    (q.ok 0x1D → s.store.save = none → 1 ≤ st.line → st.line ≤ 4 → 1 ≤ st.stand → st.stand ≤ 8 → ∀ a : StandArgs,
      a.grade ≤ 15 → 300 ≤ a.width → a.width ≤ 2400 → (∀ x, a.ds = some x → 110 ≤ x ∧ x ≤ 300) →
      (∀ x, a.dmin = some x → 100 ≤ x ∧ x ≤ 280) → (∀ x, a.lockMargin = some x → x ≤ 50) →
      (∀ x, a.maxStep = some x → 10 ≤ x ∧ x ≤ 100) → (∀ x, a.webPath = some x → 5000 ≤ x ∧ x ≤ 120000) →
      (∀ x, a.allowance = some x → x ≤ 3600) → (∀ x, a.offset = some x → -20 ≤ x ∧ x ≤ 20) →
      let old := ((s.hall.stand st).map (·.cfg)).getD ⟨0, 0, 140, 115, 15, 40, 46000, 300, 0⟩
      let c : StandCfg := ⟨a.grade, a.width, a.ds.getD old.ds, a.dmin.getD old.dmin, a.lockMargin.getD old.lockMargin,
        a.maxStep.getD old.maxStep, a.webPath.getD old.webPath, a.allowance.getD old.allowance, a.offset.getD old.offset⟩
      c.dmin < c.ds → (s.hall.line st.line).isSome → (tget s.hall.grades a.grade).isSome →
      (s.hall.stand st = none → ∃ t, exec (.setStand q st a) s = .next t ∧ s.Accepts t q 0x1D .none { s.hall with
        stands := tput s.hall.stands (standKey st)
          { cfg := c, inService := false, mode := .outOfService, running := none, call := none, handover := none, implausible := 0
            lastSplice := none, attempts := 0, retry := none, rolesDue := (s.hall.line st.line).any fun l => decide (l.run = .broken)
            armA := ⟨.empty, none, 0, 0, none, false⟩, armB := ⟨.empty, none, 0, 0, none, false⟩ } }) ∧
      (∀ x, s.hall.stand st = some x → ((x.cfg.grade = c.grade ∧ x.cfg.width = c.width) ∨ s.hall.reelUnderWay x = false) →
        ∃ t, exec (.setStand q st a) s = .next t ∧ s.Accepts t q 0x1D .none { s.hall with
          stands := tmod s.hall.stands (standKey st) fun y => { y with cfg := c } }) ∧
      (∀ x, s.hall.stand st = some x → (x.cfg.grade ≠ c.grade ∨ x.cfg.width ≠ c.width) → s.hall.reelUnderWay x = true →
        exec (.setStand q st a) s = .next (s.reply q 0x1D .state .none))) ∧
    (q.ok 0x1E → ∀ x, s.hall.stand st = some x → x.mode ≠ .outOfService → x.mode ≠ .splicing →
      (x.armA.state ≠ .running ∧ x.armB.state ≠ .running ∨ ∀ l, s.hall.line st.line = some l → l.run ≠ .running) →
      ∃ t, exec (.standOutOfService q st) s = .next t ∧ s.Accepts t q 0x1E .none { s.hall with
        missions := []
        stands := tmod s.hall.stands (standKey st) fun y => { y with inService := false, mode := .outOfService } }) ∧
    (q.ok 0x1F → ∀ x, s.hall.stand st = some x → x.mode = .outOfService →
      ∃ t, exec (.standInService q st) s = .next t ∧ s.Accepts t q 0x1F .none { s.hall with
        stands := tmod s.hall.stands (standKey st) fun y =>
          { y with inService := true, mode := .unknown, armA := { y.armA with known := false }, armB := { y.armB with known := false } } }) ∧
    (q.ok 0x1F → ∀ x, s.hall.stand st = some x → x.mode ≠ .outOfService →
      exec (.standInService q st) s = .next (s.reply q 0x1F .state .none)) ∧
    (s.hall.stand st = none →
      (q.ok 0x1E → exec (.standOutOfService q st) s = .next (s.reply q 0x1E .notFound .none)) ∧
      (q.ok 0x1F → exec (.standInService q st) s = .next (s.reply q 0x1F .notFound .none)))

/-- Return Reel of a standby reel makes a RETURN mission that picks it up at the arm, sets the arm UNLOADING and sends UNLOAD REQUEST
(R135). Declare Arm of what the arm's record holds already, nothing or a reel in its role: the arm becomes known, and an UNKNOWN stand
with both arms known becomes NORMAL, or LOCKED at once by its lock test. Of other contents the arm is taken as by STAND STATUS: EMPTY by the
occupancy rows, a registered reel by adoption on an arm that holds none, which a refusal of the Register refuses (R31, R139). It is refused for a stand that is neither UNKNOWN nor NORMAL on a stopped
line, and while a handover is open (R141, R148). -/
def Obligations.HostUnloadsAndDeclaresArms : Prop :=
  (∀ (s : State) (q : Req) (st : StandAddr) (x : Stand) (arm : ArmName) (ref : ReelRef) (slot : Nat), q.ok 0x20 →
    s.hall.stand st = some x → x.running = some arm.other → (x.arm arm).reel = some ref →
    ((x.arm arm).state = .loaded ∨ (x.arm arm).state = .preparing ∨ (x.arm arm).state = .prepared) → x.mode ≠ .locked →
    x.mode ≠ .splicing → x.handover = none → s.hall.named ref = false → lowestFree s.hall.missions 48 = some slot →
    ∃ t, exec (.returnReel q st) s = .next t ∧ s.Accepts t q 0x20 .none { s.hall with
        missions := tput s.hall.missions slot
          { kind := .ret, reel := some ref, pickup := some (.arm st arm), drop := (s.hall.selectFor ref false).map .bay, cls := .ret
            deadline := s.hall.clock, created := s.hall.clock, state := .waiting, vehicle := none, route := none, call := none
            holdBack := false }
        stands := tmod s.hall.stands (standKey st) fun y =>
          y.modArm arm fun a => { a with state := .unloading, beforeUnload := some a.state } } ∧
      (∃ seq, Sent.line st.line seq (.unloadRequest st arm ref.id) ∈ t.hall.sent) ∧
      ∃ y, t.hall.stand st = some y ∧ (y.arm arm).state = .unloading ∧ (y.arm arm).reel = some ref) ∧
  (∀ (s : State) (q : Req) (st : StandAddr) (arm : ArmName) (role : Role), q.ok 0x21 →
    (∀ x l, s.hall.stand st = some x → s.hall.line st.line = some l → x.handover = none →
      (x.mode = .unknown ∨ x.mode = .normal ∧ l.run = .stopped) →
      let settled (t : State) : Prop := ∃ y, t.hall.stand st = some y ∧ (y.arm arm).known = true ∧
        (x.mode = .unknown → (x.arm arm.other).known = true → y.mode ≠ .unknown) ∧
        (x.mode = .unknown → (x.arm arm.other).known = false → y.mode = .unknown)
      let mode : Mode := if s.hall.downTo st (fun x r => max x.cfg.ds (r.core + 20) + x.cfg.lockMargin) then .locked else .normal
      let g : Hall := { s.hall with
        stands := tmod s.hall.stands (standKey st) fun y =>
          let z := y.modArm arm fun a => { a with known := true }
          if y.mode = .unknown ∧ z.armA.known = true ∧ z.armB.known = true then { z with mode := mode } else z }
      ((x.arm arm).reel = none → ((x.arm arm).state = .empty ∨ (x.arm arm).state = .loading) →
        ∃ t, exec (.declareArm q st arm none role) s = .next t ∧ s.Accepts t q 0x21 .none g ∧ settled t) ∧
      (∃ t, exec (.declareArm q st arm none role) s = .next t ∧ s.Answers t q 0x21 .ok .none ∧ t.hall.setting = s.hall.setting ∧
        t.hall = ((s.hall.takeOccupancy st arm none none).armDeclared st arm).finish) ∧
      (∀ id i r, s.hall.reelById id = some (i, r) → ¬(role = .running ∧ (x.arm arm.other).state = .running) →
        let held := (x.arm arm).reel
        let taken := s.hall.adopt st arm ⟨i, id⟩ (some role)
        (held = none → taken.2 = true → ∃ t, exec (.declareArm q st arm (some id) role) s = .next t ∧
          s.Answers t q 0x21 .ok .none ∧ t.hall.setting = s.hall.setting ∧
          ((x.arm arm).state = .empty → t.hall = (taken.1.armDeclared st arm).finish)) ∧
        (held = none → taken.2 = false → ∃ t, exec (.declareArm q st arm (some id) role) s = .next t ∧
          s.Answers t q 0x21 .state .none ∧ t.hall = taken.1.finish) ∧
        (∀ ref, held = some ref → ref.id ≠ id →
          exec (.declareArm q st arm (some id) role) s = .next (s.reply q 0x21 .state .none))) ∧
      (∀ id, s.hall.reelById id = none → exec (.declareArm q st arm (some id) role) s = .next (s.reply q 0x21 .notFound .none)) ∧
      (∀ id i r, s.hall.reelById id = some (i, r) → role = .running → (x.arm arm.other).state = .running →
        exec (.declareArm q st arm (some id) role) s = .next (s.reply q 0x21 .state .none)) ∧
      (∀ ref i r, (x.arm arm).reel = some ref → s.hall.reelById ref.id = some (i, r) →
        ((x.arm arm).state = .prepared ∧ role = .prepared ∨ (x.arm arm).state = .loaded ∧ role = .standby) →
        ∃ t, exec (.declareArm q st arm (some ref.id) role) s = .next t ∧ s.Accepts t q 0x21 .none g ∧ settled t)) ∧
    (∀ x reel, s.hall.stand st = some x → (x.handover.isSome ∨ (x.mode ≠ .unknown ∧
        (x.mode ≠ .normal ∨ ∀ l, s.hall.line st.line = some l → l.run ≠ .stopped))) →
      exec (.declareArm q st arm reel role) s = .next (s.reply q 0x21 .state .none)) ∧
    (∀ reel, s.hall.stand st = none → exec (.declareArm q st arm reel role) s = .next (s.reply q 0x21 .notFound .none)))

/-! ### Counting, editions and faults (Chapters 8 to 10) -/

/-- Finalizing copies up to `n` makes them final: F is `n`, each copy counts as waste of the cause of the interval that covers it, or as
good, the counts are handed on in one transfer, and an interval all of whose copies are final leaves the list (R166, R172). Set Line Counting changes the settings, and finalizes what a lowered depth
leaves too deep; Clear Line Counters finalizes every provisional copy, answers the counts, and sets them to 0 (R164, R167, R179,
log 37). -/
def Obligations.CountersAreSetAndCleared : Prop :=
  (∀ (c : LineCount) (n : Nat), c.finalized < n →
    (c.finalizeTo n).finalized = n ∧ (c.finalizeTo n).counted = c.counted ∧ (c.finalizeTo n).gate = c.gate ∧
    (c.intervals = [] → c.good + (n - c.finalized) ≤ 281474976710655 →
      (c.finalizeTo n).good = c.good + (n - c.finalized) ∧ (c.finalizeTo n).intervals = []) ∧
    (∀ iv, iv ∈ (c.finalizeTo n).intervals ↔ iv ∈ c.intervals ∧ ∀ e, iv.stop = some e → n + 1 < e) ∧
    (c.intervals.Pairwise (fun x y => ∃ e, x.stop = some e ∧ e ≤ y.first) →
      let causeOf (k : Nat) : Option Cause :=
        (c.intervals.find? fun iv => decide (iv.first ≤ k) && iv.stop.all fun e => decide (k < e)).map (·.cause)
      let copies (x : Option Cause) : Nat :=
        (((List.range (n - c.finalized)).map (c.finalized + 1 + ·)).filter fun k => decide (causeOf k = x)).length
      let top := 281474976710655
      (c.finalizeTo n).good = min top (c.good + copies none) ∧
      (c.finalizeTo n).waste = ⟨min top (c.waste.start + copies (some .start)), min top (c.waste.splice + copies (some .splice)),
        min top (c.waste.brk + copies (some .brk)), min top (c.waste.operator + copies (some .operator))⟩ ∧
      ∀ (h : Hall) (line : Nat), h.count line = some c → h.finalizeTo line n =
        Hall.bookCopies line (copies none)
          ⟨copies (some .start), copies (some .splice), copies (some .brk), copies (some .operator)⟩
          { h with counts := tmod h.counts line fun _ => c.finalizeTo n })) ∧
  (∀ (s : State) (q : Req) (n : Nat) (c : LineCount), s.hall.count n = some c →
    (q.ok 0x26 → s.store.save = none → ∀ a : CountArgs,
      (∀ x, a.cutoff = some x → 400 ≤ x ∧ x ≤ 700) → (∀ x, a.depth = some x → x ≤ 200) → (∀ x, a.preMargin = some x → x ≤ 200) →
      (∀ x, a.spliceWindow = some x → x ≤ 2000) → (∀ x, a.restartWindow = some x → x ≤ 5000) →
      (∀ x, a.startLimit = some x → 100 ≤ x ∧ x ≤ 20000) → (∀ x, a.jumpLimit = some x → 50 ≤ x ∧ x ≤ 5000) →
      let k : CountCfg := ⟨a.cutoff.getD c.cfg.cutoff, a.depth.getD c.cfg.depth, a.preMargin.getD c.cfg.preMargin,
        a.spliceWindow.getD c.cfg.spliceWindow, a.restartWindow.getD c.cfg.restartWindow, a.startLimit.getD c.cfg.startLimit,
        a.jumpLimit.getD c.cfg.jumpLimit, a.holdOnDegraded.getD c.cfg.holdOnDegraded⟩
      let d : LineCount := { c with cfg := k }
      ∃ t, exec (.setLineCounting q n a) s = .next t ∧ s.Answers t q 0x26 .ok .none ∧
        t.hall.count n = some (if c.counted - k.depth ≤ c.finalized then d else d.finalizeTo (c.counted - k.depth)) ∧
        t.hall.setting = s.hall.setting) ∧
    (q.ok 0x27 → (∃ l, s.hall.line n = some l ∧ l.run = .stopped) → c.edition = none → (∀ iv ∈ c.intervals, iv.stop.isSome) →
      ∃ t d e, exec (.clearLineCounters q n) s = .next t ∧
        d = (if c.counted ≤ c.finalized then c else c.finalizeTo c.counted) ∧
        s.Answers t q 0x27 .ok (.copies d.counted d.finalized d.good d.waste) ∧ t.hall.count n = some e ∧ e.counted = 0 ∧
        e.finalized = 0 ∧ e.good = 0 ∧ e.waste = ⟨0, 0, 0, 0⟩ ∧ e.gate = c.gate ∧ e.cfg = c.cfg ∧
        t.hall.setting = s.hall.setting) ∧
    (q.ok 0x27 → ((∀ l, s.hall.line n = some l → l.run ≠ .stopped) ∨ c.edition.isSome ∨ ∃ iv ∈ c.intervals, iv.stop = none) →
      exec (.clearLineCounters q n) s = .next (s.reply q 0x27 .state .none)))

/-- Open Edition makes an open record in the slot R185 gives, the slot of a record of the same number, the lowest free one, or that of
the first closed and collected record in the order of opened times and slots, and makes it the line's edition; Close Edition closes it with the
clock, and the reply gives its counts (R184, R185, R192). -/
def Obligations.EditionsOpenAndClose : Prop :=
  (∀ (h : Hall) (n number : Nat),
    let free (p : Nat × Edition) : Prop := p ∈ h.editions ∧ p.2.isOpen = false ∧ p.2.collected = true
    (∀ slot e, h.findEdition n number = some (slot, e) → h.slotForEdition n number = some (slot, some e)) ∧
    (h.findEdition n number = none → ∀ slot, lowestFree h.editions 16 = some slot → h.slotForEdition n number = some (slot, none)) ∧
    (h.findEdition n number = none → lowestFree h.editions 16 = none →
      (h.slotForEdition n number = none ↔ ∀ p, ¬free p) ∧
      ∀ slot old, h.slotForEdition n number = some (slot, old) → ∃ e, old = some e ∧ free (slot, e) ∧
        ∀ p, free p → e.opened < p.2.opened ∨ (e.opened = p.2.opened ∧ slot ≤ p.1))) ∧
  ∀ (s : State) (q : Req) (n number : Nat), 1 ≤ n → n ≤ 4 →
    (q.ok 0x29 → ∀ target c slot old, 0 < number → 0 < target → s.hall.count n = some c → c.edition = none →
      (∀ p, s.hall.findEdition n number = some p → p.2.isOpen = false ∧ p.2.collected = true) →
      s.hall.slotForEdition n number = some (slot, old) →
      ∃ t e d, exec (.openEdition q number n target) s = .next t ∧
        s.Answers t q 0x29 .ok (.opened slot (old.map fun e => (e.line, e.number, e.isOpen))) ∧
        tget t.hall.editions slot = some e ∧
        e = ⟨number, n, true, false, target, s.hall.clock, none, 0, 0, 0, ⟨0, 0, 0, 0⟩, 0, 0, 0, 0, 0, 0, e.reelsUsed, e.truncated⟩ ∧
        t.hall.count n = some d ∧ d.edition = some number ∧ d.finalized = max c.finalized c.counted ∧ d.counted = c.counted ∧
        t.hall.setting = s.hall.setting) ∧
    (q.ok 0x29 → ∀ target c, 0 < number → number ≤ 65535 → 0 < target → s.hall.count n = some c → c.edition = none →
      (∀ p, s.hall.findEdition n number = some p → p.2.isOpen = false ∧ p.2.collected = true) →
      s.hall.slotForEdition n number = none →
      exec (.openEdition q number n target) s = .next (s.reply q 0x29 .full .none)) ∧
    (q.ok 0x2A → ∀ slot e, s.hall.findEdition n number = some (slot, e) → e.isOpen = true → (s.hall.count n).isSome →
      ∃ t e' d, exec (.closeEdition q n number) s = .next t ∧
        s.Answers t q 0x2A .ok (.closed e'.finalized e'.good e'.overrun e'.waste) ∧ tget t.hall.editions slot = some e' ∧
        e'.isOpen = false ∧ e'.closed = some s.hall.clock ∧ t.hall.count n = some d ∧ d.edition = none ∧
        d.counted ≤ d.finalized ∧ t.hall.setting = s.hall.setting) ∧
    (q.ok 0x2A → ∀ slot e, s.hall.findEdition n number = some (slot, e) → e.isOpen = false →
      exec (.closeEdition q n number) s = .next (s.reply q 0x2A .state .none)) ∧
    (q.ok 0x2A → s.hall.findEdition n number = none →
      exec (.closeEdition q n number) s = .next (s.reply q 0x2A .notFound .none))

/-- What making an entry active, inactive or pulsing it does to the entry, and the FAULT notice that each change of it, an unlatching too,
queues ahead of every other notice of the change (R198); the FATAL fleet kinds stop the fleet (R197, R203). -/
def Obligations.FaultEntriesKeepTheirHistory : Prop :=
  ∀ (h : Hall) (k : FaultKey),
    let e := h.fault k
    ((h.raise k).fault k = if e.active then e else ⟨true, true, some (e.first.getD h.clock), some h.clock, min 255 (e.occurrences + 1)⟩) ∧
    ((h.pulse k).fault k = ⟨e.active, true, some (e.first.getD h.clock), some h.clock, min 255 (e.occurrences + 1)⟩) ∧
    (h.Sound → (h.lower k).fault k = { e with active := false }) ∧
    (e.active = true → h.raise k = h) ∧ (e.active = false → h.lower k = h) ∧
    (∀ j : FaultKey, j.num ≠ k.num → (h.raise k).fault j = h.fault j ∧ (h.lower k).fault j = h.fault j ∧
      (h.pulse k).fault j = h.fault j) ∧
    (e.active = false → (k.kind = .zoneConflict ∨ k.kind = .fleetLinkDown) → (h.raise k).allStop = true) ∧
    (let next : FaultEntry := ⟨true, true, some (e.first.getD h.clock), some h.clock, min 255 (e.occurrences + 1)⟩
     let queued (c : FaultChange) (x : FaultEntry) (g : Hall) : Prop :=
       h.notices.length < 64 → (h.notices ++ [⟨h.noticeSeq, .fault k c x⟩]) <+: g.notices
     (e.active = false → queued .active next (h.raise k)) ∧ (e.active = true → queued .inactive { e with active := false } (h.lower k)) ∧
     queued .pulse { next with active := e.active } (h.pulse k) ∧ queued .unlatched ⟨false, false, none, none, 0⟩ (h.unlatch k))

/-- Acknowledge Fault by the condition of the entry, and Acknowledge All Faults (R199). -/
def Obligations.FaultsAreAcknowledged : Prop :=
  ∀ (s : State) (q : Req), s.Sound →
    (q.ok 0x2F → ∀ k x, subjectFits k x = true →
      let e := s.hall.fault ⟨k, x⟩
      (e.active = false → e.latched = true → ∃ t, exec (.acknowledgeFault q (faultCode k) x) s = .next t ∧
        s.Accepts t q 0x2F (.fault ⟨k, x⟩ ⟨false, false, none, none, 0⟩)
          { s.hall with faults := tdel s.hall.faults (FaultKey.num ⟨k, x⟩) }) ∧
      (e.active = false → e.latched = false → ∃ t, exec (.acknowledgeFault q (faultCode k) x) s = .next t ∧
        s.Accepts t q 0x2F (.fault ⟨k, x⟩ e) s.hall) ∧
      (e.active = true → (k ≠ .sensorFailed ∨ ∀ st, x = .stand st → s.hall.standEstimates st = true) →
        exec (.acknowledgeFault q (faultCode k) x) s = .next (s.reply q 0x2F .state (.fault ⟨k, x⟩ e))) ∧
      (∀ st, e.active = true → k = .sensorFailed → x = .stand st → s.hall.standEstimates st = false →
        ∃ t, exec (.acknowledgeFault q (faultCode k) x) s = .next t ∧
          s.Accepts t q 0x2F (.fault ⟨k, x⟩ ⟨false, false, none, none, 0⟩)
            { s.hall with faults := tdel s.hall.faults (FaultKey.num ⟨k, x⟩) })) ∧
    (q.ok 0x2F → ∀ n x, (n = 0 ∨ 24 < n) → exec (.acknowledgeFault q n x) s = .next (s.reply q 0x2F .range .none)) ∧
    (q.ok 0x30 → ∃ t, exec (.acknowledgeAllFaults q) s = .next t ∧
      s.Accepts t q 0x30 (.unlatched ((s.hall.faults.filter fun p => !p.2.2.active && p.2.2.latched).length)
          (s.hall.faults.filter fun p => p.2.2.active).length)
        { s.hall with faults := s.hall.faults.filter fun p => p.2.2.active || !p.2.2.latched })

/-! ### The clock, the configuration and the resets (Chapter 11) -/

/-- Set Clock sets the clock, begins a new count of 100 ticks, answers the value replaced, and makes the conditioning test, as does
each advance of the clock by one second, which stays at its largest value; CONDITIONING_END and CHARGER_HOLD_EXPIRY do one of
those tests (R35, R79, R220, log 16). LINE_LINK_DOWN stops the line's silence timer, raises its entry, and ends its open splices (R157, R204); a LOAD
handover whose wait limit is over turns its mission into a RETURN, and an UNLOAD one ends its mission and its handover (R132, R135); the end
of a retry wait clears it (R151). None of them does anything before its time, by the model's choice (log 3). -/
def Obligations.TimeAndExpiriesAct : Prop :=
  (∀ (s : State),
      (∀ q v, q.ok 0x34 → ∃ t, exec (.setClock q v) s = .next t ∧ s.Answers t q 0x34 .ok (.number s.hall.clock) ∧ t.hall.clock = v ∧
        t.hall.secondFrom = s.hall.timebase ∧
        ∀ i, (tget t.hall.reels i).map Reel.fixed = (tget s.hall.reels i).map fun r =>
          (if r.state = .conditioning ∧ r.earliest ≤ v then { r with state := .stored } else r).fixed) ∧
      (s.hall.secondFrom + 100 ≤ s.hall.timebase →
        ∃ t, exec .hallClockAdvance s = .next t ∧ t = { s with hall := t.hall } ∧ t.hall.clock = min 4294967295 (s.hall.clock + 1) ∧
          t.hall.secondFrom = s.hall.secondFrom + 100 ∧
          ∀ i, (tget t.hall.reels i).map Reel.fixed = (tget s.hall.reels i).map fun r =>
            (if r.state = .conditioning ∧ r.earliest ≤ min 4294967295 (s.hall.clock + 1) then { r with state := .stored } else r).fixed) ∧
      (s.hall.timebase < s.hall.secondFrom + 100 → exec .hallClockAdvance s = .next s) ∧
      (∀ i r, tget s.hall.reels i = some r → r.state = .conditioning → r.earliest ≤ s.hall.clock →
        ∃ t, exec (.conditioningEnd i) s = .next t ∧
          s.Becomes t { s.hall with reels := tput s.hall.reels i { r with state := .stored } }) ∧
      (∀ z x c, s.hall.zone z = some x → x.hold = some c → c.expiry ≤ s.hall.clock →
        ∃ t, exec (.chargerHoldExpiry z) s = .next t ∧
          s.Becomes t { s.hall with zones := tmod s.hall.zones z fun y => { y with hold := none } } ∧
          (t.hall.zone z).map (·.hold) = some none)) ∧
  (∀ (s : State),
      (∀ n l e, s.hall.line n = some l → l.silence = some e → e ≤ s.hall.timebase →
        ∃ t, exec (.lineLinkDown n) s = .next t ∧ t = { s with hall := t.hall } ∧
          (tget t.hall.lines n).map Line.fixed = some ({ l with silence := none } : Line).fixed ∧
          (t.hall.fault ⟨.lineLinkDown, .line n⟩).active = true ∧
          (∀ st x r, s.hall.stand st = some x → st.line = n → 1 ≤ st.stand → st.stand ≤ 8 → x.mode = .splicing →
            x.lastSplice = some r → r.outcome = none → ∃ y, t.hall.stand st = some y ∧ y.mode = .unknown) ∧
          (∀ c, s.hall.count n = some c → ∃ d, t.hall.count n = some d ∧ (∀ iv ∈ d.intervals, iv.sent = false) ∧
            d.counted = c.counted ∧ d.finalized = c.finalized)) ∧
      (∀ st x y m, s.hall.stand st = some x → x.handover = some y → y.started + s.hall.params.waitLimit * 100 ≤ s.hall.timebase →
        s.hall.mission y.mission = some m →
        (y.kind = .load → y.phase ≠ .granted → m.reel.isSome →
          ∃ t n, exec (.handoverWaitLimit st) s = .next t ∧ t = { s with hall := t.hall } ∧ t.hall.setting = s.hall.setting ∧
            tget t.hall.missions y.mission = some n ∧ n.kind = .ret ∧ n.reel = m.reel ∧
            (s.hall.Served → (tget s.hall.vehicles y.vehicle).isSome →
              ∃ a, (t.hall.vehicle y.vehicle).abort = some a ∧ .transferTimeout ∈ a.causes)) ∧
        (y.kind = .unload → y.armDone = false → s.hall.handoverOf y.mission = some (st, y) → tsorted s.hall.missions = true →
          let g := s.hall.waitOver y
          ∃ t, exec (.handoverWaitLimit st) s = .next t ∧ t = { s with hall := g.finish } ∧ t.hall.setting = s.hall.setting ∧
            g.mission y.mission = none ∧ g.handover st = none ∧
            ((tget s.hall.vehicles y.vehicle).isSome → ∃ a, (g.vehicle y.vehicle).abort = some a ∧ .transferTimeout ∈ a.causes) ∧
            (s.hall.notices.length ≤ 48 →
              ∃ k, ⟨k, .missionEnd y.mission m.kind m.reel m.vehicle .aborted⟩ ∈ t.hall.notices))) ∧
      (∀ i, (∀ r, tget s.hall.reels i = some r → r.state = .conditioning → s.hall.clock < r.earliest) →
        exec (.conditioningEnd i) s = .next s) ∧
      (∀ z, (∀ x c, s.hall.zone z = some x → x.hold = some c → s.hall.clock < c.expiry) →
        exec (.chargerHoldExpiry z) s = .next s) ∧
      (∀ st x e, s.hall.stand st = some x → x.retry = some e → e ≤ s.hall.timebase →
        ∃ t, exec (.retryWaitExpiry st) s = .next t ∧ s.Becomes t { s.hall with
          stands := tmod s.hall.stands (standKey st) fun y => { y with retry := none } }) ∧
      (∀ st x, s.hall.stand st = some x → (∀ e, x.retry = some e → s.hall.timebase < e) → exec (.retryWaitExpiry st) s = .next s) ∧
      (∀ st x, s.hall.stand st = some x → (∀ y, x.handover = some y → s.hall.timebase < y.started + s.hall.params.waitLimit * 100) →
        exec (.handoverWaitLimit st) s = .next s) ∧
      (∀ n l, s.hall.line n = some l → (∀ e, l.silence = some e → s.hall.timebase < e) → exec (.lineLinkDown n) s = .next s))

/-- The current image is that of the valid bank with the higher generation (R215). Save Configuration records the configuration with
the next generation and makes the bank not current invalid; SAVE_COMPLETE makes it valid or leaves it invalid, and queues the notice
(R218). The model's choices: a generation at its largest value stays there (log 9), SAVE_COMPLETE with no save in progress changes nothing
(log 3), and a save does not change whether the configuration in use came from the defaults (log 58). -/
def Obligations.SavesWriteTheOtherBank : Prop :=
  (∀ x : Store,
    (∀ b, x.current = some b → (x.bankA = some b ∨ x.bankB = some b) ∧
      (∀ a, x.bankA = some a → a.generation ≤ b.generation) ∧ (∀ a, x.bankB = some a → a.generation ≤ b.generation)) ∧
    (x.current = none ↔ x.bankA = none ∧ x.bankB = none)) ∧
  (∀ (s : State),
    (∀ q, q.ok 0x36 → s.store.save = none →
      let generation := match s.store.current with
        | some b => min 4294967295 (b.generation + 1)
        | none => 1
      ∃ t v, exec (.saveConfiguration q) s = .next t ∧
        t = ({ s with store := t.store } : State).reply q 0x36 .ok (.number generation) ∧ t.store.save = some v ∧
        v.generation = generation ∧ v.image = s.hall.image ∧ s.store.currentName ≠ some v.target ∧ t.store.bank v.target = none ∧
        ∀ n, n ≠ v.target → t.store.bank n = s.store.bank n) ∧
    (∀ q, q.ok 0x36 → s.store.save.isSome → exec (.saveConfiguration q) s = .next (s.reply q 0x36 .busy .none)) ∧
    (∀ v, s.store.save = some v →
      (∃ t, exec (.saveComplete true) s = .next t ∧ t = { s with store := t.store, hall := t.hall } ∧ t.store.save = none ∧
        t.store.bank v.target = some ⟨v.generation, v.image⟩ ∧ (∀ n, n ≠ v.target → t.store.bank n = s.store.bank n) ∧
        t.hall = (s.hall.notify (.configurationSaved true v.generation)).lower ⟨.configDefaults, .none⟩) ∧
      (∃ t, exec (.saveComplete false) s = .next t ∧ t = { s with store := t.store, hall := t.hall } ∧ t.store.save = none ∧
        t.store.bank v.target = none ∧ (∀ n, n ≠ v.target → t.store.bank n = s.store.bank n) ∧
        t.hall = s.hall.notify (.configurationSaved false v.generation))) ∧
    (s.store.save = none → ∀ ok, exec (.saveComplete ok) s = .next s))

/-- Reload Configuration, taken on an all-stopped fleet with every line stopped, makes the current image the configuration, record by
record, with the exceptions of R23, R61, R85 and R219; it is refused without an image. Restart answers OK, and its restart is made by the
next reset event once that reply has been sent (R221, log 25). A cold reset takes the current image as configuration, and gives every other
register its cold reset value; a warm restart keeps the configuration, the clock, the register and the editions, unseats every vehicle and ends
the all-stop. Either queues START first, abandons a save and loses the replies that wait (R47, R115, R217, R221, log 43). That a reload clears
the mark of running on defaults, and that a SPLICING stand is left in service, are the model's choices (logs 58 and 48). -/
def Obligations.ReloadAndResetsSetTheState : Prop :=
  (∀ (s : State) (q : Req), q.ok 0x37 → s.store.save = none → s.hall.allStop = true → (∀ p ∈ s.hall.lines, p.2.run = .stopped) →
    (∀ b, s.store.current = some b →
      (s.hall.Sound ∧ tsorted s.hall.bays = true ∧ tsorted s.hall.zones = true ∧ tsorted s.hall.lines = true ∧
        tsorted s.hall.counts = true ∧ tsorted s.hall.stands = true ∧ tsorted s.hall.missions = true) →
      (tsorted b.image.bays = true ∧ tsorted b.image.zones = true ∧ tsorted b.image.lines = true ∧ tsorted b.image.stands = true) →
      (∀ p ∈ b.image.stands, standKey (standOfKey p.1) = p.1) → (∀ v ∈ vehicleNumbers, (tget s.hall.vehicles v).isSome) →
      (∀ p ∈ s.hall.stands, p.2.mode = .outOfService ↔ p.2.inService = false) →
      (∀ n, (tget s.hall.lines n).isSome ↔ (tget s.hall.counts n).isSome) →
      ∃ t, exec (.reloadConfiguration q) s = .next t ∧ s.Answers t q 0x37 .ok (.number b.generation) ∧
        t.hall.params = b.image.params ∧ t.hall.massTolerance = b.image.massTolerance ∧ t.hall.aisles = b.image.aisles ∧
        t.hall.fromDefaults = false ∧ (t.hall.fault ⟨.configDefaults, .none⟩).active = false ∧
        (∀ g, g ≤ 15 →
          let used := s.hall.reels.any fun p => decide (p.2.grade = g)
          let named := (t.hall.stands.any fun p => decide (p.2.cfg.grade = g)) || t.hall.aisles.any fun p => decide (p.2 = g)
          tget t.hall.grades g = match tget s.hall.grades g, tget b.image.grades g with
            | some old, some new => some (if used then ⟨new.name, old.caliper, old.basis, old.core, new.hours, new.threshold⟩ else new)
            | some old, none => if used || named then some old else none
            | none, new => new) ∧
        (∀ k, (tget t.hall.bays k).map (fun x => (x.kind, x.blocked)) =
          match (tget s.hall.bays k).filter fun x => x.occupant.isSome || x.reserved.isSome with
          | some x => some (x.kind, ((tget b.image.bays k).map (·.blocked)).getD x.blocked)
          | none => (tget b.image.bays k).map fun x => (x.kind, x.blocked)) ∧
        (let kept (k : Nat) (x : Zone) : Prop := s.hall.zone k = some x ∧ (x.holder.isSome ∨ x.hold.isSome ∨ x.wait ≠ [] ∨
           ∃ p ∈ s.hall.missions, ∃ r, p.2.route = some r ∧ k ∈ r.zones)
         (∀ k x, kept k x → (t.hall.zone k).map (·.cfg) = some x.cfg) ∧
         ∀ k c, (∀ x, ¬kept k x) → ((t.hall.zone k).map (·.cfg) = some c ↔
           (tget b.image.zones k = some c ∧ (∀ j x, kept j x → x.cfg.use ≠ c.use) ∧
             ((∃ p, c.use = .loop p) ∨ ∃ a, t.hall.zone c.attach = some a ∧ ∃ p, a.cfg.use = .loop p)))) ∧
        (∀ v, 1 ≤ v → v ≤ 24 → ((t.hall.vehicle v).commissioned = true ↔ v ∈ b.image.commissioned ∨
          ((s.hall.vehicle v).commissioned = true ∧ ((s.hall.vehicle v).mission.isSome ∨ (s.hall.vehicle v).load.isSome)))) ∧
        (∀ n c k, tget b.image.lines n = some (c, k) → (t.hall.count n).map (·.cfg) = some k ∧
          (t.hall.line n).map (fun l => (l.cfg, l.hostCeiling)) = some (c, match s.hall.line n with
            | some l => min c.lineMax (max c.crawl l.hostCeiling) / 10 * 10
            | none => c.lineMax)) ∧
        (∀ n, tget b.image.lines n = none → (t.hall.line n).map (·.cfg) = (s.hall.line n).map (·.cfg) ∧
          (t.hall.count n).map (·.cfg) = (s.hall.count n).map (·.cfg)) ∧
        (∀ k c on, tget b.image.stands k = some (c, on) → (tget t.hall.stands k).map (fun x => (x.cfg, x.inService)) =
          some (c, on || (tget s.hall.stands k).any fun x => decide (x.mode = .splicing))) ∧
        (∀ k, tget b.image.stands k = none → (tget t.hall.stands k).map (fun x => (x.cfg, x.inService)) =
          (tget s.hall.stands k).map fun x => (x.cfg, x.inService))) ∧
    (s.store.current = none → exec (.reloadConfiguration q) s = .next (s.reply q 0x37 .notFound .none))) ∧
  (∀ (s : State) (q : Req), q.ok 0x37 → s.store.save = none → (s.hall.allStop = false ∨ ∃ p ∈ s.hall.lines, p.2.run ≠ .stopped) →
    exec (.reloadConfiguration q) s = .next (s.reply q 0x37 .state .none)) ∧
  (∀ (s : State) (q : Req) (mode : RestartMode), q.ok 0x38 →
    (exec (.restart q mode) s = .next { s with
      host := { replies := s.host.replies ++ [⟨q.tag, 0xB8, .ok, .none⟩], restarts := s.host.restarts ++ [mode] } }) ∧
    (s.host = ⟨[], []⟩ → ∃ t u, exec (.restart q mode) s = .next t ∧ (∀ m, t.restartDue m = false) ∧
      exec .hostLinkTransmit t = .next u ∧ ∀ m, u.restartDue m = true ↔ m = mode)) ∧
  (∀ (s : State) (mode : RestartMode), s.restartDue mode = true ↔ s.host.restarts.head? = some mode ∧
    (s.host.replies.filter fun r => decide (r.kind = 0xB8 ∧ r.status = .ok)).length < s.host.restarts.length) ∧
  (∀ (s : State),
      (∀ cause strap b, (cause = .powerOn ∨ cause = .supplyLow ∨
          cause = .hostCold ∧ s.restartDue .cold = true) →
        s.store.current = some b →
        exec (.coldReset cause strap) s = .next { s with
          host := ⟨[], []⟩
          store := { s.store with save := none }
          hall := {
            clock := 0, timebase := 0, secondFrom := 0, notices := [⟨0, .start cause (.loaded b.generation) 0 strap⟩], noticeSeq := 1
            dropped := 0, links := (List.range 6).map fun i => (i, ⟨0, 0, []⟩), sent := s.hall.sent, lastReset := cause
            fromDefaults := false, strap := strap, grades := b.image.grades, watch := [], reels := []
            massTolerance := b.image.massTolerance, bays := b.image.bays.map fun p => (p.1, ⟨p.2.kind, p.2.blocked, none, none⟩)
            aisles := b.image.aisles, zones := b.image.zones.map fun p => (p.1, ⟨p.2, none, [], none⟩)
            vehicles := (List.range 24).map fun i => (i + 1,
              { number := i + 1, commissioned := b.image.commissioned.contains (i + 1), seated := false, activity := .offline
                supervision := .reporting, missed := 0, front := none, tail := none, ahead := [], charge := 0, load := none
                mission := none, directive := ⟨0, .hold⟩, kept := none, beforeStop := none, abort := none, timer := none
                withdraw := false })
            missions := [], allStop := false, params := b.image.params
            fleetSilence := if b.image.commissioned = [] then none else some 200
            lines := b.image.lines.map fun p => (p.1,
              { cfg := p.2.1, run := .stopped, speed := 0, slot := none, waiting := [], hostCeiling := p.2.1.lineMax
                ceiling := p.2.1.lineMax, reduced := false, byHost := false, constraining := [], lastStatus := none
                silence := some 200, oweCeiling := true, oweHold := true })
            stands := b.image.stands.map fun p => (p.1,
              { cfg := p.2.1, inService := p.2.2, mode := if p.2.2 then .unknown else .outOfService, running := none, call := none
                handover := none, implausible := 0, lastSplice := none, attempts := 0, retry := none, rolesDue := false
                armA := ⟨.empty, none, 0, 0, none, false⟩, armB := ⟨.empty, none, 0, 0, none, false⟩ })
            counts := b.image.lines.map fun p => (p.1, ⟨p.2.2, none, 0, 0, 0, ⟨0, 0, 0, 0⟩, none, [], false⟩)
            editions := [], unassigned := b.image.lines.map fun p => (p.1, ⟨0, 0, ⟨0, 0, 0, 0⟩, 0, 0, 0, 0, 0, 0⟩)
            faults := [], holds := [], agenda := [], ceilings := [] } }) ∧
      (∀ cause strap, (cause = .resetPin ∨ cause = .hostWarm ∨ cause = .hostCold ∧ s.restartDue .cold = false) →
        exec (.coldReset cause strap) s = .next s) ∧
      (∀ cause, (cause = .powerOn ∨ cause = .supplyLow ∨ cause = .hostCold ∨ cause = .hostWarm ∧ s.restartDue .warm = false) →
        exec (.warmRestart cause) s = .next s) ∧
      (∀ cause, (cause = .resetPin ∨ cause = .hostWarm ∧ s.restartDue .warm = true) →
        ∃ t rest, exec (.warmRestart cause) s = .next t ∧
          t = { s with host := ⟨[], []⟩, store := { s.store with save := none }, hall := t.hall } ∧
          t.hall.notices = ⟨0, .start cause .kept s.hall.clock s.hall.strap⟩ :: rest ∧ t.hall.lastReset = cause ∧
          t.hall.allStop = false ∧ t.hall.clock = s.hall.clock ∧ t.hall.strap = s.hall.strap ∧ t.hall.grades = s.hall.grades ∧
          t.hall.params = s.hall.params ∧ t.hall.massTolerance = s.hall.massTolerance ∧ t.hall.aisles = s.hall.aisles ∧
          t.hall.editions = s.hall.editions ∧ t.hall.unassigned = s.hall.unassigned ∧
          (tsorted s.hall.reels = true → ∀ i, (tget t.hall.reels i).map Reel.fixed = (tget s.hall.reels i).map Reel.fixed) ∧
          (∀ v, 1 ≤ v → v ≤ 24 → (s.hall.vehicle v).commissioned = true → (t.hall.vehicle v).seated = false) ∧
          (∀ n, (t.hall.line n).map (·.cfg) = (s.hall.line n).map (·.cfg)) ∧
          (∀ st, (t.hall.stand st).map (·.cfg) = (s.hall.stand st).map (·.cfg)) ∧
          ∀ n, (t.hall.count n).map (fun c => (c.cfg, c.counted, c.finalized, c.good, c.waste)) =
            (s.hall.count n).map fun c => (c.cfg, c.counted, c.finalized, c.good, c.waste)))

/-- Estimate mode: the step of a LINE STATUS, its interval and its carry (R7, R123); the third implausible sample begins it (R121, R123), and
an unload or an arm mismatch ends it (R21). Every step keeps the sum of strip, consumed and remaining length (R2, R3); the strip keeps it for a
reel that has not run, and for one that has the model goes by the stripped flag (R21, log 71). Printed paper, strips and stubs are booked, with
their mass, to the line's open edition or else to its unassigned totals (R5, R188 to R190). -/
def Obligations.EstimatesAndPaperAreBooked : Prop :=
  (∀ (h : Hall), h.stepInterval none = 0 ∧ ∀ t, h.stepInterval (some t) = min 2000 ((h.timebase - t) * 10)) ∧
  (∀ (h : Hall) (speed dt : Nat) (st : StandAddr) (s : Stand) (arm : ArmName) (ref : ReelRef) (r : Reel), h.stand st = some s →
    s.running = some arm → (s.arm arm).reel = some ref → h.reel ref = some r →
    let t := h.estimateStep speed dt st
    let m := min ((speed * dt + (s.arm arm).carry) / 60000) r.remaining
    (s.mode ≠ .outOfService → (s.arm arm).state = .running → r.estimate = true → r.state = .onArm → r.loc = .arm st arm →
      tget t.reels ref.index = some { r with consumed := r.consumed + m, remaining := r.remaining - m } ∧
      (∃ y, t.stand st = some y ∧ (y.arm arm).carry = (speed * dt + (s.arm arm).carry) % 60000) ∧
      t.editions = (h.bookPrinted st.line m r.width r.grade).editions ∧
      t.unassigned = (h.bookPrinted st.line m r.width r.grade).unassigned ∧ Job.callTest st ∈ t.agenda) ∧
    ((s.mode = .outOfService ∨ (s.arm arm).state ≠ .running ∨ r.estimate = false) → t = h)) ∧
  (∀ (h : Hall) (st : StandAddr) (s : Stand) (arm : ArmName) (ref : ReelRef) (r : Reel) (d : Nat), h.stand st = some s →
    h.reel ref = some r → r.state = .onArm → r.loc = .arm st arm → r.estimate = false →
    let t := h.takeSample st arm ref r s.cfg.maxStep d
    (r.core ≤ d → d ≤ r.accepted → r.accepted ≤ d + s.cfg.maxStep →
      let m := h.reelLength r r.accepted - h.reelLength r d
      (t.stand st).map (·.implausible) = some 0 ∧ t.editions = (h.bookPrinted st.line m r.width r.grade).editions ∧
        t.unassigned = (h.bookPrinted st.line m r.width r.grade).unassigned) ∧
    (r.accepted < d → d ≤ r.accepted + 3 → t = h.push (.callTest st)) ∧
    ((r.accepted + 3 < d ∨ d + s.cfg.maxStep < r.accepted) →
      (t.fault ⟨.diameterImplausible, .stand st⟩).latched = true ∧ t.editions = h.editions ∧ t.unassigned = h.unassigned ∧
      (s.implausible < 2 → t.reels = h.reels ∧ (t.stand st).map (·.implausible) = some (s.implausible + 1)) ∧
      (2 ≤ s.implausible → tget t.reels ref.index = some { r with estimate := true } ∧
        (t.fault ⟨.sensorFailed, .stand st⟩).active = true ∧
        ∃ y, t.stand st = some y ∧ y.implausible = 0 ∧ (y.arm arm).carry = 0))) ∧
  (∀ (h : Hall) (r : Reel), (r.estimate = false → h.leaveEstimate r = (r, 0)) ∧
    (r.estimate = true →
      let d := isqrt (r.core * r.core + r.remaining * (4096 * (h.gradeOf r).caliper) / 3217)
      let left := lengthOf (h.gradeOf r).caliper r.core d
      left ≤ r.remaining ∧ h.leaveEstimate r = ({ r with
        estimate := false, accepted := d, remaining := left, consumed := r.consumed + (r.remaining - left) }, r.remaining - left))) ∧
  (∀ (h : Hall) (st : StandAddr) (arm : ArmName) (ref : ReelRef) (r : Reel) (v : Nat), h.reel ref = some r → r.state = .onArm →
    r.loc = .arm st arm →
    (h.askUnload st arm v ref).2 = some (h.leaveEstimate r).2 ∧ (h.askArmMismatch st arm ref).2 = some (h.leaveEstimate r).2 ∧
    tget (h.askUnload st arm v ref).1.reels ref.index = some { (h.leaveEstimate r).1 with state := .inTransit, loc := .vehicle v } ∧
    tget (h.askArmMismatch st arm ref).1.reels ref.index = some { (h.leaveEstimate r).1 with
      state := .quarantined, reason := some .armMismatch, loc := .nowhere } ∧
    (∀ s, h.stand st = some s → (s.arm arm).reel = some ref →
      (h.eject st arm).editions = (h.bookWhite st.line r.remaining r.width r.grade).editions ∧
      (h.eject st arm).unassigned = (h.bookWhite st.line r.remaining r.width r.grade).unassigned ∧
      ∀ l, h.line st.line = some l →
        let m := h.reelLength r r.d0 - h.reelLength r (max r.core (r.d0 - 2 * l.cfg.stripDepth))
        (r.stripped = false → (h.stripReel st arm).editions = (h.bookWhite st.line m r.width r.grade).editions ∧
          (h.stripReel st arm).unassigned = (h.bookWhite st.line m r.width r.grade).unassigned) ∧
        (r.stripped = true → h.stripReel st arm = h))) ∧
  (∀ (h : Hall) (st : StandAddr) (arm : ArmName) (ref : ReelRef) (r : Reel), h.reel ref = some r →
    let sum (x : Reel) : Nat := x.strip + x.consumed + x.remaining
    (sum (h.leaveEstimate r).1 = sum r) ∧
    (∀ d q, r.remaining = h.reelLength r r.accepted → tget (h.askDiameterStep st arm ref d).1.reels ref.index = some q →
      sum q = sum r) ∧
    (∀ m q, tget (h.askEstimateStep st arm ref m).1.reels ref.index = some q → sum q = sum r) ∧
    (∀ n q, r.initial = h.reelLength r r.d0 → r.consumed = 0 → sum r = r.initial →
      tget (h.askStrip st arm ref n).1.reels ref.index = some q → sum q = q.initial)) ∧
  (∀ (h : Hall) (line metres width grade : Nat),
    let mass := metres * width * ((tget h.grades grade).map (·.basis)).getD 0
    (metres = 0 → h.bookPrinted line metres width grade = h ∧ h.bookWhite line metres width grade = h) ∧
    (metres ≠ 0 → ∀ slot e, h.openOn line = some (slot, e) →
      h.bookPrinted line metres width grade = { h with editions := tput h.editions slot { e with
        printedLength := min 4294967295 (e.printedLength + metres), printedMass := min 4294967295 (e.printedMass + mass) } } ∧
      h.bookWhite line metres width grade = { h with editions := tput h.editions slot { e with
        whiteLength := min 4294967295 (e.whiteLength + metres), whiteMass := min 4294967295 (e.whiteMass + mass) } }) ∧
    (metres ≠ 0 → h.openOn line = none →
      h.bookPrinted line metres width grade = { h with unassigned := tmod h.unassigned line fun t => { t with
        printedLength := min 281474976710655 (t.printedLength + metres)
        printedMass := min 281474976710655 (t.printedMass + mass) } } ∧
      h.bookWhite line metres width grade = { h with unassigned := tmod h.unassigned line fun t => { t with
        whiteLength := min 281474976710655 (t.whiteLength + metres)
        whiteMass := min 281474976710655 (t.whiteMass + mass) } }))

/-! ### Frames of the press lines (11.4) -/

/-- A configured line is HELD while a latched FATAL entry, or with hold-on-degraded a latched DEGRADED one, has it or a stand of it as
subject; each change of such an entry evaluates the hold anew, and a change of what HOLD would carry is sent, and noticed (R201, R202). Needed time,
ETA and ceiling value of a stand, the stands that constrain a line and their STARVING entries (R11 to R15, R160); the ceiling sent below the top
sets REDUCED_BY_SUPPLY, and the notice names the lowest constraining stand (R161, R162). That a CEILING which also sets a flag makes one
notice is the model's reading (log 60), and which of several lowest stands it names, the first in address order, its choice (log 82). -/
def Obligations.LinesAreHeldAndConstrained : Prop :=
  (∀ (h : Hall) (n : Nat),
    (∀ k, k ∈ h.holding n ↔ (h.line n).isSome ∧ ∃ p ∈ h.faults, p.2.1 = k ∧ p.2.2.latched = true ∧
      (k.subject = .line n ∨ ∃ st : StandAddr, k.subject = .stand st ∧ st.line = n) ∧
      (faultClass k.kind = .fatal ∨
        (faultClass k.kind = .degraded ∧ ∃ c, h.count n = some c ∧ c.cfg.holdOnDegraded = true))) ∧
    h.holdContent n = (h.holding n).head?.map fun k => ⟨(h.holding n).length, k⟩) ∧
  (∀ (h : Hall) (n : Nat), tsorted h.holds = true →
    (h.holdContent n = tget h.holds n → h.evalHold n = h) ∧
    (h.holdContent n ≠ tget h.holds n →
      tget (h.evalHold n).holds n = h.holdContent n ∧ (∀ j, j ≠ n → tget (h.evalHold n).holds j = tget h.holds j) ∧
      (∃ seq, (h.evalHold n).sent = h.sent ++ [.line n seq (match h.holdContent n with
        | some x => .hold x.count x.first
        | none => .release)]) ∧
      (h.notices.length < 64 → (h.evalHold n).notices = h.notices ++ [⟨h.noticeSeq, .lineHold n (h.holdContent n)⟩])) ∧
    ∀ (k : FaultKey), (k.subject = .line n ∨ ∃ st : StandAddr, k.subject = .stand st ∧ st.line = n) →
      ((h.fault k).active = false → tget (h.raise k).holds n = (h.raise k).holdContent n) ∧
      ((h.fault k).active = true → tget (h.lower k).holds n = (h.lower k).holdContent n) ∧
      tget (h.pulse k).holds n = (h.pulse k).holdContent n ∧ tget (h.unlatch k).holds n = (h.unlatch k).holdContent n) ∧
  (∀ (h : Hall) (st : StandAddr) (s : Stand) (l : Line) (r : Reel), h.stand st = some s → h.line st.line = some l →
    h.runningReel st = some r →
    let time := h.timeToSplice st r s.cfg.ds
    let run := r.remaining - lengthOf (h.gradeOf r).caliper r.core (max s.cfg.ds (r.core + 20))
    let queue := min 65535 ((h.missions.filter fun p => decide (p.2.state = .waiting) && decide (p.2.cls = .deliver ∨ p.2.cls = .urgent) &&
      match h.deliveryOf st with
        | some q => keysBefore (p.2.keys p.1) (q.2.keys q.1)
        | none => decide (p.2.cls = .urgent ∨ p.2.deadline ≤ min 4294967295 (h.clock + time))).length *
      h.params.missionAllowance / max 1 (vehicleNumbers.filter h.available).length)
    h.leadTime st s l time = min 65535 (s.cfg.allowance + l.cfg.prepAllowance + queue) ∧
    (∀ (m : Mission) (leg : Nat), h.legToSpur m st = some leg →
      (m.state = .waiting → h.etaOf st m queue = min 65535 (queue + leg + h.params.pickTime + h.params.transferTime)) ∧
      (∀ x : Route, m.route = some x → m.state = .assigned →
        h.etaOf st m queue = min 65535 (h.timeOf (x.zones.drop x.progress) + leg + h.params.pickTime + h.params.transferTime))) ∧
    (∀ (m : Mission) (x : Route), m.route = some x → m.state = .carrying →
      h.etaOf st m queue = min 65535 (h.timeOf (x.zones.drop x.progress) + h.params.transferTime)) ∧
    (∀ (m : Mission), m.state = .handover → h.etaOf st m queue = min 65535 h.params.transferTime) ∧
    (∀ (m : Mission), h.legToSpur m st = none → (m.state = .waiting ∨ m.state = .assigned) → h.etaOf st m queue = 65535) ∧
    (∀ x, s.running = some x → let a := s.arm x.other
      (a.state = .prepared → h.eta st s time = some 0 ∧ h.needed st s l time = none) ∧
      ((a.state = .loaded ∨ a.state = .preparing) → h.eta st s time = some 0 ∧ h.needed st s l time =
        some (min 65535 (max 10 (max 30 (l.cfg.prepAllowance - min (h.clock - a.loadedAt) 65535))))) ∧
      (a.state ≠ .prepared → a.state ≠ .loaded → a.state ≠ .preparing →
        (∀ c slot m, s.call = some c → c.mission = some slot → h.mission slot = some m →
          h.eta st s time = some (h.etaOf st m queue)) ∧
        h.needed st s l time = (h.eta st s time).map fun e => min 65535 (max 10 (e + l.cfg.prepAllowance)))) ∧
    (s.running = none → (∀ y, s.handover = some y → y.kind = .load → (s.arm y.arm).state ≠ .loaded ∧
        (s.arm y.arm).state ≠ .preparing ∧ (s.arm y.arm).state ≠ .prepared) →
      (∀ c slot m, s.call = some c → c.mission = some slot → h.mission slot = some m →
        h.eta st s time = some (h.etaOf st m queue)) ∧
      h.needed st s l time = (h.eta st s time).map fun e => min 65535 (max 10 (e + l.cfg.prepAllowance))) ∧
    (let counts := s.inService = true ∧ s.mode ≠ .outOfService ∧ s.mode ≠ .unknown ∧
       ((∃ c, s.call = some c ∧ (c.state = .allocated ∨ c.state = .dispatched)) ∨
         ∃ x, s.running = some x ∧ ((s.arm x.other).state = .loading ∨ (s.arm x.other).state = .loaded ∨
           (s.arm x.other).state = .preparing))
     (counts → h.standValue st = (h.needed st s l time).map fun need =>
       min l.cfg.lineMax (max l.cfg.crawl (60 * run / need / 10 * 10))) ∧
     (¬counts → h.standValue st = none))) ∧
  (∀ (h : Hall) (n : Nat) (l : Line), h.line n = some l →
    (∀ p, p ∈ h.lineValues n ↔ p.1 ∈ h.standsOf n ∧ h.standValue p.1 = some p.2) ∧
    (∀ values : List (StandAddr × Nat),
      ((h.takeConstraining n values).line n).map (·.constraining) = some (values.filter fun p => decide (p.2 < l.cfg.lineMax)) ∧
      (h.Sound → 1 ≤ n → n ≤ 4 → (∀ st ∈ h.standsOf n, 1 ≤ st.stand ∧ st.stand ≤ 8) → ∀ st ∈ h.standsOf n,
        (((h.takeConstraining n values).fault ⟨.starving, .stand st⟩).active = true ↔ (st, l.cfg.crawl) ∈ values))) ∧
    (∀ (on : Bool) (st : StandAddr) (slot : Nat) (m : Mission), h.deliveryOf st = some (slot, m) →
      (h.setUrgent on st).missions =
        tmod h.missions slot fun m => { m with cls := if on then .urgent else .deliver }) ∧
    (let reduced := l.reduced || decide (l.ceiling < min l.hostCeiling l.cfg.lineMax)
     (h.sendCeiling n).line n = some { l with reduced := reduced } ∧
     (∃ seq, (h.sendCeiling n).sent = h.sent ++ [.line n seq (.ceiling l.ceiling)]) ∧
     ∃ low : Option (StandAddr × Nat), (low = none ↔ l.constraining = []) ∧
       (∀ p, low = some p → ∃ pre post, l.constraining = pre ++ p :: post ∧ (∀ q ∈ pre, p.2 < q.2) ∧ ∀ q ∈ post, p.2 ≤ q.2) ∧
       (h.notices.length < 64 → (h.sendCeiling n).notices = h.notices ++
         [⟨h.noticeSeq, .ceilingChanged n l.ceiling (min l.hostCeiling l.cfg.lineMax) reduced l.byHost (low.map (·.1))⟩])))

/-- LINE STATUS sets the line's run state and speed, BROKEN staying until RUNNING with a speed above 0 is reported, and counts the
copies (R118, R157, R165, R168). -/
def Obligations.LineStatusCountsCopies : Prop :=
  ∀ (s : State) (f : Frame) (n : Nat) (run : RunState) (speed : Nat) (gate : GateCount) (l : Line), f.ok 8 → f.link = n →
    s.hall.line n = some l →
    ∃ t, exec (.lineStatus f n run speed gate) s = .next t ∧ t = { s with hall := t.hall } ∧
      (tget t.hall.lines n).map Line.fixed = some ({ l with
        run := if l.run = .broken ∧ ¬(run = .running ∧ 0 < min 1200 speed) then .broken else run
        speed := min 1200 speed, silence := some (s.hall.timebase + 200), lastStatus := some s.hall.timebase
        oweCeiling := false, oweHold := false } : Line).fixed ∧
      ∀ c, s.hall.count n = some c → ∃ d, t.hall.count n = some d ∧ d.gate = some gate ∧ d.cfg = c.cfg ∧ d.edition = c.edition ∧
        (c.gate = none → d.counted = c.counted ∧ d.finalized = c.finalized) ∧
        ∀ g, c.gate = some g →
          ((gate - g).toNat ≤ c.cfg.jumpLimit → d.counted = min 281474976710655 (c.counted + (gate - g).toNat) ∧
            d.finalized = max c.finalized (d.counted - c.cfg.depth)) ∧
          (c.cfg.jumpLimit < (gate - g).toNat → d.counted = c.counted ∧ d.finalized = c.finalized ∧ d.good = c.good ∧
            d.waste = c.waste)

/-- DIAMETER of a running reel not in estimate mode: a sample at or below the accepted diameter, by the step limit at most, is the
new accepted diameter, and the length between is consumed; one above it by 3 mm at most is disregarded (R3, R121, R122). -/
def Obligations.DiameterSamplesConsumePaper : Prop :=
  ∀ (s : State) (f : Frame) (st : StandAddr) (arm : ArmName) (raw : Nat) (x : Stand) (ref : ReelRef) (r : Reel), f.ok 5 →
    st.line = f.link → 1 ≤ st.stand → st.stand ≤ 8 → s.hall.stand st = some x → x.mode ≠ .outOfService → x.mode ≠ .unknown →
    (x.arm arm).state = .running → (x.arm arm).reel = some ref → s.hall.reel ref = some r → r.estimate = false →
    let d := (max (r.core : Int) (raw + x.cfg.offset)).toNat
    (d ≤ r.accepted → r.accepted ≤ d + x.cfg.maxStep → r.state = .onArm → r.loc = .arm st arm →
      ∃ t, exec (.diameter f st arm raw) s = .next t ∧ t = { s with hall := t.hall } ∧
        (tget t.hall.reels ref.index).map Reel.fixed = some ({ r with
          accepted := d, remaining := s.hall.reelLength r d
          consumed := r.consumed + (s.hall.reelLength r r.accepted - s.hall.reelLength r d) } : Reel).fixed ∧
        (∀ i, i ≠ ref.index → (tget t.hall.reels i).map Reel.fixed = (tget s.hall.reels i).map Reel.fixed)) ∧
    (r.accepted < d → d ≤ r.accepted + 3 →
      ∃ t, exec (.diameter f st arm raw) s = .next t ∧ s.Becomes t (s.hall.lineHeard st.line))

/-- READY, LOAD_OK and LOAD_WAIT of a stand's LOAD handover: READY of one that WAITS asks it again; LOAD_OK sets the arm LOADING and
directs the vehicle to TRANSFER; LOAD_WAIT makes it WAITING (R130, R131). LOAD_REFUSE of a reel aboard the vehicle makes the reel
QUARANTINED(REFUSED_AT_STAND), counts the refusal, and turns the mission into a RETURN (R34, R133). That an answer acts on the handover's arm
whatever arm it names is the model's choice (log 45). PREP_START and PREPARED: a LOADED arm becomes PREPARING; a LOADED or PREPARING one becomes
PREPARED, its reel being stripped at its first preparation, which the stripped flag alone tells by the model's choice (log 71); any other is
an ARM_MISMATCH and changes nothing (R2, R137, R140). -/
def Obligations.LoadAndPreparationFollowTheArm : Prop :=
  (∀ (s : State) (f : Frame) (st : StandAddr) (arm : ArmName) (x : Stand) (y : Handover), f.ok 16 → st.line = f.link →
    1 ≤ st.stand → st.stand ≤ 8 → s.hall.stand st = some x → x.handover = some y → y.kind = .load →
    (y.phase = .waiting → (x.mode = .normal ∨ x.mode = .starved) →
      ∃ t, exec (.ready f st arm) s = .next t ∧ s.Becomes t (s.hall.lineHeard st.line) ∧
        (∃ seq, Sent.line st.line seq (.loadRequest st y.arm y.reel.id) ∈ t.hall.sent) ∧
        (s.hall.agenda = [] → (t.hall.handover st).map (·.phase) = some .asked)) ∧
    (y.phase ≠ .granted → (x.arm y.arm).state = .empty →
      ∃ t, exec (.loadOk f st arm) s = .next t ∧ s.Becomes t { s.hall.lineHeard st.line with
          stands := tmod s.hall.stands (standKey st) fun z => z.modArm y.arm fun a => { a with state := .loading } } ∧
        (s.hall.allStop = false → ∃ seq n, Sent.directive seq y.vehicle ⟨n, .transfer st y.arm y.reel.id⟩ ∈ t.hall.sent) ∧
        (s.hall.agenda = [] → (t.hall.handover st).map (·.phase) = some .granted ∧
          ∃ z, t.hall.stand st = some z ∧ (z.arm y.arm).state = .loading)) ∧
    (y.phase ≠ .granted →
      ∃ t, exec (.loadWait f st arm) s = .next t ∧ s.Becomes t (s.hall.lineHeard st.line) ∧
        (s.hall.agenda = [] → (t.hall.handover st).map (·.phase) = some .waiting))) ∧
  (∀ (s : State) (f : Frame) (st : StandAddr) (arm : ArmName) (reason : Nat) (x : Stand) (y : Handover) (r : Reel) (m : Mission),
    f.ok 16 → st.line = f.link → 1 ≤ st.stand → st.stand ≤ 8 → s.hall.stand st = some x → x.handover = some y → y.kind = .load →
    y.phase ≠ .granted → s.hall.reel y.reel = some r → r.loc = .vehicle y.vehicle →
    (r.state = .inTransit ∨ r.state = .quarantined) → s.hall.mission y.mission = some m → m.reel = some y.reel →
    ∃ t n, exec (.loadRefuse f st arm reason) s = .next t ∧ t = { s with hall := t.hall } ∧
      (tget t.hall.reels y.reel.index).map Reel.fixed = some ({ r with
        state := .quarantined, reason := some .refusedAtStand, refusals := min 255 (r.refusals + 1) } : Reel).fixed ∧
      tget t.hall.missions y.mission = some n ∧ n.kind = .ret ∧ n.reel = m.reel ∧
      t.hall.setting = (s.hall.lineHeard st.line).setting) ∧
  (∀ (s : State) (f : Frame) (st : StandAddr) (arm : ArmName) (x : Stand), f.ok 16 → st.line = f.link → 1 ≤ st.stand →
      st.stand ≤ 8 → s.hall.stand st = some x →
      ((x.arm arm).state = .loaded → ∃ t, exec (.prepStart f st arm) s = .next t ∧ s.Becomes t { s.hall.lineHeard st.line with
        stands := tmod s.hall.stands (standKey st) fun z => z.modArm arm fun a => { a with state := .preparing } }) ∧
      ((x.arm arm).state ≠ .loaded → ∃ t, exec (.prepStart f st arm) s = .next t ∧
        s.Becomes t ((s.hall.lineHeard st.line).pulse ⟨.armMismatch, .stand st⟩)) ∧
      (∀ ref r, ((x.arm arm).state = .loaded ∨ (x.arm arm).state = .preparing) → (x.arm arm).reel = some ref →
        s.hall.reel ref = some r →
        (r.stripped = true → ∃ t, exec (.prepared f st arm) s = .next t ∧ s.Becomes t { s.hall.lineHeard st.line with
          stands := tmod s.hall.stands (standKey st) fun z => z.modArm arm fun a => { a with state := .prepared } }) ∧
        (∀ l, s.hall.line st.line = some l → r.stripped = false → r.state = .onArm → r.loc = .arm st arm →
          let d := strippedDiameter r.core r.d0 l.cfg.stripDepth
          ∃ t, exec (.prepared f st arm) s = .next t ∧ t = { s with hall := t.hall } ∧
            (tget t.hall.reels ref.index).map Reel.fixed = some ({ r with
              strip := s.hall.reelLength r r.d0 - s.hall.reelLength r d, accepted := d, remaining := s.hall.reelLength r d
              stripped := true } : Reel).fixed ∧
            (∃ z, t.hall.stand st = some z ∧ (z.arm arm).state = .prepared ∧ (z.arm arm).reel = some ref) ∧
            t.hall.setting = (s.hall.lineHeard st.line).setting)) ∧
      ((x.arm arm).state ≠ .loaded → (x.arm arm).state ≠ .preparing → ∃ t, exec (.prepared f st arm) s = .next t ∧
        s.Becomes t ((s.hall.lineHeard st.line).pulse ⟨.armMismatch, .stand st⟩)))

/-- ARM_LOADED of the reel the LOAD handover awaits puts the reel ON_ARM; the arm becomes LOADED and the stand's call ends, and the
arm's half of the handover is done, which ends the mission when the vehicle's is (R31, R116, R126, R134); where the Register refuses,
the arm becomes EMPTY. ARM_LOADED of a reel quarantined with a lost vehicle loads an EMPTY standby arm (R129). UNLOADED puts the reel
on the vehicle and empties the arm (R33, R135); EJECTED makes the butt SPENT and empties the arm (R33, R158). -/
def Obligations.ArmEventsMoveReels : Prop :=
  ∀ (s : State) (f : Frame) (st : StandAddr) (arm : ArmName) (x : Stand), f.ok 16 → st.line = f.link → 1 ≤ st.stand →
    st.stand ≤ 8 → s.hall.stand st = some x →
    let ended (t : State) (ref : ReelRef) : Prop :=
      s.hall.notices.length ≤ 40 → ∃ k, ⟨k, .callEnd st .loaded (some ref)⟩ ∈ t.hall.notices
    (∀ y r, x.handover = some y → y.kind = .load → y.arm = arm → y.armDone = false → (x.arm arm).state = .loading →
      s.hall.reel y.reel = some r → r.state = .inTransit → r.loc = .vehicle y.vehicle →
      ∃ t, exec (.armLoaded f st arm (some y.reel.id)) s = .next t ∧ t = { s with hall := t.hall } ∧
        (tget t.hall.reels y.reel.index).map Reel.fixed = some ({ r with
          state := .onArm, loc := .arm st arm, reason := none, call := none } : Reel).fixed ∧
        t.hall.setting = (s.hall.lineHeard st.line).setting ∧
        (let g := (s.hall.lineHeard st.line).takeLoaded st arm y.reel.id
         t.hall = g.finish ∧ (∀ c, x.call = some c → ended t y.reel) ∧ ∃ z, g.stand st = some z ∧ (z.arm arm).state = .loaded ∧
          (z.arm arm).reel = some y.reel ∧ z.call = none ∧
          (y.transferDone = false → z.handover = some { y with armDone := true }) ∧
          (y.transferDone = true → s.hall.handoverOf y.mission = some (st, y) → (s.hall.mission y.mission).isSome →
            tsorted s.hall.missions = true → z.handover = none ∧ g.mission y.mission = none)) ∧
        ∃ z, t.hall.stand st = some z ∧ (z.arm arm).state = .loaded ∧ (z.arm arm).reel = some y.reel) ∧
    (∀ y r, x.handover = some y → y.kind = .load → y.arm = arm → y.armDone = false → (x.arm arm).state = .loading →
      s.hall.reel y.reel = some r → r.state ≠ .inTransit → r.state ≠ .quarantined →
      ∃ t, exec (.armLoaded f st arm (some y.reel.id)) s = .next t ∧ t = { s with hall := t.hall } ∧
        t.hall.setting = (s.hall.lineHeard st.line).setting ∧ (t.hall.fault ⟨.armMismatch, .stand st⟩).latched = true ∧
        ∃ z, ((s.hall.lineHeard st.line).takeLoaded st arm y.reel.id).stand st = some z ∧ (z.arm arm).state = .empty ∧
          (z.arm arm).reel = none ∧ (y.transferDone = false → z.handover = some { y with armDone := true })) ∧
    (∀ id i r v w, x.running = some arm.other → (x.arm arm).state = .empty → s.hall.reelById id = some (i, r) →
      tget s.hall.reels i = some r → r.state = .quarantined → r.reason = some .vehicleLost → r.loc = .vehicle v →
      tget s.hall.vehicles v = some w → w.load = some ⟨i, id⟩ →
      ∃ t, exec (.armLoaded f st arm (some id)) s = .next t ∧ t = { s with hall := t.hall } ∧
        (tget t.hall.reels i).map Reel.fixed = some ({ r with
          state := .onArm, loc := .arm st arm, reason := none, call := none } : Reel).fixed ∧
        t.hall.setting = (s.hall.lineHeard st.line).setting ∧ (t.hall.vehicle v).load = none ∧
        (∀ c, x.call = some c → ended t ⟨i, id⟩) ∧
        (((s.hall.lineHeard st.line).takeLoaded st arm id).stand st).map (·.call) = some none ∧
        ∃ z, t.hall.stand st = some z ∧ (z.arm arm).state = .loaded ∧ (z.arm arm).reel = some ⟨i, id⟩) ∧
    (∀ y r, x.handover = some y → y.kind = .unload → y.arm = arm → y.armDone = false → (x.arm arm).state = .unloading →
      s.hall.reel y.reel = some r → r.state = .onArm → r.loc = .arm st arm → r.estimate = false →
      ∃ t, exec (.unloaded f st arm) s = .next t ∧ t = { s with hall := t.hall } ∧
        (tget t.hall.reels y.reel.index).map Reel.fixed = some ({ r with
          state := .inTransit, loc := .vehicle y.vehicle } : Reel).fixed ∧
        t.hall.setting = (s.hall.lineHeard st.line).setting ∧
        ∃ z, t.hall.stand st = some z ∧ (z.arm arm).state = .empty ∧ (z.arm arm).reel = none ∧
          (y.transferDone = false → ∀ u, z.handover = some u → u = { y with armDone := true })) ∧
    (∀ ref r, (x.arm arm).state = .expired → (x.arm arm).reel = some ref → s.hall.reel ref = some r → r.state = .onArm →
      r.loc = .arm st arm →
      ∃ t, exec (.ejected f st arm) s = .next t ∧ t = { s with hall := t.hall } ∧
        (tget t.hall.reels ref.index).map Reel.fixed = some ({ r with
          state := .spent, loc := .nowhere, estimate := false } : Reel).fixed ∧
        t.hall.setting = (s.hall.lineHeard st.line).setting ∧
        (∃ z, t.hall.stand st = some z ∧ (z.arm arm).state = .empty ∧ (z.arm arm).reel = none) ∧
        (s.hall.Sound → (t.hall.fault ⟨.cutFailed, .stand st⟩).active = false)) ∧
    ((x.arm arm).state ≠ .expired →
      ∃ t, exec (.ejected f st arm) s = .next t ∧
        s.Becomes t ((s.hall.lineHeard st.line).pulse ⟨.armMismatch, .stand st⟩))

/-- Calls of the Feed Planner and the reels of the Reel Register: which reel is chosen for a stand (R42); its allocation, or STOCK_OUT
(R43); the conditions and the content of a call that the call test raises (R125); what a call becomes by the answers of the Register and the
mission table, with its DELIVER mission (R127); the end of a call, with its Call End notice and what becomes of its reel and its mission (R44, R126);
re-raising (R128), which ends CANCELLED for want of a running arm, having no standby arm, by the model's reading (log 33); the order in which STARVED and RAISED calls are served (R45, R127). -/
def Obligations.CallsAreRaisedAndAllocated : Prop :=
  (∀ (h : Hall) (grade width : Nat) (partials : Bool) (least : Nat), tsorted h.reels = true →
    let fits (i : Nat) (r : Reel) : Prop := tget h.reels i = some r ∧ r.grade = grade ∧ r.width = width ∧ r.state = .stored ∧
      r.call = none ∧ h.named ⟨i, r.id⟩ = false
    (∀ i r, h.chooseReel grade width partials least = some (i, r) → fits i r ∧
      ((partials = true ∧ r.isPartial = true ∧ least ≤ r.remaining ∧
          ∀ j q, fits j q → q.isPartial = true → least ≤ q.remaining → r.remaining < q.remaining ∨ (r.remaining = q.remaining ∧ i ≤ j)) ∨
        (r.isPartial = false ∧ (partials = true → ∀ j q, fits j q → q.isPartial = true → q.remaining < least) ∧
          ∀ j q, fits j q → q.isPartial = false → r.arrival < q.arrival ∨ (r.arrival = q.arrival ∧ i ≤ j)))) ∧
    (h.chooseReel grade width partials least = none →
      ∀ j q, fits j q → q.isPartial = true ∧ (partials = true → q.remaining < least))) ∧
  (∀ (h : Hall) (st : StandAddr) (s : Stand) (l : Line), h.stand st = some s → h.line st.line = some l →
    let choice := h.chooseReel s.cfg.grade s.cfg.width l.cfg.partials l.cfg.minIssue
    (∀ i r, choice = some (i, r) → (h.allocate st).2 = some ⟨i, r.id⟩ ∧
      tget (h.allocate st).1.reels i = some { r with state := .allocated, call := some st } ∧
      (h.Sound → ((h.allocate st).1.fault ⟨.stockOut, .stand st⟩).active = false)) ∧
    (choice = none → (h.allocate st).2 = none ∧ (h.allocate st).1.reels = h.reels ∧
      ((h.allocate st).1.fault ⟨.stockOut, .stand st⟩).active = true) ∧
    (∀ c arm, s.call = some c → s.running = some (ArmName.other arm) →
      let t := (h.allocateFor st).1
      (∀ i r slot, tsorted h.reels = true → choice = some (i, r) → lowestFree h.missions 48 = some slot →
        t.call st = some { c with state := .allocated, reel := some ⟨i, r.id⟩, mission := some slot } ∧
        t.missions = tput h.missions slot
          { kind := .deliver, reel := some ⟨i, r.id⟩, pickup := (match r.loc with | .bay b => some (.bay b) | _ => none)
            drop := some (.arm st arm), cls := if l.constraining.any (fun p => decide (p.1 = st)) then .urgent else .deliver
            deadline := c.deadline, created := h.clock, state := .waiting, vehicle := none, route := none, call := some st
            holdBack := false }) ∧
      (∀ i r, choice = some (i, r) → lowestFree h.missions 48 = none →
        t.call st = some { c with state := .raised, reel := none, mission := none } ∧ t.missions = h.missions ∧
        tget t.reels i = some r ∧ t.agenda = h.agenda) ∧
      (choice = none → t.call st = some { c with state := .starved, reel := none, mission := none } ∧ t.missions = h.missions ∧
        (t.fault ⟨.stockOut, .stand st⟩).active = true)) ∧
    (∀ r, h.runningReel st = some r →
      let time := h.timeToSplice st r s.cfg.ds
      let due := s.inService = true ∧ s.mode ≠ .outOfService ∧ s.mode ≠ .unknown ∧
        (∃ arm, s.running = some arm ∧ (s.arm arm).state = .running ∧ (s.arm arm.other).state = .empty) ∧ s.handover = none ∧
        s.call = none ∧ (time ≤ h.leadTime st s l time ∨
          r.remaining - lengthOf (h.gradeOf r).caliper r.core (max s.cfg.ds (r.core + 20)) ≤ l.cfg.callLength)
      (due → ∃ c, (h.callTest st).call st = some c ∧ c.raisedAt = h.clock ∧ c.deadline = min 4294967295 (h.clock + time) ∧
        c.reraises = 0 ∧ c.state ≠ .dispatched ∧
        (h.notices.length ≤ 40 → ∃ k, ⟨k, .callRaised st c.deadline 0⟩ ∈ (h.callTest st).notices)) ∧
      (¬due → h.callTest st = h))) ∧
  (∀ (h : Hall) (st : StandAddr) (c : Call), h.call st = some c →
    (∀ o loaded, let t := h.endCall st o loaded
      t.call st = none ∧ (h.notices.length ≤ 40 → ∃ k, ⟨k, .callEnd st o loaded⟩ ∈ t.notices) ∧
      (∀ ref r, c.reel = some ref → loaded ≠ some ref → h.reel ref = some r → r.call = some st →
        (∀ slot m, c.mission = some slot → tsorted h.missions = true → h.mission slot = some m → m.kind = .deliver →
          m.reel = some ref → m.call = some st → (∀ x, h.handover st = some x → x.mission = slot → x.phase ≠ .granted) →
          ((m.state = .waiting ∨ m.state = .assigned) → r.state = .allocated → t.mission slot = none ∧
            tget t.reels ref.index = some { r with state := .stored, call := none } ∧ Job.starvedRetry r.grade r.width ∈ t.agenda) ∧
          (∀ v, (m.state = .carrying ∨ m.state = .handover) → m.vehicle = some v → r.loc = .vehicle v → (tget h.vehicles v).isSome →
            r.state ≠ .allocated →
            (∃ n, t.mission slot = some n ∧ n.kind = .ret ∧ n.reel = some ref) ∧
            tget t.reels ref.index = some { r with call := none } ∧
            (o ≠ .outOfService → (t.vehicle v).abort = (h.vehicle v).abort) ∧
            (o = .outOfService → ∃ a, (t.vehicle v).abort = some a ∧ .standOutOfService ∈ a.causes))) ∧
        (c.mission = none → tget t.reels ref.index = some (if r.state = .allocated then { r with state := .stored, call := none }
          else { r with call := none }))) ∧
      (c.reel = none → t.reels = h.reels ∧ t.missions = h.missions ∧
        (c.state = .starved → h.Sound → (t.fault ⟨.stockOut, .stand st⟩).active = false)) ∧
      (∀ ref, c.reel = some ref → loaded = some ref → t.reels = h.reels ∧ t.missions = h.missions)) ∧
    (∀ s, h.stand st = some s →
      (h.callLost st c = false → h.reRaise st = h) ∧
      (h.callLost st c = true → s.inService = false → h.reRaise st = h.endCall st .outOfService none) ∧
      (h.callLost st c = true → s.inService = true → (∀ x, s.running = some x → (s.arm x.other).state ≠ .empty) →
        h.reRaise st = h.endCall st .cancelled none) ∧
      (∀ x, h.callLost st c = true → s.inService = true → s.running = some x → (s.arm x.other).state = .empty →
        ∃ d, (h.reRaise st).call st = some d ∧ d.deadline = c.deadline ∧ d.raisedAt = c.raisedAt ∧
          d.reraises = min 255 (c.reraises + 1) ∧ d.state ≠ .dispatched ∧
          (h.notices.length ≤ 40 → ∃ k, ⟨k, .callRaised st d.deadline d.reraises⟩ ∈ (h.reRaise st).notices))) ∧
    (∀ ref, c.reel = some ref → (h.callLost st c = true ↔ (∀ r, h.reel ref = some r → r.call ≠ some st) ∨
      ∀ slot m, c.mission = some slot → h.mission slot = some m → m.kind ≠ .deliver ∨ m.call ≠ some st ∨ m.reel ≠ some ref)) ∧
    (c.reel = none → h.callLost st c = false)) ∧
  (∀ (h : Hall) (x : CallState), ∃ rows : List (Nat × Nat), h.callsIn x = rows.map (fun p => standOfKey p.2) ∧
    rows.Perm (h.stands.filterMap fun p => (p.2.call.filter fun c => decide (c.state = x)).map fun c => (c.deadline, p.1)) ∧
    rows.Pairwise fun p q => p.1 < q.1 ∨ (p.1 = q.1 ∧ p.2 ≤ q.2)) ∧
  (∀ (h : Hall) (grade width : Nat), h.starvedRetry grade width =
    ((h.callsIn .starved).filter fun st => (h.stand st).any fun s => decide (s.cfg.grade = grade ∧ s.cfg.width = width)).foldl
      (fun h st => (h.allocateFor st).1) h) ∧
  (∀ (h : Hall) (st : StandAddr) (rest : List StandAddr), h.raisedRetry [] = h ∧
    h.raisedRetry (st :: rest) = if (h.allocateFor st).2 then (h.allocateFor st).1 else (h.allocateFor st).1.raisedRetry rest)

/-- The phases of a splice in order: OK writes the phase and waits for the next; ACCEL_FAIL ends it ABORTED, with a retry wait of
10 s while attempts are left; PASTE_FAIL ends it FAILED with the standby LOADED again; CUT_OK and CUT_FAIL put the new reel in the
web, and end it DONE or FAILED. A phase out of order, repeated, or of a stand with no open splice counts PHASE_UNEXPECTED (R146, R151 to R156). The
arms change by PASTE FAIL and CUT also where STAND STATUS has emptied one of them, by the model's choice (log 83). The press console: DIVERT
ON makes an OPERATOR interval from C + 1; DIVERT OFF and GOOD end the OPEN interval of their cause at C + 1, where it leaves the list if it
then covers nothing, by the model's reading (log 19), and on a BROKEN line a BREAK interval follows it, also where a LINE STATUS alone reported
the break, by the model's choice (log 18); SPLICE RETRY gives a LOCKED or STARVED stand its attempts back (R151, R174 to R176). -/
def Obligations.SplicesAndConsoleRun : Prop :=
  (∀ (s : State) (f : Frame) (st : StandAddr) (x : Stand), f.ok 8 → st.line = f.link → 1 ≤ st.stand → st.stand ≤ 8 →
      s.hall.stand st = some x →
      let h := s.hall.lineHeard st.line
      let unexpected (c : Instr) : Prop := ∃ t, exec c s = .next t ∧ s.Becomes t (h.pulse ⟨.phaseUnexpected, .stand st⟩)
      let ended (t : State) (r : SpliceRecord) : Prop := s.hall.notices.length ≤ 48 → ∃ k, ⟨k, .spliceEnd r⟩ ∈ t.hall.notices
      ((x.mode ≠ .splicing ∨ ∀ r, x.lastSplice = some r → r.outcome.isSome) → ∀ gate, unexpected (.accelOk f st) ∧
        unexpected (.accelFail f st) ∧ unexpected (.pasteOk f st) ∧ unexpected (.pasteFail f st) ∧ unexpected (.cutOk f st gate) ∧
        unexpected (.cutFail f st gate)) ∧
      ∀ r : SpliceRecord, x.mode = .splicing → x.lastSplice = some r → r.outcome = none →
      (r.accel ≠ .notReached → unexpected (.accelOk f st) ∧ unexpected (.accelFail f st)) ∧
      ((r.accel = .notReached ∨ r.paste ≠ .notReached) → unexpected (.pasteOk f st) ∧ unexpected (.pasteFail f st)) ∧
      ((r.accel = .notReached ∨ r.paste = .notReached ∨ r.cut ≠ .notReached) → ∀ gate,
        unexpected (.cutOk f st gate) ∧ unexpected (.cutFail f st gate)) ∧
      (r.accel = .notReached →
        (∃ t, exec (.accelOk f st) s = .next t ∧ s.Becomes t { h with
          stands := tmod s.hall.stands (standKey st) fun z => { z with lastSplice := some { r with accel := .ok } } }) ∧
        (∃ t, exec (.accelFail f st) s = .next t ∧ s.Becomes t (Hall.pulse ⟨.spliceAborted, .stand st⟩
          (Hall.notify (.spliceEnd { r with accel := .fail, outcome := some .aborted }) { h with
          stands := tmod s.hall.stands (standKey st) fun z =>
            { z with mode := if s.hall.downTo st (fun x r => max x.cfg.ds (r.core + 20) + x.cfg.lockMargin) then .locked else .normal
                     lastSplice := some { r with accel := .fail, outcome := some .aborted }
                     retry := if z.attempts < 2 then some (s.hall.timebase + 1000) else z.retry } })))) ∧
      (r.accel = .ok → r.paste = .notReached →
        (∃ t, exec (.pasteOk f st) s = .next t ∧ s.Becomes t { h with
          stands := tmod s.hall.stands (standKey st) fun z => { z with lastSplice := some { r with paste := .ok } } }) ∧
        (∃ t, exec (.pasteFail f st) s = .next t ∧ t = { s with hall := t.hall } ∧ t.hall.setting = h.setting ∧
          (t.hall.fault ⟨.spliceFailed, .stand st⟩).latched = true ∧
          ended t { r with paste := .fail, outcome := some .failed } ∧
          ((h.spliceFailed st { r with paste := .fail }).stand st).map (·.lastSplice) =
            some (some { r with paste := .fail, outcome := some .failed }) ∧
          t.hall = (h.spliceFailed st { r with paste := .fail }).finish ∧
          ∃ y, t.hall.stand st = some y ∧ y.mode ≠ .unknown ∧ (y.arm r.toArm).state = .loaded)) ∧
      (r.accel = .ok → r.paste = .ok → r.cut = .notReached → r.toArm = r.fromArm.other → ∀ gate,
        (∃ t, exec (.cutOk f st gate) s = .next t ∧ t = { s with hall := t.hall } ∧ t.hall.setting = h.setting ∧
          ended t { r with cut := .ok, gate := some gate, outcome := some .done } ∧
          ∃ y, t.hall.stand st = some y ∧ y.running = some r.toArm ∧ (y.arm r.toArm).state = .running ∧
            (y.arm r.fromArm).state = .expired) ∧
        (∃ t, exec (.cutFail f st gate) s = .next t ∧ t = { s with hall := t.hall } ∧ t.hall.setting = h.setting ∧
          (t.hall.fault ⟨.cutFailed, .stand st⟩).active = true ∧
          ended t { r with cut := .fail, gate := some gate, outcome := some .failed } ∧
          ∃ y, t.hall.stand st = some y ∧ y.running = some r.toArm ∧ (y.arm r.toArm).state = .running ∧
            (y.arm r.fromArm).state = .expired))) ∧
  (∀ (s : State) (f : Frame) (n : Nat), f.ok 3 → f.link = n →
      let h := s.hall.lineHeard n
      (∀ c, s.hall.count n = some c → c.intervals = [] →
        ∃ t d, exec (.consoleDivertOn f n) s = .next t ∧ t = { s with hall := t.hall } ∧ t.hall.setting = h.setting ∧
          t.hall.count n = some d ∧ d.counted = c.counted ∧ d.finalized = c.finalized ∧ d.gate = c.gate ∧
          d.intervals.map (fun iv => (iv.first, iv.stop, iv.cause)) = [(max (c.counted + 1) (c.finalized + 1), none, .operator)]) ∧
      (∀ c iv, s.hall.count n = some c → c.intervals = [iv] → iv.stop = none →
        let ended : List (Nat × Option Nat × Cause) := if iv.first ≤ c.counted then [(iv.first, some (c.counted + 1), iv.cause)] else []
        let after : List (Nat × Option Nat × Cause) := if s.hall.broken n then
          ended ++ [(max (c.counted + 1) (c.finalized + 1), none, .brk)] else ended
        let becomes (i : Instr) : Prop := ∃ t d, exec i s = .next t ∧ t = { s with hall := t.hall } ∧ t.hall.setting = h.setting ∧
          t.hall.count n = some d ∧ d.counted = c.counted ∧ d.finalized = c.finalized ∧
          d.intervals.map (fun iv => (iv.first, iv.stop, iv.cause)) = after
        (iv.cause = .operator → becomes (.consoleDivertOff f n)) ∧ (iv.cause = .start → becomes (.consoleGood f n)) ∧
        (iv.cause ≠ .operator → ∃ t, exec (.consoleDivertOff f n) s = .next t ∧ s.Becomes t h) ∧
        (iv.cause ≠ .start → ∃ t, exec (.consoleGood f n) s = .next t ∧ s.Becomes t h)) ∧
      (∀ k x, 1 ≤ k → k ≤ 8 → s.hall.stand ⟨n, k⟩ = some x →
        (x.inService = true → (x.mode = .locked ∨ x.mode = .starved) →
          ∃ t, exec (.consoleSpliceRetry f n k) s = .next t ∧ s.Becomes t { h with
            stands := tmod s.hall.stands (standKey ⟨n, k⟩) fun z => { z with attempts := 0, retry := none } } ∧
            ∃ y, t.hall.stand ⟨n, k⟩ = some y ∧ y.retry = none ∧
              (y.attempts = 0 ∨ (y.mode = .splicing ∧ y.attempts = 1))) ∧
        ((x.inService = false ∨ (x.mode ≠ .locked ∧ x.mode ≠ .starved)) →
          ∃ t, exec (.consoleSpliceRetry f n k) s = .next t ∧ s.Becomes t h)))

/-- WEB_BREAK makes the line BROKEN, ends every open splice of its stands BROKEN, and from then on their STAND STATUS is taken with
roles; one that is not a repeat makes the BREAK interval from F + 1 and is counted (R157, R174, R191). -/
def Obligations.WebBreaksStopTheLine : Prop :=
  ∀ (s : State) (f : Frame) (n : Nat) (l : Line), f.ok 1 → f.link = n → s.hall.line n = some l →
    ∃ t, exec (.webBreak f n) s = .next t ∧ t = { s with hall := t.hall } ∧
      (tget t.hall.lines n).map Line.fixed =
        ((s.hall.lineHeard n).line n).map (fun x => ({ x with run := .broken } : Line).fixed) ∧
      (∀ st x, s.hall.stand st = some x → st.line = n → 1 ≤ st.stand → st.stand ≤ 8 → ∃ y, t.hall.stand st = some y ∧
        y.rolesDue = true ∧
        ∀ r, x.mode = .splicing → x.lastSplice = some r → r.outcome = none → y.mode = .unknown ∧
          y.lastSplice = some { r with outcome := some .broken } ∧ y.armA.known = false ∧ y.armB.known = false ∧ y.retry = none) ∧
      (l.run = .broken → t.hall.counts = s.hall.counts ∧ t.hall.editions = s.hall.editions) ∧
      (l.run ≠ .broken →
        (∀ c, s.hall.count n = some c → c.intervals = [] → ∃ d, t.hall.count n = some d ∧ d.counted = c.counted ∧
          d.finalized = c.finalized ∧
          d.intervals.map (fun iv => (iv.first, iv.stop, iv.cause)) = [(c.finalized + 1, none, .brk)]) ∧
        (∀ slot e, s.hall.openOn n = some (slot, e) →
          (tget t.hall.editions slot).map (·.breaks) = some (min 4294967295 (e.breaks + 1))))

/-- The divert interval list and the gate schedule: an interval offered to an ordered list with room covers, with its own cause, the copies
after F that no interval covers (R170); one portion that meets a full list goes to the nearest interval (R171); an OPEN interval that an end leaves
nothing to cover leaves the list, and GATE END removes its entry, by the model's reading (log 19). After a change of the list each interval not yet sent is sent, in full or its end alone
(R177, log 30); a LINE STATUS sends in full every interval not sent, and after a warm restart or a re-base every interval (R178, R182, log 63).
An interval taken in by a neighbour is taken from the gate by a GATE END at its own first copy (log 29). Clear Line Counters renumbers the list
(R172, R179). -/
def Obligations.IntervalsAreOfferedAndSent : Prop :=
  (∀ (f first : Nat) (stop : Option Nat) (cause : Cause) (ivs : List Interval),
    ivs.Pairwise (fun x y => ∃ e, x.stop = some e ∧ e ≤ y.first) → (∀ x ∈ ivs, ∀ e, x.stop = some e → x.first < e) →
    let causeAt (l : List Interval) (n : Nat) : Option Cause :=
      (l.find? fun iv => decide (iv.first ≤ n) && iv.stop.all fun e => decide (n < e)).map (·.cause)
    let a := max first (f + 1)
    let new := (offerInterval f ivs first stop cause).ivs
    (∀ e, stop = some e → e ≤ a → offerInterval f ivs first stop cause = ⟨ivs, []⟩) ∧
    new.length ≤ max 8 ivs.length ∧
    new.Pairwise (fun x y => ∃ e, x.stop = some e ∧ e ≤ y.first) ∧ (∀ x ∈ new, ∀ e, x.stop = some e → x.first < e) ∧
    (∀ x ∈ new, x ∉ ivs → x.sent = false) ∧
    ((∀ e, stop = some e → a < e) → ivs.length + (uncovered a stop ivs).length ≤ 8 → ∀ n,
      causeAt new n = (causeAt ivs n).or (if a ≤ n ∧ (∀ e, stop = some e → n < e) then some cause else none)) ∧
    (∀ p e, (∀ x, stop = some x → a < x) → ivs.length = 8 → uncovered a stop ivs = [(p, e)] →
      (∀ x ∈ ivs, x.cause = cause → x.stop ≠ some p ∧ ∀ k, e = some k → x.first ≠ k) → ∀ n,
      (∀ l, (ivs.filter fun x => decide (x.first < p)).getLast? = some l → causeAt new n =
        (causeAt ivs n).or (if l.first ≤ n ∧ (∀ k, e = some k → n < k) then some l.cause else none)) ∧
      ((∀ x ∈ ivs, p ≤ x.first) → causeAt new n =
        (causeAt ivs n).or (if p ≤ n ∧ ∀ x ∈ ivs, n < x.first then (ivs.head?).map (·.cause) else none)))) ∧
  (∀ (f : Nat) (ivs : List Interval) (iv : Interval), iv ∈ retire f ivs ↔ iv ∈ ivs ∧ ∀ e, iv.stop = some e → f + 1 < e) ∧
  (∀ (c : LineCount) (e : Nat), (c.endOpen e).intervals =
    (c.intervals.filter fun iv => iv.stop.isSome || decide (iv.first < e)).map fun iv =>
      if iv.stop = none then { iv with stop := some e, sent := false, endMoved := true } else iv) ∧
  (∀ (h : Hall) (n e : Nat) (c : LineCount) (iv : Interval) (k : GateCount), h.count n = some c →
    c.intervals.find? (fun iv => iv.stop.isNone) = some iv → e ≤ iv.first → iv.key = some k →
    ∃ seq, Sent.line n seq (.gateEnd k k) ∈ (h.closeOpen n e iv.cause).sent) ∧
  (∀ (c : LineCount), c.cleared.intervals = (c.intervals.filter fun iv => iv.stop.all fun e => decide (c.counted + 1 < e)).map fun iv =>
    { iv with first := max 1 (iv.first - c.counted), stop := iv.stop.map (· - c.counted)
              sent := iv.sent && decide (c.counted < iv.first) }) ∧
  (∀ (c : LineCount) (iv : Interval) (g : GateCount), c.gate = some g →
    let value (n : Nat) : GateCount := g + BitVec.ofNat 32 n - BitVec.ofNat 32 c.counted
    let whole : LineMsg := .gateInterval (value iv.first) (iv.stop.map value) iv.cause
    c.messages iv = match iv.key with
      | none => [whole]
      | some k => if k = value iv.first then (match iv.stop with
          | some e => if iv.endMoved then [.gateEnd k (value e)] else [whole]
          | none => [whole]) else [.gateEnd k k, whole]) ∧
  (∀ (h : Hall) (n : Nat) (c : LineCount), h.count n = some c →
    let lineMsgs (l : List Sent) : List (Nat × LineMsg) := l.filterMap fun x => match x with
      | .line k _ m => some (k, m)
      | _ => none
    (c.gate = none → h.schedule n = h) ∧
    (c.gate.isSome →
      lineMsgs (h.schedule n).sent = lineMsgs h.sent ++
        (((c.intervals.filter fun iv => !iv.sent).map c.messages).flatten.map fun m => (n, m)) ∧
      ((h.schedule n).count n).map (·.intervals) = some (c.intervals.map fun iv =>
        if iv.sent then iv else { iv with
          sent := !(h.fault ⟨.lineLinkDown, .line n⟩).active, key := some (c.gateValue iv.first), endMoved := false })) ∧
    (∀ first stop cause, let o := offerInterval c.finalized c.intervals first stop cause
      (o = ⟨c.intervals, []⟩ → (h.divert n first stop cause).sent = h.sent ∧
        ((h.divert n first stop cause).count n).map (·.intervals) = some c.intervals) ∧
      (o.ivs ≠ c.intervals → h.divert n first stop cause = (h.offer n first stop cause).schedule n ∧
        ((h.offer n first stop cause).count n).map (·.intervals) = some o.ivs ∧
        lineMsgs (h.offer n first stop cause).sent = lineMsgs h.sent ++ o.gone.map fun k => (n, LineMsg.gateEnd k k)))) ∧
  (∀ (s : State) (f : Frame) (n speed : Nat) (gate : GateCount) (l : Line) (c : LineCount), f.ok 8 → f.link = n →
    s.hall.line n = some l → s.hall.count n = some c →
    ∃ t d, exec (.lineStatus f n l.run speed gate) s = .next t ∧ t.hall.count n = some d ∧ d.resend = false ∧
      ∀ iv ∈ c.intervals, (iv.sent = false ∨ c.resend = true ∨ ∃ g, c.gate = some g ∧ c.cfg.jumpLimit < (gate - g).toNat) →
        (∀ e, iv.stop = some e → d.finalized + 1 < e) →
        let value (k : Nat) : GateCount := gate + BitVec.ofNat 32 k - BitVec.ofNat 32 d.counted
        ∃ seq, Sent.line n seq (.gateInterval (value iv.first) (iv.stop.map value) iv.cause) ∈ t.hall.sent)

/-- STAND_STATUS takes the occupancy of arm A, then of arm B: an EMPTY arm shown a registered reel adopts it, and is a mismatch for any other ID
or where the Register refuses; an arm that a splice has left in another state without a reel becomes EMPTY first, an EXPIRED one as by EJECTED,
by the model's choice (log 83); a LOADING arm takes an ID as ARM_LOADED; an arm with a reel shown nothing or another ID is a mismatch of that reel,
which leaves the arm, and an EXPIRED one shown nothing is ejected (R139). The roles of an UNKNOWN stand, and of one after a web break, are taken
with it: both arms are known, each arm with a reel takes the state of its role, and UNKNOWN becomes NORMAL, or LOCKED by the lock test; LOCKED and
STARVED stay unless the running arm changes (R139, R148, R157). Else a role that differs from the record is a mismatch and nothing more, as
`Arm.agrees` says, which for PREPARING and UNLOADING is the model's choice (log 84). -/
def Obligations.StandStatusEstablishesArms : Prop :=
  (∀ (s : State) (f : Frame) (st : StandAddr) (a b : ArmReading) (x : Stand), f.ok 26 → st.line = f.link → 1 ≤ st.stand →
    st.stand ≤ 8 → s.hall.stand st = some x →
    let h := s.hall.lineHeard st.line
    (exec (.standStatus f st a b) s = .next { s with hall := (h.takeStatus st a b).finish }) ∧
    ((x.mode = .unknown ∨ x.rolesDue = true) →
      ∃ t y, exec (.standStatus f st a b) s = .next t ∧ t = { s with hall := t.hall } ∧ t.hall.setting = h.setting ∧
        t.hall.stand st = some y ∧ y.armA.known = true ∧ y.armB.known = true ∧ (x.mode = .unknown → y.mode ≠ .unknown) ∧
        ((∀ l, s.hall.line st.line = some l → l.run ≠ .broken) → y.rolesDue = false)) ∧
    (x.mode ≠ .unknown → x.rolesDue = false → x.armA.reel.map (·.id) = a.reel → x.armB.reel.map (·.id) = b.reel →
      (∀ arm, (x.arm arm).reel = none → (x.arm arm).state = .loading ∨ (x.arm arm).state = .empty) →
      x.armA.agrees a.role = true → x.armB.agrees b.role = true →
      ∃ t, exec (.standStatus f st a b) s = .next t ∧ s.Becomes t h)) ∧
  (∀ (h : Hall) (st : StandAddr) (a b : ArmReading) (s : Stand), h.stand st = some s →
    (s.mode ≠ .unknown → s.rolesDue = false →
      let g := (h.takeOccupancy st .a a.reel none).takeOccupancy st .b b.reel none
      let compared (k : Hall) (arm : ArmName) (r : ArmReading) : Hall :=
        if r.reel.isSome ∧ ∃ y, g.stand st = some y ∧ (y.arm arm).agrees r.role = false then k.pulse ⟨.armMismatch, .stand st⟩ else k
      h.takeStatus st a b = compared (compared g .a a) .b b) ∧
    (∀ l, (s.mode = .unknown ∨ s.rolesDue = true) → s.armA.reel.map (·.id) = a.reel → s.armB.reel.map (·.id) = b.reel →
      (s.armA.state = .unloading ∨ s.armB.state = .unloading → s.handover = none) → h.line st.line = some l →
      let t := h.takeStatus st a b
      let both := a.role = .running ∧ b.role = .running ∧ a.reel.isSome ∧ b.reel.isSome
      let lock (limit : Stand → Reel → Nat) : Prop := ∃ y r, t.stand st = some y ∧ t.runningReel st = some r ∧
        (if r.estimate then estimateDiameter (t.gradeOf r).caliper r.core r.remaining else r.accepted) ≤ limit y r
      ∃ y, t.stand st = some y ∧ y.armA.known = true ∧ y.armB.known = true ∧
        (∀ arm, (s.arm arm).reel = none → (y.arm arm).state = if (s.arm arm).state = .loading then .loading else .empty) ∧
        (∀ arm, (s.arm arm).reel.isSome → (y.arm arm).reel = (s.arm arm).reel ∧
          (y.arm arm).state = match (match arm with | .a => a.role | .b => if both then .standby else b.role) with
            | .running => .running
            | .prepared => .prepared
            | .standby => .loaded
            | .expired => .expired) ∧
        (both → (t.fault ⟨.armMismatch, .stand st⟩).latched = true) ∧
        (a.role = .running → a.reel.isSome → s.armA.state ≠ .running → y.running = some .a) ∧
        (b.role = .running → b.reel.isSome → ¬both → s.armB.state ≠ .running → y.running = some .b) ∧
        (s.mode = .unknown → (lock (fun x r => max x.cfg.ds (r.core + 20) + x.cfg.lockMargin) → y.mode = .locked) ∧
          (¬lock (fun x r => max x.cfg.ds (r.core + 20) + x.cfg.lockMargin) → y.mode = .normal)) ∧
        ((s.mode = .locked ∨ s.mode = .starved) → (∀ arm, (s.arm arm).state = .running → (s.arm arm).reel.isSome) →
          y.running = s.running → y.mode = s.mode) ∧
        ((s.mode = .locked ∨ s.mode = .starved) → y.running ≠ s.running →
          (y.mode = .normal ∨ y.mode = .locked ∨ y.mode = .starved) ∧
          (y.mode = .normal → ¬lock (fun x r => max x.cfg.ds (r.core + 20) + x.cfg.lockMargin)) ∧
          (y.mode = .starved ↔ s.inService = true ∧ lock fun x r => max x.cfg.dmin (r.core + 5))) ∧
        (y.rolesDue = true ↔ s.rolesDue = true ∧ l.run = .broken))) ∧
  (∀ (h : Hall) (st : StandAddr) (s : Stand) (arm : ArmName) (role : Option Role), h.stand st = some s →
    let mark (g : Hall) : Hall := g.pulse ⟨.armMismatch, .stand st⟩
    ((s.arm arm).reel = none → (s.arm arm).state ≠ .loading → (s.arm arm).state ≠ .empty →
      let t := h.takeOccupancy st arm none role
      ((s.arm arm).state = .expired → t = h.eject st arm) ∧
      (∃ y, t.stand st = some y ∧ (y.arm arm).state = .empty ∧ (y.arm arm).reel = none ∧
        y.running = s.running.filter fun x => decide (x ≠ arm)) ∧
      ∀ id, h.takeOccupancy st arm (some id) role = t.takeOccupancy st arm (some id) role) ∧
    ((s.arm arm).reel = none → (s.arm arm).state = .empty →
      (h.takeOccupancy st arm none role = h) ∧
      (∀ id, h.reelById id = none → h.takeOccupancy st arm (some id) role = mark h) ∧
      (∀ id i r, h.reelById id = some (i, r) → (r.state = .onArm ∨ r.state = .spent) → tsorted h.reels = true →
        h.takeOccupancy st arm (some id) role = mark (h.refuseCustody ⟨i, id⟩ .adopt .feedPlanner)) ∧
      (∀ id i r, h.reelById id = some (i, r) → r.state ≠ .onArm → r.state ≠ .spent → (∀ x y, r.loc ≠ .arm x y) →
        tsorted h.reels = true → tsorted h.missions = true → (role = none ∨ role = some .standby) →
        let t := h.takeOccupancy st arm (some id) role
        tget t.reels i = some { r with state := .onArm, loc := .arm st arm, reason := none, call := none } ∧
        (∃ y, t.stand st = some y ∧ (y.arm arm).state = .loaded ∧ (y.arm arm).reel = some ⟨i, id⟩ ∧ y.call = none) ∧
        (h.notices.length ≤ 40 → ∀ c, s.call = some c → ∃ k, ⟨k, .callEnd st .loaded (some ⟨i, id⟩)⟩ ∈ t.notices) ∧
        (∀ b x, r.loc = .bay b → t.bay b = some x → x.occupant = none) ∧
        ∀ slot, h.missionOf ⟨i, id⟩ = some slot → t.mission slot = none)) ∧
    ((s.arm arm).reel = none → (s.arm arm).state = .loading →
      h.takeOccupancy st arm none role = h ∧ ∀ id,
        ((∃ x, s.handover = some x ∧ x.kind = .load ∧ x.arm = arm ∧ x.reel.id = id ∧ x.armDone = false) →
          h.takeOccupancy st arm (some id) role = h.takeLoaded st arm id) ∧
        ((∀ x, s.handover = some x → x.kind ≠ .load ∨ x.arm ≠ arm ∨ x.reel.id ≠ id ∨ x.armDone = true) →
          h.takeOccupancy st arm (some id) role = mark h)) ∧
    ∀ ref, (s.arm arm).reel = some ref →
      (h.takeOccupancy st arm (some ref.id) role = h) ∧
      ((s.arm arm).state = .expired → h.takeOccupancy st arm none role = h.eject st arm) ∧
      (∀ reading, reading ≠ some ref.id → ((s.arm arm).state = .expired → reading ≠ none) →
        h.takeOccupancy st arm reading role = match reading with
          | none => h.armMismatch st arm ref
          | some id => (h.armMismatch st arm ref).takeOccupancy st arm (some id) role) ∧
      let t := h.armMismatch st arm ref
      (∀ r, h.reel ref = some r → r.state = .onArm → r.loc = .arm st arm → r.call = none → tget t.reels ref.index =
        some { (h.leaveEstimate r).1 with state := .quarantined, reason := some .armMismatch, loc := .nowhere }) ∧
      (t.fault ⟨.armMismatch, .stand st⟩).latched = true ∧
      ((s.arm arm).state = .unloading → ∀ slot, h.unloadMission st arm ref = some slot → tsorted h.missions = true →
        t.mission slot = none) ∧
      ∃ y, t.stand st = some y ∧ (y.arm arm).state = .empty ∧ (y.arm arm).reel = none ∧
        ((s.arm arm).state ≠ .unloading ∨ s.handover = none → y.running = s.running.filter (fun x => decide (x ≠ arm))) ∧
        ((s.arm arm).state = .running → y.mode = if s.mode = .locked ∨ s.mode = .starved then .normal else s.mode))

/-! ### Vehicle reports (Chapter 5, 11.4) -/

/-- A VEHICLE_REPORT of a vehicle not commissioned raises VEHICLE_UNKNOWN; of one not seated, whose zones are there and in no other
vehicle's hands, seats it; of a seated one without conflict moves it and restarts its supervision. A body fault counts one link
error (R70, R80, R88, R89, R205, R214). That a seated vehicle's tail in a zone under a charger hold is taken as not reported is the model's
choice (log 57). -/
def Obligations.VehicleReportsSeatAndMove : Prop :=
  ∀ (s : State) (f : Frame) (r : VehicleReport),
    let h := s.hall.fleetHeard
    ((f.len ≠ 19 ∨ f.listed = false ∨ r.vehicle = 0 ∨ 24 < r.vehicle) →
      ∃ t, exec (.vehicleReport f r) s = .next t ∧ s.Becomes t (h.linkError .fleet)) ∧
    (f.ok 19 → 1 ≤ r.vehicle → r.vehicle ≤ 24 →
      ((s.hall.vehicle r.vehicle).commissioned = false →
        ∃ t, exec (.vehicleReport f r) s = .next t ∧ s.Becomes t (h.raise ⟨.vehicleUnknown, .vehicle r.vehicle⟩)) ∧
      (∀ x, tget s.hall.vehicles r.vehicle = some x → x.commissioned = true → x.seated = false →
        (∀ p ∈ s.hall.zones, p.2.holder = some r.vehicle → p.1 = r.front ∨ r.tail = some p.1) →
        (∀ z, (z = r.front ∨ r.tail = some z) →
          ∃ y, s.hall.zone z = some y ∧ (y.holder = none ∨ y.holder = some r.vehicle)) →
        ∃ t, exec (.vehicleReport f r) s = .next t ∧ t = { s with hall := t.hall } ∧
          (tget t.hall.vehicles r.vehicle).map Vehicle.place = some { x with
            seated := true, front := some r.front, tail := r.tail, charge := min 100 r.charge, supervision := .reporting, missed := 0
            timer := some (s.hall.timebase + s.hall.params.reportPeriod / 10) }.place) ∧
      (∀ x z, tget s.hall.vehicles r.vehicle = some x → x.commissioned = true → x.seated = true → x.supervision ≠ .lost →
        s.hall.zone r.front = some z → z.holder = some r.vehicle →
        (∀ k y, r.tail = some k → s.hall.zone k = some y → y.holder = none ∨ y.holder = some r.vehicle) →
        ∃ t, exec (.vehicleReport f r) s = .next t ∧ t = { s with hall := t.hall } ∧
          (tget t.hall.vehicles r.vehicle).map Vehicle.place = some { x with
            front := some r.front, tail := s.hall.takenTail r.tail, charge := min 100 r.charge, supervision := .reporting
            missed := if x.supervision = Supervision.silent then 0 else x.missed
            timer := some (s.hall.timebase + s.hall.params.reportPeriod / 10) }.place))

/-! ### Expiries (R89, R90, R132, R151, R204, R205) -/

/-- SUPERVISION_TIMER_EXPIRY counts a missed report; the first makes a vehicle SILENT, and lost-count ones make it LOST (R89, R90).
FLEET_LINK_DOWN raises its entry and stops the fleet (R205). Neither does anything before its time (log 3). -/
def Obligations.SilentVehiclesAreLost : Prop :=
  ∀ (s : State),
    (∀ v x e, tget s.hall.vehicles v = some x → x.timer = some e → e ≤ s.hall.timebase → x.supervision ≠ .lost →
      let missed := min 255 (x.missed + 1)
      let timer := some (s.hall.timebase + s.hall.params.reportPeriod / 10)
      (missed < s.hall.params.lostCount → x.supervision = .reporting →
        ∃ t, exec (.supervisionTimerExpiry v) s = .next t ∧ s.Becomes t (Hall.raise ⟨.vehicleSilent, .vehicle v⟩ { s.hall with
          vehicles := tmod s.hall.vehicles v fun y => { y with missed := missed, timer := timer, supervision := Supervision.silent } })) ∧
      (missed < s.hall.params.lostCount → x.supervision = .silent →
        ∃ t, exec (.supervisionTimerExpiry v) s = .next t ∧ s.Becomes t { s.hall with
          vehicles := tmod s.hall.vehicles v fun y => { y with missed := missed, timer := timer } }) ∧
      (s.hall.params.lostCount ≤ missed →
        ∃ t, exec (.supervisionTimerExpiry v) s = .next t ∧ t = { s with hall := t.hall } ∧
          (tget t.hall.vehicles v).map Vehicle.place = some { x with missed := missed, timer := timer, supervision := .lost }.place)) ∧
    (∀ v, (∀ e, (s.hall.vehicle v).timer = some e → s.hall.timebase < e) → exec (.supervisionTimerExpiry v) s = .next s) ∧
    (∀ e, s.hall.fleetSilence = some e → e ≤ s.hall.timebase →
      ∃ t, exec .fleetLinkDown s = .next t ∧
        s.Becomes t (Hall.raise ⟨.fleetLinkDown, .none⟩ { s.hall with fleetSilence := none }) ∧
        ((s.hall.fault ⟨.fleetLinkDown, .none⟩).active = false → t.hall.allStop = true)) ∧
    ((∀ e, s.hall.fleetSilence = some e → s.hall.timebase < e) → exec .fleetLinkDown s = .next s)

/-- When a vehicle is available, and which the arbiter gives a waiting mission (R97, R98); what assignment makes of the mission, its vehicle and its
call (R99); the completion a report carries, taken when its number is that of the current directive or, in the all-stop, of the kept one
(R93, R111); PICK of the reel, of nothing, of another reel, or refused (R27, R29, R100); PLACE (R28, R101); the vehicle's half of a handover
(R134, R135); arrival at a drop, which the model takes after the completion and before the stray load check (R93, R101, log 70); the
stray load check (R109), which looks at the kept directive of a STOPPED vehicle by the model's choice (log 53); the end of a set-down, with the
charge test by the model's choice (log 86); the charge need, tested last
by the model's choice (log 59). -/
def Obligations.MissionsAreAssignedAndCompleted : Prop :=
  (∀ (h : Hall) (v : Nat), h.available v = true ↔
    let x := h.vehicle v
    x.commissioned = true ∧ x.seated = true ∧ x.supervision = .reporting ∧ x.abort = none ∧ x.mission = none ∧ x.load = none ∧
      h.params.lowCharge ≤ x.charge ∧ h.allStop = false ∧
      (x.activity = .idle ∨ (x.activity = .charging ∧ h.params.resumeCharge ≤ x.charge))) ∧
  (∀ (h : Hall) (slot : Nat) (m : Mission), h.mission slot = some m → m.state = .waiting → m.kind ≠ .charge → m.drop.isSome →
    let time (v z : Nat) : Option Nat := ((h.vehicle v).front.bind fun f => h.route f z).map fun zones =>
      ((zones.drop 1).map fun k => ((h.zone k).map fun x => x.cfg.time).getD 0).sum
    (∀ z, h.startZone m = some z →
      (∀ v, 1 ≤ v → v ≤ 24 → h.available v = true → ∀ t, time v z = some t →
        (∀ w u, 1 ≤ w → w ≤ 24 → h.available w = true → time w z = some u → t < u ∨ (t = u ∧ v ≤ w)) →
        h.arbiterOne slot = h.assign slot v) ∧
      ((∀ v, 1 ≤ v → v ≤ 24 → h.available v = true → time v z = none) → h.arbiterOne slot = h)) ∧
    (h.startZone m = none → h.arbiterOne slot = h)) ∧
  (∀ (h : Hall) (slot : Nat) (m : Mission), h.mission slot = some m → (m.state ≠ .waiting ∨ m.drop = none) → h.arbiterOne slot = h) ∧
  (∀ (h : Hall), (h.allStop = true → h.runArbiter = h) ∧
    (h.allStop = false → h.runArbiter = (h.tableOrder.map (·.1)).foldl Hall.arbiterOne h)) ∧
  (∀ (h : Hall) (slot v f : Nat) (m : Mission) (x : Vehicle), h.mission slot = some m → tget h.vehicles v = some x → x.seated = true →
    x.front = some f → h.allStop = false →
    let t := h.assign slot v
    let y := t.vehicle v
    y.mission = some slot ∧
    (∀ st c, m.call = some st → h.call st = some c → t.call st = some { c with state := .dispatched }) ∧
    (∀ p z zones, m.kind ≠ .park → m.pickup = some p → h.placeZone p = some z → f ≠ z → h.route f z = some zones →
      t.mission slot = some { m with state := .assigned, vehicle := some v, route := some ⟨zones, 1⟩ } ∧ y.activity = .toPickup ∧
        y.directive = ⟨x.directive.number + 1, .move zones 1⟩) ∧
    (∀ p, m.kind ≠ .park → m.pickup = some p → h.placeZone p = some f →
      ((∀ st arm, p ≠ .arm st arm) → (t.mission slot).map (·.state) = some .assigned ∧ y.activity = .picking ∧
        y.directive.kind = .pick p ((m.reel.map (·.id)).getD [])) ∧
      (∀ st arm, p = .arm st arm → (t.mission slot).map (·.state) = some .handover ∧ y.activity = .handover ∧
        y.directive.kind = .hold ∧ Job.unloadReady slot ∈ t.agenda)) ∧
    (∀ d z zones, m.kind = .park → m.drop = some d → h.placeZone d = some z → h.route f z = some zones →
      t.mission slot = some { m with state := .carrying, vehicle := some v, route := some ⟨zones, 1⟩ } ∧ y.activity = .carrying ∧
        y.directive = ⟨x.directive.number + 1, .move zones 1⟩)) ∧
  (∀ (h : Hall) (r : VehicleReport) (c : Completion),
    let x := h.vehicle r.vehicle
    let taken (k : DirKind) : Prop := (r.directive = x.directive.number ∧ k = x.directive.kind) ∨
      (r.directive ≠ x.directive.number ∧ x.kept = some ⟨some r.directive, k⟩)
    (∀ p id, taken (.pick p id) → c = .pick → h.takeCompletion r c = h.pickDone r.vehicle r.reel) ∧
    (∀ b, taken (.place b) → c = .place → h.takeCompletion r c = h.placeDone r.vehicle b) ∧
    (taken .placeHere → c = .place → h.takeCompletion r c = h.setDownDone r.vehicle) ∧
    (∀ st arm id, taken (.transfer st arm id) → c = .transfer → h.takeCompletion r c = h.transferDone r.vehicle .load) ∧
    (∀ st arm id, taken (.unload st arm id) → c = .unload → h.takeCompletion r c = h.transferDone r.vehicle .unload) ∧
    (∀ k, taken k → completes k c = false → h.takeCompletion r c = h) ∧ ((∀ k, ¬taken k) → h.takeCompletion r c = h)) ∧
  (∀ (h : Hall) (v slot : Nat) (m : Mission) (x : Vehicle) (ref : ReelRef) (p : Place) (r : Reel), tsorted h.missions = true →
    tget h.vehicles v = some x → x.mission = some slot → h.mission slot = some m → m.reel = some ref → m.pickup = some p →
    (∀ st arm, p ≠ .arm st arm) → h.reel ref = some r → h.allStop = false →
    let place := p.location
    let picks := r.loc = place ∧ (r.state = .atDock ∨ r.state = .conditioning ∨ r.state = .stored ∨ r.state = .allocated ∨
      r.state = .quarantined)
    (let t := h.pickDone v (some ref.id)
     (picks → tget t.reels ref.index = some { r with
         loc := .vehicle v, state := if r.state = .quarantined then .quarantined else .inTransit } ∧
       (t.vehicle v).load = some ref ∧ (∀ b y, place = .bay b → t.bay b = some y → y.occupant = none) ∧
       (m.vehicle = some v → (t.mission slot).map (·.state) = some .carrying)) ∧
     (¬picks → tget t.reels ref.index = some r ∧
       t.mission slot = some { m with state := .waiting, vehicle := none, route := none } ∧ (t.vehicle v).mission = none ∧
       (t.vehicle v).directive.kind = .placeHere ∧
       ∀ st k, m.call = some st → h.call st = some k → k.state = .dispatched → t.call st = some { k with state := .allocated })) ∧
    (r.loc = place → ∀ t, t = h.pickDone v none →
      tget t.reels ref.index = some { r with state := .quarantined, reason := some .pickupEmpty, loc := .nowhere, call := none } ∧
      (∀ b y, place = .bay b → t.bay b = some y → y.occupant = none) ∧ t.mission slot = none ∧
      (h.notices.length ≤ 40 → ∃ k, ⟨k, .missionEnd slot m.kind m.reel m.vehicle .aborted⟩ ∈ t.notices) ∧
      (∃ a, (t.vehicle v).abort = some a ∧ .pickupEmpty ∈ a.causes) ∧ (t.vehicle v).directive.kind = .hold ∧
      (∀ st, r.call = some st → Job.reRaise st ∈ t.agenda)) ∧
    (r.loc = place → ∀ id t, id ≠ ref.id → t = h.pickDone v (some id) →
      tget t.reels ref.index = some { r with state := .quarantined, reason := some .idMismatch, call := none } ∧
      (∀ b y, place = .bay b → t.bay b = some y → y.blocked = true) ∧ t.mission slot = none ∧
      (h.notices.length ≤ 40 → ∃ k, ⟨k, .missionEnd slot m.kind m.reel m.vehicle .aborted⟩ ∈ t.notices) ∧
      (∃ a, (t.vehicle v).abort = some a ∧ .idMismatch ∈ a.causes) ∧ (t.vehicle v).directive.kind = .placeHere ∧
      (∀ st, r.call = some st → Job.reRaise st ∈ t.agenda))) ∧
  (∀ (h : Hall) (v slot : Nat) (m : Mission) (x : Vehicle) (ref : ReelRef) (r : Reel) (b : BayAddr) (y : Bay), tsorted h.missions = true →
    tget h.vehicles v = some x → x.mission = some slot → h.mission slot = some m → m.reel = some ref → h.reel ref = some r →
    h.bay b = some y →
    let t := h.placeDone v b
    (r.loc = .vehicle v → (r.state = .inTransit ∨ r.state = .quarantined) → y.occupant = none →
      tget t.reels ref.index = some { r with
        loc := .bay b, call := none
        state := if r.state = .quarantined ∨ y.kind = .quarantine then .quarantined
          else if r.earliest ≤ h.clock then .stored else .conditioning
        reason := if r.state ≠ .quarantined ∧ y.kind = .quarantine then some .host else r.reason } ∧
      (t.bay b).map (·.occupant) = some (some ref) ∧ (t.vehicle v).load = none ∧ t.mission slot = none ∧
      (h.notices.length ≤ 40 → ∃ k, ⟨k, .missionEnd slot m.kind m.reel m.vehicle .done⟩ ∈ t.notices) ∧
      (r.state = .inTransit → y.kind = .normal → r.earliest ≤ h.clock → Job.starvedRetry r.grade r.width ∈ t.agenda)) ∧
    ((r.loc ≠ .vehicle v ∨ (r.state ≠ .inTransit ∧ r.state ≠ .quarantined) ∨ y.occupant.isSome) →
      tget t.reels ref.index = some r ∧ t.missions = h.missions ∧ (h.allStop = false → (t.vehicle v).directive.kind = .hold))) ∧
  (∀ (h : Hall) (v slot : Nat) (m : Mission) (x : Vehicle) (st : StandAddr) (y : Handover), tsorted h.missions = true →
    tget h.vehicles v = some x → x.mission = some slot → h.mission slot = some m → m.vehicle = some v → y.vehicle = v →
    h.handoverOf slot = some (st, y) → h.handover st = some y → h.allStop = false →
    let t := h.transferDone v y.kind
    (y.armDone = false → t.handover st = some { y with transferDone := true } ∧ t.missions = h.missions ∧
      (t.vehicle v).directive.kind = .hold) ∧
    (y.armDone = true → y.kind = .load → t.mission slot = none ∧ (t.vehicle v).mission = none ∧
      (t.vehicle v).directive.kind = .hold ∧
      (h.notices.length ≤ 40 → ∃ k, ⟨k, .missionEnd slot m.kind m.reel m.vehicle .done⟩ ∈ t.notices)) ∧
    (y.armDone = true → y.kind = .unload → t.handover st = none ∧ (t.mission slot).map (·.state) = some .carrying)) ∧
  (∀ (h : Hall) (r : VehicleReport) (slot : Nat) (m : Mission) (x : Vehicle) (zones : List Nat) (n : Nat), tsorted h.missions = true →
    tget h.vehicles r.vehicle = some x → x.mission = some slot → h.mission slot = some m → m.state = .carrying → x.seated = true →
    x.directive = ⟨r.directive, .move zones n⟩ → zones.getLast? = x.front → x.tail = none → h.allStop = false →
    let t := h.takeArrival r
    let y := t.vehicle r.vehicle
    (∀ b, m.drop = some (.bay b) → (t.mission slot).map (·.state) = some .handover ∧ y.activity = .handover ∧
      y.directive.kind = .place b) ∧
    (∀ st arm, m.drop = some (.arm st arm) → (t.mission slot).map (·.state) = some .handover ∧ y.activity = .handover ∧
      y.directive.kind = .hold ∧ Job.loadReady slot ∈ t.agenda) ∧
    (∀ k, m.drop = some (.charger k) → m.vehicle = some r.vehicle → t.mission slot = none ∧ y.activity = .charging ∧
      y.directive.kind = .charge k ∧ y.mission = none) ∧
    (∀ k, m.drop = some (.park k) → m.vehicle = some r.vehicle → t.mission slot = none ∧ y.activity = .idle ∧
      y.directive.kind = .hold ∧ y.mission = none)) ∧
  (∀ (h : Hall) (r : VehicleReport) (x : Vehicle), tget h.vehicles r.vehicle = some x →
    let kind := (x.kept.map (·.kind)).getD x.directive.kind
    let stray := r.onBoard = true ∧ x.load = none ∧ kind ≠ .placeHere ∧ (∀ p id, kind ≠ .pick p id) ∧
      ∀ p ∈ h.stands, ∀ y, p.2.handover = some y → y.kind = .unload → y.vehicle ≠ r.vehicle
    (stray → h.allStop = false → ((h.strayCheck r).vehicle r.vehicle).directive.kind = .placeHere ∧ (h.strayCheck r).reels = h.reels ∧
      ((h.strayCheck r).fault ⟨.custodyError, .none⟩).latched = true) ∧
    (¬stray → h.strayCheck r = h)) ∧
  (∀ (h : Hall) (r : VehicleReport), h.takeSeated r =
    let g := (h.heard r.vehicle).takeReportPosition r
    let g := g.modVehicle r.vehicle fun x => { x with charge := min 100 r.charge }
    if (g.vehicle r.vehicle).supervision = .lost then g.compareNumber r
    else
      let g := match r.completion with
        | some c => g.takeCompletion r c
        | none => g
      let g := ((g.takeArrival r).strayCheck r).compareNumber r
      let g := if (g.vehicle r.vehicle).activity = .idle then g.push (.chargeNeed r.vehicle) else g
      if g.available r.vehicle && !h.available r.vehicle then g.push .arbiter else g)

/-- The forming of a line's ceiling: the smallest of the top and the values contributed, floored to a multiple of 10 and raised to
crawl; a lower value is taken at once, a higher one by a step of 30, at the top, or from below crawl, and the line is sent what is
taken (R161). -/
def Obligations.CeilingTakesTheFormedValue : Prop :=
  ∀ (h : Hall) (n : Nat) (l : Line), h.line n = some l →
    let top := min l.hostCeiling l.cfg.lineMax
    let formed := max l.cfg.crawl ((h.lineValues n).foldl (fun v p => min v p.2) top / 10 * 10)
    let moves := formed < l.ceiling ∨
      (l.ceiling < formed ∧ (l.ceiling + 30 ≤ formed ∨ formed = top ∨ l.ceiling < l.cfg.crawl))
    (moves → ((h.formCeiling n).line n).map (·.ceiling) = some formed ∧
      ∃ seq, Sent.line n seq (.ceiling formed) ∈ (h.formCeiling n).sent) ∧
    (¬moves → ((h.formCeiling n).line n).map (·.ceiling) = some l.ceiling) ∧
    ∀ j, j ≠ n → ((h.formCeiling n).line j).map (·.ceiling) = (h.line j).map (·.ceiling)
end

