-- ==== Sys2Proof/Laws/State.lean ====
section
/-! SUPPORT. What every update of the hall does to every field of it, one line each. -/

namespace Sys2Proof.Machine

variable (h : Hall)

/-! ### modVehicle -/

@[simp] theorem Hall.modVehicle_clock (k : Nat) (f : Vehicle → Vehicle) : (h.modVehicle k f).clock = h.clock := rfl
@[simp] theorem Hall.modVehicle_timebase (k : Nat) (f : Vehicle → Vehicle) : (h.modVehicle k f).timebase = h.timebase := rfl
@[simp] theorem Hall.modVehicle_secondFrom (k : Nat) (f : Vehicle → Vehicle) : (h.modVehicle k f).secondFrom = h.secondFrom := rfl
@[simp] theorem Hall.modVehicle_notices (k : Nat) (f : Vehicle → Vehicle) : (h.modVehicle k f).notices = h.notices := rfl
@[simp] theorem Hall.modVehicle_noticeSeq (k : Nat) (f : Vehicle → Vehicle) : (h.modVehicle k f).noticeSeq = h.noticeSeq := rfl
@[simp] theorem Hall.modVehicle_dropped (k : Nat) (f : Vehicle → Vehicle) : (h.modVehicle k f).dropped = h.dropped := rfl
@[simp] theorem Hall.modVehicle_links (k : Nat) (f : Vehicle → Vehicle) : (h.modVehicle k f).links = h.links := rfl
@[simp] theorem Hall.modVehicle_sent (k : Nat) (f : Vehicle → Vehicle) : (h.modVehicle k f).sent = h.sent := rfl
@[simp] theorem Hall.modVehicle_lastReset (k : Nat) (f : Vehicle → Vehicle) : (h.modVehicle k f).lastReset = h.lastReset := rfl
@[simp] theorem Hall.modVehicle_fromDefaults (k : Nat) (f : Vehicle → Vehicle) : (h.modVehicle k f).fromDefaults = h.fromDefaults := rfl
@[simp] theorem Hall.modVehicle_strap (k : Nat) (f : Vehicle → Vehicle) : (h.modVehicle k f).strap = h.strap := rfl
@[simp] theorem Hall.modVehicle_grades (k : Nat) (f : Vehicle → Vehicle) : (h.modVehicle k f).grades = h.grades := rfl
@[simp] theorem Hall.modVehicle_watch (k : Nat) (f : Vehicle → Vehicle) : (h.modVehicle k f).watch = h.watch := rfl
@[simp] theorem Hall.modVehicle_reels (k : Nat) (f : Vehicle → Vehicle) : (h.modVehicle k f).reels = h.reels := rfl
@[simp] theorem Hall.modVehicle_massTolerance (k : Nat) (f : Vehicle → Vehicle) : (h.modVehicle k f).massTolerance = h.massTolerance := rfl
@[simp] theorem Hall.modVehicle_bays (k : Nat) (f : Vehicle → Vehicle) : (h.modVehicle k f).bays = h.bays := rfl
@[simp] theorem Hall.modVehicle_aisles (k : Nat) (f : Vehicle → Vehicle) : (h.modVehicle k f).aisles = h.aisles := rfl
@[simp] theorem Hall.modVehicle_zones (k : Nat) (f : Vehicle → Vehicle) : (h.modVehicle k f).zones = h.zones := rfl
@[simp] theorem Hall.modVehicle_vehicles (k : Nat) (f : Vehicle → Vehicle) : (h.modVehicle k f).vehicles = tmod h.vehicles k f := rfl
@[simp] theorem Hall.modVehicle_missions (k : Nat) (f : Vehicle → Vehicle) : (h.modVehicle k f).missions = h.missions := rfl
@[simp] theorem Hall.modVehicle_allStop (k : Nat) (f : Vehicle → Vehicle) : (h.modVehicle k f).allStop = h.allStop := rfl
@[simp] theorem Hall.modVehicle_params (k : Nat) (f : Vehicle → Vehicle) : (h.modVehicle k f).params = h.params := rfl
@[simp] theorem Hall.modVehicle_fleetSilence (k : Nat) (f : Vehicle → Vehicle) : (h.modVehicle k f).fleetSilence = h.fleetSilence := rfl
@[simp] theorem Hall.modVehicle_lines (k : Nat) (f : Vehicle → Vehicle) : (h.modVehicle k f).lines = h.lines := rfl
@[simp] theorem Hall.modVehicle_stands (k : Nat) (f : Vehicle → Vehicle) : (h.modVehicle k f).stands = h.stands := rfl
@[simp] theorem Hall.modVehicle_counts (k : Nat) (f : Vehicle → Vehicle) : (h.modVehicle k f).counts = h.counts := rfl
@[simp] theorem Hall.modVehicle_editions (k : Nat) (f : Vehicle → Vehicle) : (h.modVehicle k f).editions = h.editions := rfl
@[simp] theorem Hall.modVehicle_unassigned (k : Nat) (f : Vehicle → Vehicle) : (h.modVehicle k f).unassigned = h.unassigned := rfl
@[simp] theorem Hall.modVehicle_faults (k : Nat) (f : Vehicle → Vehicle) : (h.modVehicle k f).faults = h.faults := rfl
@[simp] theorem Hall.modVehicle_holds (k : Nat) (f : Vehicle → Vehicle) : (h.modVehicle k f).holds = h.holds := rfl
@[simp] theorem Hall.modVehicle_agenda (k : Nat) (f : Vehicle → Vehicle) : (h.modVehicle k f).agenda = h.agenda := rfl
@[simp] theorem Hall.modVehicle_ceilings (k : Nat) (f : Vehicle → Vehicle) : (h.modVehicle k f).ceilings = h.ceilings := rfl

/-! ### modMission -/

@[simp] theorem Hall.modMission_clock (k : Nat) (f : Mission → Mission) : (h.modMission k f).clock = h.clock := rfl
@[simp] theorem Hall.modMission_timebase (k : Nat) (f : Mission → Mission) : (h.modMission k f).timebase = h.timebase := rfl
@[simp] theorem Hall.modMission_secondFrom (k : Nat) (f : Mission → Mission) : (h.modMission k f).secondFrom = h.secondFrom := rfl
@[simp] theorem Hall.modMission_notices (k : Nat) (f : Mission → Mission) : (h.modMission k f).notices = h.notices := rfl
@[simp] theorem Hall.modMission_noticeSeq (k : Nat) (f : Mission → Mission) : (h.modMission k f).noticeSeq = h.noticeSeq := rfl
@[simp] theorem Hall.modMission_dropped (k : Nat) (f : Mission → Mission) : (h.modMission k f).dropped = h.dropped := rfl
@[simp] theorem Hall.modMission_links (k : Nat) (f : Mission → Mission) : (h.modMission k f).links = h.links := rfl
@[simp] theorem Hall.modMission_sent (k : Nat) (f : Mission → Mission) : (h.modMission k f).sent = h.sent := rfl
@[simp] theorem Hall.modMission_lastReset (k : Nat) (f : Mission → Mission) : (h.modMission k f).lastReset = h.lastReset := rfl
@[simp] theorem Hall.modMission_fromDefaults (k : Nat) (f : Mission → Mission) : (h.modMission k f).fromDefaults = h.fromDefaults := rfl
@[simp] theorem Hall.modMission_strap (k : Nat) (f : Mission → Mission) : (h.modMission k f).strap = h.strap := rfl
@[simp] theorem Hall.modMission_grades (k : Nat) (f : Mission → Mission) : (h.modMission k f).grades = h.grades := rfl
@[simp] theorem Hall.modMission_watch (k : Nat) (f : Mission → Mission) : (h.modMission k f).watch = h.watch := rfl
@[simp] theorem Hall.modMission_reels (k : Nat) (f : Mission → Mission) : (h.modMission k f).reels = h.reels := rfl
@[simp] theorem Hall.modMission_massTolerance (k : Nat) (f : Mission → Mission) : (h.modMission k f).massTolerance = h.massTolerance := rfl
@[simp] theorem Hall.modMission_bays (k : Nat) (f : Mission → Mission) : (h.modMission k f).bays = h.bays := rfl
@[simp] theorem Hall.modMission_aisles (k : Nat) (f : Mission → Mission) : (h.modMission k f).aisles = h.aisles := rfl
@[simp] theorem Hall.modMission_zones (k : Nat) (f : Mission → Mission) : (h.modMission k f).zones = h.zones := rfl
@[simp] theorem Hall.modMission_vehicles (k : Nat) (f : Mission → Mission) : (h.modMission k f).vehicles = h.vehicles := rfl
@[simp] theorem Hall.modMission_missions (k : Nat) (f : Mission → Mission) : (h.modMission k f).missions = tmod h.missions k f := rfl
@[simp] theorem Hall.modMission_allStop (k : Nat) (f : Mission → Mission) : (h.modMission k f).allStop = h.allStop := rfl
@[simp] theorem Hall.modMission_params (k : Nat) (f : Mission → Mission) : (h.modMission k f).params = h.params := rfl
@[simp] theorem Hall.modMission_fleetSilence (k : Nat) (f : Mission → Mission) : (h.modMission k f).fleetSilence = h.fleetSilence := rfl
@[simp] theorem Hall.modMission_lines (k : Nat) (f : Mission → Mission) : (h.modMission k f).lines = h.lines := rfl
@[simp] theorem Hall.modMission_stands (k : Nat) (f : Mission → Mission) : (h.modMission k f).stands = h.stands := rfl
@[simp] theorem Hall.modMission_counts (k : Nat) (f : Mission → Mission) : (h.modMission k f).counts = h.counts := rfl
@[simp] theorem Hall.modMission_editions (k : Nat) (f : Mission → Mission) : (h.modMission k f).editions = h.editions := rfl
@[simp] theorem Hall.modMission_unassigned (k : Nat) (f : Mission → Mission) : (h.modMission k f).unassigned = h.unassigned := rfl
@[simp] theorem Hall.modMission_faults (k : Nat) (f : Mission → Mission) : (h.modMission k f).faults = h.faults := rfl
@[simp] theorem Hall.modMission_holds (k : Nat) (f : Mission → Mission) : (h.modMission k f).holds = h.holds := rfl
@[simp] theorem Hall.modMission_agenda (k : Nat) (f : Mission → Mission) : (h.modMission k f).agenda = h.agenda := rfl
@[simp] theorem Hall.modMission_ceilings (k : Nat) (f : Mission → Mission) : (h.modMission k f).ceilings = h.ceilings := rfl

/-! ### modLine -/

@[simp] theorem Hall.modLine_clock (k : Nat) (f : Line → Line) : (h.modLine k f).clock = h.clock := rfl
@[simp] theorem Hall.modLine_timebase (k : Nat) (f : Line → Line) : (h.modLine k f).timebase = h.timebase := rfl
@[simp] theorem Hall.modLine_secondFrom (k : Nat) (f : Line → Line) : (h.modLine k f).secondFrom = h.secondFrom := rfl
@[simp] theorem Hall.modLine_notices (k : Nat) (f : Line → Line) : (h.modLine k f).notices = h.notices := rfl
@[simp] theorem Hall.modLine_noticeSeq (k : Nat) (f : Line → Line) : (h.modLine k f).noticeSeq = h.noticeSeq := rfl
@[simp] theorem Hall.modLine_dropped (k : Nat) (f : Line → Line) : (h.modLine k f).dropped = h.dropped := rfl
@[simp] theorem Hall.modLine_links (k : Nat) (f : Line → Line) : (h.modLine k f).links = h.links := rfl
@[simp] theorem Hall.modLine_sent (k : Nat) (f : Line → Line) : (h.modLine k f).sent = h.sent := rfl
@[simp] theorem Hall.modLine_lastReset (k : Nat) (f : Line → Line) : (h.modLine k f).lastReset = h.lastReset := rfl
@[simp] theorem Hall.modLine_fromDefaults (k : Nat) (f : Line → Line) : (h.modLine k f).fromDefaults = h.fromDefaults := rfl
@[simp] theorem Hall.modLine_strap (k : Nat) (f : Line → Line) : (h.modLine k f).strap = h.strap := rfl
@[simp] theorem Hall.modLine_grades (k : Nat) (f : Line → Line) : (h.modLine k f).grades = h.grades := rfl
@[simp] theorem Hall.modLine_watch (k : Nat) (f : Line → Line) : (h.modLine k f).watch = h.watch := rfl
@[simp] theorem Hall.modLine_reels (k : Nat) (f : Line → Line) : (h.modLine k f).reels = h.reels := rfl
@[simp] theorem Hall.modLine_massTolerance (k : Nat) (f : Line → Line) : (h.modLine k f).massTolerance = h.massTolerance := rfl
@[simp] theorem Hall.modLine_bays (k : Nat) (f : Line → Line) : (h.modLine k f).bays = h.bays := rfl
@[simp] theorem Hall.modLine_aisles (k : Nat) (f : Line → Line) : (h.modLine k f).aisles = h.aisles := rfl
@[simp] theorem Hall.modLine_zones (k : Nat) (f : Line → Line) : (h.modLine k f).zones = h.zones := rfl
@[simp] theorem Hall.modLine_vehicles (k : Nat) (f : Line → Line) : (h.modLine k f).vehicles = h.vehicles := rfl
@[simp] theorem Hall.modLine_missions (k : Nat) (f : Line → Line) : (h.modLine k f).missions = h.missions := rfl
@[simp] theorem Hall.modLine_allStop (k : Nat) (f : Line → Line) : (h.modLine k f).allStop = h.allStop := rfl
@[simp] theorem Hall.modLine_params (k : Nat) (f : Line → Line) : (h.modLine k f).params = h.params := rfl
@[simp] theorem Hall.modLine_fleetSilence (k : Nat) (f : Line → Line) : (h.modLine k f).fleetSilence = h.fleetSilence := rfl
@[simp] theorem Hall.modLine_lines (k : Nat) (f : Line → Line) : (h.modLine k f).lines = tmod h.lines k f := rfl
@[simp] theorem Hall.modLine_stands (k : Nat) (f : Line → Line) : (h.modLine k f).stands = h.stands := rfl
@[simp] theorem Hall.modLine_counts (k : Nat) (f : Line → Line) : (h.modLine k f).counts = h.counts := rfl
@[simp] theorem Hall.modLine_editions (k : Nat) (f : Line → Line) : (h.modLine k f).editions = h.editions := rfl
@[simp] theorem Hall.modLine_unassigned (k : Nat) (f : Line → Line) : (h.modLine k f).unassigned = h.unassigned := rfl
@[simp] theorem Hall.modLine_faults (k : Nat) (f : Line → Line) : (h.modLine k f).faults = h.faults := rfl
@[simp] theorem Hall.modLine_holds (k : Nat) (f : Line → Line) : (h.modLine k f).holds = h.holds := rfl
@[simp] theorem Hall.modLine_agenda (k : Nat) (f : Line → Line) : (h.modLine k f).agenda = h.agenda := rfl
@[simp] theorem Hall.modLine_ceilings (k : Nat) (f : Line → Line) : (h.modLine k f).ceilings = h.ceilings := rfl

/-! ### modStand -/

@[simp] theorem Hall.modStand_clock (k : StandAddr) (f : Stand → Stand) : (h.modStand k f).clock = h.clock := rfl
@[simp] theorem Hall.modStand_timebase (k : StandAddr) (f : Stand → Stand) : (h.modStand k f).timebase = h.timebase := rfl
@[simp] theorem Hall.modStand_secondFrom (k : StandAddr) (f : Stand → Stand) : (h.modStand k f).secondFrom = h.secondFrom := rfl
@[simp] theorem Hall.modStand_notices (k : StandAddr) (f : Stand → Stand) : (h.modStand k f).notices = h.notices := rfl
@[simp] theorem Hall.modStand_noticeSeq (k : StandAddr) (f : Stand → Stand) : (h.modStand k f).noticeSeq = h.noticeSeq := rfl
@[simp] theorem Hall.modStand_dropped (k : StandAddr) (f : Stand → Stand) : (h.modStand k f).dropped = h.dropped := rfl
@[simp] theorem Hall.modStand_links (k : StandAddr) (f : Stand → Stand) : (h.modStand k f).links = h.links := rfl
@[simp] theorem Hall.modStand_sent (k : StandAddr) (f : Stand → Stand) : (h.modStand k f).sent = h.sent := rfl
@[simp] theorem Hall.modStand_lastReset (k : StandAddr) (f : Stand → Stand) : (h.modStand k f).lastReset = h.lastReset := rfl
@[simp] theorem Hall.modStand_fromDefaults (k : StandAddr) (f : Stand → Stand) : (h.modStand k f).fromDefaults = h.fromDefaults := rfl
@[simp] theorem Hall.modStand_strap (k : StandAddr) (f : Stand → Stand) : (h.modStand k f).strap = h.strap := rfl
@[simp] theorem Hall.modStand_grades (k : StandAddr) (f : Stand → Stand) : (h.modStand k f).grades = h.grades := rfl
@[simp] theorem Hall.modStand_watch (k : StandAddr) (f : Stand → Stand) : (h.modStand k f).watch = h.watch := rfl
@[simp] theorem Hall.modStand_reels (k : StandAddr) (f : Stand → Stand) : (h.modStand k f).reels = h.reels := rfl
@[simp] theorem Hall.modStand_massTolerance (k : StandAddr) (f : Stand → Stand) : (h.modStand k f).massTolerance = h.massTolerance := rfl
@[simp] theorem Hall.modStand_bays (k : StandAddr) (f : Stand → Stand) : (h.modStand k f).bays = h.bays := rfl
@[simp] theorem Hall.modStand_aisles (k : StandAddr) (f : Stand → Stand) : (h.modStand k f).aisles = h.aisles := rfl
@[simp] theorem Hall.modStand_zones (k : StandAddr) (f : Stand → Stand) : (h.modStand k f).zones = h.zones := rfl
@[simp] theorem Hall.modStand_vehicles (k : StandAddr) (f : Stand → Stand) : (h.modStand k f).vehicles = h.vehicles := rfl
@[simp] theorem Hall.modStand_missions (k : StandAddr) (f : Stand → Stand) : (h.modStand k f).missions = h.missions := rfl
@[simp] theorem Hall.modStand_allStop (k : StandAddr) (f : Stand → Stand) : (h.modStand k f).allStop = h.allStop := rfl
@[simp] theorem Hall.modStand_params (k : StandAddr) (f : Stand → Stand) : (h.modStand k f).params = h.params := rfl
@[simp] theorem Hall.modStand_fleetSilence (k : StandAddr) (f : Stand → Stand) : (h.modStand k f).fleetSilence = h.fleetSilence := rfl
@[simp] theorem Hall.modStand_lines (k : StandAddr) (f : Stand → Stand) : (h.modStand k f).lines = h.lines := rfl
@[simp] theorem Hall.modStand_stands (k : StandAddr) (f : Stand → Stand) : (h.modStand k f).stands = tmod h.stands (standKey k) f := rfl
@[simp] theorem Hall.modStand_counts (k : StandAddr) (f : Stand → Stand) : (h.modStand k f).counts = h.counts := rfl
@[simp] theorem Hall.modStand_editions (k : StandAddr) (f : Stand → Stand) : (h.modStand k f).editions = h.editions := rfl
@[simp] theorem Hall.modStand_unassigned (k : StandAddr) (f : Stand → Stand) : (h.modStand k f).unassigned = h.unassigned := rfl
@[simp] theorem Hall.modStand_faults (k : StandAddr) (f : Stand → Stand) : (h.modStand k f).faults = h.faults := rfl
@[simp] theorem Hall.modStand_holds (k : StandAddr) (f : Stand → Stand) : (h.modStand k f).holds = h.holds := rfl
@[simp] theorem Hall.modStand_agenda (k : StandAddr) (f : Stand → Stand) : (h.modStand k f).agenda = h.agenda := rfl
@[simp] theorem Hall.modStand_ceilings (k : StandAddr) (f : Stand → Stand) : (h.modStand k f).ceilings = h.ceilings := rfl

/-! ### modArm -/

@[simp] theorem Hall.modArm_clock (k : StandAddr) (x : ArmName) (f : Arm → Arm) : (h.modArm k x f).clock = h.clock := rfl
@[simp] theorem Hall.modArm_timebase (k : StandAddr) (x : ArmName) (f : Arm → Arm) : (h.modArm k x f).timebase = h.timebase := rfl
@[simp] theorem Hall.modArm_secondFrom (k : StandAddr) (x : ArmName) (f : Arm → Arm) : (h.modArm k x f).secondFrom = h.secondFrom := rfl
@[simp] theorem Hall.modArm_notices (k : StandAddr) (x : ArmName) (f : Arm → Arm) : (h.modArm k x f).notices = h.notices := rfl
@[simp] theorem Hall.modArm_noticeSeq (k : StandAddr) (x : ArmName) (f : Arm → Arm) : (h.modArm k x f).noticeSeq = h.noticeSeq := rfl
@[simp] theorem Hall.modArm_dropped (k : StandAddr) (x : ArmName) (f : Arm → Arm) : (h.modArm k x f).dropped = h.dropped := rfl
@[simp] theorem Hall.modArm_links (k : StandAddr) (x : ArmName) (f : Arm → Arm) : (h.modArm k x f).links = h.links := rfl
@[simp] theorem Hall.modArm_sent (k : StandAddr) (x : ArmName) (f : Arm → Arm) : (h.modArm k x f).sent = h.sent := rfl
@[simp] theorem Hall.modArm_lastReset (k : StandAddr) (x : ArmName) (f : Arm → Arm) : (h.modArm k x f).lastReset = h.lastReset := rfl
@[simp] theorem Hall.modArm_fromDefaults (k : StandAddr) (x : ArmName) (f : Arm → Arm) : (h.modArm k x f).fromDefaults = h.fromDefaults := rfl
@[simp] theorem Hall.modArm_strap (k : StandAddr) (x : ArmName) (f : Arm → Arm) : (h.modArm k x f).strap = h.strap := rfl
@[simp] theorem Hall.modArm_grades (k : StandAddr) (x : ArmName) (f : Arm → Arm) : (h.modArm k x f).grades = h.grades := rfl
@[simp] theorem Hall.modArm_watch (k : StandAddr) (x : ArmName) (f : Arm → Arm) : (h.modArm k x f).watch = h.watch := rfl
@[simp] theorem Hall.modArm_reels (k : StandAddr) (x : ArmName) (f : Arm → Arm) : (h.modArm k x f).reels = h.reels := rfl
@[simp] theorem Hall.modArm_massTolerance (k : StandAddr) (x : ArmName) (f : Arm → Arm) : (h.modArm k x f).massTolerance = h.massTolerance := rfl
@[simp] theorem Hall.modArm_bays (k : StandAddr) (x : ArmName) (f : Arm → Arm) : (h.modArm k x f).bays = h.bays := rfl
@[simp] theorem Hall.modArm_aisles (k : StandAddr) (x : ArmName) (f : Arm → Arm) : (h.modArm k x f).aisles = h.aisles := rfl
@[simp] theorem Hall.modArm_zones (k : StandAddr) (x : ArmName) (f : Arm → Arm) : (h.modArm k x f).zones = h.zones := rfl
@[simp] theorem Hall.modArm_vehicles (k : StandAddr) (x : ArmName) (f : Arm → Arm) : (h.modArm k x f).vehicles = h.vehicles := rfl
@[simp] theorem Hall.modArm_missions (k : StandAddr) (x : ArmName) (f : Arm → Arm) : (h.modArm k x f).missions = h.missions := rfl
@[simp] theorem Hall.modArm_allStop (k : StandAddr) (x : ArmName) (f : Arm → Arm) : (h.modArm k x f).allStop = h.allStop := rfl
@[simp] theorem Hall.modArm_params (k : StandAddr) (x : ArmName) (f : Arm → Arm) : (h.modArm k x f).params = h.params := rfl
@[simp] theorem Hall.modArm_fleetSilence (k : StandAddr) (x : ArmName) (f : Arm → Arm) : (h.modArm k x f).fleetSilence = h.fleetSilence := rfl
@[simp] theorem Hall.modArm_lines (k : StandAddr) (x : ArmName) (f : Arm → Arm) : (h.modArm k x f).lines = h.lines := rfl
@[simp] theorem Hall.modArm_stands (k : StandAddr) (x : ArmName) (f : Arm → Arm) : (h.modArm k x f).stands = tmod h.stands (standKey k) (Stand.modArm x f) := rfl
@[simp] theorem Hall.modArm_counts (k : StandAddr) (x : ArmName) (f : Arm → Arm) : (h.modArm k x f).counts = h.counts := rfl
@[simp] theorem Hall.modArm_editions (k : StandAddr) (x : ArmName) (f : Arm → Arm) : (h.modArm k x f).editions = h.editions := rfl
@[simp] theorem Hall.modArm_unassigned (k : StandAddr) (x : ArmName) (f : Arm → Arm) : (h.modArm k x f).unassigned = h.unassigned := rfl
@[simp] theorem Hall.modArm_faults (k : StandAddr) (x : ArmName) (f : Arm → Arm) : (h.modArm k x f).faults = h.faults := rfl
@[simp] theorem Hall.modArm_holds (k : StandAddr) (x : ArmName) (f : Arm → Arm) : (h.modArm k x f).holds = h.holds := rfl
@[simp] theorem Hall.modArm_agenda (k : StandAddr) (x : ArmName) (f : Arm → Arm) : (h.modArm k x f).agenda = h.agenda := rfl
@[simp] theorem Hall.modArm_ceilings (k : StandAddr) (x : ArmName) (f : Arm → Arm) : (h.modArm k x f).ceilings = h.ceilings := rfl

/-! ### modZone -/

@[simp] theorem Hall.modZone_clock (k : Nat) (f : Zone → Zone) : (h.modZone k f).clock = h.clock := rfl
@[simp] theorem Hall.modZone_timebase (k : Nat) (f : Zone → Zone) : (h.modZone k f).timebase = h.timebase := rfl
@[simp] theorem Hall.modZone_secondFrom (k : Nat) (f : Zone → Zone) : (h.modZone k f).secondFrom = h.secondFrom := rfl
@[simp] theorem Hall.modZone_notices (k : Nat) (f : Zone → Zone) : (h.modZone k f).notices = h.notices := rfl
@[simp] theorem Hall.modZone_noticeSeq (k : Nat) (f : Zone → Zone) : (h.modZone k f).noticeSeq = h.noticeSeq := rfl
@[simp] theorem Hall.modZone_dropped (k : Nat) (f : Zone → Zone) : (h.modZone k f).dropped = h.dropped := rfl
@[simp] theorem Hall.modZone_links (k : Nat) (f : Zone → Zone) : (h.modZone k f).links = h.links := rfl
@[simp] theorem Hall.modZone_sent (k : Nat) (f : Zone → Zone) : (h.modZone k f).sent = h.sent := rfl
@[simp] theorem Hall.modZone_lastReset (k : Nat) (f : Zone → Zone) : (h.modZone k f).lastReset = h.lastReset := rfl
@[simp] theorem Hall.modZone_fromDefaults (k : Nat) (f : Zone → Zone) : (h.modZone k f).fromDefaults = h.fromDefaults := rfl
@[simp] theorem Hall.modZone_strap (k : Nat) (f : Zone → Zone) : (h.modZone k f).strap = h.strap := rfl
@[simp] theorem Hall.modZone_grades (k : Nat) (f : Zone → Zone) : (h.modZone k f).grades = h.grades := rfl
@[simp] theorem Hall.modZone_watch (k : Nat) (f : Zone → Zone) : (h.modZone k f).watch = h.watch := rfl
@[simp] theorem Hall.modZone_reels (k : Nat) (f : Zone → Zone) : (h.modZone k f).reels = h.reels := rfl
@[simp] theorem Hall.modZone_massTolerance (k : Nat) (f : Zone → Zone) : (h.modZone k f).massTolerance = h.massTolerance := rfl
@[simp] theorem Hall.modZone_bays (k : Nat) (f : Zone → Zone) : (h.modZone k f).bays = h.bays := rfl
@[simp] theorem Hall.modZone_aisles (k : Nat) (f : Zone → Zone) : (h.modZone k f).aisles = h.aisles := rfl
@[simp] theorem Hall.modZone_zones (k : Nat) (f : Zone → Zone) : (h.modZone k f).zones = tmod h.zones k f := rfl
@[simp] theorem Hall.modZone_vehicles (k : Nat) (f : Zone → Zone) : (h.modZone k f).vehicles = h.vehicles := rfl
@[simp] theorem Hall.modZone_missions (k : Nat) (f : Zone → Zone) : (h.modZone k f).missions = h.missions := rfl
@[simp] theorem Hall.modZone_allStop (k : Nat) (f : Zone → Zone) : (h.modZone k f).allStop = h.allStop := rfl
@[simp] theorem Hall.modZone_params (k : Nat) (f : Zone → Zone) : (h.modZone k f).params = h.params := rfl
@[simp] theorem Hall.modZone_fleetSilence (k : Nat) (f : Zone → Zone) : (h.modZone k f).fleetSilence = h.fleetSilence := rfl
@[simp] theorem Hall.modZone_lines (k : Nat) (f : Zone → Zone) : (h.modZone k f).lines = h.lines := rfl
@[simp] theorem Hall.modZone_stands (k : Nat) (f : Zone → Zone) : (h.modZone k f).stands = h.stands := rfl
@[simp] theorem Hall.modZone_counts (k : Nat) (f : Zone → Zone) : (h.modZone k f).counts = h.counts := rfl
@[simp] theorem Hall.modZone_editions (k : Nat) (f : Zone → Zone) : (h.modZone k f).editions = h.editions := rfl
@[simp] theorem Hall.modZone_unassigned (k : Nat) (f : Zone → Zone) : (h.modZone k f).unassigned = h.unassigned := rfl
@[simp] theorem Hall.modZone_faults (k : Nat) (f : Zone → Zone) : (h.modZone k f).faults = h.faults := rfl
@[simp] theorem Hall.modZone_holds (k : Nat) (f : Zone → Zone) : (h.modZone k f).holds = h.holds := rfl
@[simp] theorem Hall.modZone_agenda (k : Nat) (f : Zone → Zone) : (h.modZone k f).agenda = h.agenda := rfl
@[simp] theorem Hall.modZone_ceilings (k : Nat) (f : Zone → Zone) : (h.modZone k f).ceilings = h.ceilings := rfl

/-! ### modBay -/

@[simp] theorem Hall.modBay_clock (k : BayAddr) (f : Bay → Bay) : (h.modBay k f).clock = h.clock := rfl
@[simp] theorem Hall.modBay_timebase (k : BayAddr) (f : Bay → Bay) : (h.modBay k f).timebase = h.timebase := rfl
@[simp] theorem Hall.modBay_secondFrom (k : BayAddr) (f : Bay → Bay) : (h.modBay k f).secondFrom = h.secondFrom := rfl
@[simp] theorem Hall.modBay_notices (k : BayAddr) (f : Bay → Bay) : (h.modBay k f).notices = h.notices := rfl
@[simp] theorem Hall.modBay_noticeSeq (k : BayAddr) (f : Bay → Bay) : (h.modBay k f).noticeSeq = h.noticeSeq := rfl
@[simp] theorem Hall.modBay_dropped (k : BayAddr) (f : Bay → Bay) : (h.modBay k f).dropped = h.dropped := rfl
@[simp] theorem Hall.modBay_links (k : BayAddr) (f : Bay → Bay) : (h.modBay k f).links = h.links := rfl
@[simp] theorem Hall.modBay_sent (k : BayAddr) (f : Bay → Bay) : (h.modBay k f).sent = h.sent := rfl
@[simp] theorem Hall.modBay_lastReset (k : BayAddr) (f : Bay → Bay) : (h.modBay k f).lastReset = h.lastReset := rfl
@[simp] theorem Hall.modBay_fromDefaults (k : BayAddr) (f : Bay → Bay) : (h.modBay k f).fromDefaults = h.fromDefaults := rfl
@[simp] theorem Hall.modBay_strap (k : BayAddr) (f : Bay → Bay) : (h.modBay k f).strap = h.strap := rfl
@[simp] theorem Hall.modBay_grades (k : BayAddr) (f : Bay → Bay) : (h.modBay k f).grades = h.grades := rfl
@[simp] theorem Hall.modBay_watch (k : BayAddr) (f : Bay → Bay) : (h.modBay k f).watch = h.watch := rfl
@[simp] theorem Hall.modBay_reels (k : BayAddr) (f : Bay → Bay) : (h.modBay k f).reels = h.reels := rfl
@[simp] theorem Hall.modBay_massTolerance (k : BayAddr) (f : Bay → Bay) : (h.modBay k f).massTolerance = h.massTolerance := rfl
@[simp] theorem Hall.modBay_bays (k : BayAddr) (f : Bay → Bay) : (h.modBay k f).bays = tmod h.bays (bayKey k) f := rfl
@[simp] theorem Hall.modBay_aisles (k : BayAddr) (f : Bay → Bay) : (h.modBay k f).aisles = h.aisles := rfl
@[simp] theorem Hall.modBay_zones (k : BayAddr) (f : Bay → Bay) : (h.modBay k f).zones = h.zones := rfl
@[simp] theorem Hall.modBay_vehicles (k : BayAddr) (f : Bay → Bay) : (h.modBay k f).vehicles = h.vehicles := rfl
@[simp] theorem Hall.modBay_missions (k : BayAddr) (f : Bay → Bay) : (h.modBay k f).missions = h.missions := rfl
@[simp] theorem Hall.modBay_allStop (k : BayAddr) (f : Bay → Bay) : (h.modBay k f).allStop = h.allStop := rfl
@[simp] theorem Hall.modBay_params (k : BayAddr) (f : Bay → Bay) : (h.modBay k f).params = h.params := rfl
@[simp] theorem Hall.modBay_fleetSilence (k : BayAddr) (f : Bay → Bay) : (h.modBay k f).fleetSilence = h.fleetSilence := rfl
@[simp] theorem Hall.modBay_lines (k : BayAddr) (f : Bay → Bay) : (h.modBay k f).lines = h.lines := rfl
@[simp] theorem Hall.modBay_stands (k : BayAddr) (f : Bay → Bay) : (h.modBay k f).stands = h.stands := rfl
@[simp] theorem Hall.modBay_counts (k : BayAddr) (f : Bay → Bay) : (h.modBay k f).counts = h.counts := rfl
@[simp] theorem Hall.modBay_editions (k : BayAddr) (f : Bay → Bay) : (h.modBay k f).editions = h.editions := rfl
@[simp] theorem Hall.modBay_unassigned (k : BayAddr) (f : Bay → Bay) : (h.modBay k f).unassigned = h.unassigned := rfl
@[simp] theorem Hall.modBay_faults (k : BayAddr) (f : Bay → Bay) : (h.modBay k f).faults = h.faults := rfl
@[simp] theorem Hall.modBay_holds (k : BayAddr) (f : Bay → Bay) : (h.modBay k f).holds = h.holds := rfl
@[simp] theorem Hall.modBay_agenda (k : BayAddr) (f : Bay → Bay) : (h.modBay k f).agenda = h.agenda := rfl
@[simp] theorem Hall.modBay_ceilings (k : BayAddr) (f : Bay → Bay) : (h.modBay k f).ceilings = h.ceilings := rfl

/-! ### modCount -/

@[simp] theorem Hall.modCount_clock (k : Nat) (f : LineCount → LineCount) : (h.modCount k f).clock = h.clock := rfl
@[simp] theorem Hall.modCount_timebase (k : Nat) (f : LineCount → LineCount) : (h.modCount k f).timebase = h.timebase := rfl
@[simp] theorem Hall.modCount_secondFrom (k : Nat) (f : LineCount → LineCount) : (h.modCount k f).secondFrom = h.secondFrom := rfl
@[simp] theorem Hall.modCount_notices (k : Nat) (f : LineCount → LineCount) : (h.modCount k f).notices = h.notices := rfl
@[simp] theorem Hall.modCount_noticeSeq (k : Nat) (f : LineCount → LineCount) : (h.modCount k f).noticeSeq = h.noticeSeq := rfl
@[simp] theorem Hall.modCount_dropped (k : Nat) (f : LineCount → LineCount) : (h.modCount k f).dropped = h.dropped := rfl
@[simp] theorem Hall.modCount_links (k : Nat) (f : LineCount → LineCount) : (h.modCount k f).links = h.links := rfl
@[simp] theorem Hall.modCount_sent (k : Nat) (f : LineCount → LineCount) : (h.modCount k f).sent = h.sent := rfl
@[simp] theorem Hall.modCount_lastReset (k : Nat) (f : LineCount → LineCount) : (h.modCount k f).lastReset = h.lastReset := rfl
@[simp] theorem Hall.modCount_fromDefaults (k : Nat) (f : LineCount → LineCount) : (h.modCount k f).fromDefaults = h.fromDefaults := rfl
@[simp] theorem Hall.modCount_strap (k : Nat) (f : LineCount → LineCount) : (h.modCount k f).strap = h.strap := rfl
@[simp] theorem Hall.modCount_grades (k : Nat) (f : LineCount → LineCount) : (h.modCount k f).grades = h.grades := rfl
@[simp] theorem Hall.modCount_watch (k : Nat) (f : LineCount → LineCount) : (h.modCount k f).watch = h.watch := rfl
@[simp] theorem Hall.modCount_reels (k : Nat) (f : LineCount → LineCount) : (h.modCount k f).reels = h.reels := rfl
@[simp] theorem Hall.modCount_massTolerance (k : Nat) (f : LineCount → LineCount) : (h.modCount k f).massTolerance = h.massTolerance := rfl
@[simp] theorem Hall.modCount_bays (k : Nat) (f : LineCount → LineCount) : (h.modCount k f).bays = h.bays := rfl
@[simp] theorem Hall.modCount_aisles (k : Nat) (f : LineCount → LineCount) : (h.modCount k f).aisles = h.aisles := rfl
@[simp] theorem Hall.modCount_zones (k : Nat) (f : LineCount → LineCount) : (h.modCount k f).zones = h.zones := rfl
@[simp] theorem Hall.modCount_vehicles (k : Nat) (f : LineCount → LineCount) : (h.modCount k f).vehicles = h.vehicles := rfl
@[simp] theorem Hall.modCount_missions (k : Nat) (f : LineCount → LineCount) : (h.modCount k f).missions = h.missions := rfl
@[simp] theorem Hall.modCount_allStop (k : Nat) (f : LineCount → LineCount) : (h.modCount k f).allStop = h.allStop := rfl
@[simp] theorem Hall.modCount_params (k : Nat) (f : LineCount → LineCount) : (h.modCount k f).params = h.params := rfl
@[simp] theorem Hall.modCount_fleetSilence (k : Nat) (f : LineCount → LineCount) : (h.modCount k f).fleetSilence = h.fleetSilence := rfl
@[simp] theorem Hall.modCount_lines (k : Nat) (f : LineCount → LineCount) : (h.modCount k f).lines = h.lines := rfl
@[simp] theorem Hall.modCount_stands (k : Nat) (f : LineCount → LineCount) : (h.modCount k f).stands = h.stands := rfl
@[simp] theorem Hall.modCount_counts (k : Nat) (f : LineCount → LineCount) : (h.modCount k f).counts = tmod h.counts k f := rfl
@[simp] theorem Hall.modCount_editions (k : Nat) (f : LineCount → LineCount) : (h.modCount k f).editions = h.editions := rfl
@[simp] theorem Hall.modCount_unassigned (k : Nat) (f : LineCount → LineCount) : (h.modCount k f).unassigned = h.unassigned := rfl
@[simp] theorem Hall.modCount_faults (k : Nat) (f : LineCount → LineCount) : (h.modCount k f).faults = h.faults := rfl
@[simp] theorem Hall.modCount_holds (k : Nat) (f : LineCount → LineCount) : (h.modCount k f).holds = h.holds := rfl
@[simp] theorem Hall.modCount_agenda (k : Nat) (f : LineCount → LineCount) : (h.modCount k f).agenda = h.agenda := rfl
@[simp] theorem Hall.modCount_ceilings (k : Nat) (f : LineCount → LineCount) : (h.modCount k f).ceilings = h.ceilings := rfl

/-! ### modTotals -/

@[simp] theorem Hall.modTotals_clock (k : Nat) (f : Totals → Totals) : (h.modTotals k f).clock = h.clock := rfl
@[simp] theorem Hall.modTotals_timebase (k : Nat) (f : Totals → Totals) : (h.modTotals k f).timebase = h.timebase := rfl
@[simp] theorem Hall.modTotals_secondFrom (k : Nat) (f : Totals → Totals) : (h.modTotals k f).secondFrom = h.secondFrom := rfl
@[simp] theorem Hall.modTotals_notices (k : Nat) (f : Totals → Totals) : (h.modTotals k f).notices = h.notices := rfl
@[simp] theorem Hall.modTotals_noticeSeq (k : Nat) (f : Totals → Totals) : (h.modTotals k f).noticeSeq = h.noticeSeq := rfl
@[simp] theorem Hall.modTotals_dropped (k : Nat) (f : Totals → Totals) : (h.modTotals k f).dropped = h.dropped := rfl
@[simp] theorem Hall.modTotals_links (k : Nat) (f : Totals → Totals) : (h.modTotals k f).links = h.links := rfl
@[simp] theorem Hall.modTotals_sent (k : Nat) (f : Totals → Totals) : (h.modTotals k f).sent = h.sent := rfl
@[simp] theorem Hall.modTotals_lastReset (k : Nat) (f : Totals → Totals) : (h.modTotals k f).lastReset = h.lastReset := rfl
@[simp] theorem Hall.modTotals_fromDefaults (k : Nat) (f : Totals → Totals) : (h.modTotals k f).fromDefaults = h.fromDefaults := rfl
@[simp] theorem Hall.modTotals_strap (k : Nat) (f : Totals → Totals) : (h.modTotals k f).strap = h.strap := rfl
@[simp] theorem Hall.modTotals_grades (k : Nat) (f : Totals → Totals) : (h.modTotals k f).grades = h.grades := rfl
@[simp] theorem Hall.modTotals_watch (k : Nat) (f : Totals → Totals) : (h.modTotals k f).watch = h.watch := rfl
@[simp] theorem Hall.modTotals_reels (k : Nat) (f : Totals → Totals) : (h.modTotals k f).reels = h.reels := rfl
@[simp] theorem Hall.modTotals_massTolerance (k : Nat) (f : Totals → Totals) : (h.modTotals k f).massTolerance = h.massTolerance := rfl
@[simp] theorem Hall.modTotals_bays (k : Nat) (f : Totals → Totals) : (h.modTotals k f).bays = h.bays := rfl
@[simp] theorem Hall.modTotals_aisles (k : Nat) (f : Totals → Totals) : (h.modTotals k f).aisles = h.aisles := rfl
@[simp] theorem Hall.modTotals_zones (k : Nat) (f : Totals → Totals) : (h.modTotals k f).zones = h.zones := rfl
@[simp] theorem Hall.modTotals_vehicles (k : Nat) (f : Totals → Totals) : (h.modTotals k f).vehicles = h.vehicles := rfl
@[simp] theorem Hall.modTotals_missions (k : Nat) (f : Totals → Totals) : (h.modTotals k f).missions = h.missions := rfl
@[simp] theorem Hall.modTotals_allStop (k : Nat) (f : Totals → Totals) : (h.modTotals k f).allStop = h.allStop := rfl
@[simp] theorem Hall.modTotals_params (k : Nat) (f : Totals → Totals) : (h.modTotals k f).params = h.params := rfl
@[simp] theorem Hall.modTotals_fleetSilence (k : Nat) (f : Totals → Totals) : (h.modTotals k f).fleetSilence = h.fleetSilence := rfl
@[simp] theorem Hall.modTotals_lines (k : Nat) (f : Totals → Totals) : (h.modTotals k f).lines = h.lines := rfl
@[simp] theorem Hall.modTotals_stands (k : Nat) (f : Totals → Totals) : (h.modTotals k f).stands = h.stands := rfl
@[simp] theorem Hall.modTotals_counts (k : Nat) (f : Totals → Totals) : (h.modTotals k f).counts = h.counts := rfl
@[simp] theorem Hall.modTotals_editions (k : Nat) (f : Totals → Totals) : (h.modTotals k f).editions = h.editions := rfl
@[simp] theorem Hall.modTotals_unassigned (k : Nat) (f : Totals → Totals) : (h.modTotals k f).unassigned = tmod h.unassigned k f := rfl
@[simp] theorem Hall.modTotals_faults (k : Nat) (f : Totals → Totals) : (h.modTotals k f).faults = h.faults := rfl
@[simp] theorem Hall.modTotals_holds (k : Nat) (f : Totals → Totals) : (h.modTotals k f).holds = h.holds := rfl
@[simp] theorem Hall.modTotals_agenda (k : Nat) (f : Totals → Totals) : (h.modTotals k f).agenda = h.agenda := rfl
@[simp] theorem Hall.modTotals_ceilings (k : Nat) (f : Totals → Totals) : (h.modTotals k f).ceilings = h.ceilings := rfl

/-! ### linkError -/

@[simp] theorem Hall.linkError_clock (l : Link) : (h.linkError l).clock = h.clock := rfl
@[simp] theorem Hall.linkError_timebase (l : Link) : (h.linkError l).timebase = h.timebase := rfl
@[simp] theorem Hall.linkError_secondFrom (l : Link) : (h.linkError l).secondFrom = h.secondFrom := rfl
@[simp] theorem Hall.linkError_notices (l : Link) : (h.linkError l).notices = h.notices := rfl
@[simp] theorem Hall.linkError_noticeSeq (l : Link) : (h.linkError l).noticeSeq = h.noticeSeq := rfl
@[simp] theorem Hall.linkError_dropped (l : Link) : (h.linkError l).dropped = h.dropped := rfl
@[simp] theorem Hall.linkError_links (l : Link) : (h.linkError l).links = tmod h.links (linkKey l) fun r => { r with errors := satAdd Config.max16 r.errors 1 } := rfl
@[simp] theorem Hall.linkError_sent (l : Link) : (h.linkError l).sent = h.sent := rfl
@[simp] theorem Hall.linkError_lastReset (l : Link) : (h.linkError l).lastReset = h.lastReset := rfl
@[simp] theorem Hall.linkError_fromDefaults (l : Link) : (h.linkError l).fromDefaults = h.fromDefaults := rfl
@[simp] theorem Hall.linkError_strap (l : Link) : (h.linkError l).strap = h.strap := rfl
@[simp] theorem Hall.linkError_grades (l : Link) : (h.linkError l).grades = h.grades := rfl
@[simp] theorem Hall.linkError_watch (l : Link) : (h.linkError l).watch = h.watch := rfl
@[simp] theorem Hall.linkError_reels (l : Link) : (h.linkError l).reels = h.reels := rfl
@[simp] theorem Hall.linkError_massTolerance (l : Link) : (h.linkError l).massTolerance = h.massTolerance := rfl
@[simp] theorem Hall.linkError_bays (l : Link) : (h.linkError l).bays = h.bays := rfl
@[simp] theorem Hall.linkError_aisles (l : Link) : (h.linkError l).aisles = h.aisles := rfl
@[simp] theorem Hall.linkError_zones (l : Link) : (h.linkError l).zones = h.zones := rfl
@[simp] theorem Hall.linkError_vehicles (l : Link) : (h.linkError l).vehicles = h.vehicles := rfl
@[simp] theorem Hall.linkError_missions (l : Link) : (h.linkError l).missions = h.missions := rfl
@[simp] theorem Hall.linkError_allStop (l : Link) : (h.linkError l).allStop = h.allStop := rfl
@[simp] theorem Hall.linkError_params (l : Link) : (h.linkError l).params = h.params := rfl
@[simp] theorem Hall.linkError_fleetSilence (l : Link) : (h.linkError l).fleetSilence = h.fleetSilence := rfl
@[simp] theorem Hall.linkError_lines (l : Link) : (h.linkError l).lines = h.lines := rfl
@[simp] theorem Hall.linkError_stands (l : Link) : (h.linkError l).stands = h.stands := rfl
@[simp] theorem Hall.linkError_counts (l : Link) : (h.linkError l).counts = h.counts := rfl
@[simp] theorem Hall.linkError_editions (l : Link) : (h.linkError l).editions = h.editions := rfl
@[simp] theorem Hall.linkError_unassigned (l : Link) : (h.linkError l).unassigned = h.unassigned := rfl
@[simp] theorem Hall.linkError_faults (l : Link) : (h.linkError l).faults = h.faults := rfl
@[simp] theorem Hall.linkError_holds (l : Link) : (h.linkError l).holds = h.holds := rfl
@[simp] theorem Hall.linkError_agenda (l : Link) : (h.linkError l).agenda = h.agenda := rfl
@[simp] theorem Hall.linkError_ceilings (l : Link) : (h.linkError l).ceilings = h.ceilings := rfl

/-! ### sendLine -/

@[simp] theorem Hall.sendLine_clock (k : Nat) (m : LineMsg) : (h.sendLine k m).clock = h.clock := rfl
@[simp] theorem Hall.sendLine_timebase (k : Nat) (m : LineMsg) : (h.sendLine k m).timebase = h.timebase := rfl
@[simp] theorem Hall.sendLine_secondFrom (k : Nat) (m : LineMsg) : (h.sendLine k m).secondFrom = h.secondFrom := rfl
@[simp] theorem Hall.sendLine_notices (k : Nat) (m : LineMsg) : (h.sendLine k m).notices = h.notices := rfl
@[simp] theorem Hall.sendLine_noticeSeq (k : Nat) (m : LineMsg) : (h.sendLine k m).noticeSeq = h.noticeSeq := rfl
@[simp] theorem Hall.sendLine_dropped (k : Nat) (m : LineMsg) : (h.sendLine k m).dropped = h.dropped := rfl
@[simp] theorem Hall.sendLine_links (k : Nat) (m : LineMsg) : (h.sendLine k m).links = tmod h.links k fun r => { r with txSeq := r.txSeq + 1 } := rfl
@[simp] theorem Hall.sendLine_sent (k : Nat) (m : LineMsg) : (h.sendLine k m).sent = h.sent ++ [.line k (h.link (.line k)).txSeq m] := rfl
@[simp] theorem Hall.sendLine_lastReset (k : Nat) (m : LineMsg) : (h.sendLine k m).lastReset = h.lastReset := rfl
@[simp] theorem Hall.sendLine_fromDefaults (k : Nat) (m : LineMsg) : (h.sendLine k m).fromDefaults = h.fromDefaults := rfl
@[simp] theorem Hall.sendLine_strap (k : Nat) (m : LineMsg) : (h.sendLine k m).strap = h.strap := rfl
@[simp] theorem Hall.sendLine_grades (k : Nat) (m : LineMsg) : (h.sendLine k m).grades = h.grades := rfl
@[simp] theorem Hall.sendLine_watch (k : Nat) (m : LineMsg) : (h.sendLine k m).watch = h.watch := rfl
@[simp] theorem Hall.sendLine_reels (k : Nat) (m : LineMsg) : (h.sendLine k m).reels = h.reels := rfl
@[simp] theorem Hall.sendLine_massTolerance (k : Nat) (m : LineMsg) : (h.sendLine k m).massTolerance = h.massTolerance := rfl
@[simp] theorem Hall.sendLine_bays (k : Nat) (m : LineMsg) : (h.sendLine k m).bays = h.bays := rfl
@[simp] theorem Hall.sendLine_aisles (k : Nat) (m : LineMsg) : (h.sendLine k m).aisles = h.aisles := rfl
@[simp] theorem Hall.sendLine_zones (k : Nat) (m : LineMsg) : (h.sendLine k m).zones = h.zones := rfl
@[simp] theorem Hall.sendLine_vehicles (k : Nat) (m : LineMsg) : (h.sendLine k m).vehicles = h.vehicles := rfl
@[simp] theorem Hall.sendLine_missions (k : Nat) (m : LineMsg) : (h.sendLine k m).missions = h.missions := rfl
@[simp] theorem Hall.sendLine_allStop (k : Nat) (m : LineMsg) : (h.sendLine k m).allStop = h.allStop := rfl
@[simp] theorem Hall.sendLine_params (k : Nat) (m : LineMsg) : (h.sendLine k m).params = h.params := rfl
@[simp] theorem Hall.sendLine_fleetSilence (k : Nat) (m : LineMsg) : (h.sendLine k m).fleetSilence = h.fleetSilence := rfl
@[simp] theorem Hall.sendLine_lines (k : Nat) (m : LineMsg) : (h.sendLine k m).lines = h.lines := rfl
@[simp] theorem Hall.sendLine_stands (k : Nat) (m : LineMsg) : (h.sendLine k m).stands = h.stands := rfl
@[simp] theorem Hall.sendLine_counts (k : Nat) (m : LineMsg) : (h.sendLine k m).counts = h.counts := rfl
@[simp] theorem Hall.sendLine_editions (k : Nat) (m : LineMsg) : (h.sendLine k m).editions = h.editions := rfl
@[simp] theorem Hall.sendLine_unassigned (k : Nat) (m : LineMsg) : (h.sendLine k m).unassigned = h.unassigned := rfl
@[simp] theorem Hall.sendLine_faults (k : Nat) (m : LineMsg) : (h.sendLine k m).faults = h.faults := rfl
@[simp] theorem Hall.sendLine_holds (k : Nat) (m : LineMsg) : (h.sendLine k m).holds = h.holds := rfl
@[simp] theorem Hall.sendLine_agenda (k : Nat) (m : LineMsg) : (h.sendLine k m).agenda = h.agenda := rfl
@[simp] theorem Hall.sendLine_ceilings (k : Nat) (m : LineMsg) : (h.sendLine k m).ceilings = h.ceilings := rfl

/-! ### sendDirective -/

@[simp] theorem Hall.sendDirective_clock (k : Nat) (d : Directive) : (h.sendDirective k d).clock = h.clock := rfl
@[simp] theorem Hall.sendDirective_timebase (k : Nat) (d : Directive) : (h.sendDirective k d).timebase = h.timebase := rfl
@[simp] theorem Hall.sendDirective_secondFrom (k : Nat) (d : Directive) : (h.sendDirective k d).secondFrom = h.secondFrom := rfl
@[simp] theorem Hall.sendDirective_notices (k : Nat) (d : Directive) : (h.sendDirective k d).notices = h.notices := rfl
@[simp] theorem Hall.sendDirective_noticeSeq (k : Nat) (d : Directive) : (h.sendDirective k d).noticeSeq = h.noticeSeq := rfl
@[simp] theorem Hall.sendDirective_dropped (k : Nat) (d : Directive) : (h.sendDirective k d).dropped = h.dropped := rfl
@[simp] theorem Hall.sendDirective_links (k : Nat) (d : Directive) : (h.sendDirective k d).links = tmod h.links (linkKey .fleet) fun r => { r with txSeq := r.txSeq + 1 } := rfl
@[simp] theorem Hall.sendDirective_sent (k : Nat) (d : Directive) : (h.sendDirective k d).sent = h.sent ++ [.directive (h.link .fleet).txSeq k d] := rfl
@[simp] theorem Hall.sendDirective_lastReset (k : Nat) (d : Directive) : (h.sendDirective k d).lastReset = h.lastReset := rfl
@[simp] theorem Hall.sendDirective_fromDefaults (k : Nat) (d : Directive) : (h.sendDirective k d).fromDefaults = h.fromDefaults := rfl
@[simp] theorem Hall.sendDirective_strap (k : Nat) (d : Directive) : (h.sendDirective k d).strap = h.strap := rfl
@[simp] theorem Hall.sendDirective_grades (k : Nat) (d : Directive) : (h.sendDirective k d).grades = h.grades := rfl
@[simp] theorem Hall.sendDirective_watch (k : Nat) (d : Directive) : (h.sendDirective k d).watch = h.watch := rfl
@[simp] theorem Hall.sendDirective_reels (k : Nat) (d : Directive) : (h.sendDirective k d).reels = h.reels := rfl
@[simp] theorem Hall.sendDirective_massTolerance (k : Nat) (d : Directive) : (h.sendDirective k d).massTolerance = h.massTolerance := rfl
@[simp] theorem Hall.sendDirective_bays (k : Nat) (d : Directive) : (h.sendDirective k d).bays = h.bays := rfl
@[simp] theorem Hall.sendDirective_aisles (k : Nat) (d : Directive) : (h.sendDirective k d).aisles = h.aisles := rfl
@[simp] theorem Hall.sendDirective_zones (k : Nat) (d : Directive) : (h.sendDirective k d).zones = h.zones := rfl
@[simp] theorem Hall.sendDirective_vehicles (k : Nat) (d : Directive) : (h.sendDirective k d).vehicles = h.vehicles := rfl
@[simp] theorem Hall.sendDirective_missions (k : Nat) (d : Directive) : (h.sendDirective k d).missions = h.missions := rfl
@[simp] theorem Hall.sendDirective_allStop (k : Nat) (d : Directive) : (h.sendDirective k d).allStop = h.allStop := rfl
@[simp] theorem Hall.sendDirective_params (k : Nat) (d : Directive) : (h.sendDirective k d).params = h.params := rfl
@[simp] theorem Hall.sendDirective_fleetSilence (k : Nat) (d : Directive) : (h.sendDirective k d).fleetSilence = h.fleetSilence := rfl
@[simp] theorem Hall.sendDirective_lines (k : Nat) (d : Directive) : (h.sendDirective k d).lines = h.lines := rfl
@[simp] theorem Hall.sendDirective_stands (k : Nat) (d : Directive) : (h.sendDirective k d).stands = h.stands := rfl
@[simp] theorem Hall.sendDirective_counts (k : Nat) (d : Directive) : (h.sendDirective k d).counts = h.counts := rfl
@[simp] theorem Hall.sendDirective_editions (k : Nat) (d : Directive) : (h.sendDirective k d).editions = h.editions := rfl
@[simp] theorem Hall.sendDirective_unassigned (k : Nat) (d : Directive) : (h.sendDirective k d).unassigned = h.unassigned := rfl
@[simp] theorem Hall.sendDirective_faults (k : Nat) (d : Directive) : (h.sendDirective k d).faults = h.faults := rfl
@[simp] theorem Hall.sendDirective_holds (k : Nat) (d : Directive) : (h.sendDirective k d).holds = h.holds := rfl
@[simp] theorem Hall.sendDirective_agenda (k : Nat) (d : Directive) : (h.sendDirective k d).agenda = h.agenda := rfl
@[simp] theorem Hall.sendDirective_ceilings (k : Nat) (d : Directive) : (h.sendDirective k d).ceilings = h.ceilings := rfl

/-! ### push -/

@[simp] theorem Hall.push_clock (j : Job) : (h.push j).clock = h.clock := by unfold Hall.push; split <;> rfl
@[simp] theorem Hall.push_timebase (j : Job) : (h.push j).timebase = h.timebase := by unfold Hall.push; split <;> rfl
@[simp] theorem Hall.push_secondFrom (j : Job) : (h.push j).secondFrom = h.secondFrom := by unfold Hall.push; split <;> rfl
@[simp] theorem Hall.push_notices (j : Job) : (h.push j).notices = h.notices := by unfold Hall.push; split <;> rfl
@[simp] theorem Hall.push_noticeSeq (j : Job) : (h.push j).noticeSeq = h.noticeSeq := by unfold Hall.push; split <;> rfl
@[simp] theorem Hall.push_dropped (j : Job) : (h.push j).dropped = h.dropped := by unfold Hall.push; split <;> rfl
@[simp] theorem Hall.push_links (j : Job) : (h.push j).links = h.links := by unfold Hall.push; split <;> rfl
@[simp] theorem Hall.push_sent (j : Job) : (h.push j).sent = h.sent := by unfold Hall.push; split <;> rfl
@[simp] theorem Hall.push_lastReset (j : Job) : (h.push j).lastReset = h.lastReset := by unfold Hall.push; split <;> rfl
@[simp] theorem Hall.push_fromDefaults (j : Job) : (h.push j).fromDefaults = h.fromDefaults := by unfold Hall.push; split <;> rfl
@[simp] theorem Hall.push_strap (j : Job) : (h.push j).strap = h.strap := by unfold Hall.push; split <;> rfl
@[simp] theorem Hall.push_grades (j : Job) : (h.push j).grades = h.grades := by unfold Hall.push; split <;> rfl
@[simp] theorem Hall.push_watch (j : Job) : (h.push j).watch = h.watch := by unfold Hall.push; split <;> rfl
@[simp] theorem Hall.push_reels (j : Job) : (h.push j).reels = h.reels := by unfold Hall.push; split <;> rfl
@[simp] theorem Hall.push_massTolerance (j : Job) : (h.push j).massTolerance = h.massTolerance := by unfold Hall.push; split <;> rfl
@[simp] theorem Hall.push_bays (j : Job) : (h.push j).bays = h.bays := by unfold Hall.push; split <;> rfl
@[simp] theorem Hall.push_aisles (j : Job) : (h.push j).aisles = h.aisles := by unfold Hall.push; split <;> rfl
@[simp] theorem Hall.push_zones (j : Job) : (h.push j).zones = h.zones := by unfold Hall.push; split <;> rfl
@[simp] theorem Hall.push_vehicles (j : Job) : (h.push j).vehicles = h.vehicles := by unfold Hall.push; split <;> rfl
@[simp] theorem Hall.push_missions (j : Job) : (h.push j).missions = h.missions := by unfold Hall.push; split <;> rfl
@[simp] theorem Hall.push_allStop (j : Job) : (h.push j).allStop = h.allStop := by unfold Hall.push; split <;> rfl
@[simp] theorem Hall.push_params (j : Job) : (h.push j).params = h.params := by unfold Hall.push; split <;> rfl
@[simp] theorem Hall.push_fleetSilence (j : Job) : (h.push j).fleetSilence = h.fleetSilence := by unfold Hall.push; split <;> rfl
@[simp] theorem Hall.push_lines (j : Job) : (h.push j).lines = h.lines := by unfold Hall.push; split <;> rfl
@[simp] theorem Hall.push_stands (j : Job) : (h.push j).stands = h.stands := by unfold Hall.push; split <;> rfl
@[simp] theorem Hall.push_counts (j : Job) : (h.push j).counts = h.counts := by unfold Hall.push; split <;> rfl
@[simp] theorem Hall.push_editions (j : Job) : (h.push j).editions = h.editions := by unfold Hall.push; split <;> rfl
@[simp] theorem Hall.push_unassigned (j : Job) : (h.push j).unassigned = h.unassigned := by unfold Hall.push; split <;> rfl
@[simp] theorem Hall.push_faults (j : Job) : (h.push j).faults = h.faults := by unfold Hall.push; split <;> rfl
@[simp] theorem Hall.push_holds (j : Job) : (h.push j).holds = h.holds := by unfold Hall.push; split <;> rfl
@[simp] theorem Hall.push_ceilings (j : Job) : (h.push j).ceilings = h.ceilings := by unfold Hall.push; split <;> rfl

/-! ### oweSlots -/

@[simp] theorem Hall.oweSlots_clock : h.oweSlots.clock = h.clock := by unfold Hall.oweSlots; split <;> rfl
@[simp] theorem Hall.oweSlots_timebase : h.oweSlots.timebase = h.timebase := by unfold Hall.oweSlots; split <;> rfl
@[simp] theorem Hall.oweSlots_secondFrom : h.oweSlots.secondFrom = h.secondFrom := by unfold Hall.oweSlots; split <;> rfl
@[simp] theorem Hall.oweSlots_notices : h.oweSlots.notices = h.notices := by unfold Hall.oweSlots; split <;> rfl
@[simp] theorem Hall.oweSlots_noticeSeq : h.oweSlots.noticeSeq = h.noticeSeq := by unfold Hall.oweSlots; split <;> rfl
@[simp] theorem Hall.oweSlots_dropped : h.oweSlots.dropped = h.dropped := by unfold Hall.oweSlots; split <;> rfl
@[simp] theorem Hall.oweSlots_links : h.oweSlots.links = h.links := by unfold Hall.oweSlots; split <;> rfl
@[simp] theorem Hall.oweSlots_sent : h.oweSlots.sent = h.sent := by unfold Hall.oweSlots; split <;> rfl
@[simp] theorem Hall.oweSlots_lastReset : h.oweSlots.lastReset = h.lastReset := by unfold Hall.oweSlots; split <;> rfl
@[simp] theorem Hall.oweSlots_fromDefaults : h.oweSlots.fromDefaults = h.fromDefaults := by unfold Hall.oweSlots; split <;> rfl
@[simp] theorem Hall.oweSlots_strap : h.oweSlots.strap = h.strap := by unfold Hall.oweSlots; split <;> rfl
@[simp] theorem Hall.oweSlots_grades : h.oweSlots.grades = h.grades := by unfold Hall.oweSlots; split <;> rfl
@[simp] theorem Hall.oweSlots_watch : h.oweSlots.watch = h.watch := by unfold Hall.oweSlots; split <;> rfl
@[simp] theorem Hall.oweSlots_reels : h.oweSlots.reels = h.reels := by unfold Hall.oweSlots; split <;> rfl
@[simp] theorem Hall.oweSlots_massTolerance : h.oweSlots.massTolerance = h.massTolerance := by unfold Hall.oweSlots; split <;> rfl
@[simp] theorem Hall.oweSlots_bays : h.oweSlots.bays = h.bays := by unfold Hall.oweSlots; split <;> rfl
@[simp] theorem Hall.oweSlots_aisles : h.oweSlots.aisles = h.aisles := by unfold Hall.oweSlots; split <;> rfl
@[simp] theorem Hall.oweSlots_zones : h.oweSlots.zones = h.zones := by unfold Hall.oweSlots; split <;> rfl
@[simp] theorem Hall.oweSlots_vehicles : h.oweSlots.vehicles = h.vehicles := by unfold Hall.oweSlots; split <;> rfl
@[simp] theorem Hall.oweSlots_missions : h.oweSlots.missions = h.missions := by unfold Hall.oweSlots; split <;> rfl
@[simp] theorem Hall.oweSlots_allStop : h.oweSlots.allStop = h.allStop := by unfold Hall.oweSlots; split <;> rfl
@[simp] theorem Hall.oweSlots_params : h.oweSlots.params = h.params := by unfold Hall.oweSlots; split <;> rfl
@[simp] theorem Hall.oweSlots_fleetSilence : h.oweSlots.fleetSilence = h.fleetSilence := by unfold Hall.oweSlots; split <;> rfl
@[simp] theorem Hall.oweSlots_lines : h.oweSlots.lines = h.lines := by unfold Hall.oweSlots; split <;> rfl
@[simp] theorem Hall.oweSlots_stands : h.oweSlots.stands = h.stands := by unfold Hall.oweSlots; split <;> rfl
@[simp] theorem Hall.oweSlots_counts : h.oweSlots.counts = h.counts := by unfold Hall.oweSlots; split <;> rfl
@[simp] theorem Hall.oweSlots_editions : h.oweSlots.editions = h.editions := by unfold Hall.oweSlots; split <;> rfl
@[simp] theorem Hall.oweSlots_unassigned : h.oweSlots.unassigned = h.unassigned := by unfold Hall.oweSlots; split <;> rfl
@[simp] theorem Hall.oweSlots_faults : h.oweSlots.faults = h.faults := by unfold Hall.oweSlots; split <;> rfl
@[simp] theorem Hall.oweSlots_holds : h.oweSlots.holds = h.holds := by unfold Hall.oweSlots; split <;> rfl
@[simp] theorem Hall.oweSlots_ceilings : h.oweSlots.ceilings = h.ceilings := by unfold Hall.oweSlots; split <;> rfl

/-! ### oweCeiling -/

@[simp] theorem Hall.oweCeiling_clock (n : Nat) : (h.oweCeiling n).clock = h.clock := by unfold Hall.oweCeiling; split <;> rfl
@[simp] theorem Hall.oweCeiling_timebase (n : Nat) : (h.oweCeiling n).timebase = h.timebase := by unfold Hall.oweCeiling; split <;> rfl
@[simp] theorem Hall.oweCeiling_secondFrom (n : Nat) : (h.oweCeiling n).secondFrom = h.secondFrom := by unfold Hall.oweCeiling; split <;> rfl
@[simp] theorem Hall.oweCeiling_notices (n : Nat) : (h.oweCeiling n).notices = h.notices := by unfold Hall.oweCeiling; split <;> rfl
@[simp] theorem Hall.oweCeiling_noticeSeq (n : Nat) : (h.oweCeiling n).noticeSeq = h.noticeSeq := by unfold Hall.oweCeiling; split <;> rfl
@[simp] theorem Hall.oweCeiling_dropped (n : Nat) : (h.oweCeiling n).dropped = h.dropped := by unfold Hall.oweCeiling; split <;> rfl
@[simp] theorem Hall.oweCeiling_links (n : Nat) : (h.oweCeiling n).links = h.links := by unfold Hall.oweCeiling; split <;> rfl
@[simp] theorem Hall.oweCeiling_sent (n : Nat) : (h.oweCeiling n).sent = h.sent := by unfold Hall.oweCeiling; split <;> rfl
@[simp] theorem Hall.oweCeiling_lastReset (n : Nat) : (h.oweCeiling n).lastReset = h.lastReset := by unfold Hall.oweCeiling; split <;> rfl
@[simp] theorem Hall.oweCeiling_fromDefaults (n : Nat) : (h.oweCeiling n).fromDefaults = h.fromDefaults := by unfold Hall.oweCeiling; split <;> rfl
@[simp] theorem Hall.oweCeiling_strap (n : Nat) : (h.oweCeiling n).strap = h.strap := by unfold Hall.oweCeiling; split <;> rfl
@[simp] theorem Hall.oweCeiling_grades (n : Nat) : (h.oweCeiling n).grades = h.grades := by unfold Hall.oweCeiling; split <;> rfl
@[simp] theorem Hall.oweCeiling_watch (n : Nat) : (h.oweCeiling n).watch = h.watch := by unfold Hall.oweCeiling; split <;> rfl
@[simp] theorem Hall.oweCeiling_reels (n : Nat) : (h.oweCeiling n).reels = h.reels := by unfold Hall.oweCeiling; split <;> rfl
@[simp] theorem Hall.oweCeiling_massTolerance (n : Nat) : (h.oweCeiling n).massTolerance = h.massTolerance := by unfold Hall.oweCeiling; split <;> rfl
@[simp] theorem Hall.oweCeiling_bays (n : Nat) : (h.oweCeiling n).bays = h.bays := by unfold Hall.oweCeiling; split <;> rfl
@[simp] theorem Hall.oweCeiling_aisles (n : Nat) : (h.oweCeiling n).aisles = h.aisles := by unfold Hall.oweCeiling; split <;> rfl
@[simp] theorem Hall.oweCeiling_zones (n : Nat) : (h.oweCeiling n).zones = h.zones := by unfold Hall.oweCeiling; split <;> rfl
@[simp] theorem Hall.oweCeiling_vehicles (n : Nat) : (h.oweCeiling n).vehicles = h.vehicles := by unfold Hall.oweCeiling; split <;> rfl
@[simp] theorem Hall.oweCeiling_missions (n : Nat) : (h.oweCeiling n).missions = h.missions := by unfold Hall.oweCeiling; split <;> rfl
@[simp] theorem Hall.oweCeiling_allStop (n : Nat) : (h.oweCeiling n).allStop = h.allStop := by unfold Hall.oweCeiling; split <;> rfl
@[simp] theorem Hall.oweCeiling_params (n : Nat) : (h.oweCeiling n).params = h.params := by unfold Hall.oweCeiling; split <;> rfl
@[simp] theorem Hall.oweCeiling_fleetSilence (n : Nat) : (h.oweCeiling n).fleetSilence = h.fleetSilence := by unfold Hall.oweCeiling; split <;> rfl
@[simp] theorem Hall.oweCeiling_lines (n : Nat) : (h.oweCeiling n).lines = h.lines := by unfold Hall.oweCeiling; split <;> rfl
@[simp] theorem Hall.oweCeiling_stands (n : Nat) : (h.oweCeiling n).stands = h.stands := by unfold Hall.oweCeiling; split <;> rfl
@[simp] theorem Hall.oweCeiling_counts (n : Nat) : (h.oweCeiling n).counts = h.counts := by unfold Hall.oweCeiling; split <;> rfl
@[simp] theorem Hall.oweCeiling_editions (n : Nat) : (h.oweCeiling n).editions = h.editions := by unfold Hall.oweCeiling; split <;> rfl
@[simp] theorem Hall.oweCeiling_unassigned (n : Nat) : (h.oweCeiling n).unassigned = h.unassigned := by unfold Hall.oweCeiling; split <;> rfl
@[simp] theorem Hall.oweCeiling_faults (n : Nat) : (h.oweCeiling n).faults = h.faults := by unfold Hall.oweCeiling; split <;> rfl
@[simp] theorem Hall.oweCeiling_holds (n : Nat) : (h.oweCeiling n).holds = h.holds := by unfold Hall.oweCeiling; split <;> rfl
@[simp] theorem Hall.oweCeiling_agenda (n : Nat) : (h.oweCeiling n).agenda = h.agenda := by unfold Hall.oweCeiling; split <;> rfl

/-! ### notify -/

@[simp] theorem Hall.notify_clock (n : Notice) : (h.notify n).clock = h.clock := by unfold Hall.notify; split <;> rfl
@[simp] theorem Hall.notify_timebase (n : Notice) : (h.notify n).timebase = h.timebase := by unfold Hall.notify; split <;> rfl
@[simp] theorem Hall.notify_secondFrom (n : Notice) : (h.notify n).secondFrom = h.secondFrom := by unfold Hall.notify; split <;> rfl
@[simp] theorem Hall.notify_links (n : Notice) : (h.notify n).links = h.links := by unfold Hall.notify; split <;> rfl
@[simp] theorem Hall.notify_sent (n : Notice) : (h.notify n).sent = h.sent := by unfold Hall.notify; split <;> rfl
@[simp] theorem Hall.notify_lastReset (n : Notice) : (h.notify n).lastReset = h.lastReset := by unfold Hall.notify; split <;> rfl
@[simp] theorem Hall.notify_fromDefaults (n : Notice) : (h.notify n).fromDefaults = h.fromDefaults := by unfold Hall.notify; split <;> rfl
@[simp] theorem Hall.notify_strap (n : Notice) : (h.notify n).strap = h.strap := by unfold Hall.notify; split <;> rfl
@[simp] theorem Hall.notify_grades (n : Notice) : (h.notify n).grades = h.grades := by unfold Hall.notify; split <;> rfl
@[simp] theorem Hall.notify_watch (n : Notice) : (h.notify n).watch = h.watch := by unfold Hall.notify; split <;> rfl
@[simp] theorem Hall.notify_reels (n : Notice) : (h.notify n).reels = h.reels := by unfold Hall.notify; split <;> rfl
@[simp] theorem Hall.notify_massTolerance (n : Notice) : (h.notify n).massTolerance = h.massTolerance := by unfold Hall.notify; split <;> rfl
@[simp] theorem Hall.notify_bays (n : Notice) : (h.notify n).bays = h.bays := by unfold Hall.notify; split <;> rfl
@[simp] theorem Hall.notify_aisles (n : Notice) : (h.notify n).aisles = h.aisles := by unfold Hall.notify; split <;> rfl
@[simp] theorem Hall.notify_zones (n : Notice) : (h.notify n).zones = h.zones := by unfold Hall.notify; split <;> rfl
@[simp] theorem Hall.notify_vehicles (n : Notice) : (h.notify n).vehicles = h.vehicles := by unfold Hall.notify; split <;> rfl
@[simp] theorem Hall.notify_missions (n : Notice) : (h.notify n).missions = h.missions := by unfold Hall.notify; split <;> rfl
@[simp] theorem Hall.notify_allStop (n : Notice) : (h.notify n).allStop = h.allStop := by unfold Hall.notify; split <;> rfl
@[simp] theorem Hall.notify_params (n : Notice) : (h.notify n).params = h.params := by unfold Hall.notify; split <;> rfl
@[simp] theorem Hall.notify_fleetSilence (n : Notice) : (h.notify n).fleetSilence = h.fleetSilence := by unfold Hall.notify; split <;> rfl
@[simp] theorem Hall.notify_lines (n : Notice) : (h.notify n).lines = h.lines := by unfold Hall.notify; split <;> rfl
@[simp] theorem Hall.notify_stands (n : Notice) : (h.notify n).stands = h.stands := by unfold Hall.notify; split <;> rfl
@[simp] theorem Hall.notify_counts (n : Notice) : (h.notify n).counts = h.counts := by unfold Hall.notify; split <;> rfl
@[simp] theorem Hall.notify_editions (n : Notice) : (h.notify n).editions = h.editions := by unfold Hall.notify; split <;> rfl
@[simp] theorem Hall.notify_unassigned (n : Notice) : (h.notify n).unassigned = h.unassigned := by unfold Hall.notify; split <;> rfl
@[simp] theorem Hall.notify_faults (n : Notice) : (h.notify n).faults = h.faults := by unfold Hall.notify; split <;> rfl
@[simp] theorem Hall.notify_holds (n : Notice) : (h.notify n).holds = h.holds := by unfold Hall.notify; split <;> rfl
@[simp] theorem Hall.notify_agenda (n : Notice) : (h.notify n).agenda = h.agenda := by unfold Hall.notify; split <;> rfl
@[simp] theorem Hall.notify_ceilings (n : Notice) : (h.notify n).ceilings = h.ceilings := by unfold Hall.notify; split <;> rfl

/-- A notice takes the next sequence number, whether it is queued or dropped (R212). -/
@[simp] theorem Hall.notify_noticeSeq (n : Notice) : (h.notify n).noticeSeq = h.noticeSeq + 1 := by unfold Hall.notify; split <;> rfl

@[simp] theorem State.reply_pending (s : State) (q : Req) (k : Nat) (x : Status) (c : Content) : (s.reply q k x c).pending = s.pending := rfl
@[simp] theorem State.reply_store (s : State) (q : Req) (k : Nat) (x : Status) (c : Content) : (s.reply q k x c).store = s.store := rfl
@[simp] theorem State.reply_hall (s : State) (q : Req) (k : Nat) (x : Status) (c : Content) : (s.reply q k x c).hall = s.hall := rfl
@[simp] theorem State.reply_host (s : State) (q : Req) (k : Nat) (x : Status) (c : Content) :
    (s.reply q k x c).host = { s.host with replies := s.host.replies ++ [⟨q.tag, k + 128, x, c⟩] } := rfl

end Sys2Proof.Machine
end

