-- ==== Sys2Proof/Laws/Tables.lean ====
section
/-! SUPPORT. What reading a table gives after it has been changed, and what a change of one record leaves of a view of all. -/

namespace Sys2Proof.Machine

variable {α β : Type}

/-! ### Reading after a change -/

@[simp] theorem tget_nil (k : Nat) : tget ([] : Table α) k = none := rfl

theorem tget_cons (j : Nat) (v : α) (t : Table α) (k : Nat) :
    tget ((j, v) :: t) k = if j = k then some v else tget t k := rfl

theorem tget_tmod (t : Table α) (k j : Nat) (f : α → α) :
    tget (tmod t k f) j = if j = k then (tget t j).map f else tget t j := by
  induction t with
  | nil => simp [tmod]
  | cons p t ih =>
    obtain ⟨i, v⟩ := p
    simp only [tmod]
    split <;> simp only [tget_cons] <;> split <;> grind

@[simp] theorem tget_tmod_same (t : Table α) (k : Nat) (f : α → α) : tget (tmod t k f) k = (tget t k).map f := by
  simp [tget_tmod]

theorem tget_tmod_ne (t : Table α) {k j : Nat} (f : α → α) (h : j ≠ k) : tget (tmod t k f) j = tget t j := by
  simp [tget_tmod, h]

theorem tmod_tmod_congr {t : Table α} {k : Nat} {v : α} {f g g' : α → α} (hv : tget t k = some v) (h : g (f v) = g' v) :
    tmod (tmod t k f) k g = tmod t k g' := by
  induction t with
  | nil => rfl
  | cons p t ih =>
    obtain ⟨j, w⟩ := p
    simp only [tmod, tget_cons] at *
    split at hv
    · rename_i e; subst e; cases hv; simp [tmod, h]
    · rename_i e; simp [tmod, e, ih hv]

theorem tget_tins (t : Table α) (k j : Nat) (v : α) (h : tget t k = none) :
    tget (tins t k v) j = if j = k then some v else tget t j := by
  induction t with
  | nil => simp only [tins, tget_cons, tget_nil, eq_comm]
  | cons p t ih =>
    obtain ⟨i, w⟩ := p
    simp only [tget_cons] at h
    simp only [tins]
    split <;> simp only [tget_cons] <;> grind

theorem tget_tput (t : Table α) (k j : Nat) (v : α) : tget (tput t k v) j = if j = k then some v else tget t j := by
  unfold tput
  split
  · rename_i h
    rw [tget_tmod]
    split
    · rename_i e; subst e; obtain ⟨w, hw⟩ := Option.isSome_iff_exists.mp h; simp [hw]
    · rfl
  · rename_i h; exact tget_tins t k j v (by simpa using h)

@[simp] theorem tget_tput_same (t : Table α) (k : Nat) (v : α) : tget (tput t k v) k = some v := by simp [tget_tput]

theorem tget_tput_ne (t : Table α) {k j : Nat} (v : α) (h : j ≠ k) : tget (tput t k v) j = tget t j := by simp [tget_tput, h]

theorem tget_tdel_ne (t : Table α) {k j : Nat} (h : j ≠ k) : tget (tdel t k) j = tget t j := by
  induction t with
  | nil => rfl
  | cons p t ih =>
    obtain ⟨i, w⟩ := p
    simp only [tdel]
    split <;> simp only [tget_cons] <;> grind

theorem firstFree_none {t : Table α} {n k fuel : Nat} (h : firstFree t n fuel = some k) : tget t k = none := by
  induction fuel generalizing n with
  | zero => simp [firstFree] at h
  | succ m ih =>
    simp only [firstFree] at h
    split at h
    · rename_i e; cases h; simpa using e
    · exact ih h

/-- A search that finds every number taken finds none free. -/
theorem firstFree_taken {t : Table α} {fuel n : Nat} (h : ∀ i < fuel, (tget t (n + i)).isSome = true) :
    firstFree t n fuel = none := by
  induction fuel generalizing n with
  | zero => rfl
  | succ fuel ih =>
    have h0 := h 0 (Nat.succ_pos _)
    rw [Nat.add_zero] at h0
    unfold firstFree
    rw [if_neg fun e => by simp [Option.isNone_iff_eq_none.mp e] at h0]
    exact ih fun i hi => by have := h (i + 1) (by omega); rwa [show n + 1 + i = n + (i + 1) by omega]

/-- A table that lists every number from `a` on has each of them. -/
theorem tget_rows (x : α) (n a i : Nat) (h : i < n) : tget ((List.range' a n).map fun j => (j, x)) (a + i) = some x := by
  induction n generalizing a i with
  | zero => omega
  | succ n ih =>
    simp only [List.range'_succ, List.map_cons, tget_cons]
    split
    · rfl
    · have := ih (a + 1) (i - 1) (by omega)
      rwa [show a + 1 + (i - 1) = a + i by omega] at this

theorem lowestFree_none {t : Table α} {k n : Nat} (h : lowestFree t n = some k) : tget t k = none := firstFree_none h

/-! ### Membership -/

theorem tget_mem {t : Table α} {k : Nat} {v : α} (h : tget t k = some v) : (k, v) ∈ t := by
  induction t with
  | nil => simp at h
  | cons p t ih => obtain ⟨i, w⟩ := p; simp only [tget_cons] at h; split at h <;> grind

theorem mem_tmod {t : Table α} {k : Nat} {f : α → α} {p : Nat × α} (h : p ∈ tmod t k f) :
    p ∈ t ∨ ∃ v, (k, v) ∈ t ∧ tget t k = some v ∧ p = (k, f v) := by
  induction t with
  | nil => simp [tmod] at h
  | cons q t ih =>
    obtain ⟨i, w⟩ := q
    simp only [tmod] at h
    split at h <;> simp only [tget_cons] <;> grind

theorem mem_tput {t : Table α} {k : Nat} {v : α} {p : Nat × α} (h : p ∈ tput t k v) : p ∈ t ∨ p = (k, v) := by
  unfold tput at h
  split at h
  · rcases mem_tmod h with h | ⟨_, _, _, h⟩ <;> simp [h]
  · clear * - h
    induction t with
    | nil => simpa [tins] using h
    | cons q t ih => obtain ⟨i, w⟩ := q; simp only [tins] at h; split at h <;> grind

theorem mem_tdel {t : Table α} {k : Nat} {p : Nat × α} (h : p ∈ tdel t k) : p ∈ t := by
  induction t with
  | nil => exact h
  | cons q t ih => obtain ⟨i, w⟩ := q; simp only [tdel] at h; split at h <;> grind

/-! ### Views of every record -/

theorem tget_tview (g : α → β) (t : Table α) (k : Nat) : tget (tview g t) k = (tget t k).map g := by
  induction t with
  | nil => rfl
  | cons p t ih => obtain ⟨i, w⟩ := p; simp only [tview, List.map_cons, tget_cons] at ih ⊢; split <;> simp_all

theorem tview_tmod (g : α → β) (t : Table α) (k : Nat) (f : α → α) (h : ∀ v, tget t k = some v → g (f v) = g v) :
    tview g (tmod t k f) = tview g t := by
  induction t with
  | nil => rfl
  | cons p t ih =>
    obtain ⟨i, w⟩ := p
    simp only [tget_cons] at h
    simp only [tmod]
    split <;> simp_all [tview]

theorem tview_tput (g : α → β) (t : Table α) (k : Nat) (v w : α) (hv : tget t k = some v) (h : g w = g v) :
    tview g (tput t k w) = tview g t := by
  simp only [tput, hv, Option.isSome_some, if_true]
  exact tview_tmod _ _ _ _ fun x hx => by rw [hv] at hx; cases hx; exact h

theorem tview_tmod_eq (g : α → β) (t : Table α) (k : Nat) (f : α → α) (f' : β → β) (h : ∀ v, g (f v) = f' (g v)) :
    tview g (tmod t k f) = tmod (tview g t) k f' := by
  induction t with
  | nil => rfl
  | cons p t ih => obtain ⟨i, w⟩ := p; simp only [tmod, tview, List.map_cons] at ih ⊢; split <;> simp_all

theorem tview_tins (g : α → β) (t : Table α) (k : Nat) (v : α) : tview g (tins t k v) = tins (tview g t) k (g v) := by
  induction t with
  | nil => rfl
  | cons p t ih => obtain ⟨i, w⟩ := p; simp only [tins, tview, List.map_cons] at ih ⊢; split <;> simp_all

theorem tview_tput_eq (g : α → β) (t : Table α) (k : Nat) (v : α) : tview g (tput t k v) = tput (tview g t) k (g v) := by
  unfold tput
  simp only [tget_tview, Option.isSome_map]
  split
  · exact tview_tmod_eq _ _ _ _ _ fun _ => rfl
  · exact tview_tins _ _ _ _

theorem tview_tdel (g : α → β) (t : Table α) (k : Nat) : tview g (tdel t k) = tdel (tview g t) k := by
  induction t with
  | nil => rfl
  | cons p t ih => obtain ⟨i, w⟩ := p; simp only [tdel, tview, List.map_cons] at ih ⊢; split <;> simp_all

/-! ### The records left out of a filter by number -/

theorem filter_tmod (c : Nat → Bool) (t : Table α) (k : Nat) (f : α → α) (h : c k = false) :
    (tmod t k f).filter (fun p => c p.1) = t.filter fun p => c p.1 := by
  induction t with
  | nil => rfl
  | cons p t ih => obtain ⟨i, w⟩ := p; simp only [tmod]; split <;> simp_all [List.filter_cons]

theorem filter_tput (c : Nat → Bool) (t : Table α) (k : Nat) (v : α) (h : c k = false) :
    (tput t k v).filter (fun p => c p.1) = t.filter fun p => c p.1 := by
  unfold tput
  split
  · exact filter_tmod c t k _ h
  · induction t with
    | nil => simp [tins, h]
    | cons p t ih =>
      obtain ⟨i, w⟩ := p
      simp only [tins]
      split
      · simp [List.filter_cons, h]
      · rename_i hn hk; simp only [tget_cons] at hn; split at hn <;> simp_all [List.filter_cons]

theorem filter_tdel (c : Nat → Bool) (t : Table α) (k : Nat) (h : c k = false) :
    (tdel t k).filter (fun p => c p.1) = t.filter fun p => c p.1 := by
  induction t with
  | nil => rfl
  | cons p t ih => obtain ⟨i, w⟩ := p; simp only [tdel]; split <;> simp_all [List.filter_cons]

theorem tget_filter (c : Nat → Bool) (t : Table α) (k : Nat) (h : c k = true) :
    tget (t.filter fun p => c p.1) k = tget t k := by
  induction t with
  | nil => rfl
  | cons p t ih =>
    obtain ⟨i, w⟩ := p
    by_cases hi : c i = true <;> by_cases hk : i = k <;> simp_all [tget_cons]

/-! ### Tables in order -/

theorem tsorted_iff (t : Table α) : tsorted t = true ↔ (t.map (·.1)).Pairwise (· < ·) := by
  induction t with
  | nil => simp [tsorted]
  | cons p t ih =>
    cases t with
    | nil => simp [tsorted]
    | cons q t =>
      rw [List.map_cons, List.pairwise_cons, ← ih]
      simp only [tsorted, Bool.and_eq_true, decide_eq_true_eq, List.map_cons, List.mem_cons, forall_eq_or_imp]
      refine ⟨fun h => ⟨⟨h.1, fun a ha => ?_⟩, h.2⟩, fun h => ⟨h.1.1, h.2⟩⟩
      exact h.1.trans ((List.pairwise_cons.mp (ih.mp h.2)).1 a ha)

theorem tdel_sublist (t : Table α) (k : Nat) : (tdel t k).Sublist t := by
  induction t with
  | nil => exact List.Sublist.refl _
  | cons p t ih =>
    unfold tdel; split
    · exact List.sublist_cons_self _ _
    · exact ih.cons_cons _

theorem tsorted_sublist {t u : Table α} (h : u.Sublist t) (s : tsorted t = true) : tsorted u = true :=
  (tsorted_iff u).mpr (((tsorted_iff t).mp s).sublist (h.map _))

theorem tsorted_tdel {t : Table α} (s : tsorted t = true) (k : Nat) : tsorted (tdel t k) = true := tsorted_sublist (tdel_sublist t k) s

theorem tmod_keys (t : Table α) (k : Nat) (f : α → α) : (tmod t k f).map (·.1) = t.map (·.1) := by
  induction t with
  | nil => rfl
  | cons p t ih => unfold tmod; split <;> simp_all

theorem tsorted_tmod {t : Table α} (s : tsorted t = true) (k : Nat) (f : α → α) : tsorted (tmod t k f) = true := by
  rw [tsorted_iff, tmod_keys]; exact (tsorted_iff t).mp s

theorem mem_tins_keys {t : Table α} {k : Nat} {v : α} {j : Nat} (h : j ∈ (tins t k v).map (·.1)) : j = k ∨ j ∈ t.map (·.1) := by
  induction t with
  | nil => simpa [tins] using h
  | cons p t ih => unfold tins at h; split at h <;> simp at h ih ⊢ <;> grind

theorem tsorted_tins {t : Table α} (s : tsorted t = true) {k : Nat} (v : α) (h : tget t k = none) : tsorted (tins t k v) = true := by
  rw [tsorted_iff] at s ⊢
  induction t with
  | nil => simp [tins]
  | cons p t ih =>
    rw [List.map_cons, List.pairwise_cons] at s
    obtain ⟨i, w⟩ := p
    rw [tget_cons] at h
    split at h
    · simp at h
    rename_i hne
    unfold tins; split
    · rename_i hlt
      simp only [List.map_cons, List.pairwise_cons, List.mem_cons, forall_eq_or_imp]
      exact ⟨⟨hlt, fun a ha => hlt.trans (s.1 a ha)⟩, s⟩
    · rename_i hlt
      rw [List.map_cons, List.pairwise_cons]
      refine ⟨fun a ha => ?_, ih s.2 h⟩
      rcases mem_tins_keys ha with rfl | ha
      · omega
      · exact s.1 a ha

theorem tsorted_tput {t : Table α} (s : tsorted t = true) (k : Nat) (v : α) : tsorted (tput t k v) = true := by
  unfold tput; split
  · exact tsorted_tmod s k _
  · exact tsorted_tins s v (by simp_all)

/-- In a table in order a number is listed once. -/
theorem tget_of_mem {t : Table α} (s : tsorted t = true) {p : Nat × α} (h : p ∈ t) : tget t p.1 = some p.2 := by
  rw [tsorted_iff] at s
  induction t with
  | nil => simp at h
  | cons q t ih =>
    rw [List.map_cons, List.pairwise_cons] at s
    rw [tget_cons]
    rcases List.mem_cons.mp h with rfl | h
    · simp
    · have := s.1 p.1 (List.mem_map_of_mem h)
      rw [if_neg (by omega)]
      exact ih s.2 h

theorem tget_tdel_same {t : Table α} (s : tsorted t = true) (k : Nat) : tget (tdel t k) k = none := by
  by_contra h
  obtain ⟨v, hv⟩ := Option.ne_none_iff_exists'.mp h
  have hm := tget_mem hv
  induction t with
  | nil => simp [tdel] at hv
  | cons q t ih =>
    rw [tsorted_iff, List.map_cons, List.pairwise_cons] at s
    unfold tdel at hv
    split at hv
    · rename_i e
      have := s.1 k (List.mem_map_of_mem (f := (·.1)) (tget_mem hv))
      omega
    · rename_i e
      simp only [tget_cons, e, if_false] at hv
      exact ih ((tsorted_iff t).mpr s.2) (by simp [hv]) hv (tget_mem hv)

/-! ### Two tables record by record -/

theorem TableRel.refl {r : α → α → Prop} (h : ∀ a, r a a) (t : Table α) : TableRel r t t := by
  induction t with
  | nil => exact .nil
  | cons p t ih => exact .cons ⟨rfl, h _⟩ ih

theorem TableRel.trans {r : α → α → Prop} (h : ∀ a b c, r a b → r b c → r a c) {t u w : Table α} (x : TableRel r t u)
    (y : TableRel r u w) : TableRel r t w := by
  induction x generalizing w with
  | nil => exact y
  | cons a _ ih =>
    cases y with
    | cons b y => exact .cons ⟨a.1.trans b.1, h _ _ _ a.2 b.2⟩ (ih y)

theorem TableRel.tmod {r : α → α → Prop} (hr : ∀ a, r a a) (t : Table α) (k : Nat) (f : α → α)
    (h : ∀ v, tget t k = some v → r v (f v)) :
    TableRel r t (tmod t k f) := by
  induction t with
  | nil => exact .nil
  | cons p t ih =>
    obtain ⟨i, w⟩ := p
    simp only [tget_cons] at h
    simp only [Machine.tmod]
    split
    · rename_i e; exact .cons ⟨rfl, h _ (by simp [e])⟩ (TableRel.refl hr t)
    · rename_i e; exact .cons ⟨rfl, hr _⟩ (ih (by simpa [e] using h))

theorem TableRel.get {r : α → α → Prop} {t u : Table α} (h : TableRel r t u) {k : Nat} {v : α} (hv : tget t k = some v) :
    ∃ w, tget u k = some w ∧ r v w := by
  induction h with
  | nil => simp at hv
  | cons a _ ih =>
    obtain ⟨e, hr⟩ := a
    simp only [tget] at hv ⊢
    split at hv
    · rename_i hk; cases hv; exact ⟨_, by simp [← e, hk], hr⟩
    · rename_i hk; obtain ⟨w, hw, h'⟩ := ih hv; exact ⟨w, by simp [← e, hk, hw], h'⟩

theorem TableRel.get_none {r : α → α → Prop} {t u : Table α} (h : TableRel r t u) {k : Nat} (hv : tget t k = none) :
    tget u k = none := by
  induction h with
  | nil => rfl
  | cons a _ ih =>
    obtain ⟨e, hr⟩ := a
    simp only [tget] at hv ⊢
    split at hv <;> simp_all

/-! ### The numbers of stands and bays -/

theorem pairNumber_inj {a b c d : Nat} (h : pairNumber a b = pairNumber c d) : a = c ∧ b = d := by
  have row (n m x y : Nat) (l : x ≤ n) (lt : n < m) : n * (n + 1) / 2 + x < m * (m + 1) / 2 + y := by
    have step : n * (n + 1) / 2 + n + 1 ≤ m * (m + 1) / 2 := by
      have e : (n + 1) * (n + 2) / 2 = n * (n + 1) / 2 + n + 1 := by
        rw [show (n + 1) * (n + 2) = n * (n + 1) + 2 * (n + 1) by ring, Nat.add_mul_div_left _ _ (by decide)]; ring
      have : (n + 1) * (n + 2) / 2 ≤ m * (m + 1) / 2 := Nat.div_le_div_right (Nat.mul_le_mul lt (by omega))
      omega
    omega
  unfold pairNumber at h
  rcases Nat.lt_trichotomy (a + b) (c + d) with l | e | l
  · have := row (a + b) (c + d) b d (by omega) l; omega
  · rw [e] at h; omega
  · have := row (c + d) (a + b) d b (by omega) l; omega

/-- Two stand addresses with one number are the same. -/
theorem standKey_inj {x y : StandAddr} (h : standKey x = standKey y) : x = y := by
  obtain ⟨a, b⟩ := x; obtain ⟨c, d⟩ := y
  unfold standKey at h; dsimp only at h
  split at h <;> split at h
  · obtain rfl : a = c := by omega
    obtain rfl : b = d := by omega
    rfl
  · omega
  · omega
  · obtain ⟨rfl, rfl⟩ := pairNumber_inj (by omega : pairNumber a b = pairNumber c d); rfl

/-- Two bay addresses with one number are the same. -/
theorem bayKey_inj {x y : BayAddr} (h : bayKey x = bayKey y) : x = y := by
  obtain ⟨a, b⟩ := x; obtain ⟨c, d⟩ := y
  unfold bayKey at h; dsimp only at h
  split at h <;> split at h
  · obtain rfl : a = c := by omega
    obtain rfl : b = d := by omega
    rfl
  · omega
  · omega
  · obtain ⟨rfl, rfl⟩ := pairNumber_inj (by omega : pairNumber a b = pairNumber c d); rfl

/-! ### The Fault Table -/

theorem FaultsSound.setFault {h : Hall} (s : FaultsSound h.faults) (k : FaultKey) (e : FaultEntry)
    (he : e.active = true → e.latched = true) : FaultsSound (h.setFault k e).faults := by
  unfold Hall.setFault; dsimp only; split
  · exact ⟨tsorted_tdel s.1 _, fun p hp => s.2 p (mem_tdel hp)⟩
  · refine ⟨tsorted_tput s.1 _ _, fun p hp => ?_⟩
    rcases mem_tput hp with h | rfl
    · exact s.2 p h
    · exact ⟨rfl, ‹_›, he⟩

end Sys2Proof.Machine
end

