-- ==== Sys2Proof/Laws/Follows.lean ====
section
/-! SUPPORT. What the consequences of an event can do to the hall (log 4): one lemma for each operation a consequence is made
of, saying that it keeps the ground, only adds to what is sent and noticed, and keeps the hall sound. -/

-- One theorem after another: elaborated all at once they ask for more threads than the check has room for.
set_option Elab.async false

namespace Sys2Proof.Machine

/-- Every call stands at a stand in service. -/
def Hall.CallsServed (h : Hall) : Prop := ∀ p ∈ h.stands, p.2.call.isSome → p.2.inService = true

/-- What `Hall.Trace` says, and that calls stay served: of the two, this one composes. -/
structure Hall.Steps (a b : Hall) : Prop where
  same : b.ground = a.ground
  sent : a.sent <+: b.sent
  notices : a.notices <+: b.notices
  stands : TableRel StandStep a.stands b.stands
  missions : ∀ k m, tget a.missions k = some m → m.kind ≠ .deliver → ∃ n, tget b.missions k = some n ∧ MissionStep m n
  zones : TableRel ZoneStep a.zones b.zones
  aborts : a.CallsServed → b.CallsServed ∧ ∀ v, (b.vehicle v).abort = (a.vehicle v).abort

theorem Hall.Served.calls {h : Hall} (x : h.Served) : h.CallsServed := fun p hp hc => x p hp (.inl hc)

/-- Steps leave what `Hall.Trace` says. -/
theorem Hall.Steps.trace {a b : Hall} (x : a.Steps b) : a.Trace b :=
  ⟨x.same, x.sent, x.notices, x.stands, x.missions, x.zones, fun h => (x.aborts h.calls).2⟩

/-- `b` is `a` after consequences: they leave what `Hall.Trace` says, and soundness is kept. -/
structure Hall.Follows (a b : Hall) : Prop extends Hall.Steps a b where
  sound : ∀ l, a.SoundBut l → b.SoundBut l

/-! ### Steps of records -/

theorem StandStep.refl (s : Stand) : StandStep s s :=
  ⟨fun _ _ => rfl, fun _ h _ => h, fun h => h, .inl rfl, .inl rfl, fun _ => ⟨rfl, rfl, rfl⟩⟩

theorem StandStep.trans {s t u : Stand} (x : StandStep s t) (y : StandStep t u) : StandStep s u where
  arm k h1 := by have e := x.arm k h1; rw [y.arm k (e ▸ h1), e]
  running k h1 h2 := by have e := x.arm k h2; exact y.running k (x.running k h1 h2) (e ▸ h2)
  idle h := y.idle (x.idle h)
  onward := by rcases y.onward with h | h | h <;> rcases x.onward with h' | h' | h' <;> simp_all
  attempts := by
    rcases x.attempts with h | ⟨h, h'⟩
    · rw [← h]; exact y.attempts
    · obtain ⟨h4, _, h6⟩ := y.mode (.inr (.inr h))
      exact .inr ⟨h4.trans h, h6.trans h'⟩
  mode h := by
    obtain ⟨h1, h2, h3⟩ := x.mode h
    obtain ⟨h4, h5, h6⟩ := y.mode (h1 ▸ h)
    exact ⟨h4.trans h1, h5.trans h2, h6.trans h3⟩

theorem ZoneStep.refl (s : Zone) : ZoneStep s s := ⟨.inl rfl⟩

theorem ZoneStep.trans {s t u : Zone} (x : ZoneStep s t) (y : ZoneStep t u) : ZoneStep s u :=
  ⟨by rcases y.hold with h | h <;> rcases x.hold with h' | h' <;> simp_all⟩

theorem MissionStep.refl (m : Mission) : MissionStep m m := ⟨rfl, rfl, rfl, rfl, rfl, rfl, fun _ => rfl⟩

theorem MissionStep.trans {m n o : Mission} (x : MissionStep m n) (y : MissionStep n o) : MissionStep m o where
  kind := y.kind.trans x.kind
  reel := y.reel.trans x.reel
  pickup := y.pickup.trans x.pickup
  deadline := y.deadline.trans x.deadline
  created := y.created.trans x.created
  call := y.call.trans x.call
  drop h := by have e := x.drop h; rw [y.drop (e ▸ h), e]

theorem Hall.Steps.trans {a b c : Hall} (x : a.Steps b) (y : b.Steps c) : a.Steps c where
  same := y.same.trans x.same
  sent := x.sent.trans y.sent
  notices := x.notices.trans y.notices
  stands := x.stands.trans (fun _ _ _ p q => p.trans q) y.stands
  missions k m h hk := by
    obtain ⟨n, h1, h2⟩ := x.missions k m h hk
    obtain ⟨o, h3, h4⟩ := y.missions k n h1 (h2.kind ▸ hk)
    exact ⟨o, h3, h2.trans h4⟩
  zones := x.zones.trans (fun _ _ _ p q => p.trans q) y.zones
  aborts h := by
    obtain ⟨h1, h2⟩ := x.aborts h
    obtain ⟨h3, h4⟩ := y.aborts h1
    exact ⟨h3, fun v => (h4 v).trans (h2 v)⟩

theorem Hall.Steps.foldl {β : Type} {f : Hall → β → Hall} (hf : ∀ h x, Hall.Steps h (f h x)) (l : List β) {a b : Hall}
    (x : a.Steps b) : a.Steps (l.foldl f b) := by
  induction l generalizing b with
  | nil => exact x
  | cons y l ih => exact ih (x.trans (hf b y))

namespace Hall.Follows

variable {a b c : Hall}

theorem refl (a : Hall) : a.Follows a :=
  ⟨⟨rfl, List.prefix_rfl, List.prefix_rfl, .refl .refl _, fun _ m h _ => ⟨m, h, .refl m⟩, .refl .refl _,
    fun h => ⟨h, fun _ => rfl⟩⟩, fun _ => id⟩

theorem trans (x : a.Follows b) (y : b.Follows c) : a.Follows c := ⟨x.toSteps.trans y.toSteps, fun l => y.sound l ∘ x.sound l⟩

/-- A step that changes neither stands, zones, vehicles nor missions, and nothing soundness speaks of. -/
theorem next (x : a.Follows b) (same : c.ground = b.ground) (sent : b.sent <+: c.sent := by exact List.prefix_rfl)
    (notices : b.notices <+: c.notices := by exact List.prefix_rfl)
    (stands : TableRel StandStep b.stands c.stands := by exact TableRel.refl StandStep.refl _)
    (missions : ∀ k m, tget b.missions k = some m → m.kind ≠ .deliver → ∃ n, tget c.missions k = some n ∧ MissionStep m n := by
      exact fun _ m h _ => ⟨m, h, MissionStep.refl m⟩)
    (zones : TableRel ZoneStep b.zones c.zones := by exact TableRel.refl ZoneStep.refl _)
    (aborts : b.CallsServed → c.CallsServed ∧ ∀ v, (c.vehicle v).abort = (b.vehicle v).abort := by
      exact fun h => ⟨h, fun _ => rfl⟩)
    (sound : ∀ l, b.SoundBut l → c.SoundBut l := by
      exact fun _ s => ⟨s.faults, s.notices, s.counts, s.lines, s.ceilings⟩) : a.Follows c :=
  x.trans ⟨⟨same, sent, notices, stands, missions, zones, aborts⟩, sound⟩

/-- The hall of an answered pair. -/
theorem pair {α : Type} {p : Hall × α} {q : α} (x : a.Follows p.1) (e : p = (c, q)) : a.Follows c := by subst e; exact x

/-- A walk of a list by steps. -/
theorem foldl {β : Type} {f : Hall → β → Hall} (hf : ∀ h x, Hall.Follows h (f h x)) (l : List β) (x : a.Follows b) :
    a.Follows (l.foldl f b) := by
  induction l generalizing b with
  | nil => exact x
  | cons y l ih => exact ih (x.trans (hf b y))

/-! ### Updates of the hall -/

theorem push (x : a.Follows b) (j : Job) : a.Follows (b.push j) := by
  unfold Hall.push; split
  · exact x
  · exact x.next rfl

theorem oweSlots (x : a.Follows b) : a.Follows b.oweSlots := by
  unfold Hall.oweSlots; split
  · exact x
  · exact x.next rfl

theorem oweCeiling (x : a.Follows b) (n : Nat) : a.Follows (b.oweCeiling n) := by
  unfold Hall.oweCeiling; split
  · exact x
  · exact x.next rfl (sound := fun o s =>
      ⟨s.faults, s.notices, s.counts, s.lines, fun k l h => (s.ceilings k l h).imp_right (Or.imp_left fun m => List.mem_append_left _ m)⟩)

theorem modVehicle (x : a.Follows b) (v : Nat) (f : Vehicle → Vehicle) (hf : ∀ y, (f y).fixed = y.fixed := by intro; rfl)
    (ha : ∀ y, (f y).abort = y.abort := by intro; rfl) : a.Follows (b.modVehicle v f) :=
  x.next (congrArg (fun l => { b.ground with vehicles := l }) (tview_tmod Vehicle.fixed _ _ _ fun y _ => hf y))
    (aborts := fun h => ⟨h, fun w => by
      unfold Hall.vehicle Hall.modVehicle
      by_cases e : w = v
      · subst e
        simp only [tget_tmod_same]
        cases tget b.vehicles w <;> simp [ha]
      · simp only [tget_tmod_ne _ _ e]⟩)

theorem modMission (x : a.Follows b) (k : Nat) (f : Mission → Mission)
    (hf : ∀ m, tget b.missions k = some m → MissionStep m (f m) := by exact fun _ _ => ⟨rfl, rfl, rfl, rfl, rfl, rfl, fun _ => rfl⟩) :
    a.Follows (b.modMission k f) :=
  x.next rfl (missions := fun j m h _ => by
    by_cases e : j = k
    · subst e; exact ⟨f m, by simp [h], hf m h⟩
    · exact ⟨m, by simp [tget_tmod_ne _ _ e, h], .refl m⟩)

/-- Any change of a mission that was a DELIVER at the start. -/
theorem modDeliver (x : a.Follows b) (k : Nat) (f : Mission → Mission) (hd : ∀ m, tget a.missions k = some m → m.kind = .deliver) :
    a.Follows (b.modMission k f) where
  same := x.same
  sent := x.sent
  notices := x.notices
  stands := x.stands
  missions j m h hk := by
    have e : j ≠ k := fun e => hk (hd m (e ▸ h))
    obtain ⟨n, h1, h2⟩ := x.missions j m h hk
    exact ⟨n, by simp [tget_tmod_ne _ _ e, h1], h2⟩
  zones := x.zones
  aborts := x.aborts
  sound o s := by have s := x.sound o s; exact ⟨s.faults, s.notices, s.counts, s.lines, s.ceilings⟩

/-- The removal of a mission that was a DELIVER at the start. -/
theorem dropDeliver (x : a.Follows b) (k : Nat) (hd : ∀ m, tget a.missions k = some m → m.kind = .deliver) :
    a.Follows { b with missions := tdel b.missions k } where
  same := x.same
  sent := x.sent
  notices := x.notices
  stands := x.stands
  missions j m h hk := by
    have e : j ≠ k := fun e => hk (hd m (e ▸ h))
    obtain ⟨n, h1, h2⟩ := x.missions j m h hk
    exact ⟨n, by simp [tget_tdel_ne _ e, h1], h2⟩
  zones := x.zones
  aborts := x.aborts
  sound o s := by have s := x.sound o s; exact ⟨s.faults, s.notices, s.counts, s.lines, s.ceilings⟩

theorem modStand (x : a.Follows b) (st : StandAddr) (f : Stand → Stand)
    (hf : ∀ s, tget b.stands (standKey st) = some s → StandStep s (f s) := by
      exact fun _ _ => ⟨fun k _ => by cases k <;> rfl, fun _ h _ => h, fun h => h, .inl rfl, .inl rfl, fun _ => ⟨rfl, rfl, rfl⟩⟩)
    (hg : ∀ s, (f s).fixed = s.fixed := by intro; rfl)
    (hc : ∀ s, tget b.stands (standKey st) = some s → (f s).call.isSome = true → s.call.isSome = true ∨ s.inService = true := by
      intro s _ h; first | exact .inl h | (simp at h; done) | exact .inl (by simpa using h)) : a.Follows (b.modStand st f) :=
  x.next (congrArg (fun l => { b.ground with stands := l }) (tview_tmod Stand.fixed _ _ _ fun y _ => hg y))
    (stands := by simpa using TableRel.tmod StandStep.refl _ _ _ hf)
    (aborts := fun h => ⟨fun p hp hs => by
      rcases mem_tmod hp with hp | ⟨s, hm, hk, rfl⟩
      · exact h p hp hs
      · have e : (f s).inService = s.inService := by have e := congrArg Stand.inService (hg s); exact e
        rcases hc s hk hs with h1 | h1
        · exact e.trans (h _ hm h1)
        · exact e.trans h1, fun _ => rfl⟩)

theorem modZone (x : a.Follows b) (z : Nat) (f : Zone → Zone) (hf : ∀ y, (f y).fixed = y.fixed := by intro; rfl)
    (hs : ∀ y, ZoneStep y (f y) := by exact fun _ => ⟨.inl rfl⟩) : a.Follows (b.modZone z f) :=
  x.next (congrArg (fun l => { b.ground with zones := l }) (tview_tmod Zone.fixed _ _ _ fun y _ => hf y))
    (zones := by simpa using TableRel.tmod ZoneStep.refl _ _ _ fun y _ => hs y)

theorem modBay (x : a.Follows b) (k : BayAddr) (f : Bay → Bay) (hf : ∀ y, (f y).fixed = y.fixed := by intro; rfl) :
    a.Follows (b.modBay k f) := x.next (congrArg (fun l => { b.ground with bays := l }) (tview_tmod Bay.fixed _ _ _ fun y _ => hf y))

theorem modLine (x : a.Follows b) (n : Nat) (f : Line → Line) (hf : ∀ l, (f l).fixed = l.fixed := by intro; rfl)
    (hc : ∀ l, (f l).ceiling = l.ceiling := by intro; rfl) : a.Follows (b.modLine n f) := by
  have h1 : ∀ l, (f l).cfg = l.cfg := fun l => by have e := congrArg Line.cfg (hf l); exact e
  have h2 : ∀ l, (f l).hostCeiling = l.hostCeiling := fun l => by have e := congrArg Line.hostCeiling (hf l); exact e
  refine x.next (congrArg (fun l => { b.ground with lines := l }) (tview_tmod Line.fixed _ _ _ fun y _ => hf y)) (sound := fun o s => ?_)
  refine ⟨s.faults, s.notices, s.counts, fun p hp => ?_, fun k l hl => ?_⟩
  · rcases mem_tmod hp with hp | ⟨l, hl, _, rfl⟩
    · exact s.lines p hp
    · have := s.lines _ hl
      exact ⟨by simpa [h1] using this.cfg, by simpa [hc] using this.step, by simpa [h2] using this.host, by simpa [h1, h2] using this.low,
        by simpa [h1, h2] using this.high⟩
  · simp only [Hall.modLine_lines, tget_tmod] at hl
    split at hl
    · obtain ⟨l', hl', rfl⟩ := Option.map_eq_some_iff.mp hl
      refine (s.ceilings k l' hl').imp_left fun t => ?_
      exact ⟨by simpa [hc, h1] using t.low, by simpa [hc, Line.top, h1, h2] using t.high⟩
    · exact s.ceilings k l hl

theorem notify (x : a.Follows b) (n : Notice) : a.Follows (b.notify n) := by
  unfold Hall.notify; split
  · exact x.next rfl (notices := List.prefix_append ..) (sound := fun o s =>
      ⟨s.faults, by simp only [List.length_append, List.length_singleton]; omega, s.counts, s.lines, s.ceilings⟩)
  · exact x.next rfl

theorem sendLine (x : a.Follows b) (n : Nat) (m : LineMsg) : a.Follows (b.sendLine n m) :=
  x.next (congrArg (fun l => { b.ground with links := l })
      (tview_tmod LinkRec.fixed b.links n (fun r => { r with txSeq := r.txSeq + 1 }) fun _ _ => rfl))
    (sent := List.prefix_append ..)

theorem sendDirective (x : a.Follows b) (v : Nat) (d : Directive) : a.Follows (b.sendDirective v d) :=
  x.next (congrArg (fun l => { b.ground with links := l })
      (tview_tmod LinkRec.fixed b.links 5 (fun r => { r with txSeq := r.txSeq + 1 }) fun _ _ => rfl))
    (sent := List.prefix_append ..)

/-! ### Directives and stops -/

theorem issue (x : a.Follows b) (v : Nat) (k : DirKind) : a.Follows (b.issue v k) := (x.modVehicle v _).sendDirective v _

theorem stopVehicle (x : a.Follows b) (v : Nat) (k : Kept) : a.Follows (b.stopVehicle v k) := (x.modVehicle v _).issue v _

theorem direct (x : a.Follows b) (v : Nat) (k : DirKind) : a.Follows (b.direct v k) := by
  unfold Hall.direct; dsimp only; split
  · split
    · exact x.modVehicle v _
    · exact x.stopVehicle v _
  · exact x.issue v k

theorem setActivity (x : a.Follows b) (v : Nat) (k : Activity) : a.Follows (b.setActivity v k) :=
  x.modVehicle v _ (fun y => by split <;> [rfl; (split <;> rfl)]) fun y => by split <;> [rfl; (split <;> rfl)]

theorem refreshMove (x : a.Follows b) (v : Nat) : a.Follows (b.refreshMove v) := by
  unfold Hall.refreshMove; split
  · dsimp only; split
    · exact x
    · exact x.issue v _
  · exact x

/-! ### The Fault Table -/

theorem num_div (k : FaultKey) : k.num / 1024 = faultCode k.kind := by unfold FaultKey.num; omega

theorem cascade_of {k : FaultKey} (h : [3, 4, 5, 6, 15, 20, 21].contains (faultCode k.kind) = true) : cascadeEntry k.num = true := by
  rw [cascadeEntry, num_div]; exact h

theorem setFault (x : a.Follows b) (k : FaultKey) (e : FaultEntry) (hk : cascadeEntry k.num = true)
    (he : e.active = true → e.latched = true) : a.Follows (b.setFault k e) := by
  refine x.next ?_ (sound := fun o s => ⟨s.faults.setFault k e he, s.notices, s.counts, s.lines, s.ceilings⟩)
  unfold Hall.setFault
  split
  · simp [Hall.ground, filter_tdel (fun n => !cascadeEntry n) b.faults k.num (by simp [hk])]
  · simp [Hall.ground, filter_tput (fun n => !cascadeEntry n) b.faults k.num (k, e) (by simp [hk])]

theorem sendHold (x : a.Follows b) (n : Nat) : a.Follows (b.sendHold n) := by
  unfold Hall.sendHold; split <;> exact x.sendLine n _

theorem resendHold (x : a.Follows b) (n : Nat) : a.Follows (b.resendHold n) := by
  unfold Hall.resendHold; split
  · exact (x.sendHold n).notify _
  · exact x.sendHold n

theorem evalHold (x : a.Follows b) (n : Nat) : a.Follows (b.evalHold n) := by
  unfold Hall.evalHold; dsimp only; split
  · exact x
  · refine Follows.notify (Follows.sendHold ?_ n) _
    exact x.next rfl

theorem evalSubject (x : a.Follows b) (s : Subject) : a.Follows (b.evalSubject s) := by
  unfold Hall.evalSubject; split
  · exact x.evalHold _
  · exact x

theorem changeFault (x : a.Follows b) (k : FaultKey) (c : FaultChange) (e : FaultEntry) (hk : cascadeEntry k.num = true)
    (he : e.active = true → e.latched = true) : a.Follows (b.changeFault k c e) :=
  ((x.setFault k e hk he).notify _).evalSubject _

theorem raise (x : a.Follows b) (k : FaultKey) (hk : [3, 4, 5, 6, 15, 20, 21].contains (faultCode k.kind) = true) :
    a.Follows (b.raise k) := by
  unfold Hall.raise; split
  · exact x
  · have hs : stopsFleet k.kind = false := by revert hk; cases k.kind <;> decide
    simp only [hs]
    exact x.changeFault _ _ _ (cascade_of hk) fun _ => rfl

theorem lower (x : a.Follows b) (k : FaultKey) (hk : [3, 4, 5, 6, 15, 20, 21].contains (faultCode k.kind) = true) :
    a.Follows (b.lower k) := by
  unfold Hall.lower; split
  · exact x.changeFault _ _ _ (cascade_of hk) fun h => by simp at h
  · exact x

theorem pulse (x : a.Follows b) (k : FaultKey) (hk : [3, 4, 5, 6, 15, 20, 21].contains (faultCode k.kind) = true) :
    a.Follows (b.pulse k) := x.changeFault _ _ _ (cascade_of hk) fun _ => rfl

theorem setActive (x : a.Follows b) (k : FaultKey) (v : Bool)
    (hk : [3, 4, 5, 6, 15, 20, 21].contains (faultCode k.kind) = true) : a.Follows (b.setActive k v) := by
  unfold Hall.setActive; split
  · exact x.raise k hk
  · exact x.lower k hk

end Hall.Follows

end Sys2Proof.Machine
end

