-- ==== Sys2Proof/Laws/FollowsFleet.lean ====
section
/-! SUPPORT. The register's, the Bay Map's and Traffic Control's part of the consequences of an event. -/

-- One theorem after another: elaborated all at once they ask for more threads than the check has room for.
set_option Elab.async false

namespace Sys2Proof.Machine

/-! ### What a custody request leaves of the mission table -/

section
variable (h : Hall)

@[simp] theorem Hall.sendHold_missions (n : Nat) : (h.sendHold n).missions = h.missions := by unfold Hall.sendHold; split <;> rfl

@[simp] theorem Hall.evalHold_missions (n : Nat) : (h.evalHold n).missions = h.missions := by
  unfold Hall.evalHold; dsimp only; split <;> simp

@[simp] theorem Hall.changeFault_missions (k : FaultKey) (c : FaultChange) (e : FaultEntry) :
    (h.changeFault k c e).missions = h.missions := by
  unfold Hall.changeFault Hall.evalSubject; split <;> simp [Hall.setFault]

@[simp] theorem Hall.lower_missions (k : FaultKey) : (h.lower k).missions = h.missions := by unfold Hall.lower; split <;> simp

@[simp] theorem Hall.haltVehicle_missions (v : Nat) : (h.haltVehicle v).missions = h.missions := by
  unfold Hall.haltVehicle; dsimp only; split
  · simp [Hall.stopVehicle, Hall.issue]
  · rfl

@[simp] theorem Hall.haltFleet_missions : h.haltFleet.missions = h.missions := by
  unfold Hall.haltFleet; split
  · rfl
  · have e : ∀ (l : List Nat) (g : Hall), (l.foldl Hall.haltVehicle g).missions = g.missions := fun l => by
      induction l with
      | nil => exact fun _ => rfl
      | cons v l ih => exact fun g => (ih _).trans (g.haltVehicle_missions v)
    exact e _ _

@[simp] theorem Hall.raise_missions (k : FaultKey) : (h.raise k).missions = h.missions := by
  unfold Hall.raise; dsimp only; split
  · rfl
  · split <;> simp

@[simp] theorem Hall.setActive_missions (k : FaultKey) (v : Bool) : (h.setActive k v).missions = h.missions := by
  unfold Hall.setActive; split <;> simp

@[simp] theorem Hall.stockWatch_missions (g : Nat) : (h.stockWatch g).missions = h.missions := by
  unfold Hall.stockWatch; dsimp only
  split
  · rfl
  · split
    · rfl
    · split <;> simp

@[simp] theorem Hall.putReel_missions (i : Nat) (r : Reel) : (h.putReel i r).missions = h.missions := by
  unfold Hall.putReel; dsimp only; split <;> simp

@[simp] theorem Hall.releaseReel_missions (m : Mission) (k : Block) : (h.releaseReel m k).missions = h.missions := by
  unfold Hall.releaseReel; split
  · split
    · unfold Hall.askRelease Hall.askCustody; dsimp only
      split
      · split
        · simp only [if_true]
          split <;> (simp only [Hall.retryIfStored]; split) <;> simp
        · simp [Hall.refuseCustody, Hall.pulse]
      · simp [Hall.refuseCustody, Hall.pulse]
    · rfl
  · rfl

end

namespace Hall.Follows

variable {a b c : Hall}

/-! ### Reels -/

theorem stockWatch (x : a.Follows b) (g : Nat) : a.Follows (b.stockWatch g) := by
  unfold Hall.stockWatch; dsimp only
  split
  · exact x
  · split
    · exact x
    · split
      · exact x.next rfl
      · refine (Follows.notify ?_ _).setActive _ _ rfl
        exact x.next rfl

theorem putReel (x : a.Follows b) {i : Nat} {r : Reel} (r' : Reel) (hr : tget b.reels i = some r) (hf : r'.fixed = r.fixed) :
    a.Follows (b.putReel i r') := by
  have hx : a.Follows { b with reels := tput b.reels i r' } :=
    x.next (congrArg (fun l => { b.ground with reels := l }) (tview_tput Reel.fixed _ _ _ _ hr hf))
  unfold Hall.putReel; dsimp only; split
  · exact hx
  · exact hx.stockWatch _

theorem retryIfStored (x : a.Follows b) (r r' : Reel) : a.Follows (b.retryIfStored r r') := by
  unfold Hall.retryIfStored; split
  · exact x.push _
  · exact x

theorem handBack (x : a.Follows b) (r : Reel) : a.Follows (b.handBack r) := by
  unfold Hall.handBack; split
  · exact x.push _
  · exact x

theorem refuseCustody (x : a.Follows b) (ref : ReelRef) (c : Custody) (k : Block) : a.Follows (b.refuseCustody ref c k) :=
  (x.pulse _ rfl).notify _

/-- A custody request follows when what it makes does. -/
theorem askCustody (x : a.Follows b) (ref : ReelRef) (c : Custody) (k : Block) (ok : Reel → Bool) (make : Reel → Hall → Hall)
    (m : Reel → Nat) (hm : ∀ r, b.reel ref = some r → ok r = true → a.Follows (make r b)) :
    a.Follows (b.askCustody ref c k ok make m).1 := by
  unfold Hall.askCustody; split
  · split
    · exact hm _ ‹_› ‹_›
    · exact x.refuseCustody _ _ _
  · exact x.refuseCustody _ _ _

theorem reel_get {h : Hall} {ref : ReelRef} {r : Reel} (hr : h.reel ref = some r) : tget h.reels ref.index = some r :=
  (Option.filter_eq_some_iff.mp hr).1

theorem fixed_free (r : Reel) (h : r.state = .allocated) : ({ r with state := .stored, call := none } : Reel).fixed = r.fixed := by
  simp [Reel.fixed, h]

theorem fixed_call (r : Reel) (c : Option StandAddr) : ({ r with call := c } : Reel).fixed = r.fixed := rfl

theorem askRelease (x : a.Follows b) (st : StandAddr) (ref : ReelRef) (k : Block) (t : Bool) :
    a.Follows (b.askRelease st ref k t).1 := by
  refine x.askCustody _ _ _ _ _ _ fun r hr _ => ?_
  dsimp only
  have hf : (if r.state = .allocated then { r with state := .stored, call := none } else { r with call := none } : Reel).fixed =
      r.fixed := by
    split
    · exact fixed_free r ‹_›
    · rfl
  have h1 := x.putReel _ (reel_get hr) hf
  split
  · exact h1.retryIfStored _ _
  · exact h1

/-! ### Bays and mission slots -/

theorem bayMayBeFree (x : a.Follows b) (k : BayAddr) : a.Follows (b.bayMayBeFree k) := by
  unfold Hall.bayMayBeFree; split
  · split
    · exact x.push _
    · exact x
  · exact x

theorem reserve (x : a.Follows b) (slot : Nat) (k : Option BayAddr) : a.Follows (b.reserve slot k) := by
  unfold Hall.reserve; split
  · exact x.modBay _ _
  · exact x

theorem dropReservation (x : a.Follows b) (slot : Nat) : a.Follows (b.dropReservation slot) := by
  unfold Hall.dropReservation; split
  · exact (x.modBay _ _).push _
  · exact x

theorem watchBays (x : a.Follows b) : a.Follows b.watchBays := x.setActive _ _ rfl

theorem walkOne (x : a.Follows b) (slot : Nat) : a.Follows (b.walkOne slot) := by
  unfold Hall.walkOne; split
  · rename_i m hm
    split
    · rename_i hw
      split
      · refine ((x.modMission slot _ fun n hn => ?_).reserve _ _).push _
        have e : some m = some n := hm.symm.trans hn
        cases e
        refine ⟨rfl, rfl, rfl, rfl, rfl, rfl, fun hd => ?_⟩
        unfold Mission.waitsForBay at hw
        simp only [Bool.and_eq_true, Option.isNone_iff_eq_none] at hw
        simp [hw.2] at hd
      · exact x
    · exact x
  · exact x

theorem walkBays (x : a.Follows b) : a.Follows b.walkBays := (x.foldl (fun h s => Follows.walkOne (refl h) s) _).watchBays

theorem enterMission (x : a.Follows b) {slot : Nat} (m : Mission) (hs : tget b.missions slot = none) :
    a.Follows (b.enterMission slot m) := by
  have h1 : a.Follows { b with missions := tput b.missions slot m } := x.next rfl (missions := fun k n h _ =>
    ⟨n, by
      have e : k ≠ slot := fun e => by rw [e, hs] at h; cases h
      simp [tget_tput_ne _ _ e, h], .refl n⟩)
  unfold Hall.enterMission; dsimp only; split
  · exact h1.watchBays.push _
  · exact h1.watchBays

theorem createMission (x : a.Follows b) (m : Mission) : a.Follows (b.createMission m).1 := by
  unfold Hall.createMission; split
  · split
    · exact x
    · exact x.enterMission _ (lowestFree_none ‹_›)
  · exact x

theorem createWithBay (x : a.Follows b) (m : Mission) (k : Option BayAddr) : a.Follows (b.createWithBay m k).1 := by
  have h1 := x.createMission { m with drop := k.map .bay }
  unfold Hall.createWithBay; split <;> (rename_i e; rw [e] at h1)
  · exact h1.reserve _ _
  · exact h1

theorem makeIntake (x : a.Follows b) (ref : ReelRef) : a.Follows (b.makeIntake ref).1 := by
  unfold Hall.makeIntake; split
  · split
    · exact x.createWithBay _ _
    · exact x
  · exact x

theorem contentOfReturn (x : a.Follows b) (slot : Nat) (q : Bool) (hd : ∀ m, tget a.missions slot = some m → m.kind = .deliver) :
    a.Follows (b.contentOfReturn slot q) := by
  unfold Hall.contentOfReturn; split
  · split
    · dsimp only; split
      · exact x.modDeliver _ _ hd
      · exact (((x.dropReservation _).modDeliver _ _ hd).reserve _ _).watchBays
    · exact x
  · exact x

/-! ### Zones -/

theorem unwait (x : a.Follows b) (v : Nat) : a.Follows (b.unwait v) := by
  unfold Hall.unwait; split
  · exact x.modZone _ _
  · exact x

theorem grant (x : a.Follows b) (v z : Nat) : a.Follows (b.grant v z) :=
  (((x.unwait v).modZone z _ (hs := fun _ => ⟨.inr rfl⟩)).modVehicle v _).refreshMove v

theorem arbitrate (x : a.Follows b) (z : Nat) (l : List Nat) : a.Follows (b.arbitrate z l) := by
  induction l generalizing b with
  | nil => exact x
  | cons v l ih =>
    unfold Hall.arbitrate; split
    · exact ih (x.unwait v)
    · split
      · exact x.grant v z
      · exact ih x

theorem runZone (x : a.Follows b) (z : Nat) : a.Follows (b.runZone z) := by
  unfold Hall.runZone; split
  · split
    · exact x.arbitrate z _
    · exact x
  · exact x

theorem admissionWalk (x : a.Follows b) : a.Follows b.admissionWalk :=
  x.foldl (fun h z => by
    split
    · exact (refl h).runZone z
    · exact refl h) _

theorem resumeWalk (x : a.Follows b) : a.Follows b.resumeWalk :=
  x.foldl (fun h z => by
    split
    · exact (refl h).runZone z
    · exact refl h) _

theorem dropHolder (x : a.Follows b) (z : Nat) : a.Follows (b.dropHolder z) := by
  have h1 := x.modZone z fun y => { y with holder := none }
  unfold Hall.dropHolder; dsimp only; split
  · exact h1.push _
  · exact h1

theorem afterFall (x : a.Follows b) (w : Bool) (v : Nat) (l : Bool) : a.Follows (b.afterFall w v l) := by
  unfold Hall.afterFall; split
  · exact x.admissionWalk
  · exact x

theorem releaseZone (x : a.Follows b) (v z : Nat) : a.Follows (b.releaseZone v z) := ((x.dropHolder z).runZone z).afterFall _ _ _

theorem endHold (x : a.Follows b) (z : Nat) : a.Follows (b.endHold z) :=
  ((x.modZone z _ (hs := fun _ => ⟨.inr rfl⟩)).push _).runZone z

theorem releaseHold (x : a.Follows b) (v : Nat) : a.Follows (b.releaseHold v) := by
  unfold Hall.releaseHold; split
  · exact x.endHold _
  · exact x

theorem withdraw (x : a.Follows b) (v : Nat) : a.Follows (b.withdraw v) :=
  ((x.unwait v).modVehicle v _).foldl (fun h z => (refl h).releaseZone v z) _

theorem clearLostZones (x : a.Follows b) (v : Nat) : a.Follows (b.clearLostZones v) :=
  ((((x.unwait v).modVehicle v _).foldl (fun h z => (refl h).dropHolder z) _).foldl (fun h z => (refl h).runZone z) _).afterFall _ _ _

theorem join (x : a.Follows b) (v z : Nat) : a.Follows (b.join v z).1 := by
  unfold Hall.join; split
  · split
    · exact x
    · split
      · exact (x.unwait v).modZone z _
      · exact x
  · exact x

theorem requestZone (x : a.Follows b) (v z : Nat) : a.Follows (b.requestZone v z) := by
  unfold Hall.requestZone; split
  · exact x
  · have hj := x.join v z
    repeat' split
    all_goals first
      | exact x
      | exact hj
      | exact x.grant v z
      | (rename_i e; rw [e] at hj; exact hj.runZone z)
      | (rename_i e; rw [e] at hj; exact hj)

end Hall.Follows

end Sys2Proof.Machine
end

