-- ==== Sys2Proof/Laws/FollowsFeed.lean ====
section
/-! SUPPORT. The Feed Planner's and the Fleet Controller's part of the consequences of an event, and the end of an event. -/

-- One theorem after another: elaborated all at once they ask for more threads than the check has room for.
set_option Elab.async false

namespace Sys2Proof.Machine

/-! ### Steps of stands -/

theorem Stand.arm_modArm (s : Stand) (k j : ArmName) (f : Arm → Arm) : (s.modArm k f).arm j = if j = k then f (s.arm j) else s.arm j := by
  cases k <;> cases j <;> rfl

/-- A change of one arm that is LOADING. -/
theorem StandStep.modArm (s : Stand) (k : ArmName) (f : Arm → Arm) (h : (s.arm k).state = .loading) : StandStep s (s.modArm k f) where
  arm j h1 := by
    rw [Stand.arm_modArm]; split
    · rename_i e; subst e; simp_all
    · rfl
  running _ h1 _ := by cases k <;> exact h1
  onward := by cases k <;> exact .inl rfl
  attempts := by cases k <;> exact .inl rfl
  idle h1 := by cases k <;> exact h1
  mode _ := by cases k <;> exact ⟨rfl, rfl, rfl⟩

theorem Stand.fixed_modArm (s : Stand) (k : ArmName) (f : Arm → Arm) (h : ∀ x, (f x).fixed = x.fixed) :
    (s.modArm k f).fixed = s.fixed := by
  cases k <;> simp [Stand.fixed, Stand.modArm, h]

/-- The running arm goes only when it is the arm that is LOADING. -/
theorem StandStep.dropRunning (s : Stand) (k : ArmName) (h : (s.arm k).state = .loading) :
    StandStep s { s with running := s.running.filter (· ≠ k) } where
  onward := .inl rfl
  attempts := .inl rfl
  arm j _ := by cases j <;> rfl
  running j h1 h2 := by
    have e : j ≠ k := fun e => by subst e; simp_all
    simp [h1, Option.filter, e]
  idle h1 := by simp [h1]
  mode _ := ⟨rfl, rfl, rfl⟩

section
variable (h : Hall)

@[simp] theorem Hall.sendHold_stands (n : Nat) : (h.sendHold n).stands = h.stands := by unfold Hall.sendHold; split <;> rfl

@[simp] theorem Hall.evalHold_stands (n : Nat) : (h.evalHold n).stands = h.stands := by
  unfold Hall.evalHold; dsimp only; split <;> simp

@[simp] theorem Hall.changeFault_stands (k : FaultKey) (c : FaultChange) (e : FaultEntry) :
    (h.changeFault k c e).stands = h.stands := by
  unfold Hall.changeFault Hall.evalSubject; split <;> simp [Hall.setFault]

@[simp] theorem Hall.lower_stands (k : FaultKey) : (h.lower k).stands = h.stands := by unfold Hall.lower; split <;> simp

end

namespace Hall.Follows

variable {a b c : Hall}

/-! ### Arms and the preparation list -/

theorem sendPanel (x : a.Follows b) (n : Nat) : a.Follows (b.sendPanel n) := by
  unfold Hall.sendPanel; split
  · exact x.sendLine _ _
  · exact x

theorem requestPrep (x : a.Follows b) (st : StandAddr) (k : ArmName) (d : Nat) : a.Follows (b.requestPrep st k d) := by
  unfold Hall.requestPrep; split
  · split
    · exact x
    · split
      · have h1 := x.modLine st.line fun l => l.retarget st k
        dsimp only; split
        · exact h1.sendPanel _
        · exact h1
      · exact (x.modLine _ _ (fun l => by split <;> rfl) (fun l => by split <;> rfl)).sendPanel _
  · exact x

theorem endPrep (x : a.Follows b) (st : StandAddr) : a.Follows (b.endPrep st) := by
  unfold Hall.endPrep; split
  · split
    · exact x
    · exact (x.modLine _ _ (fun l => by split <;> rfl) (fun l => by split <;> rfl)).sendPanel _
  · exact x

theorem easeOverdue (x : a.Follows b) (st : StandAddr) : a.Follows (b.easeOverdue st) := by
  unfold Hall.easeOverdue; split
  · exact x
  · exact x.lower _ rfl

theorem testOverdue (x : a.Follows b) (st : StandAddr) : a.Follows (b.testOverdue st) := x.setActive _ _ rfl

theorem changeArm (x : a.Follows b) (st : StandAddr) (k : ArmName) (f : Arm → Arm)
    (hs : ∀ s, tget b.stands (standKey st) = some s → (s.arm k).state = .loading)
    (hf : ∀ y, (f y).fixed = y.fixed := by intro; rfl) : a.Follows (b.changeArm st k f) :=
  ((x.modStand st _ (fun s h => StandStep.modArm s k f (hs s h)) (fun s => s.fixed_modArm k f hf)
    fun s _ h => .inl (by cases k <;> exact h)).easeOverdue st).oweCeiling _

theorem emptyArm (x : a.Follows b) (st : StandAddr) (k : ArmName)
    (hs : ∀ s, tget b.stands (standKey st) = some s → (s.arm k).state = .loading) :
    a.Follows (b.emptyArm st k) := by
  have h1 := x.modStand st (fun s => { s with running := s.running.filter (· ≠ k) }) fun s h => StandStep.dropRunning s k (hs s h)
  have h2 := (h1.changeArm st k (fun y => { y with state := .empty, reel := none, beforeUnload := none }) fun s h => by
    simp only [Hall.modStand_stands, tget_tmod_same, Option.map_eq_some_iff] at h
    obtain ⟨s', h', rfl⟩ := h
    cases k <;> exact hs s' h').push (.callTest st)
  unfold Hall.emptyArm; dsimp only; split
  · exact h2.push _
  · exact h2

theorem setMode (x : a.Follows b) (st : StandAddr) (m : Mode) (hm : m = .starved ∨ m = .splicing)
    (hs : ∀ s, tget b.stands (standKey st) = some s → ¬(s.mode = .unknown ∨ s.mode = .outOfService ∨ s.mode = .splicing)) :
    a.Follows (b.setMode st m) := by
  have h1 := (x.modStand st (fun s => { s with mode := m }) fun s h =>
    ⟨fun k _ => by cases k <;> rfl, fun _ h _ => h, fun h => h, .inr (by rcases hm with h | h <;> simp [h]), .inl rfl,
      fun hm => absurd hm (hs s h)⟩).oweCeiling st.line
  unfold Hall.setMode; dsimp only
  split <;> split
  · exact (h1.push _).push _
  · exact h1.push _
  · exact h1.push _
  · exact h1

theorem modHandover (x : a.Follows b) (st : StandAddr) (f : Handover → Handover) : a.Follows (b.modHandover st f) :=
  (x.modStand st _).oweCeiling _

theorem closeHandover (x : a.Follows b) (st : StandAddr) : a.Follows (b.closeHandover st) := by
  unfold Hall.closeHandover; split
  · rename_i y hy
    have h1 := (x.modStand st fun s => { s with handover := none }).oweCeiling st.line
    refine Follows.push ?_ _
    have h2 : a.Follows (if ((b.modStand st fun s => { s with handover := none }).oweCeiling st.line).stand st |>.any
        fun s => decide ((s.arm y.arm).state = .loading) then
          ((b.modStand st fun s => { s with handover := none }).oweCeiling st.line).emptyArm st y.arm
        else (b.modStand st fun s => { s with handover := none }).oweCeiling st.line) := by
      split
      · rename_i hl
        refine h1.emptyArm st _ fun s h => ?_
        unfold Hall.stand at hl
        rw [h] at hl
        simpa using hl
      · exact h1
    split
    · exact h2.push _
    · exact h2
  · exact x

/-! ### Missions -/

theorem oweCall (x : a.Follows b) (st : Option StandAddr) : a.Follows (b.oweCall st) := by
  unfold Hall.oweCall; split
  · exact x.oweCeiling _
  · exact x

theorem travel (x : a.Follows b) (slot v : Nat) (d : Option Nat) (k : Activity) : a.Follows (b.travel slot v d k) := by
  unfold Hall.travel; split <;> exact ((x.modMission slot _).setActivity v k).direct v _

theorem carry (x : a.Follows b) (slot : Nat) : a.Follows (b.carry slot) := by
  unfold Hall.carry; split
  · split
    · exact ((x.modMission slot _).oweCall _).travel _ _ _ _
    · exact x
  · exact x

theorem arrivePickup (x : a.Follows b) (slot v : Nat) (m : Mission) : a.Follows (b.arrivePickup slot v m) := by
  unfold Hall.arrivePickup; split
  · exact (((x.modMission slot _).setActivity v _).direct v _).push _
  · exact (x.setActivity v _).direct v _
  · exact x

theorem assign (x : a.Follows b) (slot v : Nat) : a.Follows (b.assign slot v) := by
  unfold Hall.assign; split
  · extract_lets g1 g2 z g3
    have h1 : a.Follows g1 := (x.modMission slot _).modVehicle v _
    have h2 : a.Follows g2 := by
      unfold g2; split
      · exact (h1.modStand _ _).oweCeiling _
      · exact h1
    have h3 : a.Follows g3 := h2.travel _ _ _ _
    split
    · exact h2.carry slot
    · split
      · exact h3.arrivePickup _ _ _
      · exact h3
  · exact x

theorem arbiterOne (x : a.Follows b) (slot : Nat) : a.Follows (b.arbiterOne slot) := by
  unfold Hall.arbiterOne; split
  · split
    · split
      · exact x.assign _ _
      · exact x
    · exact x
  · exact x

theorem runArbiter (x : a.Follows b) : a.Follows b.runArbiter := by
  unfold Hall.runArbiter; split
  · exact x
  · exact x.foldl (fun h s => (refl h).arbiterOne s) _

theorem chargeNeed (x : a.Follows b) (v : Nat) : a.Follows (b.chargeNeed v) := by
  unfold Hall.chargeNeed; split
  · split
    · rename_i n _
      have h1 := x.createMission (chargeMission v n b.clock)
      split <;> (rename_i e; rw [e] at h1)
      · exact (h1.modVehicle v _).carry _
      · exact h1
    · exact x
  · exact x

theorem serveChargers (x : a.Follows b) : a.Follows b.serveChargers := x.foldl (fun h v => (refl h).chargeNeed v) _

/-- A mission that is a DELIVER now was one at the start, if it was there. -/
theorem was_deliver (x : a.Follows b) {slot : Nat} (hb : ∀ m, tget b.missions slot = some m → m.kind = .deliver) :
    ∀ m, tget a.missions slot = some m → m.kind = .deliver := fun m h => by
  by_contra hc
  obtain ⟨n, h1, h2⟩ := x.missions slot m h hc
  exact hc (h2.kind ▸ hb n h1)

theorem endMission (x : a.Follows b) (slot : Nat) (o : MissionOutcome) (hb : ∀ m, tget b.missions slot = some m → m.kind = .deliver) :
    a.Follows (b.endMission slot o) := by
  unfold Hall.endMission; split
  · rename_i m hm
    have h1 := (x.dropDeliver slot (x.was_deliver hb)).notify (.missionEnd slot m.kind m.reel m.vehicle o)
    extract_lets g1 g2 g3 g4 g5 g6
    have h3 : a.Follows g3 := by
      unfold g3; split
      · exact h1.modVehicle _ _
      · exact h1
    have h4 : a.Follows g4 := (h3.dropReservation slot).watchBays.oweSlots
    have h5 : a.Follows g5 := by
      unfold g5; split
      · exact h4.closeHandover _
      · exact h4
    have h6 : a.Follows g6 := by
      have hk : m.kind = .deliver := hb m hm
      unfold g6; rw [hk]; exact h5
    split
    · exact (h6.push _).oweCeiling _
    · exact h6
  · exact x

theorem chargeTest (x : a.Follows b) (v : Nat) : a.Follows (b.chargeTest v) := by
  unfold Hall.chargeTest; dsimp only; split
  · exact x.releaseHold v
  · split
    · exact x.push _
    · exact x

theorem afterEnd (x : a.Follows b) (v : Nat) (k : MissionKind) (y : Activity) : a.Follows (b.afterEnd v k y) := by
  unfold Hall.afterEnd; dsimp only
  refine Follows.push ?_ _
  split
  · exact x.setActivity v y
  · exact (x.setActivity v y).chargeTest v

/-- An abort record is a consequence only of a call at a stand out of service. -/
theorem abort (x : a.Follows b) (v : Nat) (k : AbortCause) (hs : ¬ a.CallsServed) : a.Follows (b.abort v k) := by
  unfold Hall.abort; extract_lets; split
  · exact x
  · have h1 : ∀ record, a.Follows (b.modVehicle v fun x => { x with abort := some record }) := fun record => by
      refine ⟨⟨?_, x.sent, x.notices, x.stands, x.missions, x.zones, fun h => absurd h hs⟩, fun o s => ?_⟩
      · rw [← x.same]
        exact congrArg (fun l => { b.ground with vehicles := l })
          (tview_tmod Vehicle.fixed b.vehicles v (fun x => { x with abort := some record }) fun _ _ => rfl)
      · have s := x.sound o s; exact ⟨s.faults, s.notices, s.counts, s.lines, s.ceilings⟩
    exact (h1 _).notify _

theorem releaseReel (x : a.Follows b) (m : Mission) (k : Block) : a.Follows (b.releaseReel m k) := by
  unfold Hall.releaseReel; split
  · split
    · exact x.askRelease _ _ _ _
    · exact x
  · exact x

theorem turnToReturn (x : a.Follows b) (slot : Nat) (q : Bool) (hd : ∀ m, tget a.missions slot = some m → m.kind = .deliver) :
    a.Follows (b.turnToReturn slot q) := by
  unfold Hall.turnToReturn; split
  · rename_i m hm
    extract_lets g1 g2 g3 g4
    have h3 : a.Follows g3 := ((x.releaseReel m _).modMission slot _).contentOfReturn slot q hd
    have h4 : a.Follows g4 := by
      unfold g4; split
      · split
        · exact h3
        · exact h3.closeHandover _
      · exact h3
    split
    · exact (h4.push _).oweCeiling _
    · exact h4
  · exact x

theorem holdAborted (x : a.Follows b) (v : Nat) : a.Follows (b.holdAborted v) := by
  unfold Hall.holdAborted; split
  · exact (x.setActivity v _).direct v _
  · exact x.direct v _

theorem makeReturn (x : a.Follows b) (v : Nat) (k : Option BayAddr) : a.Follows (b.makeReturn v k).1 := by
  unfold Hall.makeReturn; split
  · rename_i ref _
    have h1 := x.createWithBay { returnMission ref none b.clock false with state := .carrying, vehicle := some v }
      (k.or (b.selectFor ref false))
    dsimp only
    split <;> (rename_i e; rw [e] at h1)
    · exact (h1.modVehicle v _).carry _
    · exact h1
  · exact x

theorem returnIfOwed (x : a.Follows b) (v : Nat) : a.Follows (b.returnIfOwed v) := by
  unfold Hall.returnIfOwed; split
  · exact x.makeReturn v _
  · exact x

theorem cancelBeforePick (x : a.Follows b) (slot : Nat) (o : MissionOutcome)
    (hb : ∀ m, tget b.missions slot = some m → m.kind = .deliver) : a.Follows (b.cancelBeforePick slot o) := by
  unfold Hall.cancelBeforePick; split
  · rename_i m hm
    have h1 := (x.releaseReel m .fleetController).endMission slot o (by simpa using hb)
    dsimp only; split
    · exact (h1.direct _ _).afterEnd _ _ _
    · exact h1
  · exact x

theorem resumeMission (x : a.Follows b) (slot : Nat) : a.Follows (b.resumeMission slot) := by
  unfold Hall.resumeMission; split
  · split
    · split
      · exact x
      · exact x.carry slot
    · exact x
  · exact x

theorem gotDrop (x : a.Follows b) (slot : Nat) : a.Follows (b.gotDrop slot) := by
  unfold Hall.gotDrop; split
  · split
    · exact (x.resumeMission slot).push _
    · exact x.push _
  · exact x

theorem retryRoute (x : a.Follows b) (slot : Nat) : a.Follows (b.retryRoute slot) := by
  unfold Hall.retryRoute; split
  · split
    · split
      · exact x
      · split
        · exact x.assign _ _
        · split
          · exact x.carry _
          · exact x
    · exact x
  · exact x

theorem retryRoutes (x : a.Follows b) : a.Follows b.retryRoutes := x.foldl (fun h s => (refl h).retryRoute s) _

/-! ### Calls and handovers -/

theorem modCall (x : a.Follows b) (st : StandAddr) (f : Call → Call) : a.Follows (b.modCall st f) := (x.modStand st _).oweCeiling _

theorem firstLeast_mem {key : Reel → Nat} {l : List (Nat × Reel)} {p : Nat × Reel} (h : firstLeast key l = some p) : p ∈ l := by
  induction l with
  | nil => simp [firstLeast] at h
  | cons q l ih => simp only [firstLeast] at h; split at h <;> grind

theorem chosen {h : Hall} {g w m : Nat} {p : Bool} {i : Nat} {r : Reel} (hc : h.chooseReel g w p m = some (i, r)) :
    tget h.reels i = some r ∧ r.state = .stored := by
  have hm : (i, r) ∈ h.candidates g w := by
    unfold Hall.chooseReel at hc
    dsimp only at hc
    split at hc
    · rcases Option.or_eq_some_iff.mp hc with e | ⟨-, e⟩
      · exact List.mem_of_mem_filter (firstLeast_mem e)
      · exact List.mem_of_mem_filter (firstLeast_mem e)
    · exact List.mem_of_mem_filter (firstLeast_mem hc)
  unfold Hall.candidates at hm
  simp only [List.mem_filter, Bool.and_eq_true, decide_eq_true_eq] at hm
  exact ⟨hm.2.2, hm.2.1.1.2.2.1⟩

theorem allocate (x : a.Follows b) (st : StandAddr) : a.Follows (b.allocate st).1 := by
  unfold Hall.allocate; split
  · split
    · rename_i i r hc
      obtain ⟨hr, hs⟩ := chosen hc
      exact (x.putReel _ hr (by simp [Reel.fixed, hs])).lower _ rfl
    · exact x.raise _ rfl
  · exact x

theorem allocateFor (x : a.Follows b) (st : StandAddr) : a.Follows (b.allocateFor st).1 := by
  unfold Hall.allocateFor; split
  · split
    · split
      · rename_i e
        have h1 := (x.allocate st).pair e
        split
        · rename_i e2; exact ((h1.createMission _).pair e2).modCall st _
        · rename_i e2; exact (((h1.createMission _).pair e2).askRelease _ _ _ _).modCall st _
      · rename_i e; exact ((x.allocate st).pair e).modCall st _
    · exact x
  · exact x

theorem starvedRetry (x : a.Follows b) (g w : Nat) : a.Follows (b.starvedRetry g w) :=
  x.foldl (fun h st => (refl h).allocateFor st) _

theorem raisedRetry (x : a.Follows b) (l : List StandAddr) : a.Follows (b.raisedRetry l) := by
  induction l generalizing b with
  | nil => exact x
  | cons st l ih =>
    have h1 := x.allocateFor st
    unfold Hall.raisedRetry; split <;> (rename_i e; rw [e] at h1)
    · exact h1
    · exact ih h1

theorem noteCall (x : a.Follows b) (st : StandAddr) : a.Follows (b.noteCall st) := by
  unfold Hall.noteCall; split
  · exact x.notify _
  · exact x

theorem callTest (x : a.Follows b) (st : StandAddr) : a.Follows (b.callTest st) := by
  unfold Hall.callTest; split
  · rename_i hd
    split
    · rename_i s r hs hr
      have hi : s.inService = true := by
        unfold Hall.callDue at hd
        rw [hs, hr] at hd
        split at hd
        · rename_i e _ _
          cases e
          simp only [Bool.and_eq_true] at hd
          exact hd.1.1.1.1.1.1
        · cases hd
      have h1 : ∀ c, a.Follows (b.modStand st fun s => { s with call := some c }) := fun c => x.modStand st _ (hc := fun t ht _ => .inr (by
        have e : some t = some s := ht.symm.trans hs
        cases e; exact hi))
      exact (((h1 _).oweCeiling _).allocateFor st).noteCall st
    · exact x
  · exact x

theorem dropCallReel (x : a.Follows b) (st : StandAddr) (o : CallOutcome) (ref : ReelRef) (slot : Option Nat)
    (hs : o = .outOfService → ¬ a.CallsServed) : a.Follows (b.dropCallReel st o ref slot) := by
  unfold Hall.dropCallReel
  extract_lets release
  have hr : a.Follows (release b) := by
    unfold release; split
    · exact x.askRelease _ _ _ _
    · exact x
  split
  · rename_i n m hm
    obtain ⟨k, -, hk⟩ := Option.bind_eq_some_iff.mp hm
    obtain ⟨m', hm', e⟩ := Option.map_eq_some_iff.mp hk
    cases e
    split
    · exact hr
    · rename_i hd
      have hd : ∀ m', tget b.missions n = some m' → m'.kind = .deliver := fun m' h => by
        have e : some m = some m' := hm'.symm.trans h
        cases e
        by_contra hc; exact hd (.inl hc)
      split
      · exact hr
      · split
        · split
          · split
            · rename_i ho
              exact ((x.abort _ _ (hs ho)).turnToReturn n _ (x.was_deliver hd)).holdAborted _
            · exact (x.turnToReturn n _ (x.was_deliver hd)).resumeMission n
          · exact hr
        · exact x.cancelBeforePick n _ hd
  · exact hr

theorem endCall (x : a.Follows b) (st : StandAddr) (o : CallOutcome) (l : Option ReelRef)
    (hs : o = .outOfService → ¬ a.CallsServed := by decide) : a.Follows (b.endCall st o l) := by
  unfold Hall.endCall; split
  · rename_i k _
    have h1 := (x.modStand st fun s => { s with call := none }).oweCeiling st.line
    refine Follows.notify ?_ _
    split
    · split
      · exact h1
      · exact h1.dropCallReel _ _ _ _ hs
    · split
      · exact h1.lower _ rfl
      · exact h1
  · exact x

theorem reRaise (x : a.Follows b) (st : StandAddr) : a.Follows (b.reRaise st) := by
  unfold Hall.reRaise; split
  · rename_i s hs
    split
    · rename_i k hk
      split
      · exact x
      · split
        · rename_i hi
          exact x.endCall _ _ _ fun _ ha => by
            have e : s.inService = true := (x.aborts ha).1 _ (tget_mem hs) (by simp [hk])
            simp [e] at hi
        · split
          · exact x.endCall _ _ _ (fun h => by cases h)
          · extract_lets g1 g2
            have h1 : a.Follows g1 := by
              unfold g1; split
              · split
                · exact x.askRelease _ _ _ _
                · exact x
              · exact x
            exact ((h1.modCall st _).allocateFor st).noteCall st
    · exact x
  · exact x

theorem sendLoad (x : a.Follows b) (st : StandAddr) (y : Handover) : a.Follows (b.sendLoad st y) := x.sendLine _ _

theorem requestLoad (x : a.Follows b) (st : StandAddr) : a.Follows (b.requestLoad st) := by
  unfold Hall.requestLoad; split
  · split
    · split
      · exact (x.modHandover st _).sendLoad st _
      · exact x
    · exact x
  · exact x

theorem openLoad (x : a.Follows b) (slot : Nat) : a.Follows (b.openLoad slot) := by
  unfold Hall.openLoad; split
  · split
    · split
      · split
        · exact x
        · dsimp only; split
          · exact ((x.modStand _ _).oweCeiling _).sendLoad _ _
          · exact (x.modStand _ _).oweCeiling _
      · exact x
    · exact x
  · exact x

theorem openUnload (x : a.Follows b) (slot : Nat) : a.Follows (b.openUnload slot) := by
  unfold Hall.openUnload; split
  · split
    · split
      · exact ((x.modStand _ _).oweCeiling _).direct _ _
      · exact x
    · exact x
  · exact x

/-! ### The splice and starvation tests -/

theorem commandSplice (x : a.Follows b) (st : StandAddr)
    (hm : ∀ s, tget b.stands (standKey st) = some s → s.mode = .locked ∨ s.mode = .starved) : a.Follows (b.commandSplice st) := by
  unfold Hall.commandSplice; split
  · rename_i s hs
    split
    · rename_i k hk
      have h1 := (x.sendLine st.line (.splice st k k.other)).modStand st
        (fun s' => { s' with lastSplice := some (b.newSplice st s k), attempts := s'.attempts + 1, mode := .splicing }) (fun s' h' =>
          ⟨fun j _ => by cases j <;> rfl, fun _ h _ => h, fun h => h, .inr (.inr rfl), .inr ⟨rfl, rfl⟩, fun h => by
            have := hm s' h'; rcases this with e | e <;> simp [e] at h⟩)
      exact (h1.oweCeiling _).lower _ rfl
    · exact x
  · exact x

theorem starveTest (x : a.Follows b) (st : StandAddr) : a.Follows (b.starveTest st) := by
  unfold Hall.starveTest; split
  · rename_i h
    refine (x.setMode st .starved (.inl rfl) fun s hs => ?_).raise _ rfl
    have hs : b.stand st = some s := hs
    simp only [hs, Option.any_some, Bool.and_eq_true, decide_eq_true_eq] at h
    rcases h.1.2 with e | e <;> simp [e]
  · exact x

theorem spliceTest (x : a.Follows b) (st : StandAddr) : a.Follows (b.spliceTest st) := by
  unfold Hall.spliceTest
  refine Follows.starveTest ?_ st
  split
  · rename_i h
    refine x.commandSplice st fun s hs => ?_
    have hs : b.stand st = some s := hs
    unfold Hall.spliceDue at h
    simp only [hs] at h
    split at h
    · rename_i e _; cases e
      simp only [Bool.and_eq_true, decide_eq_true_eq] at h
      grind
    · simp at h
  · exact x

/-! ### The line ceiling -/

theorem noteCeiling (x : a.Follows b) (n : Nat) : a.Follows (b.noteCeiling n) := by
  unfold Hall.noteCeiling; split
  · exact x.notify _
  · exact x

theorem sendCeiling (x : a.Follows b) (n : Nat) : a.Follows (b.sendCeiling n) := by
  unfold Hall.sendCeiling; split
  · exact ((x.modLine n _).sendLine _ _).noteCeiling n
  · exact x

theorem setUrgent (x : a.Follows b) (v : Bool) (st : StandAddr) : a.Follows (b.setUrgent v st) := by
  unfold Hall.setUrgent; split
  · exact x.modMission _ _
  · exact x

theorem takeConstraining (x : a.Follows b) (n : Nat) (l : List (StandAddr × Nat)) : a.Follows (b.takeConstraining n l) := by
  unfold Hall.takeConstraining; split
  · exact (((x.modLine n _).foldl (fun h st => (refl h).setUrgent _ st) _).foldl (fun h st => (refl h).setUrgent _ st) _).foldl
      (fun h st => (refl h).setActive _ _ rfl) _
  · exact x

end Hall.Follows

/-! ### What the taking of the constraining set leaves of the lines -/

section
variable (h : Hall)

@[simp] theorem Hall.sendHold_lines (n : Nat) : (h.sendHold n).lines = h.lines := by unfold Hall.sendHold; split <;> rfl

@[simp] theorem Hall.evalHold_lines (n : Nat) : (h.evalHold n).lines = h.lines := by
  unfold Hall.evalHold; dsimp only; split <;> simp

@[simp] theorem Hall.changeFault_lines (k : FaultKey) (c : FaultChange) (e : FaultEntry) :
    (h.changeFault k c e).lines = h.lines := by
  unfold Hall.changeFault Hall.evalSubject; split <;> simp [Hall.setFault]

@[simp] theorem Hall.haltFleet_lines : h.haltFleet.lines = h.lines := by
  have hv : ∀ (l : List Nat) (g : Hall), (l.foldl Hall.haltVehicle g).lines = g.lines := by
    intro l
    induction l with
    | nil => intro; rfl
    | cons v l ih => intro g; rw [List.foldl_cons, ih]; unfold Hall.haltVehicle; dsimp only; split <;> rfl
  unfold Hall.haltFleet; split
  · rfl
  · exact hv _ _

@[simp] theorem Hall.setActive_lines (k : FaultKey) (v : Bool) : (h.setActive k v).lines = h.lines := by
  unfold Hall.setActive Hall.raise Hall.lower; dsimp only; split <;> split <;> (try split) <;> simp

@[simp] theorem Hall.setUrgent_lines (v : Bool) (st : StandAddr) : (h.setUrgent v st).lines = h.lines := by
  unfold Hall.setUrgent; split <;> rfl

theorem Hall.foldl_lines {β : Type} {f : Hall → β → Hall} (hf : ∀ g x, (f g x).lines = g.lines) (l : List β) :
    (l.foldl f h).lines = h.lines := by
  induction l generalizing h with
  | nil => rfl
  | cons x l ih => rw [List.foldl_cons, ih, hf]

theorem Hall.takeConstraining_get (n : Nat) (l : List (StandAddr × Nat)) {x : Line} (hx : tget h.lines n = some x) :
    ∃ y, tget (h.takeConstraining n l).lines n = some y ∧ y.fixed = x.fixed ∧ y.ceiling = x.ceiling := by
  unfold Hall.takeConstraining
  simp only [Hall.line, hx]
  rw [Hall.foldl_lines _ (fun g st => by simp), Hall.foldl_lines _ (fun g st => by simp), Hall.foldl_lines _ (fun g st => by simp)]
  exact ⟨{ x with constraining := l.filter fun p => decide (p.2 < x.cfg.lineMax) },
    by rw [Hall.modLine_lines, tget_tmod_same, hx]; rfl, rfl, rfl⟩

end

/-! ### Forming a ceiling (R161) -/

theorem floor10_le (v : Nat) : floor10 v ≤ v := by unfold floor10; omega

theorem floor10_mod (v : Nat) : floor10 v % 10 = 0 := by unfold floor10; omega

theorem foldl_min_le (l : List Nat) (m : Nat) : l.foldl min m ≤ m := by
  induction l generalizing m with
  | nil => exact Nat.le_refl m
  | cons x l ih => exact (ih _).trans (Nat.min_le_left ..)

/-- The formed value is a multiple of 10 from crawl to the top (R161). -/
theorem Line.formed_sound {l : Line} (hl : l.Sound) (vs : List Nat) :
    l.formed vs % 10 = 0 ∧ l.cfg.crawl ≤ l.formed vs ∧ l.formed vs ≤ l.top := by
  have h1 := foldl_min_le vs l.top
  have h2 := floor10_le (vs.foldl min l.top)
  have h3 := floor10_mod (vs.foldl min l.top)
  have h4 := hl.low
  have h5 := hl.cfg.order
  have h6 := hl.cfg.crawl
  have h7 : l.top = min l.hostCeiling l.cfg.lineMax := rfl
  unfold Line.formed
  omega

/-- The ceiling a line has once its value has been formed (R161). -/
theorem Line.settled_sound {l : Line} (hl : l.Sound) (vs : List Nat) (h : l.moves (l.formed vs) = false) : l.CeilingSound := by
  obtain ⟨h1, h2, h3⟩ := l.formed_sound hl vs
  unfold Line.moves at h
  simp only [Bool.or_eq_false_iff, decide_eq_false_iff_not, Bool.and_eq_false_iff] at h
  constructor <;> omega

namespace Hall.Follows

variable {a b c : Hall}

/-! ### The cascade -/

theorem serveSlots (x : a.Follows b) : a.Follows b.serveSlots :=
  ((x.foldl (fun h v => (refl h).returnIfOwed v) _).serveChargers).raisedRetry _

/-- Every consequence follows. -/
theorem runJob (x : a.Follows b) (j : Job) : a.Follows (b.runJob j) := by
  cases j with
  | bayWalk => exact x.walkBays
  | missionLeft => exact x.serveSlots
  | chargersFree => exact x.serveChargers
  | arbiter => exact x.runArbiter
  | starvedRetry g w => exact x.starvedRetry g w
  | gotDrop s => exact x.gotDrop s
  | loadReady s => exact x.openLoad s
  | unloadReady s => exact x.openUnload s
  | chargeNeed v => exact x.chargeNeed v
  | reRaise st => exact x.reRaise st
  | callTest st => exact x.callTest st
  | spliceTest st => exact x.spliceTest st
  | requestLoad st => exact x.requestLoad st
  | retryRoutes => exact x.retryRoutes

/-- The cascade follows, however many consequences it makes (log 5). -/
theorem settle (x : a.Follows b) (n : Nat) : a.Follows (b.settle n) := by
  induction n generalizing b with
  | zero => exact x
  | succ n ih =>
    unfold Hall.settle; split
    · exact x
    · rename_i j rest _
      refine ih (Follows.runJob ?_ j)
      exact x.next rfl

end Hall.Follows

/-! ### The end of an event -/

theorem Hall.formCeiling_steps (h : Hall) (n : Nat) : h.Steps (h.formCeiling n) := by
  unfold Hall.formCeiling; split
  · rename_i l _
    dsimp only
    have h1 := (Hall.Follows.refl h).takeConstraining n (h.lineValues n)
    split
    · refine h1.toSteps.trans (Hall.Steps.trans ?_ ((Hall.Follows.refl _).sendCeiling n).toSteps)
      exact ⟨congrArg (fun l => { (h.takeConstraining n (h.lineValues n)).ground with lines := l })
          (tview_tmod Line.fixed _ n (fun x => { x with ceiling := l.formed ((h.lineValues n).map (·.2)) }) fun _ _ => rfl),
        List.prefix_rfl, List.prefix_rfl, .refl .refl _, fun _ m h _ => ⟨m, h, .refl m⟩, .refl .refl _, fun h => ⟨h, fun _ => rfl⟩⟩
    · exact h1.toSteps
  · exact (Hall.Follows.refl h).toSteps

/-- A forming pays what a line is owed (R161). -/
theorem Hall.formCeiling_sound {h : Hall} {n : Nat} {o : List Nat} (s : h.SoundBut (n :: o)) : (h.formCeiling n).SoundBut o := by
  unfold Hall.formCeiling; split
  · rename_i l hl
    have hl : tget h.lines n = some l := hl
    obtain ⟨y, hy, hf, hc⟩ := Hall.takeConstraining_get h n (h.lineValues n) hl
    have hcfg : y.cfg = l.cfg := by have e := congrArg Line.cfg hf; exact e
    have hhost : y.hostCeiling = l.hostCeiling := by have e := congrArg Line.hostCeiling hf; exact e
    have htop : y.top = l.top := by simp [Line.top, hcfg, hhost]
    have hsl := s.lines _ (tget_mem hl)
    have s' := ((Hall.Follows.refl h).takeConstraining n (h.lineValues n)).sound _ s
    have other : ∀ k l', k ≠ n → tget (h.takeConstraining n (h.lineValues n)).lines k = some l' →
        l'.CeilingSound ∨ k ∈ (h.takeConstraining n (h.lineValues n)).ceilings ∨ k ∈ o := fun k l' hk hl' => by
      simpa [hk] using s'.ceilings k l' hl'
    obtain ⟨f1, f2, f3⟩ := l.formed_sound hsl ((h.lineValues n).map (·.2))
    dsimp only
    split
    · refine ((Hall.Follows.refl _).sendCeiling n).sound o ⟨s'.faults, s'.notices, s'.counts, fun p hp => ?_, fun k l' hl' => ?_⟩
      · rcases mem_tmod hp with hp | ⟨z, hz, _, rfl⟩
        · exact s'.lines p hp
        · have t := s'.lines _ hz
          exact ⟨t.cfg, f1, t.host, t.low, t.high⟩
      · by_cases hk : k = n
        · subst hk
          rw [Hall.modLine_lines, tget_tmod_same, hy] at hl'
          cases hl'
          exact .inl ⟨hcfg ▸ f2, by simpa [Line.top, hcfg, hhost] using f3⟩
        · rw [Hall.modLine_lines, tget_tmod_ne _ _ hk] at hl'
          exact other k l' hk hl'
    · rename_i hm
      refine ⟨s'.faults, s'.notices, s'.counts, s'.lines, fun k l' hl' => ?_⟩
      by_cases hk : k = n
      · subst hk
        rw [hy] at hl'
        cases hl'
        have t := l.settled_sound hsl _ (by simpa using hm)
        exact .inl ⟨by rw [hcfg, hc]; exact t.low, by rw [htop, hc]; exact t.high⟩
      · exact other k l' hk hl'
  · rename_i hn
    have hn : tget h.lines n = none := hn
    refine ⟨s.faults, s.notices, s.counts, s.lines, fun k l' hl' => ?_⟩
    by_cases hk : k = n
    · subst hk; rw [hn] at hl'; cases hl'
    · simpa [hk] using s.ceilings k l' hl'

theorem Hall.finish_steps (h : Hall) : h.Steps h.finish := by
  unfold Hall.finish Hall.formCeilings
  refine Hall.Steps.foldl (fun h n => h.formCeiling_steps n) _ ?_
  refine Hall.Steps.trans ((Hall.Follows.refl h).settle Config.cascadeBound).toSteps ?_
  exact ⟨rfl, List.prefix_rfl, List.prefix_rfl, .refl .refl _, fun _ m h _ => ⟨m, h, .refl m⟩, .refl .refl _, fun h => ⟨h, fun _ => rfl⟩⟩

/-- What the end of an event leaves: everything that `Hall.Trace` says. -/
theorem Hall.finish_trace (h : Hall) : h.Trace h.finish := h.finish_steps.trace

theorem Hall.formAll_sound (o : List Nat) : ∀ {h : Hall}, h.SoundBut o → (o.foldl Hall.formCeiling h).Sound := by
  induction o with
  | nil => exact fun s => s
  | cons n o ih => exact fun s => ih (Hall.formCeiling_sound s)

/-- The end of an event keeps the hall sound. -/
theorem Hall.finish_sound {h : Hall} (s : h.Sound) : h.finish.Sound := by
  unfold Hall.finish Hall.formCeilings
  have s' := ((Hall.Follows.refl h).settle Config.cascadeBound).sound _ s
  refine Hall.formAll_sound _ ⟨s'.faults, s'.notices, s'.counts, s'.lines, fun k l hl => ?_⟩
  have t := s'.ceilings k l hl
  simp only [List.not_mem_nil, or_false] at t
  exact t.imp_right .inr

/-! ### No ceiling is owed after an event -/

section
variable (h : Hall)

@[simp] theorem Hall.sendHold_ceilings (n : Nat) : (h.sendHold n).ceilings = h.ceilings := by unfold Hall.sendHold; split <;> rfl

@[simp] theorem Hall.evalHold_ceilings (n : Nat) : (h.evalHold n).ceilings = h.ceilings := by
  unfold Hall.evalHold; dsimp only; split <;> simp

@[simp] theorem Hall.changeFault_ceilings (k : FaultKey) (c : FaultChange) (e : FaultEntry) :
    (h.changeFault k c e).ceilings = h.ceilings := by
  unfold Hall.changeFault Hall.evalSubject; split <;> simp [Hall.setFault]

@[simp] theorem Hall.starving_ceilings (st : StandAddr) (v : Bool) : (h.setActive (standFault .starving st) v).ceilings = h.ceilings := by
  unfold Hall.setActive; split
  · unfold Hall.raise; split
    · rfl
    · simp [standFault, stopsFleet]
  · unfold Hall.lower; split <;> simp

@[simp] theorem Hall.setUrgent_ceilings (v : Bool) (st : StandAddr) : (h.setUrgent v st).ceilings = h.ceilings := by
  unfold Hall.setUrgent; split <;> rfl

theorem Hall.foldl_ceilings {β : Type} {f : Hall → β → Hall} (hf : ∀ g x, (f g x).ceilings = g.ceilings) (l : List β) :
    (l.foldl f h).ceilings = h.ceilings := by
  induction l generalizing h with
  | nil => rfl
  | cons x l ih => rw [List.foldl_cons, ih, hf]

@[simp] theorem Hall.takeConstraining_ceilings (n : Nat) (l : List (StandAddr × Nat)) :
    (h.takeConstraining n l).ceilings = h.ceilings := by
  unfold Hall.takeConstraining; split
  · dsimp only
    rw [Hall.foldl_ceilings _ (fun g st => by simp), Hall.foldl_ceilings _ (fun g st => by simp), Hall.foldl_ceilings _ (fun g st => by simp)]
    rfl
  · rfl

@[simp] theorem Hall.noteCeiling_ceilings (n : Nat) : (h.noteCeiling n).ceilings = h.ceilings := by
  unfold Hall.noteCeiling; split <;> simp

@[simp] theorem Hall.sendCeiling_ceilings (n : Nat) : (h.sendCeiling n).ceilings = h.ceilings := by
  unfold Hall.sendCeiling; split
  · simp
  · rfl

@[simp] theorem Hall.formCeiling_ceilings (n : Nat) : (h.formCeiling n).ceilings = h.ceilings := by
  unfold Hall.formCeiling; split
  · dsimp only; split <;> simp
  · rfl

end

/-- No ceiling is owed once an event has ended (log 4). -/
@[simp] theorem Hall.finish_ceilings (h : Hall) : h.finish.ceilings = [] := by
  unfold Hall.finish Hall.formCeilings
  rw [Hall.foldl_ceilings _ (fun g n => by simp)]

end Sys2Proof.Machine
end

