-- ==== Sys2Proof/Laws/Intervals.lean ====
section
/-! SUPPORT. The divert interval list stays ordered under every change of it, and every copy made final is counted once
(R165, R166, R169 to R172, R179). -/

namespace Sys2Proof.Machine

/-- An end lies at or before copy `n`; OPEN does not. -/
def EndLe (e : Option Nat) (n : Nat) : Prop := ∃ x, e = some x ∧ x ≤ n

@[simp] theorem endLe_some {x n : Nat} : EndLe (some x) n ↔ x ≤ n := by simp [EndLe]

@[simp] theorem endLe_none {n : Nat} : ¬ EndLe none n := by simp [EndLe]

theorem endsBy_iff (e : Option Nat) (n : Nat) : endsBy e n = true ↔ EndLe e n := by cases e <;> simp [endsBy]

theorem EndLe.le {e : Option Nat} {m n : Nat} (h : EndLe e m) (k : m ≤ n) : EndLe e n := by
  obtain ⟨x, rfl, hx⟩ := h; exact ⟨x, rfl, hx.trans k⟩

/-- A span from a first copy to an end covers a copy. -/
def Filled (first : Nat) (stop : Option Nat) : Prop := ∀ e, stop = some e → first < e

/-- What ends at or before a copy begins before it. -/
theorem Filled.lt {f n : Nat} {e : Option Nat} (h : Filled f e) (k : EndLe e n) : f < n := by
  obtain ⟨x, rfl, hx⟩ := k; exact (h x rfl).trans_le hx

/-- Portions still to be placed stand apart from the intervals of an ordered list, and between any two of them an interval
stands. -/
structure Fits (l : List Interval) (ps : List (Nat × Option Nat)) : Prop extends IntervalsOrdered l where
  portion : ∀ p ∈ ps, Filled p.1 p.2
  gap : ∀ p ∈ ps, ∀ x ∈ l, EndLe x.stop p.1 ∨ EndLe p.2 x.first
  parted : ps.Pairwise fun p q => ∃ x ∈ l, EndLe p.2 x.first ∧ EndLe x.stop q.1

theorem IntervalsOrdered.nil : IntervalsOrdered [] := ⟨nofun, .nil⟩

theorem IntervalsOrdered.sublist {l m : List Interval} (h : IntervalsOrdered l) (s : m.Sublist l) : IntervalsOrdered m :=
  ⟨fun x hx => h.filled x (s.subset hx), h.apart.sublist s⟩

/-- A change of each interval that keeps first copy and end keeps the order. -/
theorem IntervalsOrdered.map {l : List Interval} (h : IntervalsOrdered l) {f : Interval → Interval}
    (hf : ∀ x, (f x).first = x.first ∧ (f x).stop = x.stop) : IntervalsOrdered (l.map f) := by
  refine ⟨fun y hy => ?_, ?_⟩
  · obtain ⟨x, hx, rfl⟩ := List.mem_map.mp hy
    rw [(hf x).1, (hf x).2]; exact h.filled x hx
  · rw [List.pairwise_map]
    refine h.apart.imp fun {x y} k => ?_
    rw [(hf x).2, (hf y).1]; exact k

/-- So does a change of the first interval that keeps its first copy and end. -/
theorem IntervalsOrdered.head {x y : Interval} {l : List Interval} (h : IntervalsOrdered (x :: l)) (hf : y.first = x.first)
    (hs : y.stop = x.stop) : IntervalsOrdered (y :: l) := by
  have hp := List.pairwise_cons.mp h.apart
  refine ⟨fun z hz => ?_, List.pairwise_cons.mpr ⟨fun z hz => by rw [hs]; exact hp.1 z hz, hp.2⟩⟩
  rcases List.mem_cons.mp hz with rfl | m
  · rw [hf, hs]; exact h.filled x (by simp)
  · exact h.filled z (List.mem_cons_of_mem _ m)

/-! ### Offering an interval -/

/-- One interval of an ordered list may take another's place that stands apart from the same neighbours. -/
theorem Pairwise.swap {α : Type} {R : α → α → Prop} {a b : List α} {x y : α} (h : (a ++ x :: b).Pairwise R)
    (ha : ∀ z ∈ a, R z y) (hb : ∀ z ∈ b, R y z) : (a ++ y :: b).Pairwise R := by
  simp only [List.pairwise_append, List.pairwise_cons, List.mem_cons, forall_eq_or_imp] at h ⊢
  exact ⟨h.1, ⟨hb, h.2.1.2⟩, fun z hz => ⟨ha z hz, (h.2.2 z hz).2⟩⟩

theorem IntervalsOrdered.ne {l : List Interval} (h : IntervalsOrdered l) {a b : List Interval} {x : Interval} (e : l = a ++ x :: b) :
    x ∉ a ∧ x ∉ b := by
  subst e
  have hx := h.filled x (by simp)
  have hp := h.apart
  simp only [List.pairwise_append, List.pairwise_cons, List.mem_cons, forall_eq_or_imp] at hp
  constructor
  · intro m; obtain ⟨e, he, hl⟩ := (hp.2.2 x m).1; have := hx e he; omega
  · intro m; obtain ⟨e, he, hl⟩ := hp.2.1.1 x m; have := hx e he; omega

theorem replaceInterval_split {a b : List Interval} {x y : Interval} (ha : x ∉ a) (hb : x ∉ b) :
    replaceInterval x y (a ++ x :: b) = a ++ y :: b := by
  have h : ∀ l : List Interval, x ∉ l → (l.map fun z => if z = x then y else z) = l := fun l hl => by
    conv_rhs => rw [← List.map_id l]
    exact List.map_congr_left fun z hz => if_neg fun e => hl (by rw [← e]; exact hz)
  simp only [replaceInterval, List.map_append, List.map_cons, if_true, h a ha, h b hb]

theorem mem_insertInterval {iv x : Interval} {l : List Interval} : x ∈ insertInterval iv l ↔ x = iv ∨ x ∈ l := by
  induction l with
  | nil => simp [insertInterval]
  | cons y l ih => unfold insertInterval; split <;> simp [ih]; tauto

theorem insertInterval_ordered {l : List Interval} (h : IntervalsOrdered l) {iv : Interval} (hf : Filled iv.first iv.stop)
    (hg : ∀ x ∈ l, EndLe x.stop iv.first ∨ EndLe iv.stop x.first) : IntervalsOrdered (insertInterval iv l) := by
  refine ⟨fun x hx => ?_, ?_⟩
  · rcases mem_insertInterval.mp hx with rfl | m
    · exact hf
    · exact h.filled x m
  · induction l with
    | nil => simp [insertInterval]
    | cons y l ih =>
      have hp := List.pairwise_cons.mp h.apart
      have hy := h.filled y (by simp)
      unfold insertInterval; split
      · rename_i lt
        refine List.pairwise_cons.mpr ⟨fun x hx => ?_, h.apart⟩
        have k : y.first ≤ x.first := by
          rcases List.mem_cons.mp hx with rfl | m
          · exact le_rfl
          · obtain ⟨e, he, hl⟩ := hp.1 x m; have := hy e he; omega
        rcases hg x hx with g | g
        · have := Filled.lt (h.filled x hx) g; omega
        · exact g
      · rename_i nlt
        have h' : IntervalsOrdered l := h.sublist (List.sublist_cons_self ..)
        refine List.pairwise_cons.mpr ⟨fun x hx => ?_, ih h' fun x hx => hg x (List.mem_cons_of_mem _ hx)⟩
        rcases mem_insertInterval.mp hx with rfl | m
        · rcases hg y (by simp) with g | g
          · exact g
          · have := hf.lt g; omega
        · exact hp.1 x m

/-- Replacing an interval by one that stands apart from the same neighbours, and from the portions still to be placed. -/
theorem Fits.replace {a b : List Interval} {x y : Interval} {ps : List (Nat × Option Nat)} (h : Fits (a ++ x :: b) ps)
    (hy : Filled y.first y.stop) (ha : ∀ z ∈ a, EndLe z.stop y.first) (hb : ∀ z ∈ b, EndLe y.stop z.first)
    (hq : ∀ q ∈ ps, EndLe y.stop q.1) (hx : ∀ q ∈ ps, ¬ EndLe q.2 x.first) : Fits (a ++ y :: b) ps := by
  have mem : ∀ z, z ∈ a ++ y :: b → z = y ∨ z ∈ a ++ x :: b := fun z hz => by simp at hz ⊢; tauto
  refine ⟨⟨fun z hz => ?_, Pairwise.swap h.apart ha hb⟩, h.portion, fun q hq' z hz => ?_, ?_⟩
  · rcases mem z hz with rfl | m
    · exact hy
    · exact h.filled z m
  · rcases mem z hz with rfl | m
    · exact .inl (hq q hq')
    · exact h.gap q hq' z m
  · refine h.parted.imp_of_mem fun {q r} mq _ k => ?_
    obtain ⟨z, hz, k1, k2⟩ := k
    refine ⟨z, ?_, k1, k2⟩
    have : z ≠ x := fun e => hx q mq (e ▸ k1)
    simp at hz ⊢; tauto

/-- Taking an interval out that no portion still to be placed needs between it and another. -/
theorem Fits.drop {a b : List Interval} {x : Interval} {ps : List (Nat × Option Nat)} (h : Fits (a ++ x :: b) ps)
    (hx : ∀ q ∈ ps, ¬ EndLe q.2 x.first) : Fits (a ++ b) ps := by
  have s : (a ++ b).Sublist (a ++ x :: b) := List.Sublist.append (.refl a) (List.sublist_cons_self x b)
  refine ⟨h.toIntervalsOrdered.sublist s, h.portion, fun q hq z hz => h.gap q hq z (s.subset hz), ?_⟩
  refine h.parted.imp_of_mem fun {q r} mq _ k => ?_
  obtain ⟨z, hz, k1, k2⟩ := k
  refine ⟨z, ?_, k1, k2⟩
  have : z ≠ x := fun e => hx q mq (e ▸ k1)
  simp at hz ⊢; tauto

/-- Portions that come later begin behind the end of an earlier one. -/
theorem Fits.later {l : List Interval} {p q : Nat × Option Nat} {ps : List (Nat × Option Nat)} (h : Fits l (p :: ps)) (hq : q ∈ ps) :
    ∃ e, p.2 = some e ∧ e < q.1 := by
  obtain ⟨x, hx, ⟨e, he, hl⟩, k⟩ := (List.pairwise_cons.mp h.parted).1 q hq
  have := Filled.lt (h.filled x hx) k
  exact ⟨e, he, by omega⟩

theorem Fits.tail {l : List Interval} {p : Nat × Option Nat} {ps : List (Nat × Option Nat)} (h : Fits l (p :: ps)) : Fits l ps :=
  ⟨h.toIntervalsOrdered, fun q hq => h.portion q (List.mem_cons_of_mem _ hq), fun q hq => h.gap q (List.mem_cons_of_mem _ hq),
    (List.pairwise_cons.mp h.parted).2⟩

/-- No later portion ends at or before a copy at or before the end of an earlier one. -/
theorem Fits.behind {l : List Interval} {p : Nat × Option Nat} {ps : List (Nat × Option Nat)} (h : Fits l (p :: ps)) {n : Nat}
    (hn : ∀ e, p.2 = some e → n ≤ e) : ∀ q ∈ ps, ¬ EndLe q.2 n := by
  intro q hq k
  obtain ⟨e, he, hl⟩ := h.later hq
  have := (h.portion q (List.mem_cons_of_mem _ hq)).lt k
  have := hn e he
  omega

/-- The nearest preceding interval grows to the end of a portion, and takes in the interval of its cause that begins there. -/
theorem joinRight_fits {o : Offer} {l : Interval} {p : Nat × Option Nat} {ps : List (Nat × Option Nat)} (h : Fits o.ivs (p :: ps))
    (hl : l ∈ o.ivs) (hp : l.first < p.1) (last : ∀ x ∈ o.ivs, EndLe l.stop x.first → p.1 ≤ x.first) :
    Fits (joinRight l p.2 o).ivs ps := by
  obtain ⟨a, b, e⟩ := List.append_of_mem hl
  have hn := h.ne e
  have hpf := h.portion p (by simp)
  have apart := h.apart
  rw [e] at apart
  simp only [List.pairwise_append, List.pairwise_cons, List.mem_cons, forall_eq_or_imp] at apart
  have ha : ∀ z ∈ a, EndLe z.stop l.first := fun z hz => (apart.2.2 z hz).1
  have hb : ∀ z ∈ b, EndLe p.2 z.first := fun z hz => by
    have hz' : z ∈ o.ivs := by rw [e]; simp [hz]
    have k := last z hz' (apart.2.1.1 z hz)
    rcases h.gap p (by simp) z hz' with g | g
    · have := Filled.lt (h.filled z hz') g; omega
    · exact g
  have hq : ∀ q ∈ ps, EndLe p.2 q.1 := fun q hq => by obtain ⟨x, hx, k⟩ := h.later hq; exact ⟨x, hx, k.le⟩
  have h' : Fits (a ++ l :: b) ps := e ▸ h.tail
  have hx := h.behind (n := l.first) fun x k => by have := hpf x k; omega
  unfold joinRight; dsimp only; split
  · rename_i r find
    obtain ⟨x, px, find⟩ := Option.bind_eq_some_iff.mp find
    have hr := List.mem_of_find?_eq_some find
    have hc := List.find?_some find
    simp only [decide_eq_true_eq] at hc
    have hlt := hpf x px
    have hrb : r ∈ b := by
      rw [e] at hr
      rcases List.mem_append.mp hr with m | m
      · have := Filled.lt (h.filled r (by rw [e]; simp [m])) (ha r m); omega
      · rcases List.mem_cons.mp m with m | m
        · exact absurd m hc.2.2
        · exact m
    obtain ⟨c, d, eb⟩ := List.append_of_mem hrb
    have hcnil : c = [] := by
      cases c with
      | nil => rfl
      | cons y c =>
        exfalso
        have yb : y ∈ b := by rw [eb]; simp
        have k1 := hb y yb
        have k2 := apart.2.1.2
        rw [eb] at k2
        have k3 : EndLe y.stop r.first := by
          have := List.rel_of_pairwise_cons k2 (a' := r) (by simp)
          exact this
        rw [px, endLe_some] at k1
        have := Filled.lt (h.filled y (by rw [e]; simp [yb])) k3
        omega
    subst hcnil
    simp only [List.nil_append] at eb
    subst eb
    have herase : o.ivs.erase r = a ++ l :: d := by
      have h1 : r ∉ a := fun m => by have := Filled.lt (h.filled r hr) (ha r m); omega
      rw [e, List.erase_append_right _ h1, List.erase_cons_tail (by simpa using Ne.symm hc.2.2), List.erase_cons_head]
    rw [herase, replaceInterval_split hn.1 fun m => hn.2 (List.mem_cons_of_mem _ m)]
    have hrx := h.behind (n := r.first) fun y k => by rw [px] at k; cases k; omega
    have h2 : Fits (a ++ l :: d) ps := by
      have : Fits ((a ++ [l]) ++ r :: d) ps := by simpa using h'
      simpa using this.drop hrx
    have hrd := (List.pairwise_cons.mp apart.2.1.2).1
    refine h2.replace (fun y k => ?_) ha (hrd) (fun q mq => ?_) hx
    · have := h.filled r hr y k; dsimp only at this ⊢; omega
    · rcases h.gap q (List.mem_cons_of_mem _ mq) r hr with g | g
      · exact g
      · exact absurd g (hrx q mq)
  · rw [e, replaceInterval_split hn.1 hn.2]
    exact h'.replace (fun y k => by have := hpf y k; dsimp only; omega) ha hb hq hx

theorem placePortion_fits {k : Cause} {o : Offer} {p : Nat × Option Nat} {ps : List (Nat × Option Nat)} (h : Fits o.ivs (p :: ps)) :
    Fits (placePortion k o p).ivs ps := by
  have hpf := h.portion p (by simp)
  unfold placePortion; split
  · rename_i l find
    have hl := List.mem_of_find?_eq_some find
    have hc := List.find?_some find
    simp only [decide_eq_true_eq] at hc
    refine joinRight_fits h hl (h.filled l hl _ hc.1) fun x _ k => ?_
    rw [hc.1, endLe_some] at k; exact k
  · split
    · rename_i r find
      obtain ⟨x, px, find⟩ := Option.bind_eq_some_iff.mp find
      have hr := List.mem_of_find?_eq_some find
      have hc := List.find?_some find
      simp only [decide_eq_true_eq] at hc
      obtain ⟨a, b, e⟩ := List.append_of_mem hr
      have hn := h.ne e
      have apart := h.apart
      rw [e] at apart
      simp only [List.pairwise_append, List.pairwise_cons, List.mem_cons, forall_eq_or_imp] at apart
      have h' : Fits (a ++ r :: b) ps := e ▸ h.tail
      have hlt := hpf x px
      dsimp only
      rw [e, replaceInterval_split hn.1 hn.2]
      have hrx := h.behind (n := r.first) fun y k => by rw [px] at k; cases k; omega
      refine h'.replace (fun y k => ?_) (fun z hz => ?_) (fun z hz => apart.2.1.1 z hz) (fun q mq => ?_) hrx
      · have := h.filled r hr y k; dsimp only at this ⊢; omega
      · have mz : z ∈ o.ivs := by rw [e]; simp [hz]
        rcases h.gap p (by simp) z mz with g | g
        · exact g
        · have k : EndLe z.stop r.first := (apart.2.2 z hz).1
          have := Filled.lt (h.filled z mz) k
          rw [px, endLe_some] at g; omega
      · rcases h.gap q (List.mem_cons_of_mem _ mq) r hr with g | g
        · exact g
        · exact absurd g (hrx q mq)
    · split
      · dsimp only
        refine ⟨insertInterval_ordered h.toIntervalsOrdered hpf (h.gap p (by simp)), h.tail.portion, fun q hq z hz => ?_, ?_⟩
        · rcases mem_insertInterval.mp hz with rfl | m
          · obtain ⟨e, he, hl⟩ := h.later hq; exact .inl ⟨e, he, hl.le⟩
          · exact h.tail.gap q hq z m
        · exact h.tail.parted.imp fun {q r} k => by
            obtain ⟨z, hz, k⟩ := k; exact ⟨z, mem_insertInterval.mpr (.inr hz), k⟩
      · split
        · rename_i l find
          have hm := List.mem_of_getLast? find
          simp only [List.mem_filter, decide_eq_true_eq] at hm
          refine joinRight_fits h hm.1 hm.2 fun x mx k => ?_
          by_contra lt
          obtain ⟨ys, hys⟩ := List.getLast?_eq_some_iff.mp find
          have hf := h.apart.filter (fun x => decide (x.first < p.1))
          have mx' : x ∈ o.ivs.filter fun x => decide (x.first < p.1) := by simp [mx]; omega
          rw [hys] at hf mx'
          rcases List.mem_append.mp mx' with m | m
          · have k2 : EndLe x.stop l.first := (List.pairwise_append.mp hf).2.2 x m l (by simp)
            have := Filled.lt (h.filled x mx) k2
            have := Filled.lt (h.filled l hm.1) k
            omega
          · rw [List.mem_singleton] at m; subst m
            have := Filled.lt (h.filled x mx) k; omega
        · rename_i find
          have hall : ∀ x ∈ o.ivs, p.1 ≤ x.first := fun x mx => by
            by_contra lt
            have := List.getLast?_eq_none_iff.mp find
            have m : x ∈ o.ivs.filter fun x => decide (x.first < p.1) := by simp [mx]; omega
            rw [this] at m; cases m
          split
          · rename_i r rest e
            dsimp only
            have mr : r ∈ o.ivs := by rw [e]; simp
            have hr := hall r mr
            have apart := h.apart
            rw [e] at apart
            have hrx : ∀ q ∈ ps, ¬ EndLe q.2 r.first := fun q mq g => by
              obtain ⟨x, hx, k1, k2⟩ := (List.pairwise_cons.mp h.parted).1 q mq
              have := Filled.lt (h.filled x hx) k2
              have := (h.portion q (List.mem_cons_of_mem _ mq)).lt g
              rw [e] at hx
              rcases List.mem_cons.mp hx with rfl | m
              · omega
              · have k3 : EndLe r.stop x.first := (List.pairwise_cons.mp apart).1 x m
                have := Filled.lt (h.filled r mr) k3
                omega
            have h' : Fits ([] ++ r :: rest) ps := by simpa [e] using h.tail
            refine (h'.replace (y := { r with first := p.1, sent := false }) (fun y k => ?_) nofun
              (fun z hz => (List.pairwise_cons.mp apart).1 z hz) (fun q mq => ?_) hrx)
            · have := h.filled r mr y k; dsimp only at this ⊢; omega
            · rcases h.gap q (List.mem_cons_of_mem _ mq) r mr with g | g
              · exact g
              · exact absurd g (hrx q mq)
          · exact h.tail

theorem foldl_placePortion_fits {k : Cause} {ps : List (Nat × Option Nat)} {o : Offer} (h : Fits o.ivs ps) :
    IntervalsOrdered (ps.foldl (placePortion k) o).ivs := by
  induction ps generalizing o with
  | nil => exact h.toIntervalsOrdered
  | cons p ps ih => exact ih (placePortion_fits h)

/-- The uncovered portions of an interval fit the list, and begin at its first copy or later. -/
theorem uncovered_fits {l : List Interval} (h : IntervalsOrdered l) {a : Nat} {e : Option Nat} (ha : Filled a e) :
    Fits l (uncovered a e l) ∧ ∀ p ∈ uncovered a e l, a ≤ p.1 := by
  induction l generalizing a with
  | nil => simp [uncovered]; exact ⟨h, by simpa using ha, by simp, by simp⟩
  | cons iv rest ih =>
    have hp := List.pairwise_cons.mp h.apart
    have hiv := h.filled iv (by simp)
    have after : ∀ x ∈ rest, iv.first ≤ x.first := fun x hx => by
      have := Filled.lt hiv (hp.1 x hx : EndLe iv.stop x.first); omega
    have single : ∀ p : Nat × Option Nat, a ≤ p.1 → Filled p.1 p.2 → EndLe p.2 iv.first →
        Fits (iv :: rest) [p] ∧ ∀ q ∈ [p], a ≤ q.1 := fun p h1 h2 h3 =>
      ⟨⟨h, by simpa using h2, by
          intro q hq x hx; obtain rfl := List.mem_singleton.mp hq
          rcases List.mem_cons.mp hx with rfl | m
          · exact .inr h3
          · exact .inr (h3.le (after x m)), by simp⟩, by simpa using h1⟩
    unfold uncovered; split
    · rename_i k
      exact single (a, e) le_rfl ha ((endsBy_iff ..).mp k)
    · rename_i k
      have k : ¬ EndLe e iv.first := fun g => k ((endsBy_iff ..).mpr g)
      split
      · rename_i es
        split
        · rename_i lt
          exact single (a, some iv.first) le_rfl (fun y hy => by cases hy; exact lt) (by simp)
        · exact ⟨⟨h, by simp, by simp, by simp⟩, by simp⟩
      · rename_i s es
        have hs := hiv s es
        rw [if_neg (by omega)]
        have hrest : IntervalsOrdered rest := h.sublist (List.sublist_cons_self ..)
        have tail : Fits (iv :: rest) (if endsBy e s = true then [] else uncovered (max a s) e rest) ∧
            ∀ p ∈ (if endsBy e s = true then [] else uncovered (max a s) e rest), max a s ≤ p.1 := by
          split
          · exact ⟨⟨h, by simp, by simp, by simp⟩, by simp⟩
          · rename_i ks
            have ks : ¬ EndLe e s := fun g => ks ((endsBy_iff ..).mpr g)
            obtain ⟨f, g⟩ := ih hrest (a := max a s) fun y hy => by
              have := ha y hy
              have : ¬ y ≤ s := fun le => ks ⟨y, hy, le⟩
              omega
            refine ⟨⟨h, f.portion, fun p mp x mx => ?_, f.parted.imp fun {q r} k => ?_⟩, g⟩
            · rcases List.mem_cons.mp mx with rfl | m
              · exact .inl ⟨s, es, by have := g p mp; omega⟩
              · exact f.gap p mp x m
            · obtain ⟨x, mx, k⟩ := k; exact ⟨x, List.mem_cons_of_mem _ mx, k⟩
        split
        · rename_i lt
          refine ⟨⟨h, fun p mp => ?_, fun p mp x mx => ?_, ?_⟩, fun p mp => ?_⟩
          · rcases List.mem_cons.mp mp with rfl | m
            · intro y hy; cases hy; exact lt
            · exact tail.1.portion p m
          · rcases List.mem_cons.mp mp with rfl | m
            · rcases List.mem_cons.mp mx with rfl | m
              · exact .inr (by simp)
              · exact .inr (by simpa using after x m)
            · exact tail.1.gap p m x mx
          · refine List.pairwise_cons.mpr ⟨fun q mq => ⟨iv, by simp, by simp, s, es, ?_⟩, tail.1.parted⟩
            have := tail.2 q mq; omega
          · rcases List.mem_cons.mp mp with rfl | m
            · exact le_rfl
            · have := tail.2 p m; omega
        · exact ⟨tail.1, fun p mp => by have := tail.2 p mp; omega⟩

/-- An offer keeps the list ordered (R169 to R171). -/
theorem offerInterval_ordered {f : Nat} {l : List Interval} (h : IntervalsOrdered l) (first : Nat) (stop : Option Nat) (k : Cause) :
    IntervalsOrdered (offerInterval f l first stop k).ivs := by
  unfold offerInterval; dsimp only; split
  · exact h
  · rename_i ne
    refine foldl_placePortion_fits (uncovered_fits h fun e he => ?_).1
    by_contra le
    exact ne ((endsBy_iff ..).mpr ⟨e, he, by omega⟩)

/-! ### Ends, retirement and renumbering -/

theorem endOpen_ordered {l : List Interval} (h : IntervalsOrdered l) (e : Nat) : IntervalsOrdered (l.filterMap (Interval.endAt e)) := by
  refine ⟨fun y hy => ?_, ?_⟩
  · obtain ⟨x, hx, k⟩ := List.mem_filterMap.mp hy
    have hf := h.filled x hx
    unfold Interval.endAt at k
    split at k
    · cases k; exact hf
    · split at k <;> cases k
      intro n hn; cases hn; assumption
  · rw [List.pairwise_filterMap]
    refine h.apart.imp fun {x y} k x' hx y' hy => ?_
    obtain ⟨n, hn, hl⟩ := k
    unfold Interval.endAt at hx hy
    rw [if_pos (by simp [hn])] at hx
    cases hx
    refine ⟨n, hn, ?_⟩
    split at hy
    · cases hy; exact hl
    · split at hy <;> cases hy
      exact hl

theorem retire_ordered {l : List Interval} (h : IntervalsOrdered l) (f : Nat) : IntervalsOrdered (retire f l) :=
  h.sublist List.filter_sublist

theorem renumber_ordered {l : List Interval} (h : IntervalsOrdered l) (c : Nat) : IntervalsOrdered ((retire c l).map (renumber c)) := by
  have hr := retire_ordered h c
  refine ⟨fun y hy => ?_, ?_⟩
  · obtain ⟨x, hx, rfl⟩ := List.mem_map.mp hy
    intro e he
    obtain ⟨n, hn, rfl⟩ := Option.map_eq_some_iff.mp (show x.stop.map (· - c) = some e from he)
    have h1 := hr.filled x hx n hn
    have h2 : c + 1 < n := by
      have := (List.mem_filter.mp hx).2
      rw [hn] at this; simpa using this
    show max 1 (x.first - c) < n - c
    omega
  · rw [List.pairwise_map]
    refine hr.apart.imp fun {x y} k => ?_
    obtain ⟨n, hn, hl⟩ := k
    refine ⟨n - c, by simp [renumber, hn], ?_⟩
    show n - c ≤ max 1 (y.first - c)
    omega

/-! ### Every final copy is counted once -/

/-- The copies of a run that the intervals of a list cover, whatever their cause. -/
def coveredIn (lo hi : Nat) (l : List Interval) : Nat := (l.map fun iv => iv.covered lo hi).sum

theorem coveredBy_eq (k : Cause) (lo hi : Nat) (l : List Interval) :
    coveredBy k lo hi l = coveredIn lo hi (l.filter fun iv => decide (iv.cause = k)) := by
  unfold coveredBy coveredIn; exact List.sum_eq_foldl.symm

theorem runWaste_total (lo hi : Nat) (l : List Interval) : (runWaste lo hi l).total = coveredIn lo hi l := by
  unfold Waste.total runWaste
  simp only [coveredBy_eq]
  induction l with
  | nil => rfl
  | cons x l ih =>
    unfold coveredIn at ih ⊢
    cases hx : x.cause <;> simp [hx] at ih ⊢ <;> omega

/-- Ordered intervals that begin at `n` or later cover no more of a run than lies there. -/
theorem coveredIn_le {l : List Interval} (h : IntervalsOrdered l) (lo hi n : Nat) (hn : ∀ x ∈ l, n ≤ x.first) :
    coveredIn lo hi l ≤ hi + 1 - max n (lo + 1) := by
  induction l generalizing n with
  | nil => simp [coveredIn]
  | cons x l ih =>
    have hp := List.pairwise_cons.mp h.apart
    have hx := hn x (by simp)
    have hl : IntervalsOrdered l := h.sublist (List.sublist_cons_self ..)
    have e : coveredIn lo hi (x :: l) = x.covered lo hi + coveredIn lo hi l := by simp [coveredIn]
    rw [e]
    cases hs : x.stop with
    | none =>
      have : l = [] := List.eq_nil_iff_forall_not_mem.mpr fun y hy => by
        obtain ⟨e, he, _⟩ := hp.1 y hy; rw [hs] at he; cases he
      subst this
      simp only [coveredIn, List.map_nil, List.sum_nil, Interval.covered, hs]
      omega
    | some s =>
      have h1 := h.filled x (by simp) s hs
      have h2 := ih hl s fun y hy => by
        obtain ⟨e, he, hl⟩ := hp.1 y hy; rw [hs] at he; cases he; exact hl
      have h3 : x.covered lo hi = min s (hi + 1) - max x.first (lo + 1) := by simp [Interval.covered, hs]
      omega

theorem runWaste_le {l : List Interval} (h : IntervalsOrdered l) (lo hi : Nat) : (runWaste lo hi l).total ≤ hi - lo := by
  rw [runWaste_total]
  have := coveredIn_le h lo hi 0 fun _ _ => Nat.zero_le _
  omega

/-- Copies made final are counted once each, as good or as waste (R165, R166). -/
theorem finalizeTo_books {c : LineCount} {n : Nat} (hi : IntervalsOrdered c.intervals) (hb : c.good + c.waste.total = c.finalized)
    (hn : c.finalized ≤ n) (hm : n ≤ Config.max48) : (c.finalizeTo n).good + (c.finalizeTo n).waste.total = (c.finalizeTo n).finalized := by
  have hw := runWaste_le hi c.finalized n
  unfold LineCount.finalizeTo
  simp only [Waste.total, Waste.add, satAdd] at *
  omega

end Sys2Proof.Machine
end

