-- ==== Sys2Proof/Laws/Handles.lean ====
section
/-! SUPPORT. What the rule of a message can do to the hall: one lemma for each operation such a rule is made of. Beside the
consequences of `Hall.Follows` these operations move reels, arms, missions and faults, count copies and book them. -/

-- One theorem after another: elaborated all at once they ask for more threads than the check has room for.
set_option Elab.async false

namespace Sys2Proof.Machine

/-- `b` is `a` after a message's rule: the setting is the same, what was sent or queued is still there, soundness is kept;
the counts are the same when `c` is true, and the editions and unassigned totals when `k` is true. -/
structure Hall.Handles (c k : Bool) (a b : Hall) : Prop where
  setting : b.setting = a.setting
  sent : a.sent <+: b.sent
  notices : a.notices <+: b.notices
  counts : c = true → b.counts = a.counts
  books : k = true → b.editions = a.editions ∧ b.unassigned = a.unassigned
  sound : ∀ o, a.SoundBut o → b.SoundBut o

theorem Hall.setting_of_ground {a b : Hall} (h : b.ground = a.ground) : b.setting = a.setting := by
  unfold Hall.setting; rw [h]

theorem Hall.Follows.handles {a b : Hall} {c k : Bool} (x : a.Follows b) : a.Handles c k b where
  setting := Hall.setting_of_ground x.same
  sent := x.sent
  notices := x.notices
  counts _ := by have e := congrArg Hall.counts x.same; exact e
  books _ := ⟨by have e := congrArg Hall.editions x.same; exact e, by have e := congrArg Hall.unassigned x.same; exact e⟩
  sound := x.sound

namespace Hall.Handles

variable {c k : Bool} {a b d : Hall}

theorem refl (a : Hall) : a.Handles c k a := (Follows.refl a).handles

theorem trans (x : a.Handles c k b) (y : b.Handles c k d) : a.Handles c k d where
  setting := y.setting.trans x.setting
  sent := x.sent.trans y.sent
  notices := x.notices.trans y.notices
  counts h := (y.counts h).trans (x.counts h)
  books h := ⟨(y.books h).1.trans (x.books h).1, (y.books h).2.trans (x.books h).2⟩
  sound o := y.sound o ∘ x.sound o

/-- A consequence of the rule. -/
theorem after (x : a.Handles c k b) (y : b.Follows d) : a.Handles c k d := x.trans y.handles

/-- A step that changes nothing soundness speaks of, nor the counts and the books. -/
theorem next (x : a.Handles c k b) (setting : d.setting = b.setting) (sent : b.sent <+: d.sent := by exact List.prefix_rfl)
    (notices : b.notices <+: d.notices := by exact List.prefix_rfl)
    (counts : c = true → d.counts = b.counts := by exact fun _ => rfl)
    (books : k = true → d.editions = b.editions ∧ d.unassigned = b.unassigned := by exact fun _ => ⟨rfl, rfl⟩)
    (sound : ∀ o, b.SoundBut o → d.SoundBut o := by
      exact fun _ s => ⟨s.faults, s.notices, s.counts, s.lines, s.ceilings⟩) : a.Handles c k d :=
  x.trans ⟨setting, sent, notices, counts, books, sound⟩

theorem pair {α : Type} {p : Hall × α} {q : α} (x : a.Handles c k p.1) (e : p = (d, q)) : a.Handles c k d := by
  subst e; exact x

theorem foldl {β : Type} {f : Hall → β → Hall} (hf : ∀ h x, Hall.Handles c k h (f h x)) (l : List β) (x : a.Handles c k b) :
    a.Handles c k (l.foldl f b) := by
  induction l generalizing b with
  | nil => exact x
  | cons y l ih => exact ih (x.trans (hf b y))

/-! ### Updates of the hall -/

theorem push (x : a.Handles c k b) (j : Job) : a.Handles c k (b.push j) := x.after ((Follows.refl b).push j)

theorem oweCeiling (x : a.Handles c k b) (n : Nat) : a.Handles c k (b.oweCeiling n) := x.after ((Follows.refl b).oweCeiling n)

theorem notify (x : a.Handles c k b) (n : Notice) : a.Handles c k (b.notify n) := x.after ((Follows.refl b).notify n)

theorem sendLine (x : a.Handles c k b) (n : Nat) (m : LineMsg) : a.Handles c k (b.sendLine n m) :=
  x.after ((Follows.refl b).sendLine n m)

theorem direct (x : a.Handles c k b) (v : Nat) (d : DirKind) : a.Handles c k (b.direct v d) := x.after ((Follows.refl b).direct v d)

theorem setActivity (x : a.Handles c k b) (v : Nat) (y : Activity) : a.Handles c k (b.setActivity v y) :=
  x.after ((Follows.refl b).setActivity v y)

/-- Any change of a vehicle that leaves its place and what its reports have said. -/
theorem modVehicle (x : a.Handles c k b) (v : Nat) (f : Vehicle → Vehicle)
    (hf : ∀ y, (f y).place = y.place := by intro; rfl) : a.Handles c k (b.modVehicle v f) := by
  refine x.next (congrArg (fun l => { b.setting with vehicles := l }) ?_)
  have e : ∀ t : Table Vehicle, tview Vehicle.place (tview Vehicle.fixed t) = tview Vehicle.place t := fun t => by
    simp [tview, Function.comp_def]; intro _ _ _; rfl
  show tview Vehicle.place (tview Vehicle.fixed (tmod b.vehicles v f)) = tview Vehicle.place (tview Vehicle.fixed b.vehicles)
  rw [e, e]
  exact tview_tmod Vehicle.place _ _ _ fun y _ => hf y

/-- Any change of a stand that leaves its configuration and service. -/
theorem modStand (x : a.Handles c k b) (st : StandAddr) (f : Stand → Stand)
    (hf : ∀ y, (f y).setup = y.setup := by intro; rfl) : a.Handles c k (b.modStand st f) := by
  refine x.next (congrArg (fun l => { b.setting with stands := l }) ?_)
  have e : ∀ t : Table Stand, tview Stand.setup (tview Stand.fixed t) = tview Stand.setup t := fun t => by
    simp [tview, Function.comp_def]; intro _ _ _; rfl
  show tview Stand.setup (tview Stand.fixed (tmod b.stands (standKey st) f)) = tview Stand.setup (tview Stand.fixed b.stands)
  rw [e, e]
  exact tview_tmod Stand.setup _ _ _ fun y _ => hf y

theorem modArm (x : a.Handles c k b) (st : StandAddr) (y : ArmName) (f : Arm → Arm) : a.Handles c k (b.modArm st y f) :=
  x.modStand st _ fun s => by cases y <;> rfl

theorem modMission (x : a.Handles c k b) (n : Nat) (f : Mission → Mission) : a.Handles c k (b.modMission n f) := x.next rfl

theorem modBay (x : a.Handles c k b) (y : BayAddr) (f : Bay → Bay) : a.Handles c k (b.modBay y f) := x.next rfl

theorem modZone (x : a.Handles c k b) (z : Nat) (f : Zone → Zone) (hf : ∀ y, (f y).fixed = y.fixed := by intro; rfl) :
    a.Handles c k (b.modZone z f) :=
  x.next (congrArg (fun l => { b.setting with zones := l }) (tview_tmod Zone.fixed _ _ _ fun y _ => hf y))

theorem modLine (x : a.Handles c k b) (n : Nat) (f : Line → Line) (hf : ∀ l, (f l).fixed = l.fixed := by intro; rfl)
    (hc : ∀ l, (f l).ceiling = l.ceiling := by intro; rfl) : a.Handles c k (b.modLine n f) :=
  x.after ((Follows.refl b).modLine n f hf hc)

theorem modCall (x : a.Handles c k b) (st : StandAddr) (f : Call → Call) : a.Handles c k (b.modCall st f) :=
  x.after ((Follows.refl b).modCall st f)

theorem modHandover (x : a.Handles c k b) (st : StandAddr) (f : Handover → Handover) : a.Handles c k (b.modHandover st f) :=
  x.after ((Follows.refl b).modHandover st f)

/-! ### Directives and stops -/

theorem issue (x : a.Handles c k b) (v : Nat) (y : DirKind) : a.Handles c k (b.issue v y) := x.after ((Follows.refl b).issue v y)

theorem stopVehicle (x : a.Handles c k b) (v : Nat) (y : Kept) : a.Handles c k (b.stopVehicle v y) :=
  x.after ((Follows.refl b).stopVehicle v y)

theorem haltVehicle (x : a.Handles c k b) (v : Nat) : a.Handles c k (b.haltVehicle v) := by
  unfold Hall.haltVehicle; dsimp only; split
  · exact x.stopVehicle v _
  · exact x

theorem haltFleet (x : a.Handles c k b) : a.Handles c k b.haltFleet := by
  unfold Hall.haltFleet; split
  · exact x
  · exact Handles.foldl (fun h v => (refl h).haltVehicle v) _ (x.next rfl)

/-! ### The Fault Table -/

theorem setFault (x : a.Handles c k b) (y : FaultKey) (e : FaultEntry) (he : e.active = true → e.latched = true) :
    a.Handles c k (b.setFault y e) :=
  x.next rfl (sound := fun o s => ⟨s.faults.setFault y e he, s.notices, s.counts, s.lines, s.ceilings⟩)

theorem evalHold (x : a.Handles c k b) (n : Nat) : a.Handles c k (b.evalHold n) := x.after ((Follows.refl b).evalHold n)

theorem evalSubject (x : a.Handles c k b) (y : Subject) : a.Handles c k (b.evalSubject y) := x.after ((Follows.refl b).evalSubject y)

theorem changeFault (x : a.Handles c k b) (y : FaultKey) (z : FaultChange) (e : FaultEntry)
    (he : e.active = true → e.latched = true) : a.Handles c k (b.changeFault y z e) :=
  ((x.setFault y e he).notify _).evalSubject _

theorem raise (x : a.Handles c k b) (y : FaultKey) : a.Handles c k (b.raise y) := by
  unfold Hall.raise; split
  · exact x
  · dsimp only; split
    · exact (x.changeFault _ _ _ fun _ => rfl).haltFleet
    · exact x.changeFault _ _ _ fun _ => rfl

theorem lower (x : a.Handles c k b) (y : FaultKey) : a.Handles c k (b.lower y) := by
  unfold Hall.lower; split
  · exact x.changeFault _ _ _ fun h => by simp at h
  · exact x

theorem pulse (x : a.Handles c k b) (y : FaultKey) : a.Handles c k (b.pulse y) := x.changeFault _ _ _ fun _ => rfl

theorem setActive (x : a.Handles c k b) (y : FaultKey) (v : Bool) : a.Handles c k (b.setActive y v) := by
  unfold Hall.setActive; split
  · exact x.raise y
  · exact x.lower y

theorem unlatch (x : a.Handles c k b) (y : FaultKey) : a.Handles c k (b.unlatch y) :=
  x.changeFault _ _ _ fun h => by simp [FaultEntry.clear] at h

theorem mismatch (x : a.Handles c k b) (st : StandAddr) : a.Handles c k (b.mismatch st) := x.pulse _

/-! ### Reels and custody -/

theorem stockWatch (x : a.Handles c k b) (g : Nat) : a.Handles c k (b.stockWatch g) := x.after ((Follows.refl b).stockWatch g)

theorem putReel (x : a.Handles c k b) (i : Nat) (r : Reel) : a.Handles c k (b.putReel i r) := by
  have h1 : a.Handles c k { b with reels := tput b.reels i r } := x.next rfl
  unfold Hall.putReel; dsimp only; split
  · exact h1
  · exact h1.stockWatch _

theorem bayMayBeFree (x : a.Handles c k b) (y : BayAddr) : a.Handles c k (b.bayMayBeFree y) := x.after ((Follows.refl b).bayMayBeFree y)

theorem clearPlace (x : a.Handles c k b) (l : Location) : a.Handles c k (b.clearPlace l) := by
  unfold Hall.clearPlace; split
  · exact (x.modBay _ _).bayMayBeFree _
  · exact (x.modVehicle _ _).push _
  · exact x.modArm _ _ _
  · exact x
  · exact x

theorem fillPlace (x : a.Handles c k b) (l : Location) (ref : ReelRef) : a.Handles c k (b.fillPlace l ref) := by
  unfold Hall.fillPlace; split
  · exact x.modBay _ _
  · exact x.modVehicle _ _
  · exact x.modArm _ _ _
  · exact x
  · exact x

theorem custody (x : a.Handles c k b) (ref : ReelRef) (r r' : Reel) : a.Handles c k (b.custody ref r r') := by
  unfold Hall.custody; split
  · exact x.putReel _ _
  · exact ((x.clearPlace _).fillPlace _ _).putReel _ _

theorem retryIfStored (x : a.Handles c k b) (r r' : Reel) : a.Handles c k (b.retryIfStored r r') :=
  x.after ((Follows.refl b).retryIfStored r r')

theorem handBack (x : a.Handles c k b) (r : Reel) : a.Handles c k (b.handBack r) := x.after ((Follows.refl b).handBack r)

theorem askCustody (x : a.Handles c k b) (ref : ReelRef) (y : Custody) (z : Block) (ok : Reel → Bool) (make : Reel → Hall → Hall)
    (m : Reel → Nat) (hm : ∀ r, b.Handles c k (make r b)) : a.Handles c k (b.askCustody ref y z ok make m).1 := by
  unfold Hall.askCustody; split
  · split
    · exact x.trans (hm _)
    · exact x.after ((Follows.refl b).refuseCustody _ _ _)
  · exact x.after ((Follows.refl b).refuseCustody _ _ _)

theorem askPick (x : a.Handles c k b) (v : Nat) (ref : ReelRef) (p : Option Location) : a.Handles c k (b.askPick v ref p).1 :=
  x.askCustody _ _ _ _ _ _ fun _ => (refl b).custody _ _ _

theorem askPlace (x : a.Handles c k b) (v : Nat) (ref : ReelRef) (y : BayAddr) : a.Handles c k (b.askPlace v ref y).1 :=
  x.askCustody _ _ _ _ _ _ fun _ => by
    split
    · exact ((refl b).custody _ _ _).retryIfStored _ _
    · exact refl b

theorem askPickupEmpty (x : a.Handles c k b) (ref : ReelRef) (p : Location) : a.Handles c k (b.askPickupEmpty ref p).1 :=
  x.askCustody _ _ _ _ _ _ fun _ => ((refl b).custody _ _ _).handBack _

theorem askIdMismatch (x : a.Handles c k b) (ref : ReelRef) (p : Location) : a.Handles c k (b.askIdMismatch ref p).1 :=
  x.askCustody _ _ _ _ _ _ fun _ => by
    refine Handles.handBack ?_ _
    unfold Hall.blockBay; split
    · exact ((refl b).custody _ _ _).modBay _ _
    · exact (refl b).custody _ _ _

theorem askVehicleLost (x : a.Handles c k b) (v : Nat) (ref : ReelRef) : a.Handles c k (b.askVehicleLost v ref).1 :=
  x.askCustody _ _ _ _ _ _ fun _ => ((refl b).custody _ _ _).handBack _

theorem askLoad (x : a.Handles c k b) (st : StandAddr) (y : ArmName) (v : Nat) (ref : ReelRef) :
    a.Handles c k (b.askLoad st y v ref).1 := x.askCustody _ _ _ _ _ _ fun _ => (refl b).custody _ _ _

theorem askAdopt (x : a.Handles c k b) (st : StandAddr) (y : ArmName) (ref : ReelRef) : a.Handles c k (b.askAdopt st y ref).1 :=
  x.askCustody _ _ _ _ _ _ fun _ => ((refl b).custody _ _ _).handBack _

theorem askRunStart (x : a.Handles c k b) (st : StandAddr) (y : ArmName) (ref : ReelRef) :
    a.Handles c k (b.askRunStart st y ref).1 := x.askCustody _ _ _ _ _ _ fun _ => (refl b).putReel _ _

theorem askEject (x : a.Handles c k b) (st : StandAddr) (y : ArmName) (ref : ReelRef) : a.Handles c k (b.askEject st y ref).1 :=
  x.askCustody _ _ _ _ _ _ fun _ => (refl b).custody _ _ _

theorem askUnload (x : a.Handles c k b) (st : StandAddr) (y : ArmName) (v : Nat) (ref : ReelRef) :
    a.Handles c k (b.askUnload st y v ref).1 := x.askCustody _ _ _ _ _ _ fun _ => (refl b).custody _ _ _

theorem askArmMismatch (x : a.Handles c k b) (st : StandAddr) (y : ArmName) (ref : ReelRef) :
    a.Handles c k (b.askArmMismatch st y ref).1 := x.askCustody _ _ _ _ _ _ fun _ => (refl b).custody _ _ _

theorem askRefusedAtStand (x : a.Handles c k b) (v : Nat) (ref : ReelRef) : a.Handles c k (b.askRefusedAtStand v ref).1 :=
  x.askCustody _ _ _ _ _ _ fun _ => ((refl b).custody _ _ _).handBack _

theorem askStrip (x : a.Handles c k b) (st : StandAddr) (y : ArmName) (ref : ReelRef) (n : Nat) :
    a.Handles c k (b.askStrip st y ref n).1 := x.askCustody _ _ _ _ _ _ fun _ => (refl b).putReel _ _

theorem askDiameterStep (x : a.Handles c k b) (st : StandAddr) (y : ArmName) (ref : ReelRef) (n : Nat) :
    a.Handles c k (b.askDiameterStep st y ref n).1 := x.askCustody _ _ _ _ _ _ fun _ => (refl b).putReel _ _

theorem askEnterEstimate (x : a.Handles c k b) (st : StandAddr) (y : ArmName) (ref : ReelRef) :
    a.Handles c k (b.askEnterEstimate st y ref).1 := x.askCustody _ _ _ _ _ _ fun _ => (refl b).putReel _ _

theorem askEstimateStep (x : a.Handles c k b) (st : StandAddr) (y : ArmName) (ref : ReelRef) (n : Nat) :
    a.Handles c k (b.askEstimateStep st y ref n).1 := x.askCustody _ _ _ _ _ _ fun _ => (refl b).putReel _ _

theorem addReel (x : a.Handles c k b) (i : Nat) (r : Reel) : a.Handles c k (b.addReel i r) := by
  unfold Hall.addReel; dsimp only; split
  · exact (x.putReel i r).raise _
  · exact x.putReel i r

theorem deleteReel (x : a.Handles c k b) (i : Nat) (r : Reel) : a.Handles c k (b.deleteReel i r) := by
  unfold Hall.deleteReel; dsimp only
  have h1 : a.Handles c k { b.clearPlace r.loc with reels := tdel (b.clearPlace r.loc).reels i } := (x.clearPlace _).next rfl
  split
  · exact (h1.stockWatch _).lower _
  · exact h1.lower _

theorem conditionReel (x : a.Handles c k b) (i : Nat) : a.Handles c k (b.conditionReel i) := by
  unfold Hall.conditionReel; split
  · split
    · exact (x.putReel _ _).push _
    · exact x
  · exact x

/-! ### Missions of any kind -/

theorem watchBays (x : a.Handles c k b) : a.Handles c k b.watchBays := x.setActive _ _

theorem reserve (x : a.Handles c k b) (n : Nat) (y : Option BayAddr) : a.Handles c k (b.reserve n y) :=
  x.after ((Follows.refl b).reserve n y)

theorem contentOfReturn (x : a.Handles c k b) (n : Nat) (q : Bool) : a.Handles c k (b.contentOfReturn n q) := by
  unfold Hall.contentOfReturn; split
  · split
    · dsimp only; split
      · exact x.modMission _ _
      · exact (((x.after ((Follows.refl b).dropReservation _)).modMission _ _).reserve _ _).watchBays
    · exact x
  · exact x

/-- An UNLOADING arm takes its state before unloading. -/
theorem restoreArm (x : a.Handles c k b) (st : StandAddr) (y : ArmName) (ref : Option ReelRef) :
    a.Handles c k (b.restoreArm st y ref) := by
  unfold Hall.restoreArm; split
  · split
    · rename_i s _ _
      have h1 : a.Handles c k (b.changeArm st y fun z => { z with state := (s.arm y).beforeUnload.getD .loaded, beforeUnload := none }) :=
        (x.modArm st y _).after (((Follows.refl _).easeOverdue st).oweCeiling _)
      dsimp only; split
      · exact h1.push _
      · exact h1.after ((Follows.refl _).requestPrep _ _ _)
    · exact x
  · exact x

theorem endMission (x : a.Handles c k b) (n : Nat) (o : MissionOutcome) : a.Handles c k (b.endMission n o) := by
  unfold Hall.endMission; split
  · rename_i m hm
    have h1 : a.Handles c k (Hall.notify (.missionEnd n m.kind m.reel m.vehicle o) { b with missions := tdel b.missions n }) :=
      Handles.notify (b := { b with missions := tdel b.missions n }) (x.next rfl) _
    extract_lets g1 g2 g3 g4 g5 g6
    have h3 : a.Handles c k g3 := by
      unfold g3; split
      · exact h1.modVehicle _ _
      · exact h1
    have h4 : a.Handles c k g4 := h3.after (((Follows.refl g3).dropReservation n).watchBays.oweSlots)
    have h5 : a.Handles c k g5 := by
      unfold g5; split
      · exact h4.after ((Follows.refl g4).closeHandover _)
      · exact h4
    have h6 : a.Handles c k g6 := by
      unfold g6; split
      · exact h5.restoreArm _ _ _
      · exact h5
    split
    · exact (h6.push _).oweCeiling _
    · exact h6
  · exact x

theorem releaseReel (x : a.Handles c k b) (m : Mission) (y : Block) : a.Handles c k (b.releaseReel m y) :=
  x.after ((Follows.refl b).releaseReel m y)

theorem abort (x : a.Handles c k b) (v : Nat) (y : AbortCause) : a.Handles c k (b.abort v y) := by
  unfold Hall.abort; extract_lets; split
  · exact x
  · exact (x.modVehicle v _).notify _

theorem turnToReturn (x : a.Handles c k b) (n : Nat) (q : Bool) : a.Handles c k (b.turnToReturn n q) := by
  unfold Hall.turnToReturn; split
  · rename_i m hm
    extract_lets g1 g2 g3 g4
    have h3 : a.Handles c k g3 := ((x.releaseReel m _).modMission n _).contentOfReturn n q
    have h4 : a.Handles c k g4 := by
      unfold g4; split
      · split
        · exact h3
        · exact h3.after ((Follows.refl g3).closeHandover _)
      · exact h3
    split
    · exact (h4.push _).oweCeiling _
    · exact h4
  · exact x

theorem holdAborted (x : a.Handles c k b) (v : Nat) : a.Handles c k (b.holdAborted v) := x.after ((Follows.refl b).holdAborted v)

theorem afterEnd (x : a.Handles c k b) (v : Nat) (y : MissionKind) (z : Activity) : a.Handles c k (b.afterEnd v y z) :=
  x.after ((Follows.refl b).afterEnd v y z)

theorem carry (x : a.Handles c k b) (n : Nat) : a.Handles c k (b.carry n) := x.after ((Follows.refl b).carry n)

theorem cancelBeforePick (x : a.Handles c k b) (n : Nat) (o : MissionOutcome) : a.Handles c k (b.cancelBeforePick n o) := by
  unfold Hall.cancelBeforePick; split
  · rename_i m hm
    have h1 := (x.releaseReel m .fleetController).endMission n o
    dsimp only; split
    · exact (h1.direct _ _).afterEnd _ _ _
    · exact h1
  · exact x

theorem hostCancel (x : a.Handles c k b) (n : Nat) (m : Mission) : a.Handles c k (b.hostCancel n m).1 := by
  unfold Hall.hostCancel; split
  · exact x.cancelBeforePick _ _
  · split
    · exact ((((x.endMission _ _).direct _ _).setActivity _ _).push _).push _
    · split
      · exact x
      · split
        · exact (x.abort _ _).cancelBeforePick _ _
        · split
          · exact (x.abort _ _).cancelBeforePick _ _
          · split
            · exact x
            · exact ((x.abort _ _).turnToReturn _ _).holdAborted _

theorem cancelMissionOf (x : a.Handles c k b) (ref : ReelRef) : a.Handles c k (b.cancelMissionOf ref) := by
  unfold Hall.cancelMissionOf; split
  · exact x.cancelBeforePick _ _
  · exact x

theorem loseMission (x : a.Handles c k b) (n : Nat) : a.Handles c k (b.loseMission n) := by
  unfold Hall.loseMission; split
  · rename_i m hm
    have h1 := (x.releaseReel m .fleetController).endMission n .aborted
    dsimp only; split
    · split
      · exact h1.after ((Follows.refl _).makeIntake _)
      · exact h1
    · exact h1
  · exact x

/-! ### Arms and stands -/

theorem easeOverdue (x : a.Handles c k b) (st : StandAddr) : a.Handles c k (b.easeOverdue st) := x.after ((Follows.refl b).easeOverdue st)

theorem requestPrep (x : a.Handles c k b) (st : StandAddr) (y : ArmName) (n : Nat) : a.Handles c k (b.requestPrep st y n) :=
  x.after ((Follows.refl b).requestPrep st y n)

theorem endPrep (x : a.Handles c k b) (st : StandAddr) : a.Handles c k (b.endPrep st) := x.after ((Follows.refl b).endPrep st)

theorem changeArm (x : a.Handles c k b) (st : StandAddr) (y : ArmName) (f : Arm → Arm) : a.Handles c k (b.changeArm st y f) :=
  ((x.modArm st y f).easeOverdue st).oweCeiling _

theorem emptyArm (x : a.Handles c k b) (st : StandAddr) (y : ArmName) : a.Handles c k (b.emptyArm st y) := by
  have h1 := ((x.modStand st fun s => { s with running := s.running.filter (· ≠ y) }).changeArm st y
    fun z => { z with state := .empty, reel := none, beforeUnload := none }).push (.callTest st)
  unfold Hall.emptyArm; dsimp only; split
  · exact h1.push _
  · exact h1

theorem loadArm (x : a.Handles c k b) (st : StandAddr) (y : ArmName) : a.Handles c k (b.loadArm st y) :=
  (x.modStand st _).changeArm st y _

theorem setArmState (x : a.Handles c k b) (st : StandAddr) (y : ArmName) (z : ArmState) : a.Handles c k (b.setArmState st y z) :=
  (x.modStand st _).changeArm st y _

theorem setMode (x : a.Handles c k b) (st : StandAddr) (m : Mode) : a.Handles c k (b.setMode st m) := by
  have h1 := (x.modStand st fun s => { s with mode := m }).oweCeiling st.line
  unfold Hall.setMode; dsimp only
  split <;> split
  · exact (h1.push _).push _
  · exact h1.push _
  · exact h1.push _
  · exact h1

theorem dropCallReel (x : a.Handles c k b) (st : StandAddr) (o : CallOutcome) (ref : ReelRef) (slot : Option Nat) :
    a.Handles c k (b.dropCallReel st o ref slot) := by
  unfold Hall.dropCallReel
  extract_lets release
  have hr : a.Handles c k (release b) := by
    unfold release; split
    · exact x.after ((Follows.refl b).askRelease _ _ _ _)
    · exact x
  split
  · split
    · exact hr
    · split
      · exact hr
      · split
        · split
          · split
            · exact ((x.abort _ _).turnToReturn _ _).holdAborted _
            · exact (x.turnToReturn _ _).after ((Follows.refl _).resumeMission _)
          · exact hr
        · exact x.cancelBeforePick _ _
  · exact hr

theorem endCall (x : a.Handles c k b) (st : StandAddr) (o : CallOutcome) (l : Option ReelRef) : a.Handles c k (b.endCall st o l) := by
  unfold Hall.endCall; split
  · have h1 := (x.modStand st fun s => { s with call := none }).oweCeiling st.line
    refine Handles.notify ?_ _
    split
    · split
      · exact h1
      · exact h1.dropCallReel _ _ _ _
    · split
      · exact h1.lower _
      · exact h1
  · exact x

theorem loaded (x : a.Handles c k b) (st : StandAddr) (y : ArmName) (ref : ReelRef) : a.Handles c k (b.loaded st y ref) :=
  ((x.loadArm st y).endCall _ _ _).requestPrep _ _ _

theorem lockTest (x : a.Handles c k b) (st : StandAddr) : a.Handles c k (b.lockTest st) := by
  unfold Hall.lockTest; split
  · exact x.setMode _ _
  · exact x

theorem starveTest (x : a.Handles c k b) (st : StandAddr) : a.Handles c k (b.starveTest st) := x.after ((Follows.refl b).starveTest st)

theorem spliceTest (x : a.Handles c k b) (st : StandAddr) : a.Handles c k (b.spliceTest st) := x.after ((Follows.refl b).spliceTest st)

theorem diameterTests (x : a.Handles c k b) (st : StandAddr) : a.Handles c k (b.diameterTests st) :=
  (((x.lockTest st).spliceTest st).oweCeiling _).push _

theorem afterSplice (x : a.Handles c k b) (st : StandAddr) : a.Handles c k (b.afterSplice st) :=
  ((x.setMode st _).lockTest st).starveTest st

theorem setOutcome (x : a.Handles c k b) (st : StandAddr) (r : SpliceRecord) (o : SpliceOutcome) :
    a.Handles c k (b.setOutcome st r o) := (x.modStand st _).notify _

theorem breakSplice (x : a.Handles c k b) (st : StandAddr) : a.Handles c k (b.breakSplice st) := by
  unfold Hall.breakSplice; split
  · exact ((x.setOutcome _ _ _).modStand st _).setMode _ _
  · exact x

theorem breakSplices (x : a.Handles c k b) (n : Nat) : a.Handles c k (b.breakSplices n) :=
  x.foldl (fun h st => (refl h).breakSplice st) _

theorem spliceAborted (x : a.Handles c k b) (st : StandAddr) (r : SpliceRecord) : a.Handles c k (b.spliceAborted st r) := by
  refine Handles.afterSplice ?_ st
  exact ((x.setOutcome _ _ _).pulse _).modStand st _ fun s => by split <;> rfl

theorem spliceFailed (x : a.Handles c k b) (st : StandAddr) (r : SpliceRecord) : a.Handles c k (b.spliceFailed st r) :=
  ((((x.setOutcome _ _ _).loadArm _ _).requestPrep _ _ _).pulse _).afterSplice st

/-! ### Bookings -/

theorem book (x : a.Handles c false b) (n : Nat) (f : Edition → Edition) (g : Totals → Totals) : a.Handles c false (b.book n f g) := by
  unfold Hall.book; split
  · exact x.next rfl (books := fun h => by cases h)
  · exact x.next rfl (books := fun h => by cases h)

theorem bookPrinted (x : a.Handles c false b) (n m w g : Nat) : a.Handles c false (b.bookPrinted n m w g) := by
  unfold Hall.bookPrinted; split
  · exact x
  · exact x.book _ _ _

theorem bookWhite (x : a.Handles c false b) (n m w g : Nat) : a.Handles c false (b.bookWhite n m w g) := by
  unfold Hall.bookWhite; split
  · exact x
  · exact x.book _ _ _

theorem reportRun (x : a.Handles c false b) (n : Nat) (y : ReelId) : a.Handles c false (b.reportRun n y) := x.book _ _ _

theorem bookCopies (x : a.Handles c false b) (n g : Nat) (w : Waste) : a.Handles c false (b.bookCopies n g w) := by
  have h1 : a.Handles c false (b.modTotals n fun t => t.addCopies g w) := x.next rfl (books := fun h => by cases h)
  unfold Hall.bookCopies; split
  · split
    · exact h1
    · rename_i slot e _ _
      have h2 : a.Handles c false { b with editions := tput b.editions slot (e.addCopies g w) } :=
        x.next rfl (books := fun h => by cases h)
      dsimp only; split
      · exact h2.notify _
      · exact h2
  · exact h1

theorem runArm (x : a.Handles c false b) (st : StandAddr) (y : ArmName) : a.Handles c false (b.runArm st y) := by
  have h1 := (x.modStand st fun s => { s with running := some y }).changeArm st y
    fun x => { x with state := .running, carry := 0, beforeUnload := none }
  unfold Hall.runArm; dsimp only; split
  · exact (h1.askRunStart _ _ _).reportRun _ _
  · exact h1

theorem eject (x : a.Handles c false b) (st : StandAddr) (y : ArmName) : a.Handles c false (b.eject st y) := by
  unfold Hall.eject; split
  · rename_i ref _
    have h1 := (x.askEject st y ref).emptyArm st y
    dsimp only; split
    · exact (h1.bookWhite _ _ _ _).lower _
    · exact h1.lower _
  · exact (x.emptyArm _ _).lower _

/-! ### Counting -/

/-- A change of a line's counts that keeps them sound. -/
theorem modCount (x : a.Handles false k b) (n : Nat) (f : LineCount → LineCount)
    (hf : ∀ y, tget b.counts n = some y → y.Sound → (f y).Sound) : a.Handles false k (b.modCount n f) := by
  refine x.next rfl (counts := fun h => by cases h) (sound := fun o s => ⟨s.faults, s.notices, fun m y hy => ?_, s.lines, s.ceilings⟩)
  unfold Hall.modCount at hy
  simp only [tget_tmod] at hy
  split at hy
  · rename_i e; subst e
    obtain ⟨z, hz, rfl⟩ := Option.map_eq_some_iff.mp hy
    exact hf z hz (s.counts m z hz)
  · exact s.counts m y hy

/-- A change of a line's intervals that keeps the room and the order of the list. -/
theorem modIntervals (x : a.Handles false k b) (n : Nat) (f : LineCount → List Interval)
    (hf : ∀ y, tget b.counts n = some y → y.Sound → (f y).length ≤ Config.intervalSlots)
    (ho : ∀ y, tget b.counts n = some y → y.Sound → IntervalsOrdered (f y)) :
    a.Handles false k (b.modCount n fun y => { y with intervals := f y }) :=
  x.modCount n _ fun y hy s => ⟨s.range, s.order, s.depth, hf y hy s, ho y hy s, s.books⟩

theorem sendAll {c : Bool} (x : a.Handles c k b) (n : Nat) (ms : List LineMsg) : a.Handles c k (b.sendAll n ms) :=
  x.foldl (fun h m => (refl h).sendLine n m) _

end Hall.Handles

@[simp] theorem Hall.sendAll_counts (h : Hall) (n : Nat) (ms : List LineMsg) : (h.sendAll n ms).counts = h.counts := by
  unfold Hall.sendAll
  induction ms generalizing h with
  | nil => rfl
  | cons m ms ih => rw [List.foldl_cons, ih]; rfl

theorem retire_length (f : Nat) (l : List Interval) : (retire f l).length ≤ l.length := List.length_filter_le ..

theorem LineCount.finalizeTo_sound {y : LineCount} {n : Nat} (hr : y.counted ≤ Config.max48) (hn : n ≤ y.counted)
    (hf : y.finalized ≤ n) (hd : y.counted - n ≤ y.cfg.depth) (hi : y.intervals.length ≤ Config.intervalSlots)
    (ho : IntervalsOrdered y.intervals) (hb : y.good + y.waste.total = y.finalized) : (y.finalizeTo n).Sound :=
  ⟨hr, hn, hd, (retire_length ..).trans hi, retire_ordered ho n, finalizeTo_books ho hb hf (hn.trans hr)⟩

theorem replaceInterval_length (p q : Interval) (l : List Interval) : (replaceInterval p q l).length = l.length := List.length_map ..

theorem insertInterval_length (p : Interval) (l : List Interval) : (insertInterval p l).length = l.length + 1 := by
  induction l with
  | nil => rfl
  | cons q l ih => unfold insertInterval; split <;> simp [ih]

theorem joinRight_length (l : Interval) (e : Option Nat) (o : Offer) : (joinRight l e o).ivs.length ≤ o.ivs.length := by
  unfold joinRight; dsimp only; split
  · simp only [replaceInterval_length]; exact List.length_erase_le ..
  · simp [replaceInterval_length]

theorem placePortion_length (k : Cause) (o : Offer) (p : Nat × Option Nat) (h : o.ivs.length ≤ Config.intervalSlots) :
    (placePortion k o p).ivs.length ≤ Config.intervalSlots := by
  unfold placePortion; split
  · exact (joinRight_length ..).trans h
  · split
    · simpa [replaceInterval_length] using h
    · split
      · simp only [insertInterval_length]; omega
      · split
        · exact (joinRight_length ..).trans h
        · split
          · rename_i e; rw [e] at h; simpa using h
          · exact h

/-- The list holds at most eight intervals (R169, R171). -/
theorem offerInterval_length (f : Nat) (l : List Interval) (a : Nat) (e : Option Nat) (k : Cause)
    (h : l.length ≤ Config.intervalSlots) : (offerInterval f l a e k).ivs.length ≤ Config.intervalSlots := by
  unfold offerInterval; dsimp only; split
  · exact h
  · have : ∀ (ps : List (Nat × Option Nat)) (o : Offer), o.ivs.length ≤ Config.intervalSlots →
        (ps.foldl (placePortion k) o).ivs.length ≤ Config.intervalSlots := fun ps => by
      induction ps with
      | nil => exact fun _ h => h
      | cons p ps ih => exact fun o h => ih _ (placePortion_length k o p h)
    exact this _ _ h

namespace Hall.Handles

variable {c k : Bool} {a b d : Hall}

/-- Finalizing up to a copy that has been counted. -/
theorem finalizeTo (x : a.Handles false false b) (n m : Nat) (hm : ∀ y, tget b.counts n = some y → m ≤ y.counted) :
    a.Handles false false (b.finalizeTo n m) := by
  unfold Hall.finalizeTo; split
  · rename_i y hy
    split
    · exact x
    · refine Handles.bookCopies (x.modCount n _ fun z hz s => ?_) _ _ _
      have e : some y = some z := hy.symm.trans hz
      cases e
      exact LineCount.finalizeTo_sound s.range (hm _ hz) (by omega) (by have := s.depth; have := s.order; omega) s.room s.list s.books
  · exact x

theorem finalizeAll (x : a.Handles false false b) (n : Nat) : a.Handles false false (b.finalizeAll n) := by
  unfold Hall.finalizeAll; split
  · rename_i y hy
    refine x.finalizeTo n _ fun z hz => ?_
    have e : some y = some z := hy.symm.trans hz
    cases e; exact Nat.le_refl _
  · exact x

/-- A change of a line's counts followed by the finalizing of what lies deeper than the buffer (R165, R167). -/
theorem recountDepth (x : a.Handles false false b) (n : Nat) (f : LineCount → LineCount)
    (hf : ∀ y : LineCount, y.Sound → (f y).counted ≤ Config.max48 ∧ (f y).finalized ≤ (f y).counted ∧
      (f y).intervals = y.intervals ∧ (f y).good + (f y).waste.total = (f y).finalized) : a.Handles false false ((b.modCount n f).finalizeDepth n) := by
  cases hy : tget b.counts n with
  | none =>
    have e1 : (b.modCount n f).finalizeDepth n = b.modCount n f := by
      unfold Hall.finalizeDepth Hall.count Hall.modCount; simp [hy]
    rw [e1]
    exact x.modCount n f fun y h => by rw [hy] at h; cases h
  | some y =>
    have e0 : tget (b.modCount n f).counts n = some (f y) := by simp [Hall.modCount, hy]
    by_cases hle : (f y).counted - (f y).cfg.depth ≤ (f y).finalized
    · have e1 : (b.modCount n f).finalizeDepth n = b.modCount n f := by
        unfold Hall.finalizeDepth Hall.count; rw [e0]
        unfold Hall.finalizeTo Hall.count; simp only [e0]; rw [if_pos hle]
      rw [e1]
      refine x.modCount n f fun z hz s => ?_
      have e : some y = some z := hy.symm.trans hz
      cases e
      obtain ⟨h1, h2, h3, h4⟩ := hf y s
      exact ⟨h1, h2, by omega, h3 ▸ s.room, h3 ▸ s.list, h4⟩
    · have e1 : (b.modCount n f).finalizeDepth n =
          ((b.modCount n fun y => (f y).finalizeTo ((f y).counted - (f y).cfg.depth)).bookCopies n
            ((f y).counted - (f y).cfg.depth - (f y).finalized -
              (runWaste (f y).finalized ((f y).counted - (f y).cfg.depth) (f y).intervals).total)
            (runWaste (f y).finalized ((f y).counted - (f y).cfg.depth) (f y).intervals)) := by
        unfold Hall.finalizeDepth Hall.count; rw [e0]
        unfold Hall.finalizeTo Hall.count; simp only [e0]; rw [if_neg hle]
        congr 1
        unfold Hall.modCount
        congr 1
        exact tmod_tmod_congr hy rfl
      rw [e1]
      refine Handles.bookCopies (x.modCount n _ fun z hz s => ?_) _ _ _
      have e : some y = some z := hy.symm.trans hz
      cases e
      obtain ⟨h1, h2, h3, h4⟩ := hf y s
      exact LineCount.finalizeTo_sound h1 (by omega) (by omega) (by omega) (h3 ▸ s.room) (h3 ▸ s.list) h4

theorem schedule (x : a.Handles false k b) (n : Nat) : a.Handles false k (b.schedule n) := by
  unfold Hall.schedule; split
  · split
    · dsimp only
      exact (x.sendAll n _).modIntervals n _ (fun y _ s => by simpa using s.room) fun y _ s =>
        s.list.map fun iv => by unfold LineCount.markSent; split <;> exact ⟨rfl, rfl⟩
    · exact x
  · exact x

theorem unsend (x : a.Handles false k b) (n : Nat) : a.Handles false k (b.unsend n) :=
  x.modIntervals n _ (fun y _ s => by simpa using s.room) fun y _ s => s.list.map fun _ => ⟨rfl, rfl⟩

theorem forget (x : a.Handles false k b) (n : Nat) : a.Handles false k (b.forget n) :=
  x.modCount n _ fun y _ s => ⟨s.range, s.order, s.depth, by simpa using s.room,
    s.list.map fun iv => by unfold Interval.forget; split <;> exact ⟨rfl, rfl⟩, s.books⟩

theorem offer (x : a.Handles false k b) (n m : Nat) (e : Option Nat) (y : Cause) : a.Handles false k (b.offer n m e y) := by
  unfold Hall.offer; split
  · rename_i z hz
    have same : ∀ ms w, tget (b.sendAll n ms).counts n = some w → z = w := fun ms w hw => by
      rw [Hall.sendAll_counts] at hw; exact Option.some.inj (hz.symm.trans hw)
    exact (x.sendAll n _).modIntervals n _ (fun w hw s => offerInterval_length _ _ _ _ _ (same _ w hw ▸ s.room))
      fun w hw s => offerInterval_ordered (same _ w hw ▸ s.list) _ _ _
  · exact x

theorem testStart (x : a.Handles c k b) (n : Nat) : a.Handles c k (b.testStart n) := x.setActive _ _

theorem easeStart (x : a.Handles c k b) (n : Nat) : a.Handles c k (b.easeStart n) := by
  unfold Hall.easeStart; split
  · exact x
  · exact x.lower _

/-- An interval is offered, and the schedule follows a change of the list. -/
theorem divert (x : a.Handles false k b) (n m : Nat) (e : Option Nat) (y : Cause) : a.Handles false k (b.divert n m e y) := by
  unfold Hall.divert; dsimp only; split
  · exact x.offer _ _ _ _
  · exact (x.offer _ _ _ _).schedule _

theorem spliceCut (x : a.Handles false k b) (n w : Nat) (g : GateCount) : a.Handles false k (b.spliceCut n w g) := by
  unfold Hall.spliceCut; split
  · exact x.divert _ _ _ _
  · exact x

theorem openBreak (x : a.Handles false k b) (n : Nat) : a.Handles false k (b.openBreak n) := by
  unfold Hall.openBreak; split
  · exact x.divert _ _ _ _
  · exact x

theorem closeOpen (x : a.Handles false k b) (n e : Nat) (y : Cause) : a.Handles false k (b.closeOpen n e y) := by
  unfold Hall.closeOpen; split
  · split
    · rename_i c _ _
      have h1 : a.Handles false k ((b.sendAll n ((c.emptied e).map fun k => .gateEnd k k)).modCount n fun c => c.endOpen e) :=
        (x.sendAll n _).modIntervals n _ (fun y _ s => (List.length_filterMap_le ..).trans s.room) fun y _ s => endOpen_ordered s.list e
      dsimp only; split
      · exact ((h1.offer _ _ _ _).schedule _).easeStart _
      · exact (h1.schedule _).easeStart _
    · exact x
  · exact x

theorem satAdd_le {l a b : Nat} : satAdd l a b ≤ l := Nat.min_le_left ..

theorem le_satAdd {l a b : Nat} (h : a ≤ l) : a ≤ satAdd l a b := by unfold satAdd; omega

theorem takeCount (x : a.Handles false false b) (n : Nat) (g : GateCount) : a.Handles false false (b.takeCount n g) := by
  unfold Hall.takeCount; split
  · exact x
  · split
    · exact x.modCount n _ fun y _ s => ⟨s.range, s.order, s.depth, s.room, s.list, s.books⟩
    · dsimp only; split
      · refine Handles.lower ?_ _
        exact x.recountDepth n (fun c => { c with counted := satAdd Config.max48 c.counted _, gate := some g })
          fun y s => ⟨satAdd_le, s.order.trans (le_satAdd s.range), rfl, s.books⟩
      · refine Handles.raise (Handles.forget (Handles.unsend ?_ n) n) _
        exact x.modCount n (fun c => { c with gate := some g }) fun y _ s => ⟨s.range, s.order, s.depth, s.room, s.list, s.books⟩

theorem recount (x : a.Handles false false b) (n : Nat) (y : CountCfg) : a.Handles false false (b.recount n y) := by
  have h1 := x.recountDepth n (fun c => { c with cfg := y }) fun z s => ⟨s.range, s.order, rfl, s.books⟩
  unfold Hall.recount; dsimp only; split
  · exact h1.evalHold _
  · exact (h1.testStart _).evalHold _

theorem sendRaised (x : a.Handles false k b) (n : Nat) : a.Handles false k (b.sendRaised n) := by
  unfold Hall.sendRaised; split
  · rename_i z hz
    split
    · rename_i iv rest hi
      split
      · have same : ∀ y, tget (b.sendAll n (z.messages iv)).counts n = some y → y.intervals = iv :: rest := fun y hy => by
          rw [Hall.sendAll_counts] at hy
          rw [← hi, Option.some.inj (hz.symm.trans hy)]
        refine (x.sendAll n _).modIntervals n _ (fun y hy s => ?_) fun y hy s => ?_
        · have := s.room
          rw [same y hy] at this; simpa using this
        · have := s.list
          rw [same y hy] at this
          exact this.head (by unfold LineCount.markSent; split <;> rfl) (by unfold LineCount.markSent; split <;> rfl)
      · exact x
    · exact x
  · exact x

theorem clearCounts (x : a.Handles false k b) (n : Nat) (y : LineCount) : a.Handles false k (b.clearCounts n y) := by
  have h1 : a.Handles false k (b.modCount n LineCount.cleared) := x.modCount n _ fun z _ s =>
    ⟨Nat.zero_le _, Nat.le_refl _, Nat.zero_le _, by
      have := s.room
      have := retire_length z.counted z.intervals
      simp only [LineCount.cleared, List.length_map]; omega, renumber_ordered s.list _, rfl⟩
  unfold Hall.clearCounts; dsimp only; split
  · exact h1.sendRaised n
  · exact h1

end Hall.Handles

end Sys2Proof.Machine
end

