-- ==== Sys2Proof/Laws/HandlesPress.lean ====
section
/-! SUPPORT. What the rules of a press line's messages do to the hall, and what a host request on a stand does to its arms. -/

-- One theorem after another: elaborated all at once they ask for more threads than the check has room for.
set_option Elab.async false

namespace Sys2Proof.Machine

namespace Hall.Handles

variable {c k : Bool} {a b d : Hall}

/-! ### Splices -/

theorem bookSplice (x : a.Handles c false b) (n : Nat) : a.Handles c false (b.bookSplice n) := x.book _ _ _

theorem bookBreak (x : a.Handles c false b) (n : Nat) : a.Handles c false (b.bookBreak n) := x.book _ _ _

theorem webMoves (x : a.Handles false false b) (st : StandAddr) (r : SpliceRecord) (g : GateCount) :
    a.Handles false false (b.webMoves st r g) := ((x.runArm _ _).changeArm _ _ _).spliceCut _ _ _

theorem spliceDone (x : a.Handles false false b) (st : StandAddr) (r : SpliceRecord) (g : GateCount) :
    a.Handles false false (b.spliceDone st r g) := ((((x.setOutcome _ _ _).webMoves _ _ _).bookSplice _).modStand st _).afterSplice st

theorem cutFailed (x : a.Handles false false b) (st : StandAddr) (r : SpliceRecord) (g : GateCount) :
    a.Handles false false (b.cutFailed st r g) := ((((x.setOutcome _ _ _).webMoves _ _ _).modStand st _).afterSplice st).raise _

/-! ### Loads, adoptions and arm mismatches -/

theorem loadFinished (x : a.Handles c k b) (y : Handover) : a.Handles c k (b.loadFinished y) := (x.endMission _ _).afterEnd _ _ _

theorem unloadFinished (x : a.Handles c k b) (st : StandAddr) (y : Handover) : a.Handles c k (b.unloadFinished st y) :=
  (x.after ((Follows.refl b).closeHandover st)).carry _

theorem loadTaken (x : a.Handles c k b) (st : StandAddr) (y : Handover) : a.Handles c k (b.loadTaken st y) := by
  have h0 := x.askLoad st y.arm y.vehicle y.reel
  unfold Hall.loadTaken; extract_lets g1 g2
  have h1 : a.Handles c k g1 := by
    unfold g1; split <;> (rename_i e; rw [e] at h0)
    · exact h0.loaded _ _ _
    · exact (h0.mismatch _).emptyArm _ _
  split
  · exact (h1.modHandover _ _).loadFinished _
  · exact h1.modHandover _ _

theorem takeLoaded (x : a.Handles c k b) (st : StandAddr) (y : ArmName) (id : ReelId) : a.Handles c k (b.takeLoaded st y id) := by
  unfold Hall.takeLoaded; split
  · split
    · exact x.loadTaken _ _
    · split
      · rename_i v ref _
        have h0 := x.askLoad st y v ref
        split <;> (rename_i e; rw [e] at h0)
        · exact h0.loaded _ _ _
        · exact h0.mismatch _
      · exact x.mismatch _
  · exact x

theorem adopted (x : a.Handles c false b) (st : StandAddr) (y : ArmName) (ref : ReelRef) (r : Option Role) :
    a.Handles c false (b.adopted st y ref r) := by
  unfold Hall.adopted; split
  · exact (x.endCall _ _ _).runArm _ _
  · exact ((x.setArmState _ _ _).endCall _ _ _).push _
  · exact (x.setArmState _ _ _).endCall _ _ _
  · exact x.loaded _ _ _
  · exact x.loaded _ _ _

theorem adopt (x : a.Handles c false b) (st : StandAddr) (y : ArmName) (ref : ReelRef) (r : Option Role) :
    a.Handles c false (b.adopt st y ref r).1 := by
  have h0 := x.askAdopt st y ref
  unfold Hall.adopt; split <;> (rename_i e; rw [e] at h0)
  · exact (h0.cancelMissionOf _).adopted _ _ _ _
  · exact h0

theorem lostRunning (x : a.Handles c k b) (st : StandAddr) : a.Handles c k (b.lostRunning st) := by
  unfold Hall.lostRunning; split
  · exact (x.setMode _ _).lower _
  · exact x

theorem cancelUnload (x : a.Handles c k b) (st : StandAddr) (y : ArmName) (ref : ReelRef) :
    a.Handles c k (b.cancelUnload st y ref) := by
  unfold Hall.cancelUnload; split
  · exact x.cancelBeforePick _ _
  · exact x

theorem armMismatch (x : a.Handles c false b) (st : StandAddr) (y : ArmName) (ref : ReelRef) :
    a.Handles c false (b.armMismatch st y ref) := by
  have h0 := x.askArmMismatch st y ref
  unfold Hall.armMismatch; extract_lets was r
  clear_value was r
  split; rename_i g1 m e; rw [e] at h0
  extract_lets g2 g3 g4
  have h3 : a.Handles c false g3 := by
    unfold g3; split
    · exact (h0.emptyArm _ _).bookPrinted _ _ _ _
    · exact h0.emptyArm _ _
  have h4 : a.Handles c false g4 := (h3.mismatch _).endPrep _
  clear_value g4
  cases was <;> dsimp only
  case running => exact h4.lostRunning _
  case unloading => exact h4.cancelUnload _ _ _
  case expired => exact h4.lower _
  all_goals exact h4

theorem emptyShows (x : a.Handles c false b) (st : StandAddr) (y : ArmName) (i : Option ReelId) (r : Option Role) :
    a.Handles c false (b.emptyShows st y i r) := by
  unfold Hall.emptyShows; split
  · exact x
  · split
    · rename_i j _ _
      split
      · rename_i e; exact (x.adopt st y _ r).pair e
      · rename_i e; exact ((x.adopt st y _ r).pair e).mismatch _
    · exact x.mismatch _

theorem vacate (x : a.Handles c false b) (st : StandAddr) (y : ArmName) : a.Handles c false (b.vacate st y) := by
  unfold Hall.vacate; split
  · exact x
  · exact x
  · exact x.eject _ _
  · exact ((x.emptyArm _ _).endPrep _).lostRunning _
  all_goals exact (x.emptyArm _ _).endPrep _

theorem takeOccupancy (x : a.Handles c false b) (st : StandAddr) (y : ArmName) (i : Option ReelId) (r : Option Role) :
    a.Handles c false (b.takeOccupancy st y i r) := by
  unfold Hall.takeOccupancy; split
  · exact x
  · split
    · split
      · exact x
      · split
        · exact x.eject _ _
        · exact (x.armMismatch _ _ _).emptyShows _ _ _ _
    · split
      · split
        · exact x
        · split
          · exact x.loadTaken _ _
          · exact x.mismatch _
      · exact (x.vacate _ _).emptyShows _ _ _ _

theorem takeRole (x : a.Handles c false b) (st : StandAddr) (y : ArmName) (r : Role) : a.Handles c false (b.takeRole st y r) := by
  unfold Hall.takeRole; split
  · split
    · exact x
    · extract_lets g
      have h1 : a.Handles c false g := by
        unfold g; split
        · exact x.cancelUnload _ _ _
        · exact x
      clear_value g
      split
      · split
        · exact h1
        · exact h1.runArm _ _
      · split
        · exact h1
        · exact (h1.setArmState _ _ _).push _
      · split
        · exact h1
        · exact h1.setArmState _ _ _
      · split
        · exact h1
        · exact (h1.loadArm _ _).requestPrep _ _ _
  · exact x

theorem trimPrep (x : a.Handles c k b) (st : StandAddr) : a.Handles c k (b.trimPrep st) := by
  unfold Hall.trimPrep; split
  · exact x
  · exact x.endPrep _

theorem knowArms (x : a.Handles c k b) (st : StandAddr) : a.Handles c k (b.knowArms st) := x.modStand st _

theorem takeRoles (x : a.Handles c false b) (st : StandAddr) (y z : ArmReading) : a.Handles c false (b.takeRoles st y z) := by
  unfold Hall.takeRoles; extract_lets both g
  have h1 : a.Handles c false g := (x.takeRole _ _ _).takeRole _ _ _
  clear_value both g
  cases both
  · exact (h1.trimPrep _).knowArms _
  · exact ((h1.mismatch _).trimPrep _).knowArms _

theorem rolesTaken (x : a.Handles c k b) (st : StandAddr) (y : Option ArmName) : a.Handles c k (b.rolesTaken st y) := by
  unfold Hall.rolesTaken; split
  · rename_i s _
    extract_lets g g'
    have h1 : a.Handles c k g := by
      unfold g; generalize s.mode = m
      have h2 := (x.setMode st .normal).lower (standFault .standStarved st)
      cases m <;> dsimp only
      case unknown => exact x.setMode _ _
      case locked => split <;> assumption
      case starved => split <;> assumption
      all_goals exact x
    have h2 : a.Handles c k g' := h1.lockTest st
    clear_value g'
    split
    · exact h2
    · exact h2.starveTest st
  · exact x

theorem compareRole (x : a.Handles c k b) (st : StandAddr) (y : ArmName) (z : ArmReading) : a.Handles c k (b.compareRole st y z) := by
  unfold Hall.compareRole; split
  · exact x
  · exact x.mismatch _

theorem takeStatus (x : a.Handles c false b) (st : StandAddr) (y z : ArmReading) : a.Handles c false (b.takeStatus st y z) := by
  unfold Hall.takeStatus; split
  · exact x
  · extract_lets roles both g1 g2
    have h2 : a.Handles c false g2 := (x.takeOccupancy _ _ _ _).takeOccupancy _ _ _ _
    split
    · split
      · exact (h2.takeRoles _ _ _).rolesTaken _ _
      · exact ((h2.takeRoles _ _ _).rolesTaken _ _).modStand st _
    · exact (h2.compareRole _ _ _).compareRole _ _ _

/-! ### Arm events -/

theorem loadOk (x : a.Handles c k b) (st : StandAddr) (y : Handover) : a.Handles c k (b.loadOk st y) :=
  ((x.modHandover _ _).changeArm _ _ _).direct _ _

theorem loadRefuse (x : a.Handles c k b) (st : StandAddr) (n : Nat) (y : Handover) : a.Handles c k (b.loadRefuse st n y) :=
  ((((x.askRefusedAtStand _ _).abort _ _).turnToReturn _ _).holdAborted _).notify _

theorem stripReel (x : a.Handles c false b) (st : StandAddr) (y : ArmName) : a.Handles c false (b.stripReel st y) := by
  unfold Hall.stripReel; split
  · exact x
  · split
    · exact x
    · split
      · exact x
      · split
        · rename_i e; exact ((x.askStrip _ _ _ _).pair e).bookWhite _ _ _ _
        · rename_i e; exact (x.askStrip _ _ _ _).pair e

theorem becomePrepared (x : a.Handles c false b) (st : StandAddr) (y : ArmName) : a.Handles c false (b.becomePrepared st y) :=
  (((x.changeArm _ _ _).endPrep _).stripReel _ _).push _

theorem unloaded (x : a.Handles c false b) (st : StandAddr) (y : Handover) : a.Handles c false (b.unloaded st y) := by
  have h0 := x.askUnload st y.arm y.vehicle y.reel
  unfold Hall.unloaded; extract_lets r
  clear_value r
  split; rename_i g1 m e; rw [e] at h0
  extract_lets g2 g3 g4
  have h2 : a.Handles c false g2 := by
    unfold g2; split
    · exact h0.bookPrinted _ _ _ _
    · exact h0
  have h3 : a.Handles c false g3 := h2.emptyArm _ _
  have h4 : a.Handles c false g4 := h3.modHandover _ _
  split
  · exact h3
  · split
    · exact h4.unloadFinished _ _
    · exact h4

theorem unloadedAlone (x : a.Handles c false b) (st : StandAddr) (y : ArmName) (s : Stand) :
    a.Handles c false (b.unloadedAlone st y s) := by
  unfold Hall.unloadedAlone; split
  · exact x.armMismatch _ _ _
  · exact x.emptyArm _ _

/-! ### Diameters and estimate steps -/

theorem estimateStep (x : a.Handles c false b) (v dt : Nat) (st : StandAddr) : a.Handles c false (b.estimateStep v dt st) := by
  unfold Hall.estimateStep; split
  · exact x
  · split
    · exact x
    · split
      · exact x
      · split
        · exact x
        · split
          · exact x
          · split
            · rename_i e; exact (x.askEstimateStep _ _ _ _).pair e
            · rename_i e
              exact ((((x.askEstimateStep _ _ _ _).pair e).modArm _ _ _).bookPrinted _ _ _ _).diameterTests _

theorem failSensor (x : a.Handles c k b) (st : StandAddr) (y : ArmName) (ref : ReelRef) : a.Handles c k (b.failSensor st y ref) :=
  (((x.raise _).askEnterEstimate _ _ _).modArm _ _ _).modStand st _

theorem implausibleSample (x : a.Handles c k b) (st : StandAddr) (y : ArmName) (ref : ReelRef) :
    a.Handles c k (b.implausibleSample st y ref) := by
  have h1 := (x.pulse (standFault .diameterImplausible st)).modStand st fun s => { s with implausible := s.implausible + 1 }
  unfold Hall.implausibleSample; dsimp only; split
  · exact h1.failSensor _ _ _
  · exact h1

theorem acceptSample (x : a.Handles c false b) (st : StandAddr) (y : ArmName) (ref : ReelRef) (r : Reel) (n : Nat) :
    a.Handles c false (b.acceptSample st y ref r n) := by
  have h0 := x.askDiameterStep st y ref n
  unfold Hall.acceptSample; split <;> (rename_i e; rw [e] at h0)
  · exact ((h0.bookPrinted _ _ _ _).modStand st _).diameterTests _
  · exact h0

theorem takeDiameter (x : a.Handles c false b) (st : StandAddr) (y : ArmName) (n : Nat) : a.Handles c false (b.takeDiameter st y n) := by
  unfold Hall.takeDiameter; split
  · exact x
  · split
    · exact x
    · split
      · exact x
      · split
        · exact x
        · split
          · exact x
          · unfold Hall.takeSample
            split
            · exact (x.acceptSample _ _ _ _ _).push _
            · split
              · exact x.push _
              · exact (x.implausibleSample _ _ _).push _

/-! ### The console -/

theorem endOpenHere (x : a.Handles false k b) (n : Nat) (y : Cause) : a.Handles false k (b.endOpenHere n y) := by
  unfold Hall.endOpenHere; split
  · exact x.closeOpen _ _ _
  · exact x

theorem divertOn (x : a.Handles false k b) (n : Nat) : a.Handles false k (b.divertOn n) := by
  unfold Hall.divertOn; split
  · exact x.divert _ _ _ _
  · exact x

theorem retrySplice (x : a.Handles c k b) (st : StandAddr) : a.Handles c k (b.retrySplice st) := by
  unfold Hall.retrySplice; split
  · split
    · refine Handles.spliceTest ?_ st
      exact x.modStand st _
    · exact x
  · exact x

end Hall.Handles

end Sys2Proof.Machine
end

