-- ==== Sys2Proof/Laws/Keeps.lean ====
section
/-! SUPPORT. Soundness of the hall through the operations that change its setting: vehicles and their places, lines, stands,
the clock, a reload and the resets. -/

-- One theorem after another: elaborated all at once they ask for more threads than the check has room for.
set_option Elab.async false

namespace Sys2Proof.Machine

/-- Whatever `a` owes, `b` is sound when `a` is. -/
def Hall.Keeps (a b : Hall) : Prop := ∀ o, a.SoundBut o → b.SoundBut o

namespace Hall.Keeps

variable {a b d : Hall}

theorem refl (a : Hall) : a.Keeps a := fun _ s => s

theorem trans (x : a.Keeps b) (y : b.Keeps d) : a.Keeps d := fun o s => y o (x o s)

/-- Consequences keep soundness. -/
theorem after (x : a.Keeps b) (y : b.Follows d) : a.Keeps d := x.trans y.sound

/-- A message's rule keeps soundness. -/
theorem on (x : a.Keeps b) (y : b.Handles false false d) : a.Keeps d := x.trans y.sound

/-- A step that leaves everything soundness speaks of. -/
theorem next (x : a.Keeps b) (faults : d.faults = b.faults := by rfl) (notices : d.notices = b.notices := by rfl)
    (counts : d.counts = b.counts := by rfl) (lines : d.lines = b.lines := by rfl)
    (ceilings : d.ceilings = b.ceilings := by rfl) : a.Keeps d := fun o s => by
  have s := x o s
  exact ⟨faults ▸ s.faults, notices ▸ s.notices, counts ▸ s.counts, lines ▸ s.lines, by rw [lines, ceilings]; exact s.ceilings⟩

theorem foldl {β : Type} {f : Hall → β → Hall} (hf : ∀ h x, Hall.Keeps h (f h x)) (l : List β) (x : a.Keeps b) :
    a.Keeps (l.foldl f b) := by
  induction l generalizing b with
  | nil => exact x
  | cons y l ih => exact ih (x.trans (hf b y))

theorem modVehicle (x : a.Keeps b) (v : Nat) (f : Vehicle → Vehicle) : a.Keeps (b.modVehicle v f) := x.next

theorem modStand (x : a.Keeps b) (st : StandAddr) (f : Stand → Stand) : a.Keeps (b.modStand st f) := x.next

theorem lower (x : a.Keeps b) (y : FaultKey) : a.Keeps (b.lower y) := x.on ((Handles.refl b).lower y)

theorem raise (x : a.Keeps b) (y : FaultKey) : a.Keeps (b.raise y) := x.on ((Handles.refl b).raise y)

theorem oweCeiling (x : a.Keeps b) (n : Nat) : a.Keeps (b.oweCeiling n) := x.after ((Follows.refl b).oweCeiling n)

theorem push (x : a.Keeps b) (j : Job) : a.Keeps (b.push j) := x.after ((Follows.refl b).push j)

/-- A change of a line that leaves what its ceiling depends on. -/
theorem modLine (x : a.Keeps b) (n : Nat) (f : Line → Line) (h1 : ∀ l, (f l).cfg = l.cfg := by intro; rfl)
    (h2 : ∀ l, (f l).hostCeiling = l.hostCeiling := by intro; rfl) (hc : ∀ l, (f l).ceiling = l.ceiling := by intro; rfl) :
    a.Keeps (b.modLine n f) := fun o s => by
  have s := x o s
  refine ⟨s.faults, s.notices, s.counts, fun p hp => ?_, fun k l hl => ?_⟩
  · rcases mem_tmod hp with hp | ⟨l, hl, _, rfl⟩
    · exact s.lines p hp
    · have := s.lines _ hl
      exact ⟨by simpa [h1] using this.cfg, by simpa [hc] using this.step, by simpa [h2] using this.host, by simpa [h1, h2] using this.low,
        by simpa [h1, h2] using this.high⟩
  · simp only [Hall.modLine_lines, tget_tmod] at hl
    split at hl
    · obtain ⟨l', hl', rfl⟩ := Option.map_eq_some_iff.mp hl
      refine (s.ceilings k l' hl').imp_left fun t => ?_
      exact ⟨by simpa [hc, h1] using t.low, by simpa [hc, Line.top, h1, h2] using t.high⟩
    · exact s.ceilings k l hl

/-- A change of a line whose ceiling is owed a forming. -/
theorem modLineOwed (x : a.Keeps b) (n : Nat) (f : Line → Line) (hf : ∀ l, l.Sound → (f l).Sound) :
    a.Keeps ((b.modLine n f).oweCeiling n) := fun o s => by
  have s := x o s
  have e : ((b.modLine n f).oweCeiling n).lines = tmod b.lines n f := by unfold Hall.oweCeiling; split <;> rfl
  have m : ∀ k, k ∈ b.ceilings → k ∈ ((b.modLine n f).oweCeiling n).ceilings := fun k hk => by
    unfold Hall.oweCeiling; split
    · exact hk
    · exact List.mem_append_left _ hk
  have m' : n ∈ ((b.modLine n f).oweCeiling n).ceilings := by
    unfold Hall.oweCeiling; split
    · assumption
    · exact List.mem_append_right _ (List.mem_singleton_self n)
  refine ⟨?_, ?_, ?_, fun p hp => ?_, fun k l hl => ?_⟩
  · unfold Hall.oweCeiling; split <;> exact s.faults
  · unfold Hall.oweCeiling; split <;> exact s.notices
  · unfold Hall.oweCeiling; split <;> exact s.counts
  · rw [e] at hp
    rcases mem_tmod hp with hp | ⟨l, hl, _, rfl⟩
    · exact s.lines p hp
    · exact hf _ (s.lines _ hl)
  · rw [e] at hl
    by_cases hk : k = n
    · subst hk; exact .inr (.inl m')
    · rw [tget_tmod_ne _ _ hk] at hl
      exact (s.ceilings k l hl).imp_right (Or.imp_left (m k))

/-! ### Frames -/

theorem linkError (x : a.Keeps b) (l : Link) : a.Keeps (b.linkError l) := x.next

theorem linkReturns (x : a.Keeps b) (n : Nat) : a.Keeps (b.linkReturns n) := by
  have h1 := ((x.lower ⟨.lineLinkDown, .line n⟩).modLine n fun l => { l with lastStatus := none, oweCeiling := true, oweHold := true })
  have h2 := h1.after ((Follows.refl _).sendPanel n)
  unfold Hall.linkReturns; dsimp only
  refine h2.foldl (fun h st => ?_) _
  split
  · split
    · exact (refl h).after ((Follows.refl h).sendLine n _)
    · exact refl h
  · exact refl h

theorem greet (x : a.Keeps b) (n : Nat) : a.Keeps (b.greet n) := by
  unfold Hall.greet; split
  · rename_i l _
    extract_lets g1 g2
    have h1 : a.Keeps g1 := x.modLine n _
    have h2 : a.Keeps g2 := by
      unfold g2; split
      · exact h1.after ((Follows.refl g1).sendCeiling n)
      · exact h1
    split
    · exact h2.after ((Follows.refl g2).resendHold n)
    · exact h2
  · exact x

theorem lineHeard (x : a.Keeps b) (n : Nat) : a.Keeps (b.lineHeard n) := by
  unfold Hall.lineHeard; split
  · have h1 := x.modLine n fun l => { l with silence := some (b.timebase + Config.silenceTicks) }
    dsimp only; split
    · exact (h1.linkReturns n).greet n
    · exact h1.greet n
  · exact x

theorem fleetHeard (x : a.Keeps b) : a.Keeps b.fleetHeard := by
  unfold Hall.fleetHeard; dsimp only
  refine Keeps.lower ?_ _
  split
  · exact x.next
  · exact x

end Hall.Keeps

/-- A frame of a line keeps the hall sound when its rule does. -/
theorem Hall.lineFrame_sound {h : Hall} (s : h.Sound) (f : Frame) (n : Nat) (ok : Bool) (take : Hall → Hall)
    (ht : ∀ g, Hall.Keeps g (take g)) : (h.lineFrame f n ok take).Sound := by
  have h1 := (Keeps.refl h).lineHeard f.link
  unfold Hall.lineFrame; dsimp only; split
  · exact Hall.finish_sound ((h1.trans (ht _)) _ s)
  · exact Hall.finish_sound ((h1.linkError _) _ s)

namespace Hall.Keeps

variable {a b d : Hall}

/-! ### LINE STATUS, WEB BREAK, silence -/

theorem countStatus (x : a.Keeps b) (n : Nat) (l : Line) (r : RunState) (v : Nat) (g : GateCount) : a.Keeps (b.countStatus n l r v g) := by
  unfold Hall.countStatus; extract_lets r' g1 g2 g3 g4
  have h1 : a.Keeps g1 := x.on ((Handles.refl b).forget n)
  have h2 : a.Keeps g2 := by
    unfold g2; split
    · have h2 : a.Keeps (g1.offerStart n) := by
        unfold Hall.offerStart; split
        · exact h1.on ((Handles.refl g1).offer _ _ _ _)
        · exact h1
      exact h2.on ((Handles.refl _).takeCount n g)
    · exact h1.on ((Handles.refl _).takeCount n g)
  have h3 : a.Keeps g3 := h2.modLine n _
  have h4 : a.Keeps g4 := by
    unfold g4; split
    · unfold Hall.endBreak; split
      · exact h3.on ((Handles.refl g3).closeOpen _ _ _)
      · exact h3
    · exact h3
  exact h4.on (((Handles.refl g4).schedule n).testStart n)

theorem feedStatus (x : a.Keeps b) (n : Nat) (l : Option Nat) (v : Nat) : a.Keeps (b.feedStatus n l v) := by
  unfold Hall.feedStatus; extract_lets dt g1 g2 g3
  have h1 : a.Keeps g1 := x.modLine n _
  have h2 : a.Keeps g2 := h1.foldl (fun h st => (refl h).on ((Handles.refl h).estimateStep _ _ _)) _
  have h3 : a.Keeps g3 := h2.foldl (fun h st => (refl h).push _) _
  exact h3.foldl (fun h st => (refl h).on ((Handles.refl h).spliceTest _)) _

theorem takeLineStatus (x : a.Keeps b) (n : Nat) (r : RunState) (v : Nat) (g : GateCount) : a.Keeps (b.takeLineStatus n r v g) := by
  unfold Hall.takeLineStatus; split
  · exact x
  · exact (x.countStatus _ _ _ _ _).feedStatus _ _ _

theorem takeBreak (x : a.Keeps b) (n : Nat) : a.Keeps (b.takeBreak n) := by
  unfold Hall.takeBreak; split
  · exact x
  · extract_lets g1 g2
    have h1 : a.Keeps g1 := (x.modLine n _).on ((Handles.refl _).breakSplices n)
    have h2 : a.Keeps g2 := h1.foldl (fun h st => (refl h).modStand st _) _
    split
    · exact h2
    · exact h2.on (((Handles.refl g2).openBreak n).bookBreak n)

theorem lineSilent (x : a.Keeps b) (n : Nat) : a.Keeps (b.lineSilent n) := by
  have h1 := ((x.modLine n fun l => { l with silence := none }).raise ⟨.lineLinkDown, .line n⟩)
  exact h1.on (((Handles.refl _).breakSplices n).unsend n)

/-! ### Vehicles -/

theorem unseat (x : a.Keeps b) (v : Nat) : a.Keeps (b.unseat v) := by
  unfold Hall.unseat; extract_lets g
  have h1 : a.Keeps g := (x.after ((Follows.refl b).unwait v)).modVehicle v _
  exact (h1.after ((Hall.Follows.foldl (fun h z => (Follows.refl h).releaseZone v z) _ (Follows.refl g)).releaseHold v)).lower _

theorem commission (x : a.Keeps b) (v : Nat) : a.Keeps (b.commission v) := by
  unfold Hall.commission; extract_lets f g1 g2
  have h1 : a.Keeps g1 := x.modVehicle v _
  refine Keeps.lower ?_ _
  unfold g2; split
  · exact h1.next
  · exact h1

theorem decommission (x : a.Keeps b) (v : Nat) : a.Keeps (b.decommission v) := by
  unfold Hall.decommission; extract_lets g1 g2 g3
  have h3 : a.Keeps g3 := (((x.unseat v).modVehicle v _).lower _).lower _
  split
  · exact h3
  · exact Keeps.lower (h3.next) _

theorem clearLost (x : a.Keeps b) (v : Nat) : a.Keeps (b.clearLost v) :=
  ((x.modVehicle v _).lower _).after ((((Follows.refl _).clearLostZones v).setActivity v _).direct v _ |>.push _)

theorem startTimer (x : a.Keeps b) (v : Nat) : a.Keeps (b.startTimer v) := x.modVehicle v _

theorem heard (x : a.Keeps b) (v : Nat) : a.Keeps (b.heard v) := by
  unfold Hall.heard; dsimp only; split
  · exact ((x.startTimer v).modVehicle v _).lower _
  · exact x.startTimer v

theorem seated (x : a.Keeps b) (v n : Nat) : a.Keeps (b.seated v n) := by
  unfold Hall.seated; extract_lets g1 g2 g3 g4
  have h2 : a.Keeps g2 := (x.modVehicle v _).startTimer v
  have h3 : a.Keeps g3 := by
    unfold g3; split
    · exact h2.after ((Follows.refl g2).stopVehicle v _)
    · exact h2.after ((Follows.refl g2).issue v _)
  have h4 : a.Keeps g4 := by
    unfold g4; split
    · exact h3.after ((Follows.refl g3).resumeMission _)
    · exact h3.after ((Follows.refl g3).returnIfOwed v)
  exact (h4.push _).push _

theorem seatZone (x : a.Keeps b) (v z : Nat) : a.Keeps (b.seatZone v z).1 := by
  unfold Hall.seatZone; split
  · split
    · exact x
    · dsimp only; split
      · exact x.after (((Follows.refl b).modZone z _ (hs := fun _ => ⟨.inr rfl⟩)).push _)
      · exact x.after ((Follows.refl b).modZone z _ (hs := fun _ => ⟨.inr rfl⟩))
  · exact x

theorem seat (x : a.Keeps b) (v n : Nat) (t : Option Nat) : a.Keeps (b.seat v n t).1 := by
  unfold Hall.seat; extract_lets gone g1
  have h1 : a.Keeps g1 := x.after (Hall.Follows.foldl (fun h z => (Follows.refl h).releaseZone v z) _ (Follows.refl b))
  have h2 := h1.seatZone v n
  split; rename_i g2 c1 e; rw [e] at h2
  split; rename_i g3 c2 e3
  have h3 : a.Keeps g3 := by
    split at e3
    · have h4 := h2.seatZone v ‹_›
      rw [e3] at h4; exact h4
    · cases e3; exact h2
  split
  · exact h3.raise _
  · exact (h3.lower _).modVehicle v _

theorem leaveZone (x : a.Keeps b) (v z : Nat) : a.Keeps (b.leaveZone v z) := by
  unfold Hall.leaveZone; split
  · exact (x.after ((Follows.refl b).releaseHold v)).next
  · exact x.after ((Follows.refl b).releaseZone v z)

theorem releaseLeft (x : a.Keeps b) (v : Nat) : a.Keeps (b.releaseLeft v) := x.foldl (fun h z => (refl h).leaveZone v z) _

theorem takePosition (x : a.Keeps b) (v n : Nat) (t r : Option Nat) : a.Keeps (b.takePosition v n t r) := by
  unfold Hall.takePosition; extract_lets key g1 t' g2
  split
  · exact x.raise _
  · have h2 : a.Keeps g2 := (x.lower _).modVehicle v _
    split
    · have h3 := h2.releaseLeft v
      split
      · exact h3.after ((Follows.refl _).requestZone v _)
      · exact h3
    · exact h2

theorem progress (x : a.Keeps b) (v : Nat) : a.Keeps (b.progress v) := by
  unfold Hall.progress; dsimp only; split
  · split
    · split
      · split
        · exact x.after (((Follows.refl b).modMission _ _).oweCall _)
        · exact x
      · exact x
    · exact x
  · exact x

theorem leftCharger (x : a.Keeps b) (v : Nat) (n : Option Nat) : a.Keeps (b.leftCharger v n) := by
  unfold Hall.leftCharger; dsimp only; split
  · exact x.after ((Follows.refl b).setActivity v _)
  · exact x

end Hall.Keeps

namespace Hall.Handles

variable {c k : Bool} {a b d : Hall}

/-! ### What a vehicle's report completes -/

theorem pickFailed (x : a.Handles c k b) (v n : Nat) (y : AbortCause) (z : DirKind) : a.Handles c k (b.pickFailed v n y z) := by
  unfold Hall.pickFailed; dsimp only; split
  · exact ((x.abort _ _).endMission _ _).direct _ _
  · exact (((x.abort _ _).endMission _ _).direct _ _).setActivity _ _

theorem pickRefused (x : a.Handles c k b) (v n : Nat) (m : Mission) : a.Handles c k (b.pickRefused v n m) := by
  unfold Hall.pickRefused; extract_lets g1 g2 g3
  refine (Handles.direct ?_ _ _).push _
  have h2 : a.Handles c k g2 := (x.modMission n _).modVehicle v _
  unfold g3; split
  · exact h2.modCall _ _
  · exact h2

theorem pickDone (x : a.Handles c k b) (v : Nat) (y : Option ReelId) : a.Handles c k (b.pickDone v y) := by
  unfold Hall.pickDone; split
  · split
    · split
      · rename_i ref p _ _
        split
        · exact (x.askPickupEmpty _ _).pickFailed _ _ _ _
        · split
          · have h0 := x.askPick v ref (some p.location)
            split <;> (rename_i e; rw [e] at h0)
            · exact h0.carry _
            · exact h0.pickRefused _ _ _
          · exact (x.askIdMismatch _ _).pickFailed _ _ _ _
      · exact x
    · exact x
  · exact x

theorem placeDone (x : a.Handles c k b) (v : Nat) (y : BayAddr) : a.Handles c k (b.placeDone v y) := by
  unfold Hall.placeDone; split
  · split
    · rename_i ref _
      have h0 := x.askPlace v ref y
      split <;> (rename_i e; rw [e] at h0)
      · exact ((h0.endMission _ _).direct _ _).afterEnd _ _ _
      · exact h0.direct _ _
    · exact x
  · exact x

theorem recalled (x : a.Handles c k b) (v : Nat) : a.Handles c k (b.recall v) := by
  unfold Hall.recall; split
  · exact x.direct _ _
  · split
    · exact x.direct _ _
    · split
      · exact x.direct _ _
      · exact x.after ((Follows.refl b).assign _ _)
      · exact x.carry _
      · split
        · split <;> exact x.direct _ _
        · split <;> exact x.direct _ _
        · exact x.direct _ _

theorem setDownDone (x : a.Handles c k b) (v : Nat) : a.Handles c k (b.setDownDone v) := by
  unfold Hall.setDownDone; dsimp only; split
  · exact x.recalled v
  · split
    · exact x.recalled v
    · exact (x.recalled v).afterEnd _ _ _

theorem transferDone (x : a.Handles c k b) (v : Nat) (y : HandoverKind) : a.Handles c k (b.transferDone v y) := by
  unfold Hall.transferDone; split
  · rename_i st z _
    split
    · have h1 := x.modHandover st fun x => { x with transferDone := true }
      dsimp only; split
      · cases y
        · exact (h1.direct v .hold).loadFinished _
        · exact h1.unloadFinished _ _
      · exact h1.direct v .hold
    · exact x
  · exact x.direct _ _

theorem takeCompletion (x : a.Handles c k b) (r : VehicleReport) (y : Completion) : a.Handles c k (b.takeCompletion r y) := by
  unfold Hall.takeCompletion; dsimp only; split
  · split
    · split
      · exact x.pickDone _ _
      · exact x.placeDone _ _
      · exact x.setDownDone _
      · exact x.transferDone _ _
      · exact x.transferDone _ _
      · exact x
    · exact x
  · exact x

theorem arriveDrop (x : a.Handles c k b) (n v : Nat) (m : Mission) : a.Handles c k (b.arriveDrop n v m) := by
  unfold Hall.arriveDrop; split
  · exact ((x.modMission _ _).setActivity _ _).direct _ _
  · exact ((((x.modMission _ _).setActivity _ _).after ((Follows.refl _).oweCall _)).direct _ _).push _
  · exact ((x.direct _ _).endMission _ _).afterEnd _ _ _
  · exact ((x.direct _ _).endMission _ _).afterEnd _ _ _
  · exact x
  · exact x

theorem takeArrival (x : a.Handles c k b) (r : VehicleReport) : a.Handles c k (b.takeArrival r) := by
  unfold Hall.takeArrival; dsimp only; split
  · split
    · split
      · exact x.after ((Follows.refl b).arrivePickup _ _ _)
      · exact x.arriveDrop _ _ _
      · exact x
      · exact x
    · exact x
  · exact x

theorem strayCheck (x : a.Handles c k b) (r : VehicleReport) : a.Handles c k (b.strayCheck r) := by
  unfold Hall.strayCheck; dsimp only; split
  · exact (x.askPick _ _ _).direct _ _
  · exact x

theorem compareNumber (x : a.Handles c k b) (r : VehicleReport) : a.Handles c k (b.compareNumber r) := by
  unfold Hall.compareNumber; dsimp only; split
  · exact x.after ((Follows.refl b).sendDirective _ _)
  · split
    · exact x.after (((Follows.refl b).withdraw _).refreshMove _)
    · exact x

theorem loseVehicleTail (x : a.Handles c k b) (v : Nat) : a.Handles c k
    ((match (b.vehicle v).mission with
      | some slot => (b.loseMission slot).setActivity v .idle
      | none => if (b.vehicle v).pursuit = Activity.charging then b else b.setActivity v .idle).direct v .hold) := by
  refine Handles.direct ?_ _ _
  split
  · exact (x.loseMission _).setActivity _ _
  · split
    · exact x
    · exact x.setActivity _ _

end Hall.Handles

namespace Hall.Keeps

variable {a b d : Hall}

theorem loseVehicle (x : a.Keeps b) (v : Nat) : a.Keeps (b.loseVehicle v) := by
  unfold Hall.loseVehicle; extract_lets g1 g2 g3 g4 g5
  have h3 : a.Keeps g3 := (((x.modVehicle v _).lower _).raise _).on ((Handles.refl g2).abort v _)
  have h4 : a.Keeps g4 := by
    unfold g4; split
    · exact h3.on ((Handles.refl g3).askVehicleLost v _)
    · exact h3
  exact h4.on ((Handles.refl g4).loseVehicleTail v)

theorem supervisionExpiry (x : a.Keeps b) (v : Nat) : a.Keeps (b.supervisionExpiry v) := by
  unfold Hall.supervisionExpiry; extract_lets g1 g2
  have h1 : a.Keeps g1 := (x.startTimer v).modVehicle v _
  have h2 : a.Keeps g2 := by
    unfold g2; split
    · exact (h1.modVehicle v _).raise _
    · exact h1
  split
  · exact h2.loseVehicle v
  · exact h2

theorem takeSeated (x : a.Keeps b) (r : VehicleReport) : a.Keeps (b.takeSeated r) := by
  unfold Hall.takeSeated; extract_lets v was g1 g2 g3 g4 g5
  have h2 : a.Keeps g2 := by
    refine Keeps.modVehicle ?_ v _
    unfold g1 Hall.takeReportPosition; dsimp only
    exact (((x.heard _).takePosition _ _ _ _).progress _).leftCharger _ _
  split
  · exact h2.on ((Handles.refl g2).compareNumber r)
  · have h3 : a.Keeps g3 := by
      unfold g3; split
      · exact h2.on ((Handles.refl g2).takeCompletion r _)
      · exact h2
    have h4 : a.Keeps g4 := h3.on ((((Handles.refl g3).takeArrival r).strayCheck r).compareNumber r)
    have h5 : a.Keeps g5 := by
      unfold g5; split
      · exact h4.push _
      · exact h4
    split
    · exact h5.push _
    · exact h5

theorem takeReport (x : a.Keeps b) (r : VehicleReport) : a.Keeps (b.takeReport r) := by
  unfold Hall.takeReport; dsimp only; split
  · exact x.raise _
  · split
    · exact x.takeSeated r
    · have h0 := x.seat r.vehicle r.front r.tail
      split <;> (rename_i e; rw [e] at h0)
      · exact h0.seated _ _
      · exact h0

end Hall.Keeps

end Sys2Proof.Machine
end

