-- ==== Sys2Proof/Laws/KeepsHost.lean ====
section
/-! SUPPORT. Soundness of the state through host requests, the clock, a save, a reload and the resets. -/

-- One theorem after another: elaborated all at once they ask for more threads than the check has room for.
set_option Elab.async false

namespace Sys2Proof.Machine

namespace Hall.Keeps

variable {a b d : Hall}

/-! ### Lines and stands -/

theorem lineCfg_fit {c : LineCfg} (h : c.Sound) (v : Nat) :
    c.fitCeiling v % 10 = 0 ∧ c.crawl ≤ c.fitCeiling v ∧ c.fitCeiling v ≤ c.lineMax := by
  have := h.lineMax; have := h.crawl; have := h.order
  unfold LineCfg.fitCeiling floor10
  omega

theorem lineFresh_sound {c : LineCfg} (h : c.Sound) (t : Nat) : (Line.fresh c t).Sound ∧ (Line.fresh c t).CeilingSound :=
  ⟨⟨h, h.lineMax, h.lineMax, h.order, Nat.le_refl _⟩, ⟨h.order, by simp [Line.top, Line.fresh]⟩⟩

theorem lineCountFresh_sound (k : CountCfg) : (LineCount.fresh k).Sound :=
  ⟨Nat.zero_le _, Nat.le_refl _, Nat.zero_le _, Nat.zero_le _, .nil, rfl⟩

theorem configureLine (x : a.Keeps b) (n : Nat) {c : LineCfg} (hc : c.Sound) (k : CountCfg) : a.Keeps (b.configureLine n c k) := by
  unfold Hall.configureLine; extract_lets g
  have h1 : a.Keeps g := fun o s => by
    have s := x o s
    refine ⟨s.faults, s.notices, fun m y hy => ?_, fun p hp => ?_, fun m l hl => ?_⟩
    · simp only [g, tget_tput] at hy
      split at hy
      · cases hy; exact lineCountFresh_sound k
      · exact s.counts m y hy
    · rcases mem_tput hp with hp | rfl
      · exact s.lines p hp
      · exact (lineFresh_sound hc _).1
    · simp only [g, tget_tput] at hl
      split at hl
      · cases hl; exact .inl (lineFresh_sound hc _).2
      · exact s.ceilings m l hl
  exact h1.on ((Handles.refl g).evalHold n)

theorem refeedLine (x : a.Keeps b) (n : Nat) {c : LineCfg} (hc : c.Sound) : a.Keeps (b.refeedLine n c) := by
  have h1 := x.modLineOwed n (fun l => { l with cfg := c, hostCeiling := c.fitCeiling l.hostCeiling }) fun l s =>
    ⟨hc, s.step, (lineCfg_fit hc _).1, (lineCfg_fit hc _).2.1, (lineCfg_fit hc _).2.2⟩
  unfold Hall.refeedLine; dsimp only; split
  · exact h1
  · exact h1.foldl (fun h st => (refl h).after ((Follows.refl h).testOverdue st)) _

theorem recount (x : a.Keeps b) (n : Nat) (k : CountCfg) : a.Keeps (b.recount n k) := x.on ((Handles.refl b).recount n k)

theorem reconfigureStand (x : a.Keeps b) (st : StandAddr) (c : StandCfg) : a.Keeps (b.reconfigureStand st c) := by
  have h1 := (x.modStand st fun s => { s with cfg := c }).oweCeiling st.line
  unfold Hall.reconfigureStand; dsimp only; split
  · exact h1.on ((Handles.refl _).endCall _ _ _)
  · exact h1

theorem outOfService (x : a.Keeps b) (st : StandAddr) : a.Keeps (b.outOfService st) := by
  unfold Hall.outOfService; extract_lets g1 g2 g3
  have h2 : a.Keeps g2 := by
    exact (x.modStand st fun s => { s with inService := false }).on
      ((((Handles.refl _).setMode st _).lower _).endCall _ _ _)
  have h3 : a.Keeps g3 := by
    unfold g3; split
    · split
      · exact h2.on ((((Handles.refl g2).abort _ _).turnToReturn _ _).holdAborted _)
      · exact h2
    · exact h2
  exact h3.on ((Handles.refl g3).endPrep st)

theorem intoService (x : a.Keeps b) (st : StandAddr) : a.Keeps (b.intoService st) :=
  (x.modStand st _).on ((Handles.refl _).setMode st _)

theorem hostCeiling (x : a.Keeps b) (n v : Nat) (l : Line) (hv : ∀ y, tget b.lines n = some y → v % 10 = 0 ∧ y.cfg.crawl ≤ v ∧ v ≤ y.cfg.lineMax) :
    a.Keeps ((b.hostCeiling n v l).oweCeiling n) := by
  unfold Hall.hostCeiling; split
  · exact x.oweCeiling n
  · have h1 : a.Keeps ((b.modLine n fun l => { l with hostCeiling := v, byHost := true }).oweCeiling n) := fun o s => by
      have s := x o s
      have e : ((b.modLine n fun l => { l with hostCeiling := v, byHost := true }).oweCeiling n).lines =
          tmod b.lines n fun l => { l with hostCeiling := v, byHost := true } := by unfold Hall.oweCeiling; split <;> rfl
      have m : ∀ k, k ∈ b.ceilings → k ∈ ((b.modLine n fun l => { l with hostCeiling := v, byHost := true }).oweCeiling n).ceilings :=
        fun k hk => by
          unfold Hall.oweCeiling; split
          · exact hk
          · exact List.mem_append_left _ hk
      have m' : n ∈ ((b.modLine n fun l => { l with hostCeiling := v, byHost := true }).oweCeiling n).ceilings := by
        unfold Hall.oweCeiling; split
        · assumption
        · exact List.mem_append_right _ (List.mem_singleton_self n)
      refine ⟨?_, ?_, ?_, fun p hp => ?_, fun k l hl => ?_⟩
      · unfold Hall.oweCeiling; split <;> exact s.faults
      · unfold Hall.oweCeiling; split <;> exact s.notices
      · unfold Hall.oweCeiling; split <;> exact s.counts
      · rw [e] at hp
        rcases mem_tmod hp with hp | ⟨y, hy, hk, rfl⟩
        · exact s.lines p hp
        · have t := s.lines _ hy
          obtain ⟨h1, h2, h3⟩ := hv y hk
          exact ⟨t.cfg, t.step, h1, h2, h3⟩
      · rw [e] at hl
        by_cases hk : k = n
        · subst hk; exact .inr (.inl m')
        · rw [tget_tmod_ne _ _ hk] at hl
          exact (s.ceilings k l hl).imp_right (Or.imp_left (m k))
    dsimp only; split
    · exact h1
    · have e : ∀ h : Hall, (h.noteCeiling n).oweCeiling n = (h.oweCeiling n).noteCeiling n := fun h => by
        have e1 : ∀ q, (h.notify q).oweCeiling n = (h.oweCeiling n).notify q := fun q => by
          unfold Hall.notify Hall.oweCeiling; split <;> split <;> simp_all
        have e2 : (h.oweCeiling n).line n = h.line n := by unfold Hall.oweCeiling; split <;> rfl
        unfold Hall.noteCeiling; rw [e2]
        cases h.line n with
        | none => rfl
        | some l => exact e1 _
      rw [e]
      exact h1.after ((Follows.refl _).noteCeiling n)

theorem oweAll (x : a.Keeps b) : a.Keeps b.oweAll := x.foldl (fun h _ => (refl h).oweCeiling _) _

/-! ### The clock -/

theorem clockMoved (x : a.Keeps b) : a.Keeps b.clockMoved := by
  unfold Hall.clockMoved; extract_lets g
  have h1 : a.Keeps b.conditionAll := by
    refine x.foldl (fun h i => ?_) _
    split
    · exact ((refl h).on ((Handles.refl h).conditionReel i)).after ((Follows.refl _).settle _)
    · exact refl h
  have h2 : a.Keeps g := by
    refine h1.foldl (fun h z => ?_) _
    split
    · exact (refl h).after (((Follows.refl h).endHold z).settle _)
    · exact refl h
  exact h2.foldl (fun h p => (refl h).after ((Follows.refl h).testOverdue _)) _

theorem advance (x : a.Keeps b) : a.Keeps b.advance := by
  unfold Hall.advance; extract_lets g
  have h1 : a.Keeps g := x.next
  exact h1.clockMoved.foldl (fun h n => (refl h).oweCeiling n) _

/-! ### Reload -/

theorem reloadGrades (x : a.Keeps b) (i : Image) : a.Keeps (b.reloadGrades i) := by
  unfold Hall.reloadGrades; extract_lets t g
  have h1 : a.Keeps g := x.next
  split
  · exact h1
  · exact h1.lower _

theorem reload (x : a.Keeps b) {i : Image} (hi : i.Sound) : a.Keeps (b.reload i) := by
  unfold Hall.reload; extract_lets g1 g2 g3 g4 g5
  have h1 : a.Keeps g1 := x.next
  have h2 : a.Keeps g2 := by
    have h2 : a.Keeps (g1.reloadBays i) := by unfold Hall.reloadBays; exact Keeps.push (b := { g1 with bays := _, aisles := _ }) h1.next _
    unfold g2 Hall.reloadZones
    exact Keeps.push (Keeps.push (b := { g1.reloadBays i with zones := _ }) h2.next _) _
  have h3 : a.Keeps g3 := by
    refine h2.foldl (fun h v => ?_) _
    unfold Hall.reloadVehicle; dsimp only; split
    · split
      · exact refl h
      · exact (refl h).commission v
    · split
      · exact (refl h).decommission v
      · exact refl h
  have h4 : a.Keeps g4 := by
    have lines : ∀ l : Table (LineCfg × CountCfg), (∀ p ∈ l, p.2.1.Sound) → ∀ h : Hall, h.Keeps (l.foldl Hall.reloadLine h) := fun l => by
      induction l with
      | nil => exact fun _ h => refl h
      | cons p l ih =>
        intro hl h
        have hp := hl p (List.mem_cons_self ..)
        have h1 : h.Keeps (h.reloadLine p) := by
          unfold Hall.reloadLine; split
          · exact ((refl h).refeedLine _ hp).recount _ _
          · exact (refl h).configureLine _ hp _
        exact h1.trans (ih (fun q hq => hl q (List.mem_cons_of_mem _ hq)) _)
    refine (h3.trans (lines i.lines hi g3)).foldl (fun h p => ?_) _
    unfold Hall.reloadStand; split
    · unfold Hall.reloadService
      have h1 := (refl h).reconfigureStand (standOfKey p.1) p.2.1
      split
      · split
        · split
          · exact h1.intoService _
          · exact h1
        · split
          · exact h1
          · exact h1.outOfService _
      · exact h1
    · exact (refl h).next
  have h5 : a.Keeps g5 := (h4.reloadGrades i).oweAll
  exact (h5.foldl (fun h n => (refl h).on ((Handles.refl h).evalHold n)) _).lower _

end Hall.Keeps

/-! ### Answers -/

/-- What a block answers leaves the hall sound with no ceiling owed. -/
def Answer.Good (x : Answer) : Prop := x.hall.Sound ∧ x.hall.ceilings = []

theorem Hall.accept_good {h g : Hall} (s : h.Sound) (x : h.Keeps g) (c : Content) : (g.accept c).Good :=
  ⟨Hall.finish_sound (x _ s), Hall.finish_ceilings g⟩

/-- A request whose block's answer is good leaves the state sound. -/
theorem State.request_sound {s : State} (h : s.Sound) (q : Req) (k : Nat) {f : Hall → Answer} (hf : (f s.hall).Good) :
    (s.request q k f).Sound := by
  unfold State.request; split
  · exact ⟨h.hall, h.settled, h.store⟩
  · split
    · exact ⟨h.hall, h.settled, h.store⟩
    · exact ⟨hf.1, hf.2, h.store⟩

/-- An event that keeps the hall sound and ends leaves the state sound. -/
theorem State.finish_sound {s : State} (h : s.Sound) {g : Hall} (x : s.hall.Keeps g) : ({ s with hall := g.finish } : State).Sound :=
  ⟨Hall.finish_sound (x _ h.hall), Hall.finish_ceilings g, h.store⟩

theorem State.lineFrame_sound {s : State} (h : s.Sound) (f : Frame) (n : Nat) (ok : Bool) (take : Hall → Hall)
    (ht : ∀ g, Hall.Keeps g (take g)) : ({ s with hall := s.hall.lineFrame f n ok take } : State).Sound := by
  refine ⟨Hall.lineFrame_sound h.hall f n ok take ht, ?_, h.store⟩
  show (s.hall.lineFrame f n ok take).ceilings = []
  unfold Hall.lineFrame; dsimp only; split <;> exact Hall.finish_ceilings _

theorem State.armEvent_sound {s : State} (h : s.Sound) (f : Frame) (st : StandAddr) (take : Stand → Hall → Hall)
    (ht : ∀ y g, Hall.Handles false false g (take y g)) : ({ s with hall := s.hall.armEvent f st take } : State).Sound := by
  refine State.lineFrame_sound h f _ _ _ fun g => ?_
  split
  · exact (ht _ _).sound
  · exact Hall.Keeps.refl g

theorem State.splicePhase_sound {s : State} (h : s.Sound) (f : Frame) (st : StandAddr) (p : SplicePhase) (r : PhaseResult)
    (take : SpliceRecord → Hall → Hall) (ht : ∀ y g, Hall.Handles false false g (take y g)) :
    ({ s with hall := s.hall.splicePhase f st p r take } : State).Sound := by
  refine State.lineFrame_sound h f _ _ _ fun g => ?_
  split
  · exact Hall.Keeps.refl g
  · split
    · split
      · exact (ht _ _).sound
      · exact (Hall.Keeps.refl g).on ((Hall.Handles.refl g).pulse _)
    · exact (Hall.Keeps.refl g).on ((Hall.Handles.refl g).pulse _)

end Sys2Proof.Machine
end

