-- ==== Sys2Proof/Laws/SoundRequests.lean ====
section
/-! SUPPORT. Soundness through each host request, a save and the resets: one lemma for each rule a block answers by. -/

-- One theorem after another: elaborated all at once they ask for more threads than the check has room for.
set_option Elab.async false

namespace Sys2Proof.Machine

open Hall

/-! ### Answers of the blocks -/

theorem Hall.refuse_good {h : Hall} (s : h.Sound) (c : h.ceilings = []) (x : Status) : (h.refuse x).Good := ⟨s, c⟩
theorem Hall.tell_good {h : Hall} (s : h.Sound) (c : h.ceilings = []) (x : Content) : (h.tell x).Good := ⟨s, c⟩

theorem good_register {h : Hall} (s : h.Sound) (c : h.ceilings = []) (id g w d0 co m do_ ar) :
    (h.takeRegister id g w d0 co m do_ ar).Good := by
  unfold Hall.takeRegister
  repeat' split
  all_goals try exact ⟨s, c⟩
  unfold Hall.registerReel
  split
  · split
    · rename_i e
      exact Hall.accept_good s ((Keeps.refl h).on (((Handles.refl h).addReel _ _).after (((Follows.refl _).makeIntake _).pair e))) _
    · exact ⟨s, c⟩
  · exact Hall.accept_good s ((Keeps.refl h).on ((Handles.refl h).addReel _ _)) _

theorem good_grade {h : Hall} (s : h.Sound) (c : h.ceilings = []) (b n nm ca ba co ho th) :
    (h.takeGrade b n nm ca ba co ho th).Good := by
  unfold Hall.takeGrade; dsimp only
  repeat' split
  all_goals try exact ⟨s, c⟩
  refine Hall.accept_good s ?_ _
  refine Keeps.after (b := { h with grades := _ }) ?_ ((Follows.refl _).stockWatch _)
  exact (Keeps.refl h).next

theorem good_release {h : Hall} (s : h.Sound) (c : h.ceilings = []) (id) : (h.takeRelease id).Good := by
  unfold Hall.takeRelease; dsimp only
  repeat' split
  all_goals try exact ⟨s, c⟩
  exact Hall.accept_good s ((Keeps.refl h).on (((Handles.refl h).putReel _ _).retryIfStored _ _)) _

theorem good_declare {h : Hall} (s : h.Sound) (c : h.ceilings = []) (id p) : (h.takeDeclare id p).Good := by
  unfold Hall.takeDeclare; dsimp only
  repeat' split
  all_goals try exact ⟨s, c⟩
  · exact Hall.accept_good s ((Keeps.refl h).on ((Handles.refl h).custody _ _ _)) _
  · exact Hall.accept_good s ((Keeps.refl h).on ((Handles.refl h).custody _ _ _)) _
  · exact Hall.accept_good s ((Keeps.refl h).on (((Handles.refl h).custody _ _ _).after ((Follows.refl _).makeIntake _))) _

theorem good_withdraw {h : Hall} (s : h.Sound) (c : h.ceilings = []) (id) : (h.takeWithdraw id).Good := by
  unfold Hall.takeWithdraw
  repeat' split
  all_goals try exact ⟨s, c⟩
  exact Hall.accept_good s ((Keeps.refl h).on (((Handles.refl h).cancelMissionOf _).deleteReel _ _)) _

theorem good_purge {h : Hall} (s : h.Sound) : (h.takePurge).Good := by
  unfold Hall.takePurge; extract_lets n g
  have h1 : h.Keeps g := (Keeps.refl h).next
  refine Hall.accept_good s ?_ _
  split
  · exact h1
  · exact h1.lower _

theorem good_bay {h : Hall} (s : h.Sound) (c : h.ceilings = []) (b a k bl) : (h.takeBay b a k bl).Good := by
  have cb : ∀ x, h.Keeps (h.configureBay a x) := fun x => by
    unfold Hall.configureBay; dsimp only; split
    · exact Keeps.push (b := { h with bays := _ }) (Keeps.refl h).next _
    · exact (Keeps.refl h).next
  unfold Hall.takeBay
  repeat' split
  all_goals try exact ⟨s, c⟩
  all_goals refine Hall.accept_good s ?_ _
  all_goals first | exact Keeps.refl h | exact cb _ | exact (Keeps.refl h).next

theorem good_aisle {h : Hall} (s : h.Sound) (c : h.ceilings = []) (b n g) : (h.takeAisle b n g).Good := by
  unfold Hall.takeAisle; dsimp only
  split
  · exact ⟨s, c⟩
  split
  · exact ⟨s, c⟩
  split
  · exact ⟨s, c⟩
  refine Hall.accept_good s ?_ _
  split
  · exact Keeps.push (b := { h with aisles := _ }) (Keeps.refl h).next _
  · exact (Keeps.refl h).next

theorem keeps_zones {h g : Hall} (x : h.Keeps g) (u) : h.Keeps (g.zonesChanged u) := by
  unfold Hall.zonesChanged; extract_lets k
  refine Keeps.push ?_ _
  unfold k; split
  · exact x.push _
  · exact x.push _
  · exact x

theorem good_zone {h : Hall} (s : h.Sound) (c : h.ceilings = []) (b n k) : (h.takeZone b n k).Good := by
  unfold Hall.takeZone; extract_lets k' old sv g
  split
  · exact ⟨s, c⟩
  split
  · exact ⟨s, c⟩
  split
  · exact ⟨s, c⟩
  have hg : h.Keeps g := by
    unfold g; clear_value g; clear_value sv; clear_value k'; split
    · exact keeps_zones (g := { h with zones := _ }) (Keeps.refl h).next _
    · exact keeps_zones (g := { h with zones := _ }) (Keeps.refl h).next _
  clear_value g
  repeat' split
  all_goals try exact ⟨s, c⟩
  all_goals exact Hall.accept_good s hg _

theorem good_commission {h : Hall} (s : h.Sound) (c : h.ceilings = []) (b v) : (h.takeCommission b v).Good := by
  unfold Hall.takeCommission
  repeat' split
  all_goals try exact ⟨s, c⟩
  · exact Hall.accept_good s (Keeps.refl h) _
  · exact Hall.accept_good s ((Keeps.refl h).commission v) _

theorem good_decommission {h : Hall} (s : h.Sound) (c : h.ceilings = []) (b v) : (h.takeDecommission b v).Good := by
  unfold Hall.takeDecommission; dsimp only
  repeat' split
  all_goals try exact ⟨s, c⟩
  · exact Hall.accept_good s ((Keeps.refl h).decommission v) _

theorem good_clearLost {h : Hall} (s : h.Sound) (c : h.ceilings = []) (v) : (h.takeClearLost v).Good := by
  unfold Hall.takeClearLost; dsimp only
  repeat' split
  all_goals try exact ⟨s, c⟩
  · exact Hall.accept_good s ((Keeps.refl h).clearLost v) _

theorem good_slot {h : Hall} (s : h.Sound) (c : h.ceilings = []) {r : Hall × Option Nat} (x : h.Keeps r.1) : (answerSlot h r).Good := by
  unfold answerSlot; split
  · exact Hall.accept_good s x _
  · exact ⟨s, c⟩

theorem good_manual {h : Hall} (s : h.Sound) (c : h.ceilings = []) (k id b p d) : (h.takeManual k id b p d).Good := by
  unfold Hall.takeManual; dsimp only
  have m : ∀ k ref r b d, (h.manualReel k ref r b d).Good := fun k ref r b d => by
    unfold Hall.manualReel; dsimp only
    split
    · exact ⟨s, c⟩
    split
    · split
      · exact good_slot s c ((Keeps.refl h).after ((Follows.refl h).createWithBay _ _))
      · exact ⟨s, c⟩
    · exact good_slot s c ((Keeps.refl h).after ((Follows.refl h).createWithBay _ _))
    · split
      · exact ⟨s, c⟩
      · split
        · rename_i e
          exact Hall.accept_good s ((Keeps.refl h).on ((((Follows.refl h).makeReturn _ b).pair e).handles.modMission _ _)) _
        · exact ⟨s, c⟩
    · exact ⟨s, c⟩
  repeat' split
  all_goals try exact ⟨s, c⟩
  any_goals exact m _ _ _ _ _
  · exact good_slot s c ((Keeps.refl h).after ((Follows.refl h).createMission _))

theorem good_cancel {h : Hall} (s : h.Sound) (c : h.ceilings = []) (n) : (h.takeCancel n).Good := by
  unfold Hall.takeCancel
  split
  · exact ⟨s, c⟩
  split
  · rename_i e
    exact Hall.accept_good s ((Keeps.refl h).on (((Handles.refl h).hostCancel n _).pair e)) _
  · exact ⟨s, c⟩

theorem keeps_goOn {h g : Hall} (x : h.Keeps g) (v) : h.Keeps (g.goOn v) := by
  unfold Hall.goOn; dsimp only; split
  · exact x.after ((Follows.refl g).resumeMission _)
  · exact x.after ((Follows.refl g).returnIfOwed _)
  · exact x.after (((Follows.refl g).chargeTest _).push _)

theorem good_ackAbort {h : Hall} (s : h.Sound) (c : h.ceilings = []) (v) : (h.takeAckAbort v).Good := by
  unfold Hall.takeAckAbort
  repeat' split
  all_goals try exact ⟨s, c⟩
  · exact Hall.accept_good s ((Keeps.refl h).modVehicle v _) _
  · exact Hall.accept_good s (keeps_goOn ((Keeps.refl h).modVehicle v _) v) _

theorem follows_resumeVehicle (h : Hall) (v) : h.Follows (h.resumeVehicle v) := by
  unfold Hall.resumeVehicle; dsimp only; split
  · exact ((Follows.refl h).modVehicle v _).issue v _
  · exact Follows.refl h

theorem good_resume {h : Hall} (s : h.Sound) (c : h.ceilings = []) : (h.takeResume).Good := by
  unfold Hall.takeResume
  split
  · exact ⟨s, c⟩
  extract_lets g1 g2
  have h1 : h.Keeps g1 := Keeps.after (b := { h with allStop := false }) (Keeps.refl h).next ((Follows.refl _).resumeWalk)
  have h2 : h.Keeps g2 := h1.after (Hall.Follows.foldl follows_resumeVehicle _ (Follows.refl g1))
  exact Hall.accept_good s (h2.after (((Follows.refl g2).serveChargers).push _)) _

theorem good_params {h : Hall} (s : h.Sound) (c : h.ceilings = []) (b a) : (h.takeParams b a).Good := by
  unfold Hall.takeParams; dsimp only
  repeat' split
  all_goals try exact ⟨s, c⟩
  refine Hall.accept_good s (Keeps.push (Keeps.oweAll ?_) _) _
  exact (Keeps.refl h).next

theorem feed_sound {c : LineCfg} (hc : c.Sound) {a : LineFeedArgs} (ha : feedArgsFit a = true) (ho : ¬ (c.set a).lineMax < (c.set a).crawl) :
    (c.set a).Sound := by
  have h1 := hc.lineMax
  have h2 := hc.crawl
  unfold feedArgsFit at ha
  simp only [Bool.and_eq_true, optStep, optIn] at ha
  obtain ⟨⟨⟨⟨⟨⟨⟨-, m⟩, -⟩, k⟩, -⟩, -⟩, -⟩, -⟩ := ha
  refine ⟨?_, ?_, by omega⟩
  · unfold LineCfg.set; dsimp only
    cases e : a.lineMax with
    | none => simpa [e] using h1
    | some x => simpa [e] using m
  · unfold LineCfg.set; dsimp only
    cases e : a.crawl with
    | none => simpa [e] using h2
    | some x => simpa [e] using k

theorem good_feed {h : Hall} (s : h.Sound) (c : h.ceilings = []) (b n a) : (h.takeFeed b n a).Good := by
  unfold Hall.takeFeed; extract_lets old k
  split
  · exact ⟨s, c⟩
  rename_i hk
  split
  · exact ⟨s, c⟩
  have hs : k.Sound := by
    simp only [Bool.or_eq_true, Bool.not_eq_true', decide_eq_true_eq, not_or, Bool.not_eq_false, Bool.and_eq_true] at hk
    refine feed_sound ?_ hk.1.2 hk.2
    unfold old Hall.line
    cases e : tget h.lines n with
    | none => exact ⟨rfl, rfl, by decide⟩
    | some l => exact (s.lines _ (tget_mem e)).cfg
  split
  · exact Hall.accept_good s ((Keeps.refl h).refeedLine n hs) _
  · exact Hall.accept_good s ((Keeps.refl h).configureLine n hs _) _

theorem good_stand {h : Hall} (s : h.Sound) (c : h.ceilings = []) (b st a) : (h.takeStand b st a).Good := by
  unfold Hall.takeStand; dsimp only
  repeat' split
  all_goals try exact ⟨s, c⟩
  · exact Hall.accept_good s (Keeps.oweCeiling (b := { h with stands := _ }) (Keeps.refl h).next _) _
  · exact Hall.accept_good s ((Keeps.refl h).reconfigureStand st _) _

theorem good_out {h : Hall} (s : h.Sound) (c : h.ceilings = []) (st) : (h.takeOut st).Good := by
  unfold Hall.takeOut
  repeat' split
  all_goals try exact ⟨s, c⟩
  exact Hall.accept_good s ((Keeps.refl h).outOfService st) _

theorem good_in {h : Hall} (s : h.Sound) (c : h.ceilings = []) (st) : (h.takeIn st).Good := by
  unfold Hall.takeIn
  repeat' split
  all_goals try exact ⟨s, c⟩
  exact Hall.accept_good s ((Keeps.refl h).intoService st) _

theorem good_return {h : Hall} (s : h.Sound) (c : h.ceilings = []) (st) : (h.takeReturn st).Good := by
  unfold Hall.takeReturn
  repeat' split
  all_goals try exact ⟨s, c⟩
  rename_i e
  refine Hall.accept_good s ((Keeps.refl h).on ?_) _
  unfold Hall.beginUnload; dsimp only
  exact (((((Follows.refl h).createWithBay _ _).pair e).handles.changeArm _ _ _).endPrep _).sendLine _ _

theorem handles_declared {c k : Bool} {a b : Hall} (x : a.Handles c k b) (st y) : a.Handles c k (b.armDeclared st y) := by
  unfold Hall.armDeclared; extract_lets g
  have h1 : a.Handles c k g := (x.trimPrep st).modArm st y _
  split
  · split
    · exact (h1.setMode _ _).lockTest _
    · exact h1
  · exact h1

theorem good_declareArm {h : Hall} (s : h.Sound) (c : h.ceilings = []) (st y r o) : (h.takeDeclareArm st y r o).Good := by
  unfold Hall.takeDeclareArm
  repeat' split
  all_goals try exact ⟨s, c⟩
  · exact Hall.accept_good s ((Keeps.refl h).on (handles_declared ((Handles.refl h).takeOccupancy _ _ _ _) _ _)) _
  · exact Hall.accept_good s ((Keeps.refl h).on (handles_declared ((Handles.refl h).takeRole _ _ _) _ _)) _
  · exact Hall.accept_good s ((Keeps.refl h).on (handles_declared (((Handles.refl h).vacate _ _).adopt _ _ _ _) _ _)) _
  · rename_i e
    have x := (Keeps.refl h).on (((Handles.refl h).adopt _ _ _ _).pair e)
    exact ⟨Hall.finish_sound (x _ s), Hall.finish_ceilings _⟩

theorem good_ceiling {h : Hall} (s : h.Sound) (c : h.ceilings = []) (n v) : (h.takeCeiling n v).Good := by
  unfold Hall.takeCeiling
  split
  · exact ⟨s, c⟩
  rename_i l hl
  refine Hall.accept_good s ((Keeps.refl h).hostCeiling n _ l fun y hy => ?_) _
  have e : some l = some y := hl.symm.trans hy
  cases e
  exact Keeps.lineCfg_fit (s.lines _ (tget_mem hy)).cfg v

theorem good_ackCeiling {h : Hall} (s : h.Sound) (c : h.ceilings = []) (n) : (h.takeAckCeiling n).Good := by
  unfold Hall.takeAckCeiling
  repeat' split
  all_goals try exact ⟨s, c⟩
  · exact Hall.accept_good s (((Keeps.refl h).modLine n _).after ((Follows.refl _).noteCeiling n)) _
  · exact Hall.accept_good s (Keeps.refl h) _

theorem good_counting {h : Hall} (s : h.Sound) (c : h.ceilings = []) (b n a) : (h.takeCounting b n a).Good := by
  unfold Hall.takeCounting
  repeat' split
  all_goals try exact ⟨s, c⟩
  exact Hall.accept_good s ((Keeps.refl h).recount n _) _

theorem finalizeAll_ceilings (h : Hall) (n) : (h.finalizeAll n).ceilings = h.ceilings := by
  have book : ∀ (h : Hall) g w, (h.bookCopies n g w).ceilings = h.ceilings := fun h g w => by
    unfold Hall.bookCopies
    split
    · split
      · rfl
      · dsimp only; split <;> simp
    · rfl
  unfold Hall.finalizeAll; split
  · unfold Hall.finalizeTo; split
    · split
      · rfl
      · rw [book]; rfl
    · rfl
  · rfl

theorem good_clear {h : Hall} (s : h.Sound) (c : h.ceilings = []) (n) : (h.takeClearCounters n).Good := by
  unfold Hall.takeClearCounters
  split
  · exact ⟨s, c⟩
  split
  · exact ⟨s, c⟩
  have h1 := (Keeps.refl h).on ((Handles.refl h).finalizeAll n)
  dsimp only; split
  · exact Hall.accept_good s (h1.on ((Handles.refl _).clearCounts n _)) _
  · exact ⟨h1 _ s, (finalizeAll_ceilings h n).trans c⟩

theorem keeps_editions {h g : Hall} (x : h.Keeps g) (e) : h.Keeps { g with editions := e } := x.next

theorem good_open {h : Hall} (s : h.Sound) (c : h.ceilings = []) (n m t) : (h.takeOpen n m t).Good := by
  unfold Hall.takeOpen
  repeat' split
  all_goals try exact ⟨s, c⟩
  refine Hall.accept_good s ?_ _
  unfold Hall.openEdition; extract_lets g1 g2
  have h1 : h.Keeps g1 := (Keeps.refl h).next
  have h2 : h.Keeps g2 := h1.on (((Handles.refl g1).finalizeAll m).modCount m _ fun y _ t => ⟨t.range, t.order, t.depth, t.room, t.list, t.books⟩)
  have h3 : h.Keeps (g2.startInterval m) := by
    unfold Hall.startInterval; split
    · exact h2.on ((Handles.refl g2).divert _ _ _ _)
    · exact h2
  unfold Hall.enterRunning
  refine h3.foldl (fun k st => ?_) _
  split
  · exact (Keeps.refl k).on ((Handles.refl k).reportRun _ _)
  · exact Keeps.refl k

theorem good_close {h : Hall} (s : h.Sound) (c : h.ceilings = []) (n m) : (h.takeClose n m).Good := by
  unfold Hall.takeClose
  repeat' split
  all_goals try exact ⟨s, c⟩
  refine Hall.accept_good s ?_ _
  unfold Hall.closeEdition; extract_lets g1 g2
  have h1 : h.Keeps g1 := (Keeps.refl h).on (((Handles.refl h).finalizeAll n).modCount n _ fun y _ t => ⟨t.range, t.order, t.depth, t.room, t.list, t.books⟩)
  have h2 : h.Keeps g2 := h1.next
  split
  · exact h2.after ((Follows.refl g2).notify _)
  · exact h2

theorem good_queryEdition {h : Hall} (s : h.Sound) (c : h.ceilings = []) (n m) : (h.takeQueryEdition n m).Good := by
  unfold Hall.takeQueryEdition
  repeat' split
  all_goals try exact ⟨s, c⟩
  exact ⟨((Keeps.refl h).next) _ s, c⟩

theorem good_clearUn {h : Hall} (s : h.Sound) (c : h.ceilings = []) (n) : (h.takeClearUnassigned n).Good := by
  unfold Hall.takeClearUnassigned
  split
  · exact ⟨s, c⟩
  · exact ⟨((Keeps.refl h).next) _ s, c⟩

theorem keeps_ease {h g : Hall} (x : h.Keeps g) (k) : h.Keeps (g.easeSensor k) := by
  unfold Hall.easeSensor; split
  · split
    · exact x
    · exact x.lower _
  · exact x

theorem lower_ceilings (h : Hall) (k) : (h.lower k).ceilings = h.ceilings := by unfold Hall.lower; split <;> simp

theorem ease_ceilings (h : Hall) (k) : (h.easeSensor k).ceilings = h.ceilings := by
  unfold Hall.easeSensor; split
  · split
    · rfl
    · exact lower_ceilings _ _
  · rfl

theorem good_ack {h : Hall} (s : h.Sound) (c : h.ceilings = []) (n x) : (h.takeAck n x).Good := by
  unfold Hall.takeAck
  split
  · exact ⟨s, c⟩
  rename_i k _
  have h1 := keeps_ease (Keeps.refl h) k
  dsimp only; split
  · exact ⟨h1 _ s, (ease_ceilings h k).trans c⟩
  · split
    · exact Hall.accept_good s (h1.on ((Handles.refl _).unlatch k)) _
    · exact Hall.accept_good s h1 _

theorem good_ackAll {h : Hall} (s : h.Sound) : (h.takeAckAll).Good := by
  unfold Hall.takeAckAll
  exact Hall.accept_good s ((Keeps.refl h).foldl (fun k x => (Keeps.refl k).on ((Handles.refl k).unlatch x)) _) _

theorem good_clock {h : Hall} (s : h.Sound) (v) : (h.takeClock v).Good := by
  unfold Hall.takeClock
  refine Hall.accept_good s (Keeps.clockMoved ?_) _
  exact (Keeps.refl h).next

theorem good_tol {h : Hall} (s : h.Sound) (c : h.ceilings = []) (b v) : (h.takeTolerance b v).Good := by
  unfold Hall.takeTolerance
  repeat' split
  all_goals try exact ⟨s, c⟩
  refine Hall.accept_good s ?_ _
  exact (Keeps.refl h).next

theorem current_sound {x : Store} (sx : x.Sound) {b : Bank} (hb : x.current = some b) : b.image.Sound := by
  unfold Store.current at hb
  obtain ⟨n, -, hn⟩ := Option.bind_eq_some_iff.mp hb
  cases n
  · exact sx.bankA b hn
  · exact sx.bankB b hn

theorem good_reload {h : Hall} (s : h.Sound) (c : h.ceilings = []) {x : Store} (sx : x.Sound) : (h.takeReload x).Good := by
  unfold Hall.takeReload
  repeat' split
  all_goals try exact ⟨s, c⟩
  rename_i hb
  exact Hall.accept_good s ((Keeps.refl h).reload (current_sound sx hb)) _

theorem image_sound {h : Hall} (s : h.Sound) : h.image.Sound := fun p hp => by
  unfold Hall.image at hp
  dsimp only at hp
  obtain ⟨q, hq, e⟩ := List.mem_filterMap.mp hp
  obtain ⟨c, -, rfl⟩ := Option.map_eq_some_iff.mp e
  exact (s.lines q hq).cfg

theorem begin_sound {x : Store} (sx : x.Sound) (hn : x.save = none) {i : Image} (hi : i.Sound) : (x.begin i).Sound := by
  obtain ⟨a, b, v⟩ := x
  cases hn
  cases a with
  | none =>
    cases b with
    | none => exact ⟨fun _ h => (by cases h), fun _ h => (by cases h), fun _ h => (by cases h; exact ⟨hi, rfl, rfl⟩)⟩
    | some b => exact ⟨fun _ h => (by cases h), fun _ h => by cases h; exact sx.bankB b rfl, fun _ h => (by cases h; exact ⟨hi, rfl, rfl⟩)⟩
  | some a =>
    cases b with
    | none => exact ⟨fun _ h => (by cases h; exact sx.bankA a rfl), fun _ h => (by cases h), fun _ h => (by cases h; exact ⟨hi, rfl, rfl⟩)⟩
    | some b =>
      by_cases hl : a.generation < b.generation
      · have e : Store.begin ⟨some a, some b, none⟩ i = ⟨none, some b, some ⟨satAdd Config.max32 b.generation 1, i, .a⟩⟩ := by
          simp [Store.begin, Store.target, Store.currentName, Store.nextGeneration, Store.current, hl, Store.setBank, Store.bank]
        rw [e]
        exact ⟨fun _ h => (by cases h), fun _ h => by cases h; exact sx.bankB b rfl, fun _ h => (by cases h; exact ⟨hi, rfl, rfl⟩)⟩
      · have e : Store.begin ⟨some a, some b, none⟩ i = ⟨some a, none, some ⟨satAdd Config.max32 a.generation 1, i, .b⟩⟩ := by
          simp [Store.begin, Store.target, Store.currentName, Store.nextGeneration, Store.current, hl, Store.setBank, Store.bank]
        rw [e]
        exact ⟨fun _ h => (by cases h; exact sx.bankA a rfl), fun _ h => (by cases h), fun _ h => (by cases h; exact ⟨hi, rfl, rfl⟩)⟩

theorem complete_sound {x : Store} (sx : x.Sound) {v : Save} (hv : x.save = some v) (ok) : (x.complete v ok).Sound := by
  have hi := (sx.save v hv).1
  have hA := sx.bankA
  have hB := sx.bankB
  obtain ⟨g, i, t⟩ := v
  unfold Store.complete
  cases t <;> cases ok
  · exact ⟨fun b h => (by cases h), hB, fun _ h => by cases h⟩
  · exact ⟨fun b h => (by cases h; exact hi), hB, fun _ h => by cases h⟩
  · exact ⟨hA, fun b h => (by cases h), fun _ h => by cases h⟩
  · exact ⟨hA, fun b h => (by cases h; exact hi), fun _ h => by cases h⟩

theorem abandon_sound {x : Store} (sx : x.Sound) : x.abandon.Sound := ⟨sx.bankA, sx.bankB, fun _ h => by cases h⟩

theorem saved_sound {s : State} (h : s.Sound) (q) : (s.saveConfiguration q).Sound := by
  unfold State.saveConfiguration; split
  · exact State.request_sound h _ _ ⟨h.hall, h.settled⟩
  · rename_i hs
    simp only [Bool.or_eq_true, not_or, Bool.not_eq_true, State.saving, Option.isSome_eq_false_iff, Option.isNone_iff_eq_none] at hs
    exact State.request_sound (s := { s with store := s.store.begin s.hall.image })
      ⟨h.hall, h.settled, begin_sound h.store hs.2 (image_sound h.hall)⟩ _ _
      (f := fun h => h.tell (.number s.store.nextGeneration)) ⟨h.hall, h.settled⟩

theorem saveDone_sound {s : State} (h : s.Sound) {x : Save} (hx : s.store.save = some x) (ok) : (s.saveDone x ok).Sound := by
  have k := (Keeps.refl s.hall).after ((Follows.refl s.hall).notify (.configurationSaved ok x.generation))
  have c : (s.hall.notify (.configurationSaved ok x.generation)).ceilings = [] := by simp [h.settled]
  unfold State.saveDone
  refine ⟨?_, ?_, complete_sound h.store hx ok⟩
  · dsimp only; split
    · exact (k.lower _) _ h.hall
    · exact k _ h.hall
  · dsimp only; split
    · rw [lower_ceilings, c]
    · exact c

theorem tview_map_mem {α β : Type} (f : α → β) {l : Table α} {n : Nat} {b : β} (h : tget (l.map fun p => (p.1, f p.2)) n = some b) :
    ∃ a, (n, a) ∈ l ∧ f a = b := by
  have := tget_mem h
  obtain ⟨p, hp, e⟩ := List.mem_map.mp this
  cases e; exact ⟨p.2, hp, rfl⟩

theorem blank_sound (c st) {i : Image} (hi : i.Sound) (d s) : (Hall.blank c st i d s).Sound := by
  unfold Hall.blank
  refine ⟨⟨rfl, fun p hp => by cases hp⟩, Nat.zero_le _, fun n y hy => ?_, fun p hp => ?_, fun n l hl => ?_⟩
  · obtain ⟨a, -, rfl⟩ := tview_map_mem (fun p : LineCfg × CountCfg => LineCount.fresh p.2) hy
    exact Keeps.lineCountFresh_sound _
  · obtain ⟨q, hq, rfl⟩ := List.mem_map.mp hp
    have := (Keeps.lineFresh_sound (hi q hq) 0).1
    exact ⟨this.cfg, this.step, this.host, this.low, this.high⟩
  · obtain ⟨a, ha, rfl⟩ := tview_map_mem (fun p : LineCfg × CountCfg => ({ Line.fresh p.1 0 with oweHold := true } : Line)) hl
    have := (Keeps.lineFresh_sound (hi _ ha) 0).2
    exact .inl ⟨this.low, this.high⟩

theorem raise_config_ceilings (h : Hall) : (h.raise ⟨.configDefaults, .none⟩).ceilings = h.ceilings := by
  unfold Hall.raise; split
  · rfl
  · simp [stopsFleet]

theorem cold_sound {s : State} (h : s.Sound) (c st) : (s.coldReset c st).Sound := by
  unfold State.coldReset Hall.cold
  refine ⟨?_, ?_, abandon_sound h.store⟩
  · dsimp only; split
    · rename_i b hb
      exact ((Follows.refl _).notify _).sound _ (blank_sound c st (current_sound h.store hb) _ _)
    · refine ((Handles.refl (c := false) (k := false) _).notify _ |>.raise _).sound _ (blank_sound c st ?_ _ _)
      intro p hp; cases hp
  · dsimp only; split
    · simp [Hall.blank]
    · rw [raise_config_ceilings]; simp [Hall.blank]

theorem map_lines_sound {h : Hall} (s : h.Sound) (f : Line → Line) (h1 : ∀ l, (f l).cfg = l.cfg) (h2 : ∀ l, (f l).hostCeiling = l.hostCeiling)
    (h3 : ∀ l, (f l).ceiling = l.ceiling) (g : Stand → Stand) (k : LineCount → LineCount) (hk : ∀ y : LineCount, y.Sound → (k y).Sound) :
    ({ h with stands := h.stands.map fun p => (p.1, g p.2), lines := h.lines.map fun p => (p.1, f p.2), counts := h.counts.map fun p => (p.1, k p.2) } : Hall).Sound := by
  refine ⟨s.faults, s.notices, fun n y hy => ?_, fun p hp => ?_, fun n l hl => ?_⟩
  · have := hy
    change tget (tview k h.counts) n = some y at this
    rw [tget_tview] at this
    obtain ⟨z, hz, rfl⟩ := Option.map_eq_some_iff.mp this
    exact hk _ (s.counts n z hz)
  · obtain ⟨q, hq, rfl⟩ := List.mem_map.mp hp
    have t := s.lines q hq
    exact ⟨by simpa [h1] using t.cfg, by simpa [h3] using t.step, by simpa [h2] using t.host, by simpa [h1, h2] using t.low, by simpa [h1, h2] using t.high⟩
  · have := hl
    change tget (tview f h.lines) n = some l at this
    rw [tget_tview] at this
    obtain ⟨z, hz, rfl⟩ := Option.map_eq_some_iff.mp this
    refine (s.ceilings n z hz).imp_left fun t => ?_
    exact ⟨by simpa [h1, h3] using t.low, by simpa [h1, h2, h3, Line.top] using t.high⟩

theorem keeps_restartCeiling (h : Hall) (n) : h.Keeps (h.restartCeiling n) := by
  unfold Hall.restartCeiling; split
  · rename_i l hl
    intro o s
    have hl : tget h.lines n = some l := hl
    obtain ⟨y, hy, hf, hc⟩ := Hall.takeConstraining_get h n (h.lineValues n) hl
    have hcfg : y.cfg = l.cfg := by have e := congrArg Line.cfg hf; exact e
    have hhost : y.hostCeiling = l.hostCeiling := by have e := congrArg Line.hostCeiling hf; exact e
    obtain ⟨f1, f2, f3⟩ := l.formed_sound (s.lines _ (tget_mem hl)) ((h.lineValues n).map (·.2))
    have s' := ((Follows.refl h).takeConstraining n (h.lineValues n)).sound _ s
    refine ((Follows.refl _).sendCeiling n).sound o ⟨s'.faults, s'.notices, s'.counts, fun p hp => ?_, fun k l' hl' => ?_⟩
    · rcases mem_tmod hp with hp | ⟨z, hz, _, rfl⟩
      · exact s'.lines p hp
      · have t := s'.lines _ hz
        exact ⟨t.cfg, f1, t.host, t.low, t.high⟩
    · by_cases hk : k = n
      · subst hk
        rw [Hall.modLine_lines, tget_tmod_same, hy] at hl'
        cases hl'
        exact .inl ⟨hcfg ▸ f2, by simpa [Line.top, hcfg, hhost] using f3⟩
      · rw [Hall.modLine_lines, tget_tmod_ne _ _ hk] at hl'
        exact s'.ceilings k l' hl'
  · exact Keeps.refl h

theorem warm_sound {h : Hall} (s : h.Sound) (c : h.ceilings = []) (k) : (h.warm k).Sound := by
  unfold Hall.warm; extract_lets g
  have h1 : (h.restartLinks k).Sound := by
    unfold Hall.restartLinks
    refine ((Follows.refl _).notify _).sound _ ⟨s.faults, Nat.zero_le _, s.counts, s.lines, fun n l hl => ?_⟩
    have := s.ceilings n l hl
    rw [c] at this
    simpa using this
  have h2 : (h.restartLinks k).Keeps (h.restartLinks k).restartFleet := by
    generalize h.restartLinks k = b
    unfold Hall.restartFleet; extract_lets a1 a2 a3 a4
    have k0 : b.Keeps { b with allStop := false } := (Keeps.refl b).next
    have k1 : b.Keeps a1 := by
      refine k0.foldl (fun h p => ?_) _
      unfold Hall.dropMission; extract_lets d
      have kd : h.Keeps d := by
        unfold d; split
        · exact (Keeps.refl h).on ((Handles.refl h).abort _ _)
        · exact Keeps.refl h
      exact Keeps.after (b := { d with missions := _ }) kd.next ((Follows.refl _).notify _).watchBays
    have k2 : b.Keeps a2 := by
      refine k1.foldl (fun h p => ?_) _
      unfold Hall.freeReel; split
      · exact (Keeps.refl h).on ((Handles.refl h).putReel _ _)
      · split
        · exact (Keeps.refl h).on ((Handles.refl h).putReel _ _)
        · exact Keeps.refl h
    have k3 : b.Keeps a3 := k2.next
    have k4 : b.Keeps a4 := by
      refine k3.foldl (fun h v => ?_) _
      unfold Hall.restartVehicle; split
      · exact ((((Keeps.refl h).modVehicle v _).lower _).lower _).after ((Follows.refl _).issue v _)
      · exact Keeps.refl h
    clear_value a4
    refine Keeps.lower ?_ _
    exact k4.next
  have h3 : g.Sound := by
    have hb := h2 _ h1
    unfold g
    generalize (h.restartLinks k).restartFleet = b at hb
    unfold Hall.restartFeed; extract_lets a1 a2 a3 a4
    have k1 : a1.Sound := ((Keeps.refl b).foldl (fun h p => (Keeps.refl h).lower _) _) _ hb
    have k2 : a2.Sound := map_lines_sound k1 (Line.restarted a1.timebase) (fun _ => rfl) (fun _ => rfl) (fun _ => rfl) Stand.restarted
      (fun y => { y with intervals := y.intervals.map fun iv => { iv with sent := false }, resend := true })
      fun y t => ⟨t.range, t.order, t.depth, by simpa using t.room, t.list.map fun _ => ⟨rfl, rfl⟩, t.books⟩
    have k3 : a3.Sound := ((Keeps.refl a2).foldl (fun h n => by
      unfold Hall.rebuildPrep; split
      · split
        · exact (Keeps.refl h).modLine n _
        · exact ((Keeps.refl h).modLine n _).after ((Follows.refl _).sendPanel n)
      · exact Keeps.refl h) _) _ k2
    have k4 : a4.Sound := ((Keeps.refl a3).foldl (fun h n => keeps_restartCeiling h n) _) _ k3
    exact ((Keeps.refl a4).foldl (fun h n => (Keeps.refl h).on ((Handles.refl h).evalHold n)) _) _ k4
  refine Hall.finish_sound (((Keeps.refl g).foldl (fun h p => ?_) _ |>.after (Follows.refl _).watchBays) _ h3)
  unfold Hall.restartIntake; split
  · exact (Keeps.refl h).after ((Follows.refl h).makeIntake _)
  · exact Keeps.refl h

theorem warm_ceilings (h : Hall) (k) : (h.warm k).ceilings = [] := by
  unfold Hall.warm; exact Hall.finish_ceilings _

end Sys2Proof.Machine
end

