-- ==== Sys2Proof/Laws/Completes.lean ====
section
/-! SUPPORT. How a request or a message completes: the answer, and the way from what it makes of the hall to the next state. -/

-- One theorem after another: elaborated all at once they ask for more threads than the check has room for.
set_option Elab.async false

namespace Sys2Proof.Machine

/-! ### Reading through the consequences of an event -/

namespace Hall.Trace

variable {a b : Hall}

theorem of_eq (h : b = a) : a.Trace b := by subst h; exact (Hall.Follows.refl b).toSteps.trace

/-- A field the consequences leave as it was. -/
theorem field (x : a.Trace b) {α : Type} (f : Hall → α) (hf : ∀ h : Hall, f h.ground = f h := by intro; rfl) : f b = f a := by
  have e := congrArg f x.same
  rwa [hf, hf] at e

theorem vehicles (x : a.Trace b) (v : Nat) : (tget b.vehicles v).map Vehicle.fixed = (tget a.vehicles v).map Vehicle.fixed := by
  have e := congrArg Hall.vehicles x.same
  have e : tview Vehicle.fixed b.vehicles = tview Vehicle.fixed a.vehicles := e
  rw [← tget_tview, e, tget_tview]

theorem reels (x : a.Trace b) (i : Nat) : (tget b.reels i).map Reel.fixed = (tget a.reels i).map Reel.fixed := by
  have e := congrArg Hall.reels x.same
  have e : tview Reel.fixed b.reels = tview Reel.fixed a.reels := e
  rw [← tget_tview, e, tget_tview]

theorem bays (x : a.Trace b) (i : Nat) : (tget b.bays i).map Bay.fixed = (tget a.bays i).map Bay.fixed := by
  have e := congrArg Hall.bays x.same
  have e : tview Bay.fixed b.bays = tview Bay.fixed a.bays := e
  rw [← tget_tview, e, tget_tview]

theorem lines (x : a.Trace b) (n : Nat) : (tget b.lines n).map Line.fixed = (tget a.lines n).map Line.fixed := by
  have e := congrArg Hall.lines x.same
  have e : tview Line.fixed b.lines = tview Line.fixed a.lines := e
  rw [← tget_tview, e, tget_tview]

theorem standsFixed (x : a.Trace b) (k : Nat) : (tget b.stands k).map Stand.fixed = (tget a.stands k).map Stand.fixed := by
  have e := congrArg Hall.stands x.same
  have e : tview Stand.fixed b.stands = tview Stand.fixed a.stands := e
  rw [← tget_tview, e, tget_tview]

theorem counts (x : a.Trace b) : b.counts = a.counts := x.field Hall.counts

/-- An entry no consequence changes. -/
theorem fault (x : a.Trace b) {k : FaultKey} (h : cascadeEntry k.num = false) : b.fault k = a.fault k := by
  have e := congrArg Hall.faults x.same
  have e : b.faults.filter (fun p => !cascadeEntry p.1) = a.faults.filter (fun p => !cascadeEntry p.1) := e
  unfold Hall.fault
  rw [← tget_filter (fun n => !cascadeEntry n) b.faults k.num (by simp [h]), e, tget_filter (fun n => !cascadeEntry n) _ _ (by simp [h])]


end Hall.Trace

/-- The consequences made when an event ends. -/
theorem Hall.Steps.finish {a b : Hall} (x : a.Steps b) : a.Steps b.finish := x.trans b.finish_steps

/-! ### Consequences, but for the missions -/

/-- Consequences lead from `a` to `b`, but for what has become of the missions. -/
def Hall.TraceBut (a b : Hall) : Prop := Hall.Steps { a with missions := [] } { b with missions := [] }

namespace Hall.TraceBut

variable {a b d : Hall}

theorem of_steps (x : a.Steps b) : a.TraceBut b where
  same := x.same
  sent := x.sent
  notices := x.notices
  stands := x.stands
  missions _ _ h := by simp at h
  zones := x.zones
  aborts := x.aborts

theorem refl (a : Hall) : a.TraceBut a := of_steps (Follows.refl a).toSteps

theorem trans (x : a.TraceBut b) (y : b.TraceBut d) : a.TraceBut d := Hall.Steps.trans x y

theorem follow (x : a.TraceBut b) (y : b.Follows d) : a.TraceBut d := x.trans (of_steps y.toSteps)

/-- What a statement that says nothing of missions says. -/
theorem steps (x : a.TraceBut b) : Hall.Steps { a with missions := [] } b where
  same := x.same
  sent := x.sent
  notices := x.notices
  stands := x.stands
  missions _ _ h := by simp at h
  zones := x.zones
  aborts := x.aborts

theorem modMission (x : a.TraceBut b) (k : Nat) (f : Mission → Mission) : a.TraceBut (b.modMission k f) := x

theorem withMissions (x : a.TraceBut b) (t : Table Mission) : a.TraceBut { b with missions := t } := x

theorem contentOfReturn (x : a.TraceBut b) (slot : Nat) (q : Bool) : a.TraceBut (b.contentOfReturn slot q) := by
  unfold Hall.contentOfReturn; split
  · split
    · dsimp only; split
      · exact x
      · have h1 := x.follow ((Follows.refl b).dropReservation slot)
        generalize b.dropReservation slot = e at h1 ⊢
        exact (h1.modMission slot _).follow (((Follows.refl _).reserve _ _).watchBays)
    · exact x
  · exact x

theorem turnToReturn (x : a.TraceBut b) (slot : Nat) (q : Bool) : a.TraceBut (b.turnToReturn slot q) := by
  unfold Hall.turnToReturn; split
  · rename_i m hm
    extract_lets g1 g2 g3 g4
    have h1 : a.TraceBut g1 := x.follow ((Follows.refl b).releaseReel m _)
    have h3 : a.TraceBut g3 := (h1.modMission slot _).contentOfReturn slot q
    have h4 : a.TraceBut g4 := by
      unfold g4; split
      · split
        · exact h3
        · exact h3.follow ((Follows.refl _).closeHandover _)
      · exact h3
    split
    · exact h4.follow (((Follows.refl _).push _).oweCeiling _)
    · exact h4
  · exact x

/-- The end of a mission that is no RETURN, from the table without it (R94). -/
theorem ended (b : Hall) (slot : Nat) (o : MissionOutcome) {m : Mission} (hm : b.mission slot = some m) (hk : m.kind ≠ .ret) :
    Hall.Follows { b with missions := tdel b.missions slot } (b.endMission slot o) := by
  unfold Hall.endMission; split
  · rename_i m' hm'
    have hk : m'.kind ≠ .ret := by rw [hm] at hm'; cases hm'; exact hk
    have h1 := (Follows.refl { b with missions := tdel b.missions slot }).notify (.missionEnd slot m'.kind m'.reel m'.vehicle o)
    extract_lets g1 g2 g3 g4 g5 g6
    have h3 : Hall.Follows { b with missions := tdel b.missions slot } g3 := by
      unfold g3; split
      · exact h1.modVehicle _ _
      · exact h1
    have h4 : Hall.Follows { b with missions := tdel b.missions slot } g4 := (h3.dropReservation slot).watchBays.oweSlots
    have h5 : Hall.Follows { b with missions := tdel b.missions slot } g5 := by
      unfold g5; split
      · exact h4.closeHandover _
      · exact h4
    have h6 : Hall.Follows { b with missions := tdel b.missions slot } g6 := by
      unfold g6; split
      · rename_i hr _; exact absurd hr hk
      · exact h5
    split
    · exact (h6.push _).oweCeiling _
    · exact h6
  · rename_i hn; rw [hm] at hn; cases hn

theorem endMission (x : a.TraceBut b) (slot : Nat) (o : MissionOutcome)
    (hk : ∀ m, b.mission slot = some m → m.kind ≠ .ret) : a.TraceBut (b.endMission slot o) := by
  cases hm : b.mission slot with
  | some m => exact (x.withMissions (tdel b.missions slot)).follow (ended b slot o hm (hk m hm))
  | none => unfold Hall.endMission; rw [hm]; exact x

theorem cancelBeforePick (x : a.TraceBut b) (slot : Nat) (o : MissionOutcome)
    (hk : ∀ m, b.mission slot = some m → m.kind ≠ .ret) : a.TraceBut (b.cancelBeforePick slot o) := by
  unfold Hall.cancelBeforePick; split
  · rename_i m hm
    have h1 := (x.follow ((Follows.refl b).releaseReel m .fleetController)).endMission slot o fun m' h => hk m' (by simpa [Hall.mission] using h)
    dsimp only; split
    · exact h1.follow (((Follows.refl _).direct _ _).afterEnd _ _ _)
    · exact h1
  · exact x

end Hall.TraceBut

/-! ### Modes of a stand -/

theorem tmod_tmod {α : Type} (t : Table α) (k : Nat) (f g : α → α) : tmod (tmod t k f) k g = tmod t k fun v => g (f v) := by
  induction t with
  | nil => rfl
  | cons p t ih => obtain ⟨j, v⟩ := p; simp only [tmod]; split <;> simp_all [tmod]

/-- A mode that bars a load is set: what follows is the ceiling (R116). -/
theorem Hall.setMode_barred (h : Hall) (st : StandAddr) (m : Mode) (hb : m.barsLoad = true) :
    h.setMode st m = (h.modStand st fun s => { s with mode := m }).oweCeiling st.line := by
  unfold Hall.setMode; cases m <;> simp_all [Mode.barsLoad]

/-- A mode is set: consequences follow from the stand with that mode. -/
theorem Hall.setMode_follows (h : Hall) (st : StandAddr) (m : Mode) :
    Hall.Follows (h.modStand st fun s => { s with mode := m }) (h.setMode st m) := by
  have h1 := (Follows.refl (h.modStand st fun s => { s with mode := m })).oweCeiling st.line
  unfold Hall.setMode; dsimp only
  split <;> split
  · exact (h1.push _).push _
  · exact h1.push _
  · exact h1.push _
  · exact h1

/-! ### Requests -/

theorem State.request_taken {q : Req} {kind : Nat} (h : q.ok kind) (s : State) (f : Hall → Answer) :
    s.request q kind f = ({ s with hall := (f s.hall).hall } : State).reply q kind (f s.hall).status (f s.hall).content := by
  obtain ⟨h1, h2⟩ := h
  simp [State.request, h1, h2]

/-- An accepted request: what the block makes of the hall is `b`, to which consequences lead from `g`. -/
theorem State.request_accepts {q : Req} {kind : Nat} (h : q.ok kind) {s : State} {f : Hall → Answer} {b g : Hall} {c : Content}
    (hf : f s.hall = b.accept c) (hg : g.Steps b) : s.Accepts (s.request q kind f) q kind c g := by
  rw [State.request_taken h, hf]
  exact ⟨rfl, hg.finish.trace⟩

theorem State.request_answers {q : Req} {kind : Nat} (h : q.ok kind) {s : State} {f : Hall → Answer} {a : Answer}
    (hf : f s.hall = a) : s.Answers (s.request q kind f) q kind a.status a.content ∧ (s.request q kind f).hall = a.hall := by
  rw [State.request_taken h, hf]; exact ⟨rfl, rfl⟩

/-- A query or a refusal. -/
theorem State.request_tells {q : Req} {kind : Nat} (h : q.ok kind) {s : State} {f : Hall → Answer} {x : Status} {c : Content}
    (hf : f s.hall = ⟨s.hall, x, c⟩) : s.request q kind f = s.reply q kind x c := by
  rw [State.request_taken h, hf]

/-! ### The counts of a line through its finalizing (R165, R166) -/

section
variable (h : Hall)

@[simp] theorem Hall.bookCopies_counts (n g : Nat) (w : Waste) : (h.bookCopies n g w).counts = h.counts := by
  unfold Hall.bookCopies
  split
  · split
    · rfl
    · dsimp only; split <;> simp
  · rfl

theorem Hall.finalizeTo_count {n : Nat} {c : LineCount} (hc : h.count n = some c) (m : Nat) :
    (h.finalizeTo n m).count n = some (if m ≤ c.finalized then c else c.finalizeTo m) := by
  unfold Hall.finalizeTo
  rw [hc]
  dsimp only
  split
  · exact hc
  · have hc : tget h.counts n = some c := hc
    simp [Hall.count, Hall.modCount, hc]

theorem Hall.finalizeAll_count {n : Nat} {c : LineCount} (hc : h.count n = some c) :
    (h.finalizeAll n).count n = some (if c.counted ≤ c.finalized then c else c.finalizeTo c.counted) := by
  unfold Hall.finalizeAll
  rw [hc]
  exact h.finalizeTo_count hc _

end

end Sys2Proof.Machine
end

