-- ==== Sys2Proof/Laws/Hunt.lean ====
section
/-! SUPPORT. Hunting in received bytes (R208): the commands it finds are those frames spell, it always goes forward, and so the
bytes' own number is enough of it. -/

namespace Sys2Proof.Machine

theorem takeFrame_storeRequest (tag : Byte) (kind : Nat) (b : List Byte) (s : State) :
    takeFrame (storeRequest tag kind b) s = exec (storeRequest tag kind b) s := by
  unfold storeRequest; extract_lets; split <;> rfl

theorem takeFrame_feedRequest (tag : Byte) (kind : Nat) (b : List Byte) (s : State) :
    takeFrame (feedRequest tag kind b) s = exec (feedRequest tag kind b) s := by
  unfold feedRequest; extract_lets; split <;> rfl

theorem takeFrame_otherRequest (tag : Byte) (kind : Nat) (b : List Byte) (s : State) :
    takeFrame (otherRequest tag kind b) s = exec (otherRequest tag kind b) s := by
  unfold otherRequest; extract_lets; split <;> rfl

/-- A command that a frame spells means to hunting what it means to the part. -/
theorem takeFrame_frameCommand (l : Link) (bs : List Byte) (s : State) :
    takeFrame (frameCommand l bs) s = exec (frameCommand l bs) s := by
  unfold frameCommand
  cases l with
  | host => 
    dsimp only; unfold hostCommand; split
    · exact takeFrame_storeRequest _ _ _ _
    · split
      · exact takeFrame_feedRequest _ _ _ _
      · exact takeFrame_otherRequest _ _ _ _
  | fleet => rfl
  | line n =>
    dsimp only; unfold lineCommand; extract_lets f; split <;> try rfl
    · unfold armEventCommand; extract_lets; split <;> rfl
    · unfold phaseCommand; extract_lets; split <;> rfl
    · unfold consoleCommand; extract_lets; split <;> rfl

theorem fromStart_length (bs : List Byte) : (fromStart bs).length ≤ bs.length := List.length_dropWhile_le _ _

theorem wholeFrame_length {bs : List Byte} {n : Nat} (h : wholeFrame bs = some n) : 5 ≤ n ∧ n ≤ bs.length := by
  unfold wholeFrame at h
  cases e : frameLength bs with
  | none => simp [e] at h
  | some m => simp only [e, Option.bind_some] at h; split at h <;> simp at h; omega

/-- Hunting goes forward. -/
theorem huntIn_shorter {l : Link} {rx rest : List Byte} {x : Option Instr} (h : huntIn l rx = some (x, rest)) :
    rest.length < rx.length := by
  unfold huntIn at h
  split at h
  · rename_i hd
    have e := Prod.mk.inj (Option.some.inj h); rw [← e.2]
    have h1 := fromStart_length (rx.drop 1)
    unfold frameDiscarded at hd
    cases rx with
    | nil => simp at hd
    | cons b t => simp at h1 ⊢; omega
  · split at h
    · cases e : wholeFrame rx with
      | none => simp [e] at h
      | some n =>
        simp only [e, Option.map_some] at h
        have e2 := Prod.mk.inj (Option.some.inj h); rw [← e2.2]
        have h1 := fromStart_length (rx.drop n)
        have h2 := wholeFrame_length e
        simp at h1; omega
    · cases h

/-- What hunting finds is a command that a frame of its link spells. -/
theorem huntIn_command {l : Link} {rx rest : List Byte} {c : Instr} (h : huntIn l rx = some (some c, rest)) :
    ∃ bs, c = frameCommand l bs := by
  unfold huntIn at h
  split at h
  · cases h
  · split at h
    · cases e : wholeFrame rx with
      | none => simp [e] at h
      | some n =>
        simp only [e, Option.map_some] at h
        exact ⟨rx.take n, (Option.some.inj (Prod.mk.inj (Option.some.inj h)).1).symm⟩
    · cases h

/-- Every command hunting finds is one that a frame of its link spells. -/
theorem huntAll_command {l : Link} {n : Nat} {rx : List Byte} {c : Instr} (h : some c ∈ (huntAll l n rx).1) :
    ∃ bs, c = frameCommand l bs := by
  induction n generalizing rx with
  | zero => simp [huntAll] at h
  | succ n ih =>
    unfold huntAll at h
    split at h
    · rename_i x rest e
      rcases List.mem_cons.mp h with h1 | h1
      · subst h1; exact huntIn_command e
      · exact ih h1
    · simp at h

/-- Any fuel not below the number of bytes hunts all of them. -/
theorem huntAll_fuel (l : Link) {n : Nat} {rx : List Byte} (h : rx.length ≤ n) : huntAll l n rx = huntAll l rx.length rx := by
  suffices key : ∀ k n rx, rx.length ≤ k → rx.length ≤ n → huntAll l n rx = huntAll l k rx from key _ _ _ le_rfl h
  clear h n rx
  intro k
  induction k with
  | zero =>
    intro n rx h _
    have e : rx = [] := List.length_eq_zero_iff.mp (Nat.le_zero.mp h)
    subst e
    cases n with
    | zero => rfl
    | succ n =>
      unfold huntAll; split
      · rename_i x rest e; exact absurd (huntIn_shorter e) (Nat.not_lt_zero _)
      · rfl
  | succ k ih =>
    intro n rx h hn
    cases n with
    | zero =>
      have e : rx = [] := List.length_eq_zero_iff.mp (Nat.le_zero.mp hn)
      subst e
      unfold huntAll; split
      · rename_i x rest e; exact absurd (huntIn_shorter e) (Nat.not_lt_zero _)
      · rfl
    | succ n =>
      unfold huntAll; split
      · rename_i x rest e
        have h1 := huntIn_shorter e
        rw [ih n rest (by omega) (by omega)]
      · rfl

/-- Hunting in bytes that hold something: take it, and hunt on. -/
theorem huntAll_some {l : Link} {rx rest : List Byte} {x : Option Instr} (h : huntIn l rx = some (x, rest)) :
    huntAll l rx.length rx = (x :: (huntAll l rest.length rest).1, (huntAll l rest.length rest).2) := by
  have h1 := huntIn_shorter h
  cases e : rx.length with
  | zero => omega
  | succ n =>
    rw [huntAll]; simp only [h]
    rw [huntAll_fuel l (show rest.length ≤ n by omega)]

/-- Hunting in bytes that hold nothing leaves them. -/
theorem huntAll_none {l : Link} {rx : List Byte} (h : huntIn l rx = none) (n : Nat) : huntAll l n rx = ([], rx) := by
  cases n with
  | zero => rfl
  | succ n => rw [huntAll]; simp only [h]

end Sys2Proof.Machine
end

