-- ==== Sys2Proof/Machine/Layout.lean ====
section
/-! DEFINITION. The bytes of what the part sends: fields (R209), partner messages (11.4), replies and notices (11.2, 11.5). -/

namespace Sys2Proof.Machine

/-! ### Fields (R209) -/

/-- A number in `w` bytes, most significant byte first (R209). -/
def numBytes (w n : Nat) : List Byte := (List.range w).map fun i => BitVec.ofNat 8 (n / 256 ^ (w - 1 - i))

/-- One byte. -/
def n1 (n : Nat) : List Byte := numBytes 1 n

/-- Two bytes. -/
def n2 (n : Nat) : List Byte := numBytes 2 n

/-- Four bytes. -/
def n4 (n : Nat) : List Byte := numBytes 4 n

/-- Six bytes. -/
def n6 (n : Nat) : List Byte := numBytes 6 n

/-- A flag: 0 for clear and 1 for set (R209). -/
def flagByte (b : Bool) : List Byte := n1 (if b then 1 else 0)

/-- An optional field whose value takes `w` bytes (R209). -/
def optBytes {α : Type} (w : Nat) (enc : α → List Byte) : Option α → List Byte
  | some x => 1 :: enc x
  | none => List.replicate (w + 1) 0

/-- A list: the number of its entries and the entries (R209). -/
def listBytes {α : Type} (enc : α → List Byte) (l : List α) : List Byte := n1 l.length ++ (l.map enc).flatten

/-- Bytes filled up with zeros to `w` (R209). -/
def padTo (w : Nat) (bs : List Byte) : List Byte := bs ++ List.replicate (w - bs.length) 0

/-- A stand: line, then stand (R209). -/
def standBytes (st : StandAddr) : List Byte := n1 st.line ++ n1 st.stand

/-- An arm: 1 for A and 2 for B (R209). -/
def armBytes : ArmName → List Byte
  | .a => n1 1
  | .b => n1 2

/-- A bay: aisle, then position (R209). -/
def bayBytes (b : BayAddr) : List Byte := n1 b.aisle ++ n1 b.pos

/-- A reel ID, eleven bytes of 00h for none (11.4). -/
def idBytes (id : Option ReelId) : List Byte := id.getD (List.replicate 11 0)

/-- A reel by index and reel ID. -/
def refBytes (r : ReelRef) : List Byte := n2 r.index ++ r.id

/-- An optional reel. -/
def optRef (r : Option ReelRef) : List Byte := optBytes 13 refBytes r

/-- A gate count. -/
def gateBytes (g : GateCount) : List Byte := n4 g.toNat

/-! ### Codes of names (R209, 11.4, 11.5) -/

/-- Codes of reel states (11.5). -/
def reelStateCode : ReelState → Nat
  | .atDock => 1 | .inTransit => 2 | .conditioning => 3 | .stored => 4 | .allocated => 5 | .onArm => 6 | .spent => 7
  | .quarantined => 8

/-- Codes of quarantine reasons, 0 for absent (11.5). -/
def reasonCode : Option Reason → Nat
  | none => 0
  | some .badWeight => 1 | some .refusedAtStand => 2 | some .idMismatch => 3 | some .pickupEmpty => 4 | some .vehicleLost => 5
  | some .armMismatch => 6 | some .host => 7

/-- A location: its kind and three bytes (11.5). -/
def locationBytes : Location → List Byte
  | .nowhere => [0, 0, 0, 0]
  | .dock n => padTo 4 (n1 1 ++ n1 n)
  | .bay b => padTo 4 (n1 2 ++ bayBytes b)
  | .vehicle v => padTo 4 (n1 3 ++ n1 v)
  | .arm st x => n1 4 ++ standBytes st ++ armBytes x

/-- Codes of run states (11.4). -/
def runCode : RunState → Nat
  | .stopped => 0 | .running => 1 | .broken => 2

/-- Codes of causes of waste (11.4). -/
def causeCode : Cause → Nat
  | .start => 1 | .splice => 2 | .brk => 3 | .operator => 4

/-- Codes of fault classes (R196). -/
def classCode : FaultClass → Nat
  | .note => 1 | .degraded => 2 | .fatal => 3

/-- Codes of reset causes, in the order of R221. -/
def resetCode : ResetCause → Nat
  | .powerOn => 1 | .supplyLow => 2 | .resetPin => 3 | .hostCold => 4 | .hostWarm => 5

/-- Codes of mission kinds (R94). -/
def missionCode : MissionKind → Nat
  | .intake => 1 | .deliver => 2 | .ret => 3 | .charge => 4 | .park => 5

/-- Codes of mission classes (R94). -/
def missionClassCode : MissionClass → Nat
  | .urgent => 1 | .deliver => 2 | .ret => 3 | .intake => 4 | .park => 5 | .charge => 6

/-- Codes of mission states (R94). -/
def missionStateCode : MissionState → Nat
  | .waiting => 1 | .assigned => 2 | .carrying => 3 | .handover => 4

/-- Codes of mission outcomes (R94). -/
def missionOutcomeCode : MissionOutcome → Nat
  | .done => 1 | .aborted => 2 | .cancelled => 3

/-- Codes of activity states (5.1). -/
def activityCode : Activity → Nat
  | .offline => 1 | .idle => 2 | .toPickup => 3 | .picking => 4 | .carrying => 5 | .handover => 6 | .toCharger => 7
  | .charging => 8 | .stopped => 9

/-- Codes of supervision states (5.1). -/
def supervisionCode : Supervision → Nat
  | .reporting => 1 | .silent => 2 | .lost => 3

/-- Codes of abort causes, in the order of R105. -/
def abortCode : AbortCause → Nat
  | .hostCancel => 1 | .vehicleLost => 2 | .transferRefused => 3 | .transferTimeout => 4 | .pickupEmpty => 5 | .idMismatch => 6
  | .standOutOfService => 7 | .restart => 8

/-- Codes of custody changes, in the order of 2.4 (log 49). -/
def custodyCode : Custody → Nat
  | .pick => 1 | .place => 2 | .pickupEmpty => 3 | .idMismatch => 4 | .vehicleLost => 5 | .load => 6 | .adopt => 7
  | .runStart => 8 | .eject => 9 | .unload => 10 | .armMismatch => 11 | .refusedAtStand => 12 | .release => 13 | .strip => 14
  | .diameterStep => 15 | .enterEstimate => 16 | .estimateStep => 17

/-- Codes of requesting blocks (log 49). -/
def blockCode : Block → Nat
  | .fleetController => 1 | .bayMap => 2 | .feedPlanner => 3

/-- Codes of arm states (6.1). -/
def armStateCode : ArmState → Nat
  | .empty => 1 | .loading => 2 | .loaded => 3 | .preparing => 4 | .prepared => 5 | .running => 6 | .expired => 7
  | .unloading => 8

/-- Codes of stand modes (6.1). -/
def modeCode : Mode → Nat
  | .outOfService => 1 | .unknown => 2 | .normal => 3 | .locked => 4 | .splicing => 5 | .starved => 6

/-- Codes of call states (6.3). -/
def callStateCode : CallState → Nat
  | .raised => 1 | .starved => 2 | .allocated => 3 | .dispatched => 4

/-- Codes of call outcomes (R126). -/
def callOutcomeCode : CallOutcome → Nat
  | .loaded => 1 | .cancelled => 2 | .planChanged => 3 | .outOfService => 4

/-- Codes of handover kinds (6.4). -/
def handoverKindCode : HandoverKind → Nat
  | .load => 1 | .unload => 2

/-- Codes of handover phases (6.4). -/
def phaseCode : Phase → Nat
  | .asked => 1 | .waiting => 2 | .granted => 3

/-- Codes of phase results (11.4, R146). -/
def phaseResultCode : PhaseResult → Nat
  | .ok => 1 | .fail => 2 | .notReached => 3

/-- Codes of splice outcomes (R146). -/
def spliceOutcomeCode : SpliceOutcome → Nat
  | .done => 1 | .aborted => 2 | .failed => 3 | .broken => 4

/-- Codes of fault changes (R198). -/
def faultChangeCode : FaultChange → Nat
  | .active => 1 | .inactive => 2 | .pulse => 3 | .unlatched => 4

/-- Codes of reply statuses (11.2). -/
def statusCode : Status → Nat
  | .ok => 0 | .busy => 1 | .state => 2 | .range => 3 | .full => 4 | .notFound => 5 | .duplicate => 6 | .badId => 7
  | .badFormat => 8 | .unknown => 9

/-- OPEN is coded 1 and CLOSED 2 (R183); HELD 1 and RELEASED 2 (R201); LOW 1 and RESTORED 2 (R41). -/
def firstIf (b : Bool) : List Byte := n1 (if b then 1 else 2)

/-- A fault's subject, an alternative of line, stand, vehicle and none (R196). -/
def subjectBytes : Subject → List Byte
  | .line n => padTo 3 (n1 1 ++ n1 n)
  | .stand st => n1 2 ++ standBytes st
  | .vehicle v => padTo 3 (n1 3 ++ n1 v)
  | .none => padTo 3 (n1 4)

/-- The subject of a holding entry in HOLD: line then 0, or line then stand (11.4). -/
def holdSubject : Subject → List Byte
  | .line n => n1 n ++ n1 0
  | .stand st => standBytes st
  | .vehicle _ | .none => [0, 0]

/-! ### Partner messages (11.4) -/

/-- The place of a PICK: type, dock or aisle, 0 or position (11.4). -/
def pickPlace : Place → List Byte
  | .dock n => n1 1 ++ n1 n ++ n1 0
  | .bay b => n1 2 ++ bayBytes b
  | .arm _ _ | .charger _ | .park _ => [0, 0, 0]

/-- The code and the arguments of a directive's kind (11.4). -/
def dirBytes : DirKind → List Byte
  | .hold => n1 1
  | .move route through => n1 2 ++ n1 through ++ listBytes n1 route
  | .pick p id => n1 3 ++ pickPlace p ++ id
  | .place b => n1 4 ++ bayBytes b
  | .placeHere => n1 4 ++ [0, 0]
  | .transfer st x id => n1 5 ++ standBytes st ++ armBytes x ++ id
  | .unload st x id => n1 6 ++ standBytes st ++ armBytes x ++ id
  | .charge n => n1 7 ++ n1 n
  | .stop => n1 8

/-- Kind code of a line message (11.4). -/
def lineKind : LineMsg → Nat
  | .ceiling _ => 0x81 | .loadRequest _ _ _ => 0x82 | .unloadRequest _ _ _ => 0x83 | .splice _ _ _ => 0x84
  | .prepPanel _ => 0x85 | .gateInterval _ _ _ => 0x86 | .gateEnd _ _ => 0x87 | .hold _ _ => 0x88 | .release => 0x89

/-- PREP PANEL's body on line `n` (11.4). -/
def panelBytes (n : Nat) : Option Panel → List Byte
  | some p =>
    standBytes p.st ++ armBytes p.arm ++ idBytes p.reel ++ n1 p.grade ++ flagByte p.stripped ++ n1 p.waiting
  | none => padTo 17 (n1 n)

/-- Body of a message on Line Link `n` (11.4). -/
def lineBody (n : Nat) : LineMsg → List Byte
  | .ceiling v => n1 n ++ n2 v
  | .loadRequest st x id => standBytes st ++ armBytes x ++ id
  | .unloadRequest st x id => standBytes st ++ armBytes x ++ id
  | .splice st x y => standBytes st ++ armBytes x ++ armBytes y
  | .prepPanel p => panelBytes n p
  | .gateInterval first stop cause =>
    n1 n ++ gateBytes first ++ gateBytes (stop.getD 0) ++ flagByte stop.isNone ++ n1 (causeCode cause)
  | .gateEnd first stop => n1 n ++ gateBytes first ++ gateBytes stop
  | .hold count k => n1 n ++ n1 count ++ n1 (faultCode k.kind) ++ holdSubject k.subject
  | .release => n1 n

/-! ### The reel record reply (11.5) -/

/-- The flags byte of a reel record (11.5). -/
def reelFlags (r : Reel) : List Byte :=
  n1 ((if r.estimate then 1 else 0) + (if r.isPartial then 2 else 0) + if r.stripped then 4 else 0)

/-- A reel record after the status byte: offsets 1 to 57 (11.5). -/
def reelBytes (i : Nat) (r : Reel) : List Byte :=
  n2 i ++ r.id ++ n1 r.grade ++ n2 r.width ++ n2 r.d0 ++ n1 r.core ++ n2 r.mass ++ n4 r.arrival ++ n4 r.earliest ++
    n1 (reelStateCode r.state) ++ locationBytes r.loc ++ n1 (reasonCode r.reason) ++ n4 r.initial ++ n4 r.strip ++
    n4 r.consumed ++ n4 r.remaining ++ n2 r.accepted ++ reelFlags r ++
    (match r.call with
      | some st => standBytes st
      | none => [0, 0]) ++ n1 r.refusals

/-! ### Records in replies and notices (R209, log 49) -/

/-- Changing fields of a fault entry after its name and class (R196). -/
def entryBytes (k : FaultKey) (e : FaultEntry) : List Byte :=
  n1 (faultCode k.kind) ++ subjectBytes k.subject ++ n1 (classCode (faultClass k.kind)) ++ flagByte e.active ++
    flagByte e.latched ++ optBytes 4 n4 e.first ++ optBytes 4 n4 e.last ++ n1 e.occurrences

/-- An abort record (R105). -/
def abortBytes (r : AbortRecord) : List Byte :=
  listBytes (fun c => n1 (abortCode c)) r.causes ++ optBytes 1 (fun k => n1 (missionCode k)) r.kind ++ optRef r.reel ++
    n1 r.zonesLeft ++ n4 r.time

/-- The reel of a splice record: 13 zeros where the arm held none when the splice was commanded, by the model's choice (log 83). -/
def plainRef (r : Option ReelRef) : List Byte := (r.map refBytes).getD (List.replicate 13 0)

/-- A splice record (R146). -/
def spliceBytes (r : SpliceRecord) : List Byte :=
  standBytes r.st ++ n4 r.time ++ plainRef r.fromReel ++ plainRef r.toReel ++ armBytes r.fromArm ++ armBytes r.toArm ++
    n2 r.diameter ++ n1 (phaseResultCode r.accel) ++ n1 (phaseResultCode r.paste) ++ n1 (phaseResultCode r.cut) ++
    optBytes 4 gateBytes r.gate ++ optBytes 1 (fun o => n1 (spliceOutcomeCode o)) r.outcome

/-- Four waste counts of `w` bytes each. -/
def wasteBytes (w : Nat) (x : Waste) : List Byte :=
  numBytes w x.start ++ numBytes w x.splice ++ numBytes w x.brk ++ numBytes w x.operator

/-- The spoilage report (R194). -/
def reportBytes (r : SpoilageReport) : List Byte :=
  n1 r.line ++ n2 r.number ++ n4 r.opened ++ n4 r.closed ++ n4 r.target ++ n4 r.finalized ++ n4 r.good ++ n4 r.overrun ++
    wasteBytes 4 r.waste ++ n4 r.splices ++ n4 r.breaks ++ n4 r.printedLength ++ n4 r.printedMass ++ n4 r.whiteLength ++
    n4 r.whiteMass ++ n1 r.reelsUsed ++ flagByte r.truncated ++ n2 r.copySpoilage ++ n2 r.paperSpoilage

/-- A load result, an alternative of LOADED with a generation, DEFAULTS and KEPT (R221). -/
def loadBytes : LoadResult → List Byte
  | .loaded g => n1 1 ++ n4 g
  | .defaults => padTo 5 (n1 2)
  | .kept => padTo 5 (n1 3)

/-- Kind code of a notice (11.2). -/
def noticeKind : Notice → Nat
  | .start _ _ _ _ => 0xD0 | .fault _ _ _ => 0xD1 | .lineHold _ _ => 0xD2 | .custodyRefused _ _ _ _ => 0xD3
  | .stockLevel _ _ _ _ => 0xD4 | .missionEnd _ _ _ _ _ => 0xD5 | .vehicleAbort _ _ => 0xD6 | .callRaised _ _ _ => 0xD7
  | .callEnd _ _ _ => 0xD8 | .loadRefused _ _ _ _ => 0xD9 | .spliceEnd _ => 0xDA | .ceilingChanged _ _ _ _ _ _ => 0xDB
  | .targetReached _ _ _ _ _ => 0xDC | .editionClosed _ => 0xDD | .configurationSaved _ _ => 0xDE

/-- Body of a notice (R209). By the model's choice Line Hold with state RELEASED has zeros for the content of HOLD, and START tells
the strap by a flag, 1 for high (log 49). -/
def noticeBody : Notice → List Byte
  | .start cause load clock strap => n1 (resetCode cause) ++ loadBytes load ++ n4 clock ++ flagByte strap
  | .fault k change e =>
    n1 (faultCode k.kind) ++ subjectBytes k.subject ++ n1 (classCode (faultClass k.kind)) ++ n1 (faultChangeCode change) ++
      flagByte e.active ++ flagByte e.latched ++ n1 e.occurrences ++ optBytes 4 n4 e.first ++ optBytes 4 n4 e.last
  | .lineHold n hold =>
    n1 n ++ (match hold with
      | some x => n1 x.count ++ n1 (faultCode x.first.kind) ++ subjectBytes x.first.subject
      | none => List.replicate 5 0) ++ firstIf hold.isSome
  | .custodyRefused reel change block found =>
    refBytes reel ++ n1 (custodyCode change) ++ n1 (blockCode block) ++ (match found with
      | some (x, l) => n1 1 ++ n1 (reelStateCode x) ++ locationBytes l
      | none => padTo 6 (n1 2))
  | .stockLevel grade count threshold low => n1 grade ++ n2 count ++ n1 threshold ++ firstIf low
  | .missionEnd slot kind reel vehicle outcome =>
    n1 slot ++ n1 (missionCode kind) ++ optRef reel ++ optBytes 1 n1 vehicle ++ n1 (missionOutcomeCode outcome)
  | .vehicleAbort v r => n1 v ++ abortBytes r
  | .callRaised st deadline reraises => standBytes st ++ n4 deadline ++ n1 reraises
  | .callEnd st outcome reel => standBytes st ++ n1 (callOutcomeCode outcome) ++ optRef reel
  | .loadRefused st x id reason => standBytes st ++ armBytes x ++ id ++ n1 reason
  | .spliceEnd r => spliceBytes r
  | .ceilingChanged n v top reduced byHost lowest =>
    n1 n ++ n2 v ++ n2 top ++ flagByte reduced ++ flagByte byHost ++ optBytes 2 standBytes lowest
  | .targetReached n number target good clock => n1 n ++ n2 number ++ n4 target ++ n4 good ++ n4 clock
  | .editionClosed r => reportBytes r
  | .configurationSaved ok generation => firstIf ok ++ n4 generation

/-! ### Contents of replies (R209, log 49) -/

/-- Width of the number a reply of a kind carries (R209). -/
def numberWidth (kind : Nat) : Nat :=
  match kind with
  | 0x94 => 1
  | 0x81 | 0x86 | 0xA4 => 2
  | _ => 4

/-- A row of Query Stock (R40). -/
def stockRowBytes (r : StockRow) : List Byte :=
  n1 r.number ++ r.grade.name ++ n1 r.grade.caliper ++ n1 r.grade.basis ++ n1 r.grade.core ++ n1 r.grade.hours ++
    n1 r.grade.threshold ++ n2 r.issuable ++ n2 r.conditioning ++ n2 r.allocated ++ n2 r.quarantined ++
    flagByte r.watch.watched ++ flagByte r.watch.low

/-- A bay's kind: NORMAL 1, QUARANTINE 2, NONE 3 (R49, R59). -/
def bayKindBytes : Option BayKind → List Byte
  | some .normal => n1 1
  | some .quarantine => n1 2
  | none => n1 3

/-- A grade assignment, an alternative of a grade and ANY (R50, R59, log 49). -/
def assignmentBytes : Option Nat → List Byte
  | some g => n1 1 ++ n1 g
  | none => padTo 2 (n1 2)

/-- The numbers of bays of one kind (R59). -/
def bayCountBytes (c : BayCounts) : List Byte :=
  n1 c.configured ++ n1 c.occupied ++ n1 c.reserved ++ n1 c.blocked ++ n1 c.free

/-- A row of Query Aisles (R59). By the model's choice it begins with the aisle number, which R59 does not name, and gives the five
counts of NORMAL bays and then those of QUARANTINE bays (log 49). -/
def aisleRowBytes (r : AisleRow) : List Byte :=
  n1 r.aisle ++ assignmentBytes r.grade ++ flagByte r.served ++ bayCountBytes r.normal ++ bayCountBytes r.quarantine

/-- Kind and object of a zone: kind code, loop position, served object (R62). A field that the kind does not have is sent as
zeros without a presence byte, by the model's choice (log 49). -/
def zoneUseBytes : ZoneUse → List Byte × List Byte × List Byte
  | .loop p => (n1 1, n1 p, [0, 0])
  | .aisle n => (n1 2, n1 0, n1 n ++ n1 0)
  | .spur st => (n1 3, n1 0, standBytes st)
  | .dock n => (n1 4, n1 0, n1 n ++ n1 0)
  | .charger n => (n1 5, n1 0, n1 n ++ n1 0)
  | .park n => (n1 6, n1 0, n1 n ++ n1 0)

/-- The configuration fields of a zone: kind, loop position, attach zone, traverse time, served object (R62). -/
def zoneCfgBytes (c : ZoneConfig) : List Byte :=
  let u := zoneUseBytes c.use
  u.1 ++ u.2.1 ++ n1 c.attach ++ n1 c.time ++ u.2.2

/-- How a vehicle holds a zone (R83). -/
def holdingCode : Holding → Nat
  | .front => 1 | .tail => 2 | .ahead => 3 | .other => 4

/-- The answer of Query Zone (R83) for zone `n`; kind NONE is coded 7, as Set Zone names it. -/
def zoneRowBytes (n : Nat) : Option ZoneRow → List Byte
  | some r =>
    n1 n ++ zoneCfgBytes r.cfg ++ optBytes 1 n1 r.holder ++ listBytes n1 r.wait ++ optBytes 5 (fun p => n1 p.1 ++ n4 p.2) r.hold ++
      optBytes 1 (fun x => n1 (holdingCode x)) r.holding
  | none => n1 n ++ n1 7

/-- A row of Query Traffic (R83). -/
def trafficRowBytes (r : TrafficRow) : List Byte :=
  n1 r.vehicle ++ flagByte r.seated ++ optBytes 1 n1 r.front ++ optBytes 1 n1 r.tail ++ listBytes n1 r.ahead ++
    optBytes 1 n1 r.waitsFor ++ optBytes 1 n1 r.charger

/-- A kept directive: its number, 0 while it has none, and its kind with its arguments (R110, log 49). -/
def keptBytes (k : Kept) : List Byte := n1 ((k.number.map BitVec.toNat).getD 0) ++ dirBytes k.kind

/-- A vehicle's record (5.1, R113). A field of no fixed length takes, while absent, the zeros of its shortest value (log 49). -/
def vehicleBytes (x : Vehicle) : List Byte :=
  n1 x.number ++ flagByte x.commissioned ++ n1 (activityCode x.activity) ++ n1 (supervisionCode x.supervision) ++ n1 x.missed ++
    optBytes 1 n1 x.front ++ optBytes 1 n1 x.tail ++ listBytes n1 x.ahead ++ n1 x.charge ++ optRef x.load ++
    optBytes 1 n1 x.mission ++ n1 x.directive.number.toNat ++ dirBytes x.directive.kind ++ optBytes 2 keptBytes x.kept ++
    optBytes 1 (fun x => n1 (activityCode x)) x.beforeStop ++ optBytes 22 abortBytes x.abort ++ flagByte x.seated

/-- A mission's pickup, an alternative of dock, bay and stand arm (R94). -/
def pickupBytes : Place → List Byte
  | .dock n => padTo 4 (n1 1 ++ n1 n)
  | .bay b => padTo 4 (n1 2 ++ bayBytes b)
  | .arm st x => n1 3 ++ standBytes st ++ armBytes x
  | .charger _ | .park _ => padTo 4 []

/-- A mission's drop, an alternative of bay, stand arm, charger and park position (R94). -/
def dropBytes : Place → List Byte
  | .bay b => padTo 4 (n1 1 ++ bayBytes b)
  | .arm st x => n1 2 ++ standBytes st ++ armBytes x
  | .charger n => padTo 4 (n1 3 ++ n1 n)
  | .park n => padTo 4 (n1 4 ++ n1 n)
  | .dock _ => padTo 4 []

/-- A mission record (R94). -/
def missionBytes (p : Nat × Mission) : List Byte :=
  let m := p.2
  n1 p.1 ++ n1 (missionCode m.kind) ++ optRef m.reel ++ optBytes 4 pickupBytes m.pickup ++ optBytes 4 dropBytes m.drop ++
    n1 (missionClassCode m.cls) ++ n4 m.deadline ++ n4 m.created ++ n1 (missionStateCode m.state) ++ optBytes 1 n1 m.vehicle ++
    optBytes 2 (fun r => listBytes n1 r.zones ++ n1 r.progress) m.route ++ optBytes 2 standBytes m.call

/-- A stand's configuration fields (6.1). -/
def standCfgBytes (c : StandCfg) : List Byte :=
  n1 c.grade ++ n2 c.width ++ n2 c.ds ++ n2 c.dmin ++ n1 c.lockMargin ++ n1 c.maxStep ++ n4 c.webPath ++ n2 c.allowance ++
    n1 (c.offset % 256).toNat

/-- An arm in Query Stand (R143). -/
def armRowBytes (x : Arm) : List Byte := n1 (armStateCode x.state) ++ optRef x.reel ++ n4 x.loadedAt ++ flagByte x.known

/-- The call of a stand (6.3). -/
def callBytes (st : StandAddr) (c : Call) : List Byte :=
  standBytes st ++ n1 (callStateCode c.state) ++ n4 c.raisedAt ++ n4 c.deadline ++ optRef c.reel ++ optBytes 1 n1 c.mission ++ n1 c.reraises

/-- A handover with the time left of its wait limit, in ticks of 10 ms by the model's choice (6.4, R143, log 49). -/
def handoverBytes (left : Option Nat) (x : Handover) : List Byte :=
  n1 (handoverKindCode x.kind) ++ armBytes x.arm ++ refBytes x.reel ++ n1 x.vehicle ++ n1 x.mission ++ n1 (phaseCode x.phase) ++
    flagByte x.transferDone ++ flagByte x.armDone ++ optBytes 2 n2 left

/-- The running reel in Query Stand (R143): lengths of at most 58,776 m take 2 bytes (R1, R10). -/
def runningBytes (r : RunningRow) : List Byte :=
  n2 r.diameter ++ flagByte r.estimate ++ n2 r.remaining ++ n2 r.runLength ++ n2 r.timeToSplice ++ n2 r.leadTime

/-- The answer of Query Stand (R143, R146). -/
def standRowBytes (r : StandRow) : List Byte :=
  let s := r.stand
  standCfgBytes s.cfg ++ flagByte s.inService ++ n1 (modeCode s.mode) ++ optBytes 1 armBytes s.running ++ armRowBytes s.armA ++
    armRowBytes s.armB ++ optBytes 11 runningBytes r.runningReel ++ optBytes 28 (callBytes r.st) s.call ++ optBytes 2 n2 r.eta ++
    optBytes 2 n2 r.needed ++ optBytes 23 (handoverBytes r.waitLeft) s.handover ++ optBytes 1 n1 r.prepPlace ++
    optBytes 46 spliceBytes s.lastSplice ++ n1 s.attempts ++ optBytes 2 n2 r.retryLeft

/-- A preparation entry (R143). -/
def prepBytes (e : PrepEntry) : List Byte := standBytes e.st ++ n4 e.deadline

/-- The answer of Query Line Feed (R143). -/
def lineFeedBytes (r : LineFeedRow) : List Byte :=
  let c := r.cfg
  n2 c.lineMax ++ n1 c.crawl ++ n2 c.prepAllowance ++ n2 c.callLength ++ flagByte c.partials ++ n2 c.minIssue ++
    n1 c.stripDepth ++ flagByte c.autoPrepare ++ n1 (runCode r.run) ++ n2 r.speed ++ optBytes 6 prepBytes r.slot ++
    listBytes prepBytes r.waiting ++
    listBytes (fun p => standBytes p.1 ++ n1 (modeCode p.2.1) ++ optBytes 1 (fun x => n1 (callStateCode x)) p.2.2) r.stands

/-- The counting settings (R164). -/
def countCfgBytes (c : CountCfg) : List Byte :=
  n2 c.cutoff ++ n1 c.depth ++ n1 c.preMargin ++ n2 c.spliceWindow ++ n2 c.restartWindow ++ n2 c.startLimit ++
    n2 c.jumpLimit ++ flagByte c.holdOnDegraded

/-- The end of an interval, an alternative of a copy number and OPEN (R180). -/
def endBytes : Option Nat → List Byte
  | some e => n1 1 ++ n6 e
  | none => padTo 7 (n1 2)

/-- An interval with its gate values (R180); the gate value of an OPEN end is absent. -/
def intervalBytes (p : Interval × (GateCount × Option GateCount)) : List Byte :=
  n6 p.1.first ++ endBytes p.1.stop ++ n1 (causeCode p.1.cause) ++ flagByte p.1.sent ++ gateBytes p.2.1 ++
    optBytes 4 gateBytes p.2.2

/-- The answer of Query Line Counts (R180). -/
def countsBytes (c : LineCount) (gates : List (GateCount × Option GateCount)) : List Byte :=
  optBytes 4 gateBytes c.gate ++ n6 c.counted ++ n6 c.finalized ++ n6 c.good ++ wasteBytes 6 c.waste ++ optBytes 2 n2 c.edition ++
    countCfgBytes c.cfg ++ listBytes intervalBytes (c.intervals.zip gates)

/-- An edition record (R183, R193). -/
def editionBytes (e : Edition) : List Byte :=
  n2 e.number ++ n1 e.line ++ firstIf e.isOpen ++ flagByte e.collected ++ n4 e.target ++ n4 e.opened ++ optBytes 4 n4 e.closed ++
    n4 e.finalized ++ n4 e.good ++ n4 e.overrun ++ wasteBytes 4 e.waste ++ n4 e.splices ++ n4 e.breaks ++ n4 e.printedLength ++
    n4 e.printedMass ++ n4 e.whiteLength ++ n4 e.whiteMass ++ listBytes (fun id => id) e.reelsUsed ++ flagByte e.truncated

/-- A row of Query Editions (R193). -/
def editionRowBytes (r : EditionRow) : List Byte :=
  n1 r.slot ++ n1 r.line ++ n2 r.number ++ firstIf r.isOpen ++ flagByte r.collected ++ n4 r.target ++ n4 r.good ++ n4 r.finalized

/-- Unassigned totals (R188). -/
def totalsBytes (t : Totals) : List Byte :=
  n6 t.finalized ++ n6 t.good ++ wasteBytes 6 t.waste ++ n6 t.splices ++ n6 t.breaks ++ n6 t.printedLength ++
    n6 t.printedMass ++ n6 t.whiteLength ++ n6 t.whiteMass

/-- The name of a fault entry: code and subject. -/
def keyBytes (k : FaultKey) : List Byte := n1 (faultCode k.kind) ++ subjectBytes k.subject

/-- The answer of Query Status (R213). The six error counts come first, in the order Host, Line 1 to 4, Fleet, and then the silence
flags, those of the lines with their line numbers, by the model's choice (log 49). -/
def statusBytes (r : StatusRow) : List Byte :=
  n4 r.clock ++ n1 (resetCode r.cause) ++ optBytes 4 n4 r.generation ++ flagByte r.fromDefaults ++ flagByte r.saving ++
    flagByte r.allStop ++ (r.errors.map n2).flatten ++ flagByte r.fleetDown ++
    listBytes (fun p => n1 p.1 ++ flagByte p.2) r.linesDown ++ n1 r.queued ++ n1 r.dropped ++ n2 r.active ++ n2 r.latched

/-- Content of a reply of a kind after its status byte (R209, 11.5). By the model's choice a hold row of Query Faults begins with the
line number and names each holding entry by code and subject (R200, log 49). -/
def contentBytes (kind : Nat) : Content → List Byte
  | .none => []
  | .number n => numBytes (numberWidth kind) n
  | .reel i r => reelBytes i r
  | .stock rows records => listBytes stockRowBytes rows ++ n2 records
  | .bay b grade served =>
    bayKindBytes (b.map (·.kind)) ++ flagByte (b.any (·.blocked)) ++ optRef (b.bind (·.occupant)) ++
      optBytes 1 n1 (b.bind (·.reserved)) ++ assignmentBytes grade ++ flagByte served
  | .aisles rows waiting => listBytes aisleRowBytes rows ++ n1 waiting
  | .zone n row => zoneRowBytes n row
  | .traffic n complete count rows => n1 n ++ flagByte complete ++ n1 count ++ listBytes trafficRowBytes rows
  | .route zones time => listBytes n1 zones ++ n2 time
  | .causes l => listBytes (fun c => n1 (abortCode c)) l
  | .vehicle v => vehicleBytes v
  | .missions rows free => listBytes missionBytes rows ++ n1 free
  | .stand row => standRowBytes row
  | .lineFeed row => lineFeedBytes row
  | .counts c gates => countsBytes c gates
  | .copies counted finalized good waste => n6 counted ++ n6 finalized ++ n6 good ++ wasteBytes 6 waste
  | .opened slot replaced => n1 slot ++ optBytes 4 (fun p => n1 p.1 ++ n2 p.2.1 ++ firstIf p.2.2) replaced
  | .closed finalized good overrun waste => n4 finalized ++ n4 good ++ n4 overrun ++ wasteBytes 4 waste
  | .edition e provisional => editionBytes e ++ optBytes 1 n1 provisional
  | .editions rows free => listBytes editionRowBytes rows ++ n1 free
  | .totals t => totalsBytes t
  | .fault k e => entryBytes k e
  | .unlatched n active => n2 n ++ n2 active
  | .faults rows holds allStop =>
    listBytes (fun p => entryBytes p.1 p.2) rows ++
      listBytes (fun p => n1 p.1 ++ firstIf (!p.2.isEmpty) ++ listBytes keyBytes p.2) holds ++ flagByte allStop
  | .status row => statusBytes row

/-! ### Frames -/

/-- The bytes of a frame the part sends (R207). -/
def Sent.bytes : Sent → List Byte
  | .reply r => envelope r.tag (BitVec.ofNat 8 r.kind) (n1 (statusCode r.status) ++ contentBytes r.kind r.content)
  | .notice n => envelope n.seq (BitVec.ofNat 8 (noticeKind n.notice)) (noticeBody n.notice)
  | .line n tag m => envelope tag (BitVec.ofNat 8 (lineKind m)) (lineBody n m)
  | .directive tag v d => envelope tag 0x81 (n1 v ++ n1 d.number.toNat ++ dirBytes d.kind)

end Sys2Proof.Machine
end

