-- ==== Sys2Proof/WellFormed.lean ====
section
/-! DEFINITION. Well-formed commands: every operand fits the field that carries it, and a command names only what its row
may name. -/

namespace Sys2Proof

/-- Whether a number fits `w` bytes (R209). -/
def fitsBytes (w n : Nat) : Bool := decide (n < 256 ^ w)

/-- Whether an optional number, when given, fits `w` bytes. -/
def optFits (w : Nat) (n : Option Nat) : Bool := n.all (fitsBytes w)

/-- Whether a reel ID is eleven characters (R17, 11.4). -/
def idFits (id : ReelId) : Bool := decide (id.length = 11)

/-- Whether a stand address fits its two bytes (R209). -/
def standFits (st : StandAddr) : Bool := fitsBytes 1 st.line && fitsBytes 1 st.stand

/-- Whether a bay address fits its two bytes (R209). -/
def bayFits (b : BayAddr) : Bool := fitsBytes 1 b.aisle && fitsBytes 1 b.pos

/-- Whether the place of Declare Reel Location fits its bytes (R37). -/
def placeFits : DeclPlace → Bool
  | .bay b => bayFits b
  | .dock n => fitsBytes 1 n
  | .nowhere => true

/-- Whether a zone's use fits its bytes (R62). -/
def useFits : ZoneUse → Bool
  | .loop n | .aisle n | .dock n | .charger n | .park n => fitsBytes 1 n
  | .spur st => standFits st

/-- Whether a zone's configuration fits its bytes (R62). -/
def zoneConfigFits (c : ZoneConfig) : Bool := useFits c.use && fitsBytes 1 c.attach && fitsBytes 1 c.time

/-- Whether a subject fits its bytes (R196). -/
def subjectFitsBytes : Subject → Bool
  | .none => true
  | .line n | .vehicle n => fitsBytes 1 n
  | .stand st => standFits st

/-- Whether the filter of Query Faults fits its bytes (R200). -/
def filterFits : FaultFilter → Bool
  | .cls _ => true
  | .kind n => fitsBytes 1 n
  | .subject s => subjectFitsBytes s

/-- Whether Declare Arm may name a role: EXPIRED is not one of them (R141). -/
def declaredRole : Role → Bool
  | .running | .prepared | .standby => true
  | .expired => false

/-- Whether a partner frame arrived on a Line Link, 1 to 4, with a body an envelope holds (R208, R214). -/
def lineFrameFits (f : Frame) : Bool := decide (1 ≤ f.link ∧ f.link ≤ 4 ∧ f.len ≤ 250)

/-- Whether a link is one of the six (R208). -/
def linkFits : Link → Bool
  | .host | .fleet => true
  | .line n => decide (1 ≤ n ∧ n ≤ 4)

/-- Whether a cause makes cold resets (R221). -/
def isColdCause : ResetCause → Bool
  | .powerOn | .supplyLow | .hostCold => true
  | .resetPin | .hostWarm => false

/-- Whether the fields of Set Line Feed fit their bytes (R117). -/
def feedFits (a : LineFeedArgs) : Bool :=
  optFits 2 a.lineMax && optFits 1 a.crawl && optFits 2 a.prepAllowance && optFits 2 a.callLength && optFits 2 a.minIssue &&
    optFits 1 a.stripDepth

/-- Whether the fields of Set Stand fit their bytes (R119). -/
def standArgsFitBytes (a : StandArgs) : Bool :=
  fitsBytes 1 a.grade && fitsBytes 2 a.width && optFits 2 a.ds && optFits 2 a.dmin && optFits 1 a.lockMargin &&
    optFits 1 a.maxStep && optFits 4 a.webPath && optFits 2 a.allowance && a.offset.all fun x => decide (-128 ≤ x ∧ x ≤ 127)

/-- Whether the fields of Set Line Counting fit their bytes (R164). -/
def countFits (a : CountArgs) : Bool :=
  optFits 2 a.cutoff && optFits 1 a.depth && optFits 1 a.preMargin && optFits 2 a.spliceWindow && optFits 2 a.restartWindow &&
    optFits 2 a.startLimit && optFits 2 a.jumpLimit

/-- Whether the fields of Set Fleet Parameters fit their bytes (R113). -/
def fleetFits (a : FleetArgs) : Bool :=
  optFits 2 a.reportPeriod && optFits 1 a.lostCount && optFits 1 a.lowCharge && optFits 1 a.resumeCharge && optFits 2 a.holdTime &&
    optFits 2 a.missionAllowance && optFits 2 a.pickTime && optFits 2 a.transferTime && optFits 1 a.waitLimit

/-- Whether the fields of a vehicle report fit their bytes; zone 0 is no zone (11.4). -/
def reportFits (r : VehicleReport) : Bool :=
  fitsBytes 1 r.vehicle && fitsBytes 1 r.front && r.tail.all (fun z => fitsBytes 1 z && decide (z ≠ 0)) &&
    r.request.all (fun z => fitsBytes 1 z && decide (z ≠ 0)) && fitsBytes 1 r.charge && r.reel.all idFits

/-- Well-formed commands. -/
def Instr.wellFormed : Instr → Bool
  | .registerReel _ id grade width d0 core mass dock arrival =>
    idFits id && fitsBytes 1 grade && fitsBytes 2 width && fitsBytes 2 d0 && optFits 1 core && fitsBytes 2 mass &&
      fitsBytes 1 dock && optFits 4 arrival
  | .setGrade _ number name caliper basis core hours threshold =>
    fitsBytes 1 number && decide (name.length = 8) && fitsBytes 1 caliper && fitsBytes 1 basis && optFits 1 core &&
      optFits 1 hours && optFits 1 threshold
  | .releaseQuarantine _ id | .withdrawReel _ id => idFits id
  | .declareReelLocation _ id place => idFits id && placeFits place
  | .queryReel _ (.byId id) => idFits id
  | .queryReel _ (.byIndex n) => fitsBytes 2 n
  | .setBay _ bay _ _ | .queryBay _ bay => bayFits bay
  | .setAisle _ aisle grade => fitsBytes 1 aisle && optFits 1 grade
  | .setZone _ number cfg => fitsBytes 1 number && cfg.all zoneConfigFits
  | .queryZone _ n | .commissionVehicle _ n | .decommissionVehicle _ n | .clearLostVehicle _ n | .cancelMission _ n
  | .acknowledgeVehicleAbort _ n | .queryVehicle _ n | .queryLineFeed _ n | .acknowledgeCeilingFlags _ n
  | .clearLineCounters _ n | .queryLineCounts _ n | .queryUnassigned _ n | .clearUnassigned _ n | .setMassTolerance _ n =>
    fitsBytes 1 n
  | .queryRoute _ a b => fitsBytes 1 a && fitsBytes 1 b
  | .manualMission _ _ reel bay park deadline => idFits reel && bay.all bayFits && fitsBytes 1 park && optFits 4 deadline
  | .setFleetParameters _ args => fleetFits args
  | .setLineFeed _ line args => fitsBytes 1 line && feedFits args
  | .setStand _ st args => standFits st && standArgsFitBytes args
  | .standOutOfService _ st | .standInService _ st | .returnReel _ st | .queryStand _ st => standFits st
  | .declareArm _ st _ reel role => standFits st && reel.all idFits && declaredRole role
  | .setCeiling _ line value => fitsBytes 1 line && fitsBytes 2 value
  | .setLineCounting _ line args => fitsBytes 1 line && countFits args
  | .openEdition _ number line target => fitsBytes 2 number && fitsBytes 1 line && fitsBytes 4 target
  | .closeEdition _ line number | .queryEdition _ line number => fitsBytes 1 line && fitsBytes 2 number
  | .acknowledgeFault _ code subject | .queryFault _ code subject => fitsBytes 1 code && subjectFitsBytes subject
  | .queryFaults _ filter => filter.all filterFits
  | .setClock _ value => fitsBytes 4 value
  | .purgeSpent _ | .queryStock _ | .queryAisles _ | .queryTraffic _ | .stopFleet _ | .resumeFleet _ | .queryMissions _
  | .queryEditions _ | .acknowledgeAllFaults _ | .queryStatus _ | .saveConfiguration _ | .reloadConfiguration _
  | .restart _ _ => true
  | .unknownRequest _ kind => decide (0x39 ≤ kind ∧ kind ≤ 0x7F)
  | .frameDiscard link _ | .interByteTimeout link _ => linkFits link
  | .hostLinkTransmit => true
  | .vehicleReport f r => decide (f.len ≤ 250) && reportFits r
  | .lineStatus f line _ speed _ => lineFrameFits f && fitsBytes 1 line && fitsBytes 2 speed
  | .diameter f st _ raw => lineFrameFits f && standFits st && fitsBytes 2 raw
  | .ready f st _ | .loadOk f st _ | .loadWait f st _ | .prepStart f st _ | .prepared f st _ | .unloaded f st _
  | .ejected f st _ | .accelOk f st | .accelFail f st | .pasteOk f st | .pasteFail f st | .cutOk f st _ | .cutFail f st _ =>
    lineFrameFits f && standFits st
  | .loadRefuse f st _ reason => lineFrameFits f && standFits st && fitsBytes 1 reason
  | .armLoaded f st _ reel => lineFrameFits f && standFits st && reel.all idFits
  | .webBreak f line | .consoleGood f line | .consoleDivertOn f line | .consoleDivertOff f line =>
    lineFrameFits f && fitsBytes 1 line
  | .consoleSpliceRetry f line stand => lineFrameFits f && fitsBytes 1 line && fitsBytes 1 stand
  | .standStatus f st a b => lineFrameFits f && standFits st && a.reel.all idFits && b.reel.all idFits
  | .supervisionTimerExpiry v => decide (1 ≤ v ∧ v ≤ 24)
  | .lineLinkDown line => decide (1 ≤ line ∧ line ≤ 4)
  | .handoverWaitLimit st | .retryWaitExpiry st => decide (1 ≤ st.line ∧ st.line ≤ 4 ∧ 1 ≤ st.stand ∧ st.stand ≤ 8)
  | .fleetLinkDown | .hallClockAdvance => true
  | .conditioningEnd index => decide (index < 1024)
  | .chargerHoldExpiry zone => decide (1 ≤ zone ∧ zone ≤ 128)
  | .saveComplete _ => true
  | .coldReset cause _ => isColdCause cause
  | .warmRestart cause => !isColdCause cause

end Sys2Proof
end

