-- ==== Sys2Proof/Tests/Slice0.lean ====
section
/-! SUPPORT. The model's own tests: ill-formed commands are refused, commands take one step on a small plant as their
rule says, and every statement's hypotheses are met together by a state and operands. -/

namespace Sys2Proof.Tests

open Sys2Proof Sys2Proof.Machine

/-! ### A small plant -/

/-- The reel ID with number `k`, 0 to 9, and its check character. -/
def idOf (k : Nat) : ReelId :=
  List.replicate 9 48 ++ [BitVec.ofNat 8 (48 + k), if k = 1 then 88 else BitVec.ofNat 8 (48 + (11 - k) % 11)]

/-- A request of a kind, of the right length and with listed codes. -/
def q (kind : Nat) : Req := ⟨7, bodyLength kind, true⟩

/-- A frame of Line Link 1, or of the Fleet Link, with a body of a length and listed codes. -/
def fr (n : Nat) : Frame := ⟨1, n, true⟩

/-- The stand 1.1. -/
def st1 : StandAddr := ⟨1, 1⟩

/-- Grade 0: caliper 60, basis weight 42, core 100. -/
def grade0 : Grade := ⟨List.replicate 8 65, 60, 42, 100, 24, 0⟩

/-- A reel of grade 0 with a number, a state and a location. -/
def reelIn (k : Nat) (x : ReelState) (loc : Location) : Reel where
  id := idOf k
  grade := 0
  width := 1200
  d0 := 1000
  core := 100
  mass := 700
  arrival := 0
  earliest := 0
  state := x
  loc := loc
  reason := none
  initial := lengthOf 60 100 1000
  strip := 0
  consumed := 0
  remaining := lengthOf 60 100 1000
  accepted := 1000
  estimate := false
  isPartial := false
  stripped := true
  call := none
  refusals := 0

/-- Line 1, running at 600 m/min. -/
def line1 : Line where
  cfg := LineCfg.default
  run := .running
  speed := 600
  slot := none
  waiting := []
  hostCeiling := 900
  ceiling := 900
  reduced := false
  byHost := false
  constraining := []
  lastStatus := none
  silence := some 200
  oweCeiling := false
  oweHold := false

/-- An arm in a state, with a reel. -/
def armWith (x : ArmState) (r : Option ReelRef) : Arm := ⟨x, r, 0, 0, none, true⟩

/-- Stand 1.1, NORMAL, with reel 0 running on arm A and arm B empty. -/
def stand1 : Stand where
  cfg := ⟨0, 1200, 140, 115, 15, 40, 46000, 300, 0⟩
  inService := true
  mode := .normal
  running := some .a
  call := none
  handover := none
  implausible := 0
  lastSplice := none
  attempts := 0
  retry := none
  rolesDue := false
  armA := armWith .running (some ⟨0, idOf 0⟩)
  armB := armWith .empty none

/-- The counts of line 1, synchronised at gate count 100 with 100 copies counted. -/
def count1 : LineCount := { LineCount.fresh CountCfg.default with gate := some 100, counted := 100, finalized := 60, good := 60 }

/-- A zone with a use, attach zone and holder. -/
def zoneOf (u : ZoneUse) (attach : Nat) (holder : Option Nat) : Zone := ⟨⟨u, attach, 10⟩, holder, [], none⟩

/-- Vehicle 1, commissioned, seated and IDLE at the parking zone 7. -/
def vehicle1 : Vehicle :=
  { Vehicle.cold with
    number := 1, commissioned := true, seated := true, activity := .idle, front := some 7, charge := 90, timer := some 50 }

/-- Line 1 with stand 1.1, vehicle 1, two reels, two bays and a complete loop of eight zones with five branches. -/
def plant : State :=
  { State.reset with
    hall := { State.reset.hall with
      grades := [(0, grade0)]
      reels := [(0, reelIn 0 .onArm (.arm st1 .a)), (1, reelIn 1 .stored (.bay ⟨1, 1⟩))]
      bays := [(bayKey ⟨1, 1⟩, ⟨.normal, false, some ⟨1, idOf 1⟩, none⟩), (bayKey ⟨1, 2⟩, ⟨.normal, false, none, none⟩)]
      zones := [(1, zoneOf (.loop 1) 0 none), (2, zoneOf (.loop 2) 0 none), (3, zoneOf (.loop 3) 0 none),
        (4, zoneOf (.aisle 1) 1 none), (5, zoneOf (.spur st1) 2 none), (6, zoneOf (.dock 1) 3 none),
        (7, zoneOf (.park 1) 1 (some 1)), (8, zoneOf (.charger 1) 2 none),
        (9, zoneOf (.loop 4) 0 none), (10, zoneOf (.loop 5) 0 none), (11, zoneOf (.loop 6) 0 none), (12, zoneOf (.loop 7) 0 none),
        (13, zoneOf (.loop 8) 0 none)]
      vehicles := (1, vehicle1) :: (State.reset.hall.vehicles.drop 1)
      fleetSilence := some 200
      lines := [(1, line1)]
      stands := [(standKey st1, stand1)]
      counts := [(1, count1)]
      unassigned := [(1, Totals.zero)] } }

/-- The plant with its hall changed. -/
def with' (g : Hall → Hall) : State := { plant with hall := g plant.hall }

/-! ### Ill-formed commands are refused -/

theorem test_fields_too_wide : [Instr.queryZone (q 0x0E) 256, .queryReel (q 0x07) (.byIndex 65536), .setClock (q 0x34) 4294967296,
    .setCeiling (q 0x24) 256 0, .setCeiling (q 0x24) 1 65536, .queryRoute (q 0x10) 256 0, .queryRoute (q 0x10) 0 256,
    .openEdition (q 0x29) 65536 1 1, .openEdition (q 0x29) 1 256 1, .openEdition (q 0x29) 1 1 4294967296,
    .closeEdition (q 0x2A) 256 1, .queryEdition (q 0x2B) 1 65536, .acknowledgeFault (q 0x2F) 256 .none,
    .queryFault (q 0x32) 256 .none].all (fun c => !c.wellFormed) = true := by decide

theorem test_optional_fields_too_wide : [Instr.setGrade (q 0x02) 0 (List.replicate 8 65) 60 42 (some 256) none none,
    .setGrade (q 0x02) 0 (List.replicate 8 65) 60 42 none (some 256) none,
    .setGrade (q 0x02) 0 (List.replicate 8 65) 60 42 none none (some 256), .setAisle (q 0x0A) 1 (some 256),
    .manualMission (q 0x14) .park (idOf 0) none 1 (some 4294967296),
    .registerReel (q 0x01) (idOf 0) 0 1200 1000 (some 256) 700 1 none,
    .registerReel (q 0x01) (idOf 0) 0 1200 1000 none 700 1 (some 4294967296)].all (fun c => !c.wellFormed) = true := by decide

theorem test_register_fields_too_wide : [Instr.registerReel (q 0x01) (idOf 0) 256 1200 1000 none 700 1 none,
    .registerReel (q 0x01) (idOf 0) 0 65536 1000 none 700 1 none, .registerReel (q 0x01) (idOf 0) 0 1200 65536 none 700 1 none,
    .registerReel (q 0x01) (idOf 0) 0 1200 1000 none 65536 1 none,
    .registerReel (q 0x01) (idOf 0) 0 1200 1000 none 700 256 none].all (fun c => !c.wellFormed) = true := by decide

theorem test_grade_fields : [Instr.setGrade (q 0x02) 0 (List.replicate 7 65) 60 42 none none none,
    .setGrade (q 0x02) 256 (List.replicate 8 65) 60 42 none none none, .setGrade (q 0x02) 0 (List.replicate 8 65) 256 42 none none none,
    .setGrade (q 0x02) 0 (List.replicate 8 65) 60 256 none none none].all (fun c => !c.wellFormed) = true := by decide

theorem test_reel_id_not_eleven : [Instr.releaseQuarantine (q 0x03) (List.replicate 10 48), .withdrawReel (q 0x05) [],
    .registerReel (q 0x01) (List.replicate 12 48) 0 1200 1000 none 700 1 none, .queryReel (q 0x07) (.byId []),
    .declareReelLocation (q 0x04) [] .nowhere, .manualMission (q 0x14) .ret [] none 1 none,
    .declareArm (q 0x21) st1 .a (some []) .standby, .armLoaded (fr 16) st1 .a (some [])].all (fun c => !c.wellFormed) = true := by
  decide

theorem test_addresses_too_wide : [Instr.standInService (q 0x1F) ⟨256, 1⟩, .queryStand (q 0x22) ⟨1, 256⟩,
    .setBay (q 0x09) ⟨256, 1⟩ none false, .queryBay (q 0x0B) ⟨1, 256⟩,
    .declareReelLocation (q 0x04) (idOf 0) (.bay ⟨256, 1⟩), .declareReelLocation (q 0x04) (idOf 0) (.dock 256),
    .manualMission (q 0x14) .ret (idOf 0) (some ⟨1, 256⟩) 1 none,
    .manualMission (q 0x14) .park (idOf 0) none 256 none].all (fun c => !c.wellFormed) = true := by decide

theorem test_zone_fields_too_wide : [Instr.setZone (q 0x0D) 256 none, .setZone (q 0x0D) 1 (some ⟨.loop 256, 0, 10⟩),
    .setZone (q 0x0D) 1 (some ⟨.spur ⟨1, 256⟩, 1, 10⟩), .setZone (q 0x0D) 1 (some ⟨.park 1, 256, 10⟩),
    .setZone (q 0x0D) 1 (some ⟨.park 1, 1, 256⟩)].all (fun c => !c.wellFormed) = true := by decide

theorem test_fault_fields_too_wide : [Instr.acknowledgeFault (q 0x2F) 8 (.vehicle 256), .queryFault (q 0x32) 22 (.line 256),
    .queryFault (q 0x32) 13 (.stand ⟨256, 1⟩), .queryFaults (q 0x31) (some (.kind 256)),
    .queryFaults (q 0x31) (some (.subject (.line 256)))].all (fun c => !c.wellFormed) = true := by decide

theorem test_declared_role_not_expired : Instr.wellFormed (.declareArm (q 0x21) st1 .a none .expired) = false := by decide

theorem test_fleet_parameters_too_wide : [{ reportPeriod := some 65536 }, { lostCount := some 256 }, { lowCharge := some 256 },
    { resumeCharge := some 256 }, { holdTime := some 65536 }, { missionAllowance := some 65536 }, { pickTime := some 65536 },
    { transferTime := some 65536 }, { waitLimit := some 256 }].all
      (fun a : FleetArgs => !Instr.wellFormed (.setFleetParameters (q 0x19) a)) = true := by decide

theorem test_line_feed_too_wide : [{ lineMax := some 65536 }, { crawl := some 256 }, { prepAllowance := some 65536 },
    { callLength := some 65536 }, { minIssue := some 65536 }, { stripDepth := some 256 }].all
      (fun a : LineFeedArgs => !Instr.wellFormed (.setLineFeed (q 0x1C) 1 a)) = true ∧
    Instr.wellFormed (.setLineFeed (q 0x1C) 256 {}) = false := by decide

theorem test_stand_arguments_too_wide : [{ grade := 256, width := 1200 }, { grade := 0, width := 65536 },
    { grade := 0, width := 1200, ds := some 65536 }, { grade := 0, width := 1200, dmin := some 65536 },
    { grade := 0, width := 1200, lockMargin := some 256 }, { grade := 0, width := 1200, maxStep := some 256 },
    { grade := 0, width := 1200, webPath := some 4294967296 }, { grade := 0, width := 1200, allowance := some 65536 },
    { grade := 0, width := 1200, offset := some 128 }, { grade := 0, width := 1200, offset := some (-129) }].all
      (fun a : StandArgs => !Instr.wellFormed (.setStand (q 0x1D) st1 a)) = true := by decide

theorem test_counting_too_wide : [{ cutoff := some 65536 }, { depth := some 256 }, { preMargin := some 256 },
    { spliceWindow := some 65536 }, { restartWindow := some 65536 }, { startLimit := some 65536 }, { jumpLimit := some 65536 }].all
      (fun a : CountArgs => !Instr.wellFormed (.setLineCounting (q 0x26) 1 a)) = true ∧
    Instr.wellFormed (.setLineCounting (q 0x26) 256 {}) = false := by decide

theorem test_unknown_kinds : Instr.wellFormed (.unknownRequest 0 0x38) = false ∧ Instr.wellFormed (.unknownRequest 0 0x80) = false ∧
    Instr.wellFormed (.unknownRequest 0 0x39) = true ∧ Instr.wellFormed (.unknownRequest 0 0x7F) = true := by decide

theorem test_no_such_link : [Instr.frameDiscard (.line 0) [], .frameDiscard (.line 5) [], .interByteTimeout (.line 5) [],
    .ready ⟨0, 16, true⟩ st1 .a, .webBreak ⟨5, 1, true⟩ 1, .lineStatus ⟨1, 251, true⟩ 1 .stopped 0 0,
    .vehicleReport ⟨1, 251, true⟩ ⟨1, 0, 7, none, none, 80, none, false, none⟩].all (fun c => !c.wellFormed) = true := by decide

theorem test_report_fields : [⟨256, 0, 7, none, none, 80, none, false, none⟩, ⟨1, 0, 256, none, none, 80, none, false, none⟩,
    ⟨1, 0, 7, some 0, none, 80, none, false, none⟩, ⟨1, 0, 7, some 256, none, 80, none, false, none⟩,
    ⟨1, 0, 7, none, some 0, 80, none, false, none⟩, ⟨1, 0, 7, none, some 256, 80, none, false, none⟩,
    ⟨1, 0, 7, none, none, 256, none, false, none⟩, ⟨1, 0, 7, none, none, 80, none, false, some []⟩].all
      (fun r : VehicleReport => !Instr.wellFormed (.vehicleReport (fr 19) r)) = true := by decide

theorem test_line_message_fields : [Instr.lineStatus (fr 8) 256 .stopped 0 0, .lineStatus (fr 8) 1 .stopped 65536 0,
    .diameter (fr 5) ⟨1, 256⟩ .a 0, .diameter (fr 5) st1 .a 65536, .loadRefuse (fr 16) st1 .a 256, .prepared (fr 16) ⟨256, 1⟩ .a,
    .consoleGood (fr 3) 256, .consoleSpliceRetry (fr 3) 256 1, .consoleSpliceRetry (fr 3) 1 256,
    .standStatus (fr 26) st1 ⟨.running, some []⟩ ⟨.standby, none⟩, .standStatus (fr 26) st1 ⟨.running, none⟩ ⟨.standby, some []⟩].all
      (fun c => !c.wellFormed) = true := by decide

theorem test_timer_subjects : [Instr.supervisionTimerExpiry 0, .supervisionTimerExpiry 25, .lineLinkDown 0, .lineLinkDown 5,
    .handoverWaitLimit ⟨0, 1⟩, .handoverWaitLimit ⟨5, 1⟩, .retryWaitExpiry ⟨1, 0⟩, .retryWaitExpiry ⟨1, 9⟩, .conditioningEnd 1024,
    .chargerHoldExpiry 0, .chargerHoldExpiry 129].all (fun c => !c.wellFormed) = true := by decide

theorem test_reset_causes : Instr.wellFormed (.coldReset .resetPin false) = false ∧ Instr.wellFormed (.warmRestart .powerOn) = false ∧
    Instr.wellFormed (.coldReset .supplyLow true) = true ∧ Instr.wellFormed (.warmRestart .hostWarm) = true := by decide

/-! ### Every statement's hypotheses are met together -/

theorem q_ok (kind : Nat) : (q kind).ok kind := ⟨rfl, rfl⟩
theorem fr_ok (n : Nat) : (fr n).ok n := ⟨rfl, rfl⟩
theorem forNone {α : Type} {p : α → Prop} : ∀ x, (none : Option α) = some x → p x := fun _ h => nomatch h
theorem forSome {α : Type} {p : α → Prop} {a : α} (h : p a) : ∀ x, some a = some x → p x := fun _ e => by cases e; exact h

/-- The record of reel 1 in the plant. -/
def reel1 : Reel := reelIn 1 .stored (.bay ⟨1, 1⟩)

/-- The plant with another record for reel 1. -/
def withReel1 (r : Reel) : State := with' fun h => { h with reels := tput h.reels 1 r }

/-- The plant with stand 1.1 changed. -/
def withStand (g : Stand → Stand) : State := with' fun h => { h with stands := tmod h.stands (standKey st1) g }

/-- The plant with the running reel changed. -/
def withReel0 (g : Reel → Reel) : State := with' fun h => { h with reels := tmod h.reels 0 g }

/-- The plant with line 1 changed. -/
def withLine (g : Line → Line) : State := with' fun h => { h with lines := tmod h.lines 1 g }

/-- The plant with vehicle 1 changed. -/
def withVehicle (g : Vehicle → Vehicle) : State := with' fun h => { h with vehicles := tmod h.vehicles 1 g }

/-- The plant with the counts of line 1 changed. -/
def withCount (g : LineCount → LineCount) : State := with' fun h => { h with counts := tmod h.counts 1 g }

/-- The plant with a mission in slot 0. -/
def withMission (m : Mission) (s : State) : State := { s with hall := { s.hall with missions := [(0, m)] } }

/-- The plant with an entry of the Fault Table. -/
def withFault (k : FaultKey) (e : FaultEntry) : State := with' fun h => { h with faults := tput h.faults k.num (k, e) }

/-- The configuration image of the plant, in bank A, generation 5. -/
def bank5 : Bank := ⟨5, plant.hall.image⟩

/-- The plant with a valid bank A. -/
def stored : State := { plant with store := ⟨some bank5, none, none⟩ }

/-- The plant with a save in progress. -/
def saving : State := { plant with store := ⟨some bank5, none, some ⟨6, plant.hall.image, .b⟩⟩ }

theorem test_plant_sound : plant.Sound where
  hall := {
    faults := ⟨by decide, by decide⟩
    notices := by decide
    counts := by
      intro n c h
      have : c = count1 := by
        by_cases e : 1 = n <;> simp [plant, tget, e] at h
        exact h.symm
      subst this
      exact ⟨by decide, by decide, by decide, by decide, ⟨nofun, .nil⟩, by decide⟩
    lines := by
      intro p h
      have : p = (1, line1) := by simpa [plant] using h
      subst this
      exact ⟨⟨by decide, by decide, by decide⟩, by decide, by decide, by decide, by decide⟩
    ceilings := by
      intro n l h
      have : l = line1 := by
        by_cases e : 1 = n <;> simp [plant, tget, e] at h
        exact h.symm
      subst this
      exact .inl ⟨by decide, by decide⟩ }
  settled := rfl
  store := ⟨forNone, forNone, forNone⟩

theorem test_tick_queues_what_is_due : (with' fun h => { h with timebase := 49 }).pending = [] ∧
    (match step (with' fun h => { h with timebase := 49 }) with
      | .next t => t.pending
      | _ => []) = [.supervisionTimerExpiry 1] := by decide

theorem test_meets_ColdResetWithoutImageGivesReset : plant.store.bankA = none ∧ plant.store.bankB = none := by decide

theorem test_meets_RequestsAreAnsweredOnce : requestOf (.queryStock (q 8)) = some (q 8, 8) ∧
    requestOf (.queryStock ⟨7, 1, true⟩) = some (⟨7, 1, true⟩, 8) ∧ (⟨7, 1, true⟩ : Req).len ≠ bodyLength 8 := by decide

theorem test_meets_UnlistedCodeIsRange : requestOf (.queryStock ⟨7, bodyLength 8, false⟩) = some (⟨7, bodyLength 8, false⟩, 8) := by
  decide

theorem test_meets_ConfigurationWaitsForSave : requestOf (.saveConfiguration (q 0x36)) = some (q 0x36, 0x36) ∧
    saving.store.save.isSome = true ∧
    0x36 ∈ [0x02, 0x09, 0x0A, 0x0D, 0x11, 0x12, 0x19, 0x1C, 0x1D, 0x26, 0x35, 0x36, 0x37] := by decide

theorem test_meets_RefusedRequestsChangeNothing : requestOf (.queryBay (q 0x0B) ⟨0, 0⟩) = some (q 0x0B, 0x0B) ∧
    exec (.queryBay (q 0x0B) ⟨0, 0⟩) plant = .next (plant.reply (q 0x0B) 0x0B .range .none) ∧
    (plant.reply (q 0x0B) 0x0B .range .none).host.replies = plant.host.replies ++ [⟨7, 0x8B, .range, .none⟩] :=
  ⟨rfl, rfl, rfl⟩

theorem test_meets_UnknownKindsAreAnsweredOrDiscarded :
    (List.replicate 250 (0 : Byte)).length ≤ 250 ∧ 0x80 ≤ (0x80 : Byte).toNat ∧ (∀ b ∈ (envelope 5 0x80 [1]).drop 1, b ≠ 0xC3) :=
  ⟨List.length_replicate.le, by decide, by decide +kernel⟩

theorem test_meets_queries : (∀ k, (q k).ok k) ∧ plant.hall.stand st1 = some stand1 ∧ plant.hall.line 1 = some line1 ∧
    plant.hall.runningReel st1 = some (reelIn 0 .onArm (.arm st1 .a)) ∧
    (with' fun h => { h with stands := [] }).hall.stand st1 = none ∧ (with' fun h => { h with lines := [] }).hall.line 1 = none ∧
    (withStand fun x => { x with running := none }).hall.runningReel st1 = none := by
  exact ⟨q_ok, by decide⟩

theorem test_meets_queries_of_routes : plant.hall.loopComplete = true ∧ plant.hall.route 2 1 = some [2, 3, 9, 10, 11, 12, 13, 1] ∧
    plant.hall.route 7 4 = some [7, 1, 4] ∧ plant.hall.route 7 7 = some [7] ∧ plant.hall.route 7 14 = none ∧
    tsorted plant.hall.zones = true ∧ plant.hall.isLoop 1 = true ∧ plant.hall.isLoop 2 = true ∧
    (plant.hall.zone 7).map (·.cfg.attach) = some 1 ∧ (plant.hall.zone 4).map (·.cfg.attach) = some 1 := by decide +kernel

/-- An edition of line 1. -/
def edition1 : Edition := ⟨3, 1, true, false, 1000, 0, none, 0, 0, 0, ⟨0, 0, 0, 0⟩, 0, 0, 0, 0, 0, 0, [], false⟩

/-- The plant with edition 3 of line 1 in slot 0, open or closed. -/
def withEdition (isOpen : Bool) : State := with' fun h =>
  { h with editions := [(0, { edition1 with isOpen := isOpen })]
           counts := [(1, { count1 with edition := if isOpen then some 3 else none })] }

theorem test_meets_EditionQueriesTell : plant.hall.findEdition 1 3 = none ∧
    (withEdition true).hall.findEdition 1 3 = some (0, edition1) ∧
    (withEdition false).hall.findEdition 1 3 = some (0, { edition1 with isOpen := false }) := by decide

theorem test_meets_DiametersFollowLengthAndCore : 2 ^ 64 - 1 < 2 ^ 64 ∧ 2 ^ 32 - 1 < 2 ^ 32 ∧ 0 < 250 ∧ 160 ≤ 1500 ∧ (70 : Nat) < 71 ∧
    lengthOf 250 160 1500 ≤ lengthOf 250 160 1500 := by decide

theorem test_meets_ReelIdsCarryTheirCheckCharacter : (List.replicate 10 9).length = 10 ∧ (∀ d ∈ List.replicate 10 9, d < 10) ∧
    idWellFormed (idOf 1) = true ∧ idWellFormed (List.replicate 11 49) = false := by decide

theorem test_meets_RegisterReelMakesRecord : (q 0x01).ok 0x01 ∧ idWellFormed (idOf 2) = true ∧ plant.hall.reelById (idOf 2) = none ∧
    lowestFree plant.hall.reels 1024 = some 2 ∧ tget plant.hall.grades 0 = some grade0 ∧ plant.hall.served (.dock 1) = true ∧
    lowestFree plant.hall.missions 48 = some 0 ∧ plant.hall.named ⟨2, idOf 2⟩ = false := by
  exact ⟨q_ok _, by decide⟩

/-- The plant with every slot of the Mission Table taken. -/
def full : State := with' fun h => { h with missions := (List.range 48).map fun i =>
  (i, intakeMission ⟨1000, idOf 9⟩ 1 0) }

/-- A register with every one of `n` slots taken. -/
def crowd (n : Nat) : Table Reel := (List.range' 0 n).map fun i => (i, reelIn 9 .spent .nowhere)

/-- The plant with every slot of the register taken. -/
def crowded : State := with' fun h => { h with reels := crowd 1024 }

theorem crowd_full (n : Nat) : lowestFree (crowd n) n = none :=
  firstFree_taken fun i hi => by unfold crowd; rw [tget_rows _ _ _ _ hi]; rfl

theorem test_meets_RegisterReelMakesRecord_full :
    (let expected (mass : Nat) : Nat := (max (lengthOf 60 100 1000 * 1200 * 42 / 1000000) mass -
       min (lengthOf 60 100 1000 * 1200 * 42 / 1000000) mass) * 100 / mass
     plant.hall.massTolerance < expected 4000 ∧ expected 653 ≤ plant.hall.massTolerance) ∧
    plant.hall.agenda = [] ∧ plant.hall.ceilings = [] ∧ lowestFree full.hall.missions 48 = none ∧
    lowestFree full.hall.reels 1024 = some 2 ∧ full.hall.reelById (idOf 2) = none ∧ full.hall.named ⟨2, idOf 2⟩ = false :=
  ⟨by decide, rfl, rfl, by decide +kernel, by decide, by decide, by decide +kernel⟩

theorem test_meets_RegisterReelMakesRecord_crowded : lowestFree crowded.hall.reels 1024 = none ∧
    crowded.hall.reelById (idOf 2) = none := ⟨crowd_full 1024, Option.isNone_iff_eq_none.mp (by decide +kernel)⟩

theorem test_register_reel : (match exec (.registerReel (q 0x01) (idOf 2) 0 2400 1000 none 1302 1 none) plant with
    | .next t => (tget t.hall.reels 2).map fun r => (r.state, r.initial)
    | _ => none) = some (.atDock, lengthOf 60 100 1000) ∧
    (match exec (.registerReel (q 0x01) (idOf 2) 0 300 200 (some 160) 4000 1 none) plant with
    | .next t => (tget t.hall.reels 2).map fun r => (r.state, r.reason)
    | _ => none) = some (.quarantined, some .badWeight) := by decide

theorem test_meets_SetGradeSetsFields : (q 0x02).ok 0x02 ∧ plant.store.save = none ∧ tget plant.hall.grades 15 = none ∧
    (∀ x, some 160 = some x → 70 ≤ x ∧ x ≤ 160) ∧ (∀ x, some 72 = some x → x ≤ 72) ∧
    (∀ o, tget plant.hall.grades 0 = some o → (∃ p ∈ plant.hall.reels, p.2.grade = 0) →
      o.caliper = 60 ∧ o.basis = 42 ∧ o.core = (some 100).getD o.core) := by
  exact ⟨q_ok _, rfl, rfl, forSome (by decide), forSome (by decide), forSome fun _ => by decide⟩

/-- A RETURN mission that waits for reel 1 in bay 1.1. -/
def return1 : Mission where
  kind := .ret
  reel := some ⟨1, idOf 1⟩
  pickup := some (.bay ⟨1, 1⟩)
  drop := some (.bay ⟨1, 2⟩)
  cls := .ret
  deadline := 0
  created := 0
  state := .waiting
  vehicle := none
  route := none
  call := none
  holdBack := false

/-- Reel 1 QUARANTINED(HOST) in its bay. -/
def held1 : Reel := { reel1 with state := .quarantined, reason := some .host }

theorem test_meets_PurgeSpentDeletesSpent : (withReel1 { reel1 with state := .spent, loc := .nowhere }).Sound ∧
    0 < ((withReel1 { reel1 with state := .spent, loc := .nowhere }).hall.reels.filter fun p => decide (p.2.state = .spent)).length :=
  ⟨⟨{ test_plant_sound.hall with }, rfl, test_plant_sound.store⟩, by decide⟩

theorem test_meets_BaysAislesAndZonesAreSet : plant.store.save = none ∧ plant.hall.bay ⟨16, 48⟩ = none ∧
    (∀ x, plant.hall.bay ⟨1, 2⟩ = some x → x.occupant = none ∧ x.reserved = none) ∧
    (∃ x, plant.hall.bay ⟨1, 1⟩ = some x ∧ x.occupant.isSome = true ∧ x.blocked = false) ∧
    (tget plant.hall.grades 0).isSome = true ∧
    plant.hall.zone 128 = none ∧ zoneFits ⟨.park 2, 3, 10⟩ = true ∧ (⟨.park 2, 3, 10⟩ : ZoneConfig) = keptConfig ⟨.park 2, 3, 10⟩ ∧
    plant.hall.isLoop 3 = true ∧ (∀ p ∈ plant.hall.zones, p.1 ≠ 128 → p.2.cfg.use ≠ .park 2) ∧
    plant.hall.zoneNamed 8 = false ∧ plant.hall.isLoop 8 = false ∧
    (∀ z, plant.hall.zone 8 = some z → z.holder = none ∧ z.wait = [] ∧ z.hold = none) := by
  exact ⟨rfl, rfl, forSome (by decide), ⟨_, rfl, rfl, rfl⟩, by decide, rfl, by decide, by decide, by decide, by decide, by decide,
    by decide, forSome (by decide)⟩

theorem test_meets_VehiclesAreCommissionedAndCleared : (plant.hall.vehicle 24).commissioned = false ∧
    tget plant.hall.vehicles 1 = some vehicle1 ∧ vehicle1.commissioned = true ∧ vehicle1.mission = none ∧ vehicle1.load = none ∧
    ((withVehicle fun x => { x with supervision := .lost }).hall.vehicle 1).supervision = .lost := by decide

theorem test_meets_AllStopKeepsAndResumes : plant.hall.allStop = false ∧ (plant.hall.vehicle 1).seated = true ∧
    (plant.hall.vehicle 1).transferring = false ∧ (plant.hall.vehicle 24).seated = false ∧
    (∀ p ∈ (with' fun h => { h with allStop := true }).hall.faults, p.2.1.kind = .zoneConflict → p.2.2.active = false) ∧
    (∃ p ∈ (withFault ⟨.zoneConflict, .vehicle 1⟩ ⟨true, true, some 0, some 0, 1⟩).hall.faults,
      p.2.1.kind = .zoneConflict ∧ p.2.2.active = true) := by decide

theorem test_meets_ParametersAreSet : (q 0x19).ok 0x19 ∧ plant.store.save = none ∧
    (∀ x, some 5000 = some x → 250 ≤ x ∧ x ≤ 5000 ∧ x % 50 = 0) ∧ (∀ x, some 15 = some x → 2 ≤ x ∧ x ≤ 15) ∧
    (∀ x, some 60 = some x → 10 ≤ x ∧ x ≤ 60) ∧ (∀ x, some 70 = some x → 40 ≤ x ∧ x ≤ 100) ∧ 60 + 10 ≤ 70 ∧ 69 < 60 + 10 := by
  exact ⟨q_ok _, rfl, forSome (by decide), forSome (by decide), forSome (by decide), forSome (by decide), by decide⟩

/-- A call for stand 1.1 with reel 1 on vehicle 1. -/
def callAboard : Call := ⟨.dispatched, 0, 0, some ⟨1, idOf 1⟩, some 0, 0⟩

/-- Reel 1 aboard vehicle 1 for stand 1.1. -/
def aboard1 : Reel := { reel1 with state := .inTransit, loc := .vehicle 1, call := some st1 }

/-- Reel 1 aboard vehicle 1, on its way to arm B of stand 1.1 by a DELIVER mission. -/
def delivering : State :=
  with' fun h => { h with
    reels := tput h.reels 1 aboard1
    stands := tmod h.stands (standKey st1) fun x => { x with call := some callAboard }
    vehicles := tmod h.vehicles 1 fun x =>
      { x with activity := .carrying, load := some ⟨1, idOf 1⟩, mission := some 0, front := some 5 }
    zones := tmod (tmod h.zones 7 fun z => { z with holder := none }) 5 fun z => { z with holder := some 1 }
    missions := [(0, { return1 with
      kind := .deliver, cls := .deliver, drop := some (.arm st1 .b), state := .handover, vehicle := some 1, call := some st1 })] }

/-- `delivering` with a handover at arm B in a phase, and arm B in a state. -/
def handing (p : Phase) (x : ArmState) : State :=
  { delivering with hall := { delivering.hall with
      stands := tmod delivering.hall.stands (standKey st1) fun y =>
        { y with handover := some ⟨.load, .b, ⟨1, idOf 1⟩, 1, 0, p, 0, false, false⟩, armB := armWith x none } } }

theorem test_meets_StandsAreSetAndServed : (q 0x1D).ok 0x1D ∧ plant.store.save = none ∧ plant.hall.stand ⟨4, 8⟩ = none ∧
    plant.hall.stand ⟨1, 8⟩ = none ∧ plant.hall.stand st1 = some stand1 ∧ (plant.hall.line 1).isSome = true ∧
    (tget plant.hall.grades 0).isSome = true ∧ plant.hall.reelUnderWay stand1 = false ∧
    delivering.hall.stand st1 = some { stand1 with call := some callAboard } ∧
    delivering.hall.reelUnderWay { stand1 with call := some callAboard } = true ∧
    (∀ x, some 300 = some x → 110 ≤ x ∧ x ≤ 300) ∧ (∀ x, some 280 = some x → 100 ≤ x ∧ x ≤ 280) ∧
    (∀ x, some (-20 : Int) = some x → -20 ≤ x ∧ x ≤ 20) ∧ 280 < 300 ∧
    stand1.mode ≠ .outOfService ∧ stand1.mode ≠ .splicing ∧
    (withLine fun l => { l with run := .stopped }).hall.line 1 = some { line1 with run := .stopped } ∧
    (withStand fun x => { x with mode := .outOfService }).hall.stand st1 = some { stand1 with mode := .outOfService } :=
  ⟨q_ok _, rfl, rfl, rfl, rfl, rfl, rfl, by decide, rfl, by decide, forSome (by decide), forSome (by decide), forSome (by decide),
    by decide, by decide, by decide, rfl, rfl⟩

/-- Arm B in a state with reel 1, that is ON_ARM there. -/
def onB (x : ArmState) : State :=
  with' fun h => { h with
    reels := tput h.reels 1 { reel1 with state := .onArm, loc := .arm st1 .b }
    stands := tmod h.stands (standKey st1) fun y => { y with armB := armWith x (some ⟨1, idOf 1⟩) } }

/-- An OPEN interval of a cause from copy 90. -/
def open90 (c : Cause) : Interval := ⟨90, none, c, true, some 90, false⟩

theorem test_meets_CountersAreSetAndCleared : plant.hall.count 1 = some count1 ∧ count1.finalized < 61 ∧ count1.intervals = [] ∧
    count1.good + (61 - count1.finalized) ≤ 281474976710655 ∧ count1.finalized < 61 ∧
    (∃ l, (withLine fun l => { l with run := .stopped }).hall.line 1 = some l ∧ l.run = .stopped) ∧ count1.edition = none ∧
    (∀ iv ∈ count1.intervals, iv.stop.isSome = true) ∧ (∀ l, plant.hall.line 1 = some l → l.run ≠ .stopped) ∧
    (∀ x, some 200 = some x → x ≤ 200) ∧ (∀ x, some 700 = some x → 400 ≤ x ∧ x ≤ 700) :=
  ⟨rfl, by decide, rfl, by decide, by decide, ⟨_, rfl, rfl⟩, rfl, by decide, forSome (by decide),
    forSome (by decide), forSome (by decide)⟩

theorem test_meets_CountersAreSetAndCleared_waste :
    let ivs : List Interval := [⟨62, some 64, .splice, true, none, false⟩, ⟨64, some 70, .operator, true, none, false⟩, open90 .start]
    ivs.Pairwise (fun x y => ∃ e, x.stop = some e ∧ e ≤ y.first) ∧
    (withCount fun c => { c with intervals := ivs }).hall.count 1 = some { count1 with intervals := ivs } ∧
    (({ count1 with intervals := ivs } : LineCount).finalizeTo 95).waste = ⟨6, 2, 0, 6⟩ := by
  refine ⟨?_, rfl, by decide⟩
  simp [open90]

/-- The plant with sixteen closed editions of line 1, those of odd slots collected. -/
def sixteen (collected : Bool) : State := with' fun h => { h with editions := (List.range 16).map fun i =>
  (i, { edition1 with number := 20 + i, isOpen := false, opened := 50 - i, collected := collected && decide (i % 2 = 1) }) }

theorem test_meets_EditionsOpenAndClose_slots : (sixteen true).hall.findEdition 1 3 = none ∧
    lowestFree (sixteen true).hall.editions 16 = none ∧ ((sixteen true).hall.slotForEdition 1 3).map (·.1) = some 15 ∧
    (sixteen false).hall.findEdition 1 3 = none ∧ lowestFree (sixteen false).hall.editions 16 = none ∧
    (sixteen false).hall.slotForEdition 1 3 = none ∧ (sixteen false).hall.count 1 = some count1 ∧
    (sixteen true).hall.findEdition 1 21 = some (1, { edition1 with number := 21, isOpen := false, opened := 49, collected := true }) := by
  decide +kernel

theorem test_meets_EditionsOpenAndClose : plant.hall.count 1 = some count1 ∧ count1.edition = none ∧
    (∀ p, plant.hall.findEdition 1 3 = some p → p.2.isOpen = false ∧ p.2.collected = true) ∧
    plant.hall.slotForEdition 1 3 = some (0, none) ∧ (withEdition true).hall.findEdition 1 3 = some (0, edition1) ∧
    ((withEdition true).hall.count 1).isSome = true ∧
    (withEdition false).hall.findEdition 1 3 = some (0, { edition1 with isOpen := false }) :=
  ⟨rfl, rfl, forNone, rfl, rfl, rfl, rfl⟩

/-- The Fault Table may be replaced by a sound one. -/
theorem sound_withFaults {t : Table (FaultKey × FaultEntry)} (h : FaultsSound t) :
    (with' fun x => { x with faults := t }).Sound :=
  ⟨{ test_plant_sound.hall with faults := h }, rfl, test_plant_sound.store⟩

theorem test_meets_FaultEntriesKeepTheirHistory : plant.hall.Sound ∧
    (plant.hall.fault ⟨.configDefaults, .none⟩).active = true ∧ (plant.hall.fault ⟨.fleetLinkDown, .none⟩).active = false ∧
    plant.hall.notices.length < 64 ∧ FaultKey.num ⟨.fleetLinkDown, .none⟩ ≠ FaultKey.num ⟨.configDefaults, .none⟩ :=
  ⟨test_plant_sound.hall, by decide⟩

theorem test_meets_FaultsAreAcknowledged :
    (withFault ⟨.countJump, .line 4⟩ ⟨false, true, some 0, some 0, 1⟩).Sound ∧ subjectFits .countJump (.line 4) = true ∧
    ((withFault ⟨.countJump, .line 4⟩ ⟨false, true, some 0, some 0, 1⟩).hall.fault ⟨.countJump, .line 4⟩).latched = true ∧
    (plant.hall.fault ⟨.countJump, .line 4⟩).latched = false ∧ (plant.hall.fault ⟨.configDefaults, .none⟩).active = true ∧
    (withFault ⟨.sensorFailed, .stand st1⟩ ⟨true, true, some 0, some 0, 1⟩).Sound ∧ subjectFits .sensorFailed (.stand st1) = true ∧
    ((withFault ⟨.sensorFailed, .stand st1⟩ ⟨true, true, some 0, some 0, 1⟩).hall.fault ⟨.sensorFailed, .stand st1⟩).active = true ∧
    (withFault ⟨.sensorFailed, .stand st1⟩ ⟨true, true, some 0, some 0, 1⟩).hall.standEstimates st1 = false :=
  ⟨sound_withFaults ⟨by decide, by decide⟩, by decide, by decide, by decide, by decide, sound_withFaults ⟨by decide, by decide⟩,
    by decide, by decide, by decide⟩

theorem test_meets_SavesWriteTheOtherBank : stored.store.current = some bank5 ∧ plant.store.current = none ∧ stored.store.save = none ∧
    saving.store.save = some ⟨6, plant.hall.image, .b⟩ := by decide

theorem test_meets_LineStatusCountsCopies : (fr 8).ok 8 ∧ (fr 8).link = 1 ∧ plant.hall.line 1 = some line1 ∧
    plant.hall.count 1 = some count1 ∧ count1.gate = some 100 ∧ (600 - 100 : GateCount).toNat ≤ count1.cfg.jumpLimit ∧
    count1.cfg.jumpLimit < (601 - 100 : GateCount).toNat ∧
    (withCount fun c => { c with gate := none }).hall.count 1 = some { count1 with gate := none } :=
  ⟨fr_ok _, by decide⟩

theorem test_line_status_counts : (match exec (.lineStatus (fr 8) 1 .running 600 600) plant with
    | .next t => (t.hall.count 1).map fun c => (c.counted, c.finalized)
    | _ => none) = some (600, 550) ∧
    (match exec (.lineStatus (fr 8) 1 .running 600 601) plant with
    | .next t => (t.hall.count 1).map fun c => (c.counted, c.finalized)
    | _ => none) = some (100, 60) := by decide

theorem test_meets_DiameterSamplesConsumePaper : (fr 5).ok 5 ∧ st1.line = (fr 5).link ∧ plant.hall.stand st1 = some stand1 ∧
    (stand1.arm .a).state = .running ∧ (stand1.arm .a).reel = some ⟨0, idOf 0⟩ ∧
    plant.hall.reel ⟨0, idOf 0⟩ = some (reelIn 0 .onArm (.arm st1 .a)) ∧
    (max (100 : Int) (960 + 0)).toNat ≤ 1000 ∧ 1000 ≤ (max (100 : Int) (960 + 0)).toNat + stand1.cfg.maxStep ∧
    1000 < (max (100 : Int) (1003 + 0)).toNat ∧ (max (100 : Int) (1003 + 0)).toNat ≤ 1000 + 3 :=
  ⟨fr_ok _, by decide⟩

/-- The handover record of `handing`. -/
def handover1 (p : Phase) : Handover := ⟨.load, .b, ⟨1, idOf 1⟩, 1, 0, p, 0, false, false⟩

/-- Reel 1 on arm B, UNLOADING to vehicle 1 by a RETURN mission. -/
def unloading : State :=
  { onB .unloading with hall := { (onB .unloading).hall with
      stands := tmod (onB .unloading).hall.stands (standKey st1) fun y =>
        { y with handover := some { handover1 .asked with kind := .unload } }
      missions := [(0, { return1 with pickup := some (.arm st1 .b), state := .handover, vehicle := some 1 })]
      vehicles := tmod (onB .unloading).hall.vehicles 1 fun x => { x with activity := .handover, mission := some 0 } } }

/-- The butt of reel 1 on arm B, EXPIRED. -/
def butt : State := onB .expired

theorem test_meets_ArmEventsMoveReels : (fr 16).ok 16 ∧
    (∃ x, (handing .granted .loading).hall.stand st1 = some x ∧ x.handover = some (handover1 .granted) ∧
      (x.arm .b).state = .loading ∧ (handing .granted .loading).hall.reel ⟨1, idOf 1⟩ = some aboard1) ∧
    (∃ x, unloading.hall.stand st1 = some x ∧ x.handover = some { handover1 .asked with kind := .unload } ∧
      (x.arm .b).state = .unloading) ∧
    unloading.hall.reel ⟨1, idOf 1⟩ = some { reel1 with state := .onArm, loc := .arm st1 .b } ∧
    (∃ x, butt.hall.stand st1 = some x ∧ (x.arm .b).state = .expired ∧ (x.arm .b).reel = some ⟨1, idOf 1⟩) ∧
    (stand1.arm .a).state ≠ .expired :=
  ⟨fr_ok _, ⟨_, rfl, rfl, rfl, rfl⟩, ⟨_, rfl, rfl, rfl⟩, rfl, ⟨_, rfl, rfl, rfl⟩, by decide⟩

theorem test_arm_events : (match exec (.armLoaded (fr 16) st1 .b (some (idOf 1))) (handing .granted .loading) with
    | .next t => (tget t.hall.reels 1).map fun r => (r.state, r.loc)
    | _ => none) = some (.onArm, .arm st1 .b) ∧
    (match exec (.unloaded (fr 16) st1 .b) unloading with
    | .next t => (tget t.hall.reels 1).map fun r => (r.state, r.loc)
    | _ => none) = some (.inTransit, .vehicle 1) ∧
    (match exec (.ejected (fr 16) st1 .b) butt with
    | .next t => (tget t.hall.reels 1).map fun r => (r.state, r.loc)
    | _ => none) = some (.spent, .nowhere) := by decide

/-- A splice record from arm A to arm B with results of its first two phases. -/
def record1 (accel paste : PhaseResult) : SpliceRecord :=
  ⟨st1, 0, some ⟨0, idOf 0⟩, some ⟨1, idOf 1⟩, .a, .b, 140, accel, paste, .notReached, none, none⟩

/-- A splice under way from arm A to the reel PREPARED on arm B. -/
def splicing (accel paste : PhaseResult) : State :=
  { onB .prepared with hall := { (onB .prepared).hall with
      stands := tmod (onB .prepared).hall.stands (standKey st1) fun y =>
        { y with mode := .splicing, lastSplice := some (record1 accel paste), attempts := 1 } } }

theorem test_cut_ends_splice : (match exec (.cutOk (fr 8) st1 700) (splicing .ok .ok) with
    | .next t => (t.hall.stand st1).map fun x => (x.running, x.armB.state, x.armA.state)
    | _ => none) = some (some .b, .running, .expired) := by decide

theorem test_meets_WebBreaksStopTheLine : (fr 1).ok 1 ∧ plant.hall.line 1 = some line1 ∧ line1.run ≠ .broken ∧
    (withLine fun l => { l with run := .broken }).hall.line 1 = some { line1 with run := .broken } ∧
    (splicing .ok .notReached).hall.line 1 = some line1 ∧ count1.intervals = [] ∧
    (withEdition true).hall.openOn 1 = some (0, edition1) :=
  ⟨fr_ok _, rfl, by decide, rfl, rfl, rfl, by decide⟩

theorem test_console : (match exec (.consoleDivertOn (fr 3) 1) plant with
    | .next t => (t.hall.count 1).map fun c => c.intervals.map fun iv => (iv.first, iv.stop, iv.cause)
    | _ => none) = some [(101, none, .operator)] ∧
    (match exec (.consoleGood (fr 3) 1) (withCount fun c => { c with intervals := [open90 .start] }) with
    | .next t => (t.hall.count 1).map fun c => c.intervals.map fun iv => (iv.first, iv.stop, iv.cause)
    | _ => none) = some [(90, some 101, .start)] := by decide

theorem test_meets_StandStatusEstablishesArms : (fr 26).ok 26 ∧ plant.hall.stand st1 = some stand1 ∧
    (withStand fun x => { x with mode := .unknown }).hall.stand st1 = some { stand1 with mode := .unknown } ∧
    (withStand fun x => { x with rolesDue := true }).hall.stand st1 = some { stand1 with rolesDue := true } ∧
    stand1.armA.reel.map (·.id) = some (idOf 0) ∧ stand1.armB.reel.map (·.id) = none ∧
    (∀ arm, (stand1.arm arm).reel = none → (stand1.arm arm).state = .loading ∨ (stand1.arm arm).state = .empty) ∧
    stand1.armA.agrees .running = true ∧ stand1.armB.agrees .standby = true :=
  ⟨fr_ok _, rfl, rfl, rfl, rfl, rfl, fun arm => by cases arm <;> decide, by decide⟩

theorem test_meets_StandStatusEstablishesArms_roles :
    (let s : Stand := { stand1 with mode := .locked, rolesDue := true, armB := armWith .prepared (some ⟨1, idOf 1⟩) }
     let h : Hall := { (onB .prepared).hall with stands := [(standKey st1, s)] }
     h.stand st1 = some s ∧ s.armA.state ≠ .unloading ∧ s.armB.state ≠ .unloading ∧ h.line st1.line = some line1 ∧
      s.armB.reel.map (·.id) = some (idOf 1) ∧ s.armB.state ≠ .running ∧
      ((h.takeStatus st1 ⟨.expired, some (idOf 0)⟩ ⟨.running, some (idOf 1)⟩).stand st1).map (fun y => (y.mode, y.running)) =
        some (.normal, some .b) ∧
      ((h.takeStatus st1 ⟨.running, some (idOf 0)⟩ ⟨.prepared, some (idOf 1)⟩).stand st1).map (fun y => (y.mode, y.running)) =
        some (.locked, some .a) ∧
      ((h.takeStatus st1 ⟨.running, some (idOf 0)⟩ ⟨.running, some (idOf 1)⟩).stand st1).map (fun y => (y.running, y.armB.state)) =
        some (some .a, .loaded)) ∧
    ((onB .unloading).hall.stand st1).map (·.handover) = some none ∧
    (let h := (withReel0 fun r => { r with accepted := 142 }).hall
     let s : Stand := { stand1 with mode := .unknown }
     let g : Hall := { h with stands := [(standKey st1, s)] }
     g.stand st1 = some s ∧
      ((g.takeStatus st1 ⟨.running, some (idOf 0)⟩ ⟨.standby, none⟩).stand st1).map (·.mode) = some .locked) := by decide +kernel

theorem test_meets_StandStatusEstablishesArms_occupancy :
    ((stand1.arm .b).reel = none ∧ (stand1.arm .b).state = .empty ∧ plant.hall.reelById (idOf 2) = none ∧
      plant.hall.reelById (idOf 0) = some (0, reelIn 0 .onArm (.arm st1 .a)) ∧ tsorted plant.hall.reels = true ∧
      plant.hall.reelById (idOf 1) = some (1, reel1) ∧ (∀ x y, reel1.loc ≠ .arm x y) ∧
      tsorted (withMission return1 plant).hall.missions = true ∧ (withMission return1 plant).hall.missionOf ⟨1, idOf 1⟩ = some 0 ∧
      plant.hall.bay ⟨1, 1⟩ = some ⟨.normal, false, some ⟨1, idOf 1⟩, none⟩ ∧ plant.hall.notices.length ≤ 40) ∧
    (∃ s x, (handing .granted .loading).hall.stand st1 = some s ∧ (s.arm .b).reel = none ∧ (s.arm .b).state = .loading ∧
      s.handover = some x ∧ x.kind = .load ∧ x.arm = .b ∧ x.reel.id = idOf 1 ∧ x.armDone = false) ∧
    (∃ s, (onB .expired).hall.stand st1 = some s ∧ (s.arm .b).state = .expired ∧ (s.arm .b).reel = some ⟨1, idOf 1⟩) ∧
    (∃ s, plant.hall.stand st1 = some s ∧ (s.arm .a).reel = some ⟨0, idOf 0⟩ ∧ (s.arm .a).state = .running ∧
      plant.hall.reel ⟨0, idOf 0⟩ = some (reelIn 0 .onArm (.arm st1 .a)) ∧ (reelIn 0 .onArm (.arm st1 .a)).call = none) ∧
    (∃ s, unloading.hall.stand st1 = some s ∧ (s.arm .b).reel = some ⟨1, idOf 1⟩ ∧ (s.arm .b).state = .unloading ∧
      unloading.hall.unloadMission st1 .b ⟨1, idOf 1⟩ = some 0 ∧ tsorted unloading.hall.missions = true) := by
  refine ⟨⟨rfl, rfl, by decide, by decide, by decide, by decide, fun _ _ => nofun, by decide⟩,
    ⟨_, _, rfl, rfl, rfl, rfl, rfl, rfl, rfl, rfl⟩, ⟨_, rfl, rfl, rfl⟩, ⟨_, rfl, rfl, rfl, by decide, rfl⟩, ⟨_, rfl, rfl, rfl, by decide⟩⟩

theorem test_meets_VehicleReportsSeatAndMove : (fr 19).ok 19 ∧ (fr 18).len ≠ 19 ∧ (plant.hall.vehicle 24).commissioned = false ∧
    tget (withVehicle fun x => { x with seated := false, front := none }).hall.vehicles 1 =
      some { vehicle1 with seated := false, front := none } ∧
    (∀ p ∈ plant.hall.zones, p.2.holder = some 1 → p.1 = 7 ∨ (none : Option Nat) = some p.1) ∧
    plant.hall.zone 7 = some (zoneOf (.park 1) 1 (some 1)) ∧ tget plant.hall.vehicles 1 = some vehicle1 ∧
    vehicle1.supervision ≠ .lost :=
  ⟨fr_ok _, by decide, by decide, by decide, by decide, by decide, by decide, by decide⟩

theorem test_meets_SilentVehiclesAreLost :
    let at50 (x : Supervision) (n : Nat) : State := { withVehicle fun y => { y with supervision := x, missed := n } with
      hall := { (withVehicle fun y => { y with supervision := x, missed := n }).hall with timebase := 50 } }
    tget (at50 .reporting 0).hall.vehicles 1 = some vehicle1 ∧ vehicle1.timer = some 50 ∧ 50 ≤ (at50 .reporting 0).hall.timebase ∧
    min 255 (0 + 1) < plant.hall.params.lostCount ∧ (tget (at50 .silent 1).hall.vehicles 1).map (·.supervision) = some .silent ∧
    plant.hall.params.lostCount ≤ min 255 (3 + 1) ∧ (tget (at50 .silent 3).hall.vehicles 1).map (·.missed) = some 3 ∧
    (with' fun h => { h with timebase := 200 }).hall.fleetSilence = some 200 ∧
    (plant.hall.fault ⟨.fleetLinkDown, .none⟩).active = false := by decide

/-- The same 30 s later, when a wait limit that began at 0 is over. -/
def late (s : State) : State := { s with hall := { s.hall with timebase := 3000 } }

theorem test_meets_CeilingTakesTheFormedValue : plant.hall.line 1 = some line1 := rfl

theorem test_meets_SpliceDelayRoundsUp : (5000 : Nat) ≤ 5000 ∧ 400 ≤ 700 ∧ 700 ≤ 700 ∧ spliceDelay 5000 700 = 8 ∧
    spliceDelay 120000 400 = 300 := by decide

theorem test_meets_TimeToSpliceFollowsSpeed : plant.hall.line st1.line = some line1 ∧ (30 : Nat) ≤ 30 ∧ 70 ≤ 70 ∧ 1500 ≤ 1500 ∧
    lengthOf 30 70 1500 = 58776 ∧ plant.hall.reelById (idOf 1) = some (1, reel1) := by decide

theorem test_meets_IdleStepIsOneTick : plant.pending = [] := rfl

/-- A frame with a length below 2, then a good frame of Query Stock, and the start of another. -/
def hunting : List Byte := [0xC3, 0, 1] ++ envelope 5 8 [] ++ [0xC3]

theorem test_meets_DiscardedFramesAreCounted : (List.replicate 250 (0 : Byte)).length ≤ 250 ∧ 1 ≤ (127 : Byte).toNat ∧
    (127 : Byte).toNat ≤ 127 ∧ 1 ≤ (7 : Byte).toNat ∧ (7 : Byte).toNat ≤ 7 ∧ frameDiscarded .host hunting = true ∧
    frameDiscarded .host (envelope 5 0 []) = true ∧ frameDiscarded .host (envelope 5 8 []) = false ∧
    frameUnfinished [0xC3, 0, 2] = true ∧ ([0, 0xC3] : List Byte).head? ≠ some 0xC3 ∧
    some (.queryStock ⟨5, 0, true⟩) ∈ (huntAll .host 8 (envelope 5 8 [] ++ [0xC3])).1 := by
  exact ⟨List.length_replicate.le, by decide, by decide, by decide, by decide, by decide +kernel, by decide +kernel, by decide +kernel,
    by decide, by decide, by decide +kernel⟩

theorem test_meets_ReelsMoveWithTheirPlaces : reel1.loc ≠ { reel1 with loc := .bay ⟨1, 2⟩ }.loc ∧
    plant.hall.bay ⟨1, 1⟩ = some ⟨.normal, false, some ⟨1, idOf 1⟩, none⟩ ∧ plant.hall.bay ⟨1, 2⟩ = some ⟨.normal, false, none, none⟩ ∧
    reel1.loc ≠ { reel1 with loc := .vehicle 1 }.loc ∧ (tget plant.hall.vehicles 1).isSome = true ∧ aboard1.loc = .vehicle 1 ∧
    reel1.loc ≠ { reel1 with loc := .arm st1 .b }.loc ∧ plant.hall.stand st1 = some stand1 ∧
    (reelIn 0 .onArm (.arm st1 .a)).loc ≠ { reelIn 0 .onArm (.arm st1 .a) with loc := .nowhere }.loc ∧
    (withReel1 held1).hall.reelById (idOf 1) = some (1, held1) ∧ held1.state = .quarantined ∧
    plant.hall.reelById (idOf 1) = some (1, reel1) ∧ reel1.call = none ∧ plant.hall.named ⟨1, idOf 1⟩ = false ∧
    plant.hall.bay ⟨16, 48⟩ = none ∧ plant.hall.served (.dock 1) = true ∧ lowestFree plant.hall.missions 48 = some 0 ∧
    (withMission return1 plant).hall.missionOf ⟨1, idOf 1⟩ = some 0 ∧ (withMission return1 plant).hall.mission 0 = some return1 ∧
    tsorted (withMission return1 plant).hall.missions = true ∧ plant.hall.notices.length ≤ 48 := by decide

/-- The plant with the bays given beside its own. -/
def withBays (l : List (BayAddr × Bay)) (h : Hall) : Hall :=
  { h with bays := l.foldl (fun t p => tput t (bayKey p.1) p.2) h.bays }

theorem test_meets_BaysAreChosenAndReserved :
    (tsorted plant.hall.bays = true ∧ (∀ p ∈ plant.hall.bays, bayKey (bayOfKey p.1) = p.1) ∧
      plant.hall.selectBay 0 true = none ∧ plant.hall.selectBay 0 false = some ⟨1, 2⟩ ∧
      ({ plant.hall with aisles := [(1, 0)] } : Hall).selectBay 0 false = some ⟨1, 2⟩ ∧
      ({ plant.hall with aisles := [(1, 3)] } : Hall).selectBay 0 false = none ∧
      (withBays [(⟨1, 48⟩, ⟨.quarantine, false, none, none⟩)] plant.hall).selectBay 0 true = some ⟨1, 48⟩) ∧
    (lowestFree ((List.range 48).map fun i => (i, return1)) 48 = none ∧ return1.reel = some ⟨1, idOf 1⟩ ∧
      (withMission return1 plant).hall.named ⟨1, idOf 1⟩ = true ∧ plant.hall.named ⟨1, idOf 1⟩ = false ∧
      lowestFree plant.hall.missions 48 = some 0 ∧ return1.state = .waiting) ∧
    (let m : Mission := { return1 with drop := none }
     (withMission m plant).hall.mission 0 = some m ∧ (withMission m plant).hall.selectFor ⟨1, idOf 1⟩ false = some ⟨1, 2⟩ ∧
      (withMission { m with holdBack := true } plant).hall.selectFor ⟨1, idOf 1⟩ true = none ∧
      plant.hall.selectFor ⟨9, idOf 9⟩ false = none ∧
      (withMission { m with holdBack := true } plant).hall.walkBays.mission 0 = some { m with holdBack := true }) ∧
    (let h := withBays [(⟨1, 2⟩, ⟨.normal, false, none, some 0⟩)] (withMission return1 plant).hall
     h.reservedBay 0 = some ⟨1, 2⟩ ∧ h.bay ⟨1, 2⟩ = some ⟨.normal, false, none, some 0⟩ ∧ h.mission 0 = some return1 ∧
      h.mission 0 = some return1 ∧ Job.missionLeft ∉ h.agenda ∧
      BayKind.normal ≠ (if (true || (h.reel ⟨1, idOf 1⟩).any fun r => decide (r.state = .quarantined)) = true then .quarantine else .normal)) ∧
    plant.hall.bay ⟨1, 1⟩ = some ⟨.normal, false, some ⟨1, idOf 1⟩, none⟩ := by decide +kernel

theorem test_meets_BaysAreChosenAndReserved_sound : plant.hall.Sound := test_plant_sound.hall

theorem test_meets_HostMissionsEnterAndLeave : lowestFree plant.hall.missions 48 = some 0 ∧ plant.hall.served (.park 1) = true ∧
    plant.hall.reelById (idOf 1) = some (1, reel1) ∧ plant.hall.named ⟨1, idOf 1⟩ = false ∧
    (withReel1 { reel1 with state := .atDock, loc := .dock 1 }).hall.reelById (idOf 1) =
      some (1, { reel1 with state := .atDock, loc := .dock 1 }) ∧
    plant.hall.bay ⟨1, 2⟩ = some ⟨.normal, false, none, none⟩ ∧
    (withMission return1 plant).hall.mission 0 = some return1 ∧
    (let m : Mission := { return1 with vehicle := some 1, state := .assigned }
     (withMission m plant).hall.mission 0 = some m ∧ ((withMission m plant).hall.vehicle 1).atTransfer = false ∧
      (withMission { m with kind := .charge } plant).hall.mission 0 = some { m with kind := .charge }) ∧
    (∃ m, delivering.hall.mission 0 = some m ∧ m.vehicle = some 1 ∧ m.kind = .deliver ∧ m.state = .handover ∧
      m.reel = some ⟨1, idOf 1⟩) ∧
    (delivering.hall.vehicle 1).atTransfer = false ∧ delivering.hall.reel ⟨1, idOf 1⟩ = some aboard1 ∧
    ((withVehicle fun x => { x with directive := ⟨4, .transfer st1 .b (idOf 1)⟩ }).hall.vehicle 1).atTransfer = true ∧
    tsorted (withMission return1 plant).hall.missions = true ∧ plant.hall.mission 47 = none :=
  ⟨rfl, by decide, by decide, by decide, by decide, by decide, rfl, by decide, ⟨_, rfl, rfl, rfl, rfl, rfl⟩, by decide⟩

theorem test_meets_HostMissionsEnterAndLeave_aborts :
    let r : AbortRecord := ⟨[.hostCancel], none, none, 0, 0⟩
    let r' : AbortRecord := ⟨[.hostCancel, .vehicleLost], none, none, 0, 0⟩
    ((withVehicle fun x => { x with abort := some r }).hall.vehicle 1).abort = some r ∧
    (∀ p ∈ (withVehicle fun x => { x with abort := some r }).hall.stands,
      (p.2.call.isSome ∨ p.2.handover.isSome) → p.2.inService = true) ∧
    ((withVehicle fun x => { x with abort := some r', supervision := .lost }).hall.vehicle 1).abort = some r' ∧
    ((withVehicle fun x => { x with abort := some r', supervision := .lost }).hall.vehicle 1).supervision = .lost ∧
    AbortCause.vehicleLost ∈ r'.causes ∧ plant.hall.agenda = [] ∧ plant.hall.ceilings = [] ∧
    (plant.hall.vehicle 24).abort = none := by decide

/-- The plant with zone `z` changed. -/
def withZone (z : Nat) (g : Zone → Zone) (h : Hall) : Hall := { h with zones := tmod h.zones z g }

theorem test_meets_ZonesAreGrantedAndReleased :
    (tsorted plant.hall.zones = true ∧ plant.hall.zone 1 = some (zoneOf (.loop 1) 0 none) ∧ (tget plant.hall.vehicles 1).isSome = true ∧
      plant.hall.zone 99 = none ∧ (plant.hall.vehicle 1).furthest = some 7 ∧ plant.hall.successor 7 1 = true ∧
      plant.hall.successor 7 2 = false ∧ (plant.hall.vehicle 1).ahead.length < 2 ∧ plant.hall.mayGrant 1 1 = true ∧
      ({ plant.hall with zones := (plant.hall.zones.take 1) } : Hall).mayGrant 1 1 = false ∧ plant.hall.follows 1 1 = true ∧
      plant.hall.follows 2 1 = false) ∧
    (let h := withZone 1 (fun z => { z with wait := [1] }) plant.hall
     h.waitsFor 1 = some 1 ∧ (∀ p ∈ h.zones, 1 ∈ p.2.wait → h.waitsFor 1 = some p.1) ∧
      ∀ x, h.zone 1 = some x → ∀ w ∈ x.wait, h.follows w 1 = true) ∧
    (let h := (withVehicle fun x => { x with front := some 2, directive := ⟨3, .move [7, 1, 2, 8] 3⟩ }).hall
     (h.vehicle 1).directive.kind = .move [7, 1, 2, 8] 3 ∧ (h.vehicle 1).withdraw = false ∧ h.successor 2 8 = true ∧
      ∃ x, (withZone 8 (fun z => { z with hold := some ⟨1, 9⟩ }) h).zone 8 = some x ∧ ∃ c, x.hold = some c ∧ c.vehicle = 1) ∧
    (let h := (withMission return1 (withVehicle fun x => { x with mission := some 0 })).hall
     h.isCharger 8 = true ∧ 0 < h.params.holdTime ∧ (h.vehicle 1).mission = some 0 ∧ h.mission 0 = some return1 ∧ return1.kind ≠ .charge) ∧
    ((∃ x, plant.hall.zone 7 = some x ∧ x.holder = some 1) ∧ (plant.hall.vehicle 1).supervision = .reporting ∧
      (∀ x, plant.hall.zone 1 = some x → x.holder ≠ some 1) ∧
      ((withVehicle fun x => { x with supervision := .lost }).hall.vehicle 1).supervision = .lost) := by
  refine ⟨by decide +kernel, ?_, ?_, by decide, ⟨_, rfl, rfl⟩, by decide, ?_, by decide⟩
  · exact ⟨by decide, by decide, forSome (by decide)⟩
  · exact ⟨rfl, rfl, by decide, ⟨_, rfl, _, rfl, rfl⟩⟩
  · exact forSome (by decide)

/-- The plant with the line link of line 1 down. -/
def downLine : State := withFault ⟨.lineLinkDown, .line 1⟩ ⟨true, true, some 0, some 0, 1⟩

theorem test_meets_LinesAreFedAndHeard : (q 0x1C).ok 0x1C ∧ plant.store.save = none ∧ plant.hall.line 4 = none ∧
    plant.hall.line 1 = some line1 ∧ (∀ x, some 1200 = some x → 100 ≤ x ∧ x ≤ 1200 ∧ x % 10 = 0) ∧
    (∀ x, some 200 = some x → 30 ≤ x ∧ x ≤ 200 ∧ x % 10 = 0) ∧ (∀ x, some 1800 = some x → 30 ≤ x ∧ x ≤ 1800) ∧
    (∀ x, some 60000 = some x → x ≤ 60000) ∧ (∀ x, some 30 = some x → x ≤ 30) ∧ 200 ≤ 1200 ∧
    plant.hall.agenda = [] ∧ plant.hall.ceilings = [] ∧ line1.oweCeiling = false ∧ line1.oweHold = false ∧
    (plant.hall.fault ⟨.lineLinkDown, .line 1⟩).active = false ∧ plant.hall.Sound ∧ (fr 7).link = 1 ∧ (fr 7).len ≠ 8 ∧
    (downLine.hall.fault ⟨.lineLinkDown, .line 1⟩).active = true ∧ downLine.hall.line 1 = some line1 ∧
    (withLine fun l => { l with oweCeiling := true, oweHold := true }).hall.line 1 =
      some { line1 with oweCeiling := true, oweHold := true } ∧
    st1 ∈ (handing .asked .empty).hall.standsOf 1 ∧
    (∃ y, (handing .asked .empty).hall.handover st1 = some y ∧ y.kind = .load ∧ y.phase = .asked) :=
  ⟨q_ok _, rfl, rfl, rfl, forSome (by decide), forSome (by decide), forSome (by decide), forSome (by decide), forSome (by decide),
    by decide, rfl, rfl, rfl, rfl, by decide, test_plant_sound.hall, rfl, by decide, by decide, rfl, rfl, by decide,
    ⟨_, rfl, rfl, rfl⟩⟩

theorem test_meets_HostUnloadsAndDeclaresArms :
    (onB .loaded).hall.stand st1 = some { stand1 with armB := armWith .loaded (some ⟨1, idOf 1⟩) } ∧
    stand1.running = some (ArmName.other .b) ∧ stand1.mode ≠ .locked ∧ stand1.mode ≠ .splicing ∧ stand1.handover = none ∧
    (onB .loaded).hall.named ⟨1, idOf 1⟩ = false ∧ lowestFree (onB .loaded).hall.missions 48 = some 0 ∧
    (onB .prepared).hall.reelById (idOf 1) = some (1, { reel1 with state := .onArm, loc := .arm st1 .b }) ∧
    (withStand fun x => { x with mode := .unknown }).hall.stand st1 = some { stand1 with mode := .unknown } ∧
    (stand1.arm .b).reel = none ∧ (stand1.arm .b).state ≠ .loading ∧ (stand1.arm .a).known = true ∧
    (withStand fun x => { x with mode := .unknown, armA := { x.armA with known := false } }).hall.stand st1 =
      some { stand1 with mode := .unknown, armA := { stand1.armA with known := false } } ∧
    (withLine fun l => { l with run := .stopped }).hall.line 1 = some { line1 with run := .stopped } ∧
    (withStand fun x => { x with mode := .locked }).hall.stand st1 = some { stand1 with mode := .locked } ∧
    plant.hall.line 1 = some line1 ∧ line1.run ≠ .stopped ∧
    ((handing .asked .empty).hall.handover st1).isSome = true ∧ plant.hall.stand ⟨1, 2⟩ = none := by decide

theorem test_meets_LinesAreHeldAndConstrained :
    (let h := (withFault ⟨.cutFailed, .stand st1⟩ ⟨true, true, some 0, some 0, 1⟩).hall
     tsorted h.holds = true ∧ h.holdContent 1 ≠ tget h.holds 1 ∧ plant.hall.holdContent 1 = tget plant.hall.holds 1 ∧
      h.notices.length < 64 ∧ (h.fault ⟨.cutFailed, .stand st1⟩).active = true ∧
      (plant.hall.fault ⟨.cutFailed, .stand st1⟩).active = false ∧ (FaultKey.mk .cutFailed (.stand st1)).subject = .stand st1 ∧
      (FaultKey.mk .countJump (.line 1)).subject = .line 1) ∧
    (plant.hall.stand st1 = some stand1 ∧ plant.hall.line st1.line = some line1 ∧
      plant.hall.runningReel st1 = some (reelIn 0 .onArm (.arm st1 .a))) ∧
    ((delivering.hall.legToSpur { return1 with kind := .deliver } st1).isSome = true ∧ return1.state = .waiting ∧
      plant.hall.legToSpur { return1 with pickup := none } ⟨4, 8⟩ = none) ∧
    ((∃ x, (onB .prepared).hall.stand st1 = some x ∧ x.running = some .a ∧ (x.arm (ArmName.other .a)).state = .prepared) ∧
      (∃ x, (onB .loaded).hall.stand st1 = some x ∧ x.running = some .a ∧ (x.arm (ArmName.other .a)).state = .loaded) ∧
      ∃ x m, delivering.hall.stand st1 = some x ∧ x.call = some callAboard ∧ (x.arm (ArmName.other .a)).state = .empty ∧
        callAboard.mission = some 0 ∧ delivering.hall.mission 0 = some m ∧ m.state = .handover ∧ callAboard.state = .dispatched) ∧
    (∃ m, delivering.hall.deliveryOf st1 = some (0, m)) ∧
    ∀ st ∈ plant.hall.standsOf 1, 1 ≤ st.stand ∧ st.stand ≤ 8 := by
  refine ⟨by decide +kernel, ⟨rfl, rfl, rfl⟩, by decide +kernel, ⟨⟨_, rfl, rfl, rfl⟩, ⟨_, rfl, rfl, rfl⟩, ?_⟩, ⟨_, rfl⟩, by decide⟩
  exact ⟨_, _, rfl, rfl, rfl, rfl, rfl, rfl, rfl⟩

theorem test_meets_TimeAndExpiriesAct :
    (with' fun h => { h with timebase := 100 }).hall.secondFrom + 100 ≤ (with' fun h => { h with timebase := 100 }).hall.timebase ∧
    plant.hall.timebase < plant.hall.secondFrom + 100 ∧
    tget (withReel1 { reel1 with state := .conditioning }).hall.reels 1 = some { reel1 with state := .conditioning } ∧
    reel1.earliest ≤ plant.hall.clock ∧
    (withZone 8 (fun z => { z with hold := some ⟨2, 0⟩ }) plant.hall).zone 8 =
      some { zoneOf (.charger 1) 2 none with hold := some ⟨2, 0⟩ } ∧
    tget (withReel1 { reel1 with state := .conditioning, earliest := 1 }).hall.reels 1 =
      some { reel1 with state := .conditioning, earliest := 1 } ∧ plant.hall.clock < 1 ∧
    (withZone 8 (fun z => { z with hold := some ⟨2, 1⟩ }) plant.hall).zone 8 =
      some { zoneOf (.charger 1) 2 none with hold := some ⟨2, 1⟩ } ∧
    plant.hall.line 1 = some line1 ∧ line1.silence = some 200 ∧
    200 ≤ (with' fun h => { h with timebase := 200 }).hall.timebase ∧ plant.hall.timebase < 200 ∧
    (∃ x, (splicing .ok .notReached).hall.stand st1 = some x ∧ x.mode = .splicing ∧ x.lastSplice = some (record1 .ok .notReached) ∧
      (record1 .ok .notReached).outcome = none) ∧
    (∃ x y m, (late (handing .asked .empty)).hall.stand st1 = some x ∧ x.handover = some y ∧ y.kind = .load ∧ y.phase ≠ .granted ∧
      y.started + plant.hall.params.waitLimit * 100 ≤ 3000 ∧ (late (handing .asked .empty)).hall.mission y.mission = some m ∧ m.reel.isSome = true ∧
      (∀ p ∈ (late (handing .asked .empty)).hall.stands, (p.2.call.isSome ∨ p.2.handover.isSome) → p.2.inService = true) ∧
      (tget (late (handing .asked .empty)).hall.vehicles y.vehicle).isSome = true) ∧
    (∃ x y m, (late unloading).hall.stand st1 = some x ∧ x.handover = some y ∧ y.kind = .unload ∧ y.armDone = false ∧
      y.started + plant.hall.params.waitLimit * 100 ≤ 3000 ∧ (late unloading).hall.mission y.mission = some m ∧
      (late unloading).hall.handoverOf y.mission = some (st1, y) ∧ tsorted (late unloading).hall.missions = true) ∧
    (∃ x, (withStand fun x => { x with retry := some 0 }).hall.stand st1 = some x ∧ x.retry = some 0) ∧
    plant.hall.stand st1 = some stand1 ∧ stand1.handover = none ∧ stand1.retry = none :=
  ⟨by decide, by decide, by decide, by decide, rfl, rfl, by decide, rfl, rfl, rfl, by decide, by decide, ⟨_, rfl, rfl, rfl, rfl⟩,
    ⟨_, _, _, rfl, rfl, rfl, by decide, by decide, rfl, rfl, by decide, rfl⟩,
    ⟨_, _, _, rfl, rfl, rfl, rfl, by decide, rfl, rfl, rfl⟩, ⟨_, rfl, rfl⟩, rfl, rfl, rfl⟩

/-- The plant with return1 given to vehicle 1, which stands in a zone with a directive. -/
def onMission (m : Mission) (front : Nat) (k : DirKind) : State :=
  withMission { m with vehicle := some 1 } (withVehicle fun x => { x with mission := some 0, front := some front, directive := ⟨4, k⟩ })

theorem test_meets_MissionsAreAssignedAndCompleted :
    (plant.hall.available 1 = true ∧ (∀ v ∈ vehicleNumbers, plant.hall.available v = true → v = 1) ∧
      (withMission return1 plant).hall.mission 0 = some return1 ∧ return1.state = .waiting ∧ return1.kind ≠ .charge ∧
      return1.drop.isSome = true ∧ (withMission return1 plant).hall.startZone return1 = some 4 ∧
      (plant.hall.route 7 4).isSome = true ∧ plant.hall.startZone { return1 with pickup := some (.bay ⟨9, 1⟩) } = none ∧
      (∀ v ∈ vehicleNumbers, (withVehicle fun x => { x with charge := 0 }).hall.available v = false)) ∧
    (tget plant.hall.vehicles 1 = some vehicle1 ∧ vehicle1.seated = true ∧ vehicle1.front = some 7 ∧ plant.hall.allStop = false ∧
      plant.hall.placeZone (.bay ⟨1, 1⟩) = some 4 ∧ plant.hall.placeZone (.arm st1 .b) = some 5 ∧
      plant.hall.placeZone (.park 1) = some 7 ∧ (plant.hall.route 7 7).isSome = true ∧
      (callAboard.state = .dispatched ∧ delivering.hall.call st1 = some callAboard)) ∧
    completes (.pick (.bay ⟨1, 1⟩) (idOf 1)) .pick = true ∧ completes .hold .pick = false := by decide +kernel

theorem test_meets_MissionsAreAssignedAndCompleted_completions :
    (∃ m x, (onMission return1 4 (.pick (.bay ⟨1, 1⟩) (idOf 1))).hall.mission 0 = some m ∧
      tget (onMission return1 4 (.pick (.bay ⟨1, 1⟩) (idOf 1))).hall.vehicles 1 = some x ∧ x.mission = some 0 ∧
      m.reel = some ⟨1, idOf 1⟩ ∧ m.pickup = some (.bay ⟨1, 1⟩) ∧ m.vehicle = some 1 ∧ reel1.loc = (Place.bay ⟨1, 1⟩).location ∧
      reel1.state = .stored ∧ (withReel1 { reel1 with state := .spent }).hall.reel ⟨1, idOf 1⟩ = some { reel1 with state := .spent }) ∧
    (aboard1.loc = .vehicle 1 ∧ aboard1.state = .inTransit ∧ plant.hall.bay ⟨1, 2⟩ = some ⟨.normal, false, none, none⟩ ∧
      aboard1.earliest ≤ plant.hall.clock ∧ reel1.loc ≠ .vehicle 1) ∧
    (∃ m y, unloading.hall.mission 0 = some m ∧ m.vehicle = some 1 ∧ unloading.hall.handoverOf 0 = some (st1, y) ∧ y.vehicle = 1 ∧
      unloading.hall.handover st1 = some y ∧ y.kind = .unload ∧ y.armDone = false ∧ tsorted unloading.hall.missions = true) ∧
    (∃ m x, (onMission { return1 with state := .carrying } 7 (.move [7] 1)).hall.mission 0 = some m ∧ m.state = .carrying ∧
      tget (onMission { return1 with state := .carrying } 7 (.move [7] 1)).hall.vehicles 1 = some x ∧ x.seated = true ∧
      x.directive = ⟨4, .move [7] 1⟩ ∧ ([7] : List Nat).getLast? = x.front ∧ x.tail = none ∧ m.drop = some (.bay ⟨1, 2⟩)) ∧
    (vehicle1.load = none ∧ (∀ p ∈ plant.hall.stands, ∀ y, p.2.handover = some y → y.kind = .unload → y.vehicle ≠ 1) ∧
      (vehicle1.kept.map (·.kind)).getD vehicle1.directive.kind = .hold) := by
  refine ⟨⟨_, _, rfl, rfl, rfl, rfl, rfl, rfl, rfl, rfl, rfl⟩, by decide, ⟨_, _, rfl, rfl, rfl, rfl, rfl, rfl, rfl, rfl⟩,
    ⟨_, _, rfl, rfl, rfl, rfl, rfl, rfl, rfl, rfl⟩, rfl, ?_, rfl⟩
  intro p hp y hy
  have e : p = (standKey st1, stand1) := by simpa [plant] using hp
  subst e
  exact nomatch hy

theorem test_meets_ReloadAndResetsSetTheState :
    let h : Hall := { plant.hall with allStop := true, lines := [(1, { line1 with run := .stopped })] }
    ({ stored with hall := h } : State).store.save = none ∧ h.allStop = true ∧ (∀ p ∈ h.lines, p.2.run = .stopped) ∧
    stored.store.current = some bank5 ∧ plant.store.current = none ∧ plant.hall.allStop = false ∧
    (tsorted h.bays = true ∧ tsorted h.zones = true ∧ tsorted h.lines = true ∧ tsorted h.counts = true ∧ tsorted h.stands = true ∧
      tsorted h.missions = true) ∧
    (tsorted bank5.image.bays = true ∧ tsorted bank5.image.zones = true ∧ tsorted bank5.image.lines = true ∧
      tsorted bank5.image.stands = true) ∧
    (∀ p ∈ bank5.image.stands, standKey (standOfKey p.1) = p.1) ∧ (∀ v ∈ vehicleNumbers, (tget h.vehicles v).isSome) ∧
    (∀ p ∈ h.stands, p.2.mode = .outOfService ↔ p.2.inService = false) ∧
    plant.host = ⟨[], []⟩ ∧ ({ plant with host := ⟨[], [.cold]⟩ } : State).restartDue .cold = true ∧
    ({ plant with host := ⟨[], [.warm]⟩ } : State).restartDue .warm = true ∧ plant.restartDue .cold = false ∧
    tsorted plant.hall.reels = true ∧ (plant.hall.vehicle 1).commissioned = true := by decide +kernel

theorem test_meets_ReloadAndResetsSetTheState_tables :
    ({ plant.hall with allStop := true, lines := [(1, { line1 with run := .stopped })] } : Hall).Sound ∧
    ∀ n, (tget ({ plant.hall with lines := [(1, { line1 with run := .stopped })] } : Hall).lines n).isSome ↔
      (tget plant.hall.counts n).isSome := by
  refine ⟨{ test_plant_sound.hall with
    lines := ?_
    ceilings := ?_ }, ?_⟩
  · intro p h
    have : p = (1, { line1 with run := .stopped }) := by simpa using h
    subst this
    exact ⟨⟨by decide, by decide, by decide⟩, by decide, by decide, by decide, by decide⟩
  · intro n l h
    have : l = { line1 with run := .stopped } := by
      by_cases e : 1 = n <;> simp [tget, e] at h
      exact h.symm
    subst this
    exact .inl ⟨by decide, by decide⟩
  · intro n
    by_cases e : 1 = n <;> simp [plant, tget, e]

/-- Reel 0 in estimate mode on arm A of the plant. -/
def estimating : State := withReel0 fun r => { r with estimate := true }

theorem test_meets_EstimatesAndPaperAreBooked :
    (let r : Reel := reelIn 0 .onArm (.arm st1 .a)
     plant.hall.stand st1 = some stand1 ∧ stand1.running = some .a ∧ (stand1.arm .a).reel = some ⟨0, idOf 0⟩ ∧
      plant.hall.reel ⟨0, idOf 0⟩ = some r ∧ estimating.hall.reel ⟨0, idOf 0⟩ = some { r with estimate := true } ∧
      stand1.mode ≠ .outOfService ∧ (stand1.arm .a).state = .running ∧ r.state = .onArm ∧ r.loc = .arm st1 .a ∧ r.estimate = false ∧
      r.core ≤ 960 ∧ r.accepted ≤ 960 + stand1.cfg.maxStep ∧ r.accepted < 1003 ∧ 1003 ≤ r.accepted + 3 ∧ r.accepted + 3 < 1004 ∧
      959 + stand1.cfg.maxStep < r.accepted ∧ stand1.implausible < 2 ∧
      r.remaining = plant.hall.reelLength r r.accepted ∧ r.initial = plant.hall.reelLength r r.d0 ∧ r.consumed = 0 ∧
      r.strip + r.consumed + r.remaining = r.initial ∧ plant.hall.line st1.line = some line1 ∧ r.stripped = true) ∧
    (withStand fun x => { x with implausible := 2 }).hall.stand st1 = some { stand1 with implausible := 2 } ∧
    (withEdition true).hall.openOn 1 = some (0, edition1) ∧ plant.hall.openOn 1 = none := by decide +kernel

theorem test_meets_LoadAndPreparationFollowTheArm : (fr 16).ok 16 ∧
    (∃ x, (handing .waiting .empty).hall.stand st1 = some x ∧ x.handover = some (handover1 .waiting) ∧ x.mode = .normal) ∧
    (∃ x, (handing .asked .empty).hall.stand st1 = some x ∧ x.handover = some (handover1 .asked) ∧ (x.arm .b).state = .empty) ∧
    (handing .asked .empty).hall.agenda = [] ∧ (handing .asked .empty).hall.allStop = false ∧
    (handing .asked .empty).hall.reel ⟨1, idOf 1⟩ = some aboard1 ∧
    (∃ m, (handing .asked .empty).hall.mission 0 = some m ∧ m.reel = some ⟨1, idOf 1⟩) ∧
    (∃ x, (onB .loaded).hall.stand st1 = some x ∧ (x.arm .b).state = .loaded ∧ (x.arm .b).reel = some ⟨1, idOf 1⟩) ∧
    (onB .loaded).hall.reel ⟨1, idOf 1⟩ = some { reel1 with state := .onArm, loc := .arm st1 .b } ∧ reel1.stripped = true ∧
    (∃ r, ({ onB .preparing with hall := { (onB .preparing).hall with
      reels := tmod (onB .preparing).hall.reels 1 fun r => { r with stripped := false } } } : State).hall.reel ⟨1, idOf 1⟩ = some r ∧
      r.stripped = false ∧ r.state = .onArm) ∧
    (onB .preparing).hall.line 1 = some line1 ∧ (stand1.arm .b).state ≠ .loaded ∧ (stand1.arm .b).state ≠ .preparing :=
  ⟨fr_ok _, ⟨_, rfl, rfl, rfl⟩, ⟨_, rfl, rfl, rfl⟩, rfl, rfl, rfl, ⟨_, rfl, rfl⟩, ⟨_, rfl, rfl, rfl⟩, rfl, rfl, ⟨_, rfl, rfl, rfl⟩,
    rfl, by decide, by decide⟩

/-- The plant with reel 0 worn to a diameter, so that a call is due. -/
def worn : State := with' fun h => { h with reels := tmod h.reels 0 fun r => { r with accepted := 200, remaining := lengthOf 60 100 200 } }

/-- A call of stand 1.1 for reel 1 in its bay, with its DELIVER mission in slot 0. -/
def called : State :=
  with' fun h => { h with
    reels := tput h.reels 1 { reel1 with state := .allocated, call := some st1 }
    stands := tmod h.stands (standKey st1) fun x => { x with call := some ⟨.allocated, 0, 0, some ⟨1, idOf 1⟩, some 0, 0⟩ }
    missions := [(0, { return1 with kind := .deliver, cls := .deliver, drop := some (.arm st1 .b), call := some st1 })] }

theorem test_meets_CallsAreRaisedAndAllocated :
    (tsorted plant.hall.reels = true ∧ plant.hall.chooseReel 0 1200 false 0 = some (1, reel1) ∧
      (withReel1 { reel1 with isPartial := true }).hall.chooseReel 0 1200 true 0 = some (1, { reel1 with isPartial := true }) ∧
      plant.hall.chooseReel 0 900 true 0 = none ∧ plant.hall.stand st1 = some stand1 ∧ plant.hall.line st1.line = some line1 ∧
      lowestFree plant.hall.missions 48 = some 0 ∧
      lowestFree ((List.range 48).map fun i => (i, return1)) 48 = none) ∧
    (∃ r x, worn.hall.runningReel st1 = some r ∧ worn.hall.stand st1 = some x ∧ x.inService = true ∧ x.mode = .normal ∧
      x.running = some .a ∧ (x.arm .a).state = .running ∧ (x.arm (ArmName.other .a)).state = .empty ∧ x.handover = none ∧
      x.call = none ∧ r.remaining - lengthOf (worn.hall.gradeOf r).caliper r.core (max x.cfg.ds (r.core + 20)) ≤ line1.cfg.callLength) ∧
    plant.hall.callTest st1 = plant.hall ∧
    (∃ c r m, called.hall.call st1 = some c ∧ c.reel = some ⟨1, idOf 1⟩ ∧ called.hall.reel ⟨1, idOf 1⟩ = some r ∧ r.call = some st1 ∧
      r.state = .allocated ∧ c.mission = some 0 ∧ called.hall.mission 0 = some m ∧ m.kind = .deliver ∧ m.reel = some ⟨1, idOf 1⟩ ∧
      m.call = some st1 ∧ m.state = .waiting ∧ called.hall.callLost st1 c = false) ∧
    (∃ c r m, delivering.hall.call st1 = some c ∧ c.reel = some ⟨1, idOf 1⟩ ∧ delivering.hall.reel ⟨1, idOf 1⟩ = some r ∧
      r.call = some st1 ∧ c.mission = some 0 ∧ delivering.hall.mission 0 = some m ∧ m.state = .handover ∧ m.vehicle = some 1 ∧
      r.loc = .vehicle 1 ∧ r.state ≠ .allocated ∧ (tget delivering.hall.vehicles 1).isSome = true) ∧
    ((withStand fun x => { x with call := some ⟨.starved, 0, 0, none, none, 0⟩ }).hall.call st1 =
      some ⟨.starved, 0, 0, none, none, 0⟩) ∧
    ((withStand fun x => { x with call := some callAboard }).hall.callLost st1 callAboard = true ∧
      stand1.inService = true ∧ stand1.running = some .a ∧ (stand1.arm (ArmName.other .a)).state = .empty ∧
      (withStand fun x => { x with call := some callAboard }).hall.call st1 = some callAboard) := by
  refine ⟨by decide +kernel, ⟨_, _, rfl, rfl, rfl, rfl, rfl, rfl, rfl, rfl, rfl, by decide +kernel⟩, by decide +kernel,
    ⟨_, _, _, rfl, rfl, rfl, rfl, rfl, rfl, rfl, rfl, rfl, rfl, rfl, by decide +kernel⟩,
    ⟨_, _, _, rfl, rfl, rfl, rfl, rfl, rfl, rfl, rfl, rfl, by decide, rfl⟩, rfl, by decide +kernel⟩

theorem test_meets_SplicesAndConsoleRun : (fr 8).ok 8 ∧ (fr 3).ok 3 ∧
    (∃ x, (splicing .notReached .notReached).hall.stand st1 = some x ∧ x.mode = .splicing ∧
      x.lastSplice = some (record1 .notReached .notReached)) ∧
    (∃ x, (splicing .ok .notReached).hall.stand st1 = some x ∧ x.lastSplice = some (record1 .ok .notReached)) ∧
    (∃ x, (splicing .ok .ok).hall.stand st1 = some x ∧ x.lastSplice = some (record1 .ok .ok)) ∧
    (record1 .ok .ok).toArm = (record1 .ok .ok).fromArm.other ∧ (record1 .ok .ok).outcome = none ∧
    plant.hall.stand st1 = some stand1 ∧ stand1.mode ≠ .splicing ∧ plant.hall.notices.length ≤ 48 ∧
    plant.hall.count 1 = some count1 ∧ count1.intervals = [] ∧
    (withCount fun c => { c with intervals := [open90 .operator] }).hall.count 1 = some { count1 with intervals := [open90 .operator] } ∧
    (withCount fun c => { c with intervals := [open90 .start] }).hall.count 1 = some { count1 with intervals := [open90 .start] } ∧
    (∀ l, plant.hall.line 1 = some l → l.run ≠ .broken) ∧
    (withStand fun x => { x with mode := .locked }).hall.stand st1 = some { stand1 with mode := .locked } ∧
    stand1.inService = true ∧ stand1.mode ≠ .locked ∧ stand1.mode ≠ .starved :=
  ⟨fr_ok _, fr_ok _, ⟨_, rfl, rfl, rfl⟩, ⟨_, rfl, rfl⟩, ⟨_, rfl, rfl⟩, rfl, rfl, rfl, by decide, by decide, rfl, rfl, rfl, rfl,
    forSome (by decide), rfl, rfl, by decide, by decide⟩

/-- A list of eight intervals of two copies each, from copy 101 on. -/
def eight : List Interval := (List.range 8).map fun i => ⟨101 + 4 * i, some (103 + 4 * i), .operator, true, none, false⟩

theorem test_meets_IntervalsAreOfferedAndSent :
    (eight.Pairwise (fun x y => ∃ e, x.stop = some e ∧ e ≤ y.first) ∧ (∀ x ∈ eight, ∀ e, x.stop = some e → x.first < e)) ∧
    (eight.length = 8 ∧ uncovered 103 (some 105) eight = [(103, some 105)] ∧
      (∀ x ∈ eight, x.cause ≠ .splice) ∧ (eight.filter fun x => decide (x.first < 103)).getLast?.isSome = true ∧
      uncovered 90 (some 95) eight = [(90, some 95)] ∧ (∀ x ∈ eight, 90 ≤ x.first) ∧
      (eight.take 6).length + (uncovered 102 (some 107) (eight.take 6)).length ≤ 8) ∧
    (plant.hall.count 1 = some count1 ∧ count1.gate = some 100 ∧
      (withCount fun c => { c with gate := none }).hall.count 1 = some { count1 with gate := none } ∧
      (offerInterval 60 [open90 .brk] 95 none .operator).ivs = [open90 .brk] ∧ (offerInterval 60 [] 95 none .operator).ivs ≠ []) ∧
    ((fr 8).link = 1 ∧ plant.hall.line 1 = some line1 ∧
      ∃ iv, (withCount fun c => { c with intervals := [{ open90 .start with sent := false }] }).hall.count 1 =
        some { count1 with intervals := [iv] } ∧ iv.sent = false ∧ ∀ e, iv.stop = some e → 1000 < e) ∧
    (∃ c, (withCount fun c => { c with resend := true, gate := none, intervals := [open90 .start] }).hall.count 1 = some c ∧
      c.resend = true ∧ open90 .start ∈ c.intervals) ∧ count1.cfg.jumpLimit < ((5000 : GateCount) - 100).toNat := by
  refine ⟨⟨?_, by decide +kernel⟩, by decide +kernel, ⟨rfl, rfl, rfl, by decide +kernel, by decide +kernel⟩, ⟨rfl, rfl, _, rfl, rfl, forNone⟩, ⟨_, rfl, rfl, List.mem_cons_self⟩, by decide⟩
  refine List.Pairwise.imp (R := fun x y => x.stop.any fun e => decide (e ≤ y.first)) ?_ (by decide +kernel)
  intro x y h
  cases hs : x.stop with
  | none => simp [hs] at h
  | some e => exact ⟨e, rfl, by simpa [hs] using h⟩

/-! ### Forms that take an odd state -/

/-- What a command makes of the plant, seen through `p`. -/
def seen {α : Type} (c : Instr) (s : State) (p : State → α) : Option α :=
  match exec c s with
  | .next t => some (p t)
  | _ => none

/-- Vehicle 1 carries reel 1, in a state, and has no mission. -/
def carrying (r : Reel) : State :=
  with' fun h => { h with
    reels := tput h.reels 1 { r with loc := .vehicle 1 }
    vehicles := tmod h.vehicles 1 fun x => { x with activity := .carrying, load := some ⟨1, idOf 1⟩ } }

/-- Vehicle 1 is under way with a mission in slot 0. -/
def underWay (m : Mission) : State := withMission { m with vehicle := some 1, state := .carrying } plant

theorem test_meets_StandStatusEstablishesArms_vacant :
    let h := (withStand fun x => { x with armB := armWith .expired none }).hall
    ∃ s, h.stand st1 = some s ∧ (s.arm .b).reel = none ∧ (s.arm .b).state ≠ .loading ∧ (s.arm .b).state ≠ .empty ∧
      (s.arm .b).state = .expired ∧ ((h.takeOccupancy st1 .b none none).stand st1).map (·.armB.state) = some .empty :=
  ⟨_, rfl, rfl, by decide, by decide, rfl, by decide +kernel⟩

theorem test_meets_HostMissionsEnterAndLeave_aboard :
    (let s := carrying { reel1 with state := .inTransit }
     s.hall.reelById (idOf 1) = some (1, { reel1 with state := .inTransit, loc := .vehicle 1 }) ∧ s.hall.named ⟨1, idOf 1⟩ = false ∧
      (∃ x, tget s.hall.vehicles 1 = some x ∧ x.mission = none ∧ x.abort = none ∧ x.supervision = .reporting ∧
        x.load = some ⟨1, idOf 1⟩) ∧ lowestFree s.hall.missions 48 = some 0) ∧
    (∃ m, (underWay { return1 with kind := .park, reel := none, pickup := none, drop := some (.park 1) }).hall.mission 0 = some m ∧
      m.vehicle = some 1 ∧ m.kind = .park ∧ m.reel = none ∧ (plant.hall.vehicle 1).atTransfer = false) ∧
    (∃ m, (underWay return1).hall.mission 0 = some m ∧ m.kind = .ret ∧ m.state = .carrying ∧ m.reel = some ⟨1, idOf 1⟩ ∧
      (underWay return1).hall.reel ⟨1, idOf 1⟩ = some reel1 ∧ reel1.loc ≠ .vehicle 1 ∧
      (carrying reel1).hall.reel ⟨1, idOf 1⟩ = some { reel1 with loc := .vehicle 1 }) :=
  ⟨⟨by decide, by decide, ⟨_, rfl, rfl, rfl, rfl, rfl⟩, rfl⟩, ⟨_, rfl, rfl, rfl, rfl, by decide⟩,
    ⟨_, rfl, rfl, rfl, rfl, rfl, by decide, rfl⟩⟩

theorem test_meets_AllStopKeepsAndResumes_resume :
    let x : Vehicle := { vehicle1 with
      activity := .stopped, beforeStop := some .toPickup, kept := some ⟨some 3, .move [7, 1, 4] 1⟩, ahead := [1] }
    let h := (withVehicle fun _ => x).hall
    tget h.vehicles 1 = some x ∧ x.activity = .stopped ∧ x.ahead.getLast?.or x.front = some 1 ∧ x.withdraw = false ∧
      ((h.resumeVehicle 1).vehicle 1).directive = ⟨1, .move [7, 1, 4] 2⟩ ∧
      ((h.resumeVehicle 1).vehicle 1).activity = .toPickup := by decide +kernel

theorem test_meets_BaysAislesAndZonesAreSet_walk : .bayWalk ∉ plant.hall.agenda ∧
    plant.hall.bay ⟨1, 2⟩ = some ⟨.normal, false, none, none⟩ ∧
    .bayWalk ∉ (plant.hall.configureBay ⟨1, 2⟩ ⟨.normal, false, none, none⟩).agenda ∧
    .bayWalk ∈ (plant.hall.configureBay ⟨1, 2⟩ ⟨.quarantine, false, none, none⟩).agenda ∧
    .bayWalk ∈ (plant.hall.configureBay ⟨1, 5⟩ ⟨.normal, false, none, none⟩).agenda := by decide +kernel

theorem test_meets_ConfigurationWaitsForSave_checks :
    let idle : State := { saving with store := { saving.store with save := none } }
    (seen (.saveConfiguration (q 0x36)) idle fun t => t.host.replies.getLast?.map (·.status)) = some (some .ok) ∧
    (seen (.setBay (q 9) ⟨0, 5⟩ none true) idle fun t => t.host.replies.getLast?.map (·.status)) = some (some .range) ∧
    (seen (.saveConfiguration (q 0x36)) saving fun t => t.host.replies.getLast?.map (·.status)) = some (some .busy) ∧
    (seen (.setBay (q 9) ⟨0, 5⟩ none true) saving fun t => t.host.replies.getLast?.map (·.status)) = some (some .range) := by
  decide +kernel

theorem test_meets_HostUnloadsAndDeclaresArms_adopt :
    let h := (withStand fun x => { x with mode := .unknown }).hall
    ∃ x, h.stand st1 = some x ∧ x.handover = none ∧ x.mode = .unknown ∧ (x.arm .b).reel = none ∧ (x.arm .b).state = .empty ∧
      h.reelById (idOf 1) = some (1, reel1) ∧ h.reelById (idOf 2) = none ∧ (x.arm (ArmName.b).other).state = .running ∧
      (h.adopt st1 .b ⟨1, idOf 1⟩ (some .standby)).2 = true ∧ (h.adopt st1 .b ⟨0, idOf 0⟩ (some .standby)).2 = false :=
  ⟨_, rfl, rfl, rfl, rfl, rfl, by decide, by decide, rfl, by decide, by decide⟩

theorem test_meets_LinesAreHeldAndConstrained_vacant :
    let h : Hall := { delivering.hall with stands := tmod delivering.hall.stands (standKey st1) fun x => { x with running := none } }
    ∃ s c m, h.stand st1 = some s ∧ s.running = none ∧ s.handover = none ∧ s.call = some c ∧ c.mission = some 0 ∧
      h.mission 0 = some m ∧ h.line st1.line = some line1 ∧ h.runningReel st1 = none ∧
      (h.needed st1 s line1 65535).isSome = true := by
  exact ⟨_, _, _, rfl, rfl, rfl, rfl, rfl, rfl, rfl, by decide +kernel, by decide +kernel⟩

theorem test_meets_ArmEventsMoveReels_odd :
    (let s := { handing .granted .loading with hall := { (handing .granted .loading).hall with
        reels := tput (handing .granted .loading).hall.reels 1 reel1 } }
     ∃ x, s.hall.stand st1 = some x ∧ x.handover = some (handover1 .granted) ∧ (x.arm .b).state = .loading ∧
      s.hall.reel ⟨1, idOf 1⟩ = some reel1 ∧ reel1.state ≠ .inTransit ∧ reel1.state ≠ .quarantined) ∧
    (let r : Reel := { reel1 with state := .quarantined, reason := some .vehicleLost }
     ∃ x w, (carrying r).hall.stand st1 = some x ∧ x.running = some (ArmName.b).other ∧ (x.arm .b).state = .empty ∧
      (carrying r).hall.reelById (idOf 1) = some (1, { r with loc := .vehicle 1 }) ∧
      tget (carrying r).hall.vehicles 1 = some w ∧ w.load = some ⟨1, idOf 1⟩) ∧
    (handing .granted .loading).hall.handoverOf 0 = some (st1, handover1 .granted) ∧
    ((handing .granted .loading).hall.mission 0).isSome = true ∧ tsorted (handing .granted .loading).hall.missions = true ∧
    (handing .granted .loading).hall.call st1 = some callAboard ∧ butt.hall.reel ⟨1, idOf 1⟩ =
      some { reel1 with state := .onArm, loc := .arm st1 .b } := by
  exact ⟨⟨_, rfl, rfl, rfl, rfl, by decide, by decide⟩, ⟨_, _, rfl, rfl, rfl, by decide, rfl, rfl⟩, by decide, rfl, by decide, rfl, rfl⟩

theorem test_meets_SplicesAndConsoleRun_broken :
    (let h := (withLine fun l => { l with run := .broken }).hall
     h.broken 1 = true ∧ ∃ c, ({ h with counts := tmod h.counts 1 fun c => { c with intervals := [open90 .operator] } } : Hall).count 1 =
      some c ∧ c.intervals = [open90 .operator] ∧ (open90 .operator).first ≤ c.counted) ∧
    (withCount fun c => { c with intervals := [{ open90 .operator with first := 105 }] }).hall.count 1 =
      some { count1 with intervals := [{ open90 .operator with first := 105 }] } ∧
    seen (.consoleDivertOff (fr 3) 1) (withCount fun c => { c with intervals := [{ open90 .operator with first := 105 }] })
      (fun t => (t.hall.count 1).map (·.intervals)) = some (some []) :=
  ⟨⟨by decide, _, rfl, rfl, by decide⟩, rfl, by decide +kernel⟩

theorem test_meets_IntervalsAreOfferedAndSent_end :
    let h := (withCount fun c => { c with intervals := [open90 .start] }).hall
    h.count 1 = some { count1 with intervals := [open90 .start] } ∧ (open90 .start).first ≤ 90 ∧ (open90 .start).key = some 90 ∧
      (∃ seq, Sent.line 1 seq (.gateEnd 90 90) ∈ (h.closeOpen 1 90 .start).sent) ∧
      ((h.closeOpen 1 90 .start).count 1).map (·.intervals) = some [] :=
  ⟨rfl, by decide, rfl, ⟨0, by decide +kernel⟩, by decide +kernel⟩

theorem test_meets_EveryStepKeepsSound_books :
    (({ count1 with intervals := [⟨62, some 64, .splice, true, none, false⟩, open90 .start] } : LineCount).finalizeTo 95).Sound :=
  ⟨by decide, by decide, by decide, by decide, ⟨by decide, by simp [LineCount.finalizeTo, retire, open90]⟩, by decide⟩

/-! ### Small steps -/

theorem test_save_writes_bank_b : seen (.saveConfiguration (q 0x36)) stored (·.store) =
    some ⟨some bank5, none, some ⟨6, plant.hall.image, .b⟩⟩ ∧
    seen (.saveComplete true) saving (·.store) = some ⟨some bank5, some ⟨6, plant.hall.image⟩, none⟩ := by decide

theorem test_cold_reset_loads_image : seen (.coldReset .supplyLow true) saving (fun t => (t.hall.image, t.hall.reels, t.store.save)) =
    some (bank5.image, [], none) := by decide +kernel

theorem test_warm_restart_unseats : seen (.warmRestart .resetPin) plant
    (fun t => ((t.hall.vehicle 1).seated, t.hall.clock, (t.hall.count 1).map (·.counted))) = some (false, 0, some 100) := by decide +kernel

theorem test_stop_fleet_keeps_directive : seen (.stopFleet (q 0x17)) plant (fun t => ((t.hall.vehicle 1).activity,
    (t.hall.vehicle 1).kept)) = some (.stopped, some ⟨some 0, .hold⟩) := by decide +kernel

theorem test_open_edition : seen (.openEdition (q 0x29) 3 1 1000) plant
    (fun t => ((tget t.hall.editions 0).map (·.reelsUsed), (t.hall.count 1).map (·.edition))) =
    some (some [idOf 0], some (some 3)) := by decide

theorem test_manual_return_moves_vehicle : seen (.manualMission (q 0x14) .ret (idOf 1) (some ⟨1, 2⟩) 1 none) plant
    (fun t => ((t.hall.vehicle 1).mission, (t.hall.vehicle 1).activity, (t.hall.vehicle 1).directive.kind)) =
    some (some 0, .toPickup, .move [7, 1, 4] 1) := by decide +kernel

theorem test_silent_vehicle : seen (.supervisionTimerExpiry 1) (with' fun h => { h with timebase := 50 })
    (fun t => ((t.hall.vehicle 1).supervision, (t.hall.fault ⟨.vehicleSilent, .vehicle 1⟩).active)) = some (.silent, true) := by decide

theorem test_host_link_sends_reply_first : seen .hostLinkTransmit (plant.reply (q 8) 8 .ok .none) (·.hall.sent) =
    some [.reply ⟨7, 0x88, .ok, .none⟩] ∧
    seen .hostLinkTransmit plant (·.hall.notices.length) = some 1 := by decide

theorem test_hunting_takes_what_it_meets : seen (.frameDiscard .host hunting) plant (fun t => (t.host.replies.map (·.kind),
    (tget t.hall.links 0).map fun r => (r.errors, r.rx))) = some ([0x88], some (1, [0xC3])) := by decide +kernel

theorem test_dropped_reservation_starts_the_walk : Job.bayWalk ∈
    ((withBays [(⟨1, 2⟩, ⟨.normal, true, none, some 0⟩)] plant.hall).dropReservation 0).agenda := by decide

theorem test_slot_goes_to_those_who_wait : (Hall.endMission 0 .done { (withMission return1 plant).hall with
    agenda := [.arbiter, .reRaise st1] }).agenda.take 3 = [.arbiter, .missionLeft, .reRaise st1] := by decide

theorem test_second_return_keeps_its_arm : ((onB .unloading).hall.restoreArm st1 .b (some ⟨0, idOf 0⟩)).armState st1 .b = .unloading ∧
    ((onB .unloading).hall.restoreArm st1 .b (some ⟨1, idOf 1⟩)).armState st1 .b = .loaded := by decide

theorem test_keys_of_places : [bayKey ⟨1, 65⟩, bayKey ⟨0, 65⟩, bayKey ⟨2, 1⟩, bayKey ⟨1, 1⟩].Nodup ∧
    seen (.declareReelLocation (q 0x04) (idOf 1) (.bay ⟨0, 65⟩)) plant (·.host.replies.map (·.status)) = some [.range] := by decide +kernel

theorem test_discarded_frame_counts : seen (.frameDiscard .host [0xC3, 0xC3, 1]) plant
    (fun t => (tget t.hall.links 0).map fun r => (r.errors, r.rx)) = some (some (1, [0xC3, 1])) ∧
    seen (.frameDiscard .host (envelope 5 0 [])) plant (fun t => (tget t.hall.links 0).map (·.errors)) = some (some 1) := by
  decide +kernel

end Sys2Proof.Tests
end

section
/-! PROOF. Every step from a sound state goes on to a sound state: the remaining answers of the blocks, the commands that frames
spell, the hunting in received bytes, and the commands of timers and resets. -/

-- One theorem after another, as in the laws: elaborated all at once they ask for more threads than the check has room for.
set_option Elab.async false

namespace Sys2Proof.Machine

open Hall

/-! ### Answers that change nothing soundness speaks of -/

/-- An answer that leaves the hall as it was is good. -/
theorem Answer.good_of_same {x : Answer} {h : Hall} (s : h.Sound) (c : h.ceilings = []) (e : x.hall = h) : x.Good := by
  subst e; exact ⟨s, c⟩

section
variable (h : Hall)

theorem Hall.tellReel_hall (sel : ReelSel) : (h.tellReel sel).hall = h := by
  unfold Hall.tellReel; cases sel <;> dsimp only <;> split <;> rfl

theorem Hall.tellBay_hall (b : BayAddr) : (h.tellBay b).hall = h := by unfold Hall.tellBay; split <;> rfl

theorem Hall.tellZone_hall (n : Nat) : (h.tellZone n).hall = h := by unfold Hall.tellZone; split <;> rfl

theorem Hall.tellRoute_hall (a b : Nat) : (h.tellRoute a b).hall = h := by unfold Hall.tellRoute; split <;> rfl

theorem Hall.tellVehicle_hall (v : Nat) : (h.tellVehicle v).hall = h := by unfold Hall.tellVehicle; split <;> rfl

theorem Hall.tellStand_hall (st : StandAddr) : (h.tellStand st).hall = h := by unfold Hall.tellStand; split <;> rfl

theorem Hall.tellFeed_hall (n : Nat) : (h.tellFeed n).hall = h := by unfold Hall.tellFeed; split <;> rfl

theorem Hall.tellCounts_hall (n : Nat) : (h.tellCounts n).hall = h := by unfold Hall.tellCounts; split <;> rfl

theorem Hall.tellUnassigned_hall (n : Nat) : (h.tellUnassigned n).hall = h := by unfold Hall.tellUnassigned; split <;> rfl

theorem Hall.tellFault_hall (n : Nat) (x : Subject) : (h.tellFault n x).hall = h := by unfold Hall.tellFault; split <;> rfl

end

/-- Query Status empties the count of dropped notices and nothing else (R213). -/
theorem good_status {h : Hall} (s : h.Sound) (c : h.ceilings = []) (x : Store) : (h.takeStatusQuery x).Good :=
  ⟨⟨s.faults, s.notices, s.counts, s.lines, s.ceilings⟩, c⟩

/-! ### Frames of the partner links and expiries -/

theorem State.reply_sound {s : State} (h : s.Sound) (q : Req) (k : Nat) (x : Status) (c : Content) : (s.reply q k x c).Sound :=
  ⟨h.hall, h.settled, h.store⟩

theorem State.askRestart_sound {s : State} (h : s.Sound) (q : Req) (m : RestartMode) : (s.askRestart q m).Sound := by
  have hs := State.request_sound h q 0x38 (f := fun h => h.tell .none) ⟨h.hall, h.settled⟩
  unfold State.askRestart; dsimp only; split
  · exact ⟨hs.hall, hs.settled, hs.store⟩
  · exact hs

theorem State.transmit_sound {s : State} (h : s.Sound) : s.transmit.Sound := by
  obtain ⟨hh, hc, hx⟩ := h
  unfold State.transmit; split
  · exact ⟨⟨hh.faults, hh.notices, hh.counts, hh.lines, hh.ceilings⟩, hc, hx⟩
  · split
    · rename_i n rest e
      refine ⟨⟨hh.faults, ?_, hh.counts, hh.lines, hh.ceilings⟩, hc, hx⟩
      have room := hh.notices
      rw [e] at room
      exact (Nat.le_succ _).trans room
    · exact ⟨hh, hc, hx⟩

theorem Hall.Keeps.waitOver (h : Hall) (x : Handover) : h.Keeps (h.waitOver x) := by
  have aborted := (Handles.refl (c := false) (k := false) h).abort x.vehicle .transferTimeout
  unfold Hall.waitOver; dsimp only; split
  · exact ((aborted.turnToReturn _ _).holdAborted _).sound
  · exact (((aborted.endMission _ _).setActivity _ _).direct _ _).sound

/-- One tick of the timebase touches nothing soundness speaks of (log 2). -/
theorem State.tick_sound {s : State} (h : s.Sound) : s.tick.Sound :=
  ⟨⟨h.hall.faults, h.hall.notices, h.hall.counts, h.hall.lines, h.hall.ceilings⟩, h.settled, h.store⟩

/-! ### What a received frame spells -/

/-- Whatever sound state it is taken in, a command goes on to a sound state. -/
def KeepsSound (run : State → Host.Outcome State Fault Refusal) : Prop := ∀ s : State, s.Sound → ∃ t, run s = .next t ∧ t.Sound

/-- The event a command makes when its condition holds, and nothing else (log 3). -/
theorem State.event_sound {s t : State} {p : Prop} [Decidable p] (h : s.Sound) (ht : t.Sound) : (if p then t else s).Sound := by
  split
  · exact ht
  · exact h

theorem takeFrame_keepsSound (c : Instr) : KeepsSound (takeFrame c) := by
  intro s h
  have hs := h.hall
  have hc := h.settled
  cases c with
  | registerReel => exact ⟨_, rfl, State.request_sound h _ _ (good_register hs hc ..)⟩
  | setGrade => exact ⟨_, rfl, State.request_sound h _ _ (good_grade hs hc ..)⟩
  | releaseQuarantine => exact ⟨_, rfl, State.request_sound h _ _ (good_release hs hc ..)⟩
  | declareReelLocation => exact ⟨_, rfl, State.request_sound h _ _ (good_declare hs hc ..)⟩
  | withdrawReel => exact ⟨_, rfl, State.request_sound h _ _ (good_withdraw hs hc ..)⟩
  | purgeSpent => exact ⟨_, rfl, State.request_sound h _ _ (good_purge hs)⟩
  | queryReel => exact ⟨_, rfl, State.request_sound h _ _ (Answer.good_of_same hs hc (tellReel_hall ..))⟩
  | queryStock => exact ⟨_, rfl, State.request_sound h _ _ (tell_good hs hc _)⟩
  | setBay => exact ⟨_, rfl, State.request_sound h _ _ (good_bay hs hc ..)⟩
  | setAisle => exact ⟨_, rfl, State.request_sound h _ _ (good_aisle hs hc ..)⟩
  | queryBay => exact ⟨_, rfl, State.request_sound h _ _ (Answer.good_of_same hs hc (tellBay_hall ..))⟩
  | queryAisles => exact ⟨_, rfl, State.request_sound h _ _ (tell_good hs hc _)⟩
  | setZone => exact ⟨_, rfl, State.request_sound h _ _ (good_zone hs hc ..)⟩
  | queryZone => exact ⟨_, rfl, State.request_sound h _ _ (Answer.good_of_same hs hc (tellZone_hall ..))⟩
  | queryTraffic => exact ⟨_, rfl, State.request_sound h _ _ (tell_good hs hc _)⟩
  | queryRoute => exact ⟨_, rfl, State.request_sound h _ _ (Answer.good_of_same hs hc (tellRoute_hall ..))⟩
  | commissionVehicle => exact ⟨_, rfl, State.request_sound h _ _ (good_commission hs hc ..)⟩
  | decommissionVehicle => exact ⟨_, rfl, State.request_sound h _ _ (good_decommission hs hc ..)⟩
  | clearLostVehicle => exact ⟨_, rfl, State.request_sound h _ _ (good_clearLost hs hc ..)⟩
  | manualMission => exact ⟨_, rfl, State.request_sound h _ _ (good_manual hs hc ..)⟩
  | cancelMission => exact ⟨_, rfl, State.request_sound h _ _ (good_cancel hs hc ..)⟩
  | acknowledgeVehicleAbort => exact ⟨_, rfl, State.request_sound h _ _ (good_ackAbort hs hc ..)⟩
  | stopFleet => exact ⟨_, rfl, State.request_sound h _ _ (accept_good hs ((Keeps.refl s.hall).on (Handles.refl _).haltFleet) _)⟩
  | resumeFleet => exact ⟨_, rfl, State.request_sound h _ _ (good_resume hs hc)⟩
  | setFleetParameters => exact ⟨_, rfl, State.request_sound h _ _ (good_params hs hc ..)⟩
  | queryVehicle => exact ⟨_, rfl, State.request_sound h _ _ (Answer.good_of_same hs hc (tellVehicle_hall ..))⟩
  | queryMissions => exact ⟨_, rfl, State.request_sound h _ _ (tell_good hs hc _)⟩
  | setLineFeed => exact ⟨_, rfl, State.request_sound h _ _ (good_feed hs hc ..)⟩
  | setStand => exact ⟨_, rfl, State.request_sound h _ _ (good_stand hs hc ..)⟩
  | standOutOfService => exact ⟨_, rfl, State.request_sound h _ _ (good_out hs hc ..)⟩
  | standInService => exact ⟨_, rfl, State.request_sound h _ _ (good_in hs hc ..)⟩
  | returnReel => exact ⟨_, rfl, State.request_sound h _ _ (good_return hs hc ..)⟩
  | declareArm => exact ⟨_, rfl, State.request_sound h _ _ (good_declareArm hs hc ..)⟩
  | queryStand => exact ⟨_, rfl, State.request_sound h _ _ (Answer.good_of_same hs hc (tellStand_hall ..))⟩
  | queryLineFeed => exact ⟨_, rfl, State.request_sound h _ _ (Answer.good_of_same hs hc (tellFeed_hall ..))⟩
  | setCeiling => exact ⟨_, rfl, State.request_sound h _ _ (good_ceiling hs hc ..)⟩
  | acknowledgeCeilingFlags => exact ⟨_, rfl, State.request_sound h _ _ (good_ackCeiling hs hc ..)⟩
  | setLineCounting => exact ⟨_, rfl, State.request_sound h _ _ (good_counting hs hc ..)⟩
  | clearLineCounters => exact ⟨_, rfl, State.request_sound h _ _ (good_clear hs hc ..)⟩
  | queryLineCounts => exact ⟨_, rfl, State.request_sound h _ _ (Answer.good_of_same hs hc (tellCounts_hall ..))⟩
  | openEdition => exact ⟨_, rfl, State.request_sound h _ _ (good_open hs hc ..)⟩
  | closeEdition => exact ⟨_, rfl, State.request_sound h _ _ (good_close hs hc ..)⟩
  | queryEdition => exact ⟨_, rfl, State.request_sound h _ _ (good_queryEdition hs hc ..)⟩
  | queryEditions => exact ⟨_, rfl, State.request_sound h _ _ (tell_good hs hc _)⟩
  | queryUnassigned => exact ⟨_, rfl, State.request_sound h _ _ (Answer.good_of_same hs hc (tellUnassigned_hall ..))⟩
  | clearUnassigned => exact ⟨_, rfl, State.request_sound h _ _ (good_clearUn hs hc ..)⟩
  | acknowledgeFault => exact ⟨_, rfl, State.request_sound h _ _ (good_ack hs hc ..)⟩
  | acknowledgeAllFaults => exact ⟨_, rfl, State.request_sound h _ _ (good_ackAll hs)⟩
  | queryFaults => exact ⟨_, rfl, State.request_sound h _ _ (tell_good hs hc _)⟩
  | queryFault => exact ⟨_, rfl, State.request_sound h _ _ (Answer.good_of_same hs hc (tellFault_hall ..))⟩
  | queryStatus => exact ⟨_, rfl, State.request_sound h _ _ (good_status hs hc _)⟩
  | setClock => exact ⟨_, rfl, State.request_sound h _ _ (good_clock hs _)⟩
  | setMassTolerance => exact ⟨_, rfl, State.request_sound h _ _ (good_tol hs hc ..)⟩
  | saveConfiguration => exact ⟨_, rfl, saved_sound h _⟩
  | reloadConfiguration => exact ⟨_, rfl, State.request_sound h _ _ (good_reload hs hc h.store)⟩
  | restart => exact ⟨_, rfl, State.askRestart_sound h _ _⟩
  | unknownRequest => exact ⟨_, rfl, State.event_sound h (State.reply_sound h ..)⟩
  | vehicleReport f r =>
    refine ⟨_, rfl, State.finish_sound h ?_⟩
    split
    · exact ((Keeps.refl _).fleetHeard).takeReport r
    · exact ((Keeps.refl _).fleetHeard).linkError _
  | lineStatus => exact ⟨_, rfl, State.lineFrame_sound h _ _ _ _ fun g => (Keeps.refl g).takeLineStatus _ _ _ _⟩
  | diameter => exact ⟨_, rfl, State.lineFrame_sound h _ _ _ _ fun g => (Keeps.refl g).on ((Handles.refl g).takeDiameter ..)⟩
  | ready => exact ⟨_, rfl, State.armEvent_sound h _ _ _ fun _ g => ((Follows.refl g).requestLoad _).handles⟩
  | loadOk =>
    refine ⟨_, rfl, State.armEvent_sound h _ _ _ fun y g => ?_⟩
    split
    · split
      · exact (Handles.refl g).loadOk ..
      · exact (Handles.refl g).mismatch _
    · exact (Handles.refl g).mismatch _
  | loadWait =>
    refine ⟨_, rfl, State.armEvent_sound h _ _ _ fun y g => ?_⟩
    split
    · exact (Handles.refl g).modHandover ..
    · exact (Handles.refl g).mismatch _
  | loadRefuse =>
    refine ⟨_, rfl, State.armEvent_sound h _ _ _ fun y g => ?_⟩
    split
    · exact (Handles.refl g).loadRefuse ..
    · exact (Handles.refl g).mismatch _
  | armLoaded => exact ⟨_, rfl, State.armEvent_sound h _ _ _ fun _ g => (Handles.refl g).takeLoaded ..⟩
  | prepStart =>
    refine ⟨_, rfl, State.armEvent_sound h _ _ _ fun y g => ?_⟩
    split
    · exact (Handles.refl g).changeArm ..
    · exact (Handles.refl g).mismatch _
  | prepared =>
    refine ⟨_, rfl, State.armEvent_sound h _ _ _ fun y g => ?_⟩
    split
    · exact (Handles.refl g).becomePrepared ..
    · exact (Handles.refl g).mismatch _
  | unloaded =>
    refine ⟨_, rfl, State.armEvent_sound h _ _ _ fun y g => ?_⟩
    split
    · exact (Handles.refl g).unloaded ..
    · split
      · exact (Handles.refl g).unloadedAlone ..
      · exact (Handles.refl g).mismatch _
  | ejected =>
    refine ⟨_, rfl, State.armEvent_sound h _ _ _ fun y g => ?_⟩
    split
    · exact (Handles.refl g).eject ..
    · exact (Handles.refl g).mismatch _
  | accelOk => exact ⟨_, rfl, State.splicePhase_sound h _ _ _ _ _ fun _ g => (Handles.refl g).modStand _ _⟩
  | accelFail => exact ⟨_, rfl, State.splicePhase_sound h _ _ _ _ _ fun _ g => (Handles.refl g).spliceAborted ..⟩
  | pasteOk => exact ⟨_, rfl, State.splicePhase_sound h _ _ _ _ _ fun _ g => (Handles.refl g).modStand _ _⟩
  | pasteFail => exact ⟨_, rfl, State.splicePhase_sound h _ _ _ _ _ fun _ g => (Handles.refl g).spliceFailed ..⟩
  | cutOk => exact ⟨_, rfl, State.splicePhase_sound h _ _ _ _ _ fun _ g => (Handles.refl g).spliceDone ..⟩
  | cutFail => exact ⟨_, rfl, State.splicePhase_sound h _ _ _ _ _ fun _ g => (Handles.refl g).cutFailed ..⟩
  | webBreak => exact ⟨_, rfl, State.lineFrame_sound h _ _ _ _ fun g => (Keeps.refl g).takeBreak _⟩
  | consoleGood => exact ⟨_, rfl, State.lineFrame_sound h _ _ _ _ fun g => (Keeps.refl g).on ((Handles.refl g).endOpenHere ..)⟩
  | consoleDivertOn => exact ⟨_, rfl, State.lineFrame_sound h _ _ _ _ fun g => (Keeps.refl g).on ((Handles.refl g).divertOn _)⟩
  | consoleDivertOff => exact ⟨_, rfl, State.lineFrame_sound h _ _ _ _ fun g => (Keeps.refl g).on ((Handles.refl g).endOpenHere ..)⟩
  | consoleSpliceRetry => exact ⟨_, rfl, State.lineFrame_sound h _ _ _ _ fun g => (Keeps.refl g).on ((Handles.refl g).retrySplice _)⟩
  | standStatus => exact ⟨_, rfl, State.lineFrame_sound h _ _ _ _ fun g => (Keeps.refl g).on ((Handles.refl g).takeStatus ..)⟩
  | _ => exact ⟨_, rfl, h⟩

/-! ### Hunting (R208) -/

theorem State.linkError_sound {s : State} (h : s.Sound) (l : Link) : ({ s with hall := s.hall.linkError l } : State).Sound :=
  ⟨((Keeps.refl s.hall).linkError l) _ h.hall, h.settled, h.store⟩

theorem State.takeFound_sound (l : Link) {s : State} (h : s.Sound) (x : Option Instr) : (State.takeFound l s x).Sound := by
  cases x with
  | none => exact State.linkError_sound h l
  | some c =>
    obtain ⟨t, e, ht⟩ := takeFrame_keepsSound c s h
    simpa only [State.takeFound, e] using ht

theorem State.discard_sound {s : State} (h : s.Sound) (l : Link) (bs : List Byte) : (s.discard l bs).Sound := by
  have all : ∀ (found : List (Option Instr)) (s : State), s.Sound → (found.foldl (State.takeFound l) s).Sound := by
    intro found
    induction found with
    | nil => exact fun _ h => h
    | cons x found ih => exact fun s h => ih _ (State.takeFound_sound l h x)
  have counted := State.linkError_sound h l
  exact all _ _ ⟨((Keeps.refl _).next : Keeps (s.hall.linkError l) _) _ counted.hall, counted.settled, counted.store⟩

theorem State.warmRestart_sound {s : State} (h : s.Sound) (cause : ResetCause) : (s.warmRestart cause).Sound := by
  have hs := warm_sound h.hall h.settled cause
  have hc := warm_ceilings s.hall cause
  unfold State.warmRestart
  generalize s.hall.warm cause = g at hs hc ⊢
  exact ⟨hs, hc, abandon_sound h.store⟩

/-! ### Every command -/

theorem exec_keepsSound (c : Instr) : KeepsSound (exec c) := by
  intro s h
  have framed := takeFrame_keepsSound c s h
  cases c with
  | frameDiscard => exact ⟨_, rfl, State.event_sound h (State.discard_sound h ..)⟩
  | interByteTimeout => exact ⟨_, rfl, State.event_sound h (State.discard_sound h ..)⟩
  | hostLinkTransmit => exact ⟨_, rfl, State.transmit_sound h⟩
  | supervisionTimerExpiry =>
    exact ⟨_, rfl, State.event_sound h (State.finish_sound h ((Keeps.refl _).supervisionExpiry _))⟩
  | lineLinkDown => exact ⟨_, rfl, State.event_sound h (State.finish_sound h ((Keeps.refl _).lineSilent _))⟩
  | fleetLinkDown => exact ⟨_, rfl, State.event_sound h (State.finish_sound h ((Keeps.refl s.hall).next.raise _))⟩
  | handoverWaitLimit st =>
    refine ⟨_, rfl, ?_⟩
    split
    · exact State.event_sound h (State.finish_sound h (Keeps.waitOver _ _))
    · exact h
  | retryWaitExpiry =>
    exact ⟨_, rfl, State.event_sound h (State.finish_sound h (((Keeps.refl _).modStand _ _).after ((Follows.refl _).spliceTest _)))⟩
  | hallClockAdvance => exact ⟨_, rfl, State.event_sound h (State.finish_sound h (Keeps.refl _).advance)⟩
  | conditioningEnd => exact ⟨_, rfl, State.event_sound h (State.finish_sound h ((Keeps.refl _).on ((Handles.refl _).conditionReel _)))⟩
  | chargerHoldExpiry => exact ⟨_, rfl, State.event_sound h (State.finish_sound h ((Follows.refl _).endHold _).sound)⟩
  | saveComplete =>
    refine ⟨_, rfl, ?_⟩
    split
    · rename_i x hx; exact saveDone_sound h hx _
    · exact h
  | coldReset => exact ⟨_, rfl, State.event_sound h (cold_sound h _ _)⟩
  | warmRestart => exact ⟨_, rfl, State.event_sound h (State.warmRestart_sound h _)⟩
  | _ => exact framed

/-- Settles O4: the command at the front of the queue keeps soundness whatever it is, and so does a tick. -/
theorem everyStepKeepsSound : Obligations.EveryStepKeepsSound := by
  intro s h
  unfold step
  split
  · exact exec_keepsSound _ _ ⟨h.hall, h.settled, h.store⟩
  · exact ⟨_, rfl, State.tick_sound h⟩

end Sys2Proof.Machine
end

section
/-! PROOF. Paper arithmetic (Chapter 1): lengths and diameters, the time to splice, the splice delay, and reel IDs. -/

-- One theorem after another, as in the laws: elaborated all at once they ask for more threads than the check has room for.
set_option Elab.async false

namespace Sys2Proof.Machine

/-! ### Length of paper (R1) -/

theorem lengthOf_eq_zero {cal core dia : Nat} (h : dia ≤ core) : lengthOf cal core dia = 0 := if_pos h

theorem lengthOf_of_lt {cal core dia : Nat} (h : core < dia) :
    lengthOf cal core dia = (dia ^ 2 - core ^ 2) * 3217 / (4096 * cal) := by
  rw [lengthOf, if_neg (by omega), sq, sq]

theorem lengthOf_mono {cal core dia wide : Nat} (h : dia ≤ wide) : lengthOf cal core dia ≤ lengthOf cal core wide := by
  rcases Nat.lt_or_ge core dia with hd | hd
  · rw [lengthOf_of_lt hd, lengthOf_of_lt (hd.trans_le h)]
    gcongr
  · rw [lengthOf_eq_zero hd]; exact Nat.zero_le _

/-- The paper of a length, as an annulus area in units of π/4 mm² (rounded as R8 does), is no more than that of its reel. -/
theorem lengthOf_area {cal core dia remaining : Nat} (h : remaining ≤ lengthOf cal core dia) :
    remaining * (4096 * cal) ≤ (dia * dia - core * core) * 3217 := by
  refine (Nat.mul_le_mul_right _ h).trans ?_
  rcases Nat.lt_or_ge core dia with hd | hd
  · rw [lengthOf_of_lt hd, sq, sq]; exact Nat.div_mul_le_self _ _
  · rw [lengthOf_eq_zero hd, Nat.zero_mul]; exact Nat.zero_le _

/-! ### The integer square root (R8) -/

/-- Only a bit that keeps the square within the number is set. -/
theorem isqrtBits_sq_le {n : Nat} : ∀ {b r : Nat}, r * r ≤ n → isqrtBits n b r * isqrtBits n b r ≤ n
  | 0, _, lo => lo
  | b + 1, r, lo => by
    unfold isqrtBits
    split
    · rename_i bit; exact isqrtBits_sq_le bit
    · exact isqrtBits_sq_le lo

/-- The bits still to be found reach the root from below. -/
theorem lt_isqrtBits_sq {n : Nat} : ∀ {b r : Nat}, n < (r + 2 ^ b) * (r + 2 ^ b) →
    n < (isqrtBits n b r + 1) * (isqrtBits n b r + 1)
  | 0, _, hi => by simpa [isqrtBits] using hi
  | b + 1, r, hi => by
    unfold isqrtBits
    split
    · refine lt_isqrtBits_sq ?_
      rwa [show r + 2 ^ b + 2 ^ b = r + 2 ^ (b + 1) by rw [pow_succ]; omega]
    · exact lt_isqrtBits_sq (by omega)

theorem isqrt_sq_le (n : Nat) : isqrt n * isqrt n ≤ n := isqrtBits_sq_le (Nat.zero_le n)

theorem isqrt_spec {n : Nat} (h : n < 2 ^ 64) : isqrt n * isqrt n ≤ n ∧ n < (isqrt n + 1) * (isqrt n + 1) :=
  ⟨isqrt_sq_le n, lt_isqrtBits_sq (by simpa using h)⟩

theorem isqrt_eq_sqrt {n : Nat} (h : n < 2 ^ 64) : isqrt n = Nat.sqrt n := by
  obtain ⟨lo, hi⟩ := isqrt_spec h
  exact Nat.eq_sqrt.mpr ⟨lo, hi⟩

/-! ### The diameter in estimate mode (R8) -/

theorem estimateDiameter_zero {cal core : Nat} (h : core < 2 ^ 32) : estimateDiameter cal core 0 = core := by
  have small : core * core < 2 ^ 64 := by nlinarith
  rw [estimateDiameter, Nat.zero_mul, Nat.zero_div, Nat.add_zero, isqrt_eq_sqrt small, Nat.sqrt_eq]

theorem estimateDiameter_bounds {cal core d0 remaining : Nat} (hc : core ≤ d0) (hd : d0 ≤ 1500)
    (h : remaining ≤ lengthOf cal core d0) :
    core ≤ estimateDiameter cal core remaining ∧ estimateDiameter cal core remaining ≤ d0 := by
  have area : core * core + remaining * (4096 * cal) / 3217 ≤ d0 * d0 := by
    have := Nat.div_le_of_le_mul (Nat.mul_comm _ 3217 ▸ lengthOf_area h)
    have := Nat.mul_le_mul hc hc
    omega
  have small : d0 * d0 ≤ 1500 * 1500 := Nat.mul_le_mul hd hd
  rw [estimateDiameter, isqrt_eq_sqrt (by omega)]
  exact ⟨Nat.le_sqrt.mpr (Nat.le_add_right _ _), (Nat.sqrt_le_sqrt area).trans (Nat.sqrt_eq d0).le⟩

theorem estimateArea_lt {cal core d0 remaining : Nat} (hd : d0 ≤ 1500) (h : remaining ≤ lengthOf cal core d0) :
    remaining * (4096 * cal) < 2 ^ 40 := by
  have small : d0 * d0 ≤ 1500 * 1500 := Nat.mul_le_mul hd hd
  have := lengthOf_area h
  omega

/-- Settles O21, the diameter in estimate mode by the area of the remaining paper, which is no more than the reel's. -/
theorem diametersFollowLengthAndCore : Obligations.DiametersFollowLengthAndCore := by
  refine ⟨⟨fun _ _ _ => ⟨lengthOf_eq_zero, lengthOf_of_lt, fun _ => lengthOf_mono⟩, by decide, fun _ _ _ => rfl⟩,
    ⟨fun _ => isqrt_spec, fun _ _ _ => rfl, fun _ _ => estimateDiameter_zero, fun cal core d0 remaining _ hc hd h => ?_⟩,
    ⟨fun _ _ => rfl, fun _ _ => rfl, fun _ _ _ => rfl, fun _ _ => ⟨rfl, rfl⟩, by decide, by decide⟩⟩
  obtain ⟨lo, hi⟩ := estimateDiameter_bounds hc hd h
  exact ⟨lo, hi, estimateArea_lt hd h⟩

/-! ### The time to splice (R10) -/

theorem lengthOf_antitone {cal core cal' core' : Nat} (hl : 0 < cal) (hcal : cal ≤ cal') (hcore : core ≤ core') (dia : Nat) :
    lengthOf cal' core' dia ≤ lengthOf cal core dia := by
  rcases Nat.lt_or_ge core' dia with hd | hd
  · rw [lengthOf_of_lt hd, lengthOf_of_lt (hcore.trans_lt hd)]
    gcongr
  · rw [lengthOf_eq_zero hd]; exact Nat.zero_le _

/-- The longest reel: the thinnest paper from the smallest core to the largest diameter. -/
theorem lengthOf_le_longest {cal core dia : Nat} (hcal : 30 ≤ cal) (hcore : 70 ≤ core) (hd : dia ≤ 1500) :
    lengthOf cal core dia ≤ 58776 :=
  calc lengthOf cal core dia ≤ lengthOf 30 70 dia := lengthOf_antitone (by decide) hcal hcore dia
    _ ≤ lengthOf 30 70 1500 := lengthOf_mono hd
    _ = 58776 := by decide

theorem timeToSpliceOf_eq (run speed : Nat) : timeToSpliceOf run speed = if run = 0 then 0 else if speed = 0 then 65535
    else if 65535 < 60 * run / speed then 65535 else 60 * run / speed := by
  have held (x : Nat) : satSeconds x = if 65535 < x then 65535 else x := by
    unfold satSeconds Config.maxSeconds; split <;> omega
  simp only [timeToSpliceOf, held, Config.maxSeconds]

/-- Settles O22. -/
theorem timeToSpliceFollowsSpeed : Obligations.TimeToSpliceFollowsSpeed := by
  refine ⟨fun h st r l ds hl => ?_, fun cal core d0 remaining used hcal hcore hd hr => ⟨?_, by decide⟩⟩
  · have speed : h.speed st.line = l.speed := by simp [Hall.speed, hl]
    rw [Hall.timeToSplice, speed, timeToSpliceOf_eq]
    rfl
  · have := lengthOf_le_longest hcal hcore hd
    omega

/-! ### The splice delay (R16) -/

/-- Rounding up: the delay is the least number of copies that covers the web path. -/
theorem spliceDelay_covers {web cutoff : Nat} (h : 0 < cutoff) :
    web ≤ spliceDelay web cutoff * cutoff ∧ spliceDelay web cutoff * cutoff < web + cutoff := by
  have whole := Nat.div_add_mod' (web + cutoff - 1) cutoff
  have rest := Nat.mod_lt (web + cutoff - 1) h
  unfold spliceDelay
  omega

theorem spliceDelay_range {web cutoff : Nat} (h1 : 5000 ≤ web) (h2 : web ≤ 120000) (h3 : 400 ≤ cutoff) (h4 : cutoff ≤ 700) :
    8 ≤ spliceDelay web cutoff ∧ spliceDelay web cutoff ≤ 300 := by
  unfold spliceDelay
  constructor
  · rw [Nat.le_div_iff_mul_le (by omega)]; omega
  · rw [← Nat.lt_succ_iff, Nat.div_lt_iff_lt_mul (by omega)]; omega

/-- Settles O23. -/
theorem spliceDelayRoundsUp : Obligations.SpliceDelayRoundsUp := by
  refine ⟨fun web cutoff h1 h2 h3 h4 => ?_, fun ccut delay pre => ?_⟩
  · obtain ⟨covers, least⟩ := spliceDelay_covers (web := web) (show 0 < cutoff by omega)
    exact ⟨covers, least, spliceDelay_range h1 h2 h3 h4⟩
  · unfold spliceFirst; omega

/-! ### Reel IDs (R17) -/

theorem digitOf_eq_some {c : Byte} {d : Nat} : digitOf c = some d ↔ c.toNat = 48 + d ∧ d < 10 := by
  unfold digitOf; split <;> simp <;> omega

/-- The digits of a list of characters are read one by one. -/
theorem mapM_digitOf {l : List Byte} {ds : List Nat} :
    l.mapM digitOf = some ds ↔ List.Forall₂ (fun c d => digitOf c = some d) l ds := by
  induction l generalizing ds with
  | nil => cases ds <;> simp
  | cons c l ih =>
    cases ds with
    | nil => simp [List.mapM_cons, Option.bind_eq_some_iff]
    | cons d ds => simp [List.mapM_cons, Option.bind_eq_some_iff, ← ih]

theorem idWellFormed_iff {id : ReelId} : idWellFormed id = true ↔
    ∃ ds c, (id.take 10).mapM digitOf = some ds ∧ id.drop 10 = [c] ∧ ds.length = 10 ∧ c.toNat = checkChar ds := by
  unfold idWellFormed
  split
  · rename_i ds c hd hc; simp [hd, hc]
  · rename_i no
    constructor
    · intro h; cases h
    · rintro ⟨ds, c, hd, hc, -⟩; exact (no ds c hd hc).elim

theorem checkChar_eq (ds : List Nat) : checkChar ds =
    if (11 - weightedSum ds 10 % 11) % 11 = 10 then 88 else 48 + (11 - weightedSum ds 10 % 11) % 11 := rfl

/-- Characters that spell digits are read as those digits. -/
theorem mapM_digitOf_spelled {ds : List Nat} (h : ∀ d ∈ ds, d < 10) :
    (ds.map fun d => BitVec.ofNat 8 (48 + d)).mapM digitOf = some ds := by
  rw [mapM_digitOf, List.forall₂_map_left_iff]
  refine List.forall₂_same.mpr fun d hd => digitOf_eq_some.mpr ⟨?_, h d hd⟩
  have := h d hd
  rw [BitVec.toNat_ofNat]; omega

theorem idWellFormed_spelled {ds : List Nat} {c : Byte} (hl : ds.length = 10) (h : ∀ d ∈ ds, d < 10) :
    idWellFormed (ds.map (fun d => BitVec.ofNat 8 (48 + d)) ++ [c]) = true ↔ c.toNat = checkChar ds := by
  have front : (ds.map (fun d => BitVec.ofNat 8 (48 + d)) ++ [c]).take 10 = ds.map fun d => BitVec.ofNat 8 (48 + d) :=
    List.take_left' (by simpa using hl)
  have back : (ds.map (fun d => BitVec.ofNat 8 (48 + d)) ++ [c]).drop 10 = [c] := List.drop_left' (by simpa using hl)
  rw [idWellFormed_iff, front, back, mapM_digitOf_spelled h]
  constructor
  · rintro ⟨es, e, hd, hc, -, check⟩
    cases hd; cases hc; exact check
  · exact fun check => ⟨ds, c, rfl, rfl, hl, check⟩

theorem idWellFormed_chars {id : ReelId} (h : idWellFormed id = true) :
    id.length = 11 ∧ ∀ c ∈ id.take 10, 48 ≤ c.toNat ∧ c.toNat ≤ 57 := by
  obtain ⟨ds, c, hd, hc, hl, -⟩ := idWellFormed_iff.mp h
  rw [mapM_digitOf] at hd
  constructor
  · have back := congrArg List.length hc
    simp at back
    omega
  · refine (List.forall₂_and_left _ _ |>.mp (hd.imp fun c d hcd => ⟨?_, hcd⟩)).1
    have := digitOf_eq_some.mp hcd
    omega

/-- Settles O24. -/
theorem reelIdsCarryTheirCheckCharacter : Obligations.ReelIdsCarryTheirCheckCharacter := by
  refine ⟨fun ds c hl h => (idWellFormed_spelled hl h).trans (by rw [checkChar_eq]), fun _ => idWellFormed_chars,
    fun d1 d2 d3 d4 d5 d6 d7 d8 d9 d10 => ?_, fun h id i r hr => ?_, fun s q id g w d c m dock a hq hid => ?_⟩
  · simp only [weightedSum]; omega
  · simpa using List.find?_some hr
  · exact congrArg Host.Outcome.next (State.request_tells hq (by simp [Hall.takeRegister, hid, Hall.refuse]))

end Sys2Proof.Machine
end

section
/-! PROOF. What telling a line, a fault entry and a custody request leave of the hall: the layer of facts the statements on paper,
ceilings and arms are settled with. -/

-- One theorem after another, as in the laws: elaborated all at once they ask for more threads than the check has room for.
set_option Elab.async false

namespace Sys2Proof.Machine

/-! ### The hall but its lines, faults and what it sends -/

/-- The hall but its lines, its fault entries with the holds that follow them, and what it sends and queues. -/
def Hall.still (h : Hall) : Hall :=
  { h with lines := [], faults := [], holds := [], notices := [], noticeSeq := 0, dropped := 0, links := [], sent := [] }

/-- A field that is not blanked is the same in halls that are the same when still. -/
theorem Hall.still_field {a b : Hall} (e : a.still = b.still) {α : Type} (f : Hall → α)
    (hf : ∀ h : Hall, f h.still = f h) : f a = f b := by
  rw [← hf a, e, hf b]

section
variable (h : Hall)

@[simp] theorem Hall.modLine_still (n : Nat) (f : Line → Line) : (h.modLine n f).still = h.still := rfl

@[simp] theorem Hall.sendLine_still (n : Nat) (m : LineMsg) : (h.sendLine n m).still = h.still := rfl

@[simp] theorem Hall.setFault_still (k : FaultKey) (e : FaultEntry) : (h.setFault k e).still = h.still := rfl

@[simp] theorem Hall.notify_still (n : Notice) : (h.notify n).still = h.still := by unfold Hall.notify; split <;> rfl

@[simp] theorem Hall.sendHold_still (n : Nat) : (h.sendHold n).still = h.still := by unfold Hall.sendHold; split <;> rfl

@[simp] theorem Hall.resendHold_still (n : Nat) : (h.resendHold n).still = h.still := by
  unfold Hall.resendHold; split <;> simp

@[simp] theorem Hall.evalHold_still (n : Nat) : (h.evalHold n).still = h.still := by
  unfold Hall.evalHold; dsimp only; split
  · rfl
  · rw [Hall.notify_still, Hall.sendHold_still]; rfl

@[simp] theorem Hall.changeFault_still (k : FaultKey) (c : FaultChange) (e : FaultEntry) : (h.changeFault k c e).still = h.still := by
  unfold Hall.changeFault Hall.evalSubject; split <;> simp

@[simp] theorem Hall.lower_still (k : FaultKey) : (h.lower k).still = h.still := by
  unfold Hall.lower; split
  · simp
  · rfl

@[simp] theorem Hall.pulse_still (k : FaultKey) : (h.pulse k).still = h.still := by simp [Hall.pulse]

/-- Only the FATAL fleet kinds do more than tell of the entry (R203). -/
theorem Hall.raise_still {k : FaultKey} (hk : stopsFleet k.kind = false) : (h.raise k).still = h.still := by
  unfold Hall.raise; split
  · rfl
  · simp [hk]

@[simp] theorem Hall.sendPanel_still (n : Nat) : (h.sendPanel n).still = h.still := by unfold Hall.sendPanel; split <;> simp

@[simp] theorem Hall.noteCeiling_still (n : Nat) : (h.noteCeiling n).still = h.still := by unfold Hall.noteCeiling; split <;> simp

@[simp] theorem Hall.sendCeiling_still (n : Nat) : (h.sendCeiling n).still = h.still := by unfold Hall.sendCeiling; split <;> simp

theorem Hall.foldl_still {β : Type} {f : Hall → β → Hall} (hf : ∀ g x, (f g x).still = g.still) (l : List β) :
    (l.foldl f h).still = h.still := by
  induction l generalizing h with
  | nil => rfl
  | cons x l ih => rw [List.foldl_cons, ih, hf]

@[simp] theorem Hall.linkReturns_still (n : Nat) : (h.linkReturns n).still = h.still := by
  unfold Hall.linkReturns; dsimp only
  rw [Hall.foldl_still]
  · simp
  · intro g st; split
    · split <;> rfl
    · rfl

@[simp] theorem Hall.greet_still (n : Nat) : (h.greet n).still = h.still := by
  unfold Hall.greet; split
  · dsimp only; split <;> split <;> simp
  · rfl

@[simp] theorem Hall.lineHeard_still (n : Nat) : (h.lineHeard n).still = h.still := by
  unfold Hall.lineHeard; split
  · dsimp only; split <;> simp
  · rfl

@[simp] theorem Hall.endPrep_still (st : StandAddr) : (h.endPrep st).still = h.still := by
  unfold Hall.endPrep; split
  · split <;> simp
  · rfl

@[simp] theorem Hall.easeOverdue_still (st : StandAddr) : (h.easeOverdue st).still = h.still := by
  unfold Hall.easeOverdue; split <;> simp

end

/-! ### The Fault Table after a change of an entry (R197) -/

section
variable (h : Hall)

@[simp] theorem Hall.sendHold_faults (n : Nat) : (h.sendHold n).faults = h.faults := by unfold Hall.sendHold; split <;> rfl

@[simp] theorem Hall.evalHold_faults (n : Nat) : (h.evalHold n).faults = h.faults := by
  unfold Hall.evalHold; dsimp only; split <;> simp

@[simp] theorem Hall.evalSubject_faults (x : Subject) : (h.evalSubject x).faults = h.faults := by
  unfold Hall.evalSubject; split <;> simp

@[simp] theorem Hall.changeFault_faults (k : FaultKey) (c : FaultChange) (e : FaultEntry) :
    (h.changeFault k c e).faults = (h.setFault k e).faults := by simp [Hall.changeFault]

@[simp] theorem Hall.haltFleet_faults : h.haltFleet.faults = h.faults := by
  have one (g : Hall) (v : Nat) : (g.haltVehicle v).faults = g.faults := by unfold Hall.haltVehicle; dsimp only; split <;> rfl
  have all (l : List Nat) : ∀ g : Hall, (l.foldl Hall.haltVehicle g).faults = g.faults := by
    induction l with
    | nil => exact fun _ => rfl
    | cons v l ih => exact fun g => (ih _).trans (one g v)
  unfold Hall.haltFleet; split
  · rfl
  · exact all _ _

end

theorem Hall.fault_congr {a b : Hall} (e : a.faults = b.faults) (k : FaultKey) : a.fault k = b.fault k := by
  simp [Hall.fault, e]

theorem Hall.fault_setFault {h : Hall} {k : FaultKey} {e : FaultEntry} (he : e ≠ FaultEntry.clear) : (h.setFault k e).fault k = e := by
  simp [Hall.fault, Hall.setFault, he]

theorem Hall.fault_setFault_ne {h : Hall} {k j : FaultKey} (hj : j.num ≠ k.num) (e : FaultEntry) :
    (h.setFault k e).fault j = h.fault j := by
  unfold Hall.fault Hall.setFault; dsimp only; split
  · rw [tget_tdel_ne _ hj]
  · rw [tget_tput_ne _ _ hj]

theorem Hall.fault_changeFault {h : Hall} {k : FaultKey} {e : FaultEntry} (he : e ≠ FaultEntry.clear) (c : FaultChange) :
    (h.changeFault k c e).fault k = e :=
  (Hall.fault_congr (h.changeFault_faults k c e) k).trans (Hall.fault_setFault he)

theorem Hall.fault_changeFault_ne {h : Hall} {k j : FaultKey} (hj : j.num ≠ k.num) (c : FaultChange) (e : FaultEntry) :
    (h.changeFault k c e).fault j = h.fault j :=
  (Hall.fault_congr (h.changeFault_faults k c e) j).trans (Hall.fault_setFault_ne hj e)

theorem FaultEntry.ne_clear_of_latched {e : FaultEntry} (h : e.latched = true) : e ≠ FaultEntry.clear := by
  rintro rfl; cases h

/-- An entry of a sound table that is active is latched (R197). -/
theorem FaultsSound.latched {h : Hall} (s : FaultsSound h.faults) {k : FaultKey} (ha : (h.fault k).active = true) :
    (h.fault k).latched = true := by
  unfold Hall.fault at ha ⊢
  cases e : tget h.faults k.num with
  | none => rw [e] at ha; cases ha
  | some p =>
    rw [e] at ha
    obtain ⟨-, -, latched⟩ := s.2 _ (tget_mem e)
    exact latched ha

theorem Hall.raise_active (h : Hall) (k : FaultKey) : ((h.raise k).fault k).active = true := by
  unfold Hall.raise; split
  · assumption
  · have changed : ((h.changeFault k .active ((h.fault k).activate h.clock)).fault k).active = true := by
      rw [Hall.fault_changeFault (FaultEntry.ne_clear_of_latched rfl)]; rfl
    dsimp only; split
    · rwa [Hall.fault_congr (Hall.haltFleet_faults _)]
    · exact changed

theorem Hall.raise_fault_ne {h : Hall} {k j : FaultKey} (hj : j.num ≠ k.num) : (h.raise k).fault j = h.fault j := by
  unfold Hall.raise; split
  · rfl
  · dsimp only; split
    · rw [Hall.fault_congr (Hall.haltFleet_faults _), Hall.fault_changeFault_ne hj]
    · exact Hall.fault_changeFault_ne hj _ _

theorem Hall.lower_inactive {h : Hall} (s : FaultsSound h.faults) (k : FaultKey) : ((h.lower k).fault k).active = false := by
  unfold Hall.lower; split
  · rename_i ha
    rw [Hall.fault_changeFault (e := { h.fault k with active := false }) (FaultEntry.ne_clear_of_latched (s.latched ha))]
  · rename_i ha; simpa using ha

theorem Hall.lower_fault_ne {h : Hall} {k j : FaultKey} (hj : j.num ≠ k.num) : (h.lower k).fault j = h.fault j := by
  unfold Hall.lower; split
  · exact Hall.fault_changeFault_ne hj _ _
  · rfl

theorem Hall.setActive_active {h : Hall} (s : FaultsSound h.faults) (k : FaultKey) (b : Bool) :
    ((h.setActive k b).fault k).active = b := by
  cases b with
  | true => exact h.raise_active k
  | false => exact Hall.lower_inactive s k

theorem Hall.setActive_fault_ne {h : Hall} {k j : FaultKey} (hj : j.num ≠ k.num) (b : Bool) :
    (h.setActive k b).fault j = h.fault j := by
  cases b with
  | true => exact Hall.raise_fault_ne hj
  | false => exact Hall.lower_fault_ne hj

theorem Hall.pulse_latched (h : Hall) (k : FaultKey) : ((h.pulse k).fault k).latched = true := by
  unfold Hall.pulse
  rw [Hall.fault_changeFault (FaultEntry.ne_clear_of_latched rfl)]
  rfl

/-- Entries of different kinds stand at different places of the table (R196). -/
theorem FaultKey.num_ne_of_kind {j k : FaultKey} (h : faultCode j.kind ≠ faultCode k.kind) : j.num ≠ k.num := by
  unfold FaultKey.num; omega

section
variable (h : Hall) (n : Nat)

/-! ### A line that is heard -/

@[simp] theorem Hall.lineHeard_reels : (h.lineHeard n).reels = h.reels :=
  Hall.still_field (h.lineHeard_still n) Hall.reels fun _ => rfl
@[simp] theorem Hall.lineHeard_grades : (h.lineHeard n).grades = h.grades :=
  Hall.still_field (h.lineHeard_still n) Hall.grades fun _ => rfl
@[simp] theorem Hall.lineHeard_stands : (h.lineHeard n).stands = h.stands :=
  Hall.still_field (h.lineHeard_still n) Hall.stands fun _ => rfl
@[simp] theorem Hall.lineHeard_missions : (h.lineHeard n).missions = h.missions :=
  Hall.still_field (h.lineHeard_still n) Hall.missions fun _ => rfl
@[simp] theorem Hall.lineHeard_agenda : (h.lineHeard n).agenda = h.agenda :=
  Hall.still_field (h.lineHeard_still n) Hall.agenda fun _ => rfl
@[simp] theorem Hall.lineHeard_allStop : (h.lineHeard n).allStop = h.allStop :=
  Hall.still_field (h.lineHeard_still n) Hall.allStop fun _ => rfl

@[simp] theorem Hall.lineHeard_stand (st : StandAddr) : (h.lineHeard n).stand st = h.stand st := by simp [Hall.stand]
@[simp] theorem Hall.lineHeard_reel (ref : ReelRef) : (h.lineHeard n).reel ref = h.reel ref := by simp [Hall.reel]
@[simp] theorem Hall.lineHeard_reelLength (r : Reel) (d : Nat) : (h.lineHeard n).reelLength r d = h.reelLength r d := by
  simp [Hall.reelLength, Hall.gradeOf]

end

/-! ### Frames of a line that are taken (R214) -/

theorem frameFits_of {f : Frame} {st : StandAddr} (hl : st.line = f.link) (h1 : 1 ≤ st.stand) (h8 : st.stand ≤ 8) :
    frameFits f st = true := by
  simp [frameFits, inRange, hl, h1, h8]

theorem Hall.lineFrame_taken {f : Frame} {length : Nat} {ok : Bool} (hf : f.ok length) (hok : ok = true) (h : Hall)
    (take : Hall → Hall) : h.lineFrame f length ok take = (take (h.lineHeard f.link)).finish := by
  obtain ⟨hlen, hlisted⟩ := hf
  simp [Hall.lineFrame, hlen, hlisted, hok]

/-- A frame that is taken becomes what its rule makes of the hall that has heard the line. -/
theorem State.becomes_of_steps {s : State} {g b : Hall} (x : g.Steps b) : s.Becomes { s with hall := b.finish } g :=
  ⟨rfl, x.finish.trace⟩

/-! ### Custody requests (R26) -/

theorem Hall.askCustody_taken {h : Hall} {ref : ReelRef} {r : Reel} (hr : h.reel ref = some r) {ok : Reel → Bool} (hok : ok r = true)
    (c : Custody) (b : Block) (make : Reel → Hall → Hall) (metres : Reel → Nat) :
    h.askCustody ref c b ok make metres = (make r h, some (metres r)) := by
  simp [Hall.askCustody, hr, hok]

theorem Hall.askCustody_refused {h : Hall} {ref : ReelRef} {r : Reel} (hr : h.reel ref = some r) {ok : Reel → Bool}
    (hok : ok r = false) (c : Custody) (b : Block) (make : Reel → Hall → Hall) (metres : Reel → Nat) :
    h.askCustody ref c b ok make metres = (h.refuseCustody ref c b, none) := by
  simp [Hall.askCustody, hr, hok]

@[simp] theorem Hall.refuseCustody_still (h : Hall) (ref : ReelRef) (c : Custody) (b : Block) :
    (h.refuseCustody ref c b).still = h.still := by
  simp [Hall.refuseCustody]

theorem Reel.onArm_iff {r : Reel} {st : StandAddr} {arm : ArmName} :
    r.onArm st arm = true ↔ r.state = .onArm ∧ r.loc = .arm st arm := by simp [Reel.onArm]

/-- The stock watch follows a change of the issuable count alone (R41). -/
theorem Hall.putReel_of_not_stored {h : Hall} {i : Nat} {r r' : Reel} (hr : tget h.reels i = some r) (h1 : r.state ≠ .stored)
    (h2 : r'.state ≠ .stored) : h.putReel i r' = { h with reels := tput h.reels i r' } := by
  simp [Hall.putReel, hr, h1, h2]

@[simp] theorem Hall.stockWatch_reels (h : Hall) (g : Nat) : (h.stockWatch g).reels = h.reels := by
  have watched (h : Hall) (b : Bool) : (h.setActive ⟨.stockLow, .none⟩ b).reels = h.reels := by
    unfold Hall.setActive; split
    · exact Hall.still_field (Hall.raise_still h rfl) Hall.reels fun _ => rfl
    · exact Hall.still_field (Hall.lower_still h _) Hall.reels fun _ => rfl
  unfold Hall.stockWatch; split
  · rfl
  · dsimp only; split
    · rfl
    · split
      · rfl
      · rw [watched]; simp

@[simp] theorem Hall.putReel_reels (h : Hall) (i : Nat) (r : Reel) : (h.putReel i r).reels = tput h.reels i r := by
  unfold Hall.putReel; dsimp only; split <;> simp

/-! ### Bookings of paper leave the reels and the stands -/

section
variable (h : Hall) (n m w g : Nat)

@[simp] theorem Hall.bookPrinted_reels : (h.bookPrinted n m w g).reels = h.reels := by
  unfold Hall.bookPrinted Hall.book; split
  · rfl
  · dsimp only; split <;> rfl

@[simp] theorem Hall.bookPrinted_stands : (h.bookPrinted n m w g).stands = h.stands := by
  unfold Hall.bookPrinted Hall.book; split
  · rfl
  · dsimp only; split <;> rfl

@[simp] theorem Hall.bookWhite_reels : (h.bookWhite n m w g).reels = h.reels := by
  unfold Hall.bookWhite Hall.book; split
  · rfl
  · dsimp only; split <;> rfl

@[simp] theorem Hall.bookWhite_stands : (h.bookWhite n m w g).stands = h.stands := by
  unfold Hall.bookWhite Hall.book; split
  · rfl
  · dsimp only; split <;> rfl

end

/-! ### What bookings of paper go by (R188 to R190) -/

/-- What a booking of paper reads and changes: counts, grades, editions and unassigned totals. -/
def Hall.books (h : Hall) : Table LineCount × Table Grade × Table Edition × Table Totals :=
  (h.counts, h.grades, h.editions, h.unassigned)

theorem Hall.books_eq_iff {a b : Hall} : a.books = b.books ↔
    a.counts = b.counts ∧ a.grades = b.grades ∧ a.editions = b.editions ∧ a.unassigned = b.unassigned := by simp [Hall.books]

theorem Hall.book_books {a b : Hall} (e : a.books = b.books) (n : Nat) (f : Edition → Edition) (g : Totals → Totals) :
    (a.book n f g).books = (b.book n f g).books := by
  obtain ⟨hc, hg, he, hu⟩ := Hall.books_eq_iff.mp e
  have hfind : a.findEdition n = b.findEdition n := by funext number; simp [Hall.findEdition, he]
  have hopen : a.openOn n = b.openOn n := by simp [Hall.openOn, Hall.count, hfind, hc]
  unfold Hall.book
  rw [hopen]
  split <;> simp [Hall.books, Hall.modTotals, hc, hg, he, hu]

theorem Hall.bookPrinted_books {a b : Hall} (e : a.books = b.books) (n m w g : Nat) :
    (a.bookPrinted n m w g).books = (b.bookPrinted n m w g).books := by
  obtain ⟨-, hg, -, -⟩ := Hall.books_eq_iff.mp e
  unfold Hall.bookPrinted
  rw [hg]
  split
  · exact e
  · exact Hall.book_books e _ _ _

theorem Hall.bookWhite_books {a b : Hall} (e : a.books = b.books) (n m w g : Nat) :
    (a.bookWhite n m w g).books = (b.bookWhite n m w g).books := by
  obtain ⟨-, hg, -, -⟩ := Hall.books_eq_iff.mp e
  unfold Hall.bookWhite
  rw [hg]
  split
  · exact e
  · exact Hall.book_books e _ _ _

/-! ### The tests after a change of diameter -/

section
variable (h : Hall) (st : StandAddr)

@[simp] theorem Hall.setMode_reels (m : Mode) : (h.setMode st m).reels = h.reels := by
  unfold Hall.setMode; dsimp only; split <;> split <;> simp

@[simp] theorem Hall.lockTest_reels : (h.lockTest st).reels = h.reels := by unfold Hall.lockTest; split <;> simp

@[simp] theorem Hall.spliceTest_reels : (h.spliceTest st).reels = h.reels := by
  have command : (h.commandSplice st).reels = h.reels := by
    unfold Hall.commandSplice; split
    · split
      · exact (Hall.still_field (Hall.lower_still _ _) Hall.reels fun _ => rfl).trans (by simp)
      · rfl
    · rfl
  have starve (g : Hall) : (g.starveTest st).reels = g.reels := by
    unfold Hall.starveTest; split
    · exact (Hall.still_field (Hall.raise_still _ rfl) Hall.reels fun _ => rfl).trans (by simp)
    · rfl
  unfold Hall.spliceTest; rw [starve]; split
  · exact command
  · rfl

@[simp] theorem Hall.diameterTests_reels : (h.diameterTests st).reels = h.reels := by simp [Hall.diameterTests]

end

/-! ### A sample of the running reel (R3, R121, R122) -/

/-- The record of a reel after a diameter step to `d` (R3). -/
def Hall.stepped (h : Hall) (r : Reel) (d : Nat) : Reel :=
  { r with consumed := r.consumed + (h.reelLength r r.accepted - h.reelLength r d), remaining := h.reelLength r d, accepted := d }

/-- A sample at or below the accepted diameter, by the step limit at most, is a diameter step that is booked (R3, R121, R122). -/
theorem Hall.takeSample_accepted {h : Hall} {st : StandAddr} {arm : ArmName} {ref : ReelRef} {r : Reel} {maxStep d : Nat}
    (hr : h.reel ref = some r) (on : r.onArm st arm = true) (he : r.estimate = false) (hc : r.core ≤ d) (hd : d ≤ r.accepted)
    (hs : r.accepted ≤ d + maxStep) :
    h.takeSample st arm ref r maxStep d = ((((({ h with reels := tput h.reels ref.index (h.stepped r d) } : Hall).bookPrinted st.line
      (h.reelLength r r.accepted - h.reelLength r d) r.width r.grade).modStand st fun s => { s with implausible := 0 }).diameterTests
      st).push (.callTest st)) := by
  have notStored : r.state ≠ .stored := by rw [(Reel.onArm_iff.mp on).1]; decide
  have step : h.askDiameterStep st arm ref d = ({ h with reels := tput h.reels ref.index (h.stepped r d) },
      some (h.reelLength r r.accepted - h.reelLength r d)) := by
    unfold Hall.askDiameterStep
    rw [Hall.askCustody_taken hr (by simp [on, he, hc, hd])]
    exact congrArg (·, _) (Hall.putReel_of_not_stored (Hall.Follows.reel_get hr) notStored notStored)
  rw [Hall.takeSample, if_pos ⟨hs, hd⟩, Hall.acceptSample, step]

/-- A sample above the accepted diameter, by 3 mm at most, is disregarded (R121). -/
theorem Hall.takeSample_disregarded {h : Hall} {st : StandAddr} {arm : ArmName} {ref : ReelRef} {r : Reel} {maxStep d : Nat}
    (lo : r.accepted < d) (hi : d ≤ r.accepted + 3) : h.takeSample st arm ref r maxStep d = h.push (.callTest st) := by
  rw [Hall.takeSample, if_neg (by omega), if_pos ⟨lo, hi⟩]

/-- DIAMETER of a running reel that is not in estimate mode is a sample of it (R121). -/
theorem Hall.takeDiameter_running {h : Hall} {st : StandAddr} {arm : ArmName} {x : Stand} {ref : ReelRef} {r : Reel} (raw : Nat)
    (hx : h.stand st = some x) (out : x.mode ≠ .outOfService) (unknown : x.mode ≠ .unknown) (run : (x.arm arm).state = .running)
    (href : (x.arm arm).reel = some ref) (hr : h.reel ref = some r) (he : r.estimate = false) :
    h.takeDiameter st arm raw = h.takeSample st arm ref r x.cfg.maxStep (candidate raw x.cfg.offset r.core) := by
  simp [Hall.takeDiameter, hx, out, unknown, run, href, hr, he]

end Sys2Proof.Machine
end

section
/-! PROOF. DIAMETER of a running reel that is not in estimate mode (R3, R121, R122). -/

-- One theorem after another, as in the laws: elaborated all at once they ask for more threads than the check has room for.
set_option Elab.async false

namespace Sys2Proof.Machine

theorem core_le_candidate (raw : Nat) (offset : Int) (core : Nat) : core ≤ candidate raw offset core := by
  unfold candidate; omega

/-- DIAMETER that fits its frame and the layout: the line is heard, the sample is taken, and the event ends (R121, R214). -/
theorem exec_diameter {f : Frame} {st : StandAddr} (hf : f.ok 5) (hl : st.line = f.link) (h1 : 1 ≤ st.stand) (h8 : st.stand ≤ 8)
    (arm : ArmName) (raw : Nat) (s : State) :
    exec (.diameter f st arm raw) s = .next { s with hall := ((s.hall.lineHeard st.line).takeDiameter st arm raw).finish } := by
  have frame := Hall.lineFrame_taken hf (frameFits_of hl h1 h8) s.hall fun h => h.takeDiameter st arm raw
  rw [← hl] at frame
  exact congrArg (fun g => Host.Outcome.next { s with hall := g }) frame

/-- Settles O49: the sample's diameter step is all that becomes of the reels, but for what the tests that follow it may change. -/
theorem diameterSamplesConsumePaper : Obligations.DiameterSamplesConsumePaper := by
  intro s f st arm raw x ref r hf hl h1 h8 hx out unknown run href hr he d
  have core : r.core ≤ d := core_le_candidate raw x.cfg.offset r.core
  have taken : exec (.diameter f st arm raw) s = .next { s with hall := ((s.hall.lineHeard st.line).takeSample st arm ref r
      x.cfg.maxStep d).finish } := by
    rw [exec_diameter hf hl h1 h8, Hall.takeDiameter_running raw (by simpa using hx) out unknown run href (by simpa using hr) he]
    rfl
  refine ⟨fun hd hs state loc => ⟨_, taken, rfl, ?_, fun i hi => ?_⟩, fun lo hi => ⟨_, taken, ?_⟩⟩
  · have on : r.onArm st arm = true := Reel.onArm_iff.mpr ⟨state, loc⟩
    rw [(Hall.finish_trace _).reels, Hall.takeSample_accepted (by simpa using hr) on he core hd hs]
    simp [Hall.stepped]
  · have on : r.onArm st arm = true := Reel.onArm_iff.mpr ⟨state, loc⟩
    rw [(Hall.finish_trace _).reels, Hall.takeSample_accepted (by simpa using hr) on he core hd hs]
    simp [tget_tput_ne _ _ hi]
  · rw [Hall.takeSample_disregarded lo hi]
    exact State.becomes_of_steps ((Hall.Follows.refl _).push _).toSteps

end Sys2Proof.Machine
end

section
/-! PROOF. Estimate mode, the lengths of a reel and the booking of paper (R2, R3, R5, R7, R21, R121, R123, R188 to R190). -/

-- One theorem after another, as in the laws: elaborated all at once they ask for more threads than the check has room for.
set_option Elab.async false

namespace Sys2Proof.Machine

/-! ### What the tests after a change of diameter leave of a stand -/

theorem Hall.lockTest_stand (h : Hall) (st st' : StandAddr) :
    (h.lockTest st).stand st' = h.stand st' ∨
      ∃ y, h.stand st' = some y ∧ (h.lockTest st).stand st' = some { y with mode := .locked } := by
  unfold Hall.lockTest; split
  · rename_i locks
    rw [Hall.setMode_barred _ _ _ rfl]
    have e : ((h.modStand st fun s => { s with mode := .locked }).oweCeiling st.line).stand st' =
        if standKey st' = standKey st then (h.stand st').map fun s => { s with mode := .locked } else h.stand st' := by
      simp [Hall.stand, tget_tmod]
    rw [e]; split
    · cases h.stand st' with
      | none => exact .inl rfl
      | some y => exact .inr ⟨y, rfl, rfl⟩
    · exact .inl rfl
  · exact .inl rfl

/-- The tests change of a stand neither the implausible count nor an arm that is not LOADING. -/
theorem Hall.diameterTests_stand {h : Hall} {st : StandAddr} {y : Stand} (hy : h.stand st = some y) :
    ∃ z, (h.diameterTests st).stand st = some z ∧ z.implausible = y.implausible ∧
      ∀ arm, (y.arm arm).state ≠ .loading → z.arm arm = y.arm arm := by
  have locked : ∃ w, (h.lockTest st).stand st = some w ∧ w.implausible = y.implausible ∧ ∀ arm, w.arm arm = y.arm arm := by
    rcases h.lockTest_stand st st with e | ⟨y', hy', e⟩
    · exact ⟨y, e.trans hy, rfl, fun _ => rfl⟩
    · rw [hy] at hy'; cases hy'
      exact ⟨_, e, rfl, fun arm => by cases arm <;> rfl⟩
  obtain ⟨w, hw, himp, harm⟩ := locked
  have follows := (((Hall.Follows.refl (h.lockTest st)).spliceTest st).oweCeiling st.line).push (.callTest st)
  obtain ⟨z, hz, kept⟩ := follows.stands.get hw
  refine ⟨z, hz, ?_, fun arm ha => ?_⟩
  · have e := follows.trace.standsFixed (standKey st)
    rw [show tget _ _ = some w from hw, show tget _ _ = some z from hz] at e
    exact (congrArg Stand.implausible (Option.some.inj e)).trans himp
  · rw [kept.arm arm (by rwa [harm]), harm]

theorem Hall.diameterTests_callTest (h : Hall) (st : StandAddr) : Job.callTest st ∈ (h.diameterTests st).agenda := by
  unfold Hall.diameterTests Hall.push; split
  · assumption
  · exact List.mem_append_right _ (List.mem_singleton_self _)

theorem Hall.diameterTests_books (h : Hall) (st : StandAddr) :
    (h.diameterTests st).editions = h.editions ∧ (h.diameterTests st).unassigned = h.unassigned :=
  (((Hall.Handles.refl h).diameterTests st : h.Handles false true _).books) rfl

/-! ### Estimate mode: the step (R7, R123) -/

/-- The record of a reel after an estimate step of `m` metres (R7). -/
def Reel.estimated (r : Reel) (m : Nat) : Reel := { r with consumed := r.consumed + m, remaining := r.remaining - m }

theorem Hall.askEstimateStep_taken {h : Hall} {st : StandAddr} {arm : ArmName} {ref : ReelRef} {r : Reel} (metres : Nat)
    (hr : h.reel ref = some r) (on : r.onArm st arm = true) (he : r.estimate = true) :
    h.askEstimateStep st arm ref metres =
      ({ h with reels := tput h.reels ref.index (r.estimated (min metres r.remaining)) }, some (min metres r.remaining)) := by
  have notStored : r.state ≠ .stored := by rw [(Reel.onArm_iff.mp on).1]; decide
  unfold Hall.askEstimateStep
  rw [Hall.askCustody_taken hr (by simp [on, he])]
  exact congrArg (·, _) (Hall.putReel_of_not_stored (Hall.Follows.reel_get hr) notStored notStored)

section
variable {h : Hall} {speed dt : Nat} {st : StandAddr} {s : Stand} {arm : ArmName} {ref : ReelRef} {r : Reel}

theorem Hall.estimateStep_taken (hs : h.stand st = some s) (run : s.running = some arm) (href : (s.arm arm).reel = some ref)
    (hr : h.reel ref = some r) (mode : s.mode ≠ .outOfService) (state : (s.arm arm).state = .running) (he : r.estimate = true)
    (on : r.onArm st arm = true) :
    h.estimateStep speed dt st =
      (((({ h with reels := tput h.reels ref.index (r.estimated (min (stepMetres speed dt (s.arm arm).carry) r.remaining)) } :
        Hall).modArm st arm fun a => { a with carry := stepCarry speed dt a.carry }).bookPrinted st.line
          (min (stepMetres speed dt (s.arm arm).carry) r.remaining) r.width r.grade).diameterTests st) := by
  unfold Hall.estimateStep
  simp [hs, run, href, hr, mode, state, he, Hall.askEstimateStep_taken _ hr on he]

theorem Hall.estimateStep_none (hs : h.stand st = some s) (run : s.running = some arm) (href : (s.arm arm).reel = some ref)
    (hr : h.reel ref = some r) (no : s.mode = .outOfService ∨ (s.arm arm).state ≠ .running ∨ r.estimate = false) :
    h.estimateStep speed dt st = h := by
  unfold Hall.estimateStep
  simp only [hs, run, href, hr]
  rw [if_pos (by simpa using no)]

/-- What an estimate step makes of the reel, of its arm's carry and of the books (R7, R189). -/
theorem Hall.estimateStep_books (hs : h.stand st = some s) (run : s.running = some arm) (href : (s.arm arm).reel = some ref)
    (hr : h.reel ref = some r) (mode : s.mode ≠ .outOfService) (state : (s.arm arm).state = .running) (he : r.estimate = true)
    (on : r.onArm st arm = true) :
    let t := h.estimateStep speed dt st
    let m := min (stepMetres speed dt (s.arm arm).carry) r.remaining
    tget t.reels ref.index = some (r.estimated m) ∧
      (∃ y, t.stand st = some y ∧ (y.arm arm).carry = stepCarry speed dt (s.arm arm).carry) ∧
      t.editions = (h.bookPrinted st.line m r.width r.grade).editions ∧
      t.unassigned = (h.bookPrinted st.line m r.width r.grade).unassigned ∧ Job.callTest st ∈ t.agenda := by
  intro t m
  have ht : t = _ := Hall.estimateStep_taken hs run href hr mode state he on
  clear_value t
  subst ht
  set g := ({ h with reels := tput h.reels ref.index (r.estimated m) } : Hall).modArm st arm
    fun a => { a with carry := stepCarry speed dt a.carry } with hg
  have books : (g.bookPrinted st.line m r.width r.grade).books = (h.bookPrinted st.line m r.width r.grade).books :=
    Hall.bookPrinted_books (a := g) (b := h) rfl _ _ _ _
  obtain ⟨-, -, editions, unassigned⟩ := Hall.books_eq_iff.mp books
  obtain ⟨tested, tested'⟩ := Hall.diameterTests_books (g.bookPrinted st.line m r.width r.grade) st
  refine ⟨?_, ?_, tested.trans editions, tested'.trans unassigned, Hall.diameterTests_callTest _ _⟩
  · simp [hg, Hall.modArm]
  · have stepped : (g.bookPrinted st.line m r.width r.grade).stand st =
        some (s.modArm arm fun a => { a with carry := stepCarry speed dt a.carry }) := by
      have hs : tget h.stands (standKey st) = some s := hs
      simp [hg, Hall.stand, Hall.modArm, hs]
    obtain ⟨y, hy, -, kept⟩ := Hall.diameterTests_stand stepped
    refine ⟨y, hy, ?_⟩
    rw [kept arm (by simp [Stand.arm_modArm, state]), Stand.arm_modArm, if_pos rfl]

end

/-! ### Estimate mode: its beginning (R121, R123) -/

/-- The reel of an arm that is not in estimate mode enters it (R21). -/
theorem Hall.askEnterEstimate_taken {h : Hall} {st : StandAddr} {arm : ArmName} {ref : ReelRef} {r : Reel} (hr : h.reel ref = some r)
    (on : r.onArm st arm = true) (he : r.estimate = false) :
    (h.askEnterEstimate st arm ref).1 = { h with reels := tput h.reels ref.index { r with estimate := true } } := by
  have notStored : r.state ≠ .stored := by rw [(Reel.onArm_iff.mp on).1]; decide
  unfold Hall.askEnterEstimate
  rw [Hall.askCustody_taken hr (by simp [on, he])]
  exact Hall.putReel_of_not_stored (Hall.Follows.reel_get hr) notStored notStored

section
variable {h : Hall} {st : StandAddr} {s : Stand} {arm : ArmName} {ref : ReelRef} {r : Reel} {d : Nat}

theorem Hall.takeSample_implausible {maxStep : Nat} (hd : r.accepted + 3 < d ∨ d + maxStep < r.accepted) :
    h.takeSample st arm ref r maxStep d = (h.implausibleSample st arm ref).push (.callTest st) := by
  rw [Hall.takeSample, if_neg (by omega), if_neg (by omega)]

/-- The hall of an implausible sample that has been counted (R121). -/
def Hall.implausibleCounted (st : StandAddr) (h : Hall) : Hall :=
  (h.pulse (standFault .diameterImplausible st)).modStand st fun s => { s with implausible := s.implausible + 1 }

theorem Hall.implausibleCounted_stand (hs : h.stand st = some s) :
    (h.implausibleCounted st).stand st = some { s with implausible := s.implausible + 1 } := by
  have stands : (h.pulse (standFault .diameterImplausible st)).stands = h.stands :=
    Hall.still_field (Hall.pulse_still _ _) Hall.stands fun _ => rfl
  have hs : tget h.stands (standKey st) = some s := hs
  simp [Hall.implausibleCounted, Hall.stand, stands, hs]

theorem Hall.implausibleCounted_latched (h : Hall) (st : StandAddr) :
    ((h.implausibleCounted st).fault (standFault .diameterImplausible st)).latched = true := h.pulse_latched _

theorem Hall.implausibleCounted_reels (h : Hall) (st : StandAddr) : (h.implausibleCounted st).reels = h.reels :=
  Hall.still_field (h.pulse_still _) Hall.reels fun _ => rfl

theorem Hall.implausibleSample_eq (hs : h.stand st = some s) : h.implausibleSample st arm ref =
    if 2 ≤ s.implausible then (h.implausibleCounted st).failSensor st arm ref else h.implausibleCounted st := by
  show (if ((h.implausibleCounted st).stand st).any fun s => decide (3 ≤ s.implausible) then _ else _) = _
  rw [Hall.implausibleCounted_stand hs]
  have third : (3 ≤ s.implausible + 1) = (2 ≤ s.implausible) := propext (by omega)
  simp only [Option.any_some, decide_eq_true_eq, third]
  rfl

/-- The third implausible sample begins estimate mode (R123). -/
theorem Hall.failSensor_enters (hs : h.stand st = some s) (hr : h.reel ref = some r) (on : r.onArm st arm = true)
    (he : r.estimate = false) :
    let t := h.failSensor st arm ref
    tget t.reels ref.index = some { r with estimate := true } ∧ (t.fault (standFault .sensorFailed st)).active = true ∧
      (∃ y, t.stand st = some y ∧ y.implausible = 0 ∧ (y.arm arm).carry = 0) ∧
      t.fault (standFault .diameterImplausible st) = h.fault (standFault .diameterImplausible st) := by
  intro t
  have raised : (h.raise (standFault .sensorFailed st)).still = h.still := Hall.raise_still h rfl
  have reels := Hall.still_field raised Hall.reels fun _ => rfl
  have stands := Hall.still_field raised Hall.stands fun _ => rfl
  have ht : t = (({ h.raise (standFault .sensorFailed st) with reels := tput h.reels ref.index { r with estimate := true } } :
      Hall).modArm st arm fun a => { a with carry := 0 }).modStand st fun s => { s with implausible := 0 } := by
    show (((h.raise _).askEnterEstimate st arm ref).1.modArm st arm _).modStand st _ = _
    rw [Hall.askEnterEstimate_taken (r := r) (by rwa [Hall.reel, reels]) on he, reels]
  clear_value t
  subst ht
  refine ⟨by simp [Hall.modArm], h.raise_active _, ?_, Hall.raise_fault_ne (FaultKey.num_ne_of_kind (by simp [standFault, faultCode]))⟩
  have hs : tget h.stands (standKey st) = some s := hs
  refine ⟨{ s.modArm arm fun a => { a with carry := 0 } with implausible := 0 }, ?_, rfl, ?_⟩
  · simp [Hall.stand, Hall.modArm, stands, hs]
  · cases arm <;> rfl

/-- What an implausible sample makes of the stand and its reel, the third of them and those before it (R121, R123). -/
theorem Hall.implausibleSample_counts (hs : h.stand st = some s) (hr : h.reel ref = some r) (on : r.onArm st arm = true)
    (he : r.estimate = false) :
    let t := h.implausibleSample st arm ref
    (t.fault ⟨.diameterImplausible, .stand st⟩).latched = true ∧ t.editions = h.editions ∧ t.unassigned = h.unassigned ∧
      (s.implausible < 2 → t.reels = h.reels ∧ (t.stand st).map (·.implausible) = some (s.implausible + 1)) ∧
      (2 ≤ s.implausible → tget t.reels ref.index = some { r with estimate := true } ∧
        (t.fault ⟨.sensorFailed, .stand st⟩).active = true ∧
          ∃ y, t.stand st = some y ∧ y.implausible = 0 ∧ (y.arm arm).carry = 0) := by
  intro t
  obtain ⟨editions, unassigned⟩ := ((Hall.Handles.refl h).implausibleSample st arm ref : h.Handles false true t).books rfl
  have counted := Hall.implausibleCounted_stand hs
  have latched := h.implausibleCounted_latched st
  rcases Nat.lt_or_ge s.implausible 2 with few | third
  · have ht : t = h.implausibleCounted st := (Hall.implausibleSample_eq hs).trans (if_neg (by omega))
    rw [← ht] at counted latched
    exact ⟨latched, editions, unassigned, fun _ => ⟨by rw [ht, Hall.implausibleCounted_reels], by rw [counted]; rfl⟩, by omega⟩
  · have ht : t = (h.implausibleCounted st).failSensor st arm ref := (Hall.implausibleSample_eq hs).trans (if_pos third)
    obtain ⟨reel, failed, stand, same⟩ := Hall.failSensor_enters counted
      (by rwa [Hall.reel, Hall.implausibleCounted_reels]) on he
    rw [← ht] at reel failed stand same
    refine ⟨?_, editions, unassigned, by omega, fun _ => ⟨reel, failed, stand⟩⟩
    exact (congrArg FaultEntry.latched same).trans latched

/-- What an accepted sample makes of the stand's count and of the books (R122, R189). -/
theorem Hall.takeSample_books (hs : h.stand st = some s) (hr : h.reel ref = some r) (on : r.onArm st arm = true) (he : r.estimate = false)
    (hc : r.core ≤ d) (hd : d ≤ r.accepted) (step : r.accepted ≤ d + s.cfg.maxStep) :
    ((h.takeSample st arm ref r s.cfg.maxStep d).stand st).map (·.implausible) = some 0 ∧
      (h.takeSample st arm ref r s.cfg.maxStep d).editions =
        (h.bookPrinted st.line (h.reelLength r r.accepted - h.reelLength r d) r.width r.grade).editions ∧
      (h.takeSample st arm ref r s.cfg.maxStep d).unassigned =
        (h.bookPrinted st.line (h.reelLength r r.accepted - h.reelLength r d) r.width r.grade).unassigned := by
  rw [Hall.takeSample_accepted hr on he hc hd step]
  generalize h.reelLength r r.accepted - h.reelLength r d = m
  have hg : ({ h with reels := tput h.reels ref.index (h.stepped r d) } : Hall).books = h.books := rfl
  have hgs : ({ h with reels := tput h.reels ref.index (h.stepped r d) } : Hall).stand st = some s := hs
  generalize ({ h with reels := tput h.reels ref.index (h.stepped r d) } : Hall) = g at hg hgs ⊢
  obtain ⟨-, -, editions, unassigned⟩ := Hall.books_eq_iff.mp (Hall.bookPrinted_books hg st.line m r.width r.grade)
  have booked : (g.bookPrinted st.line m r.width r.grade).stand st = some s := by
    rw [Hall.stand, Hall.bookPrinted_stands]; exact hgs
  generalize g.bookPrinted st.line m r.width r.grade = b at editions unassigned booked ⊢
  have reset : (b.modStand st fun s => { s with implausible := 0 }).stand st = some { s with implausible := 0 } := by
    have booked : tget b.stands (standKey st) = some s := booked
    simp [Hall.stand, booked]
  have noBooks : (b.modStand st fun s => { s with implausible := 0 }).editions = b.editions ∧
      (b.modStand st fun s => { s with implausible := 0 }).unassigned = b.unassigned := ⟨rfl, rfl⟩
  generalize (b.modStand st fun s => { s with implausible := 0 }) = c at reset noBooks ⊢
  obtain ⟨tested, tested'⟩ := Hall.diameterTests_books c st
  obtain ⟨z, hz, zero, -⟩ := Hall.diameterTests_stand reset
  refine ⟨?_, ?_, ?_⟩
  · have pushed : (Hall.push (.callTest st) (c.diameterTests st)).stand st = some z := by simpa [Hall.stand] using hz
    rw [pushed]; exact congrArg some zero
  · rw [Hall.push_editions, tested, noBooks.1, editions]
  · rw [Hall.push_unassigned, tested', noBooks.2, unassigned]

end

/-! ### Estimate mode: its end (R21) -/

/-- The root that a length of paper is estimated by holds no more paper than that length (R8). -/
theorem lengthOf_estimateDiameter (cal core remaining : Nat) : lengthOf cal core (estimateDiameter cal core remaining) ≤ remaining := by
  set d := estimateDiameter cal core remaining with hd
  have root : d * d ≤ core * core + remaining * (4096 * cal) / 3217 := isqrt_sq_le _
  rcases Nat.lt_or_ge core d with hlt | hge
  · have area : (d * d - core * core) * 3217 ≤ remaining * (4096 * cal) :=
      (Nat.mul_le_mul_right _ (by omega)).trans (Nat.div_mul_le_self _ 3217)
    rw [lengthOf_of_lt hlt, sq, sq]
    exact Nat.div_le_of_le_mul (by rwa [Nat.mul_comm (4096 * cal)])
  · rw [lengthOf_eq_zero hge]; exact Nat.zero_le _

theorem Hall.leaveEstimate_of_not (h : Hall) {r : Reel} (he : r.estimate = false) : h.leaveEstimate r = (r, 0) := by
  simp [Hall.leaveEstimate, he]

theorem Hall.leaveEstimate_of (h : Hall) {r : Reel} (he : r.estimate = true) :
    h.leaveEstimate r =
      let d := estimateDiameter (h.gradeOf r).caliper r.core r.remaining
      let left := lengthOf (h.gradeOf r).caliper r.core d
      ({ r with estimate := false, accepted := d, remaining := left, consumed := r.consumed + (r.remaining - left) },
        r.remaining - left) := by
  simp [Hall.leaveEstimate, he, Hall.reelLength]

/-! ### Reels that leave an arm (R21, R33) -/

/-- A reel that is not STORED, before or after, is put with its place (R20). -/
theorem Hall.custody_reel {h : Hall} {ref : ReelRef} {r r' : Reel} : tget (h.custody ref r r').reels ref.index = some r' := by
  unfold Hall.custody; split <;> simp

section
variable {h : Hall} {st : StandAddr} {arm : ArmName} {ref : ReelRef} {r : Reel}

theorem Hall.askUnload_taken (v : Nat) (hr : h.reel ref = some r) (on : r.onArm st arm = true) :
    h.askUnload st arm v ref =
      (h.custody ref r { (h.leaveEstimate r).1 with state := .inTransit, loc := .vehicle v }, some (h.leaveEstimate r).2) :=
  Hall.askCustody_taken hr on _ _ _ _

theorem Hall.askArmMismatch_taken (hr : h.reel ref = some r) (on : r.onArm st arm = true) :
    h.askArmMismatch st arm ref =
      (h.custody ref r { (h.leaveEstimate r).1.quarantine .armMismatch with loc := .nowhere }, some (h.leaveEstimate r).2) :=
  Hall.askCustody_taken hr on _ _ _ _

theorem Hall.askEject_taken (hr : h.reel ref = some r) (on : r.onArm st arm = true) :
    h.askEject st arm ref =
      (h.custody ref r { r with state := .spent, loc := .nowhere, estimate := false }, some r.remaining) :=
  Hall.askCustody_taken hr on _ _ _ _

/-- The record of a reel after its strip (R2). -/
def Hall.stripped (h : Hall) (r : Reel) (depth : Nat) : Reel :=
  { r with
    strip := h.reelLength r r.d0 - h.reelLength r (strippedDiameter r.core r.d0 depth)
    accepted := strippedDiameter r.core r.d0 depth
    remaining := h.reelLength r (strippedDiameter r.core r.d0 depth), stripped := true }

theorem Hall.askStrip_taken (depth : Nat) (hr : h.reel ref = some r) (on : r.onArm st arm = true) (new : r.stripped = false) :
    h.askStrip st arm ref depth =
      ({ h with reels := tput h.reels ref.index (h.stripped r depth) }, some (h.stripped r depth).strip) := by
  have notStored : r.state ≠ .stored := by rw [(Reel.onArm_iff.mp on).1]; decide
  unfold Hall.askStrip
  rw [Hall.askCustody_taken hr (by simp [on, new])]
  exact congrArg (·, _) (Hall.putReel_of_not_stored (Hall.Follows.reel_get hr) notStored notStored)

end

/-! ### Stubs and strips are white waste (R2, R158, R190) -/

theorem Hall.Handles.books_eq {a b : Hall} (x : a.Handles true true b) : b.books = a.books := by
  obtain ⟨editions, unassigned⟩ := x.books rfl
  have grades : b.grades = a.grades := by have e := congrArg Hall.grades x.setting; exact e
  exact Hall.books_eq_iff.mpr ⟨x.counts rfl, grades, editions, unassigned⟩

section
variable {h : Hall} {st : StandAddr} {s : Stand} {arm : ArmName} {ref : ReelRef} {r : Reel}

theorem Hall.eject_books (hs : h.stand st = some s) (href : (s.arm arm).reel = some ref) (hr : h.reel ref = some r)
    (on : r.onArm st arm = true) : (h.eject st arm).books = (h.bookWhite st.line r.remaining r.width r.grade).books := by
  have emptied : ((h.askEject st arm ref).1.emptyArm st arm).books = h.books :=
    (((Hall.Handles.refl h).askEject st arm ref).emptyArm st arm).books_eq
  have ejected : h.eject st arm = (((h.askEject st arm ref).1.emptyArm st arm).bookWhite st.line r.remaining r.width r.grade).lower
      (standFault .cutFailed st) := by
    simp [Hall.eject, hs, href, hr, Hall.askEject_taken hr on]
  rw [ejected, ((Hall.Handles.refl _).lower _).books_eq, Hall.bookWhite_books emptied]

theorem Hall.stripReel_taken (hs : h.stand st = some s) (href : (s.arm arm).reel = some ref) (hr : h.reel ref = some r)
    (on : r.onArm st arm = true) (new : r.stripped = false) {l : Line} (hl : h.line st.line = some l) :
    h.stripReel st arm = ({ h with reels := tput h.reels ref.index (h.stripped r l.cfg.stripDepth) } : Hall).bookWhite st.line
      (h.stripped r l.cfg.stripDepth).strip r.width r.grade := by
  simp [Hall.stripReel, hs, href, hr, hl, new, Hall.askStrip_taken _ hr on new]

theorem Hall.stripReel_of_stripped (hs : h.stand st = some s) (href : (s.arm arm).reel = some ref) (hr : h.reel ref = some r)
    (old : r.stripped = true) : h.stripReel st arm = h := by
  simp [Hall.stripReel, hs, href, hr, old]

theorem Hall.stripReel_books (hs : h.stand st = some s) (href : (s.arm arm).reel = some ref) (hr : h.reel ref = some r)
    (on : r.onArm st arm = true) (new : r.stripped = false) {l : Line} (hl : h.line st.line = some l) :
    (h.stripReel st arm).books = (h.bookWhite st.line
      (h.reelLength r r.d0 - h.reelLength r (strippedDiameter r.core r.d0 l.cfg.stripDepth)) r.width r.grade).books := by
  rw [Hall.stripReel_taken hs href hr on new hl]
  exact Hall.bookWhite_books (a := { h with reels := tput h.reels ref.index (h.stripped r l.cfg.stripDepth) }) (b := h) rfl _ _ _ _

end

/-! ### The sum of strip, consumed and remaining length (R2, R3) -/

/-- The lengths of a reel together: its strip, what was consumed and what remains. -/
def Reel.sum (r : Reel) : Nat := r.strip + r.consumed + r.remaining

/-- A request that is refused leaves the reel; one that is made leaves `q`. -/
theorem Hall.askCustody_reel {h : Hall} {ref : ReelRef} {r q : Reel} (hr : h.reel ref = some r) {ok : Reel → Bool} {c : Custody}
    {b : Block} {make : Reel → Hall → Hall} {metres : Reel → Nat}
    (hq : tget (h.askCustody ref c b ok make metres).1.reels ref.index = some q) :
    q = r ∨ ok r = true ∧ tget (make r h).reels ref.index = some q := by
  cases hok : ok r with
  | true => rw [Hall.askCustody_taken hr hok] at hq; exact .inr ⟨rfl, hq⟩
  | false =>
    rw [Hall.askCustody_refused hr hok, Hall.still_field (Hall.refuseCustody_still h ref c b) Hall.reels (fun _ => rfl),
      Hall.Follows.reel_get hr] at hq
    exact .inl (Option.some.inj hq).symm

section
variable {h : Hall} {st : StandAddr} {arm : ArmName} {ref : ReelRef} {r q : Reel}

theorem Hall.leaveEstimate_sum (h : Hall) (r : Reel) : (h.leaveEstimate r).1.sum = r.sum := by
  cases he : r.estimate with
  | false => rw [Hall.leaveEstimate_of_not h he]
  | true =>
    have left := lengthOf_estimateDiameter (h.gradeOf r).caliper r.core r.remaining
    rw [Hall.leaveEstimate_of h he]
    simp only [Reel.sum]
    omega

theorem Hall.askDiameterStep_sum {d : Nat} (hr : h.reel ref = some r) (rem : r.remaining = h.reelLength r r.accepted)
    (hq : tget (h.askDiameterStep st arm ref d).1.reels ref.index = some q) : q.sum = r.sum := by
  rcases Hall.askCustody_reel hr hq with rfl | ⟨ok, hq⟩
  · rfl
  · have below : d ≤ r.accepted := by simp at ok; exact ok.1.2
    have shorter : h.reelLength r d ≤ h.reelLength r r.accepted := lengthOf_mono below
    rw [Hall.putReel_reels, tget_tput_same] at hq
    obtain rfl := Option.some.inj hq
    simp only [Reel.sum]
    omega

theorem Hall.askEstimateStep_sum {m : Nat} (hr : h.reel ref = some r)
    (hq : tget (h.askEstimateStep st arm ref m).1.reels ref.index = some q) : q.sum = r.sum := by
  rcases Hall.askCustody_reel hr hq with rfl | ⟨-, hq⟩
  · rfl
  · rw [Hall.putReel_reels, tget_tput_same] at hq
    obtain rfl := Option.some.inj hq
    simp only [Reel.sum]
    omega

theorem strippedDiameter_le {core d0 depth : Nat} (h : core ≤ d0) : strippedDiameter core d0 depth ≤ d0 :=
  Nat.max_le.mpr ⟨h, Nat.sub_le _ _⟩

theorem lengthOf_strippedDiameter (cal core d0 depth : Nat) :
    lengthOf cal core (strippedDiameter core d0 depth) ≤ lengthOf cal core d0 := by
  rcases Nat.le_total core d0 with h | h
  · exact lengthOf_mono (strippedDiameter_le h)
  · rw [lengthOf_eq_zero (dia := strippedDiameter core d0 depth) (by unfold strippedDiameter; omega)]; exact Nat.zero_le _

theorem Hall.askStrip_sum {depth : Nat} (hr : h.reel ref = some r) (initial : r.initial = h.reelLength r r.d0)
    (unused : r.consumed = 0) (hsum : r.sum = r.initial)
    (hq : tget (h.askStrip st arm ref depth).1.reels ref.index = some q) : q.sum = q.initial := by
  rcases Hall.askCustody_reel hr hq with rfl | ⟨-, hq⟩
  · exact hsum
  · have shorter : h.reelLength r (strippedDiameter r.core r.d0 depth) ≤ h.reelLength r r.d0 := lengthOf_strippedDiameter _ _ _ _
    rw [Hall.putReel_reels, tget_tput_same] at hq
    obtain rfl := Option.some.inj hq
    simp only [Reel.sum]
    omega

end

/-! ### Bookings of paper (R5, R188 to R190) -/

section
variable {h : Hall} {n : Nat}

theorem Hall.book_open {slot : Nat} {e : Edition} (ho : h.openOn n = some (slot, e)) (f : Edition → Edition) (t : Totals → Totals) :
    h.book n f t = { h with editions := tput h.editions slot (f e) } := by simp [Hall.book, ho]

theorem Hall.book_none (ho : h.openOn n = none) (f : Edition → Edition) (t : Totals → Totals) :
    h.book n f t = h.modTotals n t := by simp [Hall.book, ho]

end

/-- Settles O46, each clause by the rule of its request, its step or its booking. -/
theorem estimatesAndPaperAreBooked : Obligations.EstimatesAndPaperAreBooked := by
  refine ⟨fun h => ⟨rfl, fun _ => rfl⟩, fun h speed dt st s arm ref r hs run href hr => ?_,
    fun h st s arm ref r d hs hr state loc he => ?_, fun h r => ?_, fun h st arm ref r v hr state loc => ?_,
    fun h st arm ref r hr => ?_, fun h n m w g => ?_⟩
  · exact ⟨fun mode state he hst loc =>
        Hall.estimateStep_books hs run href hr mode state he (Reel.onArm_iff.mpr ⟨hst, loc⟩),
      Hall.estimateStep_none hs run href hr⟩
  · have on : r.onArm st arm = true := Reel.onArm_iff.mpr ⟨state, loc⟩
    refine ⟨Hall.takeSample_books hs hr on he, Hall.takeSample_disregarded, fun out => ?_⟩
    rw [Hall.takeSample_implausible out]
    obtain ⟨latched, editions, unassigned, few, third⟩ := Hall.implausibleSample_counts hs hr on he
    simp only [Hall.push_editions, Hall.push_unassigned, Hall.push_reels, Hall.fault, Hall.stand, Hall.push_stands,
      Hall.push_faults]
    exact ⟨latched, editions, unassigned, few, third⟩
  · exact ⟨Hall.leaveEstimate_of_not h, fun he =>
      ⟨lengthOf_estimateDiameter _ _ _, Hall.leaveEstimate_of h he⟩⟩
  · have on : r.onArm st arm = true := Reel.onArm_iff.mpr ⟨state, loc⟩
    rw [Hall.askUnload_taken v hr on, Hall.askArmMismatch_taken hr on]
    refine ⟨rfl, rfl, Hall.custody_reel, Hall.custody_reel, fun s hs href => ?_⟩
    obtain ⟨-, -, editions, unassigned⟩ := Hall.books_eq_iff.mp (Hall.eject_books hs href hr on)
    refine ⟨editions, unassigned, fun l hl => ⟨fun new => ?_, Hall.stripReel_of_stripped hs href hr⟩⟩
    obtain ⟨-, -, editions, unassigned⟩ := Hall.books_eq_iff.mp (Hall.stripReel_books hs href hr on new hl)
    exact ⟨editions, unassigned⟩
  · exact ⟨h.leaveEstimate_sum r, fun d q => Hall.askDiameterStep_sum hr, fun m q => Hall.askEstimateStep_sum hr,
      fun depth q => Hall.askStrip_sum hr⟩
  · refine ⟨?_, fun hm slot e ho => ?_, fun hm ho => ?_⟩
    · rintro rfl; exact ⟨rfl, rfl⟩
    · simp only [Hall.bookPrinted, Hall.bookWhite, if_neg hm, Hall.book_open ho]
      exact ⟨rfl, rfl⟩
    · simp only [Hall.bookPrinted, Hall.bookWhite, if_neg hm, Hall.book_none ho]
      exact ⟨rfl, rfl⟩

end Sys2Proof.Machine
end

section
/-! PROOF. Answers of a stand to a LOAD handover, and the preparation of its arms (R2, R34, R130 to R140). -/

-- One theorem after another, as in the laws: elaborated all at once they ask for more threads than the check has room for.
set_option Elab.async false

namespace Sys2Proof.Machine

/-! ### An event without further consequences leaves the stands -/

/-- The hall but what forming a ceiling may change. -/
def Hall.calm (h : Hall) : Hall := { h.still with missions := [] }

theorem Hall.calm_of_still {a b : Hall} (e : a.still = b.still) : a.calm = b.calm :=
  congrArg (fun h : Hall => { h with missions := [] }) e

theorem Hall.foldl_calm {β : Type} {f : Hall → β → Hall} (hf : ∀ g x, (f g x).calm = g.calm) (h : Hall) (l : List β) :
    (l.foldl f h).calm = h.calm := by
  induction l generalizing h with
  | nil => rfl
  | cons x l ih => rw [List.foldl_cons, ih, hf]

section
variable (h : Hall)

theorem Hall.setUrgent_calm (on : Bool) (st : StandAddr) : (h.setUrgent on st).calm = h.calm := by
  unfold Hall.setUrgent; split <;> rfl

theorem Hall.setActive_still {k : FaultKey} (hk : stopsFleet k.kind = false) (on : Bool) : (h.setActive k on).still = h.still := by
  cases on with
  | true => exact Hall.raise_still h hk
  | false => exact Hall.lower_still h k

theorem Hall.takeConstraining_calm (n : Nat) (l : List (StandAddr × Nat)) : (h.takeConstraining n l).calm = h.calm := by
  unfold Hall.takeConstraining; split
  · dsimp only
    rw [Hall.foldl_calm fun g st => Hall.calm_of_still (g.setActive_still rfl _), Hall.foldl_calm fun g st => g.setUrgent_calm _ st,
      Hall.foldl_calm fun g st => g.setUrgent_calm _ st]
    rfl
  · rfl

theorem Hall.formCeiling_calm (n : Nat) : (h.formCeiling n).calm = h.calm := by
  unfold Hall.formCeiling; split
  · dsimp only; split
    · exact (Hall.calm_of_still (Hall.sendCeiling_still _ n)).trans (h.takeConstraining_calm n _)
    · exact h.takeConstraining_calm n _
  · rfl

theorem Hall.formCeilings_stands : h.formCeilings.stands = h.stands := by
  have calm : h.formCeilings.calm = { h.calm with ceilings := [] } :=
    Hall.foldl_calm (fun g n => g.formCeiling_calm n) { h with ceilings := [] } h.ceilings
  have e := congrArg Hall.stands calm
  exact e

theorem Hall.settle_of_agenda_nil (none : h.agenda = []) (fuel : Nat) : h.settle fuel = h := by
  cases fuel with
  | zero => rfl
  | succ fuel => rw [Hall.settle, none]

/-- Where no job is due, the end of an event leaves the stands (log 4). -/
theorem Hall.finish_stand (none : h.agenda = []) (st : StandAddr) : h.finish.stand st = h.stand st := by
  rw [Hall.stand, Hall.finish, Hall.settle_of_agenda_nil h none, Hall.formCeilings_stands]; rfl

end

/-! ### Arm events that are taken -/

/-- An ARM EVENT of a configured stand that fits its frame is taken (R140, R214). -/
theorem Hall.armEvent_taken {f : Frame} {st : StandAddr} (hf : f.ok 16) (hl : st.line = f.link) (h1 : 1 ≤ st.stand) (h8 : st.stand ≤ 8)
    {h : Hall} {x : Stand} (hx : h.stand st = some x) (take : Stand → Hall → Hall) :
    h.armEvent f st take = (take x (h.lineHeard st.line)).finish := by
  unfold Hall.armEvent
  rw [Hall.lineFrame_taken (length := armEventLength) hf (frameFits_of hl h1 h8), ← hl, Hall.lineHeard_stand, hx]

theorem State.armEvent_taken {f : Frame} {st : StandAddr} (hf : f.ok 16) (hl : st.line = f.link) (h1 : 1 ≤ st.stand)
    (h8 : st.stand ≤ 8) {s : State} {x : Stand} (hx : s.hall.stand st = some x) {take : Stand → Hall → Hall} {g : Hall}
    (taken : take x (s.hall.lineHeard st.line) = g) :
    (Host.Outcome.next { s with hall := s.hall.armEvent f st take } : Host.Outcome State Fault Refusal) =
      .next { s with hall := g.finish } := by
  rw [Hall.armEvent_taken hf hl h1 h8 hx, taken]

/-! ### Handover records and arms -/

theorem tget_stands_of {h : Hall} {st : StandAddr} {x : Stand} (hx : h.stand st = some x) : tget h.stands (standKey st) = some x := hx

section
variable {h : Hall} {st : StandAddr} {x : Stand}

theorem Hall.modHandover_stand (hx : h.stand st = some x) (f : Handover → Handover) :
    (h.modHandover st f).stand st = some { x with handover := x.handover.map f } := by
  simp [Hall.modHandover, Hall.stand, tget_stands_of hx]

theorem Hall.modArm_stand (hx : h.stand st = some x) (arm : ArmName) (f : Arm → Arm) :
    (h.modArm st arm f).stand st = some (x.modArm arm f) := by
  simp [Hall.modArm, Hall.stand, tget_stands_of hx]

theorem Hall.changeArm_stand (hx : h.stand st = some x) (arm : ArmName) (f : Arm → Arm) :
    (h.changeArm st arm f).stand st = some (x.modArm arm f) := by
  have eased := Hall.still_field ((h.modArm st arm f).easeOverdue_still st) (fun g => g.stand st) fun _ => rfl
  rw [← Hall.modArm_stand hx arm f, ← eased]
  simp [Hall.changeArm, Hall.stand]

@[simp] theorem Hall.changeArm_agenda (h : Hall) (st : StandAddr) (arm : ArmName) (f : Arm → Arm) :
    (h.changeArm st arm f).agenda = h.agenda := by
  have eased := Hall.still_field ((h.modArm st arm f).easeOverdue_still st) Hall.agenda fun _ => rfl
  simp [Hall.changeArm, eased]

@[simp] theorem Hall.modHandover_agenda (h : Hall) (st : StandAddr) (f : Handover → Handover) :
    (h.modHandover st f).agenda = h.agenda := by simp [Hall.modHandover]

theorem Stand.modArm_handover (s : Stand) (arm : ArmName) (f : Arm → Arm) (y : Option Handover) :
    ({ s with handover := y } : Stand).modArm arm f = { s.modArm arm f with handover := y } := by cases arm <;> rfl

theorem Stand.handover_modArm (s : Stand) (arm : ArmName) (f : Arm → Arm) : (s.modArm arm f).handover = s.handover := by
  cases arm <;> rfl

/-- The record of a handover and that of an arm change apart from one another. -/
theorem Hall.modHandover_modArm (h : Hall) (st : StandAddr) (f : Handover → Handover) (arm : ArmName) (g : Arm → Arm) :
    (h.modHandover st f).modArm st arm g = (h.modArm st arm g).modHandover st f := by
  have stands : tmod (tmod h.stands (standKey st) fun s => { s with handover := s.handover.map f }) (standKey st)
      (fun s => s.modArm arm g) = tmod (tmod h.stands (standKey st) fun s => s.modArm arm g) (standKey st)
      fun s => { s with handover := s.handover.map f } := by
    rw [tmod_tmod, tmod_tmod]
    congr 1; funext s
    rw [Stand.modArm_handover, Stand.handover_modArm]
  unfold Hall.modHandover Hall.modArm Hall.modStand Hall.oweCeiling
  dsimp only
  split <;> rw [← stands]

end

/-! ### Directives -/

section
variable (h : Hall) (v : Nat) (k : DirKind)

@[simp] theorem Hall.direct_agenda : (h.direct v k).agenda = h.agenda := by
  unfold Hall.direct; dsimp only; split
  · split <;> rfl
  · rfl

@[simp] theorem Hall.direct_stands : (h.direct v k).stands = h.stands := by
  unfold Hall.direct; dsimp only; split
  · split <;> rfl
  · rfl

/-- Without all-stop a directive is sent (R92). -/
theorem Hall.direct_sent {h : Hall} (run : h.allStop = false) : ∃ seq n, Sent.directive seq v ⟨n, k⟩ ∈ (h.direct v k).sent := by
  have issued : h.direct v k = h.issue v k := by simp [Hall.direct, run]
  rw [issued]
  exact ⟨_, _, List.mem_append_right _ (List.mem_singleton_self _)⟩

end

/-! ### READY, LOAD_OK, LOAD_WAIT (R130, R131) -/

section
variable {s : State} {f : Frame} {st : StandAddr} {arm : ArmName} {x : Stand} {y : Handover}

theorem Stand.asked_of (hy : x.handover = some y) (load : y.kind = .load) (unanswered : y.phase ≠ .granted) : x.asked = some y := by
  simp [Stand.asked, hy, load, unanswered]

theorem Hall.requestLoad_taken {h : Hall} (hx : h.stand st = some x) (hy : x.handover = some y) (load : y.kind = .load)
    (waits : y.phase = .waiting) (mode : x.mode = .normal ∨ x.mode = .starved) :
    h.requestLoad st = (h.modHandover st fun z => { z with phase := .asked }).sendLoad st y := by
  simp [Hall.requestLoad, hx, hy, load, waits, mode]

theorem Hall.handover_of {h : Hall} {z : Stand} (hz : h.stand st = some z) : h.handover st = z.handover := by
  simp [Hall.handover, hz]

/-- The halls of LOAD_OK: consequences of the arm's becoming LOADING. -/
theorem Hall.loadOk_follows (h : Hall) (st : StandAddr) (y : Handover) :
    (h.modArm st y.arm fun a => { a with state := .loading }).Follows (h.loadOk st y) := by
  have granted := (Hall.Follows.refl (h.modArm st y.arm fun a => { a with state := .loading })).modHandover st
    fun z => { z with phase := .granted }
  rw [← Hall.modHandover_modArm] at granted
  exact ((granted.easeOverdue st).oweCeiling st.line).direct _ _

section
variable (hf : f.ok 16) (hl : st.line = f.link) (h1 : 1 ≤ st.stand) (h8 : st.stand ≤ 8) (hx : s.hall.stand st = some x)
include hf hl h1 h8 hx

theorem exec_ready_taken (hy : x.handover = some y) (load : y.kind = .load) (waits : y.phase = .waiting)
    (mode : x.mode = .normal ∨ x.mode = .starved) :
    ∃ t, exec (.ready f st arm) s = .next t ∧ s.Becomes t (s.hall.lineHeard st.line) ∧
      (∃ seq, Sent.line st.line seq (.loadRequest st y.arm y.reel.id) ∈ t.hall.sent) ∧
      (s.hall.agenda = [] → (t.hall.handover st).map (·.phase) = some .asked) := by
  have hx' : (s.hall.lineHeard st.line).stand st = some x := by rwa [Hall.lineHeard_stand]
  have asked := Hall.requestLoad_taken hx' hy load waits mode
  set g := s.hall.lineHeard st.line with hg
  have request : ∃ seq, Sent.line st.line seq (.loadRequest st y.arm y.reel.id) ∈ (g.requestLoad st).sent := by
    rw [asked]; exact ⟨_, List.mem_append_right _ (List.mem_singleton_self _)⟩
  refine ⟨{ s with hall := (g.requestLoad st).finish }, ?_, ?_, ?_, fun idle => ?_⟩
  · exact State.armEvent_taken hf hl h1 h8 hx rfl
  · exact State.becomes_of_steps ((Hall.Follows.refl g).requestLoad st).toSteps
  · exact request.imp fun seq sent => (Hall.finish_trace _).sent.subset sent
  · have none : (g.requestLoad st).agenda = [] := by rw [asked]; simpa [Hall.sendLoad, hg] using idle
    have stand : (g.requestLoad st).finish.stand st = some { x with handover := x.handover.map fun z => { z with phase := .asked } } := by
      rw [Hall.finish_stand _ none, asked, ← Hall.modHandover_stand hx']; rfl
    rw [Hall.handover_of stand, hy]; rfl

theorem exec_loadOk_taken (hy : x.handover = some y) (load : y.kind = .load) (unanswered : y.phase ≠ .granted)
    (empty : (x.arm y.arm).state = .empty) :
    ∃ t, exec (.loadOk f st arm) s = .next t ∧ s.Becomes t { s.hall.lineHeard st.line with
        stands := tmod s.hall.stands (standKey st) fun z => z.modArm y.arm fun a => { a with state := .loading } } ∧
      (s.hall.allStop = false → ∃ seq n, Sent.directive seq y.vehicle ⟨n, .transfer st y.arm y.reel.id⟩ ∈ t.hall.sent) ∧
      (s.hall.agenda = [] → (t.hall.handover st).map (·.phase) = some .granted ∧
        ∃ z, t.hall.stand st = some z ∧ (z.arm y.arm).state = .loading) := by
  have hx' : (s.hall.lineHeard st.line).stand st = some x := by rwa [Hall.lineHeard_stand]
  set g := s.hall.lineHeard st.line with hg
  have follows := g.loadOk_follows st y
  refine ⟨{ s with hall := (g.loadOk st y).finish }, ?_, ?_, fun run => ?_, fun idle => ?_⟩
  · refine State.armEvent_taken hf hl h1 h8 hx ?_
    rw [Stand.asked_of hy load unanswered]
    exact if_pos empty
  · rw [← Hall.lineHeard_stands s.hall st.line]
    exact State.becomes_of_steps follows.toSteps
  · have run' : ((g.modHandover st fun z => { z with phase := .granted }).changeArm st y.arm
        fun a => { a with state := .loading }).allStop = false := by
      have granted := (Hall.Follows.refl (g.modArm st y.arm fun a => { a with state := .loading })).modHandover st
        fun z => { z with phase := .granted }
      rw [← Hall.modHandover_modArm] at granted
      have same := ((granted.easeOverdue st).oweCeiling st.line).trace.field Hall.allStop fun _ => rfl
      exact same.trans (by simpa [hg] using run)
    obtain ⟨seq, n, sent⟩ := Hall.direct_sent y.vehicle (.transfer st y.arm y.reel.id) run'
    exact ⟨seq, n, (Hall.finish_trace _).sent.subset sent⟩
  · have none : (g.loadOk st y).agenda = [] := by simpa [Hall.loadOk, hg] using idle
    have stand : (g.loadOk st y).finish.stand st = some (({ x with handover := x.handover.map fun z => { z with phase := .granted } } :
        Stand).modArm y.arm fun a => { a with state := .loading }) := by
      rw [Hall.finish_stand _ none, ← Hall.changeArm_stand (Hall.modHandover_stand hx' _)]
      simp [Hall.loadOk, Hall.stand]
    refine ⟨?_, _, stand, ?_⟩
    · rw [Hall.handover_of stand, Stand.handover_modArm, hy]; rfl
    · rw [Stand.arm_modArm, if_pos rfl]

theorem exec_loadWait_taken (hy : x.handover = some y) (load : y.kind = .load) (unanswered : y.phase ≠ .granted) :
    ∃ t, exec (.loadWait f st arm) s = .next t ∧ s.Becomes t (s.hall.lineHeard st.line) ∧
      (s.hall.agenda = [] → (t.hall.handover st).map (·.phase) = some .waiting) := by
  have hx' : (s.hall.lineHeard st.line).stand st = some x := by rwa [Hall.lineHeard_stand]
  set g := s.hall.lineHeard st.line with hg
  refine ⟨{ s with hall := (g.modHandover st fun z => { z with phase := .waiting }).finish }, ?_, ?_, fun idle => ?_⟩
  · refine State.armEvent_taken hf hl h1 h8 hx ?_
    rw [Stand.asked_of hy load unanswered]
  · exact State.becomes_of_steps ((Hall.Follows.refl g).modHandover st _).toSteps
  · have stand : (g.modHandover st fun z => { z with phase := .waiting }).finish.stand st =
        some { x with handover := x.handover.map fun z => { z with phase := .waiting } } := by
      rw [Hall.finish_stand _ (by simpa [hg] using idle), Hall.modHandover_stand hx']
    rw [Hall.handover_of stand, hy]; rfl

end

end

/-! ### PREP_START and PREPARED (R2, R137, R140) -/

section
variable {s : State} {f : Frame} {st : StandAddr} {arm : ArmName} {x : Stand}

/-- An event that finds an arm in another state is an ARM_MISMATCH and changes nothing more (R140). -/
theorem State.becomes_mismatch (s : State) (st : StandAddr) :
    s.Becomes { s with hall := ((s.hall.lineHeard st.line).mismatch st).finish }
      ((s.hall.lineHeard st.line).pulse ⟨.armMismatch, .stand st⟩) :=
  State.becomes_of_steps (Hall.Follows.refl _).toSteps

theorem Hall.changeArm_follows (h : Hall) (st : StandAddr) (arm : ArmName) (f : Arm → Arm) :
    (h.modArm st arm f).Follows (h.changeArm st arm f) := ((Hall.Follows.refl _).easeOverdue st).oweCeiling st.line

/-- The hall of an arm that is PREPARED, before its reel is stripped (R137). -/
def Hall.preparedArm (st : StandAddr) (arm : ArmName) (h : Hall) : Hall :=
  (h.changeArm st arm fun a => { a with state := .prepared }).endPrep st

theorem Hall.preparedArm_follows (h : Hall) (st : StandAddr) (arm : ArmName) :
    (h.modArm st arm fun a => { a with state := .prepared }).Follows (h.preparedArm st arm) := (h.changeArm_follows st arm _).endPrep st

theorem Hall.preparedArm_stand {h : Hall} (hx : h.stand st = some x) (arm : ArmName) :
    (h.preparedArm st arm).stand st = some (x.modArm arm fun a => { a with state := .prepared }) :=
  (Hall.still_field (Hall.endPrep_still _ st) (fun g => g.stand st) fun _ => rfl).trans (Hall.changeArm_stand hx arm _)

@[simp] theorem Hall.preparedArm_reels (h : Hall) (st : StandAddr) (arm : ArmName) : (h.preparedArm st arm).reels = h.reels := by
  have eased := Hall.still_field ((h.modArm st arm fun a => { a with state := .prepared }).easeOverdue_still st) Hall.reels fun _ => rfl
  refine (Hall.still_field (Hall.endPrep_still _ st) Hall.reels fun _ => rfl).trans ?_
  simp [Hall.changeArm, eased]

theorem Hall.becomePrepared_eq (h : Hall) (st : StandAddr) (arm : ArmName) :
    h.becomePrepared st arm = ((h.preparedArm st arm).stripReel st arm).push (.spliceTest st) := rfl

/-! The configuration of the lines, which the hearing of a line leaves. -/

/-- The configurations of the lines. -/
def Hall.lineCfgs (h : Hall) : Table LineCfg := tview Line.cfg h.lines

theorem Hall.line_cfg {a b : Hall} (e : a.lineCfgs = b.lineCfgs) (n : Nat) : (a.line n).map (·.cfg) = (b.line n).map (·.cfg) := by
  rw [Hall.line, Hall.line, ← tget_tview Line.cfg, ← tget_tview Line.cfg]
  exact congrArg (tget · n) e

theorem Hall.lineCfgs_of_lines {a b : Hall} (e : a.lines = b.lines) : a.lineCfgs = b.lineCfgs := by rw [Hall.lineCfgs, e, Hall.lineCfgs]

theorem Hall.modLine_lineCfgs (h : Hall) (n : Nat) {f : Line → Line} (hf : ∀ l, (f l).cfg = l.cfg) :
    (h.modLine n f).lineCfgs = h.lineCfgs := tview_tmod Line.cfg _ _ _ fun l _ => hf l

section
variable (h : Hall) (n : Nat)

theorem Hall.lower_lines (k : FaultKey) : (h.lower k).lines = h.lines := by
  unfold Hall.lower; split
  · simp
  · rfl

theorem Hall.sendPanel_lines : (h.sendPanel n).lines = h.lines := by unfold Hall.sendPanel; split <;> simp

theorem Hall.noteCeiling_lines : (h.noteCeiling n).lines = h.lines := by unfold Hall.noteCeiling; split <;> simp

theorem Hall.resendHold_lines : (h.resendHold n).lines = h.lines := by unfold Hall.resendHold; split <;> simp

theorem Hall.sendCeiling_lineCfgs : (h.sendCeiling n).lineCfgs = h.lineCfgs := by
  unfold Hall.sendCeiling; split
  · exact (Hall.lineCfgs_of_lines (Hall.noteCeiling_lines _ n)).trans (h.modLine_lineCfgs n fun _ => rfl)
  · rfl

theorem Hall.greet_lineCfgs : (h.greet n).lineCfgs = h.lineCfgs := by
  have settled := h.modLine_lineCfgs n (f := fun l => { l with oweCeiling := false, oweHold := false }) fun _ => rfl
  unfold Hall.greet; split
  · dsimp only; split <;> split
    · exact (Hall.lineCfgs_of_lines (Hall.resendHold_lines _ n)).trans ((Hall.sendCeiling_lineCfgs _ n).trans settled)
    · exact (Hall.lineCfgs_of_lines (Hall.resendHold_lines _ n)).trans settled
    · exact (Hall.sendCeiling_lineCfgs _ n).trans settled
    · exact settled
  · rfl

theorem Hall.linkReturns_lineCfgs : (h.linkReturns n).lineCfgs = h.lineCfgs := by
  have resent (g : Hall) (st : StandAddr) : (match g.handover st with
      | some x => if x.kind = HandoverKind.load ∧ x.phase = Phase.asked then g.sendLine n (.loadRequest st x.arm x.reel.id) else g
      | none => g).lines = g.lines := by
    split
    · split <;> rfl
    · rfl
  refine (Hall.lineCfgs_of_lines (Hall.foldl_lines _ resent _)).trans ?_
  refine (Hall.lineCfgs_of_lines (Hall.sendPanel_lines _ n)).trans ?_
  exact (Hall.modLine_lineCfgs _ n (f := fun l => { l with lastStatus := none, oweCeiling := true, oweHold := true }) fun _ => rfl).trans
    (Hall.lineCfgs_of_lines (h.lower_lines _))

theorem Hall.lineHeard_lineCfgs : (h.lineHeard n).lineCfgs = h.lineCfgs := by
  have heard := h.modLine_lineCfgs n (f := fun l => { l with silence := some (h.timebase + Config.silenceTicks) }) fun _ => rfl
  unfold Hall.lineHeard; split
  · dsimp only; split
    · exact (Hall.greet_lineCfgs _ n).trans ((Hall.linkReturns_lineCfgs _ n).trans heard)
    · exact (Hall.greet_lineCfgs _ n).trans heard
  · rfl

end

/-- The line of a stand whose arm is PREPARED keeps its configuration. -/
theorem Hall.preparedArm_line {h : Hall} {n : Nat} {l : Line} (hl : h.line n = some l) (st : StandAddr) (arm : ArmName) :
    ∃ k, (h.preparedArm st arm).line n = some k ∧ k.cfg = l.cfg := by
  have fixed : ((h.preparedArm st arm).line n).map Line.fixed = (h.line n).map Line.fixed :=
    (h.preparedArm_follows st arm).trace.lines n
  rw [hl] at fixed
  obtain ⟨k, hk, same⟩ := Option.map_eq_some_iff.mp fixed
  have cfg := congrArg Line.cfg same
  exact ⟨k, hk, cfg⟩

section
variable (hf : f.ok 16) (hl : st.line = f.link) (h1 : 1 ≤ st.stand) (h8 : st.stand ≤ 8) (hx : s.hall.stand st = some x)
include hf hl h1 h8 hx

theorem exec_prepStart_taken (loaded : (x.arm arm).state = .loaded) :
    ∃ t, exec (.prepStart f st arm) s = .next t ∧ s.Becomes t { s.hall.lineHeard st.line with
      stands := tmod s.hall.stands (standKey st) fun z => z.modArm arm fun a => { a with state := .preparing } } := by
  refine ⟨_, State.armEvent_taken hf hl h1 h8 hx (if_pos loaded), ?_⟩
  rw [← Hall.lineHeard_stands s.hall st.line]
  exact State.becomes_of_steps (Hall.changeArm_follows _ st arm _).toSteps

theorem exec_prepStart_mismatch (other : (x.arm arm).state ≠ .loaded) :
    ∃ t, exec (.prepStart f st arm) s = .next t ∧
      s.Becomes t ((s.hall.lineHeard st.line).pulse ⟨.armMismatch, .stand st⟩) :=
  ⟨_, State.armEvent_taken hf hl h1 h8 hx (if_neg other), s.becomes_mismatch st⟩

theorem exec_prepared_mismatch (loaded : (x.arm arm).state ≠ .loaded) (preparing : (x.arm arm).state ≠ .preparing) :
    ∃ t, exec (.prepared f st arm) s = .next t ∧
      s.Becomes t ((s.hall.lineHeard st.line).pulse ⟨.armMismatch, .stand st⟩) :=
  ⟨_, State.armEvent_taken hf hl h1 h8 hx (if_neg (not_or.mpr ⟨loaded, preparing⟩)), s.becomes_mismatch st⟩

theorem exec_prepared (ready : (x.arm arm).state = .loaded ∨ (x.arm arm).state = .preparing) :
    exec (.prepared f st arm) s = .next { s with hall := ((s.hall.lineHeard st.line).becomePrepared st arm).finish } :=
  State.armEvent_taken hf hl h1 h8 hx (if_pos ready)

/-- PREPARED of a reel that has been stripped (R137). -/
theorem exec_prepared_stripped (ready : (x.arm arm).state = .loaded ∨ (x.arm arm).state = .preparing) {ref : ReelRef} {r : Reel}
    (href : (x.arm arm).reel = some ref) (hr : s.hall.reel ref = some r) (old : r.stripped = true) :
    ∃ t, exec (.prepared f st arm) s = .next t ∧ s.Becomes t { s.hall.lineHeard st.line with
      stands := tmod s.hall.stands (standKey st) fun z => z.modArm arm fun a => { a with state := .prepared } } := by
  refine ⟨_, exec_prepared hf hl h1 h8 hx ready, ?_⟩
  set g := s.hall.lineHeard st.line with hg
  have hx' : g.stand st = some x := by rwa [hg, Hall.lineHeard_stand]
  have href' : ((x.modArm arm fun a => { a with state := .prepared }).arm arm).reel = some ref := by
    rw [Stand.arm_modArm, if_pos rfl]; exact href
  have whole : (g.preparedArm st arm).stripReel st arm = g.preparedArm st arm :=
    Hall.stripReel_of_stripped (Hall.preparedArm_stand hx' arm) href' (by simpa [Hall.reel, hg] using hr) old
  rw [Hall.becomePrepared_eq, whole, ← Hall.lineHeard_stands s.hall st.line]
  exact State.becomes_of_steps ((g.preparedArm_follows st arm).push _).toSteps

/-- PREPARED of a reel at its first preparation, which strips it (R2, R137). -/
theorem exec_prepared_strips (ready : (x.arm arm).state = .loaded ∨ (x.arm arm).state = .preparing) {ref : ReelRef} {r : Reel} {l : Line}
    (href : (x.arm arm).reel = some ref) (hr : s.hall.reel ref = some r) (hline : s.hall.line st.line = some l)
    (new : r.stripped = false) (on : r.onArm st arm = true) :
    let d := strippedDiameter r.core r.d0 l.cfg.stripDepth
    ∃ t, exec (.prepared f st arm) s = .next t ∧ t = { s with hall := t.hall } ∧
      (tget t.hall.reels ref.index).map Reel.fixed = some ({ r with
        strip := s.hall.reelLength r r.d0 - s.hall.reelLength r d, accepted := d, remaining := s.hall.reelLength r d
        stripped := true } : Reel).fixed ∧
      (∃ z, t.hall.stand st = some z ∧ (z.arm arm).state = .prepared ∧ (z.arm arm).reel = some ref) ∧
      t.hall.setting = (s.hall.lineHeard st.line).setting := by
  intro d
  set g := s.hall.lineHeard st.line with hg
  have hx' : (g.preparedArm st arm).stand st = some (x.modArm arm fun a => { a with state := .prepared }) :=
    Hall.preparedArm_stand (by rwa [hg, Hall.lineHeard_stand]) arm
  have armed : (x.modArm arm fun a => { a with state := .prepared }).arm arm = { x.arm arm with state := .prepared } := by
    rw [Stand.arm_modArm, if_pos rfl]
  have hr' : (g.preparedArm st arm).reel ref = some r := by simpa [Hall.reel, hg] using hr
  have cfg : (g.line st.line).map (·.cfg) = some l.cfg := by
    rw [hg, Hall.line_cfg (s.hall.lineHeard_lineCfgs st.line), hline]; rfl
  obtain ⟨l', hline', cfg'⟩ := Option.map_eq_some_iff.mp cfg
  obtain ⟨k, hk, kcfg⟩ := Hall.preparedArm_line hline' st arm
  have lengths : ∀ d, (g.preparedArm st arm).reelLength r d = s.hall.reelLength r d := fun d => by
    have grades : (g.preparedArm st arm).grades = s.hall.grades :=
      ((g.preparedArm_follows st arm).trace.field Hall.grades fun _ => rfl).trans (s.hall.lineHeard_grades st.line)
    simp [Hall.reelLength, Hall.gradeOf, grades]
  have stripped := Hall.stripReel_taken hx' (by rw [armed]; exact href) hr' on new hk
  rw [kcfg, cfg'] at stripped
  have eq := g.becomePrepared_eq st arm
  rw [stripped] at eq
  have stand : (g.becomePrepared st arm).stand st = some (x.modArm arm fun a => { a with state := .prepared }) := by
    rw [eq, ← hx']
    simp [Hall.stand]
  refine ⟨_, exec_prepared hf hl h1 h8 hx ready, rfl, ?_, ?_, ?_⟩
  · rw [(Hall.finish_trace _).reels, eq]
    simp [Hall.stripped, lengths, d]
  · obtain ⟨z, hz, step⟩ := (Hall.finish_trace (g.becomePrepared st arm)).stands.get stand
    have kept := step.arm arm (by rw [armed]; simp)
    exact ⟨z, hz, by rw [kept, armed], by rw [kept, armed]; exact href⟩
  · exact (Hall.setting_of_ground (Hall.finish_trace _).same).trans ((Hall.Handles.refl (c := false) g).becomePrepared st arm).setting

end

end

/-! ### LOAD_REFUSE (R34, R55, R133) -/

section
variable (h : Hall)

@[simp] theorem Hall.handBack_reels (r : Reel) : (h.handBack r).reels = h.reels := by unfold Hall.handBack; split <;> simp

@[simp] theorem Hall.handBack_missions (r : Reel) : (h.handBack r).missions = h.missions := by unfold Hall.handBack; split <;> simp

@[simp] theorem Hall.abort_reels (v : Nat) (c : AbortCause) : (h.abort v c).reels = h.reels := by
  unfold Hall.abort; extract_lets; split
  · rfl
  · simp

@[simp] theorem Hall.abort_missions (v : Nat) (c : AbortCause) : (h.abort v c).missions = h.missions := by
  unfold Hall.abort; extract_lets; split
  · rfl
  · simp

@[simp] theorem Hall.reserve_missions (slot : Nat) (b : Option BayAddr) : (h.reserve slot b).missions = h.missions := by
  unfold Hall.reserve; split <;> simp

@[simp] theorem Hall.dropReservation_missions (slot : Nat) : (h.dropReservation slot).missions = h.missions := by
  unfold Hall.dropReservation; split <;> simp

end

/-- The record of a reel refused at the stand (R34). -/
def Reel.refusedAtStand (r : Reel) : Reel :=
  { r.quarantine .refusedAtStand with call := none, refusals := satAdd Config.max8 r.refusals 1 }

theorem Hall.askRefusedAtStand_taken {h : Hall} {v : Nat} {ref : ReelRef} {r : Reel} (hr : h.reel ref = some r)
    (aboard : r.aboard v = true) :
    (h.askRefusedAtStand v ref).1 = (h.putReel ref.index r.refusedAtStand).handBack r := by
  unfold Hall.askRefusedAtStand
  rw [Hall.askCustody_taken hr aboard]
  exact congrArg (Hall.handBack r) (if_pos rfl)

/-- The mission of a slot given the content of a RETURN (R55). -/
theorem Hall.contentOfReturn_mission {h : Hall} {slot : Nat} {m : Mission} {ref : ReelRef} (hm : h.mission slot = some m)
    (href : m.reel = some ref) (hold : Bool) :
    ∃ n, (h.contentOfReturn slot hold).mission slot = some n ∧ n.kind = .ret ∧ n.reel = m.reel := by
  have hm' : tget h.missions slot = some m := hm
  unfold Hall.contentOfReturn
  rw [hm]; dsimp only; rw [href]; dsimp only
  split
  · simp [Hall.mission, hm']
  · simp [Hall.mission, Hall.watchBays, hm']

/-- A mission that consequences find as a RETURN stays one, of the same reel. -/
theorem Hall.Steps.ret {a b : Hall} (x : a.Steps b) {slot : Nat} {m : Mission} (hm : a.mission slot = some m) (hk : m.kind = .ret) :
    ∃ n, b.mission slot = some n ∧ n.kind = .ret ∧ n.reel = m.reel := by
  obtain ⟨n, hn, step⟩ := x.missions slot m hm (by rw [hk]; simp)
  exact ⟨n, hn, step.kind.trans hk, step.reel⟩

/-- A mission turned into a RETURN (R55). -/
theorem Hall.turnToReturn_mission {h : Hall} {slot : Nat} {m : Mission} {ref : ReelRef} (hm : h.mission slot = some m)
    (href : m.reel = some ref) (hold : Bool) :
    ∃ n, (h.turnToReturn slot hold).mission slot = some n ∧ n.kind = .ret ∧ n.reel = m.reel := by
  have hm' : tget h.missions slot = some m := hm
  have carried : ((h.releaseReel m .feedPlanner).modMission slot fun m => { m with state := .carrying, route := none }).mission slot =
      some { m with state := .carrying, route := none } := by simp [Hall.mission, hm']
  unfold Hall.turnToReturn
  rw [hm]; dsimp only
  obtain ⟨n, hn, kind, reel⟩ := Hall.contentOfReturn_mission carried href hold
  generalize Hall.contentOfReturn slot hold _ = g at hn ⊢
  have ended : g.Follows (match g.handoverOf slot with
      | some (st, x) => if x.phase = Phase.granted then g else g.closeHandover st
      | none => g) := by
    split
    · split
      · exact .refl g
      · exact (Hall.Follows.refl g).closeHandover _
    · exact .refl g
  split
  · obtain ⟨o, ho, same⟩ := ((ended.push _).oweCeiling _).ret hn kind
    exact ⟨o, ho, same.1, same.2.trans reel⟩
  · obtain ⟨o, ho, same⟩ := ended.ret hn kind
    exact ⟨o, ho, same.1, same.2.trans reel⟩

section
variable {s : State} {f : Frame} {st : StandAddr} {arm : ArmName} {reason : Nat} {x : Stand} {y : Handover} {r : Reel} {m : Mission}

/-- LOAD_REFUSE of a reel aboard the vehicle: what it makes of the reel and of the mission (R34, R133). -/
theorem Hall.loadRefuse_finish {g : Hall} (hr : g.reel y.reel = some r) (aboard : r.aboard y.vehicle = true)
    (hm : g.mission y.mission = some m) (href : m.reel = some y.reel) :
    (tget (g.loadRefuse st reason y).finish.reels y.reel.index).map Reel.fixed = some r.refusedAtStand.fixed ∧
      ∃ n, (g.loadRefuse st reason y).finish.mission y.mission = some n ∧ n.kind = .ret ∧ n.reel = m.reel := by
  have refused := Hall.askRefusedAtStand_taken hr aboard
  set b := (g.askRefusedAtStand y.vehicle y.reel).1.abort y.vehicle .transferRefused with hb
  have reel : tget b.reels y.reel.index = some r.refusedAtStand := by simp [hb, refused]
  have mission : b.mission y.mission = some m := by rw [← hm]; simp [hb, refused, Hall.mission]
  have after : (b.turnToReturn y.mission true).Steps (g.loadRefuse st reason y).finish :=
    (((Hall.Follows.refl _).holdAborted y.vehicle).notify _).toSteps.finish
  constructor
  · rw [after.trace.reels, ((Hall.TraceBut.refl b).turnToReturn y.mission true).trace.reels]
    simp [reel]
  · obtain ⟨n, hn, kind, same⟩ := Hall.turnToReturn_mission mission href true
    obtain ⟨o, ho, kind', same'⟩ := after.ret hn kind
    exact ⟨o, ho, kind', same'.trans same⟩

theorem exec_loadRefuse_taken (hf : f.ok 16) (hl : st.line = f.link) (h1 : 1 ≤ st.stand) (h8 : st.stand ≤ 8)
    (hx : s.hall.stand st = some x) (hy : x.handover = some y) (load : y.kind = .load) (unanswered : y.phase ≠ .granted)
    (hr : s.hall.reel y.reel = some r) (aboard : r.aboard y.vehicle = true) (hm : s.hall.mission y.mission = some m)
    (href : m.reel = some y.reel) :
    ∃ t n, exec (.loadRefuse f st arm reason) s = .next t ∧ t = { s with hall := t.hall } ∧
      (tget t.hall.reels y.reel.index).map Reel.fixed = some r.refusedAtStand.fixed ∧
      tget t.hall.missions y.mission = some n ∧ n.kind = .ret ∧ n.reel = m.reel ∧
      t.hall.setting = (s.hall.lineHeard st.line).setting := by
  set g := s.hall.lineHeard st.line with hg
  obtain ⟨reel, n, mission, kind, same⟩ := Hall.loadRefuse_finish (g := g) (st := st) (reason := reason) (r := r) (m := m)
    (by rwa [hg, Hall.lineHeard_reel]) aboard (by simpa [hg, Hall.mission] using hm) href
  have setting : (g.loadRefuse st reason y).finish.setting = g.setting :=
    (Hall.setting_of_ground (Hall.finish_trace _).same).trans
      ((Hall.Handles.refl (c := true) (k := true) g).loadRefuse st reason y).setting
  refine ⟨_, n, State.armEvent_taken hf hl h1 h8 hx ?_, rfl, reel, mission, kind, same, setting⟩
  rw [Stand.asked_of hy load unanswered]

end

/-! ### The statement -/

/-- Settles O50, each clause by the rule of its event: the answers to a LOAD REQUEST, the refusal, and the preparation of an arm. -/
theorem loadAndPreparationFollowTheArm : Obligations.LoadAndPreparationFollowTheArm := by
  refine ⟨fun s f st arm x y hf hl h1 h8 hx hy load => ⟨?_, ?_, ?_⟩,
    fun s f st arm reason x y r m hf hl h1 h8 hx hy load unanswered hr loc state hm href => ?_,
    fun s f st arm x hf hl h1 h8 hx => ⟨?_, ?_, fun ref r ready href hr => ⟨?_, fun l hline new state loc => ?_⟩, ?_⟩⟩
  · exact exec_ready_taken hf hl h1 h8 hx hy load
  · exact exec_loadOk_taken hf hl h1 h8 hx hy load
  · exact exec_loadWait_taken hf hl h1 h8 hx hy load
  · exact exec_loadRefuse_taken hf hl h1 h8 hx hy load unanswered hr (by simp [Reel.aboard, loc, state]) hm href
  · exact exec_prepStart_taken hf hl h1 h8 hx
  · exact exec_prepStart_mismatch hf hl h1 h8 hx
  · exact exec_prepared_stripped hf hl h1 h8 hx ready href hr
  · exact exec_prepared_strips hf hl h1 h8 hx ready href hr hline new (Reel.onArm_iff.mpr ⟨state, loc⟩)
  · exact exec_prepared_mismatch hf hl h1 h8 hx

end Sys2Proof.Machine
end

section
/-! PROOF. The hold of a line, the supply timing of its stands, and its ceiling (R11 to R15, R160 to R162, R201, R202). -/

-- One theorem after another, as in the laws: elaborated all at once they ask for more threads than the check has room for.
set_option Elab.async false

namespace Sys2Proof.Machine

/-! ### Entries that hold a line (R201) -/

theorem subjectLine_iff {x : Subject} {n : Nat} :
    subjectLine x = some n ↔ x = .line n ∨ ∃ st : StandAddr, x = .stand st ∧ st.line = n := by
  cases x <;> simp [subjectLine]

theorem Hall.holdOnDegraded_iff {h : Hall} {n : Nat} :
    h.holdOnDegraded n = true ↔ ∃ c, h.count n = some c ∧ c.cfg.holdOnDegraded = true := by
  unfold Hall.holdOnDegraded; split <;> simp_all

theorem holdsLine_iff {d : Bool} {n : Nat} {k : FaultKey} {e : FaultEntry} : holdsLine d n k e = true ↔
    e.latched = true ∧ subjectLine k.subject = some n ∧
      (faultClass k.kind = .fatal ∨ faultClass k.kind = .degraded ∧ d = true) := by
  simp [holdsLine, and_assoc, and_comm (a := d = true)]

theorem Hall.mem_holding {h : Hall} {n : Nat} {k : FaultKey} : k ∈ h.holding n ↔ (h.line n).isSome ∧ ∃ p ∈ h.faults,
    p.2.1 = k ∧ p.2.2.latched = true ∧ (k.subject = .line n ∨ ∃ st : StandAddr, k.subject = .stand st ∧ st.line = n) ∧
      (faultClass k.kind = .fatal ∨ (faultClass k.kind = .degraded ∧ ∃ c, h.count n = some c ∧ c.cfg.holdOnDegraded = true)) := by
  unfold Hall.holding
  split
  · rename_i configured
    simp only [configured, true_and, List.mem_map, List.mem_filter, holdsLine_iff, subjectLine_iff, Hall.holdOnDegraded_iff]
    constructor
    · rintro ⟨p, ⟨hp, holds⟩, rfl⟩; exact ⟨p, hp, rfl, holds⟩
    · rintro ⟨p, hp, rfl, holds⟩; exact ⟨p, ⟨hp, holds⟩, rfl⟩
  · rename_i configured
    simp [configured]

theorem Hall.holdContent_eq (h : Hall) (n : Nat) :
    h.holdContent n = (h.holding n).head?.map fun k => ⟨(h.holding n).length, k⟩ := by
  unfold Hall.holdContent; split <;> simp [*]

/-! ### The hold of a line evaluated (R202) -/

/-- What a line's hold is evaluated from, with the holds last sent. -/
def Hall.holdSource (h : Hall) : Table Line × Table (FaultKey × FaultEntry) × Table LineCount × Table LineHold :=
  (h.lines, h.faults, h.counts, h.holds)

/-- The hold last sent of a line is the one its entries ask for. -/
def Hall.HoldRight (n : Nat) (h : Hall) : Prop := tget h.holds n = h.holdContent n

theorem Hall.holdContent_congr {a b : Hall} (hl : a.lines = b.lines) (hf : a.faults = b.faults) (hc : a.counts = b.counts) (n : Nat) :
    a.holdContent n = b.holdContent n := by
  have degraded : a.holdOnDegraded n = b.holdOnDegraded n := by simp only [Hall.holdOnDegraded, Hall.count, hc]
  have holding : a.holding n = b.holding n := by unfold Hall.holding Hall.line; rw [hl, hf, degraded]
  rw [Hall.holdContent, holding, Hall.holdContent]

theorem Hall.HoldRight.congr {a b : Hall} {n : Nat} (r : a.HoldRight n) (e : b.holdSource = a.holdSource) : b.HoldRight n := by
  simp only [Hall.holdSource, Prod.mk.injEq] at e
  obtain ⟨hl, hf, hc, hh⟩ := e
  rw [Hall.HoldRight, hh, Hall.holdContent_congr hl hf hc n]; exact r

/-- The hall with the hold of line `n` as its entries ask for. -/
def Hall.withHold (n : Nat) (h : Hall) : Hall :=
  { h with holds := match h.holdContent n with
      | some x => tput h.holds n x
      | none => tdel h.holds n }

theorem Hall.withHold_same {h : Hall} {n : Nat} (sorted : tsorted h.holds = true) :
    tget (h.withHold n).holds n = h.holdContent n := by
  unfold Hall.withHold; dsimp only; split
  · rename_i x hx; rw [tget_tput_same, hx]
  · rename_i hx; rw [tget_tdel_same sorted, hx]

theorem Hall.withHold_ne {h : Hall} {n j : Nat} (hj : j ≠ n) : tget (h.withHold n).holds j = tget h.holds j := by
  unfold Hall.withHold; dsimp only; split
  · exact tget_tput_ne _ _ hj
  · exact tget_tdel_ne _ hj

theorem Hall.evalHold_of_same {h : Hall} {n : Nat} (same : h.holdContent n = tget h.holds n) : h.evalHold n = h := if_pos same

theorem Hall.evalHold_of_ne {h : Hall} {n : Nat} (other : h.holdContent n ≠ tget h.holds n) :
    h.evalHold n = (((h.withHold n).sendHold n).notify (.lineHold n (h.holdContent n))) := if_neg other

section
variable (h : Hall) (n : Nat)

@[simp] theorem Hall.notify_holdSource (x : Notice) : (h.notify x).holdSource = h.holdSource := by unfold Hall.notify; split <;> rfl

@[simp] theorem Hall.sendHold_holdSource : (h.sendHold n).holdSource = h.holdSource := by unfold Hall.sendHold; split <;> rfl

theorem Hall.haltFleet_holdSource : h.haltFleet.holdSource = h.holdSource := by
  have one (g : Hall) (v : Nat) : (g.haltVehicle v).holdSource = g.holdSource := by
    unfold Hall.haltVehicle; dsimp only; split <;> rfl
  have all (l : List Nat) : ∀ g : Hall, (l.foldl Hall.haltVehicle g).holdSource = g.holdSource := by
    induction l with
    | nil => exact fun _ => rfl
    | cons v l ih => exact fun g => (ih _).trans (one g v)
  unfold Hall.haltFleet; split
  · rfl
  · exact all _ _

end

section
variable {h : Hall} {n : Nat}

theorem Hall.evalHold_holds (sorted : tsorted h.holds = true) (other : h.holdContent n ≠ tget h.holds n) :
    tget (h.evalHold n).holds n = h.holdContent n ∧ ∀ j, j ≠ n → tget (h.evalHold n).holds j = tget h.holds j := by
  have holds : (h.evalHold n).holds = (h.withHold n).holds := by
    have source : (h.evalHold n).holdSource = (h.withHold n).holdSource := by rw [Hall.evalHold_of_ne other]; simp
    exact congrArg (fun x => x.2.2.2) source
  rw [holds]
  exact ⟨Hall.withHold_same sorted, fun j hj => Hall.withHold_ne hj⟩

/-- The message that tells of a hold (R202). -/
def holdMessage : Option LineHold → LineMsg
  | some x => .hold x.count x.first
  | none => .release

theorem Hall.sendHold_sent (h : Hall) (n : Nat) :
    ∃ seq, (h.sendHold n).sent = h.sent ++ [.line n seq (holdMessage (tget h.holds n))] := by
  unfold Hall.sendHold; split <;> (rename_i hold; rw [hold]; exact ⟨_, rfl⟩)

theorem Hall.evalHold_sent (sorted : tsorted h.holds = true) (other : h.holdContent n ≠ tget h.holds n) :
    ∃ seq, (h.evalHold n).sent = h.sent ++ [.line n seq (holdMessage (h.holdContent n))] := by
  obtain ⟨seq, sent⟩ := (h.withHold n).sendHold_sent n
  rw [Hall.withHold_same sorted] at sent
  exact ⟨seq, by rw [Hall.evalHold_of_ne other, Hall.notify_sent, sent]; rfl⟩

theorem Hall.notify_room (room : h.notices.length < 64) (x : Notice) : (h.notify x).notices = h.notices ++ [⟨h.noticeSeq, x⟩] := by
  rw [Hall.notify, if_pos (show h.notices.length < Config.noticeSlots from room)]

theorem Hall.evalHold_notices (room : h.notices.length < 64) (other : h.holdContent n ≠ tget h.holds n) :
    (h.evalHold n).notices = h.notices ++ [⟨h.noticeSeq, .lineHold n (h.holdContent n)⟩] := by
  have notices : ((h.withHold n).sendHold n).notices = h.notices := by unfold Hall.sendHold; split <;> rfl
  have seq : ((h.withHold n).sendHold n).noticeSeq = h.noticeSeq := by unfold Hall.sendHold; split <;> rfl
  rw [Hall.evalHold_of_ne other, Hall.notify_room (by rw [notices]; exact room), notices, seq]

/-- An evaluation makes the hold right (R201). -/
theorem Hall.evalHold_right (sorted : tsorted h.holds = true) : (h.evalHold n).HoldRight n := by
  by_cases same : h.holdContent n = tget h.holds n
  · rw [Hall.evalHold_of_same same]; exact same.symm
  · have right : (h.withHold n).HoldRight n :=
      (Hall.withHold_same sorted).trans (Hall.holdContent_congr (a := h) (b := h.withHold n) rfl rfl rfl n)
    refine right.congr ?_
    rw [Hall.evalHold_of_ne same]; simp

theorem Hall.changeFault_right (sorted : tsorted h.holds = true) {k : FaultKey} (hk : subjectLine k.subject = some n)
    (c : FaultChange) (e : FaultEntry) : (h.changeFault k c e).HoldRight n := by
  have sorted' : tsorted ((h.setFault k e).notify (.fault k c e)).holds = true := by simpa [Hall.setFault] using sorted
  unfold Hall.changeFault Hall.evalSubject
  rw [hk]
  exact Hall.evalHold_right sorted'

theorem Hall.raise_right (sorted : tsorted h.holds = true) {k : FaultKey} (hk : subjectLine k.subject = some n)
    (inactive : (h.fault k).active = false) : (h.raise k).HoldRight n := by
  have changed := Hall.changeFault_right sorted hk .active ((h.fault k).activate h.clock)
  unfold Hall.raise
  rw [if_neg (by simp [inactive])]; dsimp only
  split
  · exact changed.congr (Hall.haltFleet_holdSource _)
  · exact changed

theorem Hall.lower_right (sorted : tsorted h.holds = true) {k : FaultKey} (hk : subjectLine k.subject = some n)
    (active : (h.fault k).active = true) : (h.lower k).HoldRight n := by
  rw [Hall.lower, if_pos active]
  exact Hall.changeFault_right sorted hk _ _

end

/-! ### Supply timing (R11 to R14) -/

theorem satSeconds_eq (n : Nat) : satSeconds n = min 65535 n := Nat.min_comm ..

theorem neededOf_eq (eta prep : Nat) : neededOf eta prep = min 65535 (max 10 (eta + prep)) := satSeconds_eq _

theorem Hall.leadTime_eq (h : Hall) (st : StandAddr) (s : Stand) (l : Line) (t : Nat) :
    h.leadTime st s l t = min 65535 (s.cfg.allowance + l.cfg.prepAllowance + h.queueEstimate st t) := satSeconds_eq _

section
variable {h : Hall} {st : StandAddr} {m : Mission} {q leg : Nat}

theorem Hall.etaOf_waiting (hm : m.state = .waiting) (hleg : h.legToSpur m st = some leg) :
    h.etaOf st m q = min 65535 (q + leg + h.params.pickTime + h.params.transferTime) := by
  simp [Hall.etaOf, satSeconds_eq, hm, hleg]

theorem Hall.etaOf_assigned {x : Route} (hm : m.state = .assigned) (hx : m.route = some x) (hleg : h.legToSpur m st = some leg) :
    h.etaOf st m q = min 65535 (h.timeLeft x + leg + h.params.pickTime + h.params.transferTime) := by
  simp [Hall.etaOf, satSeconds_eq, hm, hx, hleg]

theorem Hall.etaOf_carrying {x : Route} (hm : m.state = .carrying) (hx : m.route = some x) :
    h.etaOf st m q = min 65535 (h.timeLeft x + h.params.transferTime) := by
  simp [Hall.etaOf, satSeconds_eq, hm, hx]

theorem Hall.etaOf_handover (hm : m.state = .handover) : h.etaOf st m q = min 65535 h.params.transferTime := by
  simp [Hall.etaOf, satSeconds_eq, hm]

theorem Hall.etaOf_no_leg (hleg : h.legToSpur m st = none) (hm : m.state = .waiting ∨ m.state = .assigned) :
    h.etaOf st m q = 65535 := by
  rcases hm with hm | hm
  · simp [Hall.etaOf, hm, hleg, Config.maxSeconds]
  · unfold Hall.etaOf; rw [hm, hleg]
    cases m.route <;> rfl

end

section
variable {h : Hall} {st : StandAddr} {s : Stand} {l : Line} {t : Nat}

theorem Stand.nextArm_of_running {x : ArmName} (run : s.running = some x) : s.nextArm = some (s.arm x.other) := by
  simp [Stand.nextArm, Stand.standbyArm, Stand.standby, run]

theorem Arm.holdsNext_iff {a : Arm} : a.holdsNext = true ↔ a.state = .loaded ∨ a.state = .preparing ∨ a.state = .prepared := by
  simp [Arm.holdsNext]

/-- A reel on the next arm is there: its ETA is 0 (R13). -/
theorem Hall.eta_of_holds {a : Arm} (next : s.nextArm = some a) (holds : a.holdsNext = true) : h.eta st s t = some 0 := by
  simp [Hall.eta, next, holds]

/-- A reel still to come is awaited by the mission of the call (R13). -/
theorem Hall.eta_of_call (away : s.nextArm.any Arm.holdsNext = false) {c : Call} {slot : Nat} {m : Mission} (hc : s.call = some c)
    (hslot : c.mission = some slot) (hm : h.mission slot = some m) :
    h.eta st s t = some (h.etaOf st m (h.queueEstimate st t)) := by
  simp [Hall.eta, away, hc, hslot, hm]

/-- No needed time once the next reel is prepared (R14). -/
theorem Hall.needed_of_prepared {a : Arm} (next : s.nextArm = some a) (prepared : a.state = .prepared) : h.needed st s l t = none := by
  simp [Hall.needed, next, prepared]

theorem Hall.prepLeft_of_holds {a : Arm} (next : s.nextArm = some a) (holds : a.holdsNext = true) :
    h.prepLeft s l = prepRemaining l.cfg.prepAllowance h.clock a.loadedAt := by
  rw [Hall.prepLeft, next, Option.filter_some_pos holds]

theorem Hall.prepLeft_of_away (away : s.nextArm.any Arm.holdsNext = false) : h.prepLeft s l = l.cfg.prepAllowance := by
  have none : s.nextArm.filter Arm.holdsNext = none := by
    cases next : s.nextArm with
    | none => rfl
    | some a => exact Option.filter_some_neg (by simpa [next] using away)
  rw [Hall.prepLeft, none]

theorem Hall.needed_of_holds {a : Arm} (next : s.nextArm = some a) (holds : a.holdsNext = true) (raw : a.state ≠ .prepared) :
    h.needed st s l t = some (neededOf 0 (prepRemaining l.cfg.prepAllowance h.clock a.loadedAt)) := by
  simp [Hall.needed, Hall.prepLeft_of_holds next holds, Hall.eta_of_holds next holds, next, raw]

theorem Hall.needed_of_away (away : s.nextArm.any Arm.holdsNext = false) :
    h.needed st s l t = (h.eta st s t).map fun e => neededOf e l.cfg.prepAllowance := by
  have raw : (s.nextArm.any fun a => decide (a.state = .prepared)) = false := by
    cases next : s.nextArm with
    | none => rfl
    | some a =>
      have empty : ¬a.holdsNext = true := by simpa [next] using away
      simpa using fun prepared => empty (Arm.holdsNext_iff.mpr (.inr (.inr prepared)))
  simp [Hall.needed, raw, Hall.prepLeft_of_away away]

/-! ### Ceiling values (R15, R160) -/

theorem Stand.contributes_iff : s.contributes = true ↔ s.inService = true ∧ s.mode ≠ .outOfService ∧ s.mode ≠ .unknown ∧
    ((∃ c, s.call = some c ∧ (c.state = .allocated ∨ c.state = .dispatched)) ∨
      ∃ x, s.running = some x ∧ ((s.arm x.other).state = .loading ∨ (s.arm x.other).state = .loaded ∨
        (s.arm x.other).state = .preparing)) := by
  simp [Stand.contributes, Stand.standbyArm, Stand.standby, and_assoc, Option.any_eq_true]

theorem Hall.standValue_of {r : Reel} (hs : h.stand st = some s) (hl : h.line st.line = some l) (hr : h.runningReel st = some r) :
    h.standValue st = if s.contributes then (h.needed st s l (h.timeToSplice st r s.cfg.ds)).map fun need =>
      ceilingValue (h.runLength r s.cfg.ds) need l.cfg.crawl l.cfg.lineMax else none := by
  simp [Hall.standValue, hs, hl, hr]

end

theorem Hall.mem_lineValues {h : Hall} {n : Nat} {p : StandAddr × Nat} :
    p ∈ h.lineValues n ↔ p.1 ∈ h.standsOf n ∧ h.standValue p.1 = some p.2 := by
  obtain ⟨st, v⟩ := p
  simp only [Hall.lineValues, List.mem_filterMap, Option.map_eq_some_iff, Prod.mk.injEq]
  constructor
  · rintro ⟨x, hx, w, hw, rfl, rfl⟩; exact ⟨hx, hw⟩
  · rintro ⟨hst, hv⟩; exact ⟨st, hst, v, hv, rfl, rfl⟩

/-! ### The constraining set and STARVING (R160) -/

/-- A walk that makes an entry of each member active or not leaves the other entries. -/
theorem Hall.foldl_setActive_fault_ne {β : Type} (key : β → FaultKey) (on : β → Bool) {k : FaultKey} :
    ∀ {l : List β} {h : Hall}, (∀ x ∈ l, k.num ≠ (key x).num) →
      (l.foldl (fun h x => h.setActive (key x) (on x)) h).fault k = h.fault k
  | [], _, _ => rfl
  | x :: l, h, apart => by
    rw [List.foldl_cons, Hall.foldl_setActive_fault_ne key on fun y hy => apart y (List.mem_cons_of_mem _ hy)]
    exact Hall.setActive_fault_ne (apart x List.mem_cons_self) _

/-- A walk that makes the STARVING entry of each stand active or not makes that of a listed stand so. -/
theorem Hall.foldl_starving_active (on : StandAddr → Bool) {st : StandAddr} :
    ∀ {l : List StandAddr} {h : Hall}, h.Sound → st ∈ l →
      (∀ x ∈ l, x ≠ st → (standFault .starving st).num ≠ (standFault .starving x).num) →
      ((l.foldl (fun h x => h.setActive (standFault .starving x) (on x)) h).fault (standFault .starving st)).active = on st
  | x :: l, h, sound, mem, apart => by
    rw [List.foldl_cons]
    have apart' : ∀ y ∈ l, y ≠ st → (standFault .starving st).num ≠ (standFault .starving y).num :=
      fun y hy => apart y (List.mem_cons_of_mem _ hy)
    by_cases later : st ∈ l
    · exact Hall.foldl_starving_active on (((Hall.Handles.refl (c := true) (k := true) h).setActive _ _).sound _ sound) later apart'
    · obtain rfl : st = x := (List.mem_cons.mp mem).resolve_right later
      rw [Hall.foldl_setActive_fault_ne _ _ fun y hy => apart' y hy (by rintro rfl; exact later hy)]
      exact Hall.setActive_active sound.faults _ _

/-- The missions of stands that join or leave a constraining set change their class, and nothing else does (R95). -/
def Hall.setUrgents (on : Bool) (l : List StandAddr) (h : Hall) : Hall := l.foldl (Hall.setUrgent on) h

theorem Hall.setUrgents_follows {a b : Hall} (x : a.Follows b) (on : Bool) (l : List StandAddr) : a.Follows (b.setUrgents on l) :=
  x.foldl (fun h st => (Hall.Follows.refl h).setUrgent on st) l

theorem Hall.setUrgents_stands (h : Hall) (on : Bool) (l : List StandAddr) : (h.setUrgents on l).stands = h.stands := by
  induction l generalizing h with
  | nil => rfl
  | cons st l ih =>
    refine (ih _).trans ?_
    unfold Hall.setUrgent; split <;> rfl

theorem Hall.setUrgents_lines (h : Hall) (on : Bool) (l : List StandAddr) : (h.setUrgents on l).lines = h.lines :=
  Hall.foldl_lines h (fun g st => g.setUrgent_lines on st) l

/-- A new constraining set is kept with the line; then the STARVING entries of its stands are set (R160). -/
theorem Hall.takeConstraining_starving {h : Hall} {n : Nat} {l : Line} (hl : h.line n = some l) (values : List (StandAddr × Nat)) :
    ∃ g, h.Follows g ∧
      g.lines = (tmod h.lines n fun l' => { l' with constraining := values.filter fun p => decide (p.2 < l.cfg.lineMax) }) ∧
      h.takeConstraining n values = (h.standsOf n).foldl (fun h st => h.setActive (standFault .starving st)
        (values.any fun p => decide (p.1 = st ∧ p.2 = l.cfg.crawl))) g := by
  let now := values.filter fun p => decide (p.2 < l.cfg.lineMax)
  let kept := h.modLine n fun l' => { l' with constraining := now }
  let left := (l.constraining.map (·.1)).filter fun st => !now.any fun p => decide (p.1 = st)
  let joined := (now.map (·.1)).filter fun st => !l.constrains st
  let g := (kept.setUrgents false left).setUrgents true joined
  have stands : g.stands = h.stands := by
    simp only [g, Hall.setUrgents_stands]; rfl
  have lines : g.lines = kept.lines := by simp only [g, Hall.setUrgents_lines]
  have follows : h.Follows kept := (Hall.Follows.refl h).modLine n _ (fun _ => rfl) fun _ => rfl
  refine ⟨g, Hall.setUrgents_follows (Hall.setUrgents_follows follows _ _) _ _, lines, ?_⟩
  have listed : g.standsOf n = h.standsOf n := by rw [Hall.standsOf, stands, Hall.standsOf]
  rw [← listed, Hall.takeConstraining, hl]
  rfl

theorem Hall.takeConstraining_constraining {h : Hall} {n : Nat} {l : Line} (hl : h.line n = some l) (values : List (StandAddr × Nat)) :
    ((h.takeConstraining n values).line n).map (·.constraining) = some (values.filter fun p => decide (p.2 < l.cfg.lineMax)) := by
  have hl' : tget h.lines n = some l := hl
  obtain ⟨g, -, lines, taken⟩ := Hall.takeConstraining_starving hl values
  rw [Hall.line, taken, Hall.foldl_lines _ fun g st => g.setActive_lines _ _, lines, tget_tmod_same, hl']
  rfl

/-- Stands of one line of the layout have STARVING entries of their own (R196). -/
theorem starving_num_ne {x y : StandAddr} (hl : x.line = y.line) (h4 : x.line ≤ 4) (hx : x.stand ≤ 8) (hy : y.stand ≤ 8)
    (ne : x ≠ y) : (standFault .starving x).num ≠ (standFault .starving y).num := by
  have stand : x.stand ≠ y.stand := fun e => ne (by cases x; cases y; simp_all)
  have kx : standKey x = x.line * 16 + x.stand := if_pos ⟨h4, hx⟩
  have ky : standKey y = y.line * 16 + y.stand := if_pos ⟨hl ▸ h4, hy⟩
  simp only [standFault, FaultKey.num, subjectKey, kx, ky]
  omega

theorem Hall.takeConstraining_starving_active {h : Hall} {n : Nat} {l : Line} (hl : h.line n = some l) (values : List (StandAddr × Nat))
    (sound : h.Sound) (hn : n ≤ 4) (range : ∀ st ∈ h.standsOf n, st.stand ≤ 8) {st : StandAddr} (hst : st ∈ h.standsOf n) :
    ((h.takeConstraining n values).fault (standFault .starving st)).active = true ↔ (st, l.cfg.crawl) ∈ values := by
  have line : ∀ x ∈ h.standsOf n, x.line = n := fun x hx => by
    have kept := (List.mem_filter.mp hx).2
    simpa using kept
  obtain ⟨g, follows, -, taken⟩ := Hall.takeConstraining_starving hl values
  rw [taken, Hall.foldl_starving_active _ (follows.sound _ sound) hst fun x hx ne =>
    starving_num_ne ((line st hst).trans (line x hx).symm) ((line st hst).trans_le hn) (range st hst) (range x hx) ne.symm]
  simp only [List.any_eq_true, decide_eq_true_eq]
  constructor
  · rintro ⟨⟨x, v⟩, hp, rfl, rfl⟩; exact hp
  · exact fun hp => ⟨_, hp, rfl, rfl⟩

theorem Hall.setUrgent_missions {h : Hall} {st : StandAddr} {slot : Nat} {m : Mission} (hd : h.deliveryOf st = some (slot, m))
    (on : Bool) : (h.setUrgent on st).missions = tmod h.missions slot fun m => { m with cls := if on then .urgent else .deliver } := by
  unfold Hall.setUrgent; rw [hd]; rfl

/-! ### The ceiling sent (R161, R162) -/

/-- A lowest value of a list, and the first of several. -/
theorem lowestStand_none {l : List (StandAddr × Nat)} : lowestStand l = none ↔ l = [] := by
  cases l with
  | nil => simp [lowestStand]
  | cons p l =>
    unfold lowestStand; split
    · split <;> simp
    · simp

theorem lowestStand_some {p : StandAddr × Nat} : ∀ {l : List (StandAddr × Nat)}, lowestStand l = some p →
    ∃ pre post, l = pre ++ p :: post ∧ (∀ q ∈ pre, p.2 < q.2) ∧ ∀ q ∈ post, p.2 ≤ q.2
  | x :: l, h => by
    unfold lowestStand at h
    split at h
    · rename_i q hq
      obtain ⟨pre, post, rfl, before, after⟩ := lowestStand_some hq
      split at h
      · rename_i first
        obtain rfl := Option.some.inj h
        refine ⟨[], pre ++ q :: post, rfl, by simp, fun y hy => ?_⟩
        rcases List.mem_append.mp hy with hy | hy
        · exact first.trans (before y hy).le
        · rcases List.mem_cons.mp hy with rfl | hy
          · exact first
          · exact first.trans (after y hy)
      · rename_i later
        obtain rfl := Option.some.inj h
        refine ⟨x :: pre, post, rfl, fun y hy => ?_, after⟩
        rcases List.mem_cons.mp hy with rfl | hy
        · omega
        · exact before y hy
    · rename_i none
      obtain rfl := Option.some.inj h
      obtain rfl := lowestStand_none.mp none
      exact ⟨[], [], rfl, by simp, by simp⟩

section
variable {h : Hall} {n : Nat} {l : Line}

/-- The hall of a line whose ceiling has been sent, before the notice (R161). -/
def Hall.ceilingSent (n : Nat) (l : Line) (h : Hall) : Hall :=
  (h.modLine n fun l => { l with reduced := l.reduced || decide (l.ceiling < l.top) }).sendLine n (.ceiling l.ceiling)

theorem Hall.ceilingSent_line (hl : h.line n = some l) :
    (h.ceilingSent n l).line n = some { l with reduced := l.reduced || decide (l.ceiling < l.top) } := by
  have hl' : tget h.lines n = some l := hl
  simp [Hall.ceilingSent, Hall.line, hl']

theorem Hall.sendCeiling_eq (hl : h.line n = some l) : h.sendCeiling n = (h.ceilingSent n l).notify
    (.ceilingChanged n l.ceiling l.top (l.reduced || decide (l.ceiling < l.top)) l.byHost ((lowestStand l.constraining).map (·.1))) := by
  have noted : h.sendCeiling n = (h.ceilingSent n l).noteCeiling n := by unfold Hall.sendCeiling; rw [hl]; rfl
  rw [noted, Hall.noteCeiling, Hall.ceilingSent_line hl]
  rfl

theorem Hall.sendCeiling_line (hl : h.line n = some l) :
    (h.sendCeiling n).line n = some { l with reduced := l.reduced || decide (l.ceiling < l.top) } := by
  rw [Hall.sendCeiling_eq hl, Hall.line, Hall.notify_lines]
  exact Hall.ceilingSent_line hl

theorem Hall.sendCeiling_sent (hl : h.line n = some l) : ∃ seq, (h.sendCeiling n).sent = h.sent ++ [.line n seq (.ceiling l.ceiling)] :=
  ⟨_, by rw [Hall.sendCeiling_eq hl, Hall.notify_sent]; rfl⟩

theorem Hall.sendCeiling_notices (hl : h.line n = some l) (room : h.notices.length < 64) :
    (h.sendCeiling n).notices = h.notices ++ [⟨h.noticeSeq, .ceilingChanged n l.ceiling l.top
      (l.reduced || decide (l.ceiling < l.top)) l.byHost ((lowestStand l.constraining).map (·.1))⟩] := by
  rw [Hall.sendCeiling_eq hl, Hall.notify_room (h := h.ceilingSent n l) room]
  rfl

end

/-! ### The statement -/

section
variable {h : Hall} {st : StandAddr} {s : Stand} {l : Line} {r : Reel}

/-- Needed time and ETA with the reel of the standby arm, or its mission (R13, R14). -/
theorem Hall.needed_of_running {x : ArmName} {t : Nat} (run : s.running = some x) :
    let a := s.arm x.other
    (a.state = .prepared → h.eta st s t = some 0 ∧ h.needed st s l t = none) ∧
      ((a.state = .loaded ∨ a.state = .preparing) → h.eta st s t = some 0 ∧
        h.needed st s l t = some (neededOf 0 (prepRemaining l.cfg.prepAllowance h.clock a.loadedAt))) ∧
      (a.state ≠ .prepared → a.state ≠ .loaded → a.state ≠ .preparing → s.nextArm.any Arm.holdsNext = false) := by
  intro a
  have next := Stand.nextArm_of_running run
  refine ⟨fun prepared => ?_, fun waits => ?_, fun prepared loaded preparing => ?_⟩
  · exact ⟨Hall.eta_of_holds next (Arm.holdsNext_iff.mpr (.inr (.inr prepared))), Hall.needed_of_prepared next prepared⟩
  · have holds : a.holdsNext = true := Arm.holdsNext_iff.mpr (waits.imp_right .inl)
    exact ⟨Hall.eta_of_holds next holds, Hall.needed_of_holds next holds (by rcases waits with e | e <;> simp [a, e])⟩
  · rw [next, Option.any_some, Bool.eq_false_iff, ne_eq, Arm.holdsNext_iff]
    exact fun e => e.elim loaded fun e => e.elim preparing prepared

theorem Hall.running_of_runningReel (hs : h.stand st = some s) (hr : h.runningReel st = some r) : s.running ≠ none := by
  intro none
  simp [Hall.runningReel, hs, none] at hr

end

/-- Settles O47: the holds by their evaluation, supply timing by the cases of the next arm, STARVING and the ceiling by their walks. -/
theorem linesAreHeldAndConstrained : Obligations.LinesAreHeldAndConstrained := by
  refine ⟨fun h n => ⟨fun k => Hall.mem_holding, h.holdContent_eq n⟩,
    fun h n sorted => ⟨Hall.evalHold_of_same, fun other => ?_, ?_⟩,
    fun h st s l r hs hl hr => ?_, fun h n l hl => ⟨fun p => Hall.mem_lineValues, fun values => ⟨?_, ?_⟩, ?_, ?_⟩⟩
  · obtain ⟨same, others⟩ := Hall.evalHold_holds sorted other
    exact ⟨same, others, Hall.evalHold_sent sorted other, fun room => Hall.evalHold_notices room other⟩
  · intro k subject
    have hk := subjectLine_iff.mpr subject
    exact ⟨Hall.raise_right sorted hk, Hall.lower_right sorted hk, Hall.changeFault_right sorted hk _ _,
      Hall.changeFault_right sorted hk _ _⟩
  · intro time run queue
    have hq : queue = h.queueEstimate st time := (satSeconds_eq _).symm
    clear_value queue
    subst hq
    refine ⟨h.leadTime_eq st s l time, fun m leg hleg =>
      ⟨fun hm => Hall.etaOf_waiting hm hleg, fun x hx hm => Hall.etaOf_assigned hm hx hleg⟩,
      fun m x hx hm => Hall.etaOf_carrying hm hx, fun m => Hall.etaOf_handover, fun m hleg => Hall.etaOf_no_leg hleg, fun x run => ?_,
      fun none => absurd none (Hall.running_of_runningReel hs hr), fun counts => ?_, fun not => ?_⟩
    · obtain ⟨prepared, waits, away⟩ := Hall.needed_of_running (h := h) (st := st) (l := l) (t := time) run
      refine ⟨prepared, fun state => ?_, fun h1 h2 h3 => ⟨fun c slot m => Hall.eta_of_call (away h1 h2 h3), ?_⟩⟩
      · obtain ⟨eta, needed⟩ := waits state
        rw [neededOf_eq, Nat.zero_add] at needed
        exact ⟨eta, needed⟩
      · simp only [Hall.needed_of_away (away h1 h2 h3), neededOf_eq]
    · rw [Hall.standValue_of hs hl hr, if_pos (Stand.contributes_iff.mpr counts)]; rfl
    · rw [Hall.standValue_of hs hl hr, if_neg fun c => not (Stand.contributes_iff.mp c)]
  · exact Hall.takeConstraining_constraining hl values
  · exact fun sound _ hn range st => Hall.takeConstraining_starving_active hl values sound hn fun x hx => (range x hx).2
  · exact fun on st slot m hd => Hall.setUrgent_missions hd on
  · exact ⟨Hall.sendCeiling_line hl, Hall.sendCeiling_sent hl, lowestStand l.constraining, lowestStand_none,
      fun p => lowestStand_some, Hall.sendCeiling_notices hl⟩

end Sys2Proof.Machine
end

section
/-! PROOF. The reel register: what its queries tell, the grades, and how a reel is registered (O14, O25, O27). -/

-- One theorem after another, as in the laws: elaborated all at once they ask for more threads than the check has room for.
set_option Elab.async false

namespace Sys2Proof.Machine

theorem inRange_iff {lo hi n : Nat} : inRange lo hi n = true ↔ lo ≤ n ∧ n ≤ hi := by simp [inRange]

theorem optIn_iff {lo hi : Nat} {n : Option Nat} : optIn lo hi n = true ↔ ∀ x, n = some x → lo ≤ x ∧ x ≤ hi := by
  cases n <;> simp [optIn, inRange]

/-- Settles O14, by the branches of the two queries. -/
theorem reelQueriesTell : Obligations.ReelQueriesTell := by
  intro s q
  refine ⟨fun ok id => ?_, fun ok n => ?_, fun ok => ?_⟩
  · refine congrArg Host.Outcome.next ((State.request_taken ok s _).trans ?_)
    change State.reply _ _ _ _ _ = match s.hall.reelById id with | some (i, r) => _ | none => _
    cases hr : s.hall.reelById id <;> simp [Hall.tellReel, hr, Hall.tell, Hall.refuse]
  · refine congrArg Host.Outcome.next ((State.request_taken ok s _).trans ?_)
    cases hr : tget s.hall.reels n <;> simp [Hall.tellReel, hr, Hall.tell, Hall.refuse]
  · exact congrArg Host.Outcome.next (State.request_tells ok rfl)

/-- An accepted Set Grade stores the new grade, which the stock watch follows (R22, R23, R41). -/
theorem Hall.takeGrade_taken {h : Hall} {n : Nat} {name : List Byte} {caliper basis : Nat} {core hours threshold : Option Nat} {new : Grade}
    (hnew : newGrade (tget h.grades n) name caliper basis core hours threshold = new)
    (fits : (decide (n ≤ 15) && inRange 30 250 caliper && inRange 20 120 basis && optIn 70 160 core && optIn 0 72 hours &&
      optIn 0 255 threshold) = true)
    (kept : ∀ o, tget h.grades n = some o → h.gradeInUse n = true →
      o.caliper = new.caliper ∧ o.basis = new.basis ∧ o.core = new.core) :
    h.takeGrade false n name caliper basis core hours threshold =
      (({ h with grades := tput h.grades n new } : Hall).stockWatch n).accept .none := by
  have same : (h.gradeInUse n && (tget h.grades n).any fun o =>
      decide (o.caliper ≠ new.caliper ∨ o.basis ≠ new.basis ∨ o.core ≠ new.core)) = false := by
    cases ho : tget h.grades n with
    | none => simp
    | some o =>
      cases hu : h.gradeInUse n with
      | false => simp
      | true => simp [kept o ho hu]
  unfold Hall.takeGrade
  simp only [fits, hnew, same]
  rfl

/-- Settles O27: the checks of R22 and R23 pass, and what follows from the new table of grades is the stock watch. -/
theorem setGradeSetsFields : Obligations.SetGradeSetsFields := by
  intro s q n name caliper basis core hours threshold ok saving hn c1 c2 b1 b2 hcore hhours hthreshold used
  have fits : (decide (n ≤ 15) && inRange 30 250 caliper && inRange 20 120 basis && optIn 70 160 core && optIn 0 72 hours &&
      optIn 0 255 threshold) = true := by
    simpa [hn, inRange_iff, optIn_iff, c1, c2, b1, b2] using ⟨⟨hcore, hhours⟩, hthreshold⟩
  have taken := Hall.takeGrade_taken (h := s.hall) (name := name) rfl fits fun o ho hu => by
    simpa [newGrade, ho] using used o ho (by simpa [Hall.gradeInUse] using hu)
  refine ⟨_, rfl, State.request_accepts ok (by simpa [State.saving, saving] using taken) ?_⟩
  cases tget s.hall.grades n <;> exact ((Hall.Follows.refl _).stockWatch n).toSteps

/-! ### Requests that change more than consequences may -/

/-- A request answered by what the block makes of the hall `b`: its consequences end the event. -/
theorem State.request_finishes {q : Req} {kind : Nat} (h : q.ok kind) {s : State} {f : Hall → Answer} {b : Hall} {c : Content}
    (hf : f s.hall = b.accept c) :
    s.Answers (s.request q kind f) q kind .ok c ∧ (s.request q kind f).hall = b.finish := State.request_answers h hf

/-- A field of the hall that telling a fault or a notice leaves (see `Hall.still`). -/
theorem Hall.addReel_still (h : Hall) (i : Nat) (r : Reel) : (h.addReel i r).still = (h.putReel i r).still := by
  unfold Hall.addReel; dsimp only; split
  · exact Hall.raise_still _ rfl
  · rfl

@[simp] theorem Hall.addReel_reels (h : Hall) (i : Nat) (r : Reel) : (h.addReel i r).reels = tput h.reels i r :=
  (Hall.still_field (h.addReel_still i r) Hall.reels fun _ => rfl).trans (h.putReel_reels i r)

@[simp] theorem Hall.addReel_missions (h : Hall) (i : Nat) (r : Reel) : (h.addReel i r).missions = h.missions :=
  (Hall.still_field (h.addReel_still i r) Hall.missions fun _ => rfl).trans (h.putReel_missions i r)

/-! ### Missions made (R54, R95) -/

section
variable {h : Hall} {m : Mission} {slot : Nat}

@[simp] theorem Hall.enterMission_missions (h : Hall) (slot : Nat) (m : Mission) :
    (h.enterMission slot m).missions = tput h.missions slot m := by
  unfold Hall.enterMission; dsimp only; split <;> simp [Hall.watchBays]

/-- A mission whose reel no other names takes the lowest free slot (R95). -/
theorem Hall.createMission_made (free : lowestFree h.missions 48 = some slot) (new : m.reel.any h.named = false) :
    h.createMission m = (h.enterMission slot { m with created := h.clock }, some slot) := by
  unfold Hall.createMission
  rw [show lowestFree h.missions Config.missionSlots = some slot from free]
  simp [new]

/-- A full Mission Table takes no mission (R95). -/
theorem Hall.createMission_full (full : lowestFree h.missions 48 = none) : h.createMission m = (h, none) := by
  unfold Hall.createMission
  rw [show lowestFree h.missions Config.missionSlots = none from full]

/-- A mission with its bay takes the lowest free slot, and the bay is reserved for it (R54, R57, R95). -/
theorem Hall.createWithBay_made (free : lowestFree h.missions 48 = some slot) (new : m.reel.any h.named = false) (b : Option BayAddr) :
    h.createWithBay m b =
      ((h.enterMission slot { m with drop := b.map .bay, created := h.clock }).reserve slot b, some slot) := by
  unfold Hall.createWithBay
  rw [Hall.createMission_made (m := { m with drop := b.map .bay }) free new]

theorem Hall.createWithBay_full (full : lowestFree h.missions 48 = none) (b : Option BayAddr) : h.createWithBay m b = (h, none) := by
  unfold Hall.createWithBay
  rw [Hall.createMission_full full]

/-- A mission that is no DELIVER is in its slot after the consequences of the event, of the same kind and for the same reel and
pickup. -/
theorem Hall.Steps.missionKept {a b : Hall} (x : a.Steps b) (hm : a.mission slot = some m) (hk : m.kind ≠ .deliver) :
    ∃ n, b.mission slot = some n ∧ n.kind = m.kind ∧ n.reel = m.reel ∧ n.pickup = m.pickup := by
  obtain ⟨n, hn, y⟩ := x.missions slot m hm hk
  exact ⟨n, hn, y.kind, y.reel, y.pickup⟩

/-- The INTAKE mission of an AT_DOCK reel (R54). -/
theorem Hall.makeIntake_made {ref : ReelRef} {r : Reel} {d : Nat} (hr : h.reel ref = some r) (hd : r.loc = .dock d)
    (free : lowestFree h.missions 48 = some slot) (new : h.named ref = false) :
    (h.makeIntake ref).2 = some slot ∧ ∃ m, (h.makeIntake ref).1.mission slot = some m ∧ m.kind = .intake ∧ m.reel = some ref ∧
      m.pickup = some (.dock d) := by
  unfold Hall.makeIntake
  simp only [hr, hd]
  rw [Hall.createWithBay_made free (by simpa [intakeMission] using new)]
  exact ⟨rfl, _, by rw [Hall.mission, Hall.reserve_missions, Hall.enterMission_missions, tget_tput_same], rfl, rfl, rfl⟩

theorem Hall.makeIntake_full {ref : ReelRef} (full : lowestFree h.missions 48 = none) : (h.makeIntake ref).2 = none := by
  unfold Hall.makeIntake
  split
  · split
    · rw [Hall.createWithBay_full full]
    · rfl
  · rfl

end

/-! ### Where nothing is owed, the end of an event changes nothing (log 4) -/

theorem Hall.finish_of_nothing_owed {h : Hall} (jobs : h.agenda = []) (ceilings : h.ceilings = []) : h.finish = h := by
  rw [Hall.finish, Hall.settle_of_agenda_nil h jobs, Hall.formCeilings, ceilings]
  cases h; cases ceilings; rfl

/-! ### Register Reel (R24, R25) -/

section
variable {s : State} {q : Req} {id : ReelId} {grade width d0 : Nat} {core : Option Nat} {mass dock : Nat} {arrival : Option Nat}
  {i slot : Nat} {g : Grade}

/-- The record a registration makes before its mass check. -/
theorem Hall.takeRegister_taken {h : Hall} (wf : idWellFormed id = true) (new : h.reelById id = none)
    (free : lowestFree h.reels 1024 = some i) (hgrade : grade ≤ 15) (hg : tget h.grades grade = some g) (w1 : 300 ≤ width)
    (w2 : width ≤ 2400) (d1 : 200 ≤ d0) (d2 : d0 ≤ 1500) (hc : ∀ c, core = some c → 70 ≤ c ∧ c ≤ 160) (m1 : 1 ≤ mass)
    (m2 : mass ≤ 4000) (served : h.served (.dock dock) = true) :
    h.takeRegister id grade width d0 core mass dock arrival =
      h.registerReel i (newReel id grade width d0 (core.getD g.core) mass dock (arrival.getD h.clock) g) := by
  have fits : (inRange 300 2400 width && inRange 200 1500 d0 && optIn 70 160 core && inRange 1 4000 mass &&
      h.served (.dock dock)) = true := by
    simpa [inRange_iff, optIn_iff, w1, w2, d1, d2, m1, m2, served] using hc
  unfold Hall.takeRegister
  rw [show lowestFree h.reels Config.reelSlots = some i from free, if_pos hgrade, hg]
  simp only [wf, new, fits]
  rfl

/-- Whether a registration fails the mass check (R6). -/
theorem Hall.massPasses_newReel {h : Hall} (hg : tget h.grades grade = some g) (c arrival : Nat) :
    h.massPasses (newReel id grade width d0 c mass dock arrival g) =
      !decide (h.massTolerance < (max (lengthOf g.caliper c d0 * width * g.basis / 1000000) mass -
        min (lengthOf g.caliper c d0 * width * g.basis / 1000000) mass) * 100 / mass) := by
  have grade : h.gradeOf (newReel id grade width d0 c mass dock arrival g) = g := by simp [Hall.gradeOf, newReel, hg]
  unfold Hall.massPasses
  rw [grade, ← decide_not]
  exact decide_eq_decide.mpr not_lt.symm

/-- What the consequences of a registration leave of the register. -/
theorem Hall.addReel_kept {h b : Hall} {r : Reel} (x : (h.addReel i r).Steps b) :
    (∃ x, tget b.reels i = some x ∧ x.fixed = r.fixed) ∧
      (∀ j, j ≠ i → (tget b.reels j).map Reel.fixed = (tget h.reels j).map Reel.fixed) ∧ b.setting = h.setting := by
  have reels j := x.trace.reels j
  simp only [Hall.addReel_reels] at reels
  refine ⟨?_, fun j hj => by rw [reels, tget_tput_ne _ _ hj], ?_⟩
  · obtain ⟨y, hy, e⟩ := Option.map_eq_some_iff.mp ((reels i).trans (by rw [tget_tput_same]; rfl))
    exact ⟨y, hy, e⟩
  · exact (Hall.setting_of_ground x.same).trans (((Hall.Handles.refl (c := true) (k := true) h).addReel i r).setting)

/-- A record that is not STORED in a free slot owes no consequence. -/
theorem Hall.addReel_owes {h : Hall} {r : Reel} (free : tget h.reels i = none) (state : r.state ≠ .stored) :
    (h.addReel i r).agenda = h.agenda ∧ (h.addReel i r).ceilings = h.ceilings := by
  have put : h.putReel i r = { h with reels := tput h.reels i r } := by
    simp [Hall.putReel, free, state]
  have still := h.addReel_still i r
  rw [put] at still
  exact ⟨Hall.still_field still Hall.agenda fun _ => rfl, Hall.still_field still Hall.ceilings fun _ => rfl⟩

/-- A registration that fails its mass check: the record is held back, and there is no mission (R25). -/
theorem Hall.registerReel_heavy {h : Hall} {r : Reel} (heavy : h.massPasses r = false) :
    h.registerReel i r = (h.addReel i (r.quarantine .badWeight)).accept (.number i) := by
  simp [Hall.registerReel, heavy]

theorem Hall.registerReel_full {h : Hall} {r : Reel} (passes : h.massPasses r = true) (full : lowestFree h.missions 48 = none) :
    h.registerReel i r = h.refuse .full := by
  have none : ((h.addReel i r).makeIntake ⟨i, r.id⟩).2 = none := Hall.makeIntake_full (by rwa [Hall.addReel_missions])
  unfold Hall.registerReel
  rw [if_pos passes]
  split
  · rename_i e; rw [e] at none; cases none
  · rfl

/-- A registration that passes its mass check: the record and its INTAKE mission (R25, R54). -/
theorem Hall.registerReel_passes {h : Hall} {r : Reel} (passes : h.massPasses r = true) (hd : r.loc = .dock dock)
    (free : lowestFree h.missions 48 = some slot) (new : h.named ⟨i, r.id⟩ = false) :
    ∃ b m, h.registerReel i r = b.accept (.number i) ∧ (h.addReel i r).Follows b ∧ b.mission slot = some m ∧ m.kind = .intake ∧
      m.reel = some ⟨i, r.id⟩ ∧ m.pickup = some (.dock dock) := by
  have hr : (h.addReel i r).reel ⟨i, r.id⟩ = some r := by simp [Hall.reel]
  obtain ⟨made, m, hm, rest⟩ := Hall.makeIntake_made hr hd (by rwa [Hall.addReel_missions])
    (by simpa [Hall.named] using new)
  refine ⟨_, m, ?_, (Hall.Follows.refl _).makeIntake ⟨i, r.id⟩, hm, rest⟩
  unfold Hall.registerReel
  rw [if_pos passes]
  split
  · rename_i e; rw [e]
  · rename_i e; rw [e] at made; cases made

/-- Settles O25: the checks of R24, the mass check of R6, and the slot of the INTAKE mission. -/
theorem registerReelMakesRecord : Obligations.RegisterReelMakesRecord := by
  refine ⟨?_, ?_⟩
  · intro s q id grade width d0 core mass dock arrival i g ok wf new free hgrade hg w1 w2 d1 d2 hc m1 m2 served unnamed
    extract_lets d len expected heavy r made
    have taken := Hall.takeRegister_taken (arrival := arrival) wf new free hgrade hg w1 w2 d1 d2 hc m1 m2 served
    have check : s.hall.massPasses (newReel id grade width d0 d mass dock (arrival.getD s.hall.clock) g) = !heavy :=
      Hall.massPasses_newReel hg d _
    have record : r = if heavy then (newReel id grade width d0 d mass dock (arrival.getD s.hall.clock) g).quarantine .badWeight
        else newReel id grade width d0 d mass dock (arrival.getD s.hall.clock) g := by
      unfold r; cases heavy <;> rfl
    have makes {b : Hall} (e : s.hall.takeRegister id grade width d0 core mass dock arrival = b.accept (.number i))
        (x : (s.hall.addReel i r).Steps b) :
        ∃ t, exec (.registerReel q id grade width d0 core mass dock arrival) s = .next t ∧ made t ∧ t.hall = b.finish :=
      ⟨_, rfl, ⟨(State.request_finishes ok e).1, (State.request_finishes ok e).2 ▸ Hall.addReel_kept x.finish⟩,
        (State.request_finishes ok e).2⟩
    refine ⟨fun fails => ?_, fun passes slot room => ?_, fun passes full => ?_⟩
    · rw [if_pos fails] at record
      obtain ⟨t, ht, hmade, hall⟩ := makes (b := s.hall.addReel i r)
        (taken.trans (by rw [record]; exact Hall.registerReel_heavy (check.trans (by simpa using fails)))) (Hall.Follows.refl _).toSteps
      refine ⟨t, ht, hmade, hall, s.hall.addReel_missions i r, fun jobs ceilings => ?_⟩
      obtain ⟨e1, e2⟩ := Hall.addReel_owes (h := s.hall) (r := r) (lowestFree_none free) (by rw [record]; simp [Reel.quarantine])
      rw [hall, Hall.finish_of_nothing_owed (e1.trans jobs) (e2.trans ceilings), Hall.addReel_missions]
    · rw [if_neg (by simp [passes])] at record
      obtain ⟨b, m, e, x, hm, kind, reel, pickup⟩ := Hall.registerReel_passes (check.trans (by simpa using passes)) rfl room unnamed
      obtain ⟨t, ht, hmade, hall⟩ := makes (taken.trans e) (record ▸ x.toSteps)
      obtain ⟨n, hn, kind', reel', pickup'⟩ := b.finish_steps.missionKept hm (by simp [kind])
      exact ⟨t, ht, hmade, n, hall ▸ hn, kind'.trans kind, reel'.trans reel, pickup'.trans pickup⟩
    · exact congrArg Host.Outcome.next (State.request_tells ok
        (taken.trans (Hall.registerReel_full (check.trans (by simpa using passes)) full)))
  · intro s q id grade width d0 core mass dock arrival ok wf new full
    refine congrArg Host.Outcome.next (State.request_tells ok ?_)
    unfold Hall.takeRegister
    rw [show lowestFree s.hall.reels Config.reelSlots = none from full, new]
    simp [wf, Hall.refuse]

end


end Sys2Proof.Machine
end

section
/-! PROOF. What the storing of a record, the clearing and filling of a place and a custody change do to the hall. -/

-- One theorem after another, as in the laws: elaborated all at once they ask for more threads than the check has room for.
set_option Elab.async false

namespace Sys2Proof.Machine

/-! ### A table is read as it was but where it was changed -/

theorem Hall.vehicle_modVehicle (h : Hall) (v w : Nat) (f : Vehicle → Vehicle) (cold : f Vehicle.cold = Vehicle.cold ∨ (tget h.vehicles v).isSome) :
    (h.modVehicle v f).vehicle w = if w = v then f (h.vehicle w) else h.vehicle w := by
  unfold Hall.vehicle
  rw [Hall.modVehicle_vehicles, tget_tmod]
  split
  · rename_i e; subst e
    cases hx : tget h.vehicles w with
    | some x => rfl
    | none =>
      obtain e | e := cold
      · exact e.symm
      · simp [hx] at e
  · rfl

theorem Hall.bay_modBay (h : Hall) (b c : BayAddr) (f : Bay → Bay) :
    (h.modBay b f).bay c = if c = b then (h.bay c).map f else h.bay c := by
  unfold Hall.bay
  rw [Hall.modBay_bays, tget_tmod]
  by_cases e : c = b
  · rw [if_pos e, if_pos (congrArg bayKey e)]
  · rw [if_neg e, if_neg fun k => e (bayKey_inj k)]

theorem Hall.stand_modStand (h : Hall) (st st' : StandAddr) (f : Stand → Stand) :
    (h.modStand st f).stand st' = if st' = st then (h.stand st').map f else h.stand st' := by
  unfold Hall.stand
  rw [Hall.modStand_stands, tget_tmod]
  by_cases e : st' = st
  · rw [if_pos e, if_pos (congrArg standKey e)]
  · rw [if_neg e, if_neg fun k => e (standKey_inj k)]

/-! ### What the storing of a record leaves (R41) -/

/-- The hall but its reels and what the stock watch sets and tells. -/
def Hall.butReels (h : Hall) : Hall := { h.still with watch := [], reels := [] }

theorem Hall.butReels_of_still {a b : Hall} (e : a.still = b.still) : a.butReels = b.butReels := by
  unfold Hall.butReels; rw [e]

/-- A field that is not blanked is the same in halls that are the same but for their reels. -/
theorem Hall.butReels_field {a b : Hall} (e : a.butReels = b.butReels) {α : Type} (f : Hall → α)
    (hf : ∀ h : Hall, f h.butReels = f h) : f a = f b := by
  rw [← hf a, e, hf b]

section
variable (h : Hall)

@[simp] theorem Hall.stockWatch_butReels (g : Nat) : (h.stockWatch g).butReels = h.butReels := by
  unfold Hall.stockWatch; split
  · rfl
  · dsimp only; split
    · rfl
    · split
      · rfl
      · rw [Hall.butReels_of_still (Hall.setActive_still _ rfl _), Hall.butReels_of_still (Hall.notify_still _ _)]; rfl

@[simp] theorem Hall.putReel_butReels (i : Nat) (r : Reel) : (h.putReel i r).butReels = h.butReels := by
  unfold Hall.putReel; dsimp only; split
  · rfl
  · rw [Hall.stockWatch_butReels]; rfl

@[simp] theorem Hall.putReel_bays (i : Nat) (r : Reel) : (h.putReel i r).bays = h.bays :=
  Hall.butReels_field (h.putReel_butReels i r) Hall.bays fun _ => rfl

@[simp] theorem Hall.putReel_vehicles (i : Nat) (r : Reel) : (h.putReel i r).vehicles = h.vehicles :=
  Hall.butReels_field (h.putReel_butReels i r) Hall.vehicles fun _ => rfl

@[simp] theorem Hall.putReel_stands (i : Nat) (r : Reel) : (h.putReel i r).stands = h.stands :=
  Hall.butReels_field (h.putReel_butReels i r) Hall.stands fun _ => rfl

@[simp] theorem Hall.putReel_zones (i : Nat) (r : Reel) : (h.putReel i r).zones = h.zones :=
  Hall.butReels_field (h.putReel_butReels i r) Hall.zones fun _ => rfl

@[simp] theorem Hall.putReel_agenda (i : Nat) (r : Reel) : (h.putReel i r).agenda = h.agenda :=
  Hall.butReels_field (h.putReel_butReels i r) Hall.agenda fun _ => rfl

@[simp] theorem Hall.putReel_clock (i : Nat) (r : Reel) : (h.putReel i r).clock = h.clock :=
  Hall.butReels_field (h.putReel_butReels i r) Hall.clock fun _ => rfl

@[simp] theorem Hall.putReel_allStop (i : Nat) (r : Reel) : (h.putReel i r).allStop = h.allStop :=
  Hall.butReels_field (h.putReel_butReels i r) Hall.allStop fun _ => rfl

/-- The storing of a record is followed by the stock watch alone (R41). -/
theorem Hall.putReel_follows (i : Nat) (r : Reel) : Hall.Follows { h with reels := tput h.reels i r } (h.putReel i r) := by
  unfold Hall.putReel; dsimp only; split
  · exact Hall.Follows.refl _
  · exact (Hall.Follows.refl _).stockWatch _

end

/-! ### Places (R20) -/

section
variable (h : Hall) (l : Location) (ref : ReelRef)

theorem Hall.bayMayBeFree_eq (b : BayAddr) : h.bayMayBeFree b = { h with agenda := (h.bayMayBeFree b).agenda } := by
  unfold Hall.bayMayBeFree Hall.push; split
  · split
    · split <;> rfl
    · rfl
  · rfl

/-- Clearing a place changes nothing but the bay, the vehicle or the arm, and the consequences owed. -/
theorem Hall.clearPlace_eq : h.clearPlace l = { h with
    agenda := (h.clearPlace l).agenda, bays := (h.clearPlace l).bays, vehicles := (h.clearPlace l).vehicles
    stands := (h.clearPlace l).stands } := by
  cases l with
  | bay b =>
    simp only [Hall.clearPlace]
    rw [Hall.bayMayBeFree_eq]; rfl
  | vehicle v => simp only [Hall.clearPlace, Hall.push]; split <;> rfl
  | arm st x => rfl
  | dock n => rfl
  | nowhere => rfl

theorem Hall.fillPlace_eq : h.fillPlace l ref = { h with
    bays := (h.fillPlace l ref).bays, vehicles := (h.fillPlace l ref).vehicles, stands := (h.fillPlace l ref).stands } := by
  cases l <;> rfl

@[simp] theorem Hall.bayMayBeFree_bays (b : BayAddr) : (h.bayMayBeFree b).bays = h.bays := by rw [Hall.bayMayBeFree_eq]
@[simp] theorem Hall.bayMayBeFree_vehicles (b : BayAddr) : (h.bayMayBeFree b).vehicles = h.vehicles := by rw [Hall.bayMayBeFree_eq]
@[simp] theorem Hall.bayMayBeFree_stands (b : BayAddr) : (h.bayMayBeFree b).stands = h.stands := by rw [Hall.bayMayBeFree_eq]
@[simp] theorem Hall.clearPlace_reels : (h.clearPlace l).reels = h.reels := by rw [Hall.clearPlace_eq]
@[simp] theorem Hall.clearPlace_missions : (h.clearPlace l).missions = h.missions := by rw [Hall.clearPlace_eq]
@[simp] theorem Hall.clearPlace_zones : (h.clearPlace l).zones = h.zones := by rw [Hall.clearPlace_eq]
@[simp] theorem Hall.fillPlace_reels : (h.fillPlace l ref).reels = h.reels := by rw [Hall.fillPlace_eq]
@[simp] theorem Hall.fillPlace_missions : (h.fillPlace l ref).missions = h.missions := by rw [Hall.fillPlace_eq]
@[simp] theorem Hall.fillPlace_zones : (h.fillPlace l ref).zones = h.zones := by rw [Hall.fillPlace_eq]

/-- A bay after a place has been cleared. -/
theorem Hall.clearPlace_bay (b : BayAddr) :
    (h.clearPlace l).bay b = if l = .bay b then (h.bay b).map fun x => { x with occupant := none } else h.bay b := by
  cases l with
  | bay c =>
    have free : ((h.modBay c fun x => { x with occupant := none }).bayMayBeFree c).bay b =
        (h.modBay c fun x => { x with occupant := none }).bay b := by rw [Hall.bay, Hall.bayMayBeFree_bays]; rfl
    rw [Hall.clearPlace, free, Hall.bay_modBay]
    by_cases e : b = c <;> simp [e, eq_comm]
  | vehicle v => simp [Hall.clearPlace, Hall.bay]
  | arm st x => simp [Hall.clearPlace, Hall.bay]
  | dock n => simp [Hall.clearPlace]
  | nowhere => simp [Hall.clearPlace]

theorem Hall.fillPlace_bay (b : BayAddr) : (h.fillPlace l ref).bay b =
    if l = .bay b then (h.bay b).map fun x => { x with occupant := some ref, reserved := none } else h.bay b := by
  cases l with
  | bay c =>
    rw [Hall.fillPlace, Hall.bay_modBay]
    by_cases e : b = c <;> simp [e, eq_comm]
  | vehicle v => simp [Hall.fillPlace, Hall.bay]
  | arm st x => simp [Hall.fillPlace, Hall.bay]
  | dock n => simp [Hall.fillPlace]
  | nowhere => simp [Hall.fillPlace]

/-- A vehicle after a place has been cleared. -/
theorem Hall.clearPlace_vehicle (v : Nat) :
    (h.clearPlace l).vehicle v = if l = .vehicle v then { h.vehicle v with load := none } else h.vehicle v := by
  cases l with
  | vehicle w =>
    have push : (h.clearPlace (.vehicle w)).vehicle v = (h.modVehicle w fun x => { x with load := none }).vehicle v := by
      simp [Hall.clearPlace, Hall.vehicle]
    rw [push, Hall.vehicle_modVehicle _ _ _ _ (.inl rfl)]
    by_cases e : v = w <;> simp [e, eq_comm]
  | bay c => simp [Hall.clearPlace, Hall.vehicle]
  | arm st x => simp [Hall.clearPlace, Hall.vehicle]
  | dock n => simp [Hall.clearPlace]
  | nowhere => simp [Hall.clearPlace]

theorem Hall.clearPlace_known (v : Nat) : (tget (h.clearPlace l).vehicles v).isSome = (tget h.vehicles v).isSome := by
  cases l with
  | vehicle w => simp only [Hall.clearPlace, Hall.push_vehicles, Hall.modVehicle_vehicles, tget_tmod]; split <;> simp
  | bay c => simp [Hall.clearPlace]
  | arm st x => simp [Hall.clearPlace]
  | dock n => rfl
  | nowhere => rfl

theorem Hall.fillPlace_vehicle_ne {v : Nat} (hv : l ≠ .vehicle v) : (h.fillPlace l ref).vehicle v = h.vehicle v := by
  cases l with
  | vehicle w =>
    have ne : v ≠ w := fun e => hv (e ▸ rfl)
    simp [Hall.fillPlace, Hall.vehicle, tget_tmod_ne _ _ ne]
  | bay c => simp [Hall.fillPlace, Hall.vehicle]
  | arm st x => simp [Hall.fillPlace, Hall.vehicle]
  | dock n => rfl
  | nowhere => rfl

theorem Hall.fillPlace_vehicle {v : Nat} (hv : (tget h.vehicles v).isSome) :
    (h.fillPlace (.vehicle v) ref).vehicle v = { h.vehicle v with load := some ref } := by
  simp [Hall.fillPlace, Hall.vehicle_modVehicle _ _ _ _ (.inr hv)]

/-- A stand after a place has been cleared: an arm that was the place holds no reel. -/
theorem Hall.clearPlace_stand (st : StandAddr) : (h.clearPlace l).stand st = (h.stand st).map fun k => match l with
    | .arm st' x => if st' = st then k.modArm x fun a => { a with reel := none } else k
    | _ => k := by
  cases l with
  | arm st' x =>
    rw [Hall.clearPlace, Hall.modArm, Hall.stand_modStand]
    by_cases e : st = st'
    · simp [e]
    · have ne : ¬st' = st := fun k => e k.symm
      simp [e, ne]
  | bay c => simp [Hall.clearPlace, Hall.stand]
  | vehicle v => simp [Hall.clearPlace, Hall.stand]
  | dock n => simp [Hall.clearPlace]
  | nowhere => simp [Hall.clearPlace]

theorem Hall.fillPlace_stand (st : StandAddr) : (h.fillPlace l ref).stand st = (h.stand st).map fun k => match l with
    | .arm st' x => if st' = st then k.modArm x fun a => { a with reel := some ref } else k
    | _ => k := by
  cases l with
  | arm st' x =>
    rw [Hall.fillPlace, Hall.modArm, Hall.stand_modStand]
    by_cases e : st = st'
    · simp [e]
    · have ne : ¬st' = st := fun k => e k.symm
      simp [e, ne]
  | bay c => simp [Hall.fillPlace, Hall.stand]
  | vehicle v => simp [Hall.fillPlace, Hall.stand]
  | dock n => simp [Hall.fillPlace]
  | nowhere => simp [Hall.fillPlace]

end

/-! ### Custody changes (R20, R26) -/

section
variable {h : Hall} {ref : ReelRef} {r r' : Reel}

theorem Hall.custody_of_ne (moves : r.loc ≠ r'.loc) :
    h.custody ref r r' = ((h.clearPlace r.loc).fillPlace r'.loc ref).putReel ref.index r' := if_neg moves

@[simp] theorem Hall.custody_reels (h : Hall) (ref : ReelRef) (r r' : Reel) :
    (h.custody ref r r').reels = tput h.reels ref.index r' := by unfold Hall.custody; split <;> simp

@[simp] theorem Hall.custody_missions (h : Hall) (ref : ReelRef) (r r' : Reel) : (h.custody ref r r').missions = h.missions := by
  unfold Hall.custody; split <;> simp

@[simp] theorem Hall.custody_zones (h : Hall) (ref : ReelRef) (r r' : Reel) : (h.custody ref r r').zones = h.zones := by
  unfold Hall.custody; split <;> simp

/-- A reel that moves: its old place is cleared and its new one filled. -/
theorem Hall.custody_bay (moves : r.loc ≠ r'.loc) (b : BayAddr) :
    (h.custody ref r r').bay b = ((h.clearPlace r.loc).fillPlace r'.loc ref).bay b := by
  simp [Hall.custody_of_ne moves, Hall.bay]

theorem Hall.custody_vehicle (moves : r.loc ≠ r'.loc) (v : Nat) :
    (h.custody ref r r').vehicle v = ((h.clearPlace r.loc).fillPlace r'.loc ref).vehicle v := by
  simp [Hall.custody_of_ne moves, Hall.vehicle]

theorem Hall.custody_stand (moves : r.loc ≠ r'.loc) (st : StandAddr) :
    (h.custody ref r r').stand st = ((h.clearPlace r.loc).fillPlace r'.loc ref).stand st := by
  simp [Hall.custody_of_ne moves, Hall.stand]

theorem Hall.custody_fills_bay (moves : r.loc ≠ r'.loc) {b : BayAddr} (hb : r'.loc = .bay b) {x : Bay} (hx : h.bay b = some x) :
    (h.custody ref r r').bay b = some { x with occupant := some ref, reserved := none } := by
  rw [Hall.custody_bay moves, Hall.fillPlace_bay, if_pos hb, Hall.clearPlace_bay, if_neg (hb ▸ moves), hx]; rfl

theorem Hall.custody_clears_bay (moves : r.loc ≠ r'.loc) {b : BayAddr} (hb : r.loc = .bay b) {x : Bay} (hx : h.bay b = some x) :
    (h.custody ref r r').bay b = some { x with occupant := none } := by
  rw [Hall.custody_bay moves, Hall.fillPlace_bay, if_neg (hb ▸ moves).symm, Hall.clearPlace_bay, if_pos hb, hx]; rfl

theorem Hall.custody_fills_vehicle (moves : r.loc ≠ r'.loc) {v : Nat} (hv : r'.loc = .vehicle v) (known : (tget h.vehicles v).isSome) :
    (h.custody ref r r').vehicle v = { h.vehicle v with load := some ref } := by
  rw [Hall.custody_vehicle moves, hv, Hall.fillPlace_vehicle _ _ (by rwa [Hall.clearPlace_known]), Hall.clearPlace_vehicle, if_neg (hv ▸ moves)]

theorem Hall.custody_clears_vehicle (moves : r.loc ≠ r'.loc) {v : Nat} (hv : r.loc = .vehicle v) :
    (h.custody ref r r').vehicle v = { h.vehicle v with load := none } := by
  rw [Hall.custody_vehicle moves, Hall.fillPlace_vehicle_ne _ _ _ (hv ▸ moves).symm, Hall.clearPlace_vehicle, if_pos hv]

theorem Stand.arm_modArm_same (k : Stand) (x : ArmName) (f : Arm → Arm) : (k.modArm x f).arm x = f (k.arm x) := by
  rw [Stand.arm_modArm, if_pos rfl]

theorem Stand.arm_modArm_ne (k : Stand) {x y : ArmName} (e : y ≠ x) (f : Arm → Arm) : (k.modArm x f).arm y = k.arm y := by
  rw [Stand.arm_modArm, if_neg e]

/-- An arm after a custody change of another arm of its stand, or of no arm. -/
theorem Hall.custody_fills_arm (moves : r.loc ≠ r'.loc) {st : StandAddr} {x : ArmName} (hx : r'.loc = .arm st x) {k : Stand}
    (hk : h.stand st = some k) : ∃ k', (h.custody ref r r').stand st = some k' ∧ (k'.arm x).reel = some ref := by
  rw [Hall.custody_stand moves, Hall.fillPlace_stand, Hall.clearPlace_stand, hk, hx]
  exact ⟨_, rfl, by simp [Stand.arm_modArm_same]⟩

theorem Hall.custody_clears_arm (moves : r.loc ≠ r'.loc) {st : StandAddr} {x : ArmName} (hx : r.loc = .arm st x) {k : Stand}
    (hk : h.stand st = some k) : ∃ k', (h.custody ref r r').stand st = some k' ∧ (k'.arm x).reel = none := by
  rw [Hall.custody_stand moves, Hall.fillPlace_stand, Hall.clearPlace_stand, hk, hx]
  refine ⟨_, rfl, ?_⟩
  rw [hx] at moves
  cases hl : r'.loc with
  | arm st' y =>
    dsimp only
    split
    · rename_i same
      have ne : x ≠ y := fun e => moves (by rw [hl, same, e])
      simp [Stand.arm_modArm_ne _ ne, Stand.arm_modArm_same]
    · simp [Stand.arm_modArm_same]
  | bay b => simp [Stand.arm_modArm_same]
  | vehicle v => simp [Stand.arm_modArm_same]
  | dock n => simp [Stand.arm_modArm_same]
  | nowhere => simp [Stand.arm_modArm_same]

end

end Sys2Proof.Machine
end

section
/-! PROOF. What the roads and the arms of the stands leave of the hall, how many notices an operation tells, and what the end of a mission leaves. -/

-- One theorem after another, as in the laws: elaborated all at once they ask for more threads than the check has room for.
set_option Elab.async false

namespace Sys2Proof.Machine

/-! ### What the roads leave: zones granted and released, and the directives that follow (R72 to R79, R92) -/

/-- The hall but its zones, its vehicles, the directives sent and the consequences owed. -/
def Hall.butRoads (h : Hall) : Hall := { h with zones := [], vehicles := [], sent := [], links := [], agenda := [] }

/-- A vehicle as grants leave it: only a MOVE is issued again, with the zones granted. -/
structure Vehicle.Granted (x y : Vehicle) : Prop where
  same : { y with ahead := [], directive := ⟨0, .hold⟩, withdraw := false } =
    { x with ahead := [], directive := ⟨0, .hold⟩, withdraw := false }
  parked : (∀ r n, x.directive.kind ≠ .move r n) → y.directive = x.directive

theorem Vehicle.Granted.refl (x : Vehicle) : x.Granted x := ⟨rfl, fun _ => rfl⟩

theorem Vehicle.Granted.trans {x y z : Vehicle} (p : x.Granted y) (q : y.Granted z) : x.Granted z where
  same := q.same.trans p.same
  parked k := (q.parked (p.parked k ▸ k)).trans (p.parked k)

/-- A field of a vehicle that grants leave. -/
theorem Vehicle.Granted.field {x y : Vehicle} (p : x.Granted y) {α : Type} (f : Vehicle → α)
    (hf : ∀ z : Vehicle, f { z with ahead := [], directive := ⟨0, .hold⟩, withdraw := false } = f z := by intro; rfl) : f y = f x := by
  rw [← hf y, p.same, hf x]

/-- `b` is `a` after work of Traffic Control: only zones, grants and the MOVEs that tell of them have changed. -/
structure Hall.Roads (a b : Hall) : Prop where
  same : b.butRoads = a.butRoads
  owes : ∀ j ∈ a.agenda, j ∈ b.agenda
  vehicles : ∀ v, (a.vehicle v).Granted (b.vehicle v)

theorem Hall.mem_push {h : Hall} {i j : Job} : j ∈ (h.push i).agenda ↔ j = i ∨ j ∈ h.agenda := by
  unfold Hall.push; split <;> simp_all [or_comm]

theorem Hall.mem_oweSlots {h : Hall} {j : Job} : j ∈ h.oweSlots.agenda ↔ j = .missionLeft ∨ j ∈ h.agenda := by
  unfold Hall.oweSlots; split
  · simp_all
  · have cut : j ∈ h.agenda ↔ j ∈ h.agenda.takeWhile (fun j => !j.asksSlot) ∨ j ∈ h.agenda.dropWhile (fun j => !j.asksSlot) := by
      rw [← List.mem_append, List.takeWhile_append_dropWhile]
    simp only [List.mem_append, List.mem_cons, cut]
    tauto

namespace Hall.Roads

variable {a b c : Hall}

theorem refl (a : Hall) : a.Roads a := ⟨rfl, fun _ => id, fun _ => .refl _⟩

theorem trans (x : a.Roads b) (y : b.Roads c) : a.Roads c :=
  ⟨y.same.trans x.same, fun j hj => y.owes j (x.owes j hj), fun v => (x.vehicles v).trans (y.vehicles v)⟩

/-- A field of the hall the roads leave. -/
theorem field (x : a.Roads b) {α : Type} (f : Hall → α) (hf : ∀ h : Hall, f h.butRoads = f h := by intro; rfl) : f b = f a := by
  rw [← hf b, x.same, hf a]

theorem foldl {β : Type} {f : Hall → β → Hall} (hf : ∀ h x, Hall.Roads h (f h x)) (l : List β) (x : a.Roads b) :
    a.Roads (l.foldl f b) := by
  induction l generalizing b with
  | nil => exact x
  | cons y l ih => exact ih (x.trans (hf b y))

/-! #### Updates -/

theorem push (x : a.Roads b) (j : Job) : a.Roads (b.push j) := x.trans
  ⟨by unfold Hall.push; split <;> rfl, fun i hi => Hall.mem_push.mpr (.inr hi), fun v => by simpa [Hall.vehicle] using .refl _⟩

theorem modZone (x : a.Roads b) (z : Nat) (f : Zone → Zone) : a.Roads (b.modZone z f) := x.trans ⟨rfl, fun _ => id, fun _ => .refl _⟩

theorem modVehicle (x : a.Roads b) (v : Nat) (f : Vehicle → Vehicle) (hf : (b.vehicle v).Granted (f (b.vehicle v))) :
    a.Roads (b.modVehicle v f) := x.trans
  ⟨rfl, fun _ => id, fun w => by
    unfold Hall.vehicle at hf ⊢
    rw [Hall.modVehicle_vehicles, tget_tmod]
    split
    · rename_i e; subst e
      cases hx : tget b.vehicles w with
      | none => exact .refl _
      | some y => simpa [hx] using hf
    · exact .refl _⟩

theorem sendDirective (x : a.Roads b) (v : Nat) (d : Directive) : a.Roads (b.sendDirective v d) :=
  x.trans ⟨rfl, fun _ => id, fun _ => .refl _⟩

/-- A MOVE is replaced. -/
theorem issue (x : a.Roads b) (v : Nat) (k : DirKind) {r : List Nat} {n : Nat} (hk : (b.vehicle v).directive.kind = .move r n) :
    a.Roads (b.issue v k) := Roads.sendDirective (x.modVehicle v _ ⟨rfl, fun parked => absurd hk (parked r n)⟩) v _

theorem refreshMove (x : a.Roads b) (v : Nat) : a.Roads (b.refreshMove v) := by
  unfold Hall.refreshMove; split
  · rename_i zones n hk
    dsimp only; split
    · exact x
    · exact x.issue v _ hk
  · exact x

/-! #### Traffic Control (R72 to R79) -/

theorem unwait (x : a.Roads b) (v : Nat) : a.Roads (b.unwait v) := by
  unfold Hall.unwait; split
  · exact x.modZone _ _
  · exact x

theorem grant (x : a.Roads b) (v z : Nat) : a.Roads (b.grant v z) :=
  (((x.unwait v).modZone z _).modVehicle v _ ⟨rfl, fun _ => rfl⟩).refreshMove v

theorem arbitrate (x : a.Roads b) (z : Nat) (l : List Nat) : a.Roads (b.arbitrate z l) := by
  induction l generalizing b with
  | nil => exact x
  | cons v l ih =>
    unfold Hall.arbitrate; split
    · exact ih (x.unwait v)
    · split
      · exact x.grant v z
      · exact ih x

theorem runZone (x : a.Roads b) (z : Nat) : a.Roads (b.runZone z) := by
  unfold Hall.runZone; split
  · split
    · exact x.arbitrate _ _
    · exact x
  · exact x

theorem endHold (x : a.Roads b) (z : Nat) : a.Roads (b.endHold z) := ((x.modZone z _).push _).runZone z

theorem releaseHold (x : a.Roads b) (v : Nat) : a.Roads (b.releaseHold v) := by
  unfold Hall.releaseHold; split
  · exact x.endHold _
  · exact x

theorem chargeTest (x : a.Roads b) (v : Nat) : a.Roads (b.chargeTest v) := by
  unfold Hall.chargeTest; dsimp only; split
  · exact x.releaseHold v
  · split
    · exact x.push _
    · exact x

end Hall.Roads

/-- What follows a mission's end for its vehicle: its activity, and the charge test (R103). -/
theorem Hall.afterEnd_roads (h : Hall) (v : Nat) (k : MissionKind) (y : Activity) :
    (h.setActivity v y).Roads (h.afterEnd v k y) := by
  unfold Hall.afterEnd; dsimp only; split
  · exact (Roads.refl _).push _
  · exact ((Roads.refl _).chargeTest v).push _

/-! ### What arms and handovers leave (R116, R134 to R138) -/

/-- The hall but its stands, its lines, what it tells and what it owes. -/
def Hall.butArms (h : Hall) : Hall := { h.still with stands := [], agenda := [], ceilings := [] }

theorem Hall.butArms_of_still {a b : Hall} (e : a.still = b.still) : a.butArms = b.butArms := by
  unfold Hall.butArms; rw [e]

/-- `b` is `a` after work of the Feed Planner on arms, handovers and the preparation list. -/
structure Hall.Arms (a b : Hall) : Prop where
  same : b.butArms = a.butArms
  owes : ∀ j ∈ a.agenda, j ∈ b.agenda

namespace Hall.Arms

variable {a b c : Hall}

theorem refl (a : Hall) : a.Arms a := ⟨rfl, fun _ => id⟩

theorem trans (x : a.Arms b) (y : b.Arms c) : a.Arms c := ⟨y.same.trans x.same, fun j hj => y.owes j (x.owes j hj)⟩

theorem field (x : a.Arms b) {α : Type} (f : Hall → α) (hf : ∀ h : Hall, f h.butArms = f h := by intro; rfl) : f b = f a := by
  rw [← hf b, x.same, hf a]

/-- What leaves the hall still but for what it tells. -/
theorem still (x : a.Arms b) (e : c.still = b.still) : a.Arms c :=
  x.trans ⟨Hall.butArms_of_still e, fun j hj => by rwa [Hall.still_field e Hall.agenda fun _ => rfl]⟩

theorem push (x : a.Arms b) (j : Job) : a.Arms (b.push j) :=
  x.trans ⟨by unfold Hall.push; split <;> rfl, fun _ hi => Hall.mem_push.mpr (.inr hi)⟩

theorem oweSlots (x : a.Arms b) : a.Arms b.oweSlots :=
  x.trans ⟨by unfold Hall.oweSlots; split <;> rfl, fun _ hi => Hall.mem_oweSlots.mpr (.inr hi)⟩

theorem oweCeiling (x : a.Arms b) (n : Nat) : a.Arms (b.oweCeiling n) :=
  x.trans ⟨by unfold Hall.oweCeiling; split <;> rfl, fun _ hi => by simpa using hi⟩

theorem modStand (x : a.Arms b) (st : StandAddr) (f : Stand → Stand) : a.Arms (b.modStand st f) := x.trans ⟨rfl, fun _ => id⟩

theorem changeArm (x : a.Arms b) (st : StandAddr) (arm : ArmName) (f : Arm → Arm) : a.Arms (b.changeArm st arm f) :=
  ((x.modStand st _).still (Hall.easeOverdue_still _ st)).oweCeiling _

theorem emptyArm (x : a.Arms b) (st : StandAddr) (arm : ArmName) : a.Arms (b.emptyArm st arm) := by
  unfold Hall.emptyArm; dsimp only
  have h1 := ((x.modStand st fun s => { s with running := s.running.filter (· ≠ arm) }).changeArm st arm fun x =>
    { x with state := .empty, reel := none, beforeUnload := none }).push (.callTest st)
  split
  · exact h1.push _
  · exact h1

theorem loadArm (x : a.Arms b) (st : StandAddr) (arm : ArmName) : a.Arms (b.loadArm st arm) := (x.modStand st _).changeArm st arm _

theorem requestPrep (x : a.Arms b) (st : StandAddr) (arm : ArmName) (d : Nat) : a.Arms (b.requestPrep st arm d) := by
  unfold Hall.requestPrep; split
  · split
    · exact x
    · split
      · dsimp only; split
        · exact (x.still (Hall.modLine_still _ _ _)).still (Hall.sendPanel_still _ _)
        · exact x.still (Hall.modLine_still _ _ _)
      · exact (x.still (Hall.modLine_still _ _ _)).still (Hall.sendPanel_still _ _)
  · exact x

theorem restoreArm (x : a.Arms b) (st : StandAddr) (arm : ArmName) (ref : Option ReelRef) : a.Arms (b.restoreArm st arm ref) := by
  unfold Hall.restoreArm; split
  · split
    · dsimp only; split
      · exact (x.changeArm _ _ _).push _
      · exact (x.changeArm _ _ _).requestPrep _ _ _
    · exact x
  · exact x

theorem closeHandover (x : a.Arms b) (st : StandAddr) : a.Arms (b.closeHandover st) := by
  unfold Hall.closeHandover; split
  · rename_i y _
    extract_lets g loading g'
    have h1 : a.Arms g := (x.modStand st _).oweCeiling _
    have h2 : a.Arms g' := by
      unfold g'; split
      · exact h1.emptyArm _ _
      · exact h1
    split
    · exact (h2.push _).push _
    · exact h2.push _
  · exact x

end Hall.Arms

/-! ### How many notices are told (R212) -/

/-- From `a` to `b` at most `n` notices have been queued. -/
def Hall.Tells (n : Nat) (a b : Hall) : Prop := b.notices.length ≤ a.notices.length + n

namespace Hall.Tells

variable {a b c : Hall} {n m : Nat}

theorem refl (a : Hall) : a.Tells 0 a := Nat.le_refl _

theorem trans (x : a.Tells n b) (y : b.Tells m c) : a.Tells (n + m) c := by unfold Hall.Tells at *; omega

theorem mono (x : a.Tells n b) (h : n ≤ m) : a.Tells m b := by unfold Hall.Tells at *; omega

/-- A step that tells nothing. -/
theorem same (x : a.Tells n b) (e : c.notices = b.notices) : a.Tells n c := by unfold Hall.Tells at *; rwa [e]

/-- Room for the next notice is left. -/
theorem room (x : a.Tells n b) (h : a.notices.length + n < 64) : b.notices.length < 64 := by unfold Hall.Tells at x; omega

theorem notify (x : a.Tells n b) (y : Notice) : a.Tells (n + 1) (b.notify y) := by
  refine x.trans ?_
  unfold Hall.Tells Hall.notify; split <;> simp

theorem evalHold (x : a.Tells n b) (k : Nat) : a.Tells (n + 1) (b.evalHold k) := by
  unfold Hall.evalHold; dsimp only; split
  · exact x.mono (by omega)
  · refine Tells.notify ?_ _
    refine x.same ?_
    unfold Hall.sendHold; split <;> rfl

theorem changeFault (x : a.Tells n b) (k : FaultKey) (y : FaultChange) (e : FaultEntry) : a.Tells (n + 2) (b.changeFault k y e) := by
  have h1 : a.Tells (n + 1) ((b.setFault k e).notify (.fault k y e)) := (x.same rfl : a.Tells n (b.setFault k e)).notify _
  unfold Hall.changeFault Hall.evalSubject; split
  · exact h1.evalHold _
  · exact h1.mono (by omega)

theorem raise (x : a.Tells n b) {k : FaultKey} (hk : stopsFleet k.kind = false) : a.Tells (n + 2) (b.raise k) := by
  unfold Hall.raise; dsimp only; split
  · exact x.mono (by omega)
  · rw [hk]; exact x.changeFault _ _ _

theorem lower (x : a.Tells n b) (k : FaultKey) : a.Tells (n + 2) (b.lower k) := by
  unfold Hall.lower; split
  · exact x.changeFault _ _ _
  · exact x.mono (by omega)

theorem pulse (x : a.Tells n b) (k : FaultKey) : a.Tells (n + 2) (b.pulse k) := x.changeFault _ _ _

theorem setActive (x : a.Tells n b) {k : FaultKey} (hk : stopsFleet k.kind = false) (v : Bool) : a.Tells (n + 2) (b.setActive k v) := by
  cases v
  · exact x.lower k
  · exact x.raise hk

theorem push (x : a.Tells n b) (j : Job) : a.Tells n (b.push j) := x.same (Hall.push_notices b j)

theorem oweCeiling (x : a.Tells n b) (k : Nat) : a.Tells n (b.oweCeiling k) := x.same (Hall.oweCeiling_notices b k)

theorem stockWatch (x : a.Tells n b) (g : Nat) : a.Tells (n + 3) (b.stockWatch g) := by
  have watched (t : Table Watch) : a.Tells n { b with watch := t } := x.same rfl
  unfold Hall.stockWatch; split
  · exact x.mono (by omega)
  · dsimp only; split
    · exact x.mono (by omega)
    · split
      · exact (watched _).mono (by omega)
      · generalize Notice.stockLevel _ _ _ _ = y
        generalize List.any _ _ = v
        exact ((watched _).notify y).setActive (k := ⟨.stockLow, .none⟩) rfl v

theorem putReel (x : a.Tells n b) (i : Nat) (r : Reel) : a.Tells (n + 3) (b.putReel i r) := by
  have stored : a.Tells n { b with reels := tput b.reels i r } := x.same rfl
  unfold Hall.putReel; dsimp only; split
  · exact stored.mono (by omega)
  · exact stored.stockWatch _

theorem retryIfStored (x : a.Tells n b) (r r' : Reel) : a.Tells n (b.retryIfStored r r') := by
  unfold Hall.retryIfStored; split
  · exact x.push _
  · exact x

theorem refuseCustody (x : a.Tells n b) (ref : ReelRef) (y : Custody) (k : Block) : a.Tells (n + 3) (b.refuseCustody ref y k) :=
  (x.pulse _).notify _

theorem askRelease (x : a.Tells n b) (st : StandAddr) (ref : ReelRef) (k : Block) (t : Bool) :
    a.Tells (n + 3) (b.askRelease st ref k t).1 := by
  unfold Hall.askRelease Hall.askCustody; split
  · split
    · dsimp only; split
      · exact (x.putReel _ _).retryIfStored _ _
      · exact x.putReel _ _
    · exact x.refuseCustody _ _ _
  · exact x.refuseCustody _ _ _

theorem releaseReel (x : a.Tells n b) (m : Mission) (k : Block) : a.Tells (n + 3) (b.releaseReel m k) := by
  unfold Hall.releaseReel; split
  · split
    · exact x.askRelease _ _ _ _
    · exact x.mono (by omega)
  · exact x.mono (by omega)

end Hall.Tells

/-- A notice that finds room stays in the queue through all that follows. -/
theorem Hall.notified {h g : Hall} {x : Notice} (room : h.notices.length < 64) (later : (h.notify x).notices <+: g.notices) :
    ∃ k, ⟨k, x⟩ ∈ g.notices :=
  ⟨h.noticeSeq, later.subset (by rw [Hall.notify_room room]; exact List.mem_append_right _ (List.mem_singleton_self _))⟩

/-! ### Directives change vehicles alone (R92, R110) -/

section
variable (h : Hall) (v : Nat)

@[simp] theorem Hall.modVehicle_butRoads (f : Vehicle → Vehicle) : (h.modVehicle v f).butRoads = h.butRoads := rfl

@[simp] theorem Hall.push_butRoads (j : Job) : (h.push j).butRoads = h.butRoads := ((Hall.Roads.refl h).push j).same

@[simp] theorem Hall.issue_butRoads (k : DirKind) : (h.issue v k).butRoads = h.butRoads := rfl

@[simp] theorem Hall.direct_butRoads (k : DirKind) : (h.direct v k).butRoads = h.butRoads := by
  unfold Hall.direct; dsimp only; split
  · split <;> rfl
  · rfl

@[simp] theorem Hall.setActivity_butRoads (a : Activity) : (h.setActivity v a).butRoads = h.butRoads := rfl

@[simp] theorem Hall.afterEnd_butRoads (k : MissionKind) (a : Activity) : (h.afterEnd v k a).butRoads = h.butRoads :=
  ((h.afterEnd_roads v k a).same).trans (h.setActivity_butRoads v a)

/-- A field that is not blanked is the same in halls that are the same but for the roads. -/
theorem Hall.butRoads_field {a b : Hall} (e : a.butRoads = b.butRoads) {α : Type} (f : Hall → α)
    (hf : ∀ h : Hall, f h.butRoads = f h := by intro; rfl) : f a = f b := by
  rw [← hf a, e, hf b]

end

/-! ### The end of a mission (R94, R95) -/

/-- A mission out of its table, its vehicle without it and its reservation dropped; its slot is owed to those who wait. -/
def Hall.missionLeaves (slot : Nat) (m : Mission) (o : MissionOutcome) (h : Hall) : Hall :=
  let g := ({ h with missions := tdel h.missions slot } : Hall).notify (.missionEnd slot m.kind m.reel m.vehicle o)
  ((match m.vehicle with
    | some v => g.modVehicle v fun x => { x with mission := none }
    | none => g).dropReservation slot).watchBays.oweSlots

/-- The handover of a mission that has left its table ends with it (R134). -/
def Hall.handoverEnds (slot : Nat) (h : Hall) : Hall :=
  match h.handoverOf slot with
  | some (st, _) => h.closeHandover st
  | none => h

/-- The arm a RETURN was still to unload is as it was (R135). -/
def Hall.armRestored (m : Mission) (h : Hall) : Hall :=
  match m.kind, m.pickup with
  | .ret, some (.arm st arm) => h.restoreArm st arm m.reel
  | _, _ => h

/-- The call a mission served is looked at for re-raising (R128). -/
def Hall.callOwed (m : Mission) (h : Hall) : Hall :=
  match m.call with
  | some st => (h.push (.reRaise st)).oweCeiling st.line
  | none => h

namespace Hall.Handles

variable {c k : Bool} {a b : Hall}

theorem handoverEnds (x : a.Handles c k b) (slot : Nat) : a.Handles c k (b.handoverEnds slot) := by
  unfold Hall.handoverEnds; split
  · exact x.after ((Follows.refl b).closeHandover _)
  · exact x

theorem armRestored (x : a.Handles c k b) (m : Mission) : a.Handles c k (b.armRestored m) := by
  unfold Hall.armRestored; split
  · exact x.restoreArm _ _ _
  · exact x

theorem callOwed (x : a.Handles c k b) (m : Mission) : a.Handles c k (b.callOwed m) := by
  unfold Hall.callOwed; split
  · exact (x.push _).oweCeiling _
  · exact x

end Hall.Handles

namespace Hall.Arms

variable {a b : Hall}

theorem handoverEnds (x : a.Arms b) (slot : Nat) : a.Arms (b.handoverEnds slot) := by
  unfold Hall.handoverEnds; split
  · exact x.closeHandover _
  · exact x

theorem armRestored (x : a.Arms b) (m : Mission) : a.Arms (b.armRestored m) := by
  unfold Hall.armRestored; split
  · exact x.restoreArm _ _ _
  · exact x

theorem callOwed (x : a.Arms b) (m : Mission) : a.Arms (b.callOwed m) := by
  unfold Hall.callOwed; split
  · exact (x.push _).oweCeiling _
  · exact x

end Hall.Arms

section
variable {h : Hall} {slot : Nat} {m : Mission} {o : MissionOutcome}

theorem Hall.endMission_eq (hm : h.mission slot = some m) (o : MissionOutcome) :
    h.endMission slot o = (((h.missionLeaves slot m o).handoverEnds slot).armRestored m).callOwed m := by
  unfold Hall.endMission
  rw [hm]
  rfl

/-- What follows a mission that has left its table is work on arms and handovers (R134, R135). -/
theorem Hall.endMission_arms (hm : h.mission slot = some m) (o : MissionOutcome) :
    (h.missionLeaves slot m o).Arms (h.endMission slot o) := by
  rw [Hall.endMission_eq hm]
  exact (((Arms.refl _).handoverEnds slot).armRestored m).callOwed m

theorem Hall.dropReservation_eq (h : Hall) (slot : Nat) : h.dropReservation slot = { h with
    bays := (h.dropReservation slot).bays, agenda := (h.dropReservation slot).agenda } := by
  unfold Hall.dropReservation Hall.push; split
  · split <;> rfl
  · rfl

@[simp] theorem Hall.watchBays_still (h : Hall) : h.watchBays.still = h.still := Hall.setActive_still _ rfl _

@[simp] theorem Hall.missionLeaves_missions (h : Hall) (slot : Nat) (m : Mission) (o : MissionOutcome) :
    (h.missionLeaves slot m o).missions = tdel h.missions slot := by
  unfold Hall.missionLeaves
  cases m.vehicle <;> simp [Hall.watchBays]

theorem Hall.endMission_missions (hm : h.mission slot = some m) (o : MissionOutcome) :
    (h.endMission slot o).missions = tdel h.missions slot :=
  ((Hall.endMission_arms hm o).field Hall.missions).trans (h.missionLeaves_missions slot m o)

@[simp] theorem Hall.watchBays_reels (h : Hall) : h.watchBays.reels = h.reels :=
  Hall.still_field h.watchBays_still Hall.reels fun _ => rfl

@[simp] theorem Hall.dropReservation_reels (h : Hall) (slot : Nat) : (h.dropReservation slot).reels = h.reels := by
  rw [Hall.dropReservation_eq]

@[simp] theorem Hall.endMission_reels (h : Hall) (slot : Nat) (o : MissionOutcome) : (h.endMission slot o).reels = h.reels := by
  cases hm : h.mission slot with
  | none => simp [Hall.endMission, hm]
  | some m =>
    refine ((Hall.endMission_arms hm o).field Hall.reels).trans ?_
    unfold Hall.missionLeaves
    cases m.vehicle <;> simp

/-- The end of a mission is told (R94). -/
theorem Hall.endMission_tells (hm : h.mission slot = some m) (room : h.notices.length < 64) (o : MissionOutcome) :
    ∃ k, ⟨k, .missionEnd slot m.kind m.reel m.vehicle o⟩ ∈ (h.endMission slot o).notices := by
  refine Hall.notified (h := { h with missions := tdel h.missions slot }) room ?_
  have left : Hall.Handles true true (Hall.notify (.missionEnd slot m.kind m.reel m.vehicle o) { h with missions := tdel h.missions slot })
      (h.missionLeaves slot m o) := by
    unfold Hall.missionLeaves; dsimp only; split
    · exact ((Handles.refl _).modVehicle _ _).after (((Follows.refl _).dropReservation slot).watchBays.oweSlots)
    · exact (Handles.refl _).after (((Follows.refl _).dropReservation slot).watchBays.oweSlots)
  have closed := left.handoverEnds slot
  rw [Hall.endMission_eq hm]
  exact ((closed.armRestored m).callOwed m).notices

/-- A cancel before the pick takes its mission from the table (R108). -/
theorem Hall.cancelBeforePick_missions (hm : h.mission slot = some m) (o : MissionOutcome) :
    (h.cancelBeforePick slot o).missions = tdel h.missions slot := by
  have hm' : (h.releaseReel m .fleetController).mission slot = some m := by rwa [Hall.mission, Hall.releaseReel_missions]
  have ended := Hall.endMission_missions hm' o
  rw [Hall.releaseReel_missions] at ended
  unfold Hall.cancelBeforePick
  rw [hm]
  dsimp only
  split
  · rw [Hall.butRoads_field ((Hall.afterEnd_butRoads _ _ _ _).trans (Hall.direct_butRoads _ _ _)) Hall.missions, ended]
  · exact ended

/-- What a cancel before the pick leaves of the reels: one may have lost its call (R44). -/
theorem Hall.cancelBeforePick_reels (h : Hall) (slot : Nat) (o : MissionOutcome) :
    tview Reel.fixed (h.cancelBeforePick slot o).reels = tview Reel.fixed h.reels := by
  unfold Hall.cancelBeforePick
  split
  · rename_i m hm
    have released : tview Reel.fixed (h.releaseReel m .fleetController).reels = tview Reel.fixed h.reels :=
      congrArg Hall.reels ((Follows.refl h).releaseReel m .fleetController).same
    dsimp only
    split
    · rw [Hall.butRoads_field ((Hall.afterEnd_butRoads _ _ _ _).trans (Hall.direct_butRoads _ _ _)) Hall.reels,
        Hall.endMission_reels, released]
    · rw [Hall.endMission_reels, released]
  · rfl

theorem Hall.cancelBeforePick_tells (hm : h.mission slot = some m) (room : h.notices.length ≤ 48) (o : MissionOutcome) :
    ∃ k, ⟨k, .missionEnd slot m.kind m.reel m.vehicle o⟩ ∈ (h.cancelBeforePick slot o).notices := by
  have hm' : (h.releaseReel m .fleetController).mission slot = some m := by rwa [Hall.mission, Hall.releaseReel_missions]
  have ended := Hall.endMission_tells hm' (((Tells.refl h).releaseReel m .fleetController).room (by omega)) o
  unfold Hall.cancelBeforePick
  rw [hm]
  dsimp only
  split
  · rwa [Hall.butRoads_field ((Hall.afterEnd_butRoads _ _ _ _).trans (Hall.direct_butRoads _ _ _)) Hall.notices]
  · exact ended

end


end Sys2Proof.Machine
end

section
/-! PROOF. Purge Spent, Release Quarantine, Declare Reel Location and Withdraw Reel (O26, O29). -/

-- One theorem after another, as in the laws: elaborated all at once they ask for more threads than the check has room for.
set_option Elab.async false

namespace Sys2Proof.Machine

/-! ### Purge Spent (R39) -/

/-- What a purge makes of the hall before the consequences follow. -/
def Hall.purged (h : Hall) : Hall :=
  let g : Hall := { h with reels := h.reels.filter fun p => decide (p.2.state ≠ .spent) }
  if (h.reels.filter fun p => decide (p.2.state = .spent)).length = 0 then g else g.lower ⟨.registerFull, .none⟩

section
variable (h : Hall)

theorem Hall.takePurge_eq : h.takePurge = h.purged.accept (.number (h.reels.filter fun p => decide (p.2.state = .spent)).length) := rfl

theorem Hall.purged_still : h.purged.still = ({ h with reels := h.reels.filter fun p => decide (p.2.state ≠ .spent) } : Hall).still := by
  unfold Hall.purged; dsimp only; split
  · rfl
  · exact Hall.lower_still _ _

theorem Hall.purged_setting : h.purged.setting = h.setting := by
  unfold Hall.purged; dsimp only; split
  · rfl
  · exact ((Hall.Handles.refl (c := true) (k := true) _).lower _).setting

theorem Hall.purged_registerFull (s : h.Sound) (found : 0 < (h.reels.filter fun p => decide (p.2.state = .spent)).length) :
    (h.purged.fault ⟨.registerFull, .none⟩).active = false := by
  unfold Hall.purged
  rw [if_neg (by omega)]
  refine Hall.lower_inactive ?_ _
  exact s.faults

end

/-- Settles O29: the consequences of a purge change neither the records that stay nor REGISTER_FULL. -/
theorem purgeSpentDeletesSpent : Obligations.PurgeSpentDeletesSpent := by
  intro s q ok n
  obtain ⟨answers, hall⟩ := State.request_finishes ok s.hall.takePurge_eq
  have after := s.hall.purged.finish_trace
  refine ⟨_, rfl, answers, ?_, fun sound found => ?_, ?_, ?_, fun room => (List.length_filter_le _ _).trans room⟩
  · rw [hall]
    exact (congrArg Hall.reels after.same).trans
      (congrArg (tview Reel.fixed) (Hall.still_field s.hall.purged_still Hall.reels fun _ => rfl))
  · rw [hall, after.fault rfl]
    exact s.hall.purged_registerFull sound.hall found
  · rw [hall, after.field Hall.editions]
    exact Hall.still_field s.hall.purged_still Hall.editions fun _ => rfl
  · rw [hall, Hall.setting_of_ground after.same, s.hall.purged_setting]
/-! ### Reels that leave the register (R38) -/

section
variable (h : Hall) (i : Nat) (r : Reel)

theorem Hall.deleteReel_still : (h.deleteReel i r).butReels = (h.clearPlace r.loc).butReels := by
  unfold Hall.deleteReel; dsimp only
  rw [Hall.butReels_of_still (Hall.lower_still _ _)]
  split
  · rw [Hall.stockWatch_butReels]; rfl
  · rfl

theorem Hall.deleteReel_reels : (h.deleteReel i r).reels = tdel h.reels i := by
  unfold Hall.deleteReel; dsimp only
  rw [Hall.still_field (Hall.lower_still _ _) Hall.reels fun _ => rfl]
  split <;> simp

/-- The bay of a reel that leaves the register is empty. -/
theorem Hall.deleteReel_bay {b : BayAddr} (hb : r.loc = .bay b) {x : Bay} (hx : (h.deleteReel i r).bay b = some x) :
    x.occupant = none := by
  rw [Hall.bay, Hall.butReels_field (h.deleteReel_still i r) Hall.bays fun _ => rfl] at hx
  change (h.clearPlace r.loc).bay b = some x at hx
  rw [Hall.clearPlace_bay, if_pos hb] at hx
  obtain ⟨y, _, rfl⟩ := Option.map_eq_some_iff.mp hx
  rfl

end

section
variable {h : Hall} {ref : ReelRef} {slot : Nat} {m : Mission}

theorem Hall.cancelMissionOf_eq (named : h.missionOf ref = some slot) : h.cancelMissionOf ref = h.cancelBeforePick slot .cancelled := by
  rw [Hall.cancelMissionOf, named]

theorem Hall.cancelMissionOf_reels (h : Hall) (ref : ReelRef) :
    tview Reel.fixed (h.cancelMissionOf ref).reels = tview Reel.fixed h.reels := by
  unfold Hall.cancelMissionOf; split
  · exact h.cancelBeforePick_reels _ _
  · rfl

theorem Hall.cancelMissionOf_mission (named : h.missionOf ref = some slot) (hm : h.mission slot = some m) :
    (tsorted h.missions = true → (h.cancelMissionOf ref).mission slot = none) ∧
      ∀ k, k ≠ slot → (h.cancelMissionOf ref).mission k = h.mission k := by
  have left : (h.cancelMissionOf ref).missions = tdel h.missions slot := by
    rw [Hall.cancelMissionOf_eq named, Hall.cancelBeforePick_missions hm]
  refine ⟨fun sorted => ?_, fun k hk => ?_⟩
  · rw [Hall.mission, left, tget_tdel_same sorted]
  · rw [Hall.mission, left, tget_tdel_ne _ hk]; rfl

end

/-! ### Where a reel is declared (R37) -/

theorem Hall.reelById_id {h : Hall} {id : ReelId} {i : Nat} {r : Reel} (hr : h.reelById id = some (i, r)) : r.id = id := by
  simpa using List.find?_some hr

section
variable {h : Hall} {id : ReelId} {i : Nat} {r : Reel} {p : DeclPlace}

/-- What a declaration whose checks pass makes of the hall (R37). -/
def Hall.declared (h : Hall) (ref : ReelRef) (r : Reel) : DeclPlace → Answer
  | .bay b => (h.custody ref r { r.quarantine .host with loc := .bay b }).accept .none
  | .nowhere => (h.custody ref r { r.quarantine .host with loc := .nowhere }).accept .none
  | .dock n =>
    if (lowestFree h.missions Config.missionSlots).isNone then h.refuse .full
    else ((h.custody ref r { r with state := .atDock, reason := none, loc := .dock n }).makeIntake ref).1.accept .none

theorem Hall.takeDeclare_taken (hr : h.reelById id = some (i, r)) (there : h.placeExists p = true)
    (mayMove : h.barsDeclare ⟨i, id⟩ r = false) (free : h.bayTaken ⟨i, id⟩ p = false) :
    h.takeDeclare id p = h.declared ⟨i, id⟩ r p := by
  unfold Hall.takeDeclare
  rw [hr]
  simp only [there, mayMove, free]
  cases p <;> rfl

theorem Hall.declared_dock {ref : ReelRef} {n slot : Nat} (free : lowestFree h.missions 48 = some slot) : h.declared ref r (.dock n) =
    ((h.custody ref r { r with state := .atDock, reason := none, loc := .dock n }).makeIntake ref).1.accept .none := by
  unfold Hall.declared
  rw [show lowestFree h.missions Config.missionSlots = some slot from free]
  rfl

/-- A reel that moves for nobody may be declared (R37, check 3). -/
theorem Hall.barsDeclare_of_still (arm : r.state ≠ .onArm) (transit : r.state ≠ .inTransit) (allocated : r.state ≠ .allocated)
    (spent : r.state ≠ .spent) (call : r.call = none) (unnamed : h.named ⟨i, id⟩ = false)
    (carried : ∀ v, r.loc = .vehicle v → (h.vehicle v).mission = none) : h.barsDeclare ⟨i, id⟩ r = false := by
  unfold Hall.barsDeclare
  simp only [arm, transit, allocated, spent, call, unnamed]
  cases hl : r.loc with
  | vehicle v => simp [carried v hl]
  | bay b => rfl
  | arm st x => rfl
  | dock n => rfl
  | nowhere => rfl

theorem Hall.bayTaken_of_free {b : BayAddr} {x : Bay} {ref : ReelRef} (hx : h.bay b = some x) (unreserved : x.reserved = none)
    (own : x.occupant = none ∨ x.occupant = some ref) : h.bayTaken ref (.bay b) = false := by
  rcases own with e | e <;> simp [Hall.bayTaken, hx, unreserved, e]

end

section
variable {s : State} {q : Req} {id : ReelId} {i : Nat} {r : Reel}

theorem State.releaseQuarantine_accepted (ok : q.ok 0x03) (hr : s.hall.reelById id = some (i, r)) (held : r.state = .quarantined)
    {b : BayAddr} (place : r.loc = .bay b) :
    ∃ t, exec (.releaseQuarantine q id) s = .next t ∧ s.Accepts t q 0x03 .none { s.hall with
      reels := tput s.hall.reels i { r with reason := none, state := if r.earliest ≤ s.hall.clock then .stored else .conditioning } } := by
  let r' : Reel := { r with reason := none, state := r.restState s.hall.clock }
  have taken : s.hall.takeRelease id = ((s.hall.putReel i r').retryIfStored r r').accept .none := by
    simp [Hall.takeRelease, hr, held, place, Location.isBay, r']
  exact ⟨_, rfl, State.request_accepts ok taken ((s.hall.putReel_follows i r').retryIfStored r r').toSteps⟩

theorem State.declareReelLocation_range (ok : q.ok 0x04) (hr : s.hall.reelById id = some (i, r)) {b : BayAddr}
    (missing : b.aisle < 1 ∨ 16 < b.aisle ∨ b.pos < 1 ∨ 48 < b.pos ∨ s.hall.bay b = none) :
    exec (.declareReelLocation q id (.bay b)) s = .next (s.reply q 0x04 .range .none) := by
  refine congrArg Host.Outcome.next (State.request_tells ok ?_)
  have gone : s.hall.placeExists (.bay b) = false := by
    rcases missing with e | e | e | e | e
    · simp [Hall.placeExists, bayInRange, inRange]; omega
    · simp [Hall.placeExists, bayInRange, inRange]; omega
    · simp [Hall.placeExists, bayInRange, inRange]; omega
    · simp [Hall.placeExists, bayInRange, inRange]; omega
    · simp [Hall.placeExists, e]
  unfold Hall.takeDeclare
  rw [hr]
  simp only [gone]
  rfl

theorem State.declareReelLocation_bay (ok : q.ok 0x04) (hr : s.hall.reelById id = some (i, r))
    (mayMove : s.hall.barsDeclare ⟨i, id⟩ r = false) {b : BayAddr} {x : Bay} (a1 : 1 ≤ b.aisle) (a2 : b.aisle ≤ 16) (p1 : 1 ≤ b.pos)
    (p2 : b.pos ≤ 48) (hx : s.hall.bay b = some x) (free : s.hall.bayTaken ⟨i, id⟩ (.bay b) = false) :
    ∃ t, exec (.declareReelLocation q id (.bay b)) s = .next t ∧ s.Accepts t q 0x04 .none
      (s.hall.custody ⟨i, id⟩ r { r with state := .quarantined, reason := some .host, loc := .bay b }) :=
  have there : s.hall.placeExists (.bay b) = true := by simp [Hall.placeExists, bayInRange, inRange, a1, a2, p1, p2, hx]
  ⟨_, rfl, State.request_accepts ok (Hall.takeDeclare_taken hr there mayMove free) (Hall.Follows.refl _).toSteps⟩

theorem State.declareReelLocation_nowhere (ok : q.ok 0x04) (hr : s.hall.reelById id = some (i, r))
    (mayMove : s.hall.barsDeclare ⟨i, id⟩ r = false) :
    ∃ t, exec (.declareReelLocation q id .nowhere) s = .next t ∧ s.Accepts t q 0x04 .none
      (s.hall.custody ⟨i, id⟩ r { r with state := .quarantined, reason := some .host, loc := .nowhere }) :=
  ⟨_, rfl, State.request_accepts ok (Hall.takeDeclare_taken hr rfl mayMove rfl) (Hall.Follows.refl _).toSteps⟩

theorem State.declareReelLocation_dock (ok : q.ok 0x04) (hr : s.hall.reelById id = some (i, r))
    (mayMove : s.hall.barsDeclare ⟨i, id⟩ r = false) (unnamed : s.hall.named ⟨i, id⟩ = false) {n slot : Nat}
    (served : s.hall.served (.dock n) = true) (free : lowestFree s.hall.missions 48 = some slot) :
    ∃ t, exec (.declareReelLocation q id (.dock n)) s = .next t ∧
      s.Accepts t q 0x04 .none (s.hall.custody ⟨i, id⟩ r { r with state := .atDock, reason := none, loc := .dock n }) ∧
      ∃ m, tget t.hall.missions slot = some m ∧ m.kind = .intake ∧ m.reel = some ⟨i, id⟩ ∧ m.pickup = some (.dock n) := by
  have taken := (Hall.takeDeclare_taken (p := .dock n) hr served mayMove rfl).trans (Hall.declared_dock free)
  let moved := s.hall.custody ⟨i, id⟩ r { r with state := .atDock, reason := none, loc := .dock n }
  have known : moved.reel ⟨i, id⟩ = some { r with state := .atDock, reason := none, loc := .dock n } := by
    simp [moved, Hall.reel, Hall.reelById_id hr]
  obtain ⟨-, m, hm, kind, reel, pickup⟩ := Hall.makeIntake_made (d := n) known rfl (by simpa [moved] using free)
    (by simpa [moved, Hall.named] using unnamed)
  have follows : moved.Follows (moved.makeIntake ⟨i, id⟩).1 := (Hall.Follows.refl _).makeIntake ⟨i, id⟩
  obtain ⟨m', hm', kind', reel', pickup'⟩ := (Hall.finish_steps _).missionKept hm (by simp [kind])
  exact ⟨_, rfl, State.request_accepts ok taken follows.toSteps, m', (State.request_finishes ok taken).2 ▸ hm', kind'.trans kind,
    reel'.trans reel, pickup'.trans pickup⟩

/-- What Withdraw Reel leaves of the hall (R38). -/
theorem Hall.withdrawn_finish (h : Hall) (id : ReelId) (i : Nat) (r : Reel) :
    let g := ((h.cancelMissionOf ⟨i, id⟩).deleteReel i r).finish
    tview Reel.fixed g.reels = tview Reel.fixed (tdel h.reels i) ∧
      (∀ b x, r.loc = .bay b → g.bay b = some x → x.occupant = none) ∧
      (∀ slot m, h.missionOf ⟨i, id⟩ = some slot → h.mission slot = some m → h.notices.length ≤ 48 →
        ∃ k, ⟨k, .missionEnd slot m.kind m.reel m.vehicle .cancelled⟩ ∈ g.notices) ∧
      g.setting = h.setting := by
  have after := ((h.cancelMissionOf ⟨i, id⟩).deleteReel i r).finish_trace
  have deleted : Hall.Handles true true (h.cancelMissionOf ⟨i, id⟩) ((h.cancelMissionOf ⟨i, id⟩).deleteReel i r) :=
    (Hall.Handles.refl _).deleteReel i r
  refine ⟨?_, fun b x hb hx => ?_, fun slot m named hm room => ?_, ?_⟩
  · calc _ = tview Reel.fixed ((h.cancelMissionOf ⟨i, id⟩).deleteReel i r).reels := congrArg Hall.reels after.same
      _ = _ := by rw [Hall.deleteReel_reels, tview_tdel, Hall.cancelMissionOf_reels, ← tview_tdel]
  · obtain ⟨y, hy, e⟩ := Option.map_eq_some_iff.mp ((after.bays (bayKey b)).symm.trans (congrArg (Option.map Bay.fixed) hx))
    exact (congrArg Bay.occupant e).symm.trans (Hall.deleteReel_bay (x := y) _ i r hb hy)
  · obtain ⟨k, hk⟩ := Hall.cancelBeforePick_tells hm room .cancelled
    rw [← Hall.cancelMissionOf_eq named] at hk
    exact ⟨k, after.notices.subset (deleted.notices.subset hk)⟩
  · exact (Hall.setting_of_ground after.same).trans
      (deleted.setting.trans ((Hall.Handles.refl (c := true) (k := true) h).cancelMissionOf ⟨i, id⟩).setting)

theorem State.withdrawReel_answered (ok : q.ok 0x05) (hr : s.hall.reelById id = some (i, r)) (transit : r.state ≠ .inTransit)
    (allocated : r.state ≠ .allocated) (arm : r.state ≠ .onArm) (place : ∀ v, r.loc ≠ .vehicle v) :
    ∃ t, exec (.withdrawReel q id) s = .next t ∧ s.Answers t q 0x05 .ok .none ∧
      t.hall = ((s.hall.cancelMissionOf ⟨i, id⟩).deleteReel i r).finish := by
  have carried : r.loc.isVehicle = false := by
    unfold Location.isVehicle; split
    · rename_i v hv; exact absurd hv (place v)
    · rfl
  refine ⟨_, rfl, State.request_finishes ok (f := fun h => h.takeWithdraw id) ?_⟩
  simp [Hall.takeWithdraw, hr, transit, allocated, arm, carried]

end

/-- Settles O26: a custody change by the places it clears and fills (R20), and the requests of R36 to R38 by their checks. -/
theorem reelsMoveWithTheirPlaces : Obligations.ReelsMoveWithTheirPlaces := by
  refine ⟨?_, ?_, ?_, ?_⟩
  · intro h ref r r' moves
    refine ⟨by simp, fun j hj => by simp [tget_tput_ne _ _ hj], fun b hb x => Hall.custody_fills_bay moves hb,
      fun b hb x => Hall.custody_clears_bay moves hb, fun v hv known => ?_, fun v hv => ?_,
      fun st x hx k => Hall.custody_fills_arm moves hx, fun st x hx k => Hall.custody_clears_arm moves hx,
      h.custody_missions ref r r', h.custody_zones ref r r'⟩
    · rw [Hall.custody_fills_vehicle moves hv known]
    · rw [Hall.custody_clears_vehicle moves hv]
  · intro s q id i r b ok hr held place
    exact State.releaseQuarantine_accepted ok hr held place
  · intro s q id i r ok hr
    refine ⟨fun b => State.declareReelLocation_range ok hr, fun arm transit allocated spent call unnamed carried => ?_⟩
    have mayMove := Hall.barsDeclare_of_still arm transit allocated spent call unnamed carried
    exact ⟨fun b x a1 a2 p1 p2 hx unreserved own =>
        State.declareReelLocation_bay ok hr mayMove a1 a2 p1 p2 hx (Hall.bayTaken_of_free hx unreserved own),
      State.declareReelLocation_nowhere ok hr mayMove,
      fun n slot => State.declareReelLocation_dock ok hr mayMove unnamed⟩
  · intro s q id i r ok hr transit allocated arm place
    obtain ⟨t, ht, answers, hall⟩ := State.withdrawReel_answered ok hr transit allocated arm place
    obtain ⟨reels, bays, notices, setting⟩ := s.hall.withdrawn_finish id i r
    rw [← hall] at reels bays notices setting
    exact ⟨t, ht, answers, hall, reels, bays, fun slot m named hm =>
      ⟨(Hall.cancelMissionOf_mission named hm).1, (Hall.cancelMissionOf_mission named hm).2, notices slot m named hm⟩, setting⟩

end Sys2Proof.Machine
end

section
/-! PROOF. The clock and the expiries: a silent line the plant has no stand numbers for (O43). -/

-- One theorem after another, as in the laws: elaborated all at once they ask for more threads than the check has room for.
set_option Elab.async false

namespace Sys2Proof.Machine

/-! ### A silent line beyond the four of the plant (R157, R204)

The numbers of stands are kept for lines 1 to 4 (`standKey`, `standOfKey`), and the statement asks no more of a line than that the
state lists it. Of a line 5 that is listed the silence breaks no splice, for the number of stand 5.1 is read back as another stand. -/

/-- Line 5, whose silence timer has run out. -/
def lineBeyond : Line where
  cfg := LineCfg.default
  run := .running
  speed := 600
  slot := none
  waiting := []
  hostCeiling := 900
  ceiling := 900
  reduced := false
  byHost := false
  constraining := []
  lastStatus := none
  silence := some 0
  oweCeiling := false
  oweHold := false

/-- A splice from arm A to arm B that has no outcome yet. -/
def spliceOpen : SpliceRecord where
  st := ⟨5, 1⟩
  time := 0
  fromReel := none
  toReel := none
  fromArm := .a
  toArm := .b
  diameter := 140
  accel := .notReached
  paste := .notReached
  cut := .notReached
  gate := none
  outcome := none

/-- Stand 5.1, SPLICING. -/
def standBeyond : Stand where
  cfg := ⟨0, 1200, 140, 115, 15, 40, 46000, 300, 0⟩
  inService := true
  mode := .splicing
  running := none
  call := none
  handover := none
  implausible := 0
  lastSplice := some spliceOpen
  attempts := 0
  retry := none
  rolesDue := false
  armA := Arm.cold
  armB := Arm.cold

/-- The cold part, with line 5 and its stand listed. -/
def plantBeyond : State :=
  { State.reset with hall := { State.reset.hall with
      lines := [(5, lineBeyond)]
      stands := [(standKey ⟨5, 1⟩, standBeyond)] } }

theorem plantBeyond_stays_splicing :
    ((plantBeyond.hall.lineSilent 5).finish.stand ⟨5, 1⟩).map Stand.mode = some .splicing := by decide +kernel

/-- Refutes O43: the clause on LINE_LINK_DOWN says of every line of the state that its open splices end, and on line 5 of
`plantBeyond` one does not. -/
theorem not_timeAndExpiriesAct : ¬ Obligations.TimeAndExpiriesAct := by
  intro holds
  obtain ⟨silent, -⟩ := holds.2 plantBeyond
  obtain ⟨t, ht, -, -, -, broken, -⟩ := silent 5 lineBeyond 0 rfl rfl (Nat.zero_le _)
  obtain rfl : ({ plantBeyond with hall := (plantBeyond.hall.lineSilent 5).finish } : State) = t := Host.Outcome.next.inj ht
  obtain ⟨y, hy, unknown⟩ := broken ⟨5, 1⟩ standBeyond spliceOpen rfl rfl (by decide) (by decide) rfl rfl rfl
  have splicing := plantBeyond_stays_splicing
  rw [show (plantBeyond.hall.lineSilent 5).finish.stand ⟨5, 1⟩ = some y from hy, Option.map_some, unknown] at splicing
  exact absurd splicing (by decide)

end Sys2Proof.Machine
end

section
/-! PROOF. Arm events: a load that ends the call of another mission (O51). -/

-- One theorem after another, as in the laws: elaborated all at once they ask for more threads than the check has room for.
set_option Elab.async false

namespace Sys2Proof.Machine

/-! ### A load that ends the call of another mission (R116, R126, R134)

The statement asks nothing of the call at the stand where the LOAD handover stands. In `plantCrossed` the call awaits another reel
than the handover, and the mission of the handover is the call's: ARM_LOADED of the handover's reel ends the call, the call's end
cancels the mission, and the handover, which is ASKED, ends with it. -/

/-- A reel, by its ID and its place in transit. -/
def reelCrossed (id : ReelId) (x : ReelState) (loc : Location) (call : Option StandAddr) : Reel where
  id := id
  grade := 0
  width := 1200
  d0 := 1000
  core := 100
  mass := 700
  arrival := 0
  earliest := 0
  state := x
  loc := loc
  reason := none
  initial := 1000
  strip := 0
  consumed := 0
  remaining := 1000
  accepted := 1000
  estimate := false
  isPartial := false
  stripped := false
  call := call
  refusals := 0

/-- The LOAD handover of reel 0 and vehicle 1, ASKED, for the mission in slot 0. -/
def handoverCrossed : Handover where
  kind := .load
  arm := .a
  reel := ⟨0, [1]⟩
  vehicle := 1
  mission := 0
  phase := .asked
  started := 0
  transferDone := false
  armDone := false

/-- The DELIVER mission of reel 1 in slot 0, WAITING. -/
def missionCrossed : Mission where
  kind := .deliver
  reel := some ⟨1, [2]⟩
  pickup := none
  drop := some (.arm ⟨1, 1⟩ .a)
  cls := .deliver
  deadline := 0
  created := 0
  state := .waiting
  vehicle := none
  route := none
  call := some ⟨1, 1⟩
  holdBack := false

/-- Stand 1.1 with that handover, arm A LOADING, and the call for reel 1. -/
def standCrossed : Stand where
  cfg := ⟨0, 1200, 140, 115, 15, 40, 46000, 300, 0⟩
  inService := true
  mode := .normal
  running := none
  call := some ⟨.allocated, 0, 0, some ⟨1, [2]⟩, some 0, 0⟩
  handover := some handoverCrossed
  implausible := 0
  lastSplice := none
  attempts := 0
  retry := none
  rolesDue := false
  armA := ⟨.loading, none, 0, 0, none, true⟩
  armB := Arm.cold

/-- The cold part with that stand, its mission, and the two reels. -/
def plantCrossed : State :=
  { State.reset with hall := { State.reset.hall with
      reels := [(0, reelCrossed [1] .inTransit (.vehicle 1) none), (1, reelCrossed [2] .allocated (.bay ⟨1, 1⟩) (some ⟨1, 1⟩))]
      missions := [(0, missionCrossed)]
      stands := [(standKey ⟨1, 1⟩, standCrossed)] } }

theorem plantCrossed_loses_handover :
    (((plantCrossed.hall.lineHeard 1).takeLoaded ⟨1, 1⟩ .a [1]).stand ⟨1, 1⟩).map Stand.handover = some none := by decide +kernel

/-- Refutes O51: its first clause says that a handover whose vehicle's half is not done stays at the stand with the arm's half done,
and that of `plantCrossed` is gone. -/
theorem not_armEventsMoveReels : ¬ Obligations.ArmEventsMoveReels := by
  intro holds
  obtain ⟨loads, -⟩ := holds plantCrossed ⟨1, 16, true⟩ ⟨1, 1⟩ .a standCrossed ⟨rfl, rfl⟩ rfl (by decide) (by decide) rfl
  obtain ⟨t, -, -, -, -, ⟨-, -, z, hz, -, -, -, stays, -⟩, -⟩ :=
    loads handoverCrossed (reelCrossed [1] .inTransit (.vehicle 1) none) rfl rfl rfl rfl rfl rfl rfl rfl
  have gone := plantCrossed_loses_handover
  rw [show ((plantCrossed.hall.lineHeard 1).takeLoaded ⟨1, 1⟩ .a [1]).stand ⟨1, 1⟩ = some z from hz, Option.map_some,
    stays rfl] at gone
  exact absurd gone (by simp)

end Sys2Proof.Machine
end

section
/-! PROOF. Return Reel and Declare Arm (O38). -/

-- One theorem after another, as in the laws: elaborated all at once they ask for more threads than the check has room for.
set_option Elab.async false

namespace Sys2Proof.Machine

/-! ### Consequences beside a change of a stand

Operations that leave the stands may be taken before a change of a stand or after it. -/

theorem mem_tmod_of_mem {α : Type} {t : Table α} {k : Nat} {f : α → α} {p : Nat × α} (h : p ∈ t) :
    p ∈ tmod t k f ∨ (p.1, f p.2) ∈ tmod t k f := by
  induction t with
  | nil => simp at h
  | cons q t ih =>
    obtain ⟨j, w⟩ := q
    rw [tmod]
    rcases List.mem_cons.mp h with rfl | h
    · split
      · exact .inr List.mem_cons_self
      · exact .inl List.mem_cons_self
    · split
      · exact .inl (List.mem_cons_of_mem _ h)
      · exact (ih h).imp (List.mem_cons_of_mem _) (List.mem_cons_of_mem _)

/-- A change of a stand that leaves its call and its service leaves calls served. -/
theorem Hall.CallsServed.modStand_iff {h : Hall} {st : StandAddr} {f : Stand → Stand}
    (hf : ∀ s, (f s).call = s.call ∧ (f s).inService = s.inService) : (h.modStand st f).CallsServed ↔ h.CallsServed := by
  constructor
  · intro served p hp call
    rcases mem_tmod_of_mem (k := standKey st) (f := f) hp with hq | hq
    · exact served p hq call
    · exact (hf p.2).2 ▸ served _ hq ((hf p.2).1.symm ▸ call)
  · intro served p hp call
    rcases mem_tmod hp with hq | ⟨v, hv, -, rfl⟩
    · exact served p hq call
    · exact (hf v).2.trans (served (standKey st, v) hv ((hf v).1 ▸ call))

theorem Hall.Follows.modStandBoth {a b : Hall} (x : a.Follows b) (e : b.stands = a.stands) (st : StandAddr) (f : Stand → Stand)
    (hf : ∀ s, (f s).call = s.call ∧ (f s).inService = s.inService) : (a.modStand st f).Follows (b.modStand st f) where
  same := by
    have ground (h : Hall) : (h.modStand st f).ground = { h.ground with stands := tview Stand.fixed (tmod h.stands (standKey st) f) } := rfl
    rw [ground, ground, x.same, e]
  sent := x.sent
  notices := x.notices
  stands := by
    rw [Hall.modStand_stands, Hall.modStand_stands, e]
    exact TableRel.refl StandStep.refl _
  missions := x.missions
  zones := x.zones
  aborts served := by
    obtain ⟨later, aborts⟩ := x.aborts ((Hall.CallsServed.modStand_iff hf).mp served)
    exact ⟨(Hall.CallsServed.modStand_iff hf).mpr later, aborts⟩
  sound l s :=
    have later := x.sound l ⟨s.faults, s.notices, s.counts, s.lines, s.ceilings⟩
    ⟨later.faults, later.notices, later.counts, later.lines, later.ceilings⟩

theorem Hall.Follows.modArmBoth {a b : Hall} (x : a.Follows b) (e : b.stands = a.stands) (st : StandAddr) (arm : ArmName)
    (f : Arm → Arm) : (a.modArm st arm f).Follows (b.modArm st arm f) :=
  x.modStandBoth e st _ fun s => by cases arm <;> exact ⟨rfl, rfl⟩

section
variable (h : Hall)

@[simp] theorem Hall.watchBays_stands : h.watchBays.stands = h.stands := Hall.still_field h.watchBays_still Hall.stands fun _ => rfl

@[simp] theorem Hall.reserve_stands (slot : Nat) (b : Option BayAddr) : (h.reserve slot b).stands = h.stands := by
  unfold Hall.reserve; split <;> rfl

@[simp] theorem Hall.enterMission_stands (slot : Nat) (m : Mission) : (h.enterMission slot m).stands = h.stands := by
  unfold Hall.enterMission; dsimp only; split <;> simp

@[simp] theorem Hall.trimPrep_still (st : StandAddr) : (h.trimPrep st).still = h.still := by
  unfold Hall.trimPrep; split
  · rfl
  · exact h.endPrep_still st

theorem Hall.trimPrep_follows (st : StandAddr) : h.Follows (h.trimPrep st) := by
  unfold Hall.trimPrep; split
  · exact .refl h
  · exact (Hall.Follows.refl h).endPrep st

/-- A mission entered in a free slot: what follows is the watch of the bays and the arbiter. -/
theorem Hall.enterMission_follows {slot : Nat} (m : Mission) :
    Hall.Follows { h with missions := tput h.missions slot m } (h.enterMission slot m) := by
  unfold Hall.enterMission; dsimp only; split
  · exact ((Hall.Follows.refl _).watchBays).push _
  · exact (Hall.Follows.refl _).watchBays

end

/-! ### Return Reel (R135) -/

section
variable {h : Hall} {st : StandAddr} {x : Stand} {arm : ArmName} {ref : ReelRef} {slot : Nat}

/-- The RETURN mission of a standby reel. -/
def Hall.standbyReturn (h : Hall) (st : StandAddr) (arm : ArmName) (ref : ReelRef) : Mission :=
  { returnMission ref (some (.arm st arm)) h.clock false with drop := (h.selectFor ref false).map .bay, created := h.clock }

theorem Hall.takeReturn_taken (hx : h.stand st = some x) (run : x.running = some arm.other) (hreel : (x.arm arm).reel = some ref)
    (holds : (x.arm arm).state = .loaded ∨ (x.arm arm).state = .preparing ∨ (x.arm arm).state = .prepared) (unlocked : x.mode ≠ .locked)
    (idle : x.mode ≠ .splicing) (free : x.handover = none) (unnamed : h.named ref = false)
    (room : lowestFree h.missions 48 = some slot) :
    h.takeReturn st = (((h.enterMission slot (h.standbyReturn st arm ref)).reserve slot (h.selectFor ref false)).beginUnload st arm
      ref).accept .none := by
  have standby : x.standby = some arm := by rw [Stand.standby, run]; cases arm <;> rfl
  have next : (x.arm arm).holdsNext = true := by simpa [Arm.holdsNext] using holds
  unfold Hall.takeReturn
  rw [hx]
  simp only [standby, hreel, next, unlocked, idle, free, unnamed]
  rw [Hall.createWithBay_made room (by simpa [returnMission] using unnamed)]
  rfl

/-- What follows the mission and the arm of Return Reel. -/
theorem Hall.beginUnload_follows {a b : Hall} (y : a.Follows b) (e : b.stands = a.stands) (st : StandAddr) (arm : ArmName) (ref : ReelRef) :
    (a.modArm st arm fun z => { z with state := .unloading, beforeUnload := some z.state }).Follows (b.beginUnload st arm ref) :=
  ((((y.modArmBoth e st arm _).easeOverdue st).oweCeiling _).endPrep st).sendLine _ _

theorem Hall.beginUnload_sent (h : Hall) (st : StandAddr) (arm : ArmName) (ref : ReelRef) :
    ∃ seq, Sent.line st.line seq (.unloadRequest st arm ref.id) ∈ (h.beginUnload st arm ref).sent :=
  ⟨_, by rw [Hall.beginUnload, Hall.sendLine_sent]; exact List.mem_append_right _ (List.mem_singleton_self _)⟩

/-- An arm that is not LOADING is after the consequences of the event as it was before them. -/
theorem Hall.Trace.armKept {a b : Hall} (y : a.Trace b) (hx : a.stand st = some x) (still : (x.arm arm).state ≠ .loading) :
    ∃ z, b.stand st = some z ∧ z.arm arm = x.arm arm := by
  obtain ⟨z, hz, step⟩ := y.stands.get (tget_stands_of hx)
  exact ⟨z, hz, step.arm arm still⟩

end

theorem State.returnReel_taken {s : State} {q : Req} {st : StandAddr} {x : Stand} {arm : ArmName} {ref : ReelRef} {slot : Nat}
    (ok : q.ok 0x20) (hx : s.hall.stand st = some x)
    (taken : s.hall.takeReturn st = (((s.hall.enterMission slot (s.hall.standbyReturn st arm ref)).reserve slot
      (s.hall.selectFor ref false)).beginUnload st arm ref).accept .none) (hreel : (x.arm arm).reel = some ref) :
    ∃ t, exec (.returnReel q st) s = .next t ∧
      s.Accepts t q 0x20 .none (Hall.modArm st arm (fun z => { z with state := .unloading, beforeUnload := some z.state })
        { s.hall with missions := tput s.hall.missions slot (s.hall.standbyReturn st arm ref) }) ∧
      (∃ seq, Sent.line st.line seq (.unloadRequest st arm ref.id) ∈ t.hall.sent) ∧
      ∃ y, t.hall.stand st = some y ∧ (y.arm arm).state = .unloading ∧ (y.arm arm).reel = some ref := by
  have follows := Hall.beginUnload_follows (ref := ref) ((s.hall.enterMission_follows (slot := slot)
    (s.hall.standbyReturn st arm ref)).reserve slot (s.hall.selectFor ref false)) (by simp) st arm
  have accepts := State.request_accepts ok taken follows.toSteps
  obtain ⟨seq, sent⟩ := Hall.beginUnload_sent ((s.hall.enterMission slot (s.hall.standbyReturn st arm ref)).reserve slot
    (s.hall.selectFor ref false)) st arm ref
  have begun := Hall.modArm_stand (h := { s.hall with missions := tput s.hall.missions slot (s.hall.standbyReturn st arm ref) })
    (x := x) hx arm fun z => { z with state := .unloading, beforeUnload := some z.state }
  obtain ⟨y, hy, same⟩ := accepts.2.armKept (arm := arm) begun (by simp [Stand.arm_modArm_same])
  rw [Stand.arm_modArm_same] at same
  refine ⟨_, rfl, accepts, ⟨seq, ?_⟩, y, hy, by rw [same], by rw [same]; exact hreel⟩
  rw [(State.request_finishes ok taken).2]
  exact (Hall.finish_steps _).sent.subset sent

/-! ### An arm declared (R141, R148) -/

section
variable {h : Hall} {st : StandAddr} {x : Stand} {arm : ArmName}

/-- A stand after one of its arms has been declared, with the mode an UNKNOWN stand takes (R141). -/
def Stand.declared (s : Stand) (arm : ArmName) (mode : Mode) : Stand :=
  let z := s.modArm arm fun a => { a with known := true }
  if s.mode = .unknown ∧ z.armA.known = true ∧ z.armB.known = true then { z with mode := mode } else z

/-- The mode an UNKNOWN stand takes: LOCKED where its lock test finds it so (R148). -/
def Hall.modeDeclared (h : Hall) (st : StandAddr) : Mode :=
  if h.downTo st (fun x r => max x.cfg.ds (r.core + 20) + x.cfg.lockMargin) then .locked else .normal

/-- What the lock test goes by: the running reel and the settings of the stand. -/
theorem Hall.downTo_congr {a b : Hall} {y z : Stand} (ha : a.stand st = some y) (hb : b.stand st = some z) (cfg : y.cfg = z.cfg)
    (run : y.running = z.running) (reel : ∀ k, (y.arm k).reel = (z.arm k).reel) (reels : a.reels = b.reels) (grades : a.grades = b.grades)
    (limit : StandCfg → Reel → Nat) : a.downTo st (fun s r => limit s.cfg r) = b.downTo st (fun s r => limit s.cfg r) := by
  have running : a.runningReel st = b.runningReel st := by
    rw [Hall.runningReel, Hall.runningReel, ha, hb, Option.bind_some, Option.bind_some, run,
      show a.reel = b.reel from funext fun ref => by rw [Hall.reel, Hall.reel, reels]]
    simp only [reel]
  have tracked (r : Reel) : a.tracked r = b.tracked r := by simp only [Hall.tracked, Hall.gradeOf, grades]
  unfold Hall.downTo
  rw [ha, hb, running]
  cases b.runningReel st <;> simp only [cfg, tracked]

theorem Stand.declared_arm (s : Stand) (arm : ArmName) (mode : Mode) : ((s.declared arm mode).arm arm).known = true := by
  unfold Stand.declared; dsimp only; split <;> cases arm <;> rfl

/-- Both arms of a stand are known after one has been declared when the other was known. -/
theorem Stand.declared_mode (s : Stand) (arm : ArmName) (mode : Mode) (unknown : s.mode = .unknown) :
    (s.declared arm mode).mode = if (s.arm arm.other).known then mode else .unknown := by
  unfold Stand.declared
  cases arm <;> simp only [Stand.modArm, Stand.arm, ArmName.other, unknown] <;> split <;> simp_all

theorem Hall.setMode_stands (h : Hall) (st : StandAddr) (m : Mode) :
    (h.setMode st m).stands = (h.modStand st fun s => { s with mode := m }).stands := by
  unfold Hall.setMode; dsimp only
  split <;> split <;> simp

/-- An UNKNOWN stand whose arms are both known becomes NORMAL, or LOCKED by its lock test. -/
theorem Hall.becomesNormal_follows {a : Hall} (hx : h.stand st = some x) (y : a.Follows h) (e : h.stands = a.stands) :
    (a.modStand st fun s => { s with mode := h.modeDeclared st }).Follows ((h.setMode st .normal).lockTest st) := by
  have normal := (y.modStandBoth e st (fun s => { s with mode := .normal }) fun _ => ⟨rfl, rfl⟩).trans (h.setMode_follows st .normal)
  have stand : (h.setMode st .normal).stand st = some { x with mode := .normal } := by
    rw [Hall.stand, Hall.setMode_stands, Hall.modStand_stands, tget_tmod_same, tget_stands_of hx]; rfl
  have same : (h.setMode st .normal).downTo st (fun s r => s.ds r + s.cfg.lockMargin) =
      h.downTo st fun x r => max x.cfg.ds (r.core + 20) + x.cfg.lockMargin :=
    Hall.downTo_congr stand hx rfl rfl (fun k => by cases k <;> rfl) (by simp)
      ((h.setMode_follows st .normal).trace.field Hall.grades)
      fun cfg r => max cfg.ds (r.core + 20) + cfg.lockMargin
  unfold Hall.lockTest Hall.modeDeclared
  rw [same, show (h.setMode st .normal).mode st = .normal by rw [Hall.mode, stand]; rfl]
  by_cases down : h.downTo st (fun x r => max x.cfg.ds (r.core + 20) + x.cfg.lockMargin) = true
  · rw [if_pos down, if_pos ⟨rfl, down⟩]
    have locked := (normal.modStandBoth (by simp only [Hall.setMode_stands, Hall.modStand_stands, e]) st
      (fun s => { s with mode := .locked }) fun _ => ⟨rfl, rfl⟩).trans ((h.setMode st .normal).setMode_follows st .locked)
    simpa only [Hall.modStand, tmod_tmod] using locked
  · rw [if_neg down, if_neg fun both => down both.2]
    exact normal

/-- What follows the declaration of an arm. -/
theorem Hall.armDeclared_follows (hx : h.stand st = some x) (arm : ArmName) :
    (h.modStand st fun s => s.declared arm (h.modeDeclared st)).Follows (h.armDeclared st arm) := by
  have kept : (h.trimPrep st).stands = h.stands := Hall.still_field (h.trimPrep_still st) Hall.stands fun _ => rfl
  have known := (h.trimPrep_follows st).modArmBoth kept st arm fun a => { a with known := true }
  generalize hb : (h.trimPrep st).modArm st arm (fun a => { a with known := true }) = b at known
  have stands : b.stands = (h.modArm st arm fun a => { a with known := true }).stands := by
    rw [← hb, Hall.modArm_stands, Hall.modArm_stands, kept]
  have stand : b.stand st = some (x.modArm arm fun a => { a with known := true }) := by
    rw [Hall.stand, stands]; exact Hall.modArm_stand hx arm _
  have still : b.reels = h.reels ∧ b.grades = h.grades := by
    rw [← hb]
    exact ⟨Hall.still_field (h.trimPrep_still st) Hall.reels fun _ => rfl, Hall.still_field (h.trimPrep_still st) Hall.grades fun _ => rfl⟩
  have mode : b.modeDeclared st = h.modeDeclared st := by
    rw [Hall.modeDeclared, Hall.modeDeclared, Hall.downTo_congr stand hx (by cases arm <;> rfl) (by cases arm <;> rfl)
      (fun k => by cases arm <;> cases k <;> rfl) still.1 still.2 fun cfg r => max cfg.ds (r.core + 20) + cfg.lockMargin]
  have unchanged : (x.modArm arm fun a => { a with known := true }).mode = x.mode := by cases arm <;> rfl
  have record (f : Stand → Stand) (hf : f (x.modArm arm fun a => { a with known := true }) = x.declared arm (h.modeDeclared st)) :
      h.modStand st (fun s => s.declared arm (h.modeDeclared st)) = (h.modArm st arm fun a => { a with known := true }).modStand st f :=
    congrArg (fun t => { h with stands := t })
      (tmod_tmod_congr (g' := fun s => s.declared arm (h.modeDeclared st)) (tget_stands_of hx) hf).symm
  unfold Hall.armDeclared
  rw [hb]
  dsimp only
  rw [stand]
  dsimp only
  split
  · rename_i both
    rw [record (fun s => { s with mode := h.modeDeclared st }) (by rw [Stand.declared, if_pos (unchanged ▸ both)]), ← mode]
    exact Hall.becomesNormal_follows stand known stands
  · rename_i short
    rw [record id (by rw [Stand.declared, if_neg (unchanged ▸ short)]; rfl)]
    simpa only [Hall.modStand, tmod_tmod, Hall.modArm, Function.comp_id, id] using known

/-- Contents that are the record's own change nothing: no reel on an EMPTY or LOADING arm (R139). -/
theorem Hall.takeOccupancy_nothing (hx : h.stand st = some x) (bare : (x.arm arm).reel = none)
    (idle : (x.arm arm).state = .empty ∨ (x.arm arm).state = .loading) (role : Option Role) : h.takeOccupancy st arm none role = h := by
  have state : h.armState st arm = (x.arm arm).state := by rw [Hall.armState, hx]; rfl
  unfold Hall.takeOccupancy
  rw [hx]; dsimp only; rw [bare]; dsimp only
  rcases idle with e | e
  · rw [if_neg (by simp [e]), Hall.emptyShows, Hall.vacate, state, e]
  · rw [if_pos e]

/-- A reel in its role changes nothing (R139). -/
theorem Hall.takeRole_same (hx : h.stand st = some x) {role : Role}
    (own : (x.arm arm).state = .prepared ∧ role = .prepared ∨ (x.arm arm).state = .loaded ∧ role = .standby) :
    h.takeRole st arm role = h := by
  have state : h.armState st arm = (x.arm arm).state := by rw [Hall.armState, hx]; rfl
  unfold Hall.takeRole
  rw [hx, Option.map_some]; dsimp only
  split
  · rfl
  · rcases own with ⟨e, rfl⟩ | ⟨e, rfl⟩ <;> simp [state, e]

theorem Hall.declarable_iff : h.declarable st x = true ↔ x.handover = none ∧
    (x.mode = .unknown ∨ x.mode = .normal ∧ ∃ l, h.line st.line = some l ∧ l.run = .stopped) := by
  simp [Hall.declarable, Option.any_eq_true]

variable {id : ReelId} {i : Nat} {r : Reel} {role : Role}

theorem Hall.takeDeclareArm_none (hx : h.stand st = some x) (open_ : h.declarable st x = true) :
    h.takeDeclareArm st arm none role = ((h.takeOccupancy st arm none none).armDeclared st arm).accept .none := by
  simp [Hall.takeDeclareArm, hx, open_]

theorem Hall.takeDeclareArm_own (hx : h.stand st = some x) (open_ : h.declarable st x = true) {ref : ReelRef}
    (held : (x.arm arm).reel = some ref) (hr : h.reelById ref.id = some (i, r)) (mayRun : ¬(role = .running ∧ (x.arm arm.other).state = .running)) :
    h.takeDeclareArm st arm (some ref.id) role = ((h.takeRole st arm role).armDeclared st arm).accept .none := by
  simp [Hall.takeDeclareArm, hx, open_, hr, mayRun, held]

theorem Hall.takeDeclareArm_other (hx : h.stand st = some x) (open_ : h.declarable st x = true) {ref : ReelRef}
    (held : (x.arm arm).reel = some ref) (other : ref.id ≠ id) (hr : h.reelById id = some (i, r))
    (mayRun : ¬(role = .running ∧ (x.arm arm.other).state = .running)) : h.takeDeclareArm st arm (some id) role = h.refuse .state := by
  simp [Hall.takeDeclareArm, hx, open_, hr, mayRun, held, other]

theorem Hall.takeDeclareArm_adopts (hx : h.stand st = some x) (open_ : h.declarable st x = true) (held : (x.arm arm).reel = none)
    (hr : h.reelById id = some (i, r)) (mayRun : ¬(role = .running ∧ (x.arm arm.other).state = .running))
    (taken : (h.adopt st arm ⟨i, id⟩ (some role)).2 = true) :
    h.takeDeclareArm st arm (some id) role =
      (((h.vacate st arm).adopt st arm ⟨i, id⟩ (some role)).1.armDeclared st arm).accept .none := by
  unfold Hall.takeDeclareArm
  simp only [hx, open_, hr, mayRun, held]
  generalize h.adopt st arm ⟨i, id⟩ (some role) = a at taken
  obtain ⟨g, b⟩ := a
  cases taken
  rfl

theorem Hall.takeDeclareArm_refused (hx : h.stand st = some x) (open_ : h.declarable st x = true) (held : (x.arm arm).reel = none)
    (hr : h.reelById id = some (i, r)) (mayRun : ¬(role = .running ∧ (x.arm arm.other).state = .running))
    (refused : (h.adopt st arm ⟨i, id⟩ (some role)).2 = false) :
    h.takeDeclareArm st arm (some id) role = ⟨(h.adopt st arm ⟨i, id⟩ (some role)).1.finish, .state, .none⟩ := by
  unfold Hall.takeDeclareArm
  simp only [hx, open_, hr, mayRun, held]
  generalize h.adopt st arm ⟨i, id⟩ (some role) = a at refused
  obtain ⟨g, b⟩ := a
  cases refused
  rfl

theorem Hall.takeDeclareArm_unknown (hx : h.stand st = some x) (open_ : h.declarable st x = true) (hr : h.reelById id = none) :
    h.takeDeclareArm st arm (some id) role = h.refuse .notFound := by
  simp [Hall.takeDeclareArm, hx, open_, hr]

theorem Hall.takeDeclareArm_runs (hx : h.stand st = some x) (open_ : h.declarable st x = true) (hr : h.reelById id = some (i, r))
    (run : role = .running) (runs : (x.arm arm.other).state = .running) :
    h.takeDeclareArm st arm (some id) role = h.refuse .state := by
  simp [Hall.takeDeclareArm, hx, open_, hr, run, runs]

/-- The hall keeps its setting through what declaring an arm takes it to. -/
theorem Hall.declared_setting {g : Hall} (y : h.Handles false false g) : ((g.armDeclared st arm).finish).setting = h.setting :=
  (Hall.setting_of_ground (Hall.finish_trace _).same).trans (handles_declared y st arm).setting

/-- What a declaration leaves of the arm and of the mode. -/
theorem Hall.Trace.declared {g : Hall} {mode : Mode} (y : Hall.Trace (h.modStand st fun s => s.declared arm mode) g)
    (hx : h.stand st = some x) (kind : mode = .normal ∨ mode = .locked) :
    ∃ z, g.stand st = some z ∧ (z.arm arm).known = true ∧
      (x.mode = .unknown → (x.arm arm.other).known = true → z.mode ≠ .unknown) ∧
      (x.mode = .unknown → (x.arm arm.other).known = false → z.mode = .unknown) := by
  have stand : (h.modStand st fun s => s.declared arm mode).stand st = some (x.declared arm mode) := by
    rw [Hall.stand, Hall.modStand_stands, tget_tmod_same, tget_stands_of hx]; rfl
  obtain ⟨z, hz, step⟩ := y.stands.get (tget_stands_of stand)
  have fixed : z.fixed = (x.declared arm mode).fixed := by
    have e := y.standsFixed (standKey st)
    rw [hz, tget_stands_of stand] at e
    exact Option.some.inj e
  have known : (z.arm arm).known = ((x.declared arm mode).arm arm).known := by
    cases arm
    · exact congrArg (fun s => s.armA.known) fixed
    · exact congrArg (fun s => s.armB.known) fixed
  refine ⟨z, hz, known.trans (x.declared_arm arm mode), fun unknown other => ?_, fun unknown other => ?_⟩
  · have now := x.declared_mode arm mode unknown
    rw [if_pos other] at now
    rcases step.onward with e | e | e
    · rw [e, now]; rcases kind with rfl | rfl <;> simp
    · simp [e]
    · simp [e]
  · have now := x.declared_mode arm mode unknown
    rw [if_neg (by simp [other])] at now
    exact (step.mode (.inl now)).1.trans now

end

section
variable {s : State} {q : Req} {st : StandAddr} {arm : ArmName} {role : Role} {x : Stand}

/-- A declaration that changes nothing but the known flag, and the mode by it. -/
theorem State.declareArm_known (ok : q.ok 0x21) (hx : s.hall.stand st = some x) {reel : Option ReelId}
    (taken : s.hall.takeDeclareArm st arm reel role = (s.hall.armDeclared st arm).accept .none) :
    ∃ t, exec (.declareArm q st arm reel role) s = .next t ∧
      s.Accepts t q 0x21 .none (s.hall.modStand st fun y => y.declared arm (s.hall.modeDeclared st)) ∧
      ∃ z, t.hall.stand st = some z ∧ (z.arm arm).known = true ∧
        (x.mode = .unknown → (x.arm arm.other).known = true → z.mode ≠ .unknown) ∧
        (x.mode = .unknown → (x.arm arm.other).known = false → z.mode = .unknown) := by
  have accepts := State.request_accepts ok taken (Hall.armDeclared_follows hx arm).toSteps
  refine ⟨_, rfl, accepts, accepts.2.declared hx ?_⟩
  unfold Hall.modeDeclared; split
  · exact .inr rfl
  · exact .inl rfl

/-- A declaration of a stand whose arms may be declared (R141). -/
theorem State.declareArm_open (ok : q.ok 0x21) (hx : s.hall.stand st = some x) (open_ : s.hall.declarable st x = true)
    {id : ReelId} {i : Nat} {r : Reel} (hr : s.hall.reelById id = some (i, r))
    (mayRun : ¬(role = .running ∧ (x.arm arm.other).state = .running)) :
    ((x.arm arm).reel = none → (s.hall.adopt st arm ⟨i, id⟩ (some role)).2 = true →
      ∃ t, exec (.declareArm q st arm (some id) role) s = .next t ∧ s.Answers t q 0x21 .ok .none ∧ t.hall.setting = s.hall.setting ∧
        ((x.arm arm).state = .empty → t.hall = ((s.hall.adopt st arm ⟨i, id⟩ (some role)).1.armDeclared st arm).finish)) ∧
    ((x.arm arm).reel = none → (s.hall.adopt st arm ⟨i, id⟩ (some role)).2 = false →
      ∃ t, exec (.declareArm q st arm (some id) role) s = .next t ∧ s.Answers t q 0x21 .state .none ∧
        t.hall = (s.hall.adopt st arm ⟨i, id⟩ (some role)).1.finish) ∧
    ∀ ref, (x.arm arm).reel = some ref → ref.id ≠ id →
      exec (.declareArm q st arm (some id) role) s = .next (s.reply q 0x21 .state .none) := by
  refine ⟨fun held taken => ?_, fun held refused => ?_, fun ref held other => ?_⟩
  · obtain ⟨answers, hall⟩ := State.request_finishes ok (Hall.takeDeclareArm_adopts hx open_ held hr mayRun taken)
    refine ⟨_, rfl, answers, ?_, fun bare => ?_⟩
    · rw [hall]
      exact Hall.declared_setting (((Hall.Handles.refl _).vacate st arm).adopt st arm _ _)
    · have same : s.hall.vacate st arm = s.hall := by
        rw [Hall.vacate, Hall.armState, hx, Option.map_some, Option.getD_some, bare]
      rw [hall, same]
  · obtain ⟨answers, hall⟩ := State.request_answers ok (Hall.takeDeclareArm_refused hx open_ held hr mayRun refused)
    exact ⟨_, rfl, answers, hall⟩
  · exact congrArg Host.Outcome.next (State.request_tells ok (Hall.takeDeclareArm_other hx open_ held other hr mayRun))

theorem State.declareArm_shut (ok : q.ok 0x21) (hx : s.hall.stand st = some x) (shut : s.hall.declarable st x = false)
    (reel : Option ReelId) : exec (.declareArm q st arm reel role) s = .next (s.reply q 0x21 .state .none) :=
  congrArg Host.Outcome.next (State.request_tells ok (by simp [Hall.takeDeclareArm, hx, shut, Hall.refuse]))

end

/-- Settles O38: what Return Reel and Declare Arm make of the stand, and what follows from it. -/
theorem hostUnloadsAndDeclaresArms : Obligations.HostUnloadsAndDeclaresArms := by
  refine ⟨fun s q st x arm ref slot ok hx run hreel holds unlocked idle free unnamed room => ?_, fun s q st arm role ok => ⟨?_, ?_, ?_⟩⟩
  · exact State.returnReel_taken ok hx (Hall.takeReturn_taken hx run hreel holds unlocked idle free unnamed room) hreel
  · intro x l hx hl free mode settled _ g
    have open_ : s.hall.declarable st x = true := Hall.declarable_iff.mpr ⟨free, mode.imp id fun ⟨n, stopped⟩ => ⟨n, l, hl, stopped⟩⟩
    refine ⟨fun bare state => ?_, ?_, fun id i r hr mayRun => State.declareArm_open ok hx open_ hr mayRun, fun id hr => ?_,
      fun id i r hr run runs => ?_, fun ref i r held hr own => ?_⟩
    · exact State.declareArm_known ok hx
        ((Hall.takeDeclareArm_none hx open_).trans (by rw [Hall.takeOccupancy_nothing hx bare state]))
    · obtain ⟨answers, hall⟩ := State.request_finishes ok (Hall.takeDeclareArm_none (arm := arm) (role := role) hx open_)
      refine ⟨_, rfl, answers, ?_, hall⟩
      rw [hall]
      exact Hall.declared_setting ((Hall.Handles.refl _).takeOccupancy st arm none none)
    · exact congrArg Host.Outcome.next (State.request_tells ok (Hall.takeDeclareArm_unknown hx open_ hr))
    · exact congrArg Host.Outcome.next (State.request_tells ok (Hall.takeDeclareArm_runs hx open_ hr run runs))
    · refine State.declareArm_known ok hx ((Hall.takeDeclareArm_own hx open_ held hr ?_).trans (by rw [Hall.takeRole_same hx own]))
      rcases own with ⟨-, rfl⟩ | ⟨-, rfl⟩ <;> simp
  · intro x reel hx busy
    refine State.declareArm_shut ok hx (Bool.eq_false_iff.mpr fun open_ => ?_) reel
    obtain ⟨free, mode⟩ := Hall.declarable_iff.mp open_
    rcases busy with taken | ⟨known, other⟩
    · simp [free] at taken
    · obtain ⟨normal, l, hl, stopped⟩ := mode.resolve_left known
      exact other.elim (fun e => e normal) fun e => e l hl stopped
  · intro reel hx
    exact congrArg Host.Outcome.next (State.request_tells ok (by simp [Hall.takeDeclareArm, hx, Hall.refuse]))

end Sys2Proof.Machine
end

section
/-! PROOF. What the work on missions leaves of vehicles, stands and notices (R44, R55, R94, R105, R108). -/

-- One theorem after another, as in the laws: elaborated all at once they ask for more threads than the check has room for.
set_option Elab.async false

namespace Sys2Proof.Machine

/-! ### Vehicles under new directives (R92, R110)

A directive, an activity and a grant leave of a vehicle all but what it is told to do. -/

/-- A vehicle but its activity, its directives and its grants. -/
def Vehicle.borne (x : Vehicle) : Vehicle :=
  { x with activity := .offline, ahead := [], directive := ⟨0, .hold⟩, kept := none, beforeStop := none, withdraw := false }

/-- A field of a vehicle that is neither told to it nor granted. -/
theorem Vehicle.borne_field {x y : Vehicle} (e : x.borne = y.borne) {α : Type} (f : Vehicle → α)
    (hf : ∀ z : Vehicle, f z.borne = f z := by intro; rfl) : f x = f y := by rw [← hf x, e, hf y]

theorem Vehicle.Granted.borne {x y : Vehicle} (g : x.Granted y) : y.borne = x.borne := g.field Vehicle.borne

section
variable (h : Hall) (v : Nat)

/-- A change of a vehicle that leaves what is borne by it. -/
theorem Hall.modVehicle_borne {f : Vehicle → Vehicle} (hf : ∀ x, (f x).borne = x.borne) (w : Nat) :
    ((h.modVehicle v f).vehicle w).borne = (h.vehicle w).borne := by
  unfold Hall.vehicle
  rw [Hall.modVehicle_vehicles, tget_tmod]
  split
  · rename_i e; subst e
    cases tget h.vehicles w with
    | none => rfl
    | some x => exact hf x
  · rfl

theorem Hall.issue_borne (k : DirKind) (w : Nat) : ((h.issue v k).vehicle w).borne = (h.vehicle w).borne :=
  h.modVehicle_borne v (f := fun x => { x with
    directive := ⟨(h.vehicle v).directive.number + 1, k⟩, withdraw := h.owesWithdrawal v (h.vehicle v).directive.kind k }) (fun _ => rfl) w

theorem Hall.setActivity_borne (a : Activity) (w : Nat) : ((h.setActivity v a).vehicle w).borne = (h.vehicle w).borne :=
  h.modVehicle_borne v (by intro x; split <;> [rfl; split <;> rfl]) w

theorem Hall.direct_borne (k : DirKind) (w : Nat) : ((h.direct v k).vehicle w).borne = (h.vehicle w).borne := by
  unfold Hall.direct; dsimp only; split
  · split
    · exact h.modVehicle_borne v (by intro; rfl) w
    · exact (Hall.issue_borne _ v _ w).trans (h.modVehicle_borne v (by intro; rfl) w)
  · exact h.issue_borne v k w

theorem Hall.afterEnd_borne (k : MissionKind) (a : Activity) (w : Nat) : ((h.afterEnd v k a).vehicle w).borne = (h.vehicle w).borne :=
  (((h.afterEnd_roads v k a).vehicles w).borne).trans (h.setActivity_borne v a w)

/-! The vehicles known stay known. -/

theorem Hall.modVehicle_known (f : Vehicle → Vehicle) (w : Nat) :
    (tget (h.modVehicle v f).vehicles w).isSome = (tget h.vehicles w).isSome := by
  rw [Hall.modVehicle_vehicles, tget_tmod]; split <;> simp

theorem Hall.setActivity_known (a : Activity) (w : Nat) : (tget (h.setActivity v a).vehicles w).isSome = (tget h.vehicles w).isSome :=
  h.modVehicle_known v _ w

/-! A vehicle told what to do while the fleet runs. -/

theorem Hall.direct_directive {h : Hall} (run : h.allStop = false) {v : Nat} (known : (tget h.vehicles v).isSome) (k : DirKind) :
    ((h.direct v k).vehicle v).directive = ⟨(h.vehicle v).directive.number + 1, k⟩ := by
  unfold Hall.direct
  rw [run]
  change ((h.modVehicle v fun x => { x with
    directive := ⟨(h.vehicle v).directive.number + 1, k⟩, withdraw := h.owesWithdrawal v (h.vehicle v).directive.kind k }).vehicle v).directive = _
  rw [Hall.vehicle_modVehicle _ _ _ _ (.inr known), if_pos rfl]

theorem Hall.direct_activity {h : Hall} (run : h.allStop = false) {v : Nat} (known : (tget h.vehicles v).isSome) (k : DirKind) :
    ((h.direct v k).vehicle v).activity = (h.vehicle v).activity := by
  unfold Hall.direct
  rw [run]
  change ((h.modVehicle v fun x => { x with
    directive := ⟨(h.vehicle v).directive.number + 1, k⟩, withdraw := h.owesWithdrawal v (h.vehicle v).directive.kind k }).vehicle v).activity = _
  rw [Hall.vehicle_modVehicle _ _ _ _ (.inr known), if_pos rfl]

theorem Hall.setActivity_running {h : Hall} (run : h.allStop = false) {v : Nat} (seated : (h.vehicle v).seated = true) (a : Activity) :
    (h.setActivity v a).vehicle v = { h.vehicle v with activity := a } := by
  have known : (tget h.vehicles v).isSome := by
    cases hx : tget h.vehicles v with
    | some x => rfl
    | none => simp [Hall.vehicle, hx, Vehicle.cold] at seated
  rw [Hall.setActivity, Hall.vehicle_modVehicle _ _ _ _ (.inr known), if_pos rfl]
  simp [seated, run]

theorem Hall.setActivity_directive (a : Activity) (w : Nat) : ((h.setActivity v a).vehicle w).directive = (h.vehicle w).directive := by
  unfold Hall.setActivity Hall.vehicle
  rw [Hall.modVehicle_vehicles, tget_tmod]
  split
  · rename_i e; subst e
    cases tget h.vehicles w with
    | none => rfl
    | some x => dsimp only [Option.map_some, Option.getD_some]; split <;> [rfl; split <;> rfl]
  · rfl

end

/-! ### What the end of a mission leaves of the agenda, the vehicles and the bays (R94, R95) -/

section
variable (h : Hall) (slot : Nat)

theorem Hall.watchBays_agenda : h.watchBays.agenda = h.agenda := Hall.still_field h.watchBays_still Hall.agenda fun _ => rfl

theorem Hall.dropReservation_owes {j : Job} (hj : j ∈ h.agenda) : j ∈ (h.dropReservation slot).agenda := by
  unfold Hall.dropReservation; split
  · exact Hall.mem_push.mpr (.inr hj)
  · exact hj

theorem Hall.missionLeaves_owes (m : Mission) (o : MissionOutcome) {j : Job} (hj : j ∈ h.agenda) :
    j ∈ (h.missionLeaves slot m o).agenda := by
  unfold Hall.missionLeaves
  refine Hall.mem_oweSlots.mpr (.inr ?_)
  rw [Hall.watchBays_agenda]
  refine Hall.dropReservation_owes _ _ ?_
  split <;> simpa [Hall.still_field (Hall.notify_still _ _) Hall.agenda fun _ => rfl] using hj

theorem Hall.endMission_owes (o : MissionOutcome) {j : Job} (hj : j ∈ h.agenda) : j ∈ (h.endMission slot o).agenda := by
  cases hm : h.mission slot with
  | none => simpa [Hall.endMission, hm] using hj
  | some m => exact (Hall.endMission_arms hm o).owes j (h.missionLeaves_owes slot m o hj)

@[simp] theorem Hall.dropReservation_vehicles : (h.dropReservation slot).vehicles = h.vehicles := by rw [Hall.dropReservation_eq]

@[simp] theorem Hall.dropReservation_stands : (h.dropReservation slot).stands = h.stands := by rw [Hall.dropReservation_eq]

@[simp] theorem Hall.watchBays_vehicles : h.watchBays.vehicles = h.vehicles := Hall.still_field h.watchBays_still Hall.vehicles fun _ => rfl

@[simp] theorem Hall.watchBays_bays : h.watchBays.bays = h.bays := Hall.still_field h.watchBays_still Hall.bays fun _ => rfl

@[simp] theorem Hall.notify_vehicle (x : Notice) (v : Nat) : (h.notify x).vehicle v = h.vehicle v := by simp [Hall.vehicle]

theorem Hall.missionLeaves_vehicle (m : Mission) (o : MissionOutcome) (v : Nat) :
    (h.missionLeaves slot m o).vehicle v = if m.vehicle = some v then { h.vehicle v with mission := none } else h.vehicle v := by
  unfold Hall.missionLeaves
  cases hv : m.vehicle with
  | none => simp [Hall.vehicle]
  | some w =>
    dsimp only
    rw [Hall.vehicle, Hall.oweSlots_vehicles, Hall.watchBays_vehicles, Hall.dropReservation_vehicles]
    refine (Hall.vehicle_modVehicle _ w v _ (.inl rfl)).trans ?_
    by_cases e : v = w
    · subst e; rw [if_pos rfl, if_pos rfl, Hall.notify_vehicle]; rfl
    · rw [if_neg e, if_neg fun k => e (Option.some.inj k).symm, Hall.notify_vehicle]; rfl

/-- The vehicle of a mission that ends is without it. -/
theorem Hall.endMission_vehicle {m : Mission} (hm : h.mission slot = some m) (o : MissionOutcome) (v : Nat) :
    (h.endMission slot o).vehicle v = if m.vehicle = some v then { h.vehicle v with mission := none } else h.vehicle v :=
  ((Hall.endMission_arms hm o).field fun g => g.vehicle v).trans (h.missionLeaves_vehicle slot m o v)

theorem Hall.missionLeaves_known (m : Mission) (o : MissionOutcome) (v : Nat) :
    (tget (h.missionLeaves slot m o).vehicles v).isSome = (tget h.vehicles v).isSome := by
  unfold Hall.missionLeaves
  cases m.vehicle with
  | none => simp
  | some w =>
    dsimp only
    rw [Hall.oweSlots_vehicles, Hall.watchBays_vehicles, Hall.dropReservation_vehicles, Hall.modVehicle_known, Hall.notify_vehicles]

theorem Hall.endMission_known (o : MissionOutcome) (v : Nat) :
    (tget (h.endMission slot o).vehicles v).isSome = (tget h.vehicles v).isSome := by
  cases hm : h.mission slot with
  | none => simp [Hall.endMission, hm]
  | some m =>
    rw [(Hall.endMission_arms hm o).field Hall.vehicles]
    exact h.missionLeaves_known slot m o v

/-- The bays but their reservations stay. -/
theorem Hall.endMission_bays (o : MissionOutcome) : tview Bay.fixed (h.endMission slot o).bays = tview Bay.fixed h.bays := by
  cases hm : h.mission slot with
  | none => simp [Hall.endMission, hm]
  | some m =>
    have dropped (g : Hall) : tview Bay.fixed (g.dropReservation slot).bays = tview Bay.fixed g.bays :=
      congrArg Hall.bays ((Hall.Follows.refl g).dropReservation slot).same
    rw [(Hall.endMission_arms hm o).field Hall.bays, Hall.missionLeaves]
    simp only [Hall.oweSlots_bays, Hall.watchBays_bays, dropped]
    cases m.vehicle <;> simp

@[simp] theorem Hall.endMission_allStop (o : MissionOutcome) : (h.endMission slot o).allStop = h.allStop := by
  cases hm : h.mission slot with
  | none => simp [Hall.endMission, hm]
  | some m =>
    rw [(Hall.endMission_arms hm o).field Hall.allStop, Hall.missionLeaves]
    have dropped (g : Hall) : (g.dropReservation slot).allStop = g.allStop := by rw [Hall.dropReservation_eq]
    have watched (g : Hall) : g.watchBays.allStop = g.allStop := Hall.still_field g.watchBays_still Hall.allStop fun _ => rfl
    cases m.vehicle <;> simp [dropped, watched]

end

/-! ### How many notices the work on arms tells -/

namespace Hall.Tells

variable {a b : Hall} {n : Nat}

theorem modMission (x : a.Tells n b) (k : Nat) (f : Mission → Mission) : a.Tells n (b.modMission k f) := x.same rfl

theorem watchBays (x : a.Tells n b) : a.Tells (n + 2) b.watchBays := x.setActive (k := ⟨.noFreeBay, .none⟩) rfl _

theorem oweSlots (x : a.Tells n b) : a.Tells n b.oweSlots := x.same (by simp)

theorem dropReservation (x : a.Tells n b) (slot : Nat) : a.Tells n (b.dropReservation slot) := x.same (by rw [Hall.dropReservation_eq])

theorem changeArm (x : a.Tells n b) (st : StandAddr) (arm : ArmName) (f : Arm → Arm) : a.Tells (n + 2) (b.changeArm st arm f) := by
  unfold Hall.changeArm Hall.easeOverdue
  have y : a.Tells n (b.modArm st arm f) := x.same (by simp [Hall.modArm])
  refine oweCeiling ?_ _
  split
  · exact y.mono (by omega)
  · exact y.lower _

theorem emptyArm (x : a.Tells n b) (st : StandAddr) (arm : ArmName) : a.Tells (n + 2) (b.emptyArm st arm) := by
  unfold Hall.emptyArm; dsimp only
  have y := ((x.same (c := b.modStand st fun s => { s with running := s.running.filter (· ≠ arm) }) (by simp)).changeArm st arm
    fun z => { z with state := .empty, reel := none, beforeUnload := none }).push (.callTest st)
  split
  · exact y.push _
  · exact y

theorem closeHandover (x : a.Tells n b) (st : StandAddr) : a.Tells (n + 2) (b.closeHandover st) := by
  unfold Hall.closeHandover; split
  · rename_i y _
    extract_lets g loading g'
    have h1 : a.Tells n g := (x.same (c := b.modStand st fun s => { s with handover := none }) (by simp)).oweCeiling _
    have h2 : a.Tells (n + 2) g' := by
      unfold g'; split
      · exact h1.emptyArm _ _
      · exact h1.mono (by omega)
    split
    · exact (h2.push _).push _
    · exact h2.push _
  · exact x.mono (by omega)

theorem sendPanel (x : a.Tells n b) (k : Nat) : a.Tells n (b.sendPanel k) := by
  refine x.same ?_
  unfold Hall.sendPanel; split <;> rfl

theorem requestPrep (x : a.Tells n b) (st : StandAddr) (arm : ArmName) (d : Nat) : a.Tells n (b.requestPrep st arm d) := by
  unfold Hall.requestPrep; split
  · split
    · exact x
    · split
      · dsimp only; split
        · exact (x.same (by simp)).sendPanel _
        · exact x.same (by simp)
      · exact (x.same (by simp)).sendPanel _
  · exact x

theorem restoreArm (x : a.Tells n b) (st : StandAddr) (arm : ArmName) (ref : Option ReelRef) :
    a.Tells (n + 2) (b.restoreArm st arm ref) := by
  unfold Hall.restoreArm; split
  · split
    · dsimp only; split
      · exact (x.changeArm _ _ _).push _
      · exact (x.changeArm _ _ _).requestPrep _ _ _
    · exact x.mono (by omega)
  · exact x.mono (by omega)

theorem missionLeaves (x : a.Tells n b) (slot : Nat) (m : Mission) (o : MissionOutcome) : a.Tells (n + 3) (b.missionLeaves slot m o) := by
  unfold Hall.missionLeaves; dsimp only
  have y : a.Tells (n + 1) (Hall.notify (.missionEnd slot m.kind m.reel m.vehicle o) { b with missions := tdel b.missions slot }) :=
    (x.same rfl : a.Tells n { b with missions := tdel b.missions slot }).notify _
  split
  · exact (((y.same (by simp)).dropReservation slot).watchBays).oweSlots
  · exact ((y.dropReservation slot).watchBays).oweSlots

theorem endMission (x : a.Tells n b) (slot : Nat) (o : MissionOutcome) : a.Tells (n + 7) (b.endMission slot o) := by
  cases hm : b.mission slot with
  | none => simpa [Hall.endMission, hm] using x.mono (by omega)
  | some m =>
    rw [Hall.endMission_eq hm]
    have left := x.missionLeaves slot m o
    have closed : a.Tells (n + 5) ((b.missionLeaves slot m o).handoverEnds slot) := by
      unfold Hall.handoverEnds; split
      · exact left.closeHandover _
      · exact left.mono (by omega)
    have restored : a.Tells (n + 7) (((b.missionLeaves slot m o).handoverEnds slot).armRestored m) := by
      unfold Hall.armRestored; split
      · exact closed.restoreArm _ _ _
      · exact closed.mono (by omega)
    unfold Hall.callOwed; split
    · exact (restored.push _).oweCeiling _
    · exact restored

theorem direct (x : a.Tells n b) (v : Nat) (k : DirKind) : a.Tells n (b.direct v k) :=
  x.same (Hall.butRoads_field (b.direct_butRoads v k) Hall.notices)

theorem afterEnd (x : a.Tells n b) (v : Nat) (k : MissionKind) (y : Activity) : a.Tells n (b.afterEnd v k y) :=
  x.same (Hall.butRoads_field (b.afterEnd_butRoads v k y) Hall.notices)

theorem setActivity (x : a.Tells n b) (v : Nat) (y : Activity) : a.Tells n (b.setActivity v y) := x.same rfl

theorem cancelBeforePick (x : a.Tells n b) (slot : Nat) (o : MissionOutcome) : a.Tells (n + 10) (b.cancelBeforePick slot o) := by
  unfold Hall.cancelBeforePick; split
  · rename_i m _
    have y := (x.releaseReel m .fleetController).endMission slot o
    dsimp only; split
    · exact (y.direct _ _).afterEnd _ _ _
    · exact y
  · exact x.mono (by omega)

theorem abort (x : a.Tells n b) (v : Nat) (k : AbortCause) : a.Tells (n + 1) (b.abort v k) := by
  have noted (r : AbortRecord) : a.Tells n (b.modVehicle v fun y => { y with abort := some r }) := x.same rfl
  unfold Hall.abort; extract_lets _ _ _ record; split
  · exact x.mono (by omega)
  · exact (noted _).notify _

theorem reserve (x : a.Tells n b) (slot : Nat) (y : Option BayAddr) : a.Tells n (b.reserve slot y) := by
  refine x.same ?_
  unfold Hall.reserve; split <;> rfl

theorem contentOfReturn (x : a.Tells n b) (slot : Nat) (q : Bool) : a.Tells (n + 2) (b.contentOfReturn slot q) := by
  unfold Hall.contentOfReturn; split
  · split
    · dsimp only; split
      · exact (x.modMission _ _).mono (by omega)
      · exact (((x.dropReservation slot).modMission slot _).reserve slot _).watchBays
    · exact x.mono (by omega)
  · exact x.mono (by omega)

theorem turnToReturn (x : a.Tells n b) (slot : Nat) (q : Bool) : a.Tells (n + 7) (b.turnToReturn slot q) := by
  unfold Hall.turnToReturn; split
  · rename_i m _
    dsimp only
    have y : a.Tells (n + 5) (((b.releaseReel m .feedPlanner).modMission slot fun m => { m with state := .carrying, route := none
      }).contentOfReturn slot q) := ((x.releaseReel m .feedPlanner).modMission slot _).contentOfReturn slot q
    generalize Hall.contentOfReturn slot q _ = g at y ⊢
    have closed : a.Tells (n + 7) (match g.handoverOf slot with
        | some (st, z) => if z.phase = Phase.granted then g else g.closeHandover st
        | none => g) := by
      split
      · split
        · exact y.mono (by omega)
        · exact y.closeHandover _
      · exact y.mono (by omega)
    split
    · exact (closed.push _).oweCeiling _
    · exact closed
  · exact x.mono (by omega)

theorem holdAborted (x : a.Tells n b) (v : Nat) : a.Tells n (b.holdAborted v) := by
  unfold Hall.holdAborted; refine direct ?_ _ _; split
  · exact x.setActivity _ _
  · exact x

theorem oweCall (x : a.Tells n b) (y : Option StandAddr) : a.Tells n (b.oweCall y) := by
  unfold Hall.oweCall; split
  · exact x.oweCeiling _
  · exact x

theorem travel (x : a.Tells n b) (slot v : Nat) (d : Option Nat) (y : Activity) : a.Tells n (b.travel slot v d y) := by
  unfold Hall.travel; split
  · exact ((x.modMission _ _).setActivity _ _).direct _ _
  · exact ((x.modMission _ _).setActivity _ _).direct _ _

theorem carry (x : a.Tells n b) (slot : Nat) : a.Tells n (b.carry slot) := by
  unfold Hall.carry; split
  · split
    · exact ((x.modMission _ _).oweCall _).travel _ _ _ _
    · exact x
  · exact x

theorem resumeMission (x : a.Tells n b) (slot : Nat) : a.Tells n (b.resumeMission slot) := by
  unfold Hall.resumeMission; split
  · split
    · split
      · exact x
      · exact x.carry _
    · exact x
  · exact x

end Hall.Tells
/-! ### The stands through the work on missions -/

/-- A stand but its arms, its running arm and its handover. -/
def Stand.steady (s : Stand) : Stand := { s with running := none, handover := none, armA := Arm.cold, armB := Arm.cold }

/-- `b` has the stands of `a` but for their arms and their handovers: their settings, modes and calls are the same. -/
def Hall.Steady (a b : Hall) : Prop := tview Stand.steady b.stands = tview Stand.steady a.stands

namespace Hall.Steady

variable {a b : Hall}

theorem refl (a : Hall) : a.Steady a := rfl

theorem trans {c : Hall} (x : a.Steady b) (y : b.Steady c) : a.Steady c := Eq.trans y x

/-- A field of the stands that is neither of their arms nor of their handovers. -/
theorem view (x : a.Steady b) {α : Type} (f : Stand → α) (hf : ∀ s : Stand, f s.steady = f s := by intro; rfl) :
    tview f b.stands = tview f a.stands := by
  have through (t : Table Stand) : tview f t = tview f (tview Stand.steady t) := by simp [tview, hf]
  rw [through b.stands, x, ← through]

theorem call (x : a.Steady b) (st : StandAddr) : b.call st = a.call st := by
  have e := congrArg (tget · (standKey st)) (x.view Stand.call)
  simp only [tget_tview] at e
  unfold Hall.call Hall.stand
  cases hb : tget b.stands (standKey st) <;> cases ha : tget a.stands (standKey st) <;> simp_all

theorem same {c : Hall} (x : a.Steady b) (e : c.stands = b.stands) : a.Steady c := by unfold Hall.Steady; rw [e]; exact x

theorem still {c : Hall} (x : a.Steady b) (e : c.still = b.still) : a.Steady c := x.same (Hall.still_field e Hall.stands fun _ => rfl)

theorem modStand (x : a.Steady b) (st : StandAddr) (f : Stand → Stand) (hf : ∀ s, (f s).steady = s.steady := by intro; rfl) :
    a.Steady (b.modStand st f) := (tview_tmod Stand.steady b.stands (standKey st) f fun s _ => hf s).trans x

theorem push (x : a.Steady b) (j : Job) : a.Steady (b.push j) := x.same (by simp)

theorem oweCeiling (x : a.Steady b) (n : Nat) : a.Steady (b.oweCeiling n) := x.same (by simp)

theorem changeArm (x : a.Steady b) (st : StandAddr) (arm : ArmName) (f : Arm → Arm) : a.Steady (b.changeArm st arm f) :=
  ((x.modStand st (Stand.modArm arm f) (by intro s; cases arm <;> rfl)).still (Hall.easeOverdue_still _ st)).oweCeiling _

theorem emptyArm (x : a.Steady b) (st : StandAddr) (arm : ArmName) : a.Steady (b.emptyArm st arm) := by
  unfold Hall.emptyArm; dsimp only
  have y := ((x.modStand st fun s => { s with running := s.running.filter (· ≠ arm) }).changeArm st arm
    fun z => { z with state := .empty, reel := none, beforeUnload := none }).push (.callTest st)
  split
  · exact y.push _
  · exact y

theorem closeHandover (x : a.Steady b) (st : StandAddr) : a.Steady (b.closeHandover st) := by
  unfold Hall.closeHandover; split
  · rename_i y _
    extract_lets g loading g'
    have h1 : a.Steady g := (x.modStand st fun s => { s with handover := none }).oweCeiling _
    have h2 : a.Steady g' := by
      unfold g'; split
      · exact h1.emptyArm _ _
      · exact h1
    split
    · exact (h2.push _).push _
    · exact h2.push _
  · exact x

theorem requestPrep (x : a.Steady b) (st : StandAddr) (arm : ArmName) (d : Nat) : a.Steady (b.requestPrep st arm d) := by
  unfold Hall.requestPrep; split
  · split
    · exact x
    · split
      · dsimp only; split
        · exact (x.still (Hall.modLine_still _ _ _)).still (Hall.sendPanel_still _ _)
        · exact x.still (Hall.modLine_still _ _ _)
      · exact (x.still (Hall.modLine_still _ _ _)).still (Hall.sendPanel_still _ _)
  · exact x

theorem restoreArm (x : a.Steady b) (st : StandAddr) (arm : ArmName) (ref : Option ReelRef) : a.Steady (b.restoreArm st arm ref) := by
  unfold Hall.restoreArm; split
  · split
    · dsimp only; split
      · exact (x.changeArm _ _ _).push _
      · exact (x.changeArm _ _ _).requestPrep _ _ _
    · exact x
  · exact x

theorem missionLeaves (x : a.Steady b) (slot : Nat) (m : Mission) (o : MissionOutcome) : a.Steady (b.missionLeaves slot m o) := by
  refine x.same ?_
  unfold Hall.missionLeaves
  cases m.vehicle <;> simp

theorem endMission (x : a.Steady b) (slot : Nat) (o : MissionOutcome) : a.Steady (b.endMission slot o) := by
  cases hm : b.mission slot with
  | none => simpa [Hall.endMission, hm] using x
  | some m =>
    rw [Hall.endMission_eq hm]
    have closed : a.Steady ((b.missionLeaves slot m o).handoverEnds slot) := by
      unfold Hall.handoverEnds; split
      · exact (x.missionLeaves slot m o).closeHandover _
      · exact x.missionLeaves slot m o
    have restored : a.Steady (((b.missionLeaves slot m o).handoverEnds slot).armRestored m) := by
      unfold Hall.armRestored; split
      · exact closed.restoreArm _ _ _
      · exact closed
    unfold Hall.callOwed; split
    · exact (restored.push _).oweCeiling _
    · exact restored

theorem putReel (x : a.Steady b) (i : Nat) (r : Reel) : a.Steady (b.putReel i r) := x.same (by simp)

theorem retryIfStored (x : a.Steady b) (r r' : Reel) : a.Steady (b.retryIfStored r r') := by
  unfold Hall.retryIfStored; split
  · exact x.push _
  · exact x

theorem modMission (x : a.Steady b) (k : Nat) (f : Mission → Mission) : a.Steady (b.modMission k f) := x

theorem askRelease (x : a.Steady b) (st : StandAddr) (ref : ReelRef) (k : Block) (t : Bool) : a.Steady (b.askRelease st ref k t).1 := by
  unfold Hall.askRelease Hall.askCustody; split
  · split
    · dsimp only; split
      · exact (x.putReel _ _).retryIfStored _ _
      · exact x.putReel _ _
    · exact x.still (Hall.refuseCustody_still _ _ _ _)
  · exact x.still (Hall.refuseCustody_still _ _ _ _)

theorem releaseReel (x : a.Steady b) (m : Mission) (k : Block) : a.Steady (b.releaseReel m k) := by
  unfold Hall.releaseReel; split
  · split
    · exact x.askRelease _ _ _ _
    · exact x
  · exact x

theorem direct (x : a.Steady b) (v : Nat) (k : DirKind) : a.Steady (b.direct v k) := x.same (by simp)

theorem setActivity (x : a.Steady b) (v : Nat) (y : Activity) : a.Steady (b.setActivity v y) := x

theorem afterEnd (x : a.Steady b) (v : Nat) (k : MissionKind) (y : Activity) : a.Steady (b.afterEnd v k y) :=
  x.same (Hall.butRoads_field (b.afterEnd_butRoads v k y) Hall.stands)

theorem cancelBeforePick (x : a.Steady b) (slot : Nat) (o : MissionOutcome) : a.Steady (b.cancelBeforePick slot o) := by
  unfold Hall.cancelBeforePick; split
  · rename_i m _
    have y := (x.releaseReel m .fleetController).endMission slot o
    dsimp only; split
    · exact (y.direct _ _).afterEnd _ _ _
    · exact y
  · exact x

theorem abort (x : a.Steady b) (v : Nat) (k : AbortCause) : a.Steady (b.abort v k) := by
  unfold Hall.abort; extract_lets _ _ _ record; split
  · exact x
  · exact x.same (by simp)

theorem contentOfReturn (x : a.Steady b) (slot : Nat) (q : Bool) : a.Steady (b.contentOfReturn slot q) := by
  refine x.same ?_
  unfold Hall.contentOfReturn; split
  · split
    · dsimp only; split <;> simp
    · rfl
  · rfl

theorem turnToReturn (x : a.Steady b) (slot : Nat) (q : Bool) : a.Steady (b.turnToReturn slot q) := by
  unfold Hall.turnToReturn; split
  · rename_i m _
    dsimp only
    have y : a.Steady (((b.releaseReel m .feedPlanner).modMission slot fun m => { m with state := .carrying, route := none
      }).contentOfReturn slot q) := ((x.releaseReel m .feedPlanner).modMission slot _).contentOfReturn slot q
    generalize Hall.contentOfReturn slot q _ = g at y ⊢
    have closed : a.Steady (match g.handoverOf slot with
        | some (st, z) => if z.phase = Phase.granted then g else g.closeHandover st
        | none => g) := by
      split
      · split
        · exact y
        · exact y.closeHandover _
      · exact y
    split
    · exact (closed.push _).oweCeiling _
    · exact closed
  · exact x

theorem holdAborted (x : a.Steady b) (v : Nat) : a.Steady (b.holdAborted v) := by
  unfold Hall.holdAborted; refine direct ?_ _ _; split
  · exact x.setActivity _ _
  · exact x

theorem travel (x : a.Steady b) (slot v : Nat) (d : Option Nat) (y : Activity) : a.Steady (b.travel slot v d y) := by
  unfold Hall.travel; split
  · exact ((x.modMission _ _).setActivity _ _).direct _ _
  · exact ((x.modMission _ _).setActivity _ _).direct _ _

theorem carry (x : a.Steady b) (slot : Nat) : a.Steady (b.carry slot) := by
  unfold Hall.carry; split
  · split
    · refine travel ?_ _ _ _ _
      unfold Hall.oweCall; split
      · exact (x.modMission _ _).oweCeiling _
      · exact x.modMission _ _
    · exact x
  · exact x

theorem resumeMission (x : a.Steady b) (slot : Nat) : a.Steady (b.resumeMission slot) := by
  unfold Hall.resumeMission; split
  · split
    · split
      · exact x
      · exact x.carry _
    · exact x
  · exact x

theorem lower (x : a.Steady b) (k : FaultKey) : a.Steady (b.lower k) := x.still (Hall.lower_still _ k)

theorem notify (x : a.Steady b) (y : Notice) : a.Steady (b.notify y) := x.still (Hall.notify_still _ y)

end Hall.Steady

/-! ### A mission turned into a RETURN leaves the vehicles (R55) -/

section
variable (h : Hall) (slot : Nat)

theorem Hall.closeHandover_arms (st : StandAddr) : h.Arms (h.closeHandover st) := (Hall.Arms.refl h).closeHandover st

theorem Hall.contentOfReturn_vehicles (q : Bool) : (h.contentOfReturn slot q).vehicles = h.vehicles := by
  have reserved (g : Hall) (b : Option BayAddr) : (g.reserve slot b).vehicles = g.vehicles := by unfold Hall.reserve; split <;> rfl
  unfold Hall.contentOfReturn; split
  · split
    · dsimp only; split <;> simp [reserved]
    · rfl
  · rfl

theorem Hall.contentOfReturn_reels (q : Bool) : (h.contentOfReturn slot q).reels = h.reels := by
  have reserved (g : Hall) (b : Option BayAddr) : (g.reserve slot b).reels = g.reels := by unfold Hall.reserve; split <;> rfl
  unfold Hall.contentOfReturn; split
  · split
    · dsimp only; split <;> simp [reserved]
    · rfl
  · rfl

theorem Hall.retryIfStored_eq (r r' : Reel) : h.retryIfStored r r' = { h with agenda := (h.retryIfStored r r').agenda } := by
  unfold Hall.retryIfStored Hall.push; split
  · split <;> rfl
  · rfl

theorem Hall.askRelease_vehicles (st : StandAddr) (ref : ReelRef) (k : Block) (t : Bool) :
    (h.askRelease st ref k t).1.vehicles = h.vehicles := by
  have refused (c : Custody) : (h.refuseCustody ref c k).vehicles = h.vehicles :=
    Hall.still_field (Hall.refuseCustody_still h ref c k) Hall.vehicles fun _ => rfl
  unfold Hall.askRelease Hall.askCustody; split
  · split
    · dsimp only; split
      · rw [Hall.retryIfStored_eq]; simp
      · simp
    · exact refused _
  · exact refused _

theorem Hall.releaseReel_vehicles (m : Mission) (k : Block) : (h.releaseReel m k).vehicles = h.vehicles := by
  unfold Hall.releaseReel; split
  · split
    · exact h.askRelease_vehicles _ _ _ _
    · rfl
  · rfl

/-- What the turning of a mission into a RETURN does beside the release of its reel and its new content. -/
theorem Hall.turnToReturn_arms {m : Mission} (hm : h.mission slot = some m) (q : Bool) :
    Hall.Arms (((h.releaseReel m .feedPlanner).modMission slot fun m => { m with state := .carrying, route := none }).contentOfReturn
      slot q) (h.turnToReturn slot q) := by
  unfold Hall.turnToReturn
  rw [hm]; dsimp only
  generalize Hall.contentOfReturn slot q _ = g
  have closed : g.Arms (match g.handoverOf slot with
      | some (st, z) => if z.phase = Phase.granted then g else g.closeHandover st
      | none => g) := by
    split
    · split
      · exact .refl g
      · exact g.closeHandover_arms _
    · exact .refl g
  split
  · exact (closed.push _).oweCeiling _
  · exact closed

theorem Hall.turnToReturn_vehicles (q : Bool) : (h.turnToReturn slot q).vehicles = h.vehicles := by
  cases hm : h.mission slot with
  | none => simp [Hall.turnToReturn, hm]
  | some m =>
    rw [(h.turnToReturn_arms slot hm q).field Hall.vehicles, Hall.contentOfReturn_vehicles, Hall.modMission_vehicles,
      Hall.releaseReel_vehicles]

theorem Hall.turnToReturn_reels {m : Mission} (hm : h.mission slot = some m) (q : Bool) :
    (h.turnToReturn slot q).reels = (h.releaseReel m .feedPlanner).reels := by
  rw [(h.turnToReturn_arms slot hm q).field Hall.reels, Hall.contentOfReturn_reels, Hall.modMission_reels]

/-- The reel of a mission released for its call (R44). -/
def Reel.released (r : Reel) : Reel :=
  if r.state = .allocated then { r with state := .stored, call := none } else { r with call := none }

theorem Hall.askRelease_taken {h : Hall} {st : StandAddr} {ref : ReelRef} {r : Reel} (hr : h.reel ref = some r)
    (held : r.call = some st) (k : Block) (t : Bool) : (h.askRelease st ref k t).1 =
      if t then (h.putReel ref.index r.released).retryIfStored r r.released else h.putReel ref.index r.released := by
  unfold Hall.askRelease
  rw [Hall.askCustody_taken hr (by simpa using held)]
  rfl

theorem Hall.releaseReel_taken {h : Hall} {m : Mission} {st : StandAddr} {ref : ReelRef} {r : Reel} (href : m.reel = some ref)
    (hc : m.call = some st) (hr : h.reel ref = some r) (held : r.call = some st) (k : Block) :
    h.releaseReel m k = (h.putReel ref.index r.released).retryIfStored r r.released := by
  unfold Hall.releaseReel
  rw [href, hc]; dsimp only
  rw [if_pos (by simp [hr, held]), Hall.askRelease_taken hr held]
  rfl

theorem Hall.retryIfStored_reels (r r' : Reel) : (h.retryIfStored r r').reels = h.reels := by rw [Hall.retryIfStored_eq]

/-- The vehicles' abort records and loads under the resuming and the holding of missions. -/
theorem Hall.travel_borne (v : Nat) (d : Option Nat) (a : Activity) (w : Nat) :
    ((h.travel slot v d a).vehicle w).borne = (h.vehicle w).borne := by
  have kept (f : Mission → Mission) : ((h.modMission slot f).vehicle w).borne = (h.vehicle w).borne := by simp [Hall.vehicle]
  unfold Hall.travel; split
  · rw [Hall.direct_borne, Hall.setActivity_borne, kept]
  · rw [Hall.direct_borne, Hall.setActivity_borne, kept]

theorem Hall.oweCall_eq (c : Option StandAddr) : h.oweCall c = { h with ceilings := (h.oweCall c).ceilings } := by
  unfold Hall.oweCall Hall.oweCeiling; split
  · split <;> rfl
  · rfl

theorem Hall.carry_borne (w : Nat) : ((h.carry slot).vehicle w).borne = (h.vehicle w).borne := by
  unfold Hall.carry; split
  · split
    · dsimp only
      rw [Hall.travel_borne, Hall.oweCall_eq]; simp [Hall.vehicle]
    · rfl
  · rfl

theorem Hall.resumeMission_borne (w : Nat) : ((h.resumeMission slot).vehicle w).borne = (h.vehicle w).borne := by
  unfold Hall.resumeMission; split
  · split
    · split
      · rfl
      · exact h.carry_borne slot w
    · rfl
  · rfl

theorem Hall.holdAborted_borne (v w : Nat) : ((h.holdAborted v).vehicle w).borne = (h.vehicle w).borne := by
  unfold Hall.holdAborted
  rw [Hall.direct_borne]; split
  · exact h.setActivity_borne v _ w
  · rfl

@[simp] theorem Hall.travel_reels (v : Nat) (d : Option Nat) (a : Activity) : (h.travel slot v d a).reels = h.reels := by
  unfold Hall.travel; split <;> exact Hall.butRoads_field ((Hall.direct_butRoads _ _ _).trans (Hall.setActivity_butRoads _ _ _)) Hall.reels

@[simp] theorem Hall.carry_reels : (h.carry slot).reels = h.reels := by
  unfold Hall.carry; split
  · split
    · dsimp only; rw [Hall.travel_reels, Hall.oweCall_eq]; rfl
    · rfl
  · rfl

@[simp] theorem Hall.resumeMission_reels : (h.resumeMission slot).reels = h.reels := by
  unfold Hall.resumeMission; split
  · split
    · split
      · rfl
      · exact h.carry_reels slot
    · rfl
  · rfl

@[simp] theorem Hall.holdAborted_reels (v : Nat) : (h.holdAborted v).reels = h.reels := by
  unfold Hall.holdAborted
  rw [Hall.butRoads_field (Hall.direct_butRoads _ _ _) Hall.reels]; split <;> rfl

/-- A vehicle that is aborted has the cause in its record (R105). -/
theorem Hall.abort_causes {h : Hall} {v : Nat} (known : (tget h.vehicles v).isSome) (c : AbortCause) :
    ∃ a, ((h.abort v c).vehicle v).abort = some a ∧ c ∈ a.causes := by
  unfold Hall.abort
  extract_lets x m fresh record
  have cause : c ∈ record.causes := by
    unfold record; split
    · split
      · rename_i holds; simpa using holds
      · simp
    · simp [fresh]
  split
  · rename_i e; exact ⟨record, e, cause⟩
  · refine ⟨record, ?_, cause⟩
    rw [Hall.notify_vehicle, Hall.vehicle_modVehicle _ _ _ _ (.inr known), if_pos rfl]

end

end Sys2Proof.Machine
end

section
/-! PROOF. The calls of the Feed Planner and their reels (O52). -/

-- One theorem after another, as in the laws: elaborated all at once they ask for more threads than the check has room for.
set_option Elab.async false

namespace Sys2Proof.Machine

/-! ### The reel chosen for a stand (R42) -/

theorem firstLeast_none {key : Reel → Nat} {l : List (Nat × Reel)} (e : firstLeast key l = none) : l = [] := by
  cases l with
  | nil => rfl
  | cons p l =>
    unfold firstLeast at e
    split at e
    · split at e <;> cases e
    · cases e

/-- The reel taken of a list in index order has the least key, and the lowest index of those with it. -/
theorem firstLeast_least {key : Reel → Nat} {l : List (Nat × Reel)} {p : Nat × Reel} (order : l.Pairwise fun a b => a.1 < b.1)
    (e : firstLeast key l = some p) {q : Nat × Reel} (hq : q ∈ l) : key p.2 < key q.2 ∨ (key p.2 = key q.2 ∧ p.1 ≤ q.1) := by
  induction l generalizing p with
  | nil => cases hq
  | cons a l ih =>
    obtain ⟨first, later⟩ := List.pairwise_cons.mp order
    unfold firstLeast at e
    cases hr : firstLeast key l with
    | none =>
      rw [hr] at e
      cases e
      rw [firstLeast_none hr] at hq
      obtain rfl := List.mem_singleton.mp hq
      exact .inr ⟨rfl, le_refl _⟩
    | some b =>
      rw [hr] at e
      dsimp only at e
      have hb := Hall.Follows.firstLeast_mem hr
      split at e
      · rename_i less
        cases e
        rcases List.mem_cons.mp hq with rfl | hq
        · exact .inl less
        · exact ih later hr hq
      · rename_i least
        cases e
        rcases List.mem_cons.mp hq with rfl | hq
        · exact .inr ⟨rfl, le_refl _⟩
        · have := first q hq
          rcases ih later hr hq with lt | ⟨eq, -⟩ <;> omega

/-- A reel that R42 may give to a stand of a grade and a width. -/
def Hall.Fits (h : Hall) (grade width i : Nat) (r : Reel) : Prop :=
  tget h.reels i = some r ∧ r.grade = grade ∧ r.width = width ∧ r.state = .stored ∧ r.call = none ∧ h.named ⟨i, r.id⟩ = false

section
variable {h : Hall} {grade width least i : Nat} {partials : Bool} {r : Reel}

theorem Hall.mem_candidates : (i, r) ∈ h.candidates grade width ↔ h.Fits grade width i r := by
  unfold Hall.candidates Hall.Fits
  simp only [List.mem_filter, Bool.and_eq_true, decide_eq_true_eq, Bool.not_eq_true']
  constructor
  · rintro ⟨-, ⟨⟨g, w, s, c⟩, n⟩, e⟩
    exact ⟨e, g, w, s, c, n⟩
  · rintro ⟨e, g, w, s, c, n⟩
    exact ⟨tget_mem e, ⟨⟨g, w, s, c⟩, n⟩, e⟩

theorem Hall.candidates_ordered (sorted : tsorted h.reels = true) (grade width : Nat) :
    (h.candidates grade width).Pairwise fun a b => a.1 < b.1 :=
  (List.pairwise_map.mp ((tsorted_iff _).mp sorted)).filter _

/-- A choice among the candidates of one sort: the least of that sort by a key, or that there are none. -/
theorem Hall.leastFit (sorted : tsorted h.reels = true) (sort : Nat × Reel → Bool) (key : Reel → Nat) :
    (∀ i r, firstLeast key ((h.candidates grade width).filter sort) = some (i, r) → h.Fits grade width i r ∧ sort (i, r) = true ∧
      ∀ j q, h.Fits grade width j q → sort (j, q) = true → key r < key q ∨ (key r = key q ∧ i ≤ j)) ∧
    (firstLeast key ((h.candidates grade width).filter sort) = none → ∀ j q, h.Fits grade width j q → ¬ sort (j, q) = true) := by
  constructor
  · intro i r e
    obtain ⟨cand, hs⟩ := List.mem_filter.mp (Hall.Follows.firstLeast_mem e)
    exact ⟨Hall.mem_candidates.mp cand, hs, fun j q fit hq =>
      firstLeast_least ((Hall.candidates_ordered sorted _ _).filter _) e (List.mem_filter.mpr ⟨Hall.mem_candidates.mpr fit, hq⟩)⟩
  · intro e j q fit hq
    have : (j, q) ∈ (h.candidates grade width).filter sort := List.mem_filter.mpr ⟨Hall.mem_candidates.mpr fit, hq⟩
    rw [firstLeast_none e] at this
    cases this

/-- What R42 makes of the candidates: a partial one where the line takes them, and else a whole one. -/
theorem Hall.chooseReel_cases (sorted : tsorted h.reels = true) :
    (∀ i r, h.chooseReel grade width partials least = some (i, r) → h.Fits grade width i r ∧
      ((partials = true ∧ r.isPartial = true ∧ least ≤ r.remaining ∧
          ∀ j q, h.Fits grade width j q → q.isPartial = true → least ≤ q.remaining →
            r.remaining < q.remaining ∨ (r.remaining = q.remaining ∧ i ≤ j)) ∨
        (r.isPartial = false ∧
          (partials = true → ∀ j q, h.Fits grade width j q → q.isPartial = true → q.remaining < least) ∧
          ∀ j q, h.Fits grade width j q → q.isPartial = false → r.arrival < q.arrival ∨ (r.arrival = q.arrival ∧ i ≤ j)))) ∧
    (h.chooseReel grade width partials least = none →
      ∀ j q, h.Fits grade width j q → q.isPartial = true ∧ (partials = true → q.remaining < least)) := by
  have part := Hall.leastFit (grade := grade) (width := width) sorted
    (fun p => p.2.isPartial && decide (least ≤ p.2.remaining)) (·.remaining)
  have whole := Hall.leastFit (grade := grade) (width := width) sorted (fun p => !p.2.isPartial) (·.arrival)
  simp only [Bool.and_eq_true, decide_eq_true_eq, Bool.not_eq_true', not_and, Bool.not_eq_false] at part whole
  unfold Hall.chooseReel
  cases partials with
  | false =>
    simp only [Bool.false_eq_true, if_false, false_and, false_or, false_implies, true_and, and_true]
    refine ⟨fun i r e => ?_, whole.2⟩
    obtain ⟨fit, is, least⟩ := whole.1 i r e
    exact ⟨fit, is, fun j q hq => least j q hq⟩
  | true =>
    simp only [if_true, true_and, true_implies]
    constructor
    · intro i r e
      rcases Option.or_eq_some_iff.mp e with e | ⟨noPart, e⟩
      · obtain ⟨fit, ⟨is, enough⟩, least⟩ := part.1 i r e
        exact ⟨fit, .inl ⟨is, enough, fun j q hq p l => least j q hq ⟨p, l⟩⟩⟩
      · obtain ⟨fit, is, least⟩ := whole.1 i r e
        exact ⟨fit, .inr ⟨is, fun j q hq p => Nat.lt_of_not_le (part.2 noPart j q hq p), least⟩⟩
    · intro e j q fit
      obtain ⟨noPart, noWhole⟩ := Option.or_eq_none_iff.mp e
      have is := whole.2 noWhole j q fit
      exact ⟨is, Nat.lt_of_not_le (part.2 noPart j q fit is)⟩

theorem Hall.chooseReel_fits (e : h.chooseReel grade width partials least = some (i, r)) : h.Fits grade width i r := by
  unfold Hall.chooseReel at e
  dsimp only at e
  refine Hall.mem_candidates.mp ?_
  split at e
  · rcases Option.or_eq_some_iff.mp e with e | ⟨-, e⟩
    · exact List.mem_of_mem_filter (Hall.Follows.firstLeast_mem e)
    · exact List.mem_of_mem_filter (Hall.Follows.firstLeast_mem e)
  · exact List.mem_of_mem_filter (Hall.Follows.firstLeast_mem e)

end

/-! ### Allocation (R43, R127) -/

section
variable {h : Hall} {st : StandAddr} {s : Stand} {l : Line} {i : Nat} {r : Reel}

/-- The reel that a stand's settings choose. -/
def Hall.choice (h : Hall) (s : Stand) (l : Line) : Option (Nat × Reel) :=
  h.chooseReel s.cfg.grade s.cfg.width l.cfg.partials l.cfg.minIssue

theorem Hall.allocate_some (hs : h.stand st = some s) (hl : h.line st.line = some l) (chosen : h.choice s l = some (i, r)) :
    h.allocate st = ((h.putReel i { r with state := .allocated, call := some st }).lower (standFault .stockOut st), some ⟨i, r.id⟩) := by
  unfold Hall.allocate
  rw [hs, hl]
  dsimp only
  rw [show h.chooseReel s.cfg.grade s.cfg.width l.cfg.partials l.cfg.minIssue = some (i, r) from chosen]

theorem Hall.allocate_none (hs : h.stand st = some s) (hl : h.line st.line = some l) (chosen : h.choice s l = none) :
    h.allocate st = (h.raise (standFault .stockOut st), none) := by
  unfold Hall.allocate
  rw [hs, hl]
  dsimp only
  rw [show h.chooseReel s.cfg.grade s.cfg.width l.cfg.partials l.cfg.minIssue = none from chosen]

end
/-- What a reel's record gives a mission as its pickup. -/
def Reel.bayPickup (r : Reel) : Option Place :=
  match r.loc with
  | .bay b => some (.bay b)
  | _ => none

theorem Hall.reel_of_record {h : Hall} {i : Nat} {r : Reel} (hr : tget h.reels i = some r) : h.reel ⟨i, r.id⟩ = some r := by
  simp [Hall.reel, hr]

theorem Hall.modCall_call (h : Hall) (st : StandAddr) (f : Call → Call) : (h.modCall st f).call st = (h.call st).map f := by
  unfold Hall.modCall Hall.call
  rw [show ((h.modStand st fun s => { s with call := s.call.map f }).oweCeiling st.line).stand st =
    (h.modStand st fun s => { s with call := s.call.map f }).stand st from congrArg (tget · _) (Hall.oweCeiling_stands _ _),
    Hall.stand_modStand, if_pos rfl]
  cases h.stand st <;> rfl

theorem Hall.call_of_stand {h : Hall} {st : StandAddr} {s : Stand} {c : Call} (hs : h.stand st = some s) (hc : s.call = some c) :
    h.call st = some c := by simp [Hall.call, hs, hc]

section
variable {h : Hall} {st : StandAddr} {s : Stand} {l : Line} {c : Call} {arm : ArmName} {i : Nat} {r : Reel} {slot : Nat}

/-- The allocation of a reel leaves all but its record, the stock watch and STOCK_OUT. -/
theorem Hall.allocated_butReels (h : Hall) (i : Nat) (r : Reel) (k : FaultKey) :
    ((h.putReel i r).lower k).butReels = h.butReels :=
  (Hall.butReels_of_still (Hall.lower_still _ k)).trans (h.putReel_butReels i r)

theorem Hall.allocated_reels (h : Hall) (i : Nat) (r : Reel) (k : FaultKey) : ((h.putReel i r).lower k).reels = tput h.reels i r :=
  (Hall.still_field (Hall.lower_still _ k) Hall.reels fun _ => rfl).trans (by simp)

/-- R43 where a reel is chosen. -/
theorem Hall.allocate_chosen (hs : h.stand st = some s) (hl : h.line st.line = some l) (chosen : h.choice s l = some (i, r)) :
    (h.allocate st).2 = some ⟨i, r.id⟩ ∧ tget (h.allocate st).1.reels i = some { r with state := .allocated, call := some st } ∧
      (h.Sound → ((h.allocate st).1.fault ⟨.stockOut, .stand st⟩).active = false) := by
  rw [Hall.allocate_some hs hl chosen]
  refine ⟨rfl, ?_, fun sound => ?_⟩
  · rw [Hall.allocated_reels]; simp
  · exact Hall.lower_inactive (((Hall.Handles.refl (c := true) (k := true) h).putReel i _).sound _ sound).faults _

/-- R43 where none is. -/
theorem Hall.allocate_starved (hs : h.stand st = some s) (hl : h.line st.line = some l) (chosen : h.choice s l = none) :
    (h.allocate st).2 = none ∧ (h.allocate st).1.reels = h.reels ∧ ((h.allocate st).1.fault ⟨.stockOut, .stand st⟩).active = true := by
  rw [Hall.allocate_none hs hl chosen]
  exact ⟨rfl, Hall.still_field (Hall.raise_still h rfl) Hall.reels fun _ => rfl, h.raise_active _⟩

theorem Hall.Steady.pair {α : Type} {a b : Hall} {p : Hall × α} {y : α} (x : a.Steady p.1) (e : p = (b, y)) : a.Steady b := by
  rwa [e] at x

theorem Hall.Tells.pair {α : Type} {a b : Hall} {n : Nat} {p : Hall × α} {y : α} (x : a.Tells n p.1) (e : p = (b, y)) :
    a.Tells n b := by
  rwa [e] at x

theorem Hall.Steady.allocate (h : Hall) (st : StandAddr) : h.Steady (h.allocate st).1 := by
  unfold Hall.allocate; split
  · split
    · exact ((Hall.Steady.refl h).putReel _ _).lower _
    · exact (Hall.Steady.refl h).still (Hall.raise_still h rfl)
  · exact .refl h

theorem Hall.Tells.allocate (h : Hall) (st : StandAddr) : h.Tells 5 (h.allocate st).1 := by
  unfold Hall.allocate; split
  · split
    · exact ((Hall.Tells.refl h).putReel _ _).lower _
    · exact ((Hall.Tells.refl h).raise rfl).mono (by omega)
  · exact (Hall.Tells.refl h).mono (by omega)

theorem Hall.Steady.createMission {a b : Hall} (x : a.Steady b) (m : Mission) : a.Steady (b.createMission m).1 := by
  unfold Hall.createMission; split
  · split
    · exact x
    · exact x.same (by simp)
  · exact x

theorem Hall.Tells.createMission {a b : Hall} {n : Nat} (x : a.Tells n b) (m : Mission) : a.Tells (n + 2) (b.createMission m).1 := by
  unfold Hall.createMission; split
  · split
    · exact x.mono (by omega)
    · unfold Hall.enterMission; dsimp only
      have y := (x.same (c := { b with missions := tput b.missions ‹Nat› { m with created := b.clock } }) rfl).watchBays
      split
      · exact y.push _
      · exact y
  · exact x.mono (by omega)

/-- The content of a call that has been through its allocation (R127). -/
def Call.Served (c d : Call) : Prop :=
  d.deadline = c.deadline ∧ d.raisedAt = c.raisedAt ∧ d.reraises = c.reraises ∧ d.state ≠ .dispatched

/-- Whatever the allocation answers, the call is the same one, and it is not DISPATCHED (R127). -/
theorem Hall.allocateFor_call (hc : h.call st = some c) (fresh : c.state ≠ .dispatched) :
    ∃ d, (h.allocateFor st).1.call st = some d ∧ c.Served d := by
  have changed {g : Hall} (x : h.Steady g) (f : Call → Call) (hf : c.Served (f c)) :
      ∃ d, (g.modCall st f).call st = some d ∧ c.Served d :=
    ⟨f c, by rw [Hall.modCall_call, x.call st, hc]; rfl, hf⟩
  have allocated := Hall.Steady.allocate h st
  unfold Hall.allocateFor; split
  · split
    · split
      · rename_i g ref e
        have taken := allocated.pair e
        split
        · rename_i e'
          exact changed ((taken.createMission _).pair e') _ ⟨rfl, rfl, rfl, by simp⟩
        · rename_i e'
          exact changed (((taken.createMission _).pair e').askRelease _ _ _ _) _ ⟨rfl, rfl, rfl, by simp⟩
      · rename_i e
        exact changed (allocated.pair e) _ ⟨rfl, rfl, rfl, by simp⟩
    · exact ⟨c, hc, rfl, rfl, rfl, fresh⟩
  · exact ⟨c, hc, rfl, rfl, rfl, fresh⟩

theorem Hall.Tells.modCall {a b : Hall} {n : Nat} (x : a.Tells n b) (st : StandAddr) (f : Call → Call) : a.Tells n (b.modCall st f) :=
  (x.same rfl : a.Tells n (b.modStand st fun s => { s with call := s.call.map f })).oweCeiling _

theorem Hall.allocateFor_tells (h : Hall) (st : StandAddr) : h.Tells 10 (h.allocateFor st).1 := by
  have allocated := Hall.Tells.allocate h st
  unfold Hall.allocateFor; split
  · split
    · split
      · rename_i g ref e
        have taken := allocated.pair e
        split
        · rename_i e'
          exact (((taken.createMission _).pair e').modCall st _).mono (by omega)
        · rename_i e'
          exact (((taken.createMission _).pair e').askRelease _ _ _ _).modCall st _
      · rename_i e
        exact ((allocated.pair e).modCall st _).mono (by omega)
    · exact (Hall.Tells.refl h).mono (by omega)
  · exact (Hall.Tells.refl h).mono (by omega)

theorem Hall.modCall_missions (h : Hall) (st : StandAddr) (f : Call → Call) : (h.modCall st f).missions = h.missions := by
  simp [Hall.modCall]

theorem Stand.standby_of_running {s : Stand} (on : s.running = some arm.other) : s.standby = some arm := by
  cases arm <;> simp [Stand.standby, on, ArmName.other]

/-- The hall of a stand whose reel has been allocated, as its mission is asked for (R43). -/
def Hall.withAllocated (h : Hall) (st : StandAddr) (i : Nat) (r : Reel) : Hall :=
  (h.putReel i { r with state := .allocated, call := some st }).lower (standFault .stockOut st)

/-- The DELIVER mission asked for (R127). -/
def Hall.deliveryFor (st : StandAddr) (arm : ArmName) (l : Line) (c : Call) (i : Nat) (r : Reel) : Mission :=
  deliverMission st arm ⟨i, r.id⟩ r.bayPickup (l.constrains st) c.deadline

theorem Hall.withAllocated_reel (h : Hall) (st : StandAddr) (i : Nat) (r : Reel) :
    tget (h.withAllocated st i r).reels i = some { r with state := .allocated, call := some st } := by
  unfold Hall.withAllocated
  rw [Hall.allocated_reels]; simp

theorem Hall.withAllocated_missions (h : Hall) (st : StandAddr) (i : Nat) (r : Reel) : (h.withAllocated st i r).missions = h.missions :=
  Hall.butReels_field (h.allocated_butReels i _ _) Hall.missions fun _ => rfl

theorem Hall.withAllocated_steady (h : Hall) (st : StandAddr) (i : Nat) (r : Reel) : h.Steady (h.withAllocated st i r) :=
  ((Hall.Steady.refl h).putReel _ _).lower _

/-- The rule of a call whose reel is chosen, as far as its mission (R127). -/
theorem Hall.allocateFor_chosen (hs : h.stand st = some s) (hl : h.line st.line = some l) (hc : s.call = some c)
    (on : s.running = some arm.other) (chosen : h.choice s l = some (i, r)) :
    h.allocateFor st = match (h.withAllocated st i r).createMission (Hall.deliveryFor st arm l c i r) with
      | (g, some slot) => (g.modCall st fun c => { c with state := .allocated, reel := some ⟨i, r.id⟩, mission := some slot }, false)
      | (g, none) => (((g.askRelease st ⟨i, r.id⟩ .feedPlanner false).1).modCall st fun c =>
          { c with state := .raised, reel := none, mission := none }, true) := by
  have pickup : (h.withAllocated st i r).bayOf ⟨i, r.id⟩ = r.bayPickup := by
    unfold Hall.bayOf
    rw [Hall.reel_of_record (h.withAllocated_reel st i r)]
    rfl
  have taken : h.allocate st = (h.withAllocated st i r, some ⟨i, r.id⟩) := Hall.allocate_some hs hl chosen
  unfold Hall.allocateFor
  rw [hs, hl]; dsimp only
  rw [hc, Stand.standby_of_running on]; dsimp only
  rw [taken]; dsimp only
  rw [pickup]
  rfl

/-- A call with its reel and its mission (R127). -/
theorem Hall.allocateFor_made (hs : h.stand st = some s) (hl : h.line st.line = some l) (hc : s.call = some c)
    (on : s.running = some arm.other) (chosen : h.choice s l = some (i, r)) (free : lowestFree h.missions 48 = some slot) :
    (h.allocateFor st).1.call st = some { c with state := .allocated, reel := some ⟨i, r.id⟩, mission := some slot } ∧
      (h.allocateFor st).1.missions = tput h.missions slot { Hall.deliveryFor st arm l c i r with created := h.clock } := by
  obtain ⟨-, -, -, -, -, named⟩ := Hall.chooseReel_fits chosen
  have free' : lowestFree (h.withAllocated st i r).missions 48 = some slot := by rwa [Hall.withAllocated_missions]
  have new : (Hall.deliveryFor st arm l c i r).reel.any (h.withAllocated st i r).named = false := by
    change (h.withAllocated st i r).named ⟨i, r.id⟩ = false
    rw [← named]
    unfold Hall.named
    rw [Hall.withAllocated_missions]
  have clock : (h.withAllocated st i r).clock = h.clock :=
    Hall.butReels_field (h.allocated_butReels i _ _) Hall.clock fun _ => rfl
  rw [Hall.allocateFor_chosen hs hl hc on chosen, Hall.createMission_made free' new]
  dsimp only
  constructor
  · rw [Hall.modCall_call, ((h.withAllocated_steady st i r).same (by simp)).call st, Hall.call_of_stand hs hc]
    rfl
  · rw [Hall.modCall_missions, Hall.enterMission_missions, Hall.withAllocated_missions, clock]

/-- A call whose mission finds the table full: its reel is STORED again (R127). -/
theorem Hall.allocateFor_full (hs : h.stand st = some s) (hl : h.line st.line = some l) (hc : s.call = some c)
    (on : s.running = some arm.other) (chosen : h.choice s l = some (i, r)) (full : lowestFree h.missions 48 = none) :
    (h.allocateFor st).1.call st = some { c with state := .raised, reel := none, mission := none } ∧
      (h.allocateFor st).1.missions = h.missions ∧ tget (h.allocateFor st).1.reels i = some r ∧
      (h.allocateFor st).1.agenda = h.agenda := by
  obtain ⟨-, -, -, stored, uncalled, -⟩ := Hall.chooseReel_fits chosen
  have full' : lowestFree (h.withAllocated st i r).missions 48 = none := by rwa [Hall.withAllocated_missions]
  have back : ({ r with state := .allocated, call := some st } : Reel).released = r := by
    obtain ⟨⟩ := r; simp_all [Reel.released]
  have agenda : (h.withAllocated st i r).agenda = h.agenda :=
    Hall.butReels_field (h.allocated_butReels i _ _) Hall.agenda fun _ => rfl
  have answer : h.allocateFor st = (((h.withAllocated st i r).putReel i r).modCall st fun c =>
      { c with state := .raised, reel := none, mission := none }, true) := by
    rw [Hall.allocateFor_chosen hs hl hc on chosen, Hall.createMission_full full']
    dsimp only
    rw [Hall.askRelease_taken (Hall.reel_of_record (h.withAllocated_reel st i r)) rfl, back]
    rfl
  rw [answer]
  refine ⟨?_, ?_, ?_, ?_⟩
  · rw [Hall.modCall_call, ((h.withAllocated_steady st i r).putReel i r).call st, Hall.call_of_stand hs hc]
    rfl
  · rw [Hall.modCall_missions, Hall.putReel_missions, Hall.withAllocated_missions]
  · simp [Hall.modCall]
  · simpa [Hall.modCall] using agenda

/-- A call with no reel to choose (R43, R127). -/
theorem Hall.allocateFor_starved (hs : h.stand st = some s) (hl : h.line st.line = some l) (hc : s.call = some c)
    (on : s.running = some arm.other) (chosen : h.choice s l = none) :
    (h.allocateFor st).1.call st = some { c with state := .starved, reel := none, mission := none } ∧
      (h.allocateFor st).1.missions = h.missions ∧ ((h.allocateFor st).1.fault ⟨.stockOut, .stand st⟩).active = true := by
  have answer : h.allocateFor st = ((h.raise (standFault .stockOut st)).modCall st fun c =>
      { c with state := .starved, reel := none, mission := none }, false) := by
    unfold Hall.allocateFor
    rw [hs, hl]; dsimp only
    rw [hc, Stand.standby_of_running on]; dsimp only
    rw [Hall.allocate_none hs hl chosen]
  rw [answer]
  refine ⟨?_, ?_, ?_⟩
  · rw [Hall.modCall_call, ((Hall.Steady.refl h).still (Hall.raise_still h rfl)).call st, Hall.call_of_stand hs hc]
    rfl
  · rw [Hall.modCall_missions, Hall.raise_missions]
  · have active := h.raise_active (standFault .stockOut st)
    rwa [← Hall.fault_congr (show ((h.raise (standFault .stockOut st)).modCall st fun c =>
      { c with state := .starved, reel := none, mission := none }).faults = _ by simp [Hall.modCall])] at active

end
/-! ### The call test and what it raises (R125) -/

theorem Hall.noteCall_call (h : Hall) (st : StandAddr) : (h.noteCall st).call st = h.call st := by
  unfold Hall.noteCall; split
  · exact ((Hall.Steady.refl h).notify _).call st
  · rfl

section
variable {h : Hall} {st : StandAddr} {s : Stand} {l : Line} {c d : Call} {r : Reel}

theorem Hall.noteCall_tells (hc : h.call st = some c) (room : h.notices.length < 64) :
    ∃ k, ⟨k, .callRaised st c.deadline c.reraises⟩ ∈ (h.noteCall st).notices := by
  unfold Hall.noteCall
  rw [hc]
  exact Hall.notified room (List.prefix_refl _)

/-- A RAISED call is allocated and told of. -/
theorem Hall.raised_served (hc : h.call st = some c) (fresh : c.state ≠ .dispatched) :
    ∃ d, ((h.allocateFor st).1.noteCall st).call st = some d ∧ c.Served d ∧
      (h.notices.length < 54 → ∃ k, ⟨k, .callRaised st d.deadline d.reraises⟩ ∈ ((h.allocateFor st).1.noteCall st).notices) := by
  obtain ⟨d, hd, served⟩ := Hall.allocateFor_call hc fresh
  exact ⟨d, (Hall.noteCall_call _ st).trans hd, served, fun room =>
    Hall.noteCall_tells hd ((h.allocateFor_tells st).room (by omega))⟩

theorem Hall.callDue_iff (hs : h.stand st = some s) (hl : h.line st.line = some l) (hr : h.runningReel st = some r) :
    h.callDue st = true ↔ s.inService = true ∧ s.mode ≠ .outOfService ∧ s.mode ≠ .unknown ∧
      (∃ arm, s.running = some arm ∧ (s.arm arm).state = .running ∧ (s.arm arm.other).state = .empty) ∧ s.handover = none ∧
      s.call = none ∧ (h.timeToSplice st r s.cfg.ds ≤ h.leadTime st s l (h.timeToSplice st r s.cfg.ds) ∨
        h.runLength r s.cfg.ds ≤ l.cfg.callLength) := by
  unfold Hall.callDue
  rw [hs, hl, hr]
  cases on : s.running with
  | none => simp [on]
  | some arm => simp [Stand.standbyArm, Stand.standby, on, and_assoc]

theorem Hall.callTest_due (hs : h.stand st = some s) (hr : h.runningReel st = some r) (due : h.callDue st = true) :
    ∃ c, (h.callTest st).call st = some c ∧ c.raisedAt = h.clock ∧
      c.deadline = min 4294967295 (h.clock + h.timeToSplice st r s.cfg.ds) ∧ c.reraises = 0 ∧ c.state ≠ .dispatched ∧
      (h.notices.length ≤ 40 → ∃ k, ⟨k, .callRaised st c.deadline 0⟩ ∈ (h.callTest st).notices) := by
  let c : Call :=
    { state := .raised, raisedAt := h.clock, deadline := satAdd Config.max32 h.clock (h.timeToSplice st r s.cfg.ds)
      reel := none, mission := none, reraises := 0 }
  let g := (h.modStand st fun s => { s with call := some c }).oweCeiling st.line
  have answer : h.callTest st = (g.allocateFor st).1.noteCall st := by
    unfold Hall.callTest
    rw [if_pos due, hs, hr]
  have hc : g.call st = some c := by
    have e : g.stand st = (h.modStand st fun s => { s with call := some c }).stand st := congrArg (tget · _) (Hall.oweCeiling_stands _ _)
    rw [Hall.call, e, Hall.stand_modStand, if_pos rfl, hs]
    rfl
  obtain ⟨d, hd, ⟨deadline, raisedAt, reraises, state⟩, told⟩ := Hall.raised_served hc (by simp [c])
  rw [answer]
  refine ⟨d, hd, raisedAt, deadline, reraises, state, fun room => ?_⟩
  have notices : g.notices.length < 54 := by
    rw [show g.notices = h.notices from Hall.oweCeiling_notices _ _]; omega
  obtain ⟨k, hk⟩ := told notices
  exact ⟨k, by rwa [show d.reraises = 0 from reraises] at hk⟩

end

/-! ### The end of a call (R126) -/

/-- The hall without the call of a stand. -/
def Hall.callGone (st : StandAddr) (h : Hall) : Hall := (h.modStand st fun s => { s with call := none }).oweCeiling st.line

/-- What the end of a call makes of its reel, its mission and its STOCK_OUT. -/
def Hall.callLeaves (st : StandAddr) (o : CallOutcome) (loaded : Option ReelRef) (c : Call) (h : Hall) : Hall :=
  match c.reel with
  | some ref => if loaded = some ref then h else h.dropCallReel st o ref c.mission
  | none => if c.state = CallState.starved then h.lower (standFault .stockOut st) else h

/-- The release of a reel by the end of its call (R44). -/
def Hall.callReleases (st : StandAddr) (ref : ReelRef) (h : Hall) : Hall :=
  if (h.reel ref).any fun r : Reel => decide (r.call = some st) then (h.askRelease st ref .feedPlanner true).1 else h

theorem Hall.callReleases_taken {h : Hall} {st : StandAddr} {ref : ReelRef} {r : Reel} (hr : h.reel ref = some r)
    (held : r.call = some st) : h.callReleases st ref = (h.putReel ref.index r.released).retryIfStored r r.released := by
  unfold Hall.callReleases
  rw [if_pos (by simp [hr, held]), Hall.askRelease_taken hr held]
  rfl

theorem Hall.Steady.callReleases {a b : Hall} (x : a.Steady b) (st : StandAddr) (ref : ReelRef) : a.Steady (b.callReleases st ref) := by
  unfold Hall.callReleases; split
  · exact x.askRelease _ _ _ _
  · exact x

theorem Hall.Tells.callReleases {a b : Hall} {n : Nat} (x : a.Tells n b) (st : StandAddr) (ref : ReelRef) :
    a.Tells (n + 3) (b.callReleases st ref) := by
  unfold Hall.callReleases; split
  · exact x.askRelease _ _ _ _
  · exact x.mono (by omega)

section
variable {h : Hall} {st : StandAddr} {o : CallOutcome} {loaded : Option ReelRef} {c : Call} {ref : ReelRef} {r : Reel}
  {n : Nat} {m : Mission} {v : Nat}

theorem Hall.endCall_eq (hc : h.call st = some c) (o : CallOutcome) (loaded : Option ReelRef) :
    h.endCall st o loaded = ((h.callGone st).callLeaves st o loaded c).notify (.callEnd st o loaded) := by
  unfold Hall.endCall
  rw [hc]
  rfl

theorem Hall.callGone_call (h : Hall) (st : StandAddr) : (h.callGone st).call st = none := by
  unfold Hall.callGone Hall.call
  rw [show ((h.modStand st fun s => { s with call := none }).oweCeiling st.line).stand st =
    (h.modStand st fun s => { s with call := none }).stand st from congrArg (tget · _) (Hall.oweCeiling_stands _ _),
    Hall.stand_modStand, if_pos rfl]
  cases h.stand st <;> rfl

@[simp] theorem Hall.callGone_reels (h : Hall) (st : StandAddr) : (h.callGone st).reels = h.reels := by simp [Hall.callGone]

@[simp] theorem Hall.callGone_missions (h : Hall) (st : StandAddr) : (h.callGone st).missions = h.missions := by simp [Hall.callGone]

@[simp] theorem Hall.callGone_vehicles (h : Hall) (st : StandAddr) : (h.callGone st).vehicles = h.vehicles := by simp [Hall.callGone]

@[simp] theorem Hall.callGone_faults (h : Hall) (st : StandAddr) : (h.callGone st).faults = h.faults := by simp [Hall.callGone]

@[simp] theorem Hall.callGone_notices (h : Hall) (st : StandAddr) : (h.callGone st).notices = h.notices := by simp [Hall.callGone]

theorem Hall.callGone_handover (h : Hall) (st : StandAddr) : (h.callGone st).handover st = h.handover st := by
  unfold Hall.callGone Hall.handover
  rw [show ((h.modStand st fun s => { s with call := none }).oweCeiling st.line).stand st =
    (h.modStand st fun s => { s with call := none }).stand st from congrArg (tget · _) (Hall.oweCeiling_stands _ _),
    Hall.stand_modStand, if_pos rfl]
  cases h.stand st <;> rfl

/-! What the end of a call makes of the mission of its reel (R126). -/

theorem Hall.dropCallReel_missionless (h : Hall) (st : StandAddr) (o : CallOutcome) (ref : ReelRef) :
    h.dropCallReel st o ref none = h.callReleases st ref := rfl

/-- Whether the end of a call leaves its mission to a handover that is GRANTED. -/
def Hall.mayEnd (h : Hall) (st : StandAddr) (n : Nat) : Prop := ∀ x, h.handover st = some x → x.mission = n → x.phase ≠ .granted

theorem Hall.mayEnd.any (free : h.mayEnd st n) : (h.handover st).any (fun x => decide (x.mission = n ∧ x.phase = .granted)) ≠ true := by
  intro e
  obtain ⟨x, hx, granted⟩ := Option.any_eq_true _ _ |>.mp e
  simp only [decide_eq_true_eq] at granted
  exact free x hx granted.1 granted.2

theorem Hall.dropCallReel_cancels (hm : h.mission n = some m) (kind : m.kind = .deliver) (href : m.reel = some ref)
    (free : h.mayEnd st n) (early : m.state = .waiting ∨ m.state = .assigned) (o : CallOutcome) :
    h.dropCallReel st o ref (some n) = h.cancelBeforePick n .cancelled := by
  have notPicked : m.picked = false := by rcases early with e | e <;> simp [Mission.picked, e]
  unfold Hall.dropCallReel
  simp only [Option.bind_some, hm, Option.map_some]
  rw [if_neg (by simp [kind, href]), if_neg free.any, notPicked, Bool.false_and, if_neg (by simp)]

theorem Hall.dropCallReel_returns (hm : h.mission n = some m) (kind : m.kind = .deliver) (href : m.reel = some ref)
    (free : h.mayEnd st n) (late : m.state = .carrying ∨ m.state = .handover) (hv : m.vehicle = some v) (hr : h.reel ref = some r)
    (aboard : r.loc = .vehicle v) (o : CallOutcome) :
    h.dropCallReel st o ref (some n) =
      if o = .outOfService then ((h.abort v .standOutOfService).turnToReturn n false).holdAborted v
      else (h.turnToReturn n false).resumeMission n := by
  have picked : (m.picked && h.reelAboard m) = true := by
    simp [Mission.picked, Hall.reelAboard, late, href, hv, hr, aboard]
  unfold Hall.dropCallReel
  simp only [Option.bind_some, hm, Option.map_some]
  rw [if_neg (by simp [kind, href]), if_neg free.any, if_pos picked, hv]

theorem Hall.Steady.dropCallReel {a b : Hall} (x : a.Steady b) (st : StandAddr) (o : CallOutcome) (ref : ReelRef) (slot : Option Nat) :
    a.Steady (b.dropCallReel st o ref slot) := by
  have released := x.callReleases st ref
  unfold Hall.dropCallReel; dsimp only; split
  · split
    · exact released
    · split
      · exact released
      · split
        · split
          · split
            · exact ((x.abort _ _).turnToReturn _ _).holdAborted _
            · exact (x.turnToReturn _ _).resumeMission _
          · exact released
        · exact x.cancelBeforePick _ _
  · exact released

theorem Hall.Tells.dropCallReel {a b : Hall} {k : Nat} (x : a.Tells k b) (st : StandAddr) (o : CallOutcome) (ref : ReelRef)
    (slot : Option Nat) : a.Tells (k + 10) (b.dropCallReel st o ref slot) := by
  have released := (x.callReleases st ref).mono (m := k + 10) (by omega)
  unfold Hall.dropCallReel; dsimp only; split
  · split
    · exact released
    · split
      · exact released
      · split
        · split
          · split
            · exact (((x.abort _ _).turnToReturn _ _).holdAborted _).mono (by omega)
            · exact ((x.turnToReturn _ _).resumeMission _).mono (by omega)
          · exact released
        · exact x.cancelBeforePick _ _
  · exact released

theorem Hall.Steady.callLeaves {a b : Hall} (x : a.Steady b) (st : StandAddr) (o : CallOutcome) (loaded : Option ReelRef) (c : Call) :
    a.Steady (b.callLeaves st o loaded c) := by
  unfold Hall.callLeaves; split
  · split
    · exact x
    · exact x.dropCallReel _ _ _ _
  · split
    · exact x.lower _
    · exact x

theorem Hall.Tells.callLeaves {a b : Hall} {k : Nat} (x : a.Tells k b) (st : StandAddr) (o : CallOutcome) (loaded : Option ReelRef)
    (c : Call) : a.Tells (k + 10) (b.callLeaves st o loaded c) := by
  unfold Hall.callLeaves; split
  · split
    · exact x.mono (by omega)
    · exact x.dropCallReel _ _ _ _
  · split
    · exact (x.lower _).mono (by omega)
    · exact x.mono (by omega)

/-- The stand is without its call, and the notice of its end is queued. -/
theorem Hall.endCall_ends (hc : h.call st = some c) (o : CallOutcome) (loaded : Option ReelRef) :
    (h.endCall st o loaded).call st = none ∧
      (h.notices.length ≤ 40 → ∃ k, ⟨k, .callEnd st o loaded⟩ ∈ (h.endCall st o loaded).notices) := by
  rw [Hall.endCall_eq hc]
  refine ⟨?_, fun room => Hall.notified ?_ (List.prefix_refl _)⟩
  · rw [(((Hall.Steady.refl _).callLeaves st o loaded c).notify _).call st, Hall.callGone_call]
  · exact ((Hall.Tells.refl _).callLeaves st o loaded c).room (by simp; omega)

end
/-! What the end of a call makes of its reel. -/

/-- A cancel before the pick releases the reel alone (R44, R108). -/
theorem Hall.cancelBeforePick_releases {h : Hall} {slot : Nat} {m : Mission} (hm : h.mission slot = some m) (o : MissionOutcome) :
    (h.cancelBeforePick slot o).reels = (h.releaseReel m .fleetController).reels ∧
      ∀ j ∈ (h.releaseReel m .fleetController).agenda, j ∈ (h.cancelBeforePick slot o).agenda := by
  unfold Hall.cancelBeforePick
  rw [hm]; dsimp only
  split
  · rw [Hall.butRoads_field ((Hall.afterEnd_butRoads _ _ _ _).trans (Hall.direct_butRoads _ _ _)) Hall.reels, Hall.endMission_reels]
    refine ⟨rfl, fun j hj => (Hall.afterEnd_roads _ _ _ _).owes j ?_⟩
    change j ∈ (Hall.direct _ _ _).agenda
    rw [Hall.direct_agenda]
    exact Hall.endMission_owes _ slot o hj
  · rw [Hall.endMission_reels]
    exact ⟨rfl, fun j hj => Hall.endMission_owes _ slot o hj⟩

theorem Hall.retryIfStored_owes {h : Hall} {r r' : Reel} (before : r.state ≠ .stored) (after : r'.state = .stored) :
    Job.starvedRetry r'.grade r'.width ∈ (h.retryIfStored r r').agenda := by
  unfold Hall.retryIfStored
  rw [if_pos ⟨before, after⟩]
  exact Hall.mem_push.mpr (.inl rfl)

section
variable {h : Hall} {st : StandAddr} {o : CallOutcome} {loaded : Option ReelRef} {c : Call} {ref : ReelRef} {r : Reel}
  {n : Nat} {m : Mission} {v : Nat}

theorem Hall.callGone_mission (h : Hall) (st : StandAddr) (n : Nat) : (h.callGone st).mission n = h.mission n :=
  congrArg (tget · n) (h.callGone_missions st)

theorem Hall.callGone_reel (h : Hall) (st : StandAddr) (ref : ReelRef) : (h.callGone st).reel ref = h.reel ref := by simp [Hall.reel]

theorem Hall.callGone_vehicle (h : Hall) (st : StandAddr) (v : Nat) : (h.callGone st).vehicle v = h.vehicle v := by simp [Hall.vehicle]

/-- The end of a call whose reel is still to be dealt with. -/
theorem Hall.endCall_drops (hc : h.call st = some c) (href : c.reel = some ref) (other : loaded ≠ some ref) (o : CallOutcome) :
    h.endCall st o loaded = ((h.callGone st).dropCallReel st o ref c.mission).notify (.callEnd st o loaded) := by
  rw [Hall.endCall_eq hc, Hall.callLeaves, href]
  dsimp only
  rw [if_neg other]

theorem Hall.endCall_cancels (hc : h.call st = some c) (href : c.reel = some ref) (other : loaded ≠ some ref) (hr : h.reel ref = some r)
    (held : r.call = some st) (hn : c.mission = some n) (sorted : tsorted h.missions = true) (hm : h.mission n = some m)
    (kind : m.kind = .deliver) (mreel : m.reel = some ref) (mcall : m.call = some st) (free : h.mayEnd st n)
    (early : m.state = .waiting ∨ m.state = .assigned) (allocated : r.state = .allocated) (o : CallOutcome) :
    (h.endCall st o loaded).mission n = none ∧
      tget (h.endCall st o loaded).reels ref.index = some { r with state := .stored, call := none } ∧
      Job.starvedRetry r.grade r.width ∈ (h.endCall st o loaded).agenda := by
  have hm' : (h.callGone st).mission n = some m := (Hall.callGone_mission h st n).trans hm
  have free' : (h.callGone st).mayEnd st n := by unfold Hall.mayEnd; rwa [Hall.callGone_handover]
  have hr' : (h.callGone st).reel ref = some r := (Hall.callGone_reel h st ref).trans hr
  have stored : r.released = { r with state := .stored, call := none } := if_pos allocated
  obtain ⟨reels, owes⟩ := Hall.cancelBeforePick_releases hm' .cancelled
  rw [Hall.releaseReel_taken mreel mcall hr' held, stored] at reels owes
  rw [Hall.endCall_drops hc href other, hn, Hall.dropCallReel_cancels hm' kind mreel free' early]
  refine ⟨?_, ?_, ?_⟩
  · simp only [Hall.mission, Hall.notify_missions]
    rw [Hall.cancelBeforePick_missions hm', Hall.callGone_missions, tget_tdel_same sorted]
  · rw [Hall.notify_reels, reels, Hall.retryIfStored_reels]; simp
  · rw [Hall.notify_agenda]
    exact owes _ (Hall.retryIfStored_owes (r' := { r with state := .stored, call := none }) (by simp [allocated]) rfl)

theorem Hall.endCall_returns (hc : h.call st = some c) (href : c.reel = some ref) (other : loaded ≠ some ref) (hr : h.reel ref = some r)
    (held : r.call = some st) (hn : c.mission = some n) (hm : h.mission n = some m)
    (kind : m.kind = .deliver) (mreel : m.reel = some ref) (mcall : m.call = some st) (free : h.mayEnd st n)
    (late : m.state = .carrying ∨ m.state = .handover) (hv : m.vehicle = some v) (aboard : r.loc = .vehicle v)
    (known : (tget h.vehicles v).isSome) (fixed : r.state ≠ .allocated) (o : CallOutcome) :
    (∃ k, (h.endCall st o loaded).mission n = some k ∧ k.kind = .ret ∧ k.reel = some ref) ∧
      tget (h.endCall st o loaded).reels ref.index = some { r with call := none } ∧
      (o ≠ .outOfService → ((h.endCall st o loaded).vehicle v).abort = (h.vehicle v).abort) ∧
      (o = .outOfService → ∃ a, ((h.endCall st o loaded).vehicle v).abort = some a ∧ .standOutOfService ∈ a.causes) := by
  have hm' : (h.callGone st).mission n = some m := (Hall.callGone_mission h st n).trans hm
  have free' : (h.callGone st).mayEnd st n := by unfold Hall.mayEnd; rwa [Hall.callGone_handover]
  have hr' : (h.callGone st).reel ref = some r := (Hall.callGone_reel h st ref).trans hr
  have released : r.released = { r with call := none } := if_neg fixed
  have turned {g : Hall} (gm : g.mission n = some m) (gr : g.reel ref = some r) :
      tget (g.turnToReturn n false).reels ref.index = some { r with call := none } := by
    rw [Hall.turnToReturn_reels _ _ gm, Hall.releaseReel_taken mreel mcall gr held, released, Hall.retryIfStored_reels]; simp
  have sameVehicle (g : Hall) : (g.turnToReturn n false).vehicle v = g.vehicle v := by
    unfold Hall.vehicle; rw [Hall.turnToReturn_vehicles]
  rw [Hall.endCall_drops hc href other, hn, Hall.dropCallReel_returns hm' kind mreel free' late hv hr' aboard]
  simp only [Hall.mission, Hall.notify_missions, Hall.notify_reels, Hall.notify_vehicle]
  by_cases out : o = .outOfService
  · rw [if_pos out]
    have am : ((h.callGone st).abort v .standOutOfService).mission n = some m := by rwa [Hall.mission, Hall.abort_missions]
    have ar : ((h.callGone st).abort v .standOutOfService).reel ref = some r := by rwa [Hall.reel, Hall.abort_reels]
    obtain ⟨x, hx, xkind, xreel⟩ := Hall.turnToReturn_mission am mreel false
    obtain ⟨k, hk, kkind, kreel⟩ := ((Hall.Follows.refl _).holdAborted v).ret hx xkind
    refine ⟨⟨k, hk, kkind, kreel.trans (xreel.trans mreel)⟩, ?_, fun no => absurd out no, fun _ => ?_⟩
    · rw [Hall.holdAborted_reels, turned am ar]
    · obtain ⟨a, ha, cause⟩ := Hall.abort_causes (h := h.callGone st) (v := v) (by simpa using known) .standOutOfService
      refine ⟨a, ?_, cause⟩
      rw [Vehicle.borne_field (Hall.holdAborted_borne _ v v) Vehicle.abort, sameVehicle, ha]
  · rw [if_neg out]
    obtain ⟨x, hx, xkind, xreel⟩ := Hall.turnToReturn_mission hm' mreel false
    obtain ⟨k, hk, kkind, kreel⟩ := ((Hall.Follows.refl _).resumeMission n).ret hx xkind
    refine ⟨⟨k, hk, kkind, kreel.trans (xreel.trans mreel)⟩, ?_, fun _ => ?_, fun yes => absurd yes out⟩
    · rw [Hall.resumeMission_reels, turned hm' hr']
    · rw [Vehicle.borne_field (Hall.resumeMission_borne _ n v) Vehicle.abort, sameVehicle, Hall.callGone_vehicle]

theorem Hall.endCall_releases (hc : h.call st = some c) (href : c.reel = some ref) (other : loaded ≠ some ref) (hr : h.reel ref = some r)
    (held : r.call = some st) (hn : c.mission = none) (o : CallOutcome) :
    tget (h.endCall st o loaded).reels ref.index = some r.released := by
  have hr' : (h.callGone st).reel ref = some r := (Hall.callGone_reel h st ref).trans hr
  rw [Hall.endCall_drops hc href other, hn, Hall.dropCallReel_missionless, Hall.notify_reels, Hall.callReleases_taken hr' held,
    Hall.retryIfStored_reels]
  simp

theorem Hall.endCall_reelless (hc : h.call st = some c) (bare : c.reel = none) (o : CallOutcome) (loaded : Option ReelRef) :
    (h.endCall st o loaded).reels = h.reels ∧ (h.endCall st o loaded).missions = h.missions ∧
      (c.state = .starved → h.Sound → ((h.endCall st o loaded).fault ⟨.stockOut, .stand st⟩).active = false) := by
  rw [Hall.endCall_eq hc, Hall.callLeaves, bare]
  dsimp only
  split
  · have still := Hall.lower_still (h.callGone st) (standFault .stockOut st)
    refine ⟨?_, ?_, fun _ sound => ?_⟩
    · rw [Hall.notify_reels, Hall.still_field still Hall.reels fun _ => rfl, Hall.callGone_reels]
    · rw [Hall.notify_missions, Hall.still_field still Hall.missions fun _ => rfl, Hall.callGone_missions]
    · rw [Hall.fault_congr (Hall.notify_faults _ _)]
      exact Hall.lower_inactive (by rw [Hall.callGone_faults]; exact sound.faults) _
  · rename_i fed
    exact ⟨by simp, by simp, fun starved => absurd starved fed⟩

theorem Hall.endCall_loaded (hc : h.call st = some c) (href : c.reel = some ref) (isLoaded : loaded = some ref) (o : CallOutcome) :
    (h.endCall st o loaded).reels = h.reels ∧ (h.endCall st o loaded).missions = h.missions := by
  rw [Hall.endCall_eq hc, Hall.callLeaves, href]
  dsimp only
  rw [if_pos isLoaded]
  simp

end

/-! ### Re-raising (R128) -/

section
variable {h : Hall} {st : StandAddr} {s : Stand} {c : Call} {ref : ReelRef} {x : ArmName}

theorem Hall.callLost_iff (href : c.reel = some ref) :
    h.callLost st c = true ↔ (∀ r, h.reel ref = some r → r.call ≠ some st) ∨
      ∀ slot m, c.mission = some slot → h.mission slot = some m → m.kind ≠ .deliver ∨ m.call ≠ some st ∨ m.reel ≠ some ref := by
  unfold Hall.callLost
  rw [href]; dsimp only
  rw [Bool.or_eq_true]
  refine or_congr ?_ ?_
  · cases h.reel ref <;> simp
  · cases c.mission with
    | none => simp
    | some slot =>
      have named : (∀ n m, some slot = some n → h.mission n = some m → m.kind ≠ .deliver ∨ m.call ≠ some st ∨ m.reel ≠ some ref) ↔
          ∀ m, h.mission slot = some m → m.kind ≠ .deliver ∨ m.call ≠ some st ∨ m.reel ≠ some ref :=
        ⟨fun k m => k slot m rfl, fun k n m e => by cases e; exact k m⟩
      rw [named, Option.bind_some]
      cases h.mission slot with
      | none => simp
      | some m =>
        simp only [Option.any_some, Option.some.injEq, forall_eq', Bool.not_eq_true', decide_eq_false_iff_not]
        tauto

theorem Hall.reRaise_kept (hs : h.stand st = some s) (hc : s.call = some c) (kept : h.callLost st c = false) : h.reRaise st = h := by
  unfold Hall.reRaise
  simp [hs, hc, kept]

theorem Hall.reRaise_outOfService (hs : h.stand st = some s) (hc : s.call = some c) (lost : h.callLost st c = true)
    (out : s.inService = false) : h.reRaise st = h.endCall st .outOfService none := by
  unfold Hall.reRaise
  simp [hs, hc, lost, out]

theorem Hall.reRaise_cancelled (hs : h.stand st = some s) (hc : s.call = some c) (lost : h.callLost st c = true)
    (on : s.inService = true) (taken : ∀ x, s.running = some x → (s.arm x.other).state ≠ .empty) :
    h.reRaise st = h.endCall st .cancelled none := by
  have noArm : s.standbyArm.any (fun a => decide (a.state = .empty)) = false := by
    cases hx : s.running with
    | none => simp [Stand.standbyArm, Stand.standby, hx]
    | some x => simpa [Stand.standbyArm, Stand.standby, hx] using taken x hx
  unfold Hall.reRaise
  simp [hs, hc, lost, on, noArm]

/-- A call raised again, as it is allocated anew. -/
def Call.again (c : Call) : Call :=
  { c with state := .raised, reel := none, mission := none, reraises := satAdd Config.max8 c.reraises 1 }

/-- The hall with the call of a stand raised again and the reel of that call released. -/
def Hall.raisedAgain (st : StandAddr) (c : Call) (h : Hall) : Hall :=
  (match c.reel with
    | some ref => h.callReleases st ref
    | none => h).modCall st Call.again

theorem Hall.reRaise_again (hs : h.stand st = some s) (hc : s.call = some c) (lost : h.callLost st c = true)
    (on : s.inService = true) (hx : s.running = some x) (empty : (s.arm x.other).state = .empty) :
    h.reRaise st = ((h.raisedAgain st c).allocateFor st).1.noteCall st := by
  have arm : s.standbyArm.any (fun a => decide (a.state = .empty)) = true := by
    simp [Stand.standbyArm, Stand.standby, hx, empty]
  unfold Hall.reRaise
  rw [hs]; dsimp only
  rw [hc]; dsimp only
  rw [lost, on, arm]
  rfl

theorem Hall.raisedAgain_call (hc : h.call st = some c) : (h.raisedAgain st c).call st = some c.again := by
  have released : h.Steady (match c.reel with
      | some ref => h.callReleases st ref
      | none => h) := by
    split
    · exact (Hall.Steady.refl h).callReleases st _
    · exact .refl h
  unfold Hall.raisedAgain
  rw [Hall.modCall_call, released.call st, hc]
  rfl

theorem Hall.raisedAgain_tells (h : Hall) (st : StandAddr) (c : Call) : h.Tells 3 (h.raisedAgain st c) := by
  unfold Hall.raisedAgain
  refine Hall.Tells.modCall ?_ _ _
  split
  · exact (Hall.Tells.refl h).callReleases st _
  · exact (Hall.Tells.refl h).mono (by omega)

theorem Hall.reRaise_raises (hs : h.stand st = some s) (hc : s.call = some c) (lost : h.callLost st c = true)
    (on : s.inService = true) (hx : s.running = some x) (empty : (s.arm x.other).state = .empty) :
    ∃ d, (h.reRaise st).call st = some d ∧ d.deadline = c.deadline ∧ d.raisedAt = c.raisedAt ∧
      d.reraises = min 255 (c.reraises + 1) ∧ d.state ≠ .dispatched ∧
      (h.notices.length ≤ 40 → ∃ k, ⟨k, .callRaised st d.deadline d.reraises⟩ ∈ (h.reRaise st).notices) := by
  obtain ⟨d, hd, ⟨deadline, raisedAt, reraises, state⟩, told⟩ :=
    Hall.raised_served (Hall.raisedAgain_call (Hall.call_of_stand hs hc)) (by simp [Call.again])
  rw [Hall.reRaise_again hs hc lost on hx empty]
  refine ⟨d, hd, deadline, raisedAt, reraises, state, fun room => told ?_⟩
  have tells := h.raisedAgain_tells st c
  unfold Hall.Tells at tells
  omega

end

/-! ### Lists put in order (R45, R95, R127) -/

section
variable {α : Type} {before : α → α → Bool} {R : α → α → Prop}

theorem insertBy_perm (before : α → α → Bool) (x : α) (l : List α) : (insertBy before x l).Perm (x :: l) := by
  induction l with
  | nil => exact .refl _
  | cons y l ih =>
    unfold insertBy; split
    · exact .refl _
    · exact (ih.cons y).trans (.swap x y l)

theorem insertBy_pairwise (yes : ∀ x y, before x y = true → R x y) (no : ∀ x y, before x y = false → R y x)
    (trans : ∀ x y z, R x y → R y z → R x z) (x : α) {l : List α} (order : l.Pairwise R) : (insertBy before x l).Pairwise R := by
  induction l with
  | nil => exact List.pairwise_singleton R x
  | cons y l ih =>
    obtain ⟨first, rest⟩ := List.pairwise_cons.mp order
    unfold insertBy; split
    · rename_i e
      refine List.pairwise_cons.mpr ⟨fun z hz => ?_, order⟩
      rcases List.mem_cons.mp hz with rfl | hz
      · exact yes _ _ e
      · exact trans _ _ _ (yes _ _ e) (first z hz)
    · rename_i e
      refine List.pairwise_cons.mpr ⟨fun z hz => ?_, ih rest⟩
      rcases List.mem_cons.mp ((insertBy_perm before x l).mem_iff.mp hz) with rfl | hz
      · exact no _ _ (by simpa using e)
      · exact first z hz

theorem sortBy_perm (before : α → α → Bool) (l : List α) : (sortBy before l).Perm l := by
  have fold (acc : List α) : (l.foldl (fun acc x => insertBy before x acc) acc).Perm (l ++ acc) := by
    induction l generalizing acc with
    | nil => exact .refl _
    | cons x l ih => exact (ih _).trans (((insertBy_perm before x acc).append_left l).trans List.perm_middle)
  simpa [sortBy] using fold []

theorem sortBy_pairwise (yes : ∀ x y, before x y = true → R x y) (no : ∀ x y, before x y = false → R y x)
    (trans : ∀ x y z, R x y → R y z → R x z) (l : List α) : (sortBy before l).Pairwise R := by
  have fold {acc : List α} (order : acc.Pairwise R) : (l.foldl (fun acc x => insertBy before x acc) acc).Pairwise R := by
    induction l generalizing acc with
    | nil => exact order
    | cons x l ih => exact ih (insertBy_pairwise yes no trans x order)
  exact fold .nil

end

/-- The stands with a call in a state are served by deadline and then by address (R45, R127). -/
theorem Hall.callsIn_ordered (h : Hall) (x : CallState) : ∃ rows : List (Nat × Nat), h.callsIn x = rows.map (fun p => standOfKey p.2) ∧
    rows.Perm (h.stands.filterMap fun p => (p.2.call.filter fun c => decide (c.state = x)).map fun c => (c.deadline, p.1)) ∧
    rows.Pairwise fun p q => p.1 < q.1 ∨ (p.1 = q.1 ∧ p.2 ≤ q.2) := by
  refine ⟨_, rfl, sortBy_perm _ _, sortBy_pairwise ?_ ?_ ?_ _⟩
  · intro p q e
    simp only [keysBefore, Bool.and_false, Bool.or_false, Bool.or_eq_true, Bool.and_eq_true, decide_eq_true_eq] at e
    omega
  · intro p q e
    simp only [keysBefore, Bool.and_false, Bool.or_false, Bool.or_eq_false_iff, Bool.and_eq_false_iff, decide_eq_false_iff_not] at e
    omega
  · intro p q r _ _
    omega

/-- A RAISED call served, and those after it unless the table was full (R127). -/
theorem Hall.raisedRetry_cons (h : Hall) (st : StandAddr) (rest : List StandAddr) : h.raisedRetry (st :: rest) =
    if (h.allocateFor st).2 then (h.allocateFor st).1 else (h.allocateFor st).1.raisedRetry rest := by
  conv_lhs => unfold Hall.raisedRetry
  split <;> (rename_i e; rw [e]; simp)

/-! ### Calls are raised, allocated and ended -/

/-- Settles O52: the choice of a reel, its allocation, the call test, the end of a call, re-raising, and the order of service. -/
theorem callsAreRaisedAndAllocated : Obligations.CallsAreRaisedAndAllocated := by
  refine ⟨?_, ?_, ?_, Hall.callsIn_ordered, fun _ _ _ => rfl, fun h st rest => ⟨rfl, h.raisedRetry_cons st rest⟩⟩
  · intro h grade width partials least sorted fits
    exact Hall.chooseReel_cases sorted
  · intro h st s l hs hl choice
    refine ⟨fun i r chosen => Hall.allocate_chosen hs hl chosen, fun bare => Hall.allocate_starved hs hl bare, ?_, ?_⟩
    · intro c arm hc on t
      refine ⟨fun i r slot _ chosen free => ?_, fun i r chosen full => Hall.allocateFor_full hs hl hc on chosen full,
        fun bare => Hall.allocateFor_starved hs hl hc on bare⟩
      exact Hall.allocateFor_made hs hl hc on chosen free
    · intro r hr time due
      have iff : h.callDue st = true ↔ due := Hall.callDue_iff hs hl hr
      exact ⟨fun yes => Hall.callTest_due hs hr (iff.mpr yes), fun no => if_neg fun e => no (iff.mp e)⟩
  · intro h st c hc
    refine ⟨?_, ?_, fun ref href => Hall.callLost_iff href, fun bare => by unfold Hall.callLost; rw [bare]⟩
    · intro o loaded t
      obtain ⟨gone, told⟩ := Hall.endCall_ends hc o loaded
      refine ⟨gone, told, ?_, fun bare => Hall.endCall_reelless hc bare o loaded, fun ref href is => Hall.endCall_loaded hc href is o⟩
      intro ref r href other hr held
      refine ⟨?_, fun hn => Hall.endCall_releases hc href other hr held hn o⟩
      intro slot m hn sorted hm kind mreel mcall free
      refine ⟨fun early allocated => Hall.endCall_cancels hc href other hr held hn sorted hm kind mreel mcall free early allocated o, ?_⟩
      intro v late hv aboard known fixed
      exact Hall.endCall_returns hc href other hr held hn hm kind mreel mcall free late hv aboard known fixed o
    · intro s hs
      have hc' : s.call = some c := by simpa [Hall.call, hs] using hc
      exact ⟨Hall.reRaise_kept hs hc', Hall.reRaise_outOfService hs hc', Hall.reRaise_cancelled hs hc',
        fun x lost on hx empty => Hall.reRaise_raises hs hc' lost on hx empty⟩

end Sys2Proof.Machine
end

section
/-! PROOF. The arbiter, assignment and the ways of vehicles (R97 to R99). -/

-- One theorem after another, as in the laws: elaborated all at once they ask for more threads than the check has room for.
set_option Elab.async false

namespace Sys2Proof.Machine

/-! ### Routes follow the zones alone (R63, R66, R67) -/

section
variable {a b : Hall}

theorem Hall.loopFrom_congr (e : a.zones = b.zones) (start fuel : Nat) : a.loopFrom start fuel = b.loopFrom start fuel := by
  induction fuel generalizing start with
  | zero => rfl
  | succ n ih => simp only [Hall.loopFrom, Hall.zoneOf, e, ih]

theorem Hall.loopTo_congr (e : a.zones = b.zones) (stop fuel z : Nat) : a.loopTo stop fuel z = b.loopTo stop fuel z := by
  have next : a.nextLoop = b.nextLoop := funext fun p => by simp only [Hall.nextLoop, Hall.loopFrom_congr e]
  induction fuel generalizing z with
  | zero => rfl
  | succ n ih => simp only [Hall.loopTo, Hall.zone, e, next, ih]

theorem Hall.route_congr (e : a.zones = b.zones) (start dest : Nat) : a.route start dest = b.route start dest := by
  have size : a.loopSize = b.loopSize := by rw [Hall.loopSize, Hall.loopSize, e]
  have served : a.served = b.served := funext fun u => by rw [Hall.served, Hall.served, Hall.zoneOf, Hall.zoneOf, e]
  have complete : a.loopComplete = b.loopComplete := by rw [Hall.loopComplete, Hall.loopComplete, size, served]
  simp only [Hall.route, Hall.zone, e, complete, Hall.loopTo_congr e]

theorem Hall.placeZone_congr (e : a.zones = b.zones) : a.placeZone = b.placeZone := by
  funext p
  cases p <;> simp only [Hall.placeZone, Hall.zoneOf, e]

end

/-! ### The arbiter's choice (R97, R98) -/

section
variable {h : Hall} {slot v z t : Nat} {m : Mission}

theorem Hall.available_iff : h.available v = true ↔
    let x := h.vehicle v
    x.commissioned = true ∧ x.seated = true ∧ x.supervision = .reporting ∧ x.abort = none ∧ x.mission = none ∧ x.load = none ∧
      h.params.lowCharge ≤ x.charge ∧ h.allStop = false ∧
      (x.activity = .idle ∨ (x.activity = .charging ∧ h.params.resumeCharge ≤ x.charge)) := by
  simp [Hall.available, and_assoc]

/-- Route time from a vehicle to a zone (R67). -/
def Hall.timeTo (h : Hall) (v z : Nat) : Option Nat := (h.vehicle v).front.bind fun f => h.timeBetween f z

theorem Hall.timeTo_eq (h : Hall) (v z : Nat) : h.timeTo v z = ((h.vehicle v).front.bind fun f => h.route f z).map fun zones =>
    ((zones.drop 1).map fun k => ((h.zone k).map fun x => x.cfg.time).getD 0).sum := by
  have total (zones : List Nat) : h.routeTime zones = ((zones.drop 1).map fun k => ((h.zone k).map fun x => x.cfg.time).getD 0).sum :=
    List.sum_eq_foldl.symm
  unfold Hall.timeTo Hall.timeBetween
  cases (h.vehicle v).front with
  | none => rfl
  | some f => exact congrArg (Option.map · (h.route f z)) (funext total)

theorem Hall.nearest_mem {l : List Nat} {w u : Nat} (e : h.nearest z l = some (w, u)) : w ∈ l ∧ h.timeTo w z = some u := by
  induction l with
  | nil => cases e
  | cons a l ih =>
    unfold Hall.nearest at e
    split at e
    · rename_i ht _
      split at e
      · cases e; exact ⟨List.mem_cons_self, ht⟩
      · rename_i hn _
        cases e
        obtain ⟨mem, time⟩ := ih hn
        exact ⟨List.mem_cons_of_mem _ mem, time⟩
    · rename_i ht _; cases e; exact ⟨List.mem_cons_self, ht⟩
    · obtain ⟨mem, time⟩ := ih e
      exact ⟨List.mem_cons_of_mem _ mem, time⟩

theorem Hall.nearest_none {l : List Nat} (far : ∀ v ∈ l, h.timeTo v z = none) : h.nearest z l = none := by
  cases e : h.nearest z l with
  | none => rfl
  | some p =>
    obtain ⟨mem, time⟩ := Hall.nearest_mem (w := p.1) (u := p.2) e
    rw [far _ mem] at time
    cases time

/-- Of a list in order the nearest is the one with the least time, and of those the lowest. -/
theorem Hall.nearest_least {l : List Nat} (order : l.Pairwise (· < ·)) (hv : v ∈ l) (ht : h.timeTo v z = some t)
    (least : ∀ w ∈ l, ∀ u, h.timeTo w z = some u → t < u ∨ (t = u ∧ v ≤ w)) : h.nearest z l = some (v, t) := by
  induction l with
  | nil => cases hv
  | cons a l ih =>
    obtain ⟨first, later⟩ := List.pairwise_cons.mp order
    unfold Hall.nearest
    rcases List.mem_cons.mp hv with rfl | hv
    · rw [show ((h.vehicle v).front.bind fun f => h.timeBetween f z) = some t from ht]
      cases e : h.nearest z l with
      | none => rfl
      | some p =>
        obtain ⟨mem, time⟩ := Hall.nearest_mem (w := p.1) (u := p.2) e
        have := least _ (List.mem_cons_of_mem _ mem) _ time
        exact if_pos (by omega)
    · rw [ih later hv fun w hw => least w (List.mem_cons_of_mem _ hw)]
      cases e : (h.vehicle a).front.bind fun f => h.timeBetween f z with
      | none => rfl
      | some u =>
        have := least a List.mem_cons_self u e
        have := first v hv
        exact if_neg (by omega)

theorem vehicleNumbers_ordered : vehicleNumbers.Pairwise (· < ·) := by decide

theorem mem_available : v ∈ vehicleNumbers.filter h.available ↔ 1 ≤ v ∧ v ≤ 24 ∧ h.available v = true := by
  have number : v ∈ vehicleNumbers ↔ 1 ≤ v ∧ v ≤ 24 := by
    simp only [vehicleNumbers, List.mem_map, List.mem_range]
    constructor
    · rintro ⟨n, hn, rfl⟩; omega
    · rintro ⟨lo, hi⟩; exact ⟨v - 1, by omega, by omega⟩
  rw [List.mem_filter, number, and_assoc]

theorem Hall.arbiterOne_waiting (hm : h.mission slot = some m) (waits : m.state = .waiting) (kind : m.kind ≠ .charge)
    (drop : m.drop.isSome) : h.arbiterOne slot =
      match (h.startZone m).bind fun z => h.nearest z (vehicleNumbers.filter h.available) with
      | some (v, _) => h.assign slot v
      | none => h := by
  unfold Hall.arbiterOne
  rw [hm]; dsimp only
  rw [if_pos ⟨waits, kind, drop⟩] <;> rfl

/-- The nearest available vehicle is given the mission (R98). -/
theorem Hall.arbiterOne_assigns (hm : h.mission slot = some m) (waits : m.state = .waiting) (kind : m.kind ≠ .charge)
    (drop : m.drop.isSome) (hz : h.startZone m = some z) (lo : 1 ≤ v) (hi : v ≤ 24) (free : h.available v = true)
    (ht : h.timeTo v z = some t) (least : ∀ w u, 1 ≤ w → w ≤ 24 → h.available w = true → h.timeTo w z = some u →
      t < u ∨ (t = u ∧ v ≤ w)) : h.arbiterOne slot = h.assign slot v := by
  have chosen : h.nearest z (vehicleNumbers.filter h.available) = some (v, t) :=
    Hall.nearest_least (vehicleNumbers_ordered.filter _) (mem_available.mpr ⟨lo, hi, free⟩) ht fun w hw u hu => by
      obtain ⟨wlo, whi, wfree⟩ := mem_available.mp hw
      exact least w u wlo whi wfree hu
  rw [Hall.arbiterOne_waiting hm waits kind drop, hz, Option.bind_some, chosen]

theorem Hall.arbiterOne_waits (hm : h.mission slot = some m) (waits : m.state = .waiting) (kind : m.kind ≠ .charge)
    (drop : m.drop.isSome) (hz : h.startZone m = some z)
    (far : ∀ v, 1 ≤ v → v ≤ 24 → h.available v = true → h.timeTo v z = none) : h.arbiterOne slot = h := by
  have far' : h.nearest z (vehicleNumbers.filter h.available) = none := Hall.nearest_none fun v hv => by
    obtain ⟨lo, hi, free⟩ := mem_available.mp hv
    exact far v lo hi free
  rw [Hall.arbiterOne_waiting hm waits kind drop, hz, Option.bind_some, far']

theorem Hall.arbiterOne_placeless (hm : h.mission slot = some m) (waits : m.state = .waiting) (kind : m.kind ≠ .charge)
    (drop : m.drop.isSome) (hz : h.startZone m = none) : h.arbiterOne slot = h := by
  rw [Hall.arbiterOne_waiting hm waits kind drop, hz]
  rfl

theorem Hall.arbiterOne_passes (hm : h.mission slot = some m) (busy : m.state ≠ .waiting ∨ m.drop = none) : h.arbiterOne slot = h := by
  unfold Hall.arbiterOne
  rw [hm]; dsimp only
  refine if_neg fun e => ?_
  obtain ⟨waits, -, drop⟩ := e
  rcases busy with b | b
  · exact b waits
  · simp [b] at drop

end

/-! ### Vehicles set off (R99, R101, R102) -/

section
variable {h : Hall} {slot v : Nat} {m : Mission} {a : Activity} {k : DirKind} {zones : List Nat} {dest : Option Nat}

theorem Hall.known_of_seated (seated : (h.vehicle v).seated = true) : (tget h.vehicles v).isSome := by
  cases hx : tget h.vehicles v with
  | some x => rfl
  | none => simp [Hall.vehicle, hx, Vehicle.cold] at seated

@[simp] theorem Hall.setActivity_allStop (h : Hall) (v : Nat) (a : Activity) : (h.setActivity v a).allStop = h.allStop := rfl

/-- A seated vehicle told what it does and where to, while the fleet runs. -/
theorem Hall.setOff (run : h.allStop = false) (seated : (h.vehicle v).seated = true) (a : Activity) (k : DirKind) :
    (((h.setActivity v a).direct v k).vehicle v).activity = a ∧
      (((h.setActivity v a).direct v k).vehicle v).directive = ⟨(h.vehicle v).directive.number + 1, k⟩ := by
  have known : (tget (h.setActivity v a).vehicles v).isSome := by
    rw [Hall.setActivity_known]; exact Hall.known_of_seated seated
  have acts := Hall.setActivity_running run seated a
  have run : (h.setActivity v a).allStop = false := run
  exact ⟨by rw [Hall.direct_activity run known, acts], by rw [Hall.direct_directive run known, acts]⟩

theorem Hall.setOff_missions (h : Hall) (v : Nat) (a : Activity) (k : DirKind) : ((h.setActivity v a).direct v k).missions = h.missions :=
  Hall.butRoads_field ((Hall.direct_butRoads _ _ _).trans (Hall.setActivity_butRoads _ _ _)) Hall.missions

/-- The route of a vehicle to where its mission goes. -/
def Hall.way (h : Hall) (v : Nat) (dest : Option Nat) : Option (List Nat) :=
  dest.bind fun z => (h.vehicle v).front.bind fun f => h.route f z

theorem Hall.travel_eq (h : Hall) (slot v : Nat) (dest : Option Nat) (a : Activity) : h.travel slot v dest a =
    ((h.modMission slot fun m => { m with route := (h.way v dest).map fun zones => ⟨zones, 1⟩ }).setActivity v a).direct v
      (((h.way v dest).map fun zones => .move zones 1).getD .hold) := by
  unfold Hall.travel Hall.way
  cases dest.bind fun z => (h.vehicle v).front.bind fun f => h.route f z <;> rfl

theorem Hall.travel_missions (h : Hall) (slot v : Nat) (dest : Option Nat) (a : Activity) : (h.travel slot v dest a).missions =
    tmod h.missions slot fun m => { m with route := (h.way v dest).map fun zones => ⟨zones, 1⟩ } := by
  rw [Hall.travel_eq, Hall.setOff_missions]
  rfl

theorem Hall.travel_allStop (h : Hall) (slot v : Nat) (dest : Option Nat) (a : Activity) :
    (h.travel slot v dest a).allStop = h.allStop := by
  rw [Hall.travel_eq, Hall.butRoads_field ((Hall.direct_butRoads _ _ _).trans (Hall.setActivity_butRoads _ _ _)) Hall.allStop]
  rfl

theorem Hall.travel_vehicle (run : h.allStop = false) (seated : (h.vehicle v).seated = true) (slot : Nat) (dest : Option Nat)
    (a : Activity) : ((h.travel slot v dest a).vehicle v).activity = a ∧ ((h.travel slot v dest a).vehicle v).directive =
      ⟨(h.vehicle v).directive.number + 1, ((h.way v dest).map fun zones => .move zones 1).getD .hold⟩ := by
  rw [Hall.travel_eq]
  exact Hall.setOff (h := h.modMission slot _) run seated a _

theorem Hall.way_congr {g : Hall} (zones : g.zones = h.zones) (front : (g.vehicle v).front = (h.vehicle v).front) (dest : Option Nat) :
    g.way v dest = h.way v dest := by
  unfold Hall.way
  rw [front]
  simp only [Hall.route_congr zones]

theorem Hall.carry_eq (hm : h.mission slot = some m) (hv : m.vehicle = some v) : h.carry slot =
    ((h.modMission slot fun m => { m with state := .carrying }).oweCall m.call).travel slot v (m.drop.bind h.placeZone)
      (if m.kind = .charge then .toCharger else .carrying) := by
  have zones : ((h.modMission slot fun m => { m with state := .carrying }).oweCall m.call).placeZone = h.placeZone := by
    refine Hall.placeZone_congr ?_
    rw [Hall.oweCall_eq]; rfl
  unfold Hall.carry
  rw [hm]; dsimp only
  rw [hv]; dsimp only
  rw [zones]

theorem Hall.oweCall_vehicle (h : Hall) (c : Option StandAddr) (v : Nat) : (h.oweCall c).vehicle v = h.vehicle v := by
  rw [Hall.oweCall_eq]; rfl

theorem Hall.carry_mission (hm : h.mission slot = some m) (hv : m.vehicle = some v) : (h.carry slot).mission slot =
    some { m with state := .carrying, route := (h.way v (m.drop.bind h.placeZone)).map fun zones => ⟨zones, 1⟩ } := by
  have way : ((h.modMission slot fun m => { m with state := .carrying }).oweCall m.call).way v (m.drop.bind h.placeZone) =
      h.way v (m.drop.bind h.placeZone) :=
    Hall.way_congr (by rw [Hall.oweCall_eq]; rfl) (by rw [Hall.oweCall_vehicle]; rfl) _
  have hm' : tget h.missions slot = some m := hm
  rw [Hall.carry_eq hm hv, Hall.mission, Hall.travel_missions, way, Hall.oweCall_eq]
  simp [hm']

theorem Hall.carry_vehicle (run : h.allStop = false) (seated : (h.vehicle v).seated = true) (hm : h.mission slot = some m)
    (hv : m.vehicle = some v) :
    ((h.carry slot).vehicle v).activity = (if m.kind = .charge then .toCharger else .carrying) ∧ ((h.carry slot).vehicle v).directive =
      ⟨(h.vehicle v).directive.number + 1, ((h.way v (m.drop.bind h.placeZone)).map fun zones => .move zones 1).getD .hold⟩ := by
  have way : ((h.modMission slot fun m => { m with state := .carrying }).oweCall m.call).way v (m.drop.bind h.placeZone) =
      h.way v (m.drop.bind h.placeZone) :=
    Hall.way_congr (by rw [Hall.oweCall_eq]; rfl) (by rw [Hall.oweCall_vehicle]; rfl) _
  have same : ((h.modMission slot fun m => { m with state := .carrying }).oweCall m.call).vehicle v = h.vehicle v := Hall.oweCall_vehicle _ _ v
  have spec := Hall.travel_vehicle (h := (h.modMission slot fun m => { m with state := .carrying }).oweCall m.call)
    (by rw [Hall.oweCall_eq]; exact run) (by rw [same]; exact seated) slot (m.drop.bind h.placeZone)
    (if m.kind = .charge then .toCharger else .carrying)
  rw [way, same] at spec
  rwa [Hall.carry_eq hm hv]

end
/-! ### A mission is assigned (R99) -/

/-- The hall as a mission is given to a vehicle, before the vehicle sets off. -/
def Hall.assigned (slot v : Nat) (m : Mission) (h : Hall) : Hall :=
  let h := (h.modMission slot fun m => { m with state := .assigned, vehicle := some v }).modVehicle v fun x =>
    { x with mission := some slot }
  match m.call with
  | some st => (h.modStand st fun s => { s with call := s.call.map fun c : Call => ({ c with state := .dispatched } : Call) }).oweCeiling st.line
  | none => h

section
variable {h : Hall} {slot v f : Nat} {m : Mission} {x : Vehicle} {st : StandAddr} {arm : ArmName}

theorem Hall.assigned_missions (h : Hall) (slot v : Nat) (m : Mission) : (h.assigned slot v m).missions =
    tmod h.missions slot fun m => { m with state := .assigned, vehicle := some v } := by
  unfold Hall.assigned; dsimp only; split <;> simp

theorem Hall.assigned_vehicles (h : Hall) (slot v : Nat) (m : Mission) : (h.assigned slot v m).vehicles =
    tmod h.vehicles v fun x => { x with mission := some slot } := by
  unfold Hall.assigned; dsimp only; split <;> simp

@[simp] theorem Hall.assigned_zones (h : Hall) (slot v : Nat) (m : Mission) : (h.assigned slot v m).zones = h.zones := by
  unfold Hall.assigned; dsimp only; split <;> simp

@[simp] theorem Hall.assigned_allStop (h : Hall) (slot v : Nat) (m : Mission) : (h.assigned slot v m).allStop = h.allStop := by
  unfold Hall.assigned; dsimp only; split <;> simp

theorem Hall.assigned_mission (hm : h.mission slot = some m) (v : Nat) :
    (h.assigned slot v m).mission slot = some { m with state := .assigned, vehicle := some v } := by
  have hm' : tget h.missions slot = some m := hm
  simp [Hall.mission, Hall.assigned_missions, hm']

theorem Hall.assigned_vehicle (hx : tget h.vehicles v = some x) (slot : Nat) (m : Mission) :
    (h.assigned slot v m).vehicle v = { x with mission := some slot } := by
  simp [Hall.vehicle, Hall.assigned_vehicles, hx]

theorem Hall.assigned_call (hc : m.call = some st) (slot v : Nat) :
    (h.assigned slot v m).call st = (h.call st).map fun c => { c with state := .dispatched } := by
  have owed (g : Hall) (n : Nat) : (g.oweCeiling n).stand st = g.stand st := congrArg (tget · _) (Hall.oweCeiling_stands _ _)
  unfold Hall.assigned Hall.call
  rw [hc]; dsimp only
  rw [owed, Hall.stand_modStand, if_pos rfl]
  change (((h.stand st).map _).bind _) = _
  cases h.stand st <;> rfl

theorem Hall.assign_eq (hm : h.mission slot = some m) (v : Nat) : h.assign slot v =
    if m.kind = .park then (h.assigned slot v m).carry slot
    else if (m.pickup.bind h.placeZone).isSome ∧
        (((h.assigned slot v m).travel slot v (m.pickup.bind h.placeZone) .toPickup).vehicle v).front = m.pickup.bind h.placeZone then
      ((h.assigned slot v m).travel slot v (m.pickup.bind h.placeZone) .toPickup).arrivePickup slot v m
    else (h.assigned slot v m).travel slot v (m.pickup.bind h.placeZone) .toPickup := by
  rw [← Hall.placeZone_congr (h.assigned_zones slot v m)]
  unfold Hall.assign
  rw [hm]
  rfl

/-! Arrival at the pickup. -/

theorem Hall.arrivePickup_borne (h : Hall) (slot v : Nat) (m : Mission) (w : Nat) :
    ((h.arrivePickup slot v m).vehicle w).borne = (h.vehicle w).borne := by
  unfold Hall.arrivePickup; split
  · rw [show ∀ (g : Hall) (j : Job), (g.push j).vehicle w = g.vehicle w from fun g j => by simp [Hall.vehicle], Hall.direct_borne,
      Hall.setActivity_borne]
    rfl
  · rw [Hall.direct_borne, Hall.setActivity_borne]
  · rfl

theorem Hall.Steady.arrivePickup {a b : Hall} (x : a.Steady b) (slot v : Nat) (m : Mission) : a.Steady (b.arrivePickup slot v m) := by
  unfold Hall.arrivePickup; split
  · exact (((x.modMission _ _).setActivity _ _).direct _ _).push _
  · exact (x.setActivity _ _).direct _ _
  · exact x

theorem Hall.arrivePickup_arm (hp : m.pickup = some (.arm st arm)) (run : h.allStop = false) (seated : (h.vehicle v).seated = true)
    {n : Mission} (hn : h.mission slot = some n) :
    ((h.arrivePickup slot v m).mission slot).map (·.state) = some .handover ∧
      ((h.arrivePickup slot v m).vehicle v).activity = .handover ∧
      ((h.arrivePickup slot v m).vehicle v).directive.kind = .hold ∧ Job.unloadReady slot ∈ (h.arrivePickup slot v m).agenda := by
  have answer : h.arrivePickup slot v m =
      (((h.modMission slot fun m => { m with state := .handover }).setActivity v .handover).direct v .hold).push (.unloadReady slot) := by
    unfold Hall.arrivePickup
    rw [hp]
  have hn' : tget h.missions slot = some n := hn
  obtain ⟨acts, told⟩ := Hall.setOff (h := h.modMission slot fun m => { m with state := .handover }) run seated .handover .hold
  rw [answer]
  refine ⟨?_, ?_, ?_, Hall.mem_push.mpr (.inl rfl)⟩
  · rw [Hall.mission, Hall.push_missions, Hall.setOff_missions]
    simp [hn']
  · simpa [Hall.vehicle] using acts
  · have kind := congrArg Directive.kind told
    simpa [Hall.vehicle] using kind

theorem Hall.arrivePickup_place {p : Place} (hp : m.pickup = some p) (noArm : ∀ st arm, p ≠ .arm st arm) (run : h.allStop = false)
    (seated : (h.vehicle v).seated = true) (slot : Nat) :
    (h.arrivePickup slot v m).mission slot = h.mission slot ∧ ((h.arrivePickup slot v m).vehicle v).activity = .picking ∧
      ((h.arrivePickup slot v m).vehicle v).directive.kind = .pick p m.reelId := by
  have answer : h.arrivePickup slot v m = (h.setActivity v .picking).direct v (.pick p m.reelId) := by
    unfold Hall.arrivePickup
    rw [hp]
    cases p with
    | arm st arm => exact absurd rfl (noArm st arm)
    | dock n => rfl
    | bay b => rfl
    | charger n => rfl
    | park n => rfl
  obtain ⟨acts, told⟩ := Hall.setOff run seated .picking (.pick p m.reelId)
  rw [answer]
  exact ⟨congrArg (tget · slot) (Hall.setOff_missions _ _ _ _), acts, congrArg Directive.kind told⟩

/-! What assignment makes of the mission, its vehicle and its call. -/

theorem Hall.assign_bears (hm : h.mission slot = some m) (hx : tget h.vehicles v = some x) :
    ((h.assign slot v).vehicle v).mission = some slot := by
  have given : ((h.assigned slot v m).vehicle v).mission = some slot := by rw [Hall.assigned_vehicle hx]
  rw [Hall.assign_eq hm]
  split
  · rw [Vehicle.borne_field (Hall.carry_borne _ slot v) Vehicle.mission, given]
  · split
    · rw [Vehicle.borne_field ((Hall.arrivePickup_borne _ _ _ _ _).trans (Hall.travel_borne _ _ _ _ _ _)) Vehicle.mission, given]
    · rw [Vehicle.borne_field (Hall.travel_borne _ _ _ _ _ _) Vehicle.mission, given]

theorem Hall.assign_dispatches (hm : h.mission slot = some m) {c : Call} (hc : m.call = some st) (call : h.call st = some c) (v : Nat) :
    (h.assign slot v).call st = some { c with state := .dispatched } := by
  have given : (h.assigned slot v m).call st = some { c with state := .dispatched } := by rw [Hall.assigned_call hc, call]; rfl
  rw [Hall.assign_eq hm]
  split
  · rw [((Hall.Steady.refl _).carry _).call st, given]
  · split
    · rw [(((Hall.Steady.refl _).travel _ _ _ _).arrivePickup _ _ _).call st, given]
    · rw [((Hall.Steady.refl _).travel _ _ _ _).call st, given]

theorem Hall.assigned_way (hx : tget h.vehicles v = some x) (hf : x.front = some f) (slot : Nat) (m : Mission) (z : Nat) :
    (h.assigned slot v m).way v (some z) = h.route f z := by
  unfold Hall.way
  rw [Hall.assigned_vehicle hx]
  change x.front.bind _ = _
  rw [hf, Option.bind_some, Hall.route_congr (h.assigned_zones slot v m)]

section
variable (hm : h.mission slot = some m) (hx : tget h.vehicles v = some x) (seated : x.seated = true) (hf : x.front = some f)
  (run : h.allStop = false)
include hm hx seated hf run

/-- A vehicle away from the pickup sets off for it. -/
theorem Hall.assign_travels {p : Place} {z : Nat} {zones : List Nat} (kind : m.kind ≠ .park) (hp : m.pickup = some p)
    (hz : h.placeZone p = some z) (away : f ≠ z) (route : h.route f z = some zones) :
    (h.assign slot v).mission slot = some { m with state := .assigned, vehicle := some v, route := some ⟨zones, 1⟩ } ∧
      ((h.assign slot v).vehicle v).activity = .toPickup ∧
      ((h.assign slot v).vehicle v).directive = ⟨x.directive.number + 1, .move zones 1⟩ := by
  have dest : m.pickup.bind h.placeZone = some z := by rw [hp, Option.bind_some, hz]
  have way : (h.assigned slot v m).way v (some z) = some zones := (Hall.assigned_way hx hf slot m z).trans route
  have front : (((h.assigned slot v m).travel slot v (some z) .toPickup).vehicle v).front = some f := by
    rw [Vehicle.borne_field (Hall.travel_borne _ _ _ _ _ _) Vehicle.front, Hall.assigned_vehicle hx]; exact hf
  have answer : h.assign slot v = (h.assigned slot v m).travel slot v (some z) .toPickup := by
    rw [Hall.assign_eq hm, if_neg kind, dest, front, if_neg]
    rintro ⟨-, e⟩
    exact away (Option.some.inj e)
  obtain ⟨acts, told⟩ := Hall.travel_vehicle (h := h.assigned slot v m) (by rw [Hall.assigned_allStop, run])
    (by rw [Hall.assigned_vehicle hx]; exact seated) slot
    (some z) .toPickup
  rw [answer]
  refine ⟨?_, acts, ?_⟩
  · have given : tget (h.assigned slot v m).missions slot = _ := Hall.assigned_mission hm v
    rw [Hall.mission, Hall.travel_missions, tget_tmod_same, given, way]
    rfl
  · rw [told, way, Hall.assigned_vehicle hx]
    rfl

/-- A vehicle that stands in the pickup zone arrives there (log 15). -/
theorem Hall.assign_arrives {p : Place} (kind : m.kind ≠ .park) (hp : m.pickup = some p) (hz : h.placeZone p = some f) :
    ∃ g : Hall, h.assign slot v = g.arrivePickup slot v m ∧ (g.mission slot).map (·.state) = some .assigned ∧
      g.allStop = false ∧ (g.vehicle v).seated = true := by
  have dest : m.pickup.bind h.placeZone = some f := by rw [hp, Option.bind_some, hz]
  have front : (((h.assigned slot v m).travel slot v (some f) .toPickup).vehicle v).front = some f := by
    rw [Vehicle.borne_field (Hall.travel_borne _ _ _ _ _ _) Vehicle.front, Hall.assigned_vehicle hx]; exact hf
  refine ⟨(h.assigned slot v m).travel slot v (some f) .toPickup, ?_, ?_, ?_, ?_⟩
  · rw [Hall.assign_eq hm, if_neg kind, dest, if_pos ⟨rfl, front⟩]
  · have given : tget (h.assigned slot v m).missions slot = _ := Hall.assigned_mission hm v
    rw [Hall.mission, Hall.travel_missions, tget_tmod_same, given]
    rfl
  · rw [Hall.travel_allStop, Hall.assigned_allStop, run]
  · rw [Vehicle.borne_field (Hall.travel_borne _ _ _ _ _ _) Vehicle.seated, Hall.assigned_vehicle hx]; exact seated

/-- A vehicle given a PARK mission sets off for its drop. -/
theorem Hall.assign_parks {d : Place} {z : Nat} {zones : List Nat} (kind : m.kind = .park) (hd : m.drop = some d)
    (hz : h.placeZone d = some z) (route : h.route f z = some zones) :
    (h.assign slot v).mission slot = some { m with state := .carrying, vehicle := some v, route := some ⟨zones, 1⟩ } ∧
      ((h.assign slot v).vehicle v).activity = .carrying ∧
      ((h.assign slot v).vehicle v).directive = ⟨x.directive.number + 1, .move zones 1⟩ := by
  have given := Hall.assigned_mission hm v
  have dest : m.drop.bind (h.assigned slot v m).placeZone = some z := by
    rw [hd, Option.bind_some, Hall.placeZone_congr (h.assigned_zones slot v m), hz]
  have way : (h.assigned slot v m).way v (some z) = some zones := (Hall.assigned_way hx hf slot m z).trans route
  have mission := Hall.carry_mission given rfl
  obtain ⟨acts, told⟩ := Hall.carry_vehicle (h := h.assigned slot v m) (by rw [Hall.assigned_allStop, run])
    (by rw [Hall.assigned_vehicle hx]; exact seated)
    given rfl
  rw [dest, way] at mission told
  rw [Hall.assign_eq hm, if_pos kind]
  refine ⟨mission, ?_, ?_⟩
  · rw [acts, if_neg (by simp [kind])]
  · rw [told, Hall.assigned_vehicle hx]
    rfl

end

end

/-! ### The completion a report carries (R93, R111) -/

section
variable {x : Vehicle} {n : Byte} {k : DirKind}

/-- The directive that a report's number stands for. -/
def Vehicle.Takes (x : Vehicle) (n : Byte) (k : DirKind) : Prop :=
  (n = x.directive.number ∧ k = x.directive.kind) ∨ (n ≠ x.directive.number ∧ x.kept = some ⟨some n, k⟩)

theorem Vehicle.reported_iff : x.reported n = some k ↔ x.Takes n k := by
  unfold Vehicle.reported Vehicle.Takes
  by_cases same : n = x.directive.number
  · simp [same, eq_comm]
  · rw [if_neg same]
    cases hk : x.kept with
    | none => simp [same]
    | some q => obtain ⟨qn, qk⟩ := q; simp [same]

variable {h : Hall} {r : VehicleReport} {c : Completion}

theorem Hall.takeCompletion_taken (taken : (h.vehicle r.vehicle).Takes r.directive k) (c : Completion) : h.takeCompletion r c =
    if completes k c then
      match k with
      | .pick _ _ => h.pickDone r.vehicle r.reel
      | .place b => h.placeDone r.vehicle b
      | .placeHere => h.setDownDone r.vehicle
      | .transfer _ _ _ => h.transferDone r.vehicle .load
      | .unload _ _ _ => h.transferDone r.vehicle .unload
      | _ => h
    else h := by
  unfold Hall.takeCompletion; dsimp only
  rw [Vehicle.reported_iff.mpr taken]
  cases k <;> rfl

theorem Hall.takeCompletion_untaken (untaken : ∀ k, ¬ (h.vehicle r.vehicle).Takes r.directive k) (c : Completion) :
    h.takeCompletion r c = h := by
  unfold Hall.takeCompletion; dsimp only
  cases e : (h.vehicle r.vehicle).reported r.directive with
  | none => rfl
  | some k => exact absurd (Vehicle.reported_iff.mp e) (untaken k)

end

end Sys2Proof.Machine
end

section
/-! PROOF. Completions, arrivals and stray loads of vehicles (O59). -/

-- One theorem after another, as in the laws: elaborated all at once they ask for more threads than the check has room for.
set_option Elab.async false

namespace Sys2Proof.Machine

/-! ### What custody changes leave (R20, R26) -/

section
variable {h : Hall} {ref : ReelRef} {r r' : Reel}

theorem Hall.clearPlace_still (h : Hall) (l : Location) : (h.clearPlace l).notices = h.notices ∧ (h.clearPlace l).allStop = h.allStop ∧
    (h.clearPlace l).clock = h.clock := by
  rw [Hall.clearPlace_eq]; exact ⟨rfl, rfl, rfl⟩

theorem Hall.fillPlace_still (h : Hall) (l : Location) (ref : ReelRef) : (h.fillPlace l ref).notices = h.notices ∧
    (h.fillPlace l ref).allStop = h.allStop ∧ (h.fillPlace l ref).clock = h.clock := by
  rw [Hall.fillPlace_eq]; exact ⟨rfl, rfl, rfl⟩

theorem Hall.Tells.custody {a b : Hall} {n : Nat} (x : a.Tells n b) (ref : ReelRef) (r r' : Reel) : a.Tells (n + 3) (b.custody ref r r') := by
  unfold Hall.custody; split
  · exact x.putReel _ _
  · exact (x.same (c := (b.clearPlace r.loc).fillPlace r'.loc ref)
      ((Hall.fillPlace_still _ _ _).1.trans (b.clearPlace_still _).1)).putReel _ _

@[simp] theorem Hall.custody_allStop (h : Hall) (ref : ReelRef) (r r' : Reel) : (h.custody ref r r').allStop = h.allStop := by
  unfold Hall.custody; split
  · exact Hall.putReel_allStop _ _ _
  · rw [Hall.putReel_allStop, (Hall.fillPlace_still _ _ _).2.1, (h.clearPlace_still _).2.1]

theorem Hall.fillPlace_known (h : Hall) (l : Location) (ref : ReelRef) (v : Nat) :
    (tget (h.fillPlace l ref).vehicles v).isSome = (tget h.vehicles v).isSome := by
  cases l with
  | vehicle w => exact h.modVehicle_known w _ v
  | bay c => rfl
  | arm st y => rfl
  | dock n => rfl
  | nowhere => rfl

theorem Hall.custody_known (h : Hall) (ref : ReelRef) (r r' : Reel) (v : Nat) :
    (tget (h.custody ref r r').vehicles v).isSome = (tget h.vehicles v).isSome := by
  unfold Hall.custody; split
  · rw [Hall.putReel_vehicles]
  · rw [Hall.putReel_vehicles, Hall.fillPlace_known, Hall.clearPlace_known]

theorem Hall.custody_of_eq (stays : r.loc = r'.loc) : h.custody ref r r' = h.putReel ref.index r' := if_pos stays

/-- A bay that a reel has left is empty. -/
theorem Hall.custody_empties_bay (moves : r.loc ≠ r'.loc) {b : BayAddr} (hb : r.loc = .bay b) {y : Bay}
    (hy : (h.custody ref r r').bay b = some y) : y.occupant = none := by
  cases hx : h.bay b with
  | some x =>
    rw [Hall.custody_clears_bay moves hb hx] at hy
    cases hy; rfl
  | none =>
    rw [Hall.custody_bay moves, Hall.fillPlace_bay, if_neg (hb ▸ moves).symm, Hall.clearPlace_bay, if_pos hb, hx] at hy
    cases hy

theorem Place.location_ne_vehicle (p : Place) (v : Nat) : p.location ≠ .vehicle v := by cases p <;> simp [Place.location]

theorem Hall.reel_record (hr : h.reel ref = some r) : tget h.reels ref.index = some r := (Option.filter_eq_some_iff.mp hr).1

/-! What a call handed back leaves. -/

theorem Hall.handBack_eq (h : Hall) (r : Reel) : h.handBack r = { h with agenda := (h.handBack r).agenda } := by
  unfold Hall.handBack Hall.push; split
  · split <;> rfl
  · rfl

theorem Hall.handBack_owes {st : StandAddr} (hc : r.call = some st) : Job.reRaise st ∈ (h.handBack r).agenda := by
  unfold Hall.handBack
  rw [hc]
  exact Hall.mem_push.mpr (.inl rfl)

end

/-! ### What the way to a drop leaves (R101) -/

/-- The hall but its roads, its missions and the ceilings owed. -/
def Hall.butWay (h : Hall) : Hall := { h.butRoads with missions := [], ceilings := [] }

theorem Hall.travel_butRoads (h : Hall) (slot v : Nat) (dest : Option Nat) (a : Activity) :
    (h.travel slot v dest a).butRoads = { h.butRoads with missions := (h.travel slot v dest a).missions } := by
  rw [Hall.travel_missions, Hall.travel_eq, Hall.direct_butRoads, Hall.setActivity_butRoads]
  rfl

theorem Hall.carry_butWay (h : Hall) (slot : Nat) : (h.carry slot).butWay = h.butWay := by
  unfold Hall.carry; split
  · split
    · dsimp only
      rw [Hall.butWay, Hall.travel_butRoads, Hall.oweCall_eq]
      rfl
    · rfl
  · rfl

/-- A field of the hall that the setting off of a mission leaves. -/
theorem Hall.carry_field (h : Hall) (slot : Nat) {α : Type} (f : Hall → α) (hf : ∀ h : Hall, f h.butWay = f h := by intro; rfl) :
    f (h.carry slot) = f h := by
  rw [← hf (h.carry slot), Hall.carry_butWay, hf h]

/-! ### The completion of PICK (R27, R29, R100) -/

section
variable {h : Hall} {v slot : Nat} {m : Mission} {x : Vehicle} {ref : ReelRef} {p : Place} {r : Reel}

theorem Hall.vehicle_of_record (hx : tget h.vehicles v = some x) : h.vehicle v = x := by simp [Hall.vehicle, hx]

theorem Hall.pickDone_eq (hx : tget h.vehicles v = some x) (bears : x.mission = some slot) (hm : h.mission slot = some m)
    (href : m.reel = some ref) (hp : m.pickup = some p) (scan : Option ReelId) : h.pickDone v scan =
      match scan with
      | none => (h.askPickupEmpty ref p.location).1.pickFailed v slot .pickupEmpty .hold
      | some id =>
        if id = ref.id then
          match h.askPick v ref (some p.location) with
          | (h, some _) => h.carry slot
          | (h, none) => h.pickRefused v slot m
        else (h.askIdMismatch ref p.location).1.pickFailed v slot .idMismatch .placeHere := by
  unfold Hall.pickDone
  rw [Hall.vehicle_of_record hx, bears]; dsimp only
  rw [hm]; dsimp only
  rw [href, hp] <;> cases scan <;> rfl

/-- Whether a reel may be picked at a place (R27). -/
def Reel.MayPick (r : Reel) (l : Location) : Prop :=
  r.loc = l ∧ (r.state = .atDock ∨ r.state = .conditioning ∨ r.state = .stored ∨ r.state = .allocated ∨ r.state = .quarantined)

/-- The record of a reel picked by a vehicle (R27). -/
def Reel.pickedBy (r : Reel) (v : Nat) : Reel :=
  { r with loc := .vehicle v, state := if r.state = .quarantined then .quarantined else .inTransit }

/-! The reel is picked. -/

theorem Hall.pickDone_picks (hx : tget h.vehicles v = some x) (bears : x.mission = some slot) (hm : h.mission slot = some m)
    (href : m.reel = some ref) (hp : m.pickup = some p) (hr : h.reel ref = some r) (picks : r.MayPick p.location) :
    h.pickDone v (some ref.id) = (h.custody ref r (r.pickedBy v)).carry slot := by
  obtain ⟨here, states⟩ := picks
  rw [Hall.pickDone_eq hx bears hm href hp]
  dsimp only
  rw [if_pos rfl, Hall.askPick, Hall.askCustody_taken hr (by simp [here, states])]
  rfl

theorem Hall.pickDone_taken (hx : tget h.vehicles v = some x) (bears : x.mission = some slot) (hm : h.mission slot = some m)
    (href : m.reel = some ref) (hp : m.pickup = some p) (hr : h.reel ref = some r) (picks : r.MayPick p.location) :
    tget (h.pickDone v (some ref.id)).reels ref.index = some (r.pickedBy v) ∧
      ((h.pickDone v (some ref.id)).vehicle v).load = some ref ∧
      (∀ b y, p.location = .bay b → (h.pickDone v (some ref.id)).bay b = some y → y.occupant = none) ∧
      (m.vehicle = some v → ((h.pickDone v (some ref.id)).mission slot).map (·.state) = some .carrying) := by
  have moves : r.loc ≠ (r.pickedBy v).loc := by rw [picks.1]; exact p.location_ne_vehicle v
  have hm' : (h.custody ref r (r.pickedBy v)).mission slot = some m := by rwa [Hall.mission, Hall.custody_missions]
  rw [Hall.pickDone_picks hx bears hm href hp hr picks]
  refine ⟨?_, ?_, fun b y place hy => ?_, fun hv => ?_⟩
  · rw [Hall.carry_reels, Hall.custody_reels, tget_tput_same]
  · rw [Vehicle.borne_field (Hall.carry_borne _ _ _) Vehicle.load, Hall.custody_fills_vehicle moves rfl (by simp [hx])]
  · rw [Hall.carry_field _ slot fun g => g.bay b] at hy
    exact Hall.custody_empties_bay moves (picks.1.trans place) hy
  · rw [Hall.carry_mission hm' hv]
    rfl

/-! The Register refuses the pick. -/

/-- The hall in which a mission waits anew and its vehicle is without it, before the vehicle sets the reel down (R100). -/
def Hall.waitsAnew (v slot : Nat) (m : Mission) (h : Hall) : Hall :=
  let h := (h.modMission slot fun m => { m with state := .waiting, vehicle := none, route := none }).modVehicle v fun x =>
    { x with mission := none }
  match m.call with
  | some st => h.modCall st fun c => if c.state = CallState.dispatched then { c with state := .allocated } else c
  | none => h

theorem Hall.waitsAnew_fields (h : Hall) (v slot : Nat) (m : Mission) :
    (h.waitsAnew v slot m).reels = h.reels ∧ (h.waitsAnew v slot m).allStop = h.allStop ∧
      (h.waitsAnew v slot m).missions = (tmod h.missions slot fun m => { m with state := .waiting, vehicle := none, route := none }) ∧
      (h.waitsAnew v slot m).vehicles = tmod h.vehicles v fun x => { x with mission := none } := by
  unfold Hall.waitsAnew; dsimp only; split <;> simp [Hall.modCall]

theorem Hall.waitsAnew_call {st : StandAddr} (hc : m.call = some st) (v slot : Nat) : (h.waitsAnew v slot m).call st =
    (h.call st).map fun c => if c.state = CallState.dispatched then { c with state := .allocated } else c := by
  unfold Hall.waitsAnew
  rw [hc]; dsimp only
  rw [Hall.modCall_call]
  rfl

/-- A pick refused: the mission waits anew, and the vehicle sets the reel down (R100). -/
theorem Hall.pickRefused_spec (hm : h.mission slot = some m) (known : (tget h.vehicles v).isSome) (run : h.allStop = false) (n : Mission) :
    (h.pickRefused v slot n).reels = h.reels ∧
      (h.pickRefused v slot n).mission slot = some { m with state := .waiting, vehicle := none, route := none } ∧
      ((h.pickRefused v slot n).vehicle v).mission = none ∧ ((h.pickRefused v slot n).vehicle v).directive.kind = .placeHere ∧
      ∀ st k, n.call = some st → h.call st = some k → k.state = .dispatched →
        (h.pickRefused v slot n).call st = some { k with state := .allocated } := by
  have hm' : tget h.missions slot = some m := hm
  obtain ⟨reels, stop, missions, vehicles⟩ := h.waitsAnew_fields v slot n
  have answer : h.pickRefused v slot n = ((h.waitsAnew v slot n).direct v .placeHere).push .arbiter := rfl
  have kept {α : Type} (f : Hall → α) (hf : ∀ h : Hall, f h.butRoads = f h) : f (h.pickRefused v slot n) = f (h.waitsAnew v slot n) :=
    Hall.butRoads_field ((Hall.push_butRoads _ _).trans (Hall.direct_butRoads _ _ _)) f hf
  have known' : (tget (h.waitsAnew v slot n).vehicles v).isSome := by rw [vehicles, tget_tmod_same]; simpa using known
  have unladen : ((h.waitsAnew v slot n).vehicle v).mission = none := by
    rw [Hall.vehicle, vehicles, tget_tmod_same]
    cases tget h.vehicles v <;> rfl
  have pushed (w : Hall) : (w.push .arbiter).vehicle v = w.vehicle v := by simp [Hall.vehicle]
  refine ⟨(kept Hall.reels fun _ => rfl).trans reels, ?_, ?_, ?_, fun st k hc call dispatched => ?_⟩
  · rw [Hall.mission, kept Hall.missions fun _ => rfl, missions, tget_tmod_same, hm']
    rfl
  · rw [answer, pushed, Vehicle.borne_field (Hall.direct_borne _ v _ v) Vehicle.mission, unladen]
  · rw [answer, pushed, Hall.direct_directive (stop.trans run) known']
  · rw [answer, (((Hall.Steady.refl _).direct v _).push _).call st, Hall.waitsAnew_call hc, call, Option.map_some, if_pos dispatched]

theorem Hall.pickDone_refused (hx : tget h.vehicles v = some x) (bears : x.mission = some slot) (hm : h.mission slot = some m)
    (href : m.reel = some ref) (hp : m.pickup = some p) (hr : h.reel ref = some r) (refused : ¬ r.MayPick p.location)
    (run : h.allStop = false) :
    tget (h.pickDone v (some ref.id)).reels ref.index = some r ∧
      (h.pickDone v (some ref.id)).mission slot = some { m with state := .waiting, vehicle := none, route := none } ∧
      ((h.pickDone v (some ref.id)).vehicle v).mission = none ∧
      ((h.pickDone v (some ref.id)).vehicle v).directive.kind = .placeHere ∧
      ∀ st k, m.call = some st → h.call st = some k → k.state = .dispatched →
        (h.pickDone v (some ref.id)).call st = some { k with state := .allocated } := by
  have still := Hall.refuseCustody_still h ref .pick .fleetController
  have answer : h.pickDone v (some ref.id) = (h.refuseCustody ref .pick .fleetController).pickRefused v slot m := by
    rw [Hall.pickDone_eq hx bears hm href hp]
    dsimp only
    rw [if_pos rfl, Hall.askPick, Hall.askCustody_refused hr (by simpa [Reel.MayPick] using refused)]
  have mission : (h.refuseCustody ref .pick .fleetController).mission slot = some m :=
    (Hall.still_field still (fun g => g.mission slot) fun _ => rfl).trans hm
  have known : (tget (h.refuseCustody ref .pick .fleetController).vehicles v).isSome := by
    rw [Hall.still_field still Hall.vehicles fun _ => rfl, hx]; rfl
  obtain ⟨reels, waits, unladen, sets, calls⟩ := Hall.pickRefused_spec mission known
    ((Hall.still_field still Hall.allStop fun _ => rfl).trans run) m
  rw [answer]
  refine ⟨?_, waits, unladen, sets, fun st k hc call => calls st k hc ?_⟩
  · rw [reels, Hall.still_field still Hall.reels fun _ => rfl, Hall.reel_record hr]
  · exact (Hall.still_field still (fun g => g.call st) fun _ => rfl).trans call

/-! The pick fails. -/

theorem Hall.abort_fields (h : Hall) (v : Nat) (c : AbortCause) : (h.abort v c).bays = h.bays ∧ (h.abort v c).allStop = h.allStop ∧
    (h.abort v c).agenda = h.agenda := by
  unfold Hall.abort; extract_lets _ _ _ record; split <;> simp

theorem Hall.abort_known (h : Hall) (v : Nat) (c : AbortCause) (w : Nat) :
    (tget (h.abort v c).vehicles w).isSome = (tget h.vehicles w).isSome := by
  unfold Hall.abort; extract_lets _ _ _ record; split
  · rfl
  · rw [Hall.notify_vehicles, Hall.modVehicle_known]

/-- The hall in which a vehicle is aborted and its mission has ended (R105). -/
def Hall.abortsMission (v slot : Nat) (c : AbortCause) (h : Hall) : Hall := (h.abort v c).endMission slot .aborted

/-- What a failed pick does after the end of its mission: the vehicle is told what to do. -/
theorem Hall.pickFailed_tells (h : Hall) (v slot : Nat) (c : AbortCause) (next : DirKind) :
    (h.pickFailed v slot c next).butRoads = (h.abortsMission v slot c).butRoads ∧
      (h.pickFailed v slot c next).agenda = (h.abortsMission v slot c).agenda ∧
      ((h.pickFailed v slot c next).vehicle v).borne = ((h.abortsMission v slot c).vehicle v).borne ∧
      ((h.pickFailed v slot c next).vehicle v).directive = (((h.abortsMission v slot c).direct v next).vehicle v).directive := by
  have told : h.pickFailed v slot c next = if c = .idMismatch then (h.abortsMission v slot c).direct v next
    else ((h.abortsMission v slot c).direct v next).setActivity v .idle := rfl
  rw [told]
  split
  · exact ⟨Hall.direct_butRoads _ _ _, Hall.direct_agenda _ _ _, Hall.direct_borne _ _ _ _, rfl⟩
  · exact ⟨(Hall.setActivity_butRoads _ _ _).trans (Hall.direct_butRoads _ _ _), Hall.direct_agenda _ _ _,
      (Hall.setActivity_borne _ v _ v).trans (Hall.direct_borne _ _ _ _), Hall.setActivity_directive _ v _ v⟩

/-- A pick that has failed: the mission ends, and the vehicle is aborted (R100, R105). -/
theorem Hall.pickFailed_spec (hm : h.mission slot = some m) (known : (tget h.vehicles v).isSome) (run : h.allStop = false)
    (sorted : tsorted h.missions = true) (c : AbortCause) (next : DirKind) :
    (h.pickFailed v slot c next).reels = h.reels ∧ tview Bay.fixed (h.pickFailed v slot c next).bays = tview Bay.fixed h.bays ∧
      (h.pickFailed v slot c next).mission slot = none ∧
      (h.notices.length < 63 → ∃ k, ⟨k, .missionEnd slot m.kind m.reel m.vehicle .aborted⟩ ∈ (h.pickFailed v slot c next).notices) ∧
      (∃ a, ((h.pickFailed v slot c next).vehicle v).abort = some a ∧ c ∈ a.causes) ∧
      ((h.pickFailed v slot c next).vehicle v).directive.kind = next ∧
      ∀ j ∈ h.agenda, j ∈ (h.pickFailed v slot c next).agenda := by
  have aborted : (h.abort v c).mission slot = some m := by rwa [Hall.mission, Hall.abort_missions]
  obtain ⟨bays, stop, owed⟩ := h.abort_fields v c
  obtain ⟨roads, agenda, borne, directive⟩ := h.pickFailed_tells v slot c next
  have known' : (tget (h.abortsMission v slot c).vehicles v).isSome := by
    rwa [Hall.abortsMission, Hall.endMission_known, Hall.abort_known]
  have run' : (h.abortsMission v slot c).allStop = false := by rw [Hall.abortsMission, Hall.endMission_allStop, stop, run]
  obtain ⟨a, ha, cause⟩ := Hall.abort_causes known c
  refine ⟨?_, ?_, ?_, fun room => ?_, ⟨a, ?_, cause⟩, ?_, fun j hj => ?_⟩
  · rw [Hall.butRoads_field roads Hall.reels, Hall.abortsMission, Hall.endMission_reels, Hall.abort_reels]
  · rw [Hall.butRoads_field roads Hall.bays, Hall.abortsMission, Hall.endMission_bays, bays]
  · rw [Hall.mission, Hall.butRoads_field roads Hall.missions, Hall.abortsMission, Hall.endMission_missions aborted,
      Hall.abort_missions, tget_tdel_same sorted]
  · rw [Hall.butRoads_field roads Hall.notices]
    exact Hall.endMission_tells aborted (((Hall.Tells.refl h).abort v c).room (by omega)) .aborted
  · rw [Vehicle.borne_field borne Vehicle.abort, Hall.abortsMission, Hall.endMission_vehicle _ _ aborted, ← ha]
    split <;> rfl
  · rw [directive, Hall.direct_directive run' known']
  · rw [agenda]
    exact Hall.endMission_owes _ slot _ (by rwa [owed])

/-- The record of a reel that its pickup was found without (R29). -/
def Reel.missing (r : Reel) : Reel := { r with state := .quarantined, reason := some .pickupEmpty, loc := .nowhere, call := none }

/-- The record of a reel for which another was found (R29). -/
def Reel.mistaken (r : Reel) : Reel := { r with state := .quarantined, reason := some .idMismatch, call := none }

theorem Hall.pickDone_empty (hx : tget h.vehicles v = some x) (bears : x.mission = some slot) (hm : h.mission slot = some m)
    (href : m.reel = some ref) (hp : m.pickup = some p) (hr : h.reel ref = some r) (here : r.loc = p.location) :
    h.pickDone v none = ((h.custody ref r r.missing).handBack r).pickFailed v slot .pickupEmpty .hold := by
  rw [Hall.pickDone_eq hx bears hm href hp]
  dsimp only
  rw [Hall.askPickupEmpty, Hall.askCustody_taken hr (by simp [here])]
  rfl

theorem Hall.pickDone_mistaken (hx : tget h.vehicles v = some x) (bears : x.mission = some slot) (hm : h.mission slot = some m)
    (href : m.reel = some ref) (hp : m.pickup = some p) (hr : h.reel ref = some r) (here : r.loc = p.location) {id : ReelId}
    (other : id ≠ ref.id) : h.pickDone v (some id) =
      (((h.putReel ref.index r.mistaken).blockBay p.location).handBack r).pickFailed v slot .idMismatch .placeHere := by
  rw [Hall.pickDone_eq hx bears hm href hp]
  dsimp only
  have stays : h.custody ref r r.mistaken = h.putReel ref.index r.mistaken := Hall.custody_of_eq rfl
  rw [if_neg other, Hall.askIdMismatch, Hall.askCustody_taken hr (by simp [here]), ← stays]
  rfl

theorem Hall.bay_of_view {a b : Hall} (e : tview Bay.fixed b.bays = tview Bay.fixed a.bays) {k : BayAddr} {y : Bay} (hy : b.bay k = some y) :
    ∃ z, a.bay k = some z ∧ y.fixed = z.fixed := by
  have here := congrArg (tget · (bayKey k)) e
  simp only [tget_tview] at here
  unfold Hall.bay at hy ⊢
  rw [hy] at here
  cases hz : tget a.bays (bayKey k) with
  | none => rw [hz] at here; cases here
  | some z =>
    rw [hz] at here
    exact ⟨z, rfl, Option.some.inj here⟩

theorem Bay.of_fixed {y z : Bay} (e : y.fixed = z.fixed) : y.occupant = z.occupant ∧ y.blocked = z.blocked := by
  have occupant := congrArg Bay.occupant e
  have blocked := congrArg Bay.blocked e
  exact ⟨occupant, blocked⟩

theorem Hall.pickDone_nothing (sorted : tsorted h.missions = true) (hx : tget h.vehicles v = some x) (bears : x.mission = some slot)
    (hm : h.mission slot = some m) (href : m.reel = some ref) (hp : m.pickup = some p) (hr : h.reel ref = some r)
    (run : h.allStop = false) (here : r.loc = p.location) :
    tget (h.pickDone v none).reels ref.index = some r.missing ∧
      (∀ b y, p.location = .bay b → (h.pickDone v none).bay b = some y → y.occupant = none) ∧ (h.pickDone v none).mission slot = none ∧
      (h.notices.length ≤ 40 → ∃ k, ⟨k, .missionEnd slot m.kind m.reel m.vehicle .aborted⟩ ∈ (h.pickDone v none).notices) ∧
      (∃ a, ((h.pickDone v none).vehicle v).abort = some a ∧ .pickupEmpty ∈ a.causes) ∧
      ((h.pickDone v none).vehicle v).directive.kind = .hold ∧
      (∀ st, r.call = some st → Job.reRaise st ∈ (h.pickDone v none).agenda) := by
  let c := h.custody ref r r.missing
  have same {α : Type} (f : Hall → α) (hf : ∀ (g : Hall) (l : List Job), f { g with agenda := l } = f g := by intros; rfl) :
      f (c.handBack r) = f c := by rw [Hall.handBack_eq, hf]
  obtain ⟨reels, bays, gone, told, aborts, sets, owes⟩ := Hall.pickFailed_spec (h := c.handBack r) (slot := slot) (m := m) (v := v)
    (by rw [same fun g => g.mission slot]; unfold c; rwa [Hall.mission, Hall.custody_missions])
    (by rw [same Hall.vehicles]; unfold c; rw [Hall.custody_known, hx]; rfl)
    (by rw [same Hall.allStop]; unfold c; rw [Hall.custody_allStop, run])
    (by rw [same Hall.missions]; unfold c; rwa [Hall.custody_missions]) .pickupEmpty .hold
  rw [Hall.pickDone_empty hx bears hm href hp hr here]
  refine ⟨?_, fun b y place hy => ?_, gone, fun room => told ?_, aborts, sets, fun st hc => owes _ (Hall.handBack_owes hc)⟩
  · rw [reels, same Hall.reels]
    unfold c
    rw [Hall.custody_reels, tget_tput_same]
  · obtain ⟨z, hz, fixed⟩ := Hall.bay_of_view bays hy
    rw [same fun g => g.bay b] at hz
    have moves : r.loc ≠ r.missing.loc := by rw [here, place]; exact Location.noConfusion
    obtain ⟨occupant, -⟩ := Bay.of_fixed fixed
    exact occupant.trans (Hall.custody_empties_bay moves (here.trans place) hz)
  · rw [same Hall.notices]
    have tells := (Hall.Tells.refl h).custody ref r r.missing
    unfold Hall.Tells at tells
    unfold c
    omega

theorem Hall.pickDone_other (sorted : tsorted h.missions = true) (hx : tget h.vehicles v = some x) (bears : x.mission = some slot)
    (hm : h.mission slot = some m) (href : m.reel = some ref) (hp : m.pickup = some p) (hr : h.reel ref = some r)
    (run : h.allStop = false) (here : r.loc = p.location) {id : ReelId} (other : id ≠ ref.id) :
    tget (h.pickDone v (some id)).reels ref.index = some r.mistaken ∧
      (∀ b y, p.location = .bay b → (h.pickDone v (some id)).bay b = some y → y.blocked = true) ∧
      (h.pickDone v (some id)).mission slot = none ∧
      (h.notices.length ≤ 40 → ∃ k, ⟨k, .missionEnd slot m.kind m.reel m.vehicle .aborted⟩ ∈ (h.pickDone v (some id)).notices) ∧
      (∃ a, ((h.pickDone v (some id)).vehicle v).abort = some a ∧ .idMismatch ∈ a.causes) ∧
      ((h.pickDone v (some id)).vehicle v).directive.kind = .placeHere ∧
      (∀ st, r.call = some st → Job.reRaise st ∈ (h.pickDone v (some id)).agenda) := by
  let c := (h.putReel ref.index r.mistaken).blockBay p.location
  have same {α : Type} (f : Hall → α) (hf : ∀ (g : Hall) (l : List Job), f { g with agenda := l } = f g := by intros; rfl) :
      f (c.handBack r) = f c := by rw [Hall.handBack_eq, hf]
  have blocked {α : Type} (f : Hall → α) (hf : ∀ (g : Hall) (l : Table Bay), f { g with bays := l } = f g := by intros; rfl) :
      f c = f (h.putReel ref.index r.mistaken) := by
    unfold c Hall.blockBay
    split
    · exact hf _ _
    · rfl
  obtain ⟨reels, bays, gone, told, aborts, sets, owes⟩ := Hall.pickFailed_spec (h := c.handBack r) (slot := slot) (m := m) (v := v)
    (by rw [same fun g => g.mission slot, blocked fun g => g.mission slot]; rwa [Hall.mission, Hall.putReel_missions])
    (by rw [same Hall.vehicles, blocked Hall.vehicles, Hall.putReel_vehicles, hx]; rfl)
    (by rw [same Hall.allStop, blocked Hall.allStop, Hall.putReel_allStop, run])
    (by rw [same Hall.missions, blocked Hall.missions]; rwa [Hall.putReel_missions]) .idMismatch .placeHere
  rw [Hall.pickDone_mistaken hx bears hm href hp hr here other]
  refine ⟨?_, fun b y place hy => ?_, gone, fun room => told ?_, aborts, sets, fun st hc => owes _ (Hall.handBack_owes hc)⟩
  · rw [reels, same Hall.reels, blocked Hall.reels, Hall.putReel_reels, tget_tput_same]
  · obtain ⟨z, hz, fixed⟩ := Hall.bay_of_view bays hy
    rw [same fun g => g.bay b] at hz
    unfold c Hall.blockBay at hz
    rw [place] at hz
    rw [Hall.bay_modBay, if_pos rfl] at hz
    obtain ⟨w, -, rfl⟩ := Option.map_eq_some_iff.mp hz
    exact (Bay.of_fixed fixed).2
  · rw [same Hall.notices, blocked Hall.notices]
    have tells := (Hall.Tells.refl h).putReel ref.index r.mistaken
    unfold Hall.Tells at tells
    omega

end
/-! ### What the end of a mission makes of its vehicle (R94, R103) -/

section
variable {h : Hall} {v slot : Nat} {m : Mission}

/-- The work after a mission's end leaves a directive that is no MOVE. -/
theorem Hall.afterEnd_directive (parked : ∀ r n, (h.vehicle v).directive.kind ≠ .move r n) (k : MissionKind) (a : Activity) :
    ((h.afterEnd v k a).vehicle v).directive = (h.vehicle v).directive := by
  have same := h.setActivity_directive v a v
  rw [((h.afterEnd_roads v k a).vehicles v).parked (by rw [same]; exact parked), same]

theorem Hall.afterEnd_field (h : Hall) (v : Nat) (k : MissionKind) (a : Activity) {α : Type} (f : Hall → α)
    (hf : ∀ h : Hall, f h.butRoads = f h := by intro; rfl) : f (h.afterEnd v k a) = f h :=
  Hall.butRoads_field (h.afterEnd_butRoads v k a) f hf

theorem Hall.afterEnd_activity (run : h.allStop = false) (seated : (h.vehicle v).seated = true) (k : MissionKind) (a : Activity) :
    ((h.afterEnd v k a).vehicle v).activity = a := by
  rw [((h.afterEnd_roads v k a).vehicles v).field Vehicle.activity, Hall.setActivity_running run seated]

/-- A vehicle told what to do, whose mission then ends (R101, R134). -/
theorem Hall.tellsAndEnds (sorted : tsorted h.missions = true) (hm : h.mission slot = some m) (hv : m.vehicle = some v)
    (known : (tget h.vehicles v).isSome) (run : h.allStop = false) (kind : MissionKind) (a : Activity) (o : MissionOutcome)
    {k : DirKind} (parked : ∀ r n, k ≠ .move r n) :
    (((h.direct v k).endMission slot o).afterEnd v kind a).mission slot = none ∧
      ((((h.direct v k).endMission slot o).afterEnd v kind a).vehicle v).mission = none ∧
      ((((h.direct v k).endMission slot o).afterEnd v kind a).vehicle v).directive.kind = k ∧
      ((h.vehicle v).seated = true → ((((h.direct v k).endMission slot o).afterEnd v kind a).vehicle v).activity = a) ∧
      (h.notices.length ≤ 40 → ∃ n, ⟨n, .missionEnd slot m.kind m.reel m.vehicle o⟩ ∈
        (((h.direct v k).endMission slot o).afterEnd v kind a).notices) := by
  have missions : (h.direct v k).missions = h.missions := Hall.butRoads_field (Hall.direct_butRoads _ _ _) Hall.missions
  have stop : (h.direct v k).allStop = h.allStop := Hall.butRoads_field (Hall.direct_butRoads _ _ _) Hall.allStop
  have hm' : (h.direct v k).mission slot = some m := by rwa [Hall.mission, missions]
  have ended := Hall.endMission_vehicle _ _ hm' o v
  rw [if_pos hv] at ended
  have told : (((h.direct v k).endMission slot o).vehicle v).directive.kind = k := by
    rw [ended]
    exact congrArg Directive.kind (Hall.direct_directive run known k)
  refine ⟨?_, ?_, ?_, fun seated => ?_, fun room => ?_⟩
  · rw [Hall.mission, Hall.afterEnd_field _ v kind a Hall.missions, Hall.endMission_missions hm', missions, tget_tdel_same sorted]
  · rw [Vehicle.borne_field (Hall.afterEnd_borne _ v kind a v) Vehicle.mission, ended]
  · rw [Hall.afterEnd_directive (by rw [told]; exact parked), told]
  · refine Hall.afterEnd_activity (by rw [Hall.endMission_allStop, stop, run]) ?_ kind a
    rw [ended]
    exact (Vehicle.borne_field (Hall.direct_borne h v k v) Vehicle.seated).trans seated
  · rw [Hall.afterEnd_field _ v kind a Hall.notices]
    exact Hall.endMission_tells hm' (((Hall.Tells.refl h).direct v k).room (by omega)) o

end

/-! ### The completion of PLACE (R28, R101) -/

section
variable {h : Hall} {v slot : Nat} {m : Mission} {x : Vehicle} {ref : ReelRef} {r : Reel} {b : BayAddr} {y : Bay}

theorem Hall.placeDone_eq (hx : tget h.vehicles v = some x) (bears : x.mission = some slot) (hm : h.mission slot = some m)
    (href : m.reel = some ref) (b : BayAddr) : h.placeDone v b =
      match h.askPlace v ref b with
      | (h, some _) => ((h.endMission slot .done).direct v .hold).afterEnd v .ret .idle
      | (h, none) => h.direct v .hold := by
  unfold Hall.placeDone
  rw [Hall.vehicle_of_record hx, bears]; dsimp only
  rw [hm, Option.bind_some, href] <;> rfl

/-- The hall in which a reel has been placed in a bay, before its mission ends (R28). -/
def Hall.placed (ref : ReelRef) (r : Reel) (b : BayAddr) (y : Bay) (h : Hall) : Hall :=
  (h.custody ref r (r.placedIn b y.kind h.clock)).retryIfStored r (r.placedIn b y.kind h.clock)

theorem Hall.placeDone_places (hx : tget h.vehicles v = some x) (bears : x.mission = some slot) (hm : h.mission slot = some m)
    (href : m.reel = some ref) (hr : h.reel ref = some r) (hy : h.bay b = some y) (loc : r.loc = .vehicle v)
    (state : r.state = .inTransit ∨ r.state = .quarantined) (free : y.occupant = none) :
    h.placeDone v b = (((h.placed ref r b y).endMission slot .done).direct v .hold).afterEnd v .ret .idle := by
  rw [Hall.placeDone_eq hx bears hm href, Hall.askPlace, Hall.askCustody_taken hr (by simp [Reel.aboard, loc, state, hy, free])]
  dsimp only
  rw [hy]
  rfl

/-- The record of a reel placed, field by field. -/
theorem Reel.placedIn_eq (r : Reel) (b : BayAddr) (k : BayKind) (clock : Nat) : r.placedIn b k clock = { r with
    loc := .bay b, call := none
    state := if r.state = .quarantined ∨ k = .quarantine then .quarantined
      else if r.earliest ≤ clock then .stored else .conditioning
    reason := if r.state ≠ .quarantined ∧ k = .quarantine then some .host else r.reason } := by
  unfold Reel.placedIn
  by_cases q : r.state = .quarantined
  · simp [q]
  · cases k <;> simp [q, Reel.quarantine, Reel.restState]

theorem Reel.placedIn_loc (r : Reel) (b : BayAddr) (k : BayKind) (clock : Nat) : (r.placedIn b k clock).loc = .bay b := by
  rw [Reel.placedIn_eq]

theorem Hall.placeDone_taken (sorted : tsorted h.missions = true) (hx : tget h.vehicles v = some x) (bears : x.mission = some slot)
    (hm : h.mission slot = some m) (href : m.reel = some ref) (hr : h.reel ref = some r) (hy : h.bay b = some y)
    (loc : r.loc = .vehicle v) (state : r.state = .inTransit ∨ r.state = .quarantined) (free : y.occupant = none) :
    tget (h.placeDone v b).reels ref.index = some (r.placedIn b y.kind h.clock) ∧
      ((h.placeDone v b).bay b).map (·.occupant) = some (some ref) ∧ ((h.placeDone v b).vehicle v).load = none ∧
      (h.placeDone v b).mission slot = none ∧
      (h.notices.length ≤ 40 → ∃ k, ⟨k, .missionEnd slot m.kind m.reel m.vehicle .done⟩ ∈ (h.placeDone v b).notices) ∧
      (r.state = .inTransit → y.kind = .normal → r.earliest ≤ h.clock → Job.starvedRetry r.grade r.width ∈ (h.placeDone v b).agenda) := by
  have moves : r.loc ≠ (r.placedIn b y.kind h.clock).loc := by rw [loc, Reel.placedIn_loc]; exact Location.noConfusion
  have same {α : Type} (f : Hall → α) (hf : ∀ (g : Hall) (l : List Job), f { g with agenda := l } = f g := by intros; rfl) :
      f (h.placed ref r b y) = f (h.custody ref r (r.placedIn b y.kind h.clock)) := by
    rw [Hall.placed, Hall.retryIfStored_eq, hf]
  have hm' : (h.placed ref r b y).mission slot = some m := by
    rw [same fun g => g.mission slot]; rwa [Hall.mission, Hall.custody_missions]
  have kept {α : Type} (f : Hall → α) (hf : ∀ h : Hall, f h.butRoads = f h := by intro; rfl) :
      f (h.placeDone v b) = f ((h.placed ref r b y).endMission slot .done) := by
    rw [Hall.placeDone_places hx bears hm href hr hy loc state free, Hall.afterEnd_field _ _ _ _ f hf,
      Hall.butRoads_field (Hall.direct_butRoads _ _ _) f hf]
  refine ⟨?_, ?_, ?_, ?_, fun room => ?_, fun transit kind early => ?_⟩
  · rw [kept Hall.reels, Hall.endMission_reels, same Hall.reels, Hall.custody_reels, tget_tput_same]
  · have filled : (h.placed ref r b y).bay b = some { y with occupant := some ref, reserved := none } := by
      rw [same fun g => g.bay b, Hall.custody_fills_bay moves (Reel.placedIn_loc ..) hy]
    rw [kept fun g => g.bay b]
    have views := congrArg (tget · (bayKey b)) (Hall.endMission_bays (h.placed ref r b y) slot .done)
    simp only [tget_tview] at views
    rw [show tget (h.placed ref r b y).bays (bayKey b) = _ from filled] at views
    obtain ⟨z, hz, fixed⟩ := Option.map_eq_some_iff.mp views
    rw [Hall.bay, hz]
    exact congrArg some (Bay.of_fixed (z := { y with occupant := some ref, reserved := none }) fixed).1
  · rw [Hall.placeDone_places hx bears hm href hr hy loc state free,
      Vehicle.borne_field ((Hall.afterEnd_borne _ _ _ _ _).trans (Hall.direct_borne _ _ _ _)) Vehicle.load,
      Hall.endMission_vehicle _ _ hm']
    have unloaded : ((h.placed ref r b y).vehicle v).load = none := by
      rw [same fun g => g.vehicle v, Hall.custody_clears_vehicle moves loc]
    split <;> exact unloaded
  · have missions : (h.placed ref r b y).missions = h.missions := by rw [same Hall.missions, Hall.custody_missions]
    rw [kept fun g => g.mission slot, Hall.mission, Hall.endMission_missions hm', missions, tget_tdel_same sorted]
  · rw [kept Hall.notices]
    refine Hall.endMission_tells hm' ?_ .done
    rw [same Hall.notices]
    exact ((Hall.Tells.refl h).custody ref r _).room (by omega)
  · have stored : (r.placedIn b y.kind h.clock).state = .stored := by simp [Reel.placedIn_eq, transit, kind, early]
    have retried : Job.starvedRetry r.grade r.width ∈ (h.placed ref r b y).agenda := by
      have owed := Hall.retryIfStored_owes (h := h.custody ref r (r.placedIn b y.kind h.clock)) (r := r) (by simp [transit]) stored
      rwa [show (r.placedIn b y.kind h.clock).grade = r.grade by rw [Reel.placedIn_eq],
        show (r.placedIn b y.kind h.clock).width = r.width by rw [Reel.placedIn_eq]] at owed
    rw [Hall.placeDone_places hx bears hm href hr hy loc state free]
    refine (Hall.afterEnd_roads _ _ _ _).owes _ ?_
    change _ ∈ (Hall.direct _ _ _).agenda
    rw [Hall.direct_agenda]
    exact Hall.endMission_owes _ slot .done retried

theorem Hall.placeDone_refused (hx : tget h.vehicles v = some x) (bears : x.mission = some slot) (hm : h.mission slot = some m)
    (href : m.reel = some ref) (hr : h.reel ref = some r) (hy : h.bay b = some y)
    (refused : r.loc ≠ .vehicle v ∨ (r.state ≠ .inTransit ∧ r.state ≠ .quarantined) ∨ y.occupant.isSome) :
    tget (h.placeDone v b).reels ref.index = some r ∧ (h.placeDone v b).missions = h.missions ∧
      (h.allStop = false → ((h.placeDone v b).vehicle v).directive.kind = .hold) := by
  have no : (r.aboard v && (h.bay b).any fun x => x.occupant.isNone) = false := by
    rw [hy]
    rcases refused with e | ⟨e, f⟩ | e
    · simp [Reel.aboard, e]
    · simp [Reel.aboard, e, f]
    · rw [Option.any_some, Option.isNone_eq_false_iff.mpr e, Bool.and_false]
  have answer : h.placeDone v b = (h.refuseCustody ref .place .fleetController).direct v .hold := by
    rw [Hall.placeDone_eq hx bears hm href, Hall.askPlace, Hall.askCustody_refused hr no]
  have still := Hall.refuseCustody_still h ref .place .fleetController
  have kept {α : Type} (f : Hall → α) (hf : ∀ h : Hall, f h.butRoads = f h) (hg : ∀ h : Hall, f h.still = f h) : f (h.placeDone v b) = f h := by
    rw [answer, Hall.butRoads_field (Hall.direct_butRoads _ _ _) f hf, Hall.still_field still f hg]
  refine ⟨?_, kept Hall.missions (fun _ => rfl) fun _ => rfl, fun run => ?_⟩
  · rw [kept Hall.reels (fun _ => rfl) fun _ => rfl, Hall.reel_record hr]
  · rw [answer, Hall.direct_directive ((Hall.still_field still Hall.allStop fun _ => rfl).trans run)]
    rw [Hall.still_field still Hall.vehicles fun _ => rfl, hx]
    rfl

end

/-! ### The vehicle's half of a handover (R134, R135) -/

section
variable {h : Hall} {v slot : Nat} {m : Mission} {x : Vehicle} {st : StandAddr} {y : Handover}

/-- The hall in which the vehicle's half of a handover has been taken. -/
def Hall.halfTaken (st : StandAddr) (h : Hall) : Hall := h.modHandover st fun x => { x with transferDone := true }

theorem Hall.halfTaken_eq (h : Hall) (st : StandAddr) :
    h.halfTaken st = { h with stands := (h.halfTaken st).stands, ceilings := (h.halfTaken st).ceilings } := by
  unfold Hall.halfTaken Hall.modHandover Hall.oweCeiling Hall.modStand; split <;> rfl

theorem Hall.halfTaken_handover (hy : h.handover st = some y) : (h.halfTaken st).handover st = some { y with transferDone := true } := by
  obtain ⟨s, hs, handover⟩ := Option.bind_eq_some_iff.mp hy
  unfold Hall.handover Hall.halfTaken Hall.modHandover
  rw [show ∀ (g : Hall) (n : Nat), (g.oweCeiling n).stand st = g.stand st from fun g n => congrArg (tget · _) (Hall.oweCeiling_stands _ _),
    Hall.stand_modStand, if_pos rfl, hs]
  simp [handover]

theorem Hall.handoverOf_mission (hy : h.handoverOf slot = some (st, y)) : y.mission = slot := by
  obtain ⟨p, -, e⟩ := List.exists_of_findSome?_eq_some hy
  obtain ⟨z, hz, pair⟩ := Option.map_eq_some_iff.mp e
  cases pair
  simpa using (Option.filter_eq_some_iff.mp hz).2

theorem Hall.transferDone_eq (hx : tget h.vehicles v = some x) (bears : x.mission = some slot)
    (of : h.handoverOf slot = some (st, y)) : h.transferDone v y.kind =
      if y.armDone then (match y.kind with
        | .load => ((h.halfTaken st).direct v .hold).loadFinished y
        | .unload => (h.halfTaken st).unloadFinished st y)
      else (h.halfTaken st).direct v .hold := by
  unfold Hall.transferDone
  rw [Hall.vehicle_of_record hx, bears, Option.bind_some, of]
  dsimp only
  rw [if_pos rfl]
  rfl

theorem Hall.transferDone_waits (hx : tget h.vehicles v = some x) (bears : x.mission = some slot)
    (of : h.handoverOf slot = some (st, y)) (hy : h.handover st = some y) (run : h.allStop = false) (half : y.armDone = false) :
    (h.transferDone v y.kind).handover st = some { y with transferDone := true } ∧ (h.transferDone v y.kind).missions = h.missions ∧
      ((h.transferDone v y.kind).vehicle v).directive.kind = .hold := by
  rw [Hall.transferDone_eq hx bears of, if_neg (by simp [half])]
  have roads := Hall.direct_butRoads (h.halfTaken st) v .hold
  refine ⟨?_, ?_, ?_⟩
  · rw [Hall.butRoads_field roads fun g => g.handover st, Hall.halfTaken_handover hy]
  · rw [Hall.butRoads_field roads Hall.missions, Hall.halfTaken_eq]
  · rw [Hall.direct_directive (by rw [Hall.halfTaken_eq]; exact run) (by rw [Hall.halfTaken_eq]; simp [hx])]

theorem Hall.transferDone_loads (sorted : tsorted h.missions = true) (hx : tget h.vehicles v = some x) (bears : x.mission = some slot)
    (hm : h.mission slot = some m) (hv : m.vehicle = some v) (yv : y.vehicle = v) (of : h.handoverOf slot = some (st, y))
    (run : h.allStop = false) (both : y.armDone = true) (load : y.kind = .load) :
    (h.transferDone v y.kind).mission slot = none ∧ ((h.transferDone v y.kind).vehicle v).mission = none ∧
      ((h.transferDone v y.kind).vehicle v).directive.kind = .hold ∧
      (h.notices.length ≤ 40 → ∃ k, ⟨k, .missionEnd slot m.kind m.reel m.vehicle .done⟩ ∈ (h.transferDone v y.kind).notices) := by
  have answer : h.transferDone v y.kind = (((h.halfTaken st).direct v .hold).endMission slot .done).afterEnd v .deliver .idle := by
    rw [Hall.transferDone_eq hx bears of, if_pos both, load]
    dsimp only
    rw [Hall.loadFinished, Hall.handoverOf_mission of, yv]
  obtain ⟨gone, unladen, holds, -, told⟩ := Hall.tellsAndEnds (h := h.halfTaken st) (by rw [Hall.halfTaken_eq]; exact sorted)
    (slot := slot) (m := m) (by rw [Hall.halfTaken_eq]; exact hm) hv (by rw [Hall.halfTaken_eq]; simp [hx])
    (by rw [Hall.halfTaken_eq]; exact run) .deliver .idle .done (k := .hold) (by simp)
  rw [answer]
  exact ⟨gone, unladen, holds, fun room => told (by rw [Hall.halfTaken_eq]; exact room)⟩

theorem Hall.emptyArm_handover {s : Stand} (hs : h.stand st = some s) (arm : ArmName) :
    (h.emptyArm st arm).handover st = s.handover := by
  have pushed (g : Hall) (j : Job) : (g.push j).handover st = g.handover st := by simp [Hall.handover, Hall.stand]
  have cut : (h.modStand st fun s => { s with running := s.running.filter (· ≠ arm) }).stand st =
      some { s with running := s.running.filter (· ≠ arm) } := by rw [Hall.stand_modStand, if_pos rfl, hs]; rfl
  have changed := Hall.changeArm_stand cut arm fun z => { z with state := .empty, reel := none, beforeUnload := none }
  unfold Hall.emptyArm; dsimp only
  split
  · rw [pushed, pushed, Hall.handover_of changed, Stand.handover_modArm]
  · rw [pushed, Hall.handover_of changed, Stand.handover_modArm]

theorem Hall.closeHandover_gone (hy : h.handover st = some y) : (h.closeHandover st).handover st = none := by
  have pushed (g : Hall) (j : Job) : (g.push j).handover st = g.handover st := by simp [Hall.handover, Hall.stand]
  obtain ⟨s, hs, -⟩ := Option.bind_eq_some_iff.mp hy
  unfold Hall.closeHandover
  rw [hy]; dsimp -zeta only
  extract_lets g loading g'
  have gone : g.stand st = some { s with handover := none } := by
    have owed : g.stand st = (h.modStand st fun s => { s with handover := none }).stand st :=
      congrArg (tget · _) (Hall.oweCeiling_stands _ _)
    rw [owed, Hall.stand_modStand, if_pos rfl, hs]; rfl
  have still : g'.handover st = none := by
    unfold g'; split
    · exact Hall.emptyArm_handover gone _
    · exact Hall.handover_of gone
  split
  · rw [pushed, pushed, still]
  · rw [pushed, still]

theorem Hall.transferDone_unloads (hx : tget h.vehicles v = some x) (bears : x.mission = some slot) (hm : h.mission slot = some m)
    (hv : m.vehicle = some v) (of : h.handoverOf slot = some (st, y)) (hy : h.handover st = some y) (both : y.armDone = true)
    (unload : y.kind = .unload) : (h.transferDone v y.kind).handover st = none ∧
      ((h.transferDone v y.kind).mission slot).map (·.state) = some .carrying := by
  have answer : h.transferDone v y.kind = ((h.halfTaken st).closeHandover st).carry slot := by
    rw [Hall.transferDone_eq hx bears of, if_pos both, unload]
    dsimp only
    rw [Hall.unloadFinished, Hall.handoverOf_mission of]
  have mission : ((h.halfTaken st).closeHandover st).mission slot = some m := by
    rw [(Hall.closeHandover_arms _ st).field fun g => g.mission slot, Hall.halfTaken_eq]
    exact hm
  rw [answer]
  refine ⟨?_, ?_⟩
  · rw [Hall.carry_field _ slot fun g => g.handover st, Hall.closeHandover_gone (Hall.halfTaken_handover hy)]
  · rw [Hall.carry_mission mission hv]
    rfl

end

/-! ### Arrival at a drop (R93, R101) -/

section
variable {h : Hall} {r : VehicleReport} {slot n v : Nat} {m : Mission} {x : Vehicle} {zones : List Nat}

theorem Hall.takeArrival_drop (hx : tget h.vehicles r.vehicle = some x) (bears : x.mission = some slot) (hm : h.mission slot = some m)
    (carrying : m.state = .carrying) (moves : x.directive = ⟨r.directive, .move zones n⟩) (last : zones.getLast? = x.front)
    (clear : x.tail = none) : h.takeArrival r = h.arriveDrop slot r.vehicle m := by
  have arrived : x.arrived r.directive = true := by simp [Vehicle.arrived, moves, last, clear]
  unfold Hall.takeArrival; dsimp only
  rw [Hall.vehicle_of_record hx, if_pos arrived, bears, Option.bind_some, hm, Option.map_some]
  dsimp only
  rw [carrying]

section
variable (hx : tget h.vehicles v = some x) (hm : h.mission slot = some m) (seated : x.seated = true) (run : h.allStop = false)
include hx hm seated run

/-- What a vehicle at a bay or a stand is told. -/
theorem Hall.dropReached (k : DirKind) :
    (((((h.modMission slot fun m => { m with state := .handover }).setActivity v .handover).direct v k).mission slot).map (·.state) =
      some .handover) ∧
    ((((h.modMission slot fun m => { m with state := .handover }).setActivity v .handover).direct v k).vehicle v).activity = .handover ∧
    ((((h.modMission slot fun m => { m with state := .handover }).setActivity v .handover).direct v k).vehicle v).directive.kind = k := by
  have hm' : tget h.missions slot = some m := hm
  obtain ⟨acts, told⟩ := Hall.setOff (h := h.modMission slot fun m => { m with state := .handover }) (v := v) run
    (by rw [← Hall.vehicle_of_record hx] at seated; exact seated) .handover k
  refine ⟨?_, acts, congrArg Directive.kind told⟩
  rw [Hall.mission, Hall.setOff_missions, Hall.modMission_missions, tget_tmod_same, hm']
  rfl

theorem Hall.arriveDrop_bay {b : BayAddr} (drop : m.drop = some (.bay b)) :
    ((h.arriveDrop slot v m).mission slot).map (·.state) = some .handover ∧ ((h.arriveDrop slot v m).vehicle v).activity = .handover ∧
      ((h.arriveDrop slot v m).vehicle v).directive.kind = .place b := by
  unfold Hall.arriveDrop
  rw [drop]
  exact Hall.dropReached hx hm seated run _

theorem Hall.arriveDrop_arm {st : StandAddr} {arm : ArmName} (drop : m.drop = some (.arm st arm)) :
    ((h.arriveDrop slot v m).mission slot).map (·.state) = some .handover ∧ ((h.arriveDrop slot v m).vehicle v).activity = .handover ∧
      ((h.arriveDrop slot v m).vehicle v).directive.kind = .hold ∧ Job.loadReady slot ∈ (h.arriveDrop slot v m).agenda := by
  have hm' : tget h.missions slot = some m := hm
  have told := Hall.setActivity_running (h := h.modMission slot fun m => { m with state := .handover }) (v := v) run
    (by rw [← Hall.vehicle_of_record hx] at seated; exact seated) .handover
  generalize hw : ((h.modMission slot fun m => { m with state := .handover }).setActivity v .handover).oweCall m.call = w
  have stop : w.allStop = false := by rw [← hw, Hall.oweCall_eq]; exact run
  have known : (tget w.vehicles v).isSome := by
    rw [← hw, Hall.oweCall_eq]
    change (tget (Hall.setActivity v _ _).vehicles v).isSome = true
    rw [Hall.setActivity_known, Hall.modMission_vehicles, hx]
    rfl
  have acts : (w.vehicle v).activity = .handover := by rw [← hw, Hall.oweCall_vehicle, told]
  have answer : h.arriveDrop slot v m = (w.direct v .hold).push (.loadReady slot) := by
    rw [← hw]
    unfold Hall.arriveDrop
    rw [drop]
  have pushed (g : Hall) (j : Job) : (g.push j).vehicle v = g.vehicle v := by simp [Hall.vehicle]
  rw [answer, pushed]
  refine ⟨?_, ?_, ?_, Hall.mem_push.mpr (.inl rfl)⟩
  · rw [Hall.mission, Hall.push_missions, Hall.butRoads_field (Hall.direct_butRoads w v .hold) Hall.missions, ← hw, Hall.oweCall_eq]
    change (tget (tmod h.missions slot _) slot).map _ = _
    rw [tget_tmod_same, hm']
    rfl
  · rw [Hall.direct_activity stop known, acts]
  · rw [Hall.direct_directive stop known]

theorem Hall.arriveDrop_charger (sorted : tsorted h.missions = true) (hv : m.vehicle = some v) {k : Nat}
    (drop : m.drop = some (.charger k)) : (h.arriveDrop slot v m).mission slot = none ∧
      ((h.arriveDrop slot v m).vehicle v).activity = .charging ∧ ((h.arriveDrop slot v m).vehicle v).directive.kind = .charge k ∧
      ((h.arriveDrop slot v m).vehicle v).mission = none := by
  obtain ⟨gone, unladen, told, acts, -⟩ := Hall.tellsAndEnds sorted hm hv (by simp [hx]) run .charge .charging .done
    (k := .charge k) (by simp)
  unfold Hall.arriveDrop
  rw [drop]
  exact ⟨gone, acts (by rw [Hall.vehicle_of_record hx]; exact seated), told, unladen⟩

theorem Hall.arriveDrop_park (sorted : tsorted h.missions = true) (hv : m.vehicle = some v) {k : Nat}
    (drop : m.drop = some (.park k)) : (h.arriveDrop slot v m).mission slot = none ∧
      ((h.arriveDrop slot v m).vehicle v).activity = .idle ∧ ((h.arriveDrop slot v m).vehicle v).directive.kind = .hold ∧
      ((h.arriveDrop slot v m).vehicle v).mission = none := by
  obtain ⟨gone, unladen, told, acts, -⟩ := Hall.tellsAndEnds sorted hm hv (by simp [hx]) run .park .idle .done
    (k := .hold) (by simp)
  unfold Hall.arriveDrop
  rw [drop]
  exact ⟨gone, acts (by rw [Hall.vehicle_of_record hx]; exact seated), told, unladen⟩

end

end

/-! ### The stray load check (R109) -/

section
variable {h : Hall} {r : VehicleReport} {x : Vehicle}

/-- A load that nothing accounts for (R109). -/
def Hall.Stray (h : Hall) (r : VehicleReport) (x : Vehicle) : Prop :=
  let kind := (x.kept.map (·.kind)).getD x.directive.kind
  r.onBoard = true ∧ x.load = none ∧ kind ≠ .placeHere ∧ (∀ p id, kind ≠ .pick p id) ∧
    ∀ p ∈ h.stands, ∀ y, p.2.handover = some y → y.kind = .unload → y.vehicle ≠ r.vehicle

theorem Vehicle.handling_iff : x.handling = false ↔
    (x.kept.map (·.kind)).getD x.directive.kind ≠ .placeHere ∧ ∀ p id, (x.kept.map (·.kind)).getD x.directive.kind ≠ .pick p id := by
  have underWay : x.underWay = (x.kept.map (·.kind)).getD x.directive.kind := by
    unfold Vehicle.underWay
    cases x.kept <;> rfl
  unfold Vehicle.handling
  rw [underWay]
  cases (x.kept.map (·.kind)).getD x.directive.kind <;> simp

theorem Hall.unloading_iff (v : Nat) : h.unloading v = false ↔
    ∀ p ∈ h.stands, ∀ y, p.2.handover = some y → y.kind = .unload → y.vehicle ≠ v := by
  unfold Hall.unloading
  rw [List.any_eq_false]
  refine forall_congr' fun p => imp_congr_right fun _ => ?_
  cases p.2.handover <;> simp

theorem Hall.stray_iff (h : Hall) (r : VehicleReport) (x : Vehicle) :
    (r.onBoard && x.load.isNone && !x.handling && !h.unloading r.vehicle) = true ↔ h.Stray r x := by
  simp only [Hall.Stray, Bool.and_eq_true, Bool.not_eq_true', Vehicle.handling_iff, Hall.unloading_iff, Option.isNone_iff_eq_none, and_assoc]

/-- A pick that expects no place is refused (R109). -/
theorem Hall.askPick_nowhere (h : Hall) (v : Nat) (ref : ReelRef) :
    (h.askPick v ref none).1 = h.refuseCustody ref .pick .fleetController := by
  cases hr : h.reel ref with
  | none => simp [Hall.askPick, Hall.askCustody, hr]
  | some q => rw [Hall.askPick, Hall.askCustody_refused hr (by simp)]

theorem Hall.strayCheck_stray (hx : tget h.vehicles r.vehicle = some x) (stray : h.Stray r x) (run : h.allStop = false) :
    ((h.strayCheck r).vehicle r.vehicle).directive.kind = .placeHere ∧ (h.strayCheck r).reels = h.reels ∧
      ((h.strayCheck r).fault ⟨.custodyError, .none⟩).latched = true := by
  let ref := h.refOf (r.reel.getD noId)
  have still := Hall.refuseCustody_still h ref .pick .fleetController
  have answer : h.strayCheck r = (h.refuseCustody ref .pick .fleetController).direct r.vehicle .placeHere := by
    unfold Hall.strayCheck; dsimp only
    rw [Hall.vehicle_of_record hx, if_pos ((h.stray_iff r x).mpr stray), Hall.askPick_nowhere]
  have roads := Hall.direct_butRoads (h.refuseCustody ref .pick .fleetController) r.vehicle .placeHere
  rw [answer]
  refine ⟨?_, ?_, ?_⟩
  · rw [Hall.direct_directive ((Hall.still_field still Hall.allStop fun _ => rfl).trans run)]
    rw [Hall.still_field still Hall.vehicles fun _ => rfl, hx]
    rfl
  · rw [Hall.butRoads_field roads Hall.reels, Hall.still_field still Hall.reels fun _ => rfl]
  · rw [Hall.fault_congr (Hall.butRoads_field roads Hall.faults), Hall.refuseCustody, Hall.fault_congr (Hall.notify_faults _ _)]
    exact h.pulse_latched _

theorem Hall.strayCheck_none (hx : tget h.vehicles r.vehicle = some x) (tracked : ¬ h.Stray r x) : h.strayCheck r = h := by
  unfold Hall.strayCheck; dsimp only
  rw [Hall.vehicle_of_record hx]
  exact if_neg fun e => tracked ((h.stray_iff r x).mp e)

end

/-! ### Missions are assigned and completed -/

/-- Settles O59: the arbiter, assignment, the completions and arrivals a report carries, and the stray load check. -/
theorem missionsAreAssignedAndCompleted : Obligations.MissionsAreAssignedAndCompleted := by
  refine ⟨fun h v => Hall.available_iff, ?_, fun h slot m hm busy => Hall.arbiterOne_passes hm busy,
    fun h => ⟨fun stop => if_pos stop, fun run => if_neg (by simp [run])⟩, ?_, ?_, ?_, ?_, ?_, ?_, ?_, fun _ _ => rfl⟩
  · intro h slot m hm waits kind drop time
    have timeTo (v z : Nat) : h.timeTo v z = time v z := h.timeTo_eq v z
    refine ⟨fun z hz => ⟨fun v lo hi free t ht least => ?_, fun far => ?_⟩, Hall.arbiterOne_placeless hm waits kind drop⟩
    · exact Hall.arbiterOne_assigns hm waits kind drop hz lo hi free ((timeTo v z).trans ht) fun w u wlo whi wfree hu =>
        least w u wlo whi wfree ((timeTo w z).symm.trans hu)
    · exact Hall.arbiterOne_waits hm waits kind drop hz fun v lo hi free => (timeTo v z).trans (far v lo hi free)
  · intro h slot v f m x hm hx seated hf run t y
    refine ⟨Hall.assign_bears hm hx, fun st c hc call => Hall.assign_dispatches hm hc call v, ?_, ?_, ?_⟩
    · intro p z zones kind hp hz away route
      exact Hall.assign_travels hm hx seated hf run kind hp hz away route
    · intro p kind hp hz
      obtain ⟨g, answer, state, stop, sits⟩ := Hall.assign_arrives hm hx seated hf run kind hp hz
      have arrives : t = g.arrivePickup slot v m := answer
      unfold y
      rw [arrives]
      refine ⟨fun noArm => ?_, fun st arm e => ?_⟩
      · obtain ⟨mission, acts, told⟩ := Hall.arrivePickup_place hp noArm stop sits slot
        exact ⟨by rw [mission, state], acts, told⟩
      · obtain ⟨n, hn, -⟩ := Option.map_eq_some_iff.mp state
        exact Hall.arrivePickup_arm (hp.trans (congrArg some e)) stop sits hn
    · intro d z zones kind hd hz route
      exact Hall.assign_parks hm hx seated hf run kind hd hz route
  · intro h r c x taken
    refine ⟨fun p id tk hc => ?_, fun b tk hc => ?_, fun tk hc => ?_, fun st arm id tk hc => ?_, fun st arm id tk hc => ?_,
      fun k tk hc => ?_, fun untaken => Hall.takeCompletion_untaken untaken c⟩
    · subst hc; exact Hall.takeCompletion_taken tk _
    · subst hc; exact Hall.takeCompletion_taken tk _
    · subst hc; exact Hall.takeCompletion_taken tk _
    · subst hc; exact Hall.takeCompletion_taken tk _
    · subst hc; exact Hall.takeCompletion_taken tk _
    · rw [Hall.takeCompletion_taken tk c, hc]; rfl
  · intro h v slot m x ref p r sorted hx bears hm href hp _ hr run place picks
    refine ⟨⟨Hall.pickDone_taken hx bears hm href hp hr, fun refused => Hall.pickDone_refused hx bears hm href hp hr refused run⟩, ?_, ?_⟩
    · rintro here t rfl
      exact Hall.pickDone_nothing sorted hx bears hm href hp hr run here
    · rintro here id t other rfl
      exact Hall.pickDone_other sorted hx bears hm href hp hr run here other
  · intro h v slot m x ref r b y sorted hx bears hm href hr hy t
    refine ⟨fun loc state free => ?_, Hall.placeDone_refused hx bears hm href hr hy⟩
    have placed := Hall.placeDone_taken sorted hx bears hm href hr hy loc state free
    rwa [Reel.placedIn_eq] at placed
  · intro h v slot m x st y sorted hx bears hm hv yv of hy run t
    exact ⟨Hall.transferDone_waits hx bears of hy run, Hall.transferDone_loads sorted hx bears hm hv yv of run,
      Hall.transferDone_unloads hx bears hm hv of hy⟩
  · intro h r slot m x zones n sorted hx bears hm carrying seated moves last clear run t y
    have arrives : t = h.arriveDrop slot r.vehicle m := Hall.takeArrival_drop hx bears hm carrying moves last clear
    unfold y
    rw [arrives]
    exact ⟨fun b drop => Hall.arriveDrop_bay hx hm seated run drop, fun st arm drop => Hall.arriveDrop_arm hx hm seated run drop,
      fun k drop hv => Hall.arriveDrop_charger hx hm seated run sorted hv drop,
      fun k drop hv => Hall.arriveDrop_park hx hm seated run sorted hv drop⟩
  · intro h r x hx kind stray
    exact ⟨fun yes run => Hall.strayCheck_stray hx yes run, fun no => Hall.strayCheck_none hx no⟩

end Sys2Proof.Machine
end

section
/-! PROOF. What the restarts take and leave of the hall (for O45). -/

-- One theorem after another, as in the laws: elaborated all at once they ask for more threads than the check has room for.
set_option Elab.async false

namespace Sys2Proof.Machine

/-! ### Restarts asked and made (R221, log 25) -/

section
variable {s : State} {q : Req} {mode : RestartMode} {cause : ResetCause} {strap : Bool}

theorem exec_restart_taken (ok : q.ok 0x38) (s : State) (mode : RestartMode) : exec (.restart q mode) s = .next { s with
    host := { replies := s.host.replies ++ [⟨q.tag, 0xB8, .ok, .none⟩], restarts := s.host.restarts ++ [mode] } } := by
  have told : s.request q 0x38 (fun h => h.tell .none) = s.reply q 0x38 .ok .none := State.request_tells ok rfl
  have taken : reqTaken q 0x38 = true := by simp [reqTaken, ok.1, ok.2]
  change Host.Outcome.next (s.askRestart q mode) = _
  unfold State.askRestart; dsimp only
  rw [told, if_pos taken]
  rfl

theorem State.restartDue_iff : s.restartDue mode = true ↔ s.host.restarts.head? = some mode ∧
    (s.host.replies.filter fun r => decide (r.kind = 0xB8 ∧ r.status = .ok)).length < s.host.restarts.length :=
  decide_eq_true_iff

/-- The only restart asked waits for its reply, and is due when that has been sent. -/
theorem exec_restart_waits (ok : q.ok 0x38) (free : s.host = ⟨[], []⟩) (mode : RestartMode) :
    ∃ t u, exec (.restart q mode) s = .next t ∧ (∀ m, t.restartDue m = false) ∧
      exec .hostLinkTransmit t = .next u ∧ ∀ m, u.restartDue m = true ↔ m = mode := by
  refine ⟨_, _, exec_restart_taken ok s mode, fun m => ?_, rfl, fun m => ?_⟩
  · rw [← Bool.not_eq_true, State.restartDue_iff]
    simp [free]
  · rw [State.restartDue_iff]
    simp [State.transmit, free, eq_comm]

/-! ### The cold reset (R217, R221) -/

theorem exec_coldReset_not_due (notDue : s.coldDue cause = false) (strap : Bool) : exec (.coldReset cause strap) s = .next s := by
  change Host.Outcome.next (if s.coldDue cause then _ else s) = _
  rw [notDue]
  rfl

theorem exec_warmRestart_not_due (notDue : s.warmDue cause = false) : exec (.warmRestart cause) s = .next s := by
  change Host.Outcome.next (if s.warmDue cause then _ else s) = _
  rw [notDue]
  rfl

/-- A cold reset takes the current image, and gives every other register its cold reset value. -/
theorem exec_coldReset_due (due : s.coldDue cause = true) {b : Bank} (current : s.store.current = some b) (strap : Bool) :
    exec (.coldReset cause strap) s = .next { s with
      host := ⟨[], []⟩
      store := { s.store with save := none }
      hall := (Hall.blank cause strap b.image false s.hall.sent).notify (.start cause (.loaded b.generation) 0 strap) } := by
  change Host.Outcome.next (if s.coldDue cause then _ else s) = _
  rw [if_pos due, State.coldReset, current]
  rfl

end
/-! ### What a reset and a reload leave of the configuration (R219, R221) -/

/-- The settings of a line, and its host ceiling. -/
def Line.feed (l : Line) : Line := { Line.fresh l.cfg 0 with hostCeiling := l.hostCeiling }

/-- The hall's configuration and its clocks: the settings but for the vehicles, and of a line its feed alone. -/
def Hall.layout (h : Hall) : Hall :=
  { h.setting with vehicles := [], fleetSilence := none, lines := tview Line.feed h.setting.lines }

theorem Hall.layout_of_setting {a b : Hall} (e : b.setting = a.setting) : b.layout = a.layout := by unfold Hall.layout; rw [e]

section
variable {a b : Hall}

theorem Hall.Follows.layout (x : a.Follows b) : b.layout = a.layout := Hall.layout_of_setting (Hall.setting_of_ground x.same)

theorem Hall.Handles.layout {c k : Bool} (x : a.Handles c k b) : b.layout = a.layout := Hall.layout_of_setting x.setting

theorem Hall.Steps.layout (x : a.Steps b) : b.layout = a.layout := Hall.layout_of_setting (Hall.setting_of_ground x.same)

/-- A field that the layout shows. -/
theorem Hall.layout_field {α : Type} (e : b.layout = a.layout) (f : Hall → α) (hf : ∀ h : Hall, f h.layout = f h := by intro; rfl) :
    f b = f a := by rw [← hf b, e, hf a]

theorem tview_tview {α β γ : Type} (f : β → γ) (g : α → β) (t : Table α) : tview f (tview g t) = tview (fun v => f (g v)) t := by
  simp [tview]

theorem Hall.layout_lines (e : b.layout = a.layout) (n : Nat) : (b.line n).map Line.feed = (a.line n).map Line.feed := by
  have shown (h : Hall) : tview Line.feed h.lines = h.layout.lines := (tview_tview Line.feed Line.fixed h.lines).symm
  unfold Hall.line
  rw [← tget_tview, ← tget_tview, shown b, e, shown a]

theorem Hall.layout_stands (e : b.layout = a.layout) (k : Nat) : (tget b.stands k).map Stand.setup = (tget a.stands k).map Stand.setup := by
  have shown (h : Hall) : tview Stand.setup h.stands = h.layout.stands := (tview_tview Stand.setup Stand.fixed h.stands).symm
  rw [← tget_tview, ← tget_tview, shown b, e, shown a]

end

/-! ### The warm restart (R221) -/

/-- What the restart keeps of a line's counting. -/
def LineCount.tally (c : LineCount) : LineCount := { c with intervals := [], resend := false, gate := none }

/-- `b` is `a` after work of a restart that leaves the layout, the counts, the books, the all-stop and the notices queued. -/
structure Hall.Rests (a b : Hall) : Prop where
  layout : b.layout = a.layout
  notices : a.notices <+: b.notices
  counts : tview LineCount.tally b.counts = tview LineCount.tally a.counts
  books : b.editions = a.editions ∧ b.unassigned = a.unassigned
  allStop : b.allStop = a.allStop

/-- What leaves the records of the reels and the vehicles too. -/
structure Hall.RestsAll (a b : Hall) : Prop extends a.Rests b where
  reels : tview Reel.fixed b.reels = tview Reel.fixed a.reels
  vehicles : tview Vehicle.fixed b.vehicles = tview Vehicle.fixed a.vehicles

namespace Hall.Rests

variable {a b d : Hall}

theorem refl (a : Hall) : a.Rests a := ⟨rfl, List.prefix_rfl, rfl, ⟨rfl, rfl⟩, rfl⟩

theorem trans (x : a.Rests b) (y : b.Rests d) : a.Rests d where
  layout := y.layout.trans x.layout
  notices := x.notices.trans y.notices
  counts := y.counts.trans x.counts
  books := ⟨y.books.1.trans x.books.1, y.books.2.trans x.books.2⟩
  allStop := y.allStop.trans x.allStop

theorem foldl {β : Type} {f : Hall → β → Hall} (hf : ∀ h x, Hall.Rests h (f h x)) (l : List β) (x : a.Rests b) : a.Rests (l.foldl f b) := by
  induction l generalizing b with
  | nil => exact x
  | cons y l ih => exact ih (x.trans (hf b y))

theorem handle (x : a.Rests b) (y : b.Handles true true d) (allStop : d.allStop = b.allStop) : a.Rests d :=
  x.trans ⟨y.layout, y.notices, by rw [y.counts rfl], y.books rfl, allStop⟩

theorem steps (x : a.Rests b) (y : b.Steps d) : a.Rests d := x.trans
  { layout := y.layout
    notices := y.notices
    counts := by have e := congrArg Hall.counts y.same; exact congrArg (tview LineCount.tally) e
    books := ⟨by have e := congrArg Hall.editions y.same; exact e, by have e := congrArg Hall.unassigned y.same; exact e⟩
    allStop := by have e := congrArg Hall.allStop y.same; exact e }

theorem lower (x : a.Rests b) (k : FaultKey) : a.Rests (b.lower k) :=
  x.handle ((Handles.refl b).lower k) (Hall.still_field (Hall.lower_still b k) Hall.allStop fun _ => rfl)

end Hall.Rests

namespace Hall.RestsAll

variable {a b d : Hall}

theorem refl (a : Hall) : a.RestsAll a := ⟨.refl a, rfl, rfl⟩

theorem trans (x : a.RestsAll b) (y : b.RestsAll d) : a.RestsAll d :=
  ⟨x.toRests.trans y.toRests, y.reels.trans x.reels, y.vehicles.trans x.vehicles⟩

theorem foldl {β : Type} {f : Hall → β → Hall} (hf : ∀ h x, Hall.RestsAll h (f h x)) (l : List β) (x : a.RestsAll b) :
    a.RestsAll (l.foldl f b) := by
  induction l generalizing b with
  | nil => exact x
  | cons y l ih => exact ih (x.trans (hf b y))

theorem steps (x : a.RestsAll b) (y : b.Steps d) : a.RestsAll d := x.trans
  { (Rests.refl b).steps y with
    reels := by have e := congrArg Hall.reels y.same; exact e
    vehicles := by have e := congrArg Hall.vehicles y.same; exact e }

theorem follow (x : a.RestsAll b) (y : b.Follows d) : a.RestsAll d := x.steps y.toSteps

/-- Work that tells of an entry alone. -/
theorem tell (x : a.RestsAll b) (y : b.Handles true true d) (still : d.still = b.still) : a.RestsAll d := x.trans
  { (Rests.refl b).handle y (Hall.still_field still Hall.allStop fun _ => rfl) with
    reels := congrArg (tview Reel.fixed) (Hall.still_field still Hall.reels fun _ => rfl)
    vehicles := congrArg (tview Vehicle.fixed) (Hall.still_field still Hall.vehicles fun _ => rfl) }

theorem lower (x : a.RestsAll b) (k : FaultKey) : a.RestsAll (b.lower k) := x.tell ((Handles.refl b).lower k) (Hall.lower_still b k)

theorem evalHold (x : a.RestsAll b) (n : Nat) : a.RestsAll (b.evalHold n) := x.tell ((Handles.refl b).evalHold n) (Hall.evalHold_still b n)

theorem notify (x : a.RestsAll b) (y : Notice) : a.RestsAll (b.notify y) := x.tell ((Handles.refl b).notify y) (Hall.notify_still b y)

theorem abort (x : a.RestsAll b) (v : Nat) (k : AbortCause) : a.RestsAll (b.abort v k) := x.trans
  { (Rests.refl b).handle ((Handles.refl b).abort v k) (b.abort_fields v k).2.1 with
    reels := by rw [Hall.abort_reels]
    vehicles := by
      unfold Hall.abort; extract_lets _ _ _ record; split
      · rfl
      · rw [Hall.notify_vehicles]
        exact tview_tmod Vehicle.fixed b.vehicles v _ fun _ _ => rfl }

theorem modLine (x : a.RestsAll b) (n : Nat) (f : Line → Line) (hf : ∀ l, (f l).feed = l.feed := by intro; rfl) :
    a.RestsAll (b.modLine n f) := by
  have lines : tview Line.feed (tview Line.fixed (tmod b.lines n f)) = tview Line.feed (tview Line.fixed b.lines) := by
    rw [tview_tview, tview_tview]
    exact tview_tmod Line.feed b.lines n f fun l _ => hf l
  have layout : (b.modLine n f).layout = b.layout := congrArg (fun t => { b.layout with lines := t }) lines
  exact x.trans ⟨⟨layout, List.prefix_rfl, rfl, ⟨rfl, rfl⟩, rfl⟩, rfl, rfl⟩

/-! #### The steps of the restart that leave reels and vehicles -/

theorem dropMission (x : a.RestsAll b) (p : Nat × Mission) : a.RestsAll (b.dropMission p) := by
  unfold Hall.dropMission; dsimp only
  refine follow (notify ?_ _) ((Follows.refl _).watchBays)
  have untabled {g : Hall} (y : a.RestsAll g) (t : Table Mission) : a.RestsAll { g with missions := t } :=
    y.trans ⟨⟨rfl, List.prefix_rfl, rfl, ⟨rfl, rfl⟩, rfl⟩, rfl, rfl⟩
  refine untabled ?_ _
  split
  · exact x.abort _ _
  · exact x

theorem rebuildPrep (x : a.RestsAll b) (n : Nat) : a.RestsAll (b.rebuildPrep n) := by
  unfold Hall.rebuildPrep; split
  · split
    · exact x.modLine n _
    · exact (x.modLine n _).follow ((Follows.refl _).sendPanel n)
  · exact x

theorem restartCeiling (x : a.RestsAll b) (n : Nat) : a.RestsAll (b.restartCeiling n) := by
  unfold Hall.restartCeiling; split
  · exact ((x.follow ((Follows.refl b).takeConstraining n _)).modLine n _).follow ((Follows.refl _).sendCeiling n)
  · exact x

theorem restartIntake (x : a.RestsAll b) (p : Nat × Reel) : a.RestsAll (b.restartIntake p) := by
  unfold Hall.restartIntake; split
  · exact x.follow ((Follows.refl b).makeIntake _)
  · exact x

/-- The stands and the lines at a restart. -/
theorem restartFeed (x : a.RestsAll b) : a.RestsAll b.restartFeed := by
  unfold Hall.restartFeed; extract_lets g g' g'' g'''
  have unstocked : a.RestsAll g := x.foldl (fun h p => (refl h).lower _) _
  have lines : tview Line.feed (tview Line.fixed (g.lines.map fun p => (p.1, p.2.restarted g.timebase))) =
      tview Line.feed (tview Line.fixed g.lines) := by simp [tview, Line.restarted, Line.feed, Line.fixed, Line.fresh]
  have stands : tview Stand.setup (tview Stand.fixed (g.stands.map fun p => (p.1, p.2.restarted))) =
      tview Stand.setup (tview Stand.fixed g.stands) := by simp [tview, Stand.restarted, Stand.setup, Stand.fixed]
  have layout : g'.layout = g.layout := congrArg₂ (fun t u => { g.layout with stands := t, lines := u }) stands lines
  have counts : tview LineCount.tally g'.counts = tview LineCount.tally g.counts := by simp [g', tview, LineCount.tally]
  have rested : a.RestsAll g' := unstocked.trans ⟨⟨layout, List.prefix_rfl, counts, ⟨rfl, rfl⟩, rfl⟩, rfl, rfl⟩
  have prepared : a.RestsAll g'' := rested.foldl (fun h n => (refl h).rebuildPrep n) _
  have formed : a.RestsAll g''' := prepared.foldl (fun h n => (refl h).restartCeiling n) _
  exact formed.foldl (fun h n => (refl h).evalHold n) _

end Hall.RestsAll

/-! #### The reels and the vehicles at a restart (R47, R84, R115) -/

section
variable {a b : Hall}

theorem Hall.putReel_allNotices (h : Hall) (i : Nat) (r : Reel) : h.Rests (h.putReel i r) :=
  (Hall.Rests.refl h).handle ((Hall.Handles.refl h).putReel i r) (Hall.putReel_allStop h i r)

theorem Hall.freeReel_rests (h : Hall) (p : Nat × Reel) : h.Rests (h.freeReel p) := by
  unfold Hall.freeReel; split
  · exact h.putReel_allNotices _ _
  · split
    · exact h.putReel_allNotices _ _
    · exact .refl h

theorem Hall.freeReel_vehicles (h : Hall) (p : Nat × Reel) : (h.freeReel p).vehicles = h.vehicles := by
  unfold Hall.freeReel; split
  · simp
  · split <;> simp

/-- A reel freed of its call: its record is the same but for the call. -/
theorem Hall.freeReel_reels {h : Hall} {p : Nat × Reel} {r : Reel} (hr : tget h.reels p.1 = some r) (same : r.fixed = p.2.fixed) :
    tview Reel.fixed (h.freeReel p).reels = tview Reel.fixed h.reels := by
  unfold Hall.freeReel; split
  · rename_i allocated
    rw [Hall.putReel_reels]
    exact tview_tput Reel.fixed _ _ _ _ hr (by rw [same]; simp [Reel.fixed, allocated])
  · split
    · rw [Hall.putReel_reels]
      exact tview_tput Reel.fixed _ _ _ _ hr (by rw [same]; simp [Reel.fixed])
    · rfl

theorem Hall.freeReels_reels (l : List (Nat × Reel)) (listed : ∀ p ∈ l, (tget b.reels p.1).map Reel.fixed = some p.2.fixed) :
    tview Reel.fixed (l.foldl Hall.freeReel b).reels = tview Reel.fixed b.reels := by
  induction l generalizing b with
  | nil => rfl
  | cons p l ih =>
    obtain ⟨r, hr, same⟩ := Option.map_eq_some_iff.mp (listed p List.mem_cons_self)
    have freed := Hall.freeReel_reels hr same
    refine (ih fun q hq => ?_).trans freed
    rw [← tget_tview, freed, tget_tview]
    exact listed q (List.mem_cons_of_mem _ hq)

theorem Hall.restartVehicle_rests (h : Hall) (v : Nat) : h.Rests (h.restartVehicle v) := by
  unfold Hall.restartVehicle; split
  · have told : h.Rests (h.modVehicle v Vehicle.restarted) := ⟨rfl, List.prefix_rfl, rfl, ⟨rfl, rfl⟩, rfl⟩
    exact ((told.lower _).lower _).handle ((Hall.Handles.refl _).issue v _) rfl
  · exact .refl h

theorem Hall.restartVehicle_reels (h : Hall) (v : Nat) : (h.restartVehicle v).reels = h.reels := by
  have lowered (g : Hall) (k : FaultKey) : (g.lower k).reels = g.reels := Hall.still_field (Hall.lower_still g k) Hall.reels fun _ => rfl
  unfold Hall.restartVehicle; split
  · exact (lowered _ _).trans (lowered _ _)
  · rfl

/-- A commissioned vehicle is not seated after its restart; another is as it was. -/
theorem Hall.restartVehicle_vehicle (h : Hall) (v w : Nat) :
    ((h.restartVehicle v).vehicle w).commissioned = (h.vehicle w).commissioned ∧
      ((h.restartVehicle v).vehicle w).seated = if w = v ∧ (h.vehicle w).commissioned = true then false else (h.vehicle w).seated := by
  have lowered (g : Hall) (k : FaultKey) : (g.lower k).vehicle w = g.vehicle w :=
    Hall.still_field (Hall.lower_still g k) (fun g => g.vehicle w) fun _ => rfl
  unfold Hall.restartVehicle
  by_cases on : (h.vehicle v).commissioned = true
  · rw [if_pos on]
    have known : (tget h.vehicles v).isSome := by
      cases hx : tget h.vehicles v with
      | some x => rfl
      | none => simp [Hall.vehicle, hx, Vehicle.cold] at on
    have borne := Hall.issue_borne (((h.modVehicle v Vehicle.restarted).lower ⟨.vehicleSilent, .vehicle v⟩).lower ⟨.vehicleLost, .vehicle v⟩)
      v .hold w
    rw [lowered, lowered] at borne
    rw [Vehicle.borne_field borne Vehicle.commissioned, Vehicle.borne_field borne Vehicle.seated, Hall.vehicle_modVehicle _ _ _ _ (.inr known)]
    by_cases e : w = v
    · subst e
      rw [if_pos rfl, if_pos ⟨rfl, on⟩]
      exact ⟨rfl, rfl⟩
    · rw [if_neg e, if_neg fun k => e k.1]
      exact ⟨rfl, rfl⟩
  · rw [if_neg on]
    refine ⟨rfl, (if_neg ?_).symm⟩
    rintro ⟨rfl, k⟩
    exact on k

theorem Hall.restartVehicles_vehicle (l : List Nat) (h : Hall) (w : Nat) :
    ((l.foldl Hall.restartVehicle h).vehicle w).commissioned = (h.vehicle w).commissioned ∧
      (w ∈ l → (h.vehicle w).commissioned = true → ((l.foldl Hall.restartVehicle h).vehicle w).seated = false) ∧
      ((h.vehicle w).seated = false → ((l.foldl Hall.restartVehicle h).vehicle w).seated = false) := by
  induction l generalizing h with
  | nil => exact ⟨rfl, by simp, id⟩
  | cons v l ih =>
    obtain ⟨commissioned, seated⟩ := h.restartVehicle_vehicle v w
    obtain ⟨same, unseats, stays⟩ := ih (h.restartVehicle v)
    refine ⟨same.trans commissioned, fun mem on => ?_, fun out => stays ?_⟩
    · rcases List.mem_cons.mp mem with rfl | mem
      · exact stays (by rw [seated, if_pos ⟨rfl, on⟩])
      · exact unseats mem (commissioned.trans on)
    · rw [seated, out]; simp

theorem tsorted_tview {α β : Type} (f : α → β) (t : Table α) : tsorted (tview f t) = tsorted t := by
  have keys : (tview f t).map (·.1) = t.map (·.1) := by simp [tview]
  rw [Bool.eq_iff_iff, tsorted_iff, tsorted_iff, keys]

/-- Missions, reels, bays, zones and vehicles at a restart. -/
theorem Hall.restartFleet_rests (h : Hall) : Hall.Rests { h with allStop := false } h.restartFleet ∧
    (tsorted h.reels = true → tview Reel.fixed h.restartFleet.reels = tview Reel.fixed h.reels) ∧
    ∀ v ∈ vehicleNumbers, (h.vehicle v).commissioned = true → (h.restartFleet.vehicle v).seated = false := by
  obtain ⟨w, hw⟩ : ∃ w, w = h.restartFleet := ⟨_, rfl⟩
  rw [← hw]
  unfold Hall.restartFleet at hw
  extract_lets m f z v at hw
  generalize (if v.vehicles.any fun p => p.2.commissioned then some (v.timebase + Config.silenceTicks) else none) = t at hw
  have dropped : Hall.RestsAll { h with allStop := false } m := (Hall.RestsAll.refl _).foldl (fun g p => (Hall.RestsAll.refl g).dropMission p) _
  have freed : m.Rests f := (Hall.Rests.refl m).foldl Hall.freeReel_rests _
  have fVehicles : f.vehicles = m.vehicles := by
    have fold (l : List (Nat × Reel)) (g : Hall) : (l.foldl Hall.freeReel g).vehicles = g.vehicles := by
      induction l generalizing g with
      | nil => rfl
      | cons p l ih => exact (ih _).trans (g.freeReel_vehicles p)
    exact fold _ _
  have fReels : tsorted m.reels = true → tview Reel.fixed f.reels = tview Reel.fixed m.reels := fun sorted =>
    Hall.freeReels_reels _ fun p hp => by rw [tget_of_mem sorted hp]; rfl
  have stopped : z.Rests v := (Hall.Rests.refl z).foldl Hall.restartVehicle_rests _
  have vReels : v.reels = z.reels := by
    have fold (l : List Nat) (g : Hall) : (l.foldl Hall.restartVehicle g).reels = g.reels := by
      induction l generalizing g with
      | nil => rfl
      | cons p l ih => exact (ih _).trans (g.restartVehicle_reels p)
    exact fold _ z
  have unseats (n : Nat) (hn : n ∈ vehicleNumbers) : (z.vehicle n).commissioned = true → (v.vehicle n).seated = false :=
    (Hall.restartVehicles_vehicle vehicleNumbers z n).2.1 hn
  clear_value v f m
  have zones : tview Zone.fixed (f.zones.map fun p => (p.1, { p.2 with holder := none, wait := [], hold := none })) =
      tview Zone.fixed f.zones := by simp [tview, Zone.fixed]
  have cleared : f.Rests z :=
    ⟨congrArg (fun t => { f.layout with zones := t }) zones, List.prefix_rfl, rfl, ⟨rfl, rfl⟩, rfl⟩
  have silent : v.Rests { v with fleetSilence := t } := ⟨rfl, List.prefix_rfl, rfl, ⟨rfl, rfl⟩, rfl⟩
  have kept {α : Type} (g : Hall → α) (hg : ∀ h : Hall, g h.still = g h) : g w = g { v with fleetSilence := t } := by
    rw [hw]; exact Hall.still_field (Hall.lower_still _ _) g hg
  refine ⟨?_, fun sorted => ?_, fun n hn on => ?_⟩
  · rw [hw]
    exact ((((dropped.toRests.trans freed).trans cleared).trans stopped).trans silent).lower _
  · have mSorted : tsorted m.reels = true := by
      rw [← tsorted_tview Reel.fixed, dropped.reels, tsorted_tview]; exact sorted
    rw [kept Hall.reels fun _ => rfl]
    change tview Reel.fixed v.reels = _
    rw [vReels]
    exact (fReels mSorted).trans dropped.reels
  · rw [kept (fun g => g.vehicle n) fun _ => rfl]
    refine unseats n hn ?_
    have commissioned : (m.vehicle n).commissioned = (h.vehicle n).commissioned := by
      have e := congrArg (tget · n) dropped.vehicles
      simp only [tget_tview] at e
      unfold Hall.vehicle
      cases hm : tget m.vehicles n <;> cases hh : tget h.vehicles n <;> simp_all [Vehicle.fixed]
    have same : z.vehicle n = m.vehicle n := by
      change (tget f.vehicles n).getD Vehicle.cold = _
      rw [fVehicles]; rfl
    rw [same, commissioned, on]

end
/-! #### What a warm restart leaves and what it clears -/

section
variable {s : State} {cause : ResetCause}

/-- The hall as the restart of the missions, the stands and the lines begins. -/
def Hall.restarting (cause : ResetCause) (h : Hall) : Hall := { h.restartLinks cause with allStop := false }

/-- START is the first notice (R221). -/
theorem Hall.restarting_notices (h : Hall) (cause : ResetCause) :
    (h.restarting cause).notices = [⟨0, .start cause .kept h.clock h.strap⟩] := rfl

theorem Hall.warm_rests (h : Hall) (cause : ResetCause) : (h.restarting cause).Rests (h.warm cause) ∧
    (tsorted h.reels = true → tview Reel.fixed (h.warm cause).reels = tview Reel.fixed h.reels) ∧
    ∀ v ∈ vehicleNumbers, (h.vehicle v).commissioned = true → ((h.warm cause).vehicle v).seated = false := by
  obtain ⟨fleet, reels, seats⟩ := (h.restartLinks cause).restartFleet_rests
  have later : (h.restartLinks cause).restartFleet.RestsAll (h.warm cause) := by
    unfold Hall.warm; dsimp only
    exact ((((Hall.RestsAll.refl _).restartFeed).foldl (fun g p => (Hall.RestsAll.refl g).restartIntake p) _).follow
      ((Hall.Follows.refl _).watchBays)).steps (Hall.finish_steps _)
  refine ⟨fleet.trans later.toRests, fun sorted => later.reels.trans (reels sorted), fun v hv on => ?_⟩
  have out := seats v hv on
  have e := congrArg (tget · v) later.vehicles
  simp only [tget_tview] at e
  unfold Hall.vehicle at out ⊢
  cases hw : tget (h.warm cause).vehicles v with
  | none => rfl
  | some x =>
    rw [hw] at e
    obtain ⟨y, hy, same⟩ := Option.map_eq_some_iff.mp e.symm
    rw [hy] at out
    have seated := congrArg Vehicle.seated same
    exact seated.symm.trans out

theorem exec_warmRestart_due (due : s.warmDue cause = true) : ∃ t rest, exec (.warmRestart cause) s = .next t ∧
    t = { s with host := ⟨[], []⟩, store := { s.store with save := none }, hall := t.hall } ∧
    t.hall.notices = ⟨0, .start cause .kept s.hall.clock s.hall.strap⟩ :: rest ∧ t.hall.lastReset = cause ∧
    t.hall.allStop = false ∧ t.hall.clock = s.hall.clock ∧ t.hall.strap = s.hall.strap ∧ t.hall.grades = s.hall.grades ∧
    t.hall.params = s.hall.params ∧ t.hall.massTolerance = s.hall.massTolerance ∧ t.hall.aisles = s.hall.aisles ∧
    t.hall.editions = s.hall.editions ∧ t.hall.unassigned = s.hall.unassigned ∧
    (tsorted s.hall.reels = true → ∀ i, (tget t.hall.reels i).map Reel.fixed = (tget s.hall.reels i).map Reel.fixed) ∧
    (∀ v, 1 ≤ v → v ≤ 24 → (s.hall.vehicle v).commissioned = true → (t.hall.vehicle v).seated = false) ∧
    (∀ n, (t.hall.line n).map (·.cfg) = (s.hall.line n).map (·.cfg)) ∧
    (∀ st, (t.hall.stand st).map (·.cfg) = (s.hall.stand st).map (·.cfg)) ∧
    ∀ n, (t.hall.count n).map (fun c => (c.cfg, c.counted, c.finalized, c.good, c.waste)) =
      (s.hall.count n).map fun c => (c.cfg, c.counted, c.finalized, c.good, c.waste) := by
  obtain ⟨rests, reels, seats⟩ := s.hall.warm_rests cause
  have answer : exec (.warmRestart cause) s = .next { s with
      host := ⟨[], []⟩, store := { s.store with save := none }, hall := s.hall.warm cause } := by
    change Host.Outcome.next (if s.warmDue cause then _ else s) = _
    rw [if_pos due]
    rfl
  obtain ⟨rest, notices⟩ := rests.notices
  rw [Hall.restarting_notices, List.singleton_append] at notices
  generalize s.hall.warm cause = w at rests reels seats answer notices
  have shown {α : Type} (f : Hall → α) (hf : ∀ h : Hall, f h.layout = f h) : f w = f (s.hall.restarting cause) :=
    Hall.layout_field rests.layout f hf
  refine ⟨{ s with host := ⟨[], []⟩, store := { s.store with save := none }, hall := w }, rest, answer, rfl,
    ?_, ?_, ?_, ?_, ?_, ?_, ?_, ?_, ?_, ?_, ?_, fun sorted i => ?_, fun v lo hi => ?_,
    fun n => ?_, fun st => ?_, fun n => ?_⟩
  · exact notices.symm
  · exact shown Hall.lastReset fun _ => rfl
  · exact rests.allStop
  · exact shown Hall.clock fun _ => rfl
  · exact shown Hall.strap fun _ => rfl
  · exact shown Hall.grades fun _ => rfl
  · exact shown Hall.params fun _ => rfl
  · exact shown Hall.massTolerance fun _ => rfl
  · exact shown Hall.aisles fun _ => rfl
  · exact rests.books.1
  · exact rests.books.2
  · rw [← tget_tview, ← tget_tview, reels sorted]
  · exact seats v (by simp only [vehicleNumbers, List.mem_map, List.mem_range]; exact ⟨v - 1, by omega, by omega⟩)
  · have feed := congrArg (Option.map Line.cfg) (Hall.layout_lines rests.layout n)
    simp only [Option.map_map] at feed
    exact feed
  · have setup := congrArg (Option.map Stand.cfg) (Hall.layout_stands rests.layout (standKey st))
    simp only [Option.map_map] at setup
    exact setup
  · have e := congrArg (tget · n) rests.counts
    simp only [tget_tview] at e
    have tally := congrArg (Option.map fun c : LineCount => (c.cfg, c.counted, c.finalized, c.good, c.waste)) e
    simp only [Option.map_map] at tally
    exact tally

end
/-! #### Which cause makes which restart (R221, log 25) -/

section
variable {s : State} {cause : ResetCause}

/-- The hall a cold reset makes of an image of generation `g`. -/
def Hall.coldFrom (cause : ResetCause) (strap : Bool) (img : Image) (g : Nat) (sent : List Sent) : Hall :=
  { Hall.blank cause strap img false sent with
    notices := [⟨0, .start cause (.loaded g) 0 strap⟩], noticeSeq := 1
    vehicles := (List.range 24).map fun i =>
      (i + 1, { Vehicle.cold with number := i + 1, commissioned := img.commissioned.contains (i + 1) })
    fleetSilence := if img.commissioned = [] then none else some 200 }

theorem Hall.blank_notify (cause : ResetCause) (strap : Bool) (img : Image) (g : Nat) (sent : List Sent) :
    (Hall.blank cause strap img false sent).notify (.start cause (.loaded g) 0 strap) = Hall.coldFrom cause strap img g sent := by
  have vehicles : (Hall.blank cause strap img false sent).vehicles = (Hall.coldFrom cause strap img g sent).vehicles := by
    simp [Hall.blank, Hall.coldFrom, vehicleNumbers]
  have silence : (Hall.blank cause strap img false sent).fleetSilence = (Hall.coldFrom cause strap img g sent).fleetSilence := by
    simp [Hall.blank, Hall.coldFrom, Config.silenceTicks]
  calc (Hall.blank cause strap img false sent).notify (.start cause (.loaded g) 0 strap)
      = { Hall.coldFrom cause strap img g sent with
          vehicles := (Hall.blank cause strap img false sent).vehicles
          fleetSilence := (Hall.blank cause strap img false sent).fleetSilence } := rfl
    _ = _ := by rw [vehicles, silence]

theorem State.coldDue_of (h : cause = .powerOn ∨ cause = .supplyLow ∨ cause = .hostCold ∧ s.restartDue .cold = true) :
    s.coldDue cause = true := by
  rcases h with rfl | rfl | ⟨rfl, due⟩
  · rfl
  · rfl
  · exact due

theorem State.not_coldDue_of (h : cause = .resetPin ∨ cause = .hostWarm ∨ cause = .hostCold ∧ s.restartDue .cold = false) :
    s.coldDue cause = false := by
  rcases h with rfl | rfl | ⟨rfl, due⟩
  · rfl
  · rfl
  · exact due

theorem State.warmDue_of (h : cause = .resetPin ∨ cause = .hostWarm ∧ s.restartDue .warm = true) : s.warmDue cause = true := by
  rcases h with rfl | ⟨rfl, due⟩
  · rfl
  · exact due

theorem State.not_warmDue_of
    (h : cause = .powerOn ∨ cause = .supplyLow ∨ cause = .hostCold ∨ cause = .hostWarm ∧ s.restartDue .warm = false) :
    s.warmDue cause = false := by
  rcases h with rfl | rfl | rfl | ⟨rfl, due⟩
  · rfl
  · rfl
  · rfl
  · exact due

theorem exec_coldReset_loaded (due : s.coldDue cause = true) {b : Bank} (current : s.store.current = some b) (strap : Bool) :
    exec (.coldReset cause strap) s = .next { s with
      host := ⟨[], []⟩
      store := { s.store with save := none }
      hall := Hall.coldFrom cause strap b.image b.generation s.hall.sent } := by
  rw [exec_coldReset_due due current, Hall.blank_notify]

end

end Sys2Proof.Machine
end

section
/-! PROOF. The configuration's records, and what a reload makes of the bays, the zones and the vehicles (for O45). -/

-- One theorem after another, as in the laws: elaborated all at once they ask for more threads than the check has room for.
set_option Elab.async false

namespace Sys2Proof.Machine

/-! ### The configuration records of the hall (R219) -/

/-- What a reload replaces, record by record, and the entry CONFIG_DEFAULTS. -/
structure Record where
  params : FleetParams
  massTolerance : Nat
  aisles : Table Nat
  fromDefaults : Bool
  grades : Table Grade
  reelGrades : Table Nat
  bays : Table BayCfg
  zones : Table ZoneConfig
  enrolled : Table Bool
  lines : Table (LineCfg × Nat)
  counts : Table CountCfg
  stands : Table (StandCfg × Bool)
  defaults : FaultEntry

/-- The records of the hall. -/
def Hall.record (h : Hall) : Record where
  params := h.params
  massTolerance := h.massTolerance
  aisles := h.aisles
  fromDefaults := h.fromDefaults
  grades := h.grades
  reelGrades := tview Reel.grade h.reels
  bays := tview (fun x => ⟨x.kind, x.blocked⟩) h.bays
  zones := tview Zone.cfg h.zones
  enrolled := tview Vehicle.commissioned h.vehicles
  lines := tview (fun l => (l.cfg, l.hostCeiling)) h.lines
  counts := tview LineCount.cfg h.counts
  stands := tview (fun x => (x.cfg, x.inService)) h.stands
  defaults := h.fault ⟨.configDefaults, .none⟩

section
variable {a b : Hall} (h : Hall)

theorem Hall.record_ground : h.ground.record = h.record := by
  have defaults : h.ground.fault ⟨.configDefaults, .none⟩ = h.fault ⟨.configDefaults, .none⟩ := by
    unfold Hall.fault
    rw [← tget_filter (fun n => !cascadeEntry n) h.faults _ (by decide)]
    rfl
  simp only [Hall.record, Record.mk.injEq]
  exact ⟨rfl, rfl, rfl, rfl, rfl, tview_tview _ _ _, tview_tview _ _ _, tview_tview _ _ _, tview_tview _ _ _, tview_tview _ _ _, rfl,
    tview_tview _ _ _, defaults⟩

variable {h}

/-- No consequence of an event changes a record. -/
theorem Hall.record_of_ground (e : b.ground = a.ground) : b.record = a.record := by
  rw [← b.record_ground, e, a.record_ground]

theorem Hall.Follows.record (x : a.Follows b) : b.record = a.record := Hall.record_of_ground x.same

theorem Hall.record_of_still (e : b.still = a.still) (lines : b.lines = a.lines) :
    b.record = { a.record with defaults := b.fault ⟨.configDefaults, .none⟩ } := by
  have kept {α : Type} (f : Hall → α) (hf : ∀ g : Hall, f g.still = f g := by intro; rfl) : f b = f a := Hall.still_field e f hf
  simp only [Hall.record, Record.mk.injEq]
  rw [lines, kept Hall.reels, kept Hall.bays, kept Hall.zones, kept Hall.vehicles, kept Hall.counts, kept Hall.stands]
  exact ⟨kept Hall.params, kept Hall.massTolerance, kept Hall.aisles, kept Hall.fromDefaults, kept Hall.grades, rfl, rfl, rfl, rfl, rfl,
    rfl, rfl, trivial⟩

/-- An entry of another kind than CONFIG_DEFAULTS. -/
theorem FaultKey.not_defaults {k : FaultKey} (hk : faultCode k.kind ≠ faultCode .configDefaults) :
    FaultKey.num ⟨.configDefaults, .none⟩ ≠ k.num := by
  intro e
  have code := congrArg (· / 1024) e
  simp only [Hall.Follows.num_div] at code
  exact hk code.symm

variable (h)

theorem Hall.setActive_record {kind : FaultKind} (hk : faultCode kind ≠ faultCode .configDefaults) (calm : stopsFleet kind = false)
    (x : Subject) (on : Bool) : (h.setActive ⟨kind, x⟩ on).record = h.record := by
  rw [Hall.record_of_still (h.setActive_still (k := ⟨kind, x⟩) calm on) (h.setActive_lines _ on),
    Hall.setActive_fault_ne (FaultKey.not_defaults (k := ⟨kind, x⟩) hk)]
  rfl

theorem Hall.lower_record_but (k : FaultKey) :
    (h.lower k).record = { h.record with defaults := (h.lower k).fault ⟨.configDefaults, .none⟩ } :=
  Hall.record_of_still (Hall.lower_still h k) (h.setActive_lines k false)

theorem Hall.lower_record (kind : FaultKind) (hk : faultCode kind ≠ faultCode .configDefaults) (x : Subject) :
    (h.lower ⟨kind, x⟩).record = h.record := by
  rw [h.lower_record_but, Hall.lower_fault_ne (FaultKey.not_defaults (k := ⟨kind, x⟩) hk)]
  rfl

theorem Hall.evalHold_record (n : Nat) : (h.evalHold n).record = h.record := ((Hall.Follows.refl h).evalHold n).record

theorem Hall.notify_record (x : Notice) : (h.notify x).record = h.record := ((Hall.Follows.refl h).notify x).record

theorem Hall.push_record (j : Job) : (h.push j).record = h.record := ((Hall.Follows.refl h).push j).record

theorem Hall.oweCeiling_record (n : Nat) : (h.oweCeiling n).record = h.record := ((Hall.Follows.refl h).oweCeiling n).record

theorem Hall.foldl_record {β : Type} {f : Hall → β → Hall} (hf : ∀ g x, (f g x).record = g.record) (l : List β) :
    (l.foldl f h).record = h.record := by
  induction l generalizing h with
  | nil => rfl
  | cons x l ih => exact (ih _).trans (hf h x)

end

/-! #### Records changed one by one -/

/-- A fold whose steps change a view each at its own key. -/
theorem foldl_view {σ π β : Type} {f : σ → π → σ} {key : π → Nat} {view : σ → Nat → β} {F : π → β → β} {l : List π}
    (step : ∀ p ∈ l, ∀ s k, view (f s p) k = if k = key p then F p (view s k) else view s k) (distinct : (l.map key).Nodup) (s : σ) :
    (∀ p ∈ l, view (l.foldl f s) (key p) = F p (view s (key p))) ∧ ∀ k ∉ l.map key, view (l.foldl f s) k = view s k := by
  induction l generalizing s with
  | nil => exact ⟨by simp, fun _ _ => rfl⟩
  | cons q l ih =>
    rw [List.map_cons, List.nodup_cons] at distinct
    obtain ⟨changed, left⟩ := ih (fun p hp => step p (List.mem_cons_of_mem _ hp)) distinct.2 (f s q)
    have first := step q List.mem_cons_self s
    refine ⟨fun p hp => ?_, fun k hk => ?_⟩
    · rcases List.mem_cons.mp hp with rfl | hp
      · exact (left _ distinct.1).trans (by rw [first, if_pos rfl])
      · have other : key p ≠ key q := fun e => distinct.1 (e ▸ List.mem_map_of_mem hp)
        rw [List.foldl_cons, changed p hp, first, if_neg other]
    · rw [List.map_cons, List.mem_cons, not_or] at hk
      rw [List.foldl_cons, left k hk.2, first, if_neg hk.1]

theorem tsorted_nodup {α : Type} {t : Table α} (sorted : tsorted t = true) : (t.map (·.1)).Nodup :=
  ((tsorted_iff t).mp sorted).imp Nat.ne_of_lt

theorem not_mem_keys {α : Type} {t : Table α} {k : Nat} (none : tget t k = .none) : k ∉ t.map (·.1) := by
  induction t with
  | nil => simp
  | cons p t ih =>
    rw [tget_cons] at none
    split at none
    · cases none
    · rename_i other
      rw [List.map_cons, List.mem_cons, not_or]
      exact ⟨fun e => other e.symm, ih none⟩

/-- A fold over a table in order: the view at a key listed is changed by its record, another is left. -/
theorem foldl_table {σ α β : Type} {f : σ → Nat × α → σ} {view : σ → Nat → β} {F : α → β → β} {t : Table α}
    (step : ∀ p ∈ t, ∀ s k, view (f s p) k = if k = p.1 then F p.2 (view s k) else view s k) (sorted : tsorted t = true) (s : σ) (k : Nat) :
    view (t.foldl f s) k = (tget t k).elim (view s k) fun x => F x (view s k) := by
  obtain ⟨changed, left⟩ := foldl_view (key := Prod.fst) (F := fun p => F p.2) step (tsorted_nodup sorted) s
  cases hk : tget t k with
  | none => exact left k (not_mem_keys hk)
  | some x => exact changed (k, x) (tget_mem hk)

theorem tget_filter_sorted {α : Type} {t : Table α} (sorted : tsorted t = true) (c : Nat × α → Bool) (k : Nat) :
    tget (t.filter c) k = (tget t k).filter fun x => c (k, x) := by
  have sorted' : tsorted (t.filter c) = true := tsorted_sublist List.filter_sublist sorted
  cases hk : tget t k with
  | none =>
    cases hf : tget (t.filter c) k with
    | none => rfl
    | some x =>
      have e := tget_of_mem sorted (List.mem_filter.mp (tget_mem hf)).1
      rw [hk] at e
      cases e
  | some x =>
    cases hc : c (k, x) with
    | true =>
      have e := tget_of_mem sorted' (List.mem_filter.mpr ⟨tget_mem hk, hc⟩)
      rw [e]; simp [Option.filter, hc]
    | false =>
      cases hf : tget (t.filter c) k with
      | none => simp [Option.filter, hc]
      | some y =>
        obtain ⟨mem, kept⟩ := List.mem_filter.mp (tget_mem hf)
        have e := (tget_of_mem sorted mem).symm.trans hk
        cases e
        rw [hc] at kept
        cases kept

theorem tsorted_foldl_tput {α β : Type} (f : β → α) (l : Table β) {t : Table α} (sorted : tsorted t = true) :
    tsorted (l.foldl (fun t p => tput t p.1 (f p.2)) t) = true := by
  induction l generalizing t with
  | nil => exact sorted
  | cons p l ih => exact ih (tsorted_tput sorted _ _)

/-- The records of `l` put in a table. -/
theorem tget_foldl_tput {α β : Type} (f : β → α) {l : Table β} (sorted : tsorted l = true) (t : Table α) (k : Nat) :
    tget (l.foldl (fun t p => tput t p.1 (f p.2)) t) k = ((tget l k).map f).or (tget t k) := by
  rw [foldl_table (view := tget) (F := fun x _ => some (f x)) (fun p _ s k => tget_tput s p.1 k (f p.2)) sorted t k]
  cases tget l k <;> rfl
/-! #### Bays and zones (R61, R85) -/

section
variable (h : Hall) (img : Image)

theorem Hall.reloadBays_record : (h.reloadBays img).record =
    { h.record with bays := (h.reloadBays img).record.bays, aisles := img.aisles } := by
  rw [Hall.reloadBays, Hall.push_record]; rfl

theorem tget_map_keyed {α β : Type} (f : Nat → α → β) (t : Table α) (k : Nat) :
    tget (t.map fun p => (p.1, f p.1 p.2)) k = (tget t k).map (f k) := by
  induction t with
  | nil => rfl
  | cons p t ih =>
    rw [List.map_cons, tget_cons, tget_cons]
    split
    · rename_i e; subst e; rfl
    · exact ih

/-- A bay kept through a reload, with the flag the image gives it. -/
def Bay.reblocked (img : Image) (k : Nat) (x : Bay) : Bay := { x with blocked := ((tget img.bays k).map (·.blocked)).getD x.blocked }

/-- The bays kept. -/
def Hall.keptBays (img : Image) (h : Hall) : Table Bay := (h.bays.filter fun p => p.2.kept).map fun p => (p.1, p.2.reblocked img p.1)

theorem Hall.keptBays_get (sorted : tsorted h.bays = true) (k : Nat) :
    tget (h.keptBays img) k = ((tget h.bays k).filter Bay.kept).map (Bay.reblocked img k) := by
  rw [Hall.keptBays, tget_map_keyed (Bay.reblocked img), tget_filter_sorted sorted]

theorem Hall.reloadBays_bays : (h.reloadBays img).bays = (img.bays.filter fun p => (tget (h.keptBays img) p.1).isNone).foldl
    (fun t p => tput t p.1 ⟨p.2.kind, p.2.blocked, none, none⟩) (h.keptBays img) := by
  rw [Hall.reloadBays, Hall.push_bays]; rfl

/-- A bay that is occupied or reserved keeps its kind; a bay else is the image's (R61). -/
theorem Hall.reloadBays_bay (sorted : tsorted h.bays = true) (listed : tsorted img.bays = true) (k : Nat) :
    tget (h.reloadBays img).record.bays k =
      (((tget h.bays k).filter Bay.kept).map fun x => ⟨x.kind, (x.reblocked img k).blocked⟩).or (tget img.bays k) := by
  rw [Hall.record, tget_tview, Hall.reloadBays_bays,
    tget_foldl_tput (fun c : BayCfg => (⟨c.kind, c.blocked, none, none⟩ : Bay)) (tsorted_sublist List.filter_sublist listed),
    tget_filter_sorted listed]
  have kept := Hall.keptBays_get h img sorted k
  cases hx : (tget h.bays k).filter Bay.kept with
  | none =>
    rw [hx] at kept
    cases tget img.bays k <;> simp [kept, Option.filter]
  | some x =>
    rw [hx] at kept
    cases tget img.bays k <;> simp [kept, Option.filter, Bay.reblocked]

/-- A zone that keeps its configuration through a reload (R85). -/
def Hall.KeptZone (h : Hall) (k : Nat) (x : Zone) : Prop := h.zone k = some x ∧ (x.holder.isSome ∨ x.hold.isSome ∨ x.wait ≠ [] ∨
  ∃ p ∈ h.missions, ∃ r, p.2.route = some r ∧ k ∈ r.zones)

variable {h img}

theorem Hall.keptZone_iff {k : Nat} {x : Zone} : h.KeptZone k x ↔ h.zone k = some x ∧ h.keepsZone (k, x) = true := by
  unfold Hall.KeptZone Hall.keepsZone
  simp [Option.any_eq_true, or_assoc]

theorem usesLoop_iff {u : ZoneUse} : usesLoop u = true ↔ ∃ p, u = .loop p := by cases u <;> simp [usesLoop]

/-- The zones kept. -/
def Hall.keptZones (h : Hall) : Table Zone := h.zones.filter h.keepsZone

/-- Whether a zone kept serves a use. -/
def Hall.keepsUse (h : Hall) (u : ZoneUse) : Bool := h.keptZones.any fun q => decide (q.2.cfg.use = u)

/-- The zones kept with those of the image that may be loaded beside them. -/
def Hall.mergedZones (img : Image) (h : Hall) : Table Zone :=
  (img.zones.filter fun p => (tget h.keptZones p.1).isNone && !h.keepsUse p.2.use).foldl
    (fun t p => tput t p.1 ⟨p.2, none, [], none⟩) h.keptZones

theorem Hall.reloadedZones_eq : h.reloadedZones img = (h.mergedZones img).filter fun p =>
    (tget h.keptZones p.1).isSome || zoneAttaches (h.mergedZones img) p.2 := rfl

section
variable (sorted : tsorted h.zones = true)
include sorted

theorem Hall.keptZones_sorted : tsorted h.keptZones = true := tsorted_sublist List.filter_sublist sorted

theorem Hall.keptZones_get {k : Nat} {x : Zone} : tget h.keptZones k = some x ↔ h.KeptZone k x := by
  rw [Hall.keptZones, tget_filter_sorted sorted, Option.filter_eq_some_iff, Hall.keptZone_iff]
  rfl

theorem Hall.keptZones_none {k : Nat} (free : ∀ x, ¬ h.KeptZone k x) : tget h.keptZones k = none :=
  Option.eq_none_iff_forall_ne_some.mpr fun x hx => free x ((Hall.keptZones_get sorted).mp hx)

theorem Hall.keepsUse_false {u : ZoneUse} : h.keepsUse u = false ↔ ∀ j x, h.KeptZone j x → x.cfg.use ≠ u := by
  rw [Hall.keepsUse, List.any_eq_false]
  constructor
  · intro none j x kept
    simpa using none (j, x) (tget_mem ((Hall.keptZones_get sorted).mpr kept))
  · rintro none ⟨j, x⟩ mem
    simpa using none j x ((Hall.keptZones_get sorted).mp (tget_of_mem (Hall.keptZones_sorted sorted) mem))

variable (listed : tsorted img.zones = true)

theorem Hall.reloadedZones_get (k : Nat) : tget (h.reloadedZones img) k = (tget (h.mergedZones img) k).filter fun x =>
    (tget h.keptZones k).isSome || zoneAttaches (h.mergedZones img) x := by
  have sortedMerged : tsorted (h.mergedZones img) = true :=
    tsorted_foldl_tput (fun c : ZoneConfig => (⟨c, none, [], none⟩ : Zone)) _ (Hall.keptZones_sorted sorted)
  rw [Hall.reloadedZones_eq, tget_filter_sorted sortedMerged]

theorem Hall.mergedZones_loop (j : Nat) : ((tget (h.mergedZones img) j).any fun x => usesLoop x.cfg.use) = true ↔
    ∃ a, tget (h.reloadedZones img) j = some a ∧ ∃ p, a.cfg.use = .loop p := by
  rw [Hall.reloadedZones_get sorted, Option.any_eq_true]
  constructor
  · rintro ⟨x, hx, loop⟩
    exact ⟨x, by simp [hx, Option.filter, zoneAttaches, loop], usesLoop_iff.mp loop⟩
  · rintro ⟨x, hx, loop⟩
    exact ⟨x, (Option.filter_eq_some_iff.mp hx).1, usesLoop_iff.mpr loop⟩

include listed

omit sorted in
theorem Hall.mergedZones_get (k : Nat) : tget (h.mergedZones img) k =
    (((tget img.zones k).filter fun c => (tget h.keptZones k).isNone && !h.keepsUse c.use).map fun c =>
      ⟨c, none, [], none⟩).or (tget h.keptZones k) := by
  rw [Hall.mergedZones, tget_foldl_tput (fun c : ZoneConfig => (⟨c, none, [], none⟩ : Zone)) (tsorted_sublist List.filter_sublist listed),
    tget_filter_sorted listed]

/-- A zone kept keeps its configuration. -/
theorem Hall.reloadedZones_kept {k : Nat} {x : Zone} (kept : h.KeptZone k x) : tget (h.reloadedZones img) k = some x := by
  rw [Hall.reloadedZones_get sorted, Hall.mergedZones_get listed, (Hall.keptZones_get sorted).mpr kept]
  cases tget img.zones k <;> simp [Option.filter]

/-- A zone not kept is the image's, when no zone kept serves its use, and it is a LOOP zone or attaches to one (R85). -/
theorem Hall.reloadedZones_loaded {k : Nat} (free : ∀ x, ¬ h.KeptZone k x) (c : ZoneConfig) :
    (tget (h.reloadedZones img) k).map Zone.cfg = some c ↔
      tget img.zones k = some c ∧ (∀ j x, h.KeptZone j x → x.cfg.use ≠ c.use) ∧
        ((∃ p, c.use = .loop p) ∨ ∃ a, tget (h.reloadedZones img) c.attach = some a ∧ ∃ p, a.cfg.use = .loop p) := by
  rw [← Hall.mergedZones_loop sorted, Hall.reloadedZones_get sorted, Hall.mergedZones_get listed, Hall.keptZones_none sorted free,
    ← usesLoop_iff, ← Hall.keepsUse_false sorted]
  cases hc : tget img.zones k with
  | none => simp
  | some d =>
    by_cases e : d = c
    · subst e
      cases used : h.keepsUse d.use
      · cases loop : usesLoop d.use <;> simp [used, loop, Option.filter, zoneAttaches]
      · simp [used, Option.filter]
    · have other : some d ≠ some c := fun k => e (Option.some.inj k)
      cases used : h.keepsUse d.use <;> simp [e, used, Option.filter]

end

/-- Bays and zones before the rest. -/
theorem Hall.reloadZones_record : (h.reloadZones img).record = { h.record with zones := tview Zone.cfg (h.reloadedZones img) } := by
  rw [Hall.reloadZones, Hall.push_record, Hall.push_record]; rfl

end
/-! #### The commissioned vehicles (R219) -/

section
variable {a b : Hall}

theorem Hall.Roads.dropHolder (x : a.Roads b) (z : Nat) : a.Roads (b.dropHolder z) := by
  unfold Hall.dropHolder; dsimp only; split
  · exact (x.modZone z _).push _
  · exact x.modZone z _

theorem Hall.Roads.admissionWalk (x : a.Roads b) : a.Roads b.admissionWalk := by
  unfold Hall.admissionWalk
  refine x.foldl (fun h z => ?_) _
  split
  · exact (Roads.refl h).runZone z
  · exact .refl h

theorem Hall.Roads.releaseZone (x : a.Roads b) (v z : Nat) : a.Roads (b.releaseZone v z) := by
  have run := (x.dropHolder z).runZone z
  unfold Hall.releaseZone Hall.afterFall; dsimp only; split
  · exact run.admissionWalk
  · exact run

end

/-- What a reload asks of a vehicle. -/
def Vehicle.roster (x : Vehicle) : Bool × Option Nat × Option ReelRef := (x.commissioned, x.mission, x.load)

/-- What a reload asks of the vehicle of a number. -/
def Hall.roster (h : Hall) (v : Nat) : Option (Bool × Option Nat × Option ReelRef) := (tget h.vehicles v).map Vehicle.roster

section
variable {a b : Hall}

/-- What Traffic Control does changes no vehicle's roster. -/
theorem Hall.Roads.roster (x : a.Roads b) (same : b.ground = a.ground) (v : Nat) : b.roster v = a.roster v := by
  have keys : (tget b.vehicles v).map Vehicle.fixed = (tget a.vehicles v).map Vehicle.fixed := by
    have e : tview Vehicle.fixed b.vehicles = tview Vehicle.fixed a.vehicles := congrArg Hall.vehicles same
    rw [← tget_tview, e, tget_tview]
  have granted := x.vehicles v
  unfold Hall.vehicle at granted
  unfold Hall.roster
  cases ha : tget a.vehicles v with
  | none => rw [ha] at keys; rw [Option.map_eq_none_iff.mp keys]
  | some y =>
    rw [ha] at keys
    obtain ⟨z, hz, -⟩ := Option.map_eq_some_iff.mp keys
    rw [ha, hz] at granted
    rw [hz]
    exact congrArg some (granted.field Vehicle.roster)

variable (h : Hall) (v w : Nat)

theorem Hall.modVehicle_roster (f : Vehicle → Vehicle) (g : Bool × Option Nat × Option ReelRef → Bool × Option Nat × Option ReelRef)
    (hf : ∀ x, (f x).roster = g x.roster) :
    (h.modVehicle v f).roster w = if w = v then (h.roster w).map g else h.roster w := by
  unfold Hall.roster
  rw [Hall.modVehicle_vehicles, tget_tmod]
  split
  · rename_i e; subst e
    cases tget h.vehicles w <;> simp [hf]
  · rfl

theorem Hall.roster_of_still (e : b.still = a.still) : b.roster w = a.roster w := by
  unfold Hall.roster; rw [Hall.still_field e Hall.vehicles fun _ => rfl]

/-- A record with other vehicles commissioned. -/
def Record.withEnrolled (r : Record) (t : Table Bool) : Record := { r with enrolled := t }

/-- A record of the hall that knows of a vehicle only whether it is commissioned. -/
theorem Hall.modVehicle_record (f : Vehicle → Vehicle) :
    (h.modVehicle v f).record = { h.record with enrolled := (h.modVehicle v f).record.enrolled } := rfl

theorem Hall.modVehicle_record_same {f : Vehicle → Vehicle} (hf : ∀ x, (f x).commissioned = x.commissioned) :
    (h.modVehicle v f).record = h.record := by
  rw [Hall.modVehicle_record]
  exact congrArg (Record.withEnrolled h.record) (tview_tmod Vehicle.commissioned h.vehicles v f fun x _ => hf x)

/-- A vehicle out of its zones. -/
def Vehicle.unseated (x : Vehicle) : Vehicle := { x with ahead := [], front := none, tail := none, seated := false, withdraw := false }

/-- A vehicle out of commission. -/
def Vehicle.decommissioned (x : Vehicle) : Vehicle :=
  { x with abort := none, kept := none, beforeStop := none, timer := none, commissioned := false, activity := .offline }

/-- The vehicle leaves its zones, its waits and its charger hold. -/
theorem Hall.unseat_leaves : (h.unseat v).record = h.record ∧ (h.unseat v).stands = h.stands ∧ (h.unseat v).roster w = h.roster w := by
  obtain ⟨g, hg⟩ : ∃ g, g = (h.unwait v).modVehicle v Vehicle.unseated := ⟨_, rfl⟩
  have stops : h.unseat v = ((((h.unwait v).held v).foldl (Hall.releaseZone v) g).releaseHold v).lower ⟨.zoneConflict, .vehicle v⟩ := by
    rw [hg]; rfl
  have released : g.Follows ((((h.unwait v).held v).foldl (Hall.releaseZone v) g).releaseHold v) :=
    ((Follows.refl g).foldl (fun a z => (Follows.refl a).releaseZone v z) _).releaseHold v
  have roads : g.Roads ((((h.unwait v).held v).foldl (Hall.releaseZone v) g).releaseHold v) :=
    ((Roads.refl g).foldl (fun a z => (Roads.refl a).releaseZone v z) _).releaseHold v
  have unwaits : (h.unwait v).record = h.record := ((Follows.refl h).unwait v).record
  have waits : h.Roads (h.unwait v) := (Roads.refl h).unwait v
  have enrolled : g.record = (h.unwait v).record := by
    rw [hg, Hall.modVehicle_record_same (f := Vehicle.unseated) _ _ fun _ => rfl]
  have roster : g.roster w = (h.unwait v).roster w := by
    rw [hg, Hall.modVehicle_roster _ _ _ Vehicle.unseated id fun _ => rfl]; simp
  have stands : g.stands = (h.unwait v).stands := by rw [hg]; rfl
  rw [stops]
  refine ⟨?_, ?_, ?_⟩
  · rw [Hall.lower_record _ .zoneConflict (by decide), released.record, enrolled, unwaits]
  · rw [Hall.lower_stands, roads.field Hall.stands, stands, waits.field Hall.stands]
  · rw [Hall.roster_of_still w (Hall.lower_still _ _), roads.roster released.same, roster, waits.roster ((Follows.refl h).unwait v).same]

/-- A vehicle is commissioned. -/
theorem Hall.commission_roster : (h.commission v).roster w = if w = v then (h.roster w).map fun r => (true, r.2) else h.roster w := by
  unfold Hall.commission; dsimp only
  rw [Hall.roster_of_still w (Hall.lower_still _ _), ← Hall.modVehicle_roster h v w (fun x =>
    { x with commissioned := true, activity := .offline, seated := false, supervision := .reporting, missed := 0, timer := none })
    (fun r => (true, r.2)) fun _ => rfl]
  split <;> rfl

theorem Hall.commission_leaves :
    (h.commission v).record = { h.record with enrolled := (h.commission v).record.enrolled } ∧ (h.commission v).stands = h.stands := by
  unfold Hall.commission; dsimp only
  rw [Hall.lower_record _ .vehicleUnknown (by decide), Hall.lower_stands]
  split <;> exact ⟨rfl, rfl⟩

/-- A vehicle is decommissioned. -/
theorem Hall.decommission_leaves :
    (h.decommission v).record = { h.record with enrolled := (h.decommission v).record.enrolled } ∧
      (h.decommission v).stands = h.stands ∧
      (h.decommission v).roster w = if w = v then (h.roster w).map fun r => (false, r.2) else h.roster w := by
  obtain ⟨record, stands, roster⟩ := h.unseat_leaves v w
  obtain ⟨g, hg⟩ : ∃ g, g = (((h.unseat v).modVehicle v Vehicle.decommissioned).lower
    ⟨.vehicleSilent, .vehicle v⟩).lower ⟨.vehicleLost, .vehicle v⟩ := ⟨_, rfl⟩
  have gRecord : g.record = { h.record with enrolled := g.record.enrolled } := by
    rw [hg, Hall.lower_record _ .vehicleLost (by decide), Hall.lower_record _ .vehicleSilent (by decide), Hall.modVehicle_record, record]
  have gStands : g.stands = h.stands := by rw [hg, Hall.lower_stands, Hall.lower_stands]; exact stands
  have gRoster : g.roster w = if w = v then (h.roster w).map fun r => (false, r.2) else h.roster w := by
    rw [hg, Hall.roster_of_still w (Hall.lower_still _ _), Hall.roster_of_still w (Hall.lower_still _ _),
      Hall.modVehicle_roster _ _ _ Vehicle.decommissioned (fun r => (false, r.2)) fun _ => rfl, roster]
  have ends : h.decommission v = if g.vehicles.any fun p => p.2.commissioned then g
      else ({ g with fleetSilence := none } : Hall).lower ⟨.fleetLinkDown, .none⟩ := by rw [hg]; rfl
  rw [ends]
  split
  · exact ⟨gRecord, gStands, gRoster⟩
  · have silent : Hall.record { g with fleetSilence := none } = g.record := rfl
    refine ⟨?_, ?_, ?_⟩
    · rw [Hall.lower_record _ .fleetLinkDown (by decide), silent]; exact gRecord
    · rw [Hall.lower_stands]; exact gStands
    · rw [Hall.roster_of_still w (Hall.lower_still _ _)]; exact gRoster

/-- What a reload makes of the roster of vehicle `v`. -/
def Image.enrols (img : Image) (v : Nat) (r : Bool × Option Nat × Option ReelRef) : Bool × Option Nat × Option ReelRef :=
  if img.commissioned.contains v then (true, r.2) else (r.1 && (r.2.1.isSome || r.2.2.isSome), r.2)

theorem Hall.reloadVehicle_leaves (img : Image) :
    (h.reloadVehicle img v).record = { h.record with enrolled := (h.reloadVehicle img v).record.enrolled } ∧
      (h.reloadVehicle img v).stands = h.stands ∧
      (h.reloadVehicle img v).roster w = if w = v then (h.roster w).map (img.enrols v) else h.roster w := by
  have known {x : Vehicle} (hx : tget h.vehicles v = some x) : h.vehicle v = x := by rw [Hall.vehicle, hx]; rfl
  have stays (same : ∀ x, tget h.vehicles v = some x → img.enrols v x.roster = x.roster) :
      h.roster w = if w = v then (h.roster w).map (img.enrols v) else h.roster w := by
    split
    · rename_i e; subst e
      unfold Hall.roster
      cases hx : tget h.vehicles w with
      | none => rfl
      | some x => exact congrArg some (same x hx).symm
    · rfl
  have becomes (on : Bool) (same : ∀ x, tget h.vehicles v = some x → img.enrols v x.roster = (on, x.roster.2)) :
      (if w = v then (h.roster w).map fun r => (on, r.2) else h.roster w) =
        if w = v then (h.roster w).map (img.enrols v) else h.roster w := by
    split
    · rename_i e; subst e
      unfold Hall.roster
      cases hx : tget h.vehicles w with
      | none => rfl
      | some x => exact congrArg some (same x hx).symm
    · rfl
  unfold Hall.reloadVehicle; dsimp only
  split
  · rename_i listed
    split
    · rename_i on
      refine ⟨rfl, rfl, stays fun x hx => ?_⟩
      rw [known hx] at on
      simp only [Image.enrols, listed, if_pos, Vehicle.roster, on]
    · obtain ⟨record, stands⟩ := h.commission_leaves v
      refine ⟨record, stands, (h.commission_roster v w).trans (becomes true fun x hx => ?_)⟩
      simp only [Image.enrols, listed, if_pos]
  · rename_i unlisted
    split
    · rename_i idle
      obtain ⟨record, stands, roster⟩ := h.decommission_leaves v w
      refine ⟨record, stands, roster.trans (becomes false fun x hx => ?_)⟩
      rw [known hx] at idle
      simp_all [Image.enrols, Vehicle.roster]
    · rename_i busy
      refine ⟨rfl, rfl, stays fun x hx => ?_⟩
      rw [known hx] at busy
      simp only [Image.enrols, unlisted, Vehicle.roster]
      cases on : x.commissioned <;> cases m : x.mission <;> cases l : x.load <;> simp_all

/-- The fleet of a reload. -/
theorem Hall.reloadVehicles_leaves (img : Image) :
    (vehicleNumbers.foldl (Hall.reloadVehicle img) h).record =
        { h.record with enrolled := (vehicleNumbers.foldl (Hall.reloadVehicle img) h).record.enrolled } ∧
      (vehicleNumbers.foldl (Hall.reloadVehicle img) h).stands = h.stands ∧
      (w ∈ vehicleNumbers → (vehicleNumbers.foldl (Hall.reloadVehicle img) h).roster w = (h.roster w).map (img.enrols w)) := by
  have fold (l : List Nat) (g : Hall) : (l.foldl (Hall.reloadVehicle img) g).record =
      { g.record with enrolled := (l.foldl (Hall.reloadVehicle img) g).record.enrolled } ∧
      (l.foldl (Hall.reloadVehicle img) g).stands = g.stands := by
    induction l generalizing g with
    | nil => exact ⟨rfl, rfl⟩
    | cons v l ih =>
      obtain ⟨record, stands, -⟩ := g.reloadVehicle_leaves v 0 img
      obtain ⟨record', stands'⟩ := ih (g.reloadVehicle img v)
      refine ⟨?_, stands'.trans stands⟩
      rw [List.foldl_cons, record']
      rw [record]
  have each := (foldl_view (key := id) (view := Hall.roster) (F := fun v r => r.map (img.enrols v)) (l := vehicleNumbers)
    (fun v _ s k => (s.reloadVehicle_leaves v k img).2.2) (by decide) h).1
  exact ⟨(fold _ h).1, (fold _ h).2, fun hw => each w hw⟩

end

end Sys2Proof.Machine
end

section
/-! PROOF. What a reload makes of the lines, the counts and the stands (for O45). -/

-- One theorem after another, as in the laws: elaborated all at once they ask for more threads than the check has room for.
set_option Elab.async false

namespace Sys2Proof.Machine

/-! #### The lines and their counts (R117, R162, R181) -/

/-- What a reload makes of a line with its host ceiling, and of the settings of its counts. -/
def LineCfg.feeds (c : LineCfg) (k : CountCfg) : Option (LineCfg × Nat) × Option CountCfg → Option (LineCfg × Nat) × Option CountCfg
  | (some l, y) => (some (c, c.fitCeiling l.2), y.map fun _ => k)
  | (none, _) => (some (c, c.lineMax), some k)

/-- The line and the counts of a number in a record. -/
def Hall.feed (h : Hall) (n : Nat) : Option (LineCfg × Nat) × Option CountCfg := (tget h.record.lines n, tget h.record.counts n)

section
variable (h : Hall) (n k : Nat)

theorem Hall.standsOf_tests_record (l : List StandAddr) : (l.foldl (fun h st => h.testOverdue st) h).record = h.record :=
  Hall.foldl_record _ (fun g _ => g.setActive_record (by decide) rfl _ _) l

theorem Hall.standsOf_tests_stands (l : List StandAddr) : (l.foldl (fun h st => h.testOverdue st) h).stands = h.stands :=
  Hall.still_field (Hall.foldl_still h (fun g _ => g.setActive_still rfl _) l) Hall.stands fun _ => rfl

/-- A line is given its feed settings. -/
theorem Hall.refeedLine_leaves (c : LineCfg) :
    (h.refeedLine n c).record = { h.record with lines := tmod h.record.lines n fun l => (c, c.fitCeiling l.2) } ∧
      (h.refeedLine n c).stands = h.stands := by
  obtain ⟨g, hg⟩ : ∃ g, g = (h.modLine n fun l => { l with cfg := c, hostCeiling := c.fitCeiling l.hostCeiling }).oweCeiling n := ⟨_, rfl⟩
  have fed : g.record = { h.record with lines := tmod h.record.lines n fun l => (c, c.fitCeiling l.2) } := by
    rw [hg, Hall.oweCeiling_record]
    exact congrArg (fun t => ({ h.record with lines := t } : Record))
      (tview_tmod_eq (fun l : Line => (l.cfg, l.hostCeiling)) h.lines n _ (fun l => (c, c.fitCeiling l.2)) fun _ => rfl)
  have stands : g.stands = h.stands := by rw [hg, Hall.oweCeiling_stands]; rfl
  have ends : h.refeedLine n c = if (h.line n).map (fun l => l.cfg.prepAllowance) = some c.prepAllowance then g
      else (g.standsOf n).foldl (fun h st => h.testOverdue st) g := by rw [hg]; rfl
  rw [ends]
  split
  · exact ⟨fed, stands⟩
  · exact ⟨(g.standsOf_tests_record _).trans fed, (g.standsOf_tests_stands _).trans stands⟩

theorem Hall.bookCopies_leaves (good : Nat) (w : Waste) : (h.bookCopies n good w).record = h.record ∧ (h.bookCopies n good w).stands = h.stands := by
  have booked (t : Table Edition) : Hall.record { h with editions := t } = h.record := rfl
  unfold Hall.bookCopies; split
  · split
    · exact ⟨rfl, rfl⟩
    · dsimp only; split
      · rw [Hall.notify_record, booked]
        exact ⟨rfl, Hall.still_field (Hall.notify_still _ _) Hall.stands fun _ => rfl⟩
      · exact ⟨rfl, rfl⟩
  · exact ⟨rfl, rfl⟩

theorem Hall.modCount_record {f : LineCount → LineCount} (hf : ∀ c, (f c).cfg = c.cfg) : (h.modCount n f).record = h.record :=
  congrArg (fun t => ({ h.record with counts := t } : Record)) (tview_tmod LineCount.cfg h.counts n f fun c _ => hf c)

theorem Hall.finalizeTo_leaves (upTo : Nat) : (h.finalizeTo n upTo).record = h.record ∧ (h.finalizeTo n upTo).stands = h.stands := by
  unfold Hall.finalizeTo; split
  · split
    · exact ⟨rfl, rfl⟩
    · dsimp only
      obtain ⟨record, stands⟩ := Hall.bookCopies_leaves (h.modCount n fun c => c.finalizeTo upTo) n _ _
      exact ⟨record.trans (h.modCount_record n fun _ => rfl), stands⟩
  · exact ⟨rfl, rfl⟩

theorem Hall.finalizeDepth_leaves : (h.finalizeDepth n).record = h.record ∧ (h.finalizeDepth n).stands = h.stands := by
  unfold Hall.finalizeDepth; split
  · exact h.finalizeTo_leaves n _
  · exact ⟨rfl, rfl⟩

/-- The counts of a line are given their settings. -/
theorem Hall.recount_leaves (y : CountCfg) :
    (h.recount n y).record = { h.record with counts := tmod h.record.counts n fun _ => y } ∧ (h.recount n y).stands = h.stands := by
  obtain ⟨g, hg⟩ : ∃ g, g = (h.modCount n fun c => { c with cfg := y }).finalizeDepth n := ⟨_, rfl⟩
  have set : g.record = { h.record with counts := tmod h.record.counts n fun _ => y } := by
    rw [hg, (Hall.finalizeDepth_leaves _ n).1]
    exact congrArg (fun t => ({ h.record with counts := t } : Record)) (tview_tmod_eq LineCount.cfg h.counts n _ (fun _ => y) fun _ => rfl)
  have stands : g.stands = h.stands := by rw [hg, (Hall.finalizeDepth_leaves _ n).2]; rfl
  have ends : h.recount n y = (if (h.count n).map (fun c => c.cfg.startLimit) = some y.startLimit then g else g.testStart n).evalHold n := by
    rw [hg]; rfl
  rw [ends, Hall.evalHold_record, Hall.evalHold_stands]
  split
  · exact ⟨set, stands⟩
  · refine ⟨(g.setActive_record (by decide) rfl _ _).trans set, ?_⟩
    exact (Hall.still_field (g.setActive_still (k := ⟨.startLimit, .line n⟩) rfl _) Hall.stands fun _ => rfl).trans stands

theorem Hall.configureLine_leaves (c : LineCfg) (y : CountCfg) : (h.configureLine n c y).record =
    { h.record with lines := tput h.record.lines n (c, c.lineMax), counts := tput h.record.counts n y } ∧
      (h.configureLine n c y).stands = h.stands := by
  unfold Hall.configureLine
  rw [Hall.evalHold_record, Hall.evalHold_stands]
  refine ⟨?_, rfl⟩
  exact congrArg₂ (fun t u => ({ h.record with lines := t, counts := u } : Record)) (tview_tput_eq _ h.lines n (Line.fresh c h.timebase))
    (tview_tput_eq LineCount.cfg h.counts n (LineCount.fresh y))

/-- What a reload makes of one line. -/
theorem Hall.reloadLine_leaves (p : Nat × (LineCfg × CountCfg)) :
    (h.reloadLine p).record = { h.record with lines := (h.reloadLine p).record.lines, counts := (h.reloadLine p).record.counts } ∧
      (h.reloadLine p).stands = h.stands ∧
      (h.reloadLine p).feed k = if k = p.1 then p.2.1.feeds p.2.2 (h.feed k) else h.feed k := by
  have known : tget h.record.lines p.1 = (h.line p.1).map fun l => (l.cfg, l.hostCeiling) :=
    tget_tview (fun l : Line => (l.cfg, l.hostCeiling)) h.lines p.1
  unfold Hall.reloadLine
  cases hl : h.line p.1 with
  | some l =>
    obtain ⟨fed, stands⟩ := h.refeedLine_leaves p.1 p.2.1
    obtain ⟨counted, stands'⟩ := (h.refeedLine p.1 p.2.1).recount_leaves p.1 p.2.2
    rw [hl] at known
    rw [Option.isSome_some, if_pos rfl]
    refine ⟨?_, stands'.trans stands, ?_⟩
    · rw [counted, fed]
    · unfold Hall.feed
      rw [counted, fed]
      dsimp only
      rw [tget_tmod, tget_tmod]
      split
      · rename_i e; subst e
        rw [known]
        rfl
      · rfl
  | none =>
    obtain ⟨configured, stands⟩ := h.configureLine_leaves p.1 p.2.1 p.2.2
    rw [hl] at known
    rw [Option.isSome_none, if_neg Bool.false_ne_true]
    refine ⟨?_, stands, ?_⟩
    · rw [configured]
    · unfold Hall.feed
      rw [configured]
      dsimp only
      rw [tget_tput, tget_tput]
      split
      · rename_i e; subst e
        rw [known]
        rfl
      · rfl

/-- The lines of a reload. -/
theorem Hall.reloadLines_leaves {t : Table (LineCfg × CountCfg)} (sorted : tsorted t = true) :
    (t.foldl Hall.reloadLine h).record =
        { h.record with lines := (t.foldl Hall.reloadLine h).record.lines, counts := (t.foldl Hall.reloadLine h).record.counts } ∧
      (t.foldl Hall.reloadLine h).stands = h.stands ∧
      (t.foldl Hall.reloadLine h).feed k = (tget t k).elim (h.feed k) fun x => x.1.feeds x.2 (h.feed k) := by
  have fold (l : Table (LineCfg × CountCfg)) (g : Hall) : (l.foldl Hall.reloadLine g).record =
      { g.record with lines := (l.foldl Hall.reloadLine g).record.lines, counts := (l.foldl Hall.reloadLine g).record.counts } ∧
      (l.foldl Hall.reloadLine g).stands = g.stands := by
    induction l generalizing g with
    | nil => exact ⟨rfl, rfl⟩
    | cons p l ih =>
      obtain ⟨record, stands, -⟩ := g.reloadLine_leaves 0 p
      obtain ⟨record', stands'⟩ := ih (g.reloadLine p)
      refine ⟨?_, stands'.trans stands⟩
      rw [List.foldl_cons, record']
      rw [record]
  exact ⟨(fold t h).1, (fold t h).2,
    foldl_table (view := Hall.feed) (F := fun x => x.1.feeds x.2) (fun p _ s k => (s.reloadLine_leaves k p).2.2) sorted h k⟩

end
/-! #### The stands (R119, R120) -/

/-- What a reload asks of a stand. -/
def Stand.plan (s : Stand) : StandCfg × Bool × Mode := (s.cfg, s.inService, s.mode)

/-- What a reload asks of the stand at a key. -/
def Hall.plan (h : Hall) (k : Nat) : Option (StandCfg × Bool × Mode) := (tget h.stands k).map Stand.plan

/-- What the image makes of a stand's service (R219, log 48). -/
def Mode.served (on : Bool) (x : Bool × Mode) : Bool × Mode :=
  if on then (if x.2 = .outOfService then (true, .unknown) else x)
  else if x.2 = .outOfService ∨ x.2 = .splicing then x else (false, .outOfService)

/-- What the image makes of a stand. -/
def StandCfg.plans (c : StandCfg) (on : Bool) : Option (StandCfg × Bool × Mode) → Option (StandCfg × Bool × Mode)
  | some x => some (c, Mode.served on x.2)
  | none => some (c, on, if on then .unknown else .outOfService)

/-- Halls whose records differ in their stands alone. -/
def Hall.Standing (a b : Hall) : Prop := b.record = { a.record with stands := b.record.stands }

section
variable {a b d : Hall}

theorem Hall.plan_of_stands (e : b.stands = a.stands) (k : Nat) : b.plan k = a.plan k := by unfold Hall.plan; rw [e]

theorem Hall.Steady.plan (x : a.Steady b) (k : Nat) : b.plan k = a.plan k := by
  unfold Hall.plan
  rw [← tget_tview, ← tget_tview, x.view Stand.plan]

theorem Hall.Standing.trans (x : a.Standing b) (y : b.Standing d) : a.Standing d := by
  unfold Hall.Standing at *
  rw [y, x]

theorem Hall.Standing.same (x : a.Standing b) (y : d.record = b.record) : a.Standing d := by
  unfold Hall.Standing at *
  rw [y]; exact x

variable (h : Hall) (st : StandAddr) (k : Nat)

theorem Hall.modStand_plan (f : Stand → Stand) (g : StandCfg × Bool × Mode → StandCfg × Bool × Mode) (hf : ∀ s, (f s).plan = g s.plan) :
    (h.modStand st f).plan k = if k = standKey st then (h.plan k).map g else h.plan k := by
  unfold Hall.plan
  rw [Hall.modStand_stands, tget_tmod]
  split
  · rename_i e; subst e
    cases tget h.stands (standKey st) <;> simp [hf]
  · rfl

/-- A stand is changed but for what the reload asks of it. -/
theorem Hall.modStand_plan_same (f : Stand → Stand) (hf : ∀ s, (f s).plan = s.plan := by intro; rfl) :
    (h.modStand st f).plan k = h.plan k := by
  rw [Hall.modStand_plan h st k f id hf]; simp

theorem Hall.modStand_standing (f : Stand → Stand) : h.Standing (h.modStand st f) := rfl

/-- The end of a call leaves the plans. -/
theorem Hall.endCall_plan (o : CallOutcome) (loaded : Option ReelRef) : (h.endCall st o loaded).plan k = h.plan k := by
  cases hc : h.call st with
  | none => rw [Hall.endCall, hc]
  | some c =>
    rw [Hall.endCall_eq hc]
    have leaves := ((Hall.Steady.refl (h.callGone st)).callLeaves st o loaded c).notify (.callEnd st o loaded)
    rw [leaves.plan]
    have gone : (h.callGone st).stands = (h.modStand st fun s => { s with call := none }).stands := Hall.oweCeiling_stands _ _
    exact (Hall.plan_of_stands gone k).trans (h.modStand_plan_same st k _)

/-- A stand is given its settings. -/
theorem Hall.reconfigureStand_leaves (c : StandCfg) : h.Standing (h.reconfigureStand st c) ∧
    (h.reconfigureStand st c).plan k = if k = standKey st then (h.plan k).map fun x => (c, x.2) else h.plan k := by
  have record := (h.modStand st fun s => { s with cfg := c }).oweCeiling_record st.line
  have owed : h.Standing ((h.modStand st fun s => { s with cfg := c }).oweCeiling st.line) :=
    (h.modStand_standing st fun s => { s with cfg := c }).same record
  have plan : ((h.modStand st fun s => { s with cfg := c }).oweCeiling st.line).plan k =
      if k = standKey st then (h.plan k).map fun x => (c, x.2) else h.plan k :=
    (Hall.plan_of_stands (Hall.oweCeiling_stands _ _) k).trans (h.modStand_plan st k _ (fun x => (c, x.2)) fun _ => rfl)
  unfold Hall.reconfigureStand; dsimp only
  split
  · exact ⟨owed.same ((Follows.refl _).endCall st .planChanged none (by intro e; cases e)).record, (Hall.endCall_plan _ st k _ _).trans plan⟩
  · exact ⟨owed, plan⟩

theorem Hall.setMode_leaves (m : Mode) : h.Standing (h.setMode st m) ∧
    (h.setMode st m).plan k = if k = standKey st then (h.plan k).map fun x => (x.1, x.2.1, m) else h.plan k :=
  ⟨(h.modStand_standing st fun s => { s with mode := m }).same (h.setMode_follows st m).record,
    (Hall.plan_of_stands (h.setMode_stands st m) k).trans (h.modStand_plan st k _ (fun x => (x.1, x.2.1, m)) fun _ => rfl)⟩

/-- A stand's service and mode are set. -/
theorem Hall.setService_leaves (f : Stand → Stand) (on : Bool) (hf : ∀ s, (f s).plan = (s.cfg, on, s.mode)) (m : Mode) :
    h.Standing ((h.modStand st f).setMode st m) ∧
      ((h.modStand st f).setMode st m).plan k = if k = standKey st then (h.plan k).map fun x => (x.1, on, m) else h.plan k := by
  obtain ⟨standing, plan⟩ := Hall.setMode_leaves (h.modStand st f) st k m
  refine ⟨(h.modStand_standing st f).trans standing, plan.trans ?_⟩
  rw [Hall.modStand_plan h st k f (fun x => (x.1, on, x.2.2)) hf]
  split
  · rw [Option.map_map]; rfl
  · rfl

/-- A stand goes into service. -/
theorem Hall.intoService_leaves : h.Standing (h.intoService st) ∧
    (h.intoService st).plan k = if k = standKey st then (h.plan k).map fun x => (x.1, true, .unknown) else h.plan k :=
  h.setService_leaves st k _ true (fun _ => rfl) .unknown

/-- A mission is turned into a RETURN, its vehicle's abort recorded. -/
theorem Hall.abortsToReturn_leaves (v n : Nat) (c : AbortCause) :
    (((h.abort v c).turnToReturn n false).holdAborted v).record = h.record ∧
      (((h.abort v c).turnToReturn n false).holdAborted v).plan k = h.plan k := by
  have aborted : (h.abort v c).record = h.record := by
    unfold Hall.abort; extract_lets _ _ _ record; split
    · rfl
    · rw [Hall.notify_record]
      exact Hall.modVehicle_record_same _ _ fun _ => rfl
  have turned : ((h.abort v c).turnToReturn n false).record = (h.abort v c).record :=
    Hall.record_of_ground ((Hall.TraceBut.refl (h.abort v c)).turnToReturn n false).steps.same
  refine ⟨((Follows.refl _).holdAborted v).record.trans (turned.trans aborted), ?_⟩
  exact ((((Hall.Steady.refl h).abort v c).turnToReturn n false).holdAborted v).plan k

/-- The call of a stand that is out of service ends. -/
theorem Hall.endCall_record_unserved (out : ∀ s, h.stand st = some s → s.inService = false) :
    (h.endCall st .outOfService none).record = h.record := by
  cases hc : h.call st with
  | none => rw [Hall.endCall, hc]
  | some c =>
    obtain ⟨s, hs, call⟩ := Option.bind_eq_some_iff.mp hc
    refine ((Follows.refl h).endCall st .outOfService none fun _ served => ?_).record
    have on := served _ (tget_mem hs) (by rw [call]; rfl)
    rw [out s hs] at on
    cases on

/-- A stand goes out of service. -/
theorem Hall.outOfService_leaves : h.Standing (h.outOfService st) ∧
    (h.outOfService st).plan k = if k = standKey st then (h.plan k).map fun x => (x.1, false, .outOfService) else h.plan k := by
  obtain ⟨g, hg⟩ : ∃ g, g = ((h.modStand st fun s => { s with inService := false }).setMode st .outOfService).lower
    (standFault .standStarved st) := ⟨_, rfl⟩
  have standing : h.Standing g := by
    rw [hg]
    exact ((h.setService_leaves st k _ false (fun _ => rfl) .outOfService).1).same (Hall.lower_record _ .standStarved (by decide) _)
  have plan (j : Nat) : g.plan j = if j = standKey st then (h.plan j).map fun x => (x.1, false, .outOfService) else h.plan j := by
    rw [hg, Hall.plan_of_stands (Hall.lower_stands _ _)]
    exact (h.setService_leaves st j _ false (fun _ => rfl) .outOfService).2
  have out (s : Stand) (hs : g.stand st = some s) : s.inService = false := by
    have e := plan (standKey st)
    rw [if_pos rfl, Hall.plan, tget_stands_of hs] at e
    obtain ⟨x, -, hx⟩ := Option.map_eq_some_iff.mp e.symm
    exact (congrArg (fun y => y.2.1) hx).symm
  obtain ⟨w, hw⟩ : ∃ w, w = g.endCall st .outOfService none := ⟨_, rfl⟩
  have wStanding : h.Standing w := standing.same (by rw [hw, g.endCall_record_unserved st out])
  have wPlan : w.plan k = g.plan k := by rw [hw]; exact g.endCall_plan st k _ _
  have ends : h.outOfService st = Hall.endPrep st (match w.handover st with
      | some x =>
        if x.kind = HandoverKind.load ∧ x.phase ≠ Phase.granted then
          ((w.abort x.vehicle .standOutOfService).turnToReturn x.mission false).holdAborted x.vehicle
        else w
      | none => w) := by rw [hw, hg]; rfl
  have prepares (u : Hall) : (u.endPrep st).record = u.record ∧ (u.endPrep st).plan k = u.plan k :=
    ⟨((Follows.refl u).endPrep st).record,
      Hall.plan_of_stands (Hall.still_field (Hall.endPrep_still u st) Hall.stands fun _ => rfl) k⟩
  rw [ends, ← plan, ← wPlan]
  split
  · rename_i x _
    split
    · obtain ⟨record, same⟩ := w.abortsToReturn_leaves k x.vehicle x.mission .standOutOfService
      exact ⟨wStanding.same ((prepares _).1.trans record), (prepares _).2.trans same⟩
    · exact ⟨wStanding.same (prepares _).1, (prepares _).2⟩
  · exact ⟨wStanding.same (prepares _).1, (prepares _).2⟩

/-- A stand in or out of service as its image says. -/
theorem Hall.reloadService_leaves (on : Bool) : h.Standing (h.reloadService st on) ∧
    (h.reloadService st on).plan k = if k = standKey st then (h.plan k).map fun x => (x.1, Mode.served on x.2) else h.plan k := by
  have stays (same : ∀ s, h.stand st = some s → Mode.served on (s.inService, s.mode) = (s.inService, s.mode)) :
      h.plan k = if k = standKey st then (h.plan k).map fun x => (x.1, Mode.served on x.2) else h.plan k := by
    split
    · rename_i e; subst e
      unfold Hall.plan
      cases hs : tget h.stands (standKey st) with
      | none => rfl
      | some s => exact congrArg (fun y => some (s.cfg, y)) (same s hs).symm
    · rfl
  have becomes (i : Bool) (m : Mode) (same : ∀ s, h.stand st = some s → Mode.served on (s.inService, s.mode) = (i, m)) :
      (if k = standKey st then (h.plan k).map fun x => (x.1, i, m) else h.plan k) =
        if k = standKey st then (h.plan k).map fun x => (x.1, Mode.served on x.2) else h.plan k := by
    split
    · rename_i e; subst e
      unfold Hall.plan
      cases hs : tget h.stands (standKey st) with
      | none => rfl
      | some s => exact congrArg (fun y => some (s.cfg, y)) (same s hs).symm
    · rfl
  unfold Hall.reloadService
  cases hs : h.stand st with
  | none => exact ⟨rfl, stays fun s h => by rw [hs] at h; cases h⟩
  | some s =>
    dsimp only
    have isMode {P : Stand → Prop} (hP : P s) : ∀ x, h.stand st = some x → P x := fun x hx => by
      rw [hs] at hx; cases hx; exact hP
    split
    · rename_i isOn
      split
      · rename_i mode
        obtain ⟨standing, plan⟩ := h.intoService_leaves st k
        exact ⟨standing, plan.trans (becomes true .unknown (isMode (by simp [Mode.served, isOn, mode])))⟩
      · rename_i mode
        exact ⟨rfl, stays (isMode (by simp [Mode.served, isOn, mode]))⟩
    · rename_i isOff
      split
      · rename_i mode
        exact ⟨rfl, stays (isMode (by simp only [Mode.served, isOff, if_pos mode]; rfl))⟩
      · rename_i mode
        obtain ⟨standing, plan⟩ := h.outOfService_leaves st k
        exact ⟨standing, plan.trans (becomes false .outOfService (isMode (by simp only [Mode.served, isOff, if_neg, mode, not_false_eq_true]; rfl)))⟩

/-- What a reload makes of one stand. -/
theorem Hall.reloadStand_leaves (p : Nat × (StandCfg × Bool)) (key : standKey (standOfKey p.1) = p.1) : h.Standing (h.reloadStand p) ∧
    (h.reloadStand p).plan k = if k = p.1 then p.2.1.plans p.2.2 (h.plan k) else h.plan k := by
  unfold Hall.reloadStand
  cases hs : tget h.stands p.1 with
  | some s =>
    rw [Option.isSome_some, if_pos rfl]
    obtain ⟨standing, plan⟩ := h.reconfigureStand_leaves (standOfKey p.1) k p.2.1
    obtain ⟨standing', plan'⟩ := (h.reconfigureStand (standOfKey p.1) p.2.1).reloadService_leaves (standOfKey p.1) k p.2.2
    refine ⟨standing.trans standing', ?_⟩
    rw [plan', plan, key]
    split
    · rename_i e; subst e
      rw [Hall.plan, hs]; rfl
    · rfl
  | none =>
    rw [Option.isSome_none, if_neg Bool.false_ne_true]
    refine ⟨rfl, ?_⟩
    unfold Hall.plan
    dsimp only
    rw [tget_tput]
    split
    · rename_i e; subst e
      rw [hs]; rfl
    · rfl

/-- The stands of a reload. -/
theorem Hall.reloadStands_leaves {t : Table (StandCfg × Bool)} (sorted : tsorted t = true)
    (keys : ∀ p ∈ t, standKey (standOfKey p.1) = p.1) : h.Standing (t.foldl Hall.reloadStand h) ∧
      (t.foldl Hall.reloadStand h).plan k = (tget t k).elim (h.plan k) fun x => x.1.plans x.2 (h.plan k) := by
  have fold (l : Table (StandCfg × Bool)) (hl : ∀ p ∈ l, standKey (standOfKey p.1) = p.1) (g : Hall) :
      g.Standing (l.foldl Hall.reloadStand g) := by
    induction l generalizing g with
    | nil => exact rfl
    | cons p l ih => exact (g.reloadStand_leaves 0 p (hl p List.mem_cons_self)).1.trans (ih (fun q hq => hl q (List.mem_cons_of_mem _ hq)) _)
  exact ⟨fold t keys h,
    foldl_table (view := Hall.plan) (F := fun x => x.1.plans x.2) (fun p hp s k => (s.reloadStand_leaves k p (keys p hp)).2) sorted h k⟩

end

end Sys2Proof.Machine
end

section
/-! PROOF. Reload Configuration and the resets (O45). -/

-- One theorem after another, as in the laws: elaborated all at once they ask for more threads than the check has room for.
set_option Elab.async false

namespace Sys2Proof.Machine

/-! #### The grades (R23, R41) -/

section
variable (h : Hall) (img : Image)

theorem Hall.gradeNamed_eq (g : Nat) : h.gradeNamed g =
    (h.record.stands.any (fun p => decide (p.2.1.grade = g)) || h.record.aisles.any fun p => decide (p.2 = g)) := by
  simp [Hall.gradeNamed, Hall.record, tview, Function.comp_def]

theorem Hall.gradeUsed_eq (g : Nat) : (h.reels.any fun p => decide (p.2.grade = g)) = h.record.reelGrades.any fun p => decide (p.2 = g) := by
  simp [Hall.record, tview, Function.comp_def]

/-- The table a function of the numbers below `n` fills. -/
theorem tget_range_filterMap {α : Type} (f : Nat → Option α) {n g : Nat} (hg : g < n) :
    tget ((List.range n).filterMap fun i => (f i).map fun x => (i, x)) g = f g := by
  have keys (l : List Nat) (out : g ∉ l) : tget (l.filterMap fun i => (f i).map fun x => (i, x)) g = none := by
    cases hx : tget (l.filterMap fun i => (f i).map fun x => (i, x)) g with
    | none => rfl
    | some x =>
      obtain ⟨i, hi, e⟩ := List.mem_filterMap.mp (tget_mem hx)
      obtain ⟨y, -, e⟩ := Option.map_eq_some_iff.mp e
      cases e
      exact absurd hi out
  have list (l : List Nat) (mem : g ∈ l) : tget (l.filterMap fun i => (f i).map fun x => (i, x)) g = f g := by
    induction l with
    | nil => cases mem
    | cons i l ih =>
      by_cases e : i = g
      · subst e
        cases hf : f i with
        | none =>
          rw [List.filterMap_cons_none (by rw [hf]; rfl)]
          by_cases later : i ∈ l
          · rw [ih later, hf]
          · exact keys l later
        | some x =>
          rw [List.filterMap_cons_some (b := (i, x)) (by rw [hf]; rfl), tget_cons, if_pos rfl]
      · have rest := ih ((List.mem_cons.mp mem).resolve_left fun k => e k.symm)
        cases hf : f i with
        | none => rw [List.filterMap_cons_none (by rw [hf]; rfl), rest]
        | some x => rw [List.filterMap_cons_some (b := (i, x)) (by rw [hf]; rfl), tget_cons, if_neg e, rest]
  exact list _ (List.mem_range.mpr hg)

/-- Only the grade table is replaced. -/
theorem Hall.reloadGrades_leaves : (h.reloadGrades img).record = { h.record with grades := (h.reloadGrades img).record.grades } ∧
    ∀ g, g ≤ 15 → tget (h.reloadGrades img).record.grades g = h.reloadedGrade img (h.reels.any fun p => decide (p.2.grade = g)) g := by
  have lowered (x : Hall) : (x.lower ⟨.stockLow, .none⟩).record = x.record := x.lower_record .stockLow (by decide) _
  have grades (g : Nat) (hg : g ≤ 15) : tget ((List.range 16).filterMap fun g =>
      (h.reloadedGrade img (h.reels.any fun p => decide (p.2.grade = g)) g).map fun x => (g, x)) g =
        h.reloadedGrade img (h.reels.any fun p => decide (p.2.grade = g)) g :=
    tget_range_filterMap (fun g => h.reloadedGrade img (h.reels.any fun p => decide (p.2.grade = g)) g) (by omega)
  unfold Hall.reloadGrades; dsimp only
  split
  · exact ⟨rfl, grades⟩
  · rw [lowered]
    exact ⟨rfl, grades⟩

end

/-! #### The reload as a whole (R219) -/

/-- The hall of a reload after the bays and the zones. -/
def Hall.reloadGround (img : Image) (h : Hall) : Hall :=
  (Hall.reloadBays img { h with params := img.params, massTolerance := img.massTolerance, fromDefaults := false }).reloadZones img

/-- Then after the vehicles. -/
def Hall.reloadFleet (img : Image) (h : Hall) : Hall := vehicleNumbers.foldl (Hall.reloadVehicle img) (h.reloadGround img)

/-- Then after the lines. -/
def Hall.reloadFeed (img : Image) (h : Hall) : Hall := img.lines.foldl Hall.reloadLine (h.reloadFleet img)

/-- Then after the stands. -/
def Hall.reloadPlans (img : Image) (h : Hall) : Hall := img.stands.foldl Hall.reloadStand (h.reloadFeed img)

/-- Then after the grades, the ceilings and the holds. -/
def Hall.reloadTables (img : Image) (h : Hall) : Hall :=
  let h := ((h.reloadPlans img).reloadGrades img).oweAll
  (h.lines.map (·.1)).foldl (fun h n => h.evalHold n) h

theorem Hall.reload_eq (img : Image) (h : Hall) : h.reload img = (h.reloadTables img).lower ⟨.configDefaults, .none⟩ := rfl

section
variable (h : Hall) (img : Image)

theorem Hall.reloadGround_record : (h.reloadGround img).record = { h.record with
    params := img.params, massTolerance := img.massTolerance, fromDefaults := false, aisles := img.aisles
    bays := (h.reloadBays img).record.bays, zones := tview Zone.cfg (h.reloadedZones img) } := by
  obtain ⟨g, hg⟩ : ∃ g, g = Hall.reloadBays img { h with params := img.params, massTolerance := img.massTolerance, fromDefaults := false } :=
    ⟨_, rfl⟩
  have bays : g.record = { h.record with
      params := img.params, massTolerance := img.massTolerance, fromDefaults := false, aisles := img.aisles
      bays := (h.reloadBays img).record.bays } := by
    have table : g.bays = (h.reloadBays img).bays := by rw [hg, Hall.reloadBays_bays, Hall.reloadBays_bays]; rfl
    have same : g.record.bays = (h.reloadBays img).record.bays := congrArg (tview fun x : Bay => (⟨x.kind, x.blocked⟩ : BayCfg)) table
    rw [← same, hg, Hall.reloadBays_record]
    rfl
  have zones : g.reloadedZones img = h.reloadedZones img := by
    have tables : g.zones = h.zones ∧ g.missions = h.missions := by
      rw [hg, Hall.reloadBays, Hall.push_zones, Hall.push_missions]
      exact ⟨rfl, rfl⟩
    have keeps : g.keepsZone = h.keepsZone := by unfold Hall.keepsZone; rw [tables.2]
    unfold Hall.reloadedZones; rw [tables.1, keeps]
  have after : h.reloadGround img = g.reloadZones img := by rw [hg]; rfl
  rw [after, Hall.reloadZones_record, zones, bays]

theorem Hall.reloadGround_vehicles : (h.reloadGround img).vehicles = h.vehicles := by
  simp [Hall.reloadGround, Hall.reloadZones, Hall.reloadBays]

theorem Hall.reloadGround_stands : (h.reloadGround img).stands = h.stands := by
  simp [Hall.reloadGround, Hall.reloadZones, Hall.reloadBays]

theorem Hall.reloadTables_record : (h.reloadTables img).record = ((h.reloadPlans img).reloadGrades img).record := by
  have owed : ((h.reloadPlans img).reloadGrades img).oweAll.record = ((h.reloadPlans img).reloadGrades img).record :=
    Hall.foldl_record _ (fun g n => g.oweCeiling_record n) _
  exact (Hall.foldl_record _ (fun g n => g.evalHold_record n) _).trans owed

theorem Hall.reloadFleet_record : (h.reloadFleet img).record =
    { (h.reloadGround img).record with enrolled := (h.reloadFleet img).record.enrolled } :=
  ((h.reloadGround img).reloadVehicles_leaves 0 img).1

variable {img}

theorem Hall.reloadFeed_record (lines : tsorted img.lines = true) : (h.reloadFeed img).record =
    { (h.reloadFleet img).record with lines := (h.reloadFeed img).record.lines, counts := (h.reloadFeed img).record.counts } :=
  ((h.reloadFleet img).reloadLines_leaves 0 lines).1

theorem Hall.reloadPlans_record (stands : tsorted img.stands = true) (keys : ∀ p ∈ img.stands, standKey (standOfKey p.1) = p.1) :
    (h.reloadPlans img).record = { (h.reloadFeed img).record with stands := (h.reloadPlans img).record.stands } :=
  ((h.reloadFeed img).reloadStands_leaves 0 stands keys).1

section
variable (lines : tsorted img.lines = true) (stands : tsorted img.stands = true)
  (keys : ∀ p ∈ img.stands, standKey (standOfKey p.1) = p.1)
include lines stands keys

/-- Each table of the configuration is as its own part of the reload leaves it. -/
theorem Hall.reload_record : (h.reload img).record = { (h.reloadGround img).record with
    enrolled := (h.reloadFleet img).record.enrolled, lines := (h.reloadFeed img).record.lines, counts := (h.reloadFeed img).record.counts
    stands := (h.reloadPlans img).record.stands, grades := ((h.reloadPlans img).reloadGrades img).record.grades
    defaults := (h.reload img).fault ⟨.configDefaults, .none⟩ } := by
  rw [Hall.reload_eq, Hall.lower_record_but, Hall.reloadTables_record, ((h.reloadPlans img).reloadGrades_leaves img).1,
    h.reloadPlans_record stands keys, h.reloadFeed_record lines, h.reloadFleet_record]

/-- CONFIG_DEFAULTS is cleared, with the mark of running on defaults (log 58). -/
theorem Hall.reload_defaults (sound : FaultsSound h.faults) : ((h.reload img).fault ⟨.configDefaults, .none⟩).active = false := by
  have same : (h.reloadTables img).record.defaults = h.record.defaults := by
    rw [Hall.reloadTables_record, ((h.reloadPlans img).reloadGrades_leaves img).1, h.reloadPlans_record stands keys,
      h.reloadFeed_record lines, h.reloadFleet_record, h.reloadGround_record]
  have same : (h.reloadTables img).fault ⟨.configDefaults, .none⟩ = h.fault ⟨.configDefaults, .none⟩ := same
  rw [Hall.reload_eq]
  unfold Hall.lower
  split
  · rename_i active
    rw [same] at active ⊢
    rw [Hall.fault_changeFault (e := { h.fault ⟨.configDefaults, .none⟩ with active := false })
      (FaultEntry.ne_clear_of_latched (sound.latched active))]
  · rename_i inactive
    simpa using inactive

end

end
/-! #### What a reload leaves (R219) -/

section
variable {h w : Hall} {img : Image} (lines : tsorted img.lines = true) (stands : tsorted img.stands = true)
  (keys : ∀ p ∈ img.stands, standKey (standOfKey p.1) = p.1) (same : w.record = (h.reload img).record)
include lines stands keys same

theorem Hall.reloaded_record : w.record = { h.record with
    params := img.params, massTolerance := img.massTolerance, fromDefaults := false, aisles := img.aisles
    bays := (h.reloadBays img).record.bays, zones := tview Zone.cfg (h.reloadedZones img)
    enrolled := (h.reloadFleet img).record.enrolled, lines := (h.reloadFeed img).record.lines, counts := (h.reloadFeed img).record.counts
    stands := (h.reloadPlans img).record.stands, grades := ((h.reloadPlans img).reloadGrades img).record.grades
    defaults := (h.reload img).fault ⟨.configDefaults, .none⟩ } := by
  rw [same, h.reload_record lines stands keys, h.reloadGround_record]

/-- The tables that are the image's own. -/
theorem Hall.reloaded_fields : w.params = img.params ∧ w.massTolerance = img.massTolerance ∧ w.aisles = img.aisles ∧ w.fromDefaults = false := by
  have e := Hall.reloaded_record lines stands keys same
  exact ⟨congrArg Record.params e, congrArg Record.massTolerance e, congrArg Record.aisles e, congrArg Record.fromDefaults e⟩

theorem Hall.reloaded_defaults (sound : FaultsSound h.faults) : (w.fault ⟨.configDefaults, .none⟩).active = false := by
  have e : w.fault ⟨.configDefaults, .none⟩ = (h.reload img).fault ⟨.configDefaults, .none⟩ := congrArg Record.defaults same
  rw [e]; exact h.reload_defaults lines stands keys sound

/-- A grade is as R23 has it, of the reels in the register and of the plans that name it now. -/
theorem Hall.reloaded_grade (g : Nat) (hg : g ≤ 15) : ∃ p : Hall, p.grades = h.grades ∧
    p.gradeNamed g = ((w.stands.any fun p => decide (p.2.cfg.grade = g)) || w.aisles.any fun p => decide (p.2 = g)) ∧
    tget w.grades g = p.reloadedGrade img (h.reels.any fun p => decide (p.2.grade = g)) g := by
  have e := Hall.reloaded_record lines stands keys same
  have plans : (h.reloadPlans img).record = { h.record with
      params := img.params, massTolerance := img.massTolerance, fromDefaults := false, aisles := img.aisles
      bays := (h.reloadBays img).record.bays, zones := tview Zone.cfg (h.reloadedZones img)
      enrolled := (h.reloadFleet img).record.enrolled, lines := (h.reloadFeed img).record.lines
      counts := (h.reloadFeed img).record.counts, stands := (h.reloadPlans img).record.stands } := by
    rw [h.reloadPlans_record stands keys, h.reloadFeed_record lines, h.reloadFleet_record, h.reloadGround_record]
  have used : ((h.reloadPlans img).reels.any fun p => decide (p.2.grade = g)) = h.reels.any fun p => decide (p.2.grade = g) := by
    rw [Hall.gradeUsed_eq, Hall.gradeUsed_eq, plans]
  have grades : w.grades = ((h.reloadPlans img).reloadGrades img).record.grades := congrArg Record.grades e
  refine ⟨h.reloadPlans img, congrArg Record.grades plans, ?_, ?_⟩
  · have wNamed : w.gradeNamed g = (h.reloadPlans img).gradeNamed g := by
      rw [Hall.gradeNamed_eq, Hall.gradeNamed_eq, e, plans]
    exact wNamed.symm
  · rw [grades, ((h.reloadPlans img).reloadGrades_leaves img).2 g hg, used]

theorem Hall.reloaded_bay (sorted : tsorted h.bays = true) (listed : tsorted img.bays = true) (k : Nat) :
    (tget w.bays k).map (fun x => (x.kind, x.blocked)) =
      (((tget h.bays k).filter Bay.kept).map fun x => (x.kind, (x.reblocked img k).blocked)).or
        ((tget img.bays k).map fun x => (x.kind, x.blocked)) := by
  have e := Hall.reloaded_record lines stands keys same
  have e : w.record.bays = (h.reloadBays img).record.bays := by rw [e]
  have bay := congrArg (tget · k) e
  simp only [h.reloadBays_bay img sorted listed k] at bay
  have shown : (tget w.bays k).map (fun x => (x.kind, x.blocked)) =
      (tget w.record.bays k).map fun c : BayCfg => (c.kind, c.blocked) := by
    rw [Hall.record, tget_tview, Option.map_map]; rfl
  rw [shown, bay]
  cases (tget h.bays k).filter Bay.kept <;> simp

theorem Hall.reloaded_zone (k : Nat) : (w.zone k).map Zone.cfg = (tget (h.reloadedZones img) k).map Zone.cfg := by
  have e : tview Zone.cfg w.zones = tview Zone.cfg (h.reloadedZones img) :=
    congrArg Record.zones (Hall.reloaded_record lines stands keys same)
  rw [Hall.zone, ← tget_tview, e, tget_tview]

/-- A vehicle is commissioned when the image says so, or it was and has a mission or a load. -/
theorem Hall.reloaded_vehicle {v : Nat} (hv : v ∈ vehicleNumbers) (known : (tget h.vehicles v).isSome) :
    (w.vehicle v).commissioned = true ↔ v ∈ img.commissioned ∨
      ((h.vehicle v).commissioned = true ∧ ((h.vehicle v).mission.isSome ∨ (h.vehicle v).load.isSome)) := by
  obtain ⟨x, hx⟩ := Option.isSome_iff_exists.mp known
  have e : tview Vehicle.commissioned w.vehicles = (h.reloadFleet img).record.enrolled :=
    congrArg Record.enrolled (Hall.reloaded_record lines stands keys same)
  have fleet : (h.reloadFleet img).roster v = (h.roster v).map (img.enrols v) := by
    have seen := ((h.reloadGround img).reloadVehicles_leaves v img).2.2 hv
    have before : (h.reloadGround img).roster v = h.roster v := by unfold Hall.roster; rw [h.reloadGround_vehicles img]
    rw [← before]
    exact seen
  have on : (tget w.vehicles v).map Vehicle.commissioned = some (img.enrols v x.roster).1 := by
    have shown : tget (h.reloadFleet img).record.enrolled v = ((h.reloadFleet img).roster v).map (·.1) := by
      rw [Hall.record, tget_tview, Hall.roster, Option.map_map]; rfl
    rw [← tget_tview, e, shown, fleet, Hall.roster, hx]
    rfl
  obtain ⟨y, hy, same⟩ := Option.map_eq_some_iff.mp on
  rw [Hall.vehicle, Hall.vehicle, hy, hx, Option.getD_some, Option.getD_some, same]
  unfold Image.enrols Vehicle.roster
  by_cases listed : v ∈ img.commissioned <;> simp [listed]

theorem Hall.reloaded_feed (n : Nat) : ((w.line n).map (fun l => (l.cfg, l.hostCeiling)), (w.count n).map LineCount.cfg) =
    (tget img.lines n).elim ((h.line n).map (fun l => (l.cfg, l.hostCeiling)), (h.count n).map LineCount.cfg) fun x =>
      x.1.feeds x.2 ((h.line n).map (fun l => (l.cfg, l.hostCeiling)), (h.count n).map LineCount.cfg) := by
  have shown (g : Hall) : g.feed n = ((g.line n).map (fun l => (l.cfg, l.hostCeiling)), (g.count n).map LineCount.cfg) :=
    Prod.ext (tget_tview (fun l : Line => (l.cfg, l.hostCeiling)) g.lines n) (tget_tview LineCount.cfg g.counts n)
  have e := Hall.reloaded_record lines stands keys same
  have after : w.feed n = (h.reloadFeed img).feed n := by unfold Hall.feed; rw [e]
  have before : (h.reloadFleet img).feed n = h.feed n := by unfold Hall.feed; rw [h.reloadFleet_record, h.reloadGround_record]
  rw [← shown w, ← shown h, after, ← before]
  exact ((h.reloadFleet img).reloadLines_leaves n lines).2.2

/-- The stands, of a hall whose stands are out of service in that mode alone. -/
theorem Hall.reloaded_plan (k : Nat) : (tget w.stands k).map (fun x => (x.cfg, x.inService)) =
    ((tget img.stands k).elim (h.plan k) fun x => x.1.plans x.2 (h.plan k)).map fun x => (x.1, x.2.1) := by
  have e : tview (fun x : Stand => (x.cfg, x.inService)) w.stands = tview (fun x : Stand => (x.cfg, x.inService)) (h.reloadPlans img).stands :=
    congrArg Record.stands (Hall.reloaded_record lines stands keys same)
  have before : (h.reloadFeed img).plan k = h.plan k := by
    refine Hall.plan_of_stands ?_ k
    have feed : (h.reloadFeed img).stands = (h.reloadFleet img).stands := ((h.reloadFleet img).reloadLines_leaves 0 lines).2.1
    have fleet : (h.reloadFleet img).stands = (h.reloadGround img).stands := ((h.reloadGround img).reloadVehicles_leaves 0 img).2.1
    rw [feed, fleet, h.reloadGround_stands]
  have plan : (h.reloadPlans img).plan k = (tget img.stands k).elim ((h.reloadFeed img).plan k) fun x => x.1.plans x.2 ((h.reloadFeed img).plan k) :=
    ((h.reloadFeed img).reloadStands_leaves k stands keys).2
  rw [← tget_tview (fun x : Stand => (x.cfg, x.inService)), e, tget_tview, ← before, ← plan, Hall.plan, Option.map_map]
  rfl

end

/-- A stand of the image: in service as it says, and when it is SPLICING. -/
theorem Mode.served_on {x : Stand} (rule : x.mode = .outOfService ↔ x.inService = false) (on : Bool) :
    (Mode.served on (x.inService, x.mode)).1 = (on || decide (x.mode = .splicing)) := by
  unfold Mode.served
  cases on
  · by_cases out : x.mode = .outOfService
    · simp [out, rule.mp out]
    · have served : x.inService = true := by simpa using mt rule.mpr out
      by_cases splicing : x.mode = .splicing <;> simp [out, splicing, served]
  · by_cases out : x.mode = .outOfService
    · simp [out]
    · have served : x.inService = true := by simpa using mt rule.mpr out
      simp [out, served]
/-! ### The requests (R219) -/

section
variable {s : State} {q : Req}

/-- A fleet or a line that is not stopped refuses a reload. -/
theorem exec_reload_refused (ok : q.ok 0x37) (idle : s.store.save = none)
    (runs : s.hall.allStop = false ∨ ∃ p ∈ s.hall.lines, p.2.run ≠ .stopped) :
    exec (.reloadConfiguration q) s = .next (s.reply q 0x37 .state .none) := by
  have running : (!s.hall.allStop || s.hall.lines.any fun p => decide (p.2.run ≠ .stopped)) = true := by
    rcases runs with stop | ⟨p, mem, run⟩
    · rw [stop]; rfl
    · rw [Bool.or_eq_true, List.any_eq_true]
      exact .inr ⟨p, mem, by simpa using run⟩
  have refused : s.hall.takeReload s.store = ⟨s.hall, .state, .none⟩ := by
    unfold Hall.takeReload
    rw [idle, if_neg (by simp), if_pos running]
    rfl
  exact congrArg Host.Outcome.next (State.request_tells ok refused)

section
variable (ok : q.ok 0x37) (idle : s.store.save = none) (stop : s.hall.allStop = true)
  (stopped : ∀ p ∈ s.hall.lines, p.2.run = .stopped)
include ok idle stop stopped

omit ok in
theorem Hall.takeReload_image {b : Bank} (current : s.store.current = some b) :
    s.hall.takeReload s.store = (s.hall.reload b.image).accept (.number b.generation) := by
  have calm : ¬((!s.hall.allStop || s.hall.lines.any fun p => decide (p.2.run ≠ .stopped)) = true) := by
    simpa [stop] using fun a b mem => stopped (a, b) mem
  unfold Hall.takeReload
  rw [idle, if_neg (by simp), if_neg calm, current]

theorem exec_reload_no_image (none : s.store.current = .none) :
    exec (.reloadConfiguration q) s = .next (s.reply q 0x37 .notFound .none) := by
  have calm : ¬((!s.hall.allStop || s.hall.lines.any fun p => decide (p.2.run ≠ .stopped)) = true) := by
    simpa [stop] using fun a b mem => stopped (a, b) mem
  have refused : s.hall.takeReload s.store = ⟨s.hall, .notFound, .none⟩ := by
    unfold Hall.takeReload
    rw [idle, if_neg (by simp), if_neg calm, none]
    rfl
  exact congrArg Host.Outcome.next (State.request_tells ok refused)

/-- The image is loaded, and the consequences of that change no record. -/
theorem exec_reload_taken {b : Bank} (current : s.store.current = some b) : ∃ t, exec (.reloadConfiguration q) s = .next t ∧
    s.Answers t q 0x37 .ok (.number b.generation) ∧ t.hall.record = (s.hall.reload b.image).record := by
  obtain ⟨answers, hall⟩ := State.request_finishes (q := q) (s := s) (f := fun h => h.takeReload s.store) ok
    (Hall.takeReload_image idle stop stopped current)
  exact ⟨_, rfl, answers, by rw [hall]; exact Hall.record_of_ground (Hall.finish_steps _).same⟩

end

end
/-- Settles O45: a relation kept by every step of a restart gives what a warm restart leaves; for a reload, each part of it changes its own
tables of the configuration's records, one key at a time, and leaves the others. -/
theorem reloadAndResetsSetTheState : Obligations.ReloadAndResetsSetTheState := by
  refine ⟨fun s q ok idle stop stopped => ⟨fun b current sound image keys fleet served counted => ?_, exec_reload_no_image ok idle stop stopped⟩,
    fun s q ok idle runs => exec_reload_refused ok idle runs,
    fun s q mode ok => ⟨exec_restart_taken ok s mode, fun free => exec_restart_waits ok free mode⟩,
    fun s mode => State.restartDue_iff,
    fun s => ⟨fun cause strap b due current => exec_coldReset_loaded (State.coldDue_of due) current strap,
      fun cause strap due => exec_coldReset_not_due (State.not_coldDue_of due) strap,
      fun cause due => exec_warmRestart_not_due (State.not_warmDue_of due),
      fun cause due => exec_warmRestart_due (State.warmDue_of due)⟩⟩
  obtain ⟨faults, bays, zones, -, -, -, -⟩ := sound
  obtain ⟨imgBays, imgZones, lines, stands⟩ := image
  obtain ⟨t, taken, answers, same⟩ := exec_reload_taken ok idle stop stopped current
  obtain ⟨params, tolerance, aisles, marked⟩ := Hall.reloaded_fields lines stands keys same
  refine ⟨t, taken, answers, params, tolerance, aisles, marked, Hall.reloaded_defaults lines stands keys same faults.faults,
    fun g hg => ?_, fun k => ?_, ⟨fun k x kept => ?_, fun k c free => ?_⟩, fun v lo hi => ?_, fun n c k listed => ?_,
    fun n unlisted => ?_, fun k c on listed => ?_, fun k unlisted => ?_⟩
  · obtain ⟨p, grades, named, grade⟩ := Hall.reloaded_grade lines stands keys same g hg
    rw [grade, Hall.reloadedGrade, grades, named] <;> rfl
  · rw [Hall.reloaded_bay lines stands keys same bays imgBays k]
    change Option.or (((tget s.hall.bays k).filter Bay.kept).map _) _ = match (tget s.hall.bays k).filter Bay.kept with
      | some x => some (x.kind, ((tget b.image.bays k).map (·.blocked)).getD x.blocked)
      | none => (tget b.image.bays k).map fun x => (x.kind, x.blocked)
    cases (tget s.hall.bays k).filter Bay.kept <;> rfl
  · rw [Hall.reloaded_zone lines stands keys same, Hall.reloadedZones_kept zones imgZones kept]
    rfl
  · have loaded := Hall.reloadedZones_loaded zones imgZones free c
    have attached : (∃ a, t.hall.zone c.attach = some a ∧ ∃ p, a.cfg.use = .loop p) ↔
        ∃ a, tget (s.hall.reloadedZones b.image) c.attach = some a ∧ ∃ p, a.cfg.use = .loop p := by
      have cfg := Hall.reloaded_zone lines stands keys same c.attach
      cases hz : t.hall.zone c.attach <;> cases hr : tget (s.hall.reloadedZones b.image) c.attach <;> simp_all
    rw [Hall.reloaded_zone lines stands keys same, attached]
    exact loaded
  · have hv : v ∈ vehicleNumbers := List.mem_map.mpr ⟨v - 1, List.mem_range.mpr (by omega), by omega⟩
    exact Hall.reloaded_vehicle lines stands keys same hv (fleet v hv)
  · have feed := Hall.reloaded_feed lines stands keys same n
    rw [listed] at feed
    have both := counted n
    cases hl : s.hall.line n with
    | none =>
      rw [hl] at feed
      exact ⟨congrArg Prod.snd feed, congrArg Prod.fst feed⟩
    | some l =>
      obtain ⟨y, hy⟩ := Option.isSome_iff_exists.mp (both.mp (Option.isSome_iff_exists.mpr ⟨l, hl⟩))
      have hy : s.hall.count n = some y := hy
      rw [hl, hy] at feed
      exact ⟨congrArg Prod.snd feed, congrArg Prod.fst feed⟩
  · have feed := Hall.reloaded_feed lines stands keys same n
    rw [unlisted, Option.elim_none] at feed
    have line := congrArg (Option.map Prod.fst) (congrArg Prod.fst feed)
    have count := congrArg Prod.snd feed
    simp only [Option.map_map] at line
    exact ⟨line, count⟩
  · rw [Hall.reloaded_plan lines stands keys same k, listed]
    unfold Hall.plan
    cases hs : tget s.hall.stands k with
    | none => simp [StandCfg.plans]
    | some x =>
      exact congrArg (fun i => some (c, i)) (Mode.served_on (served _ (tget_mem hs)) on)
  · rw [Hall.reloaded_plan lines stands keys same k, unlisted, Option.elim_none, Hall.plan, Option.map_map]
    rfl

end Sys2Proof.Machine
end

section
/-! PROOF. Bays, aisles and zones: what their queries tell, and what Set Bay, Set Aisle and Set Zone make of them (O15, O30). -/

-- One theorem after another, as in the laws: elaborated all at once they ask for more threads than the check has room for.
set_option Elab.async false

namespace Sys2Proof.Machine

/-! ### What the queries tell (R59) -/

theorem bayInRange_iff {b : BayAddr} : bayInRange b = true ↔ 1 ≤ b.aisle ∧ b.aisle ≤ 16 ∧ 1 ≤ b.pos ∧ b.pos ≤ 48 := by
  simp only [bayInRange, Bool.and_eq_true, inRange_iff]
  tauto

/-- Settles O15: Query Bay by the range of its address; the rows of Query Aisles are the counts the statement writes out. -/
theorem bayQueriesTell : Obligations.BayQueriesTell := by
  intro s q
  refine ⟨fun ok b => ?_, fun ok => congrArg Host.Outcome.next (State.request_tells ok rfl)⟩
  refine congrArg Host.Outcome.next ((State.request_taken ok s _).trans ?_)
  by_cases inside : 1 ≤ b.aisle ∧ b.aisle ≤ 16 ∧ 1 ≤ b.pos ∧ b.pos ≤ 48
  · rw [if_pos inside, Hall.tellBay, if_pos (bayInRange_iff.mpr inside)]
    rfl
  · rw [if_neg inside, Hall.tellBay, if_neg (mt bayInRange_iff.mp inside)]
    rfl

/-! ### Set Bay (R49) -/

theorem Bay.free_iff {x : Bay} : x.free = true ↔ x.occupant = none ∧ x.reserved = none ∧ x.blocked = false := by
  simp only [Bay.free, Bool.and_eq_true, Bool.not_eq_true', Option.isNone_iff_eq_none]
  tauto

theorem Bay.becomesFree_iff {x : Bay} {was : Option Bay} :
    x.becomesFree was = true ↔ x.free = true ∧ ∀ y, was = some y → ¬(y.free = true ∧ y.kind = x.kind) := by
  cases was with
  | none => simp [Bay.becomesFree]
  | some y => simp only [Bay.becomesFree, Option.any_some, Bool.and_eq_true, Bool.not_eq_true', ← Bool.not_eq_true, decide_eq_true_eq,
      Option.some.injEq, forall_eq']

theorem Bay.not_clear {x : Bay} (used : x.occupant.isSome ∨ x.reserved.isSome) : ¬(x.occupant.isNone && x.reserved.isNone) = true := by
  rw [Bool.and_eq_true, Option.isNone_iff_eq_none, Option.isNone_iff_eq_none]
  rintro ⟨occupant, reserved⟩
  simp [occupant, reserved] at used

section
variable {h : Hall} {b : BayAddr} {x : Bay} {blocked : Bool}

/-- The walk is owed by a bay that becomes free, and by no other. -/
theorem Hall.configureBay_owes (new : .bayWalk ∉ h.agenda) :
    .bayWalk ∈ (h.configureBay b x).agenda ↔ x.becomesFree (h.bay b) = true := by
  unfold Hall.configureBay
  dsimp only
  split
  · rename_i free; simp [Hall.mem_push, free]
  · rename_i taken; simp [new, taken]

theorem Hall.configureBay_follows (h : Hall) (b : BayAddr) (x : Bay) :
    Hall.Follows { h with bays := tput h.bays (bayKey b) x } (h.configureBay b x) := by
  unfold Hall.configureBay
  dsimp only
  split
  · exact (Hall.Follows.refl _).push _
  · exact .refl _

theorem Hall.takeBay_sets (inside : bayInRange b = true) (clear : ∀ x, h.bay b = some x → x.occupant = none ∧ x.reserved = none)
    (k : BayKind) : h.takeBay false b (some k) blocked = (h.configureBay b ⟨k, blocked, none, none⟩).accept .none := by
  unfold Hall.takeBay
  cases hx : h.bay b with
  | none => simp [inside]
  | some x =>
    obtain ⟨occupant, reserved⟩ := clear x hx
    simp [inside, occupant, reserved]

theorem Hall.takeBay_removes (inside : bayInRange b = true) (clear : ∀ x, h.bay b = some x → x.occupant = none ∧ x.reserved = none) :
    h.takeBay false b none blocked =
      ({ h with bays := if (h.bay b).isSome then tdel h.bays (bayKey b) else h.bays } : Hall).accept .none := by
  unfold Hall.takeBay
  cases hx : h.bay b with
  | none => simp [inside]
  | some x =>
    obtain ⟨occupant, reserved⟩ := clear x hx
    simp [inside, occupant, reserved]

theorem Hall.takeBay_blocks (inside : bayInRange b = true) (hx : h.bay b = some x) (used : x.occupant.isSome ∨ x.reserved.isSome)
    (frees : blocked = false ∨ blocked = x.blocked) :
    h.takeBay false b (some x.kind) blocked = (h.configureBay b { x with blocked := blocked }).accept .none := by
  have frees : (decide (some x.kind = some x.kind) && !(blocked && !x.blocked)) = true := by
    rcases frees with e | e <;> simp [e]
  unfold Hall.takeBay
  rw [inside, hx]
  exact (if_neg (Bay.not_clear used)).trans (if_pos frees)

theorem Hall.takeBay_refused (inside : bayInRange b = true) (hx : h.bay b = some x) (used : x.occupant.isSome ∨ x.reserved.isSome)
    {k : Option BayKind} (more : k ≠ some x.kind ∨ blocked = true ∧ x.blocked = false) :
    h.takeBay false b k blocked = h.refuse .state := by
  have more : (decide (k = some x.kind) && !(blocked && !x.blocked)) = false := by
    rcases more with e | ⟨e, f⟩
    · simp [e]
    · simp [e, f]
  unfold Hall.takeBay
  rw [inside, hx]
  exact (if_neg (Bay.not_clear used)).trans (if_neg (by rw [more]; exact Bool.false_ne_true))

end

/-! ### Set Aisle (R50) -/

theorem Hall.takeAisle_sets {h : Hall} {n : Nat} {g : Option Nat} (aisle : inRange 1 16 n = true)
    (grade : ∀ x, g = some x → x ≤ 15 ∧ (tget h.grades x).isSome) :
    ∃ b, h.takeAisle false n g = b.accept .none ∧ Hall.Follows { h with aisles := setAssignment h.aisles n g } b := by
  have fits : (inRange 1 16 n && optIn 0 15 g) = true := by
    rw [aisle, Bool.true_and, optIn_iff]
    exact fun x hx => ⟨Nat.zero_le x, (grade x hx).1⟩
  have known : (g.any fun x => (tget h.grades x).isNone) = false := by
    cases g with
    | none => rfl
    | some x => simpa [Option.isSome_iff_ne_none] using (grade x rfl).2
  unfold Hall.takeAisle
  rw [fits, known]
  refine ⟨_, rfl, ?_⟩
  split
  · exact (Hall.Follows.refl _).push _
  · exact .refl _

/-! ### Set Zone (R64) -/

section
variable {h : Hall} {n : Nat}

theorem Hall.zonesChanged_follows (h : Hall) (use : Option ZoneUse) : h.Follows (h.zonesChanged use) := by
  unfold Hall.zonesChanged
  dsimp only
  split
  · exact ((Hall.Follows.refl h).push _).push _
  · exact ((Hall.Follows.refl h).push _).push _
  · exact (Hall.Follows.refl h).push _

/-- A zone nobody holds, waits for or has on hold is none that bars a request (R64, check 2). -/
theorem Hall.zone_not_busy (idle : ∀ z, h.zone n = some z → z.holder = none ∧ z.wait = [] ∧ z.hold = none) :
    ((h.zone n).any fun z => z.holder.isSome || z.hold.isSome || !z.wait.isEmpty) = false := by
  cases hz : h.zone n with
  | none => rfl
  | some z =>
    obtain ⟨holder, wait, hold⟩ := idle z hz
    simp [holder, wait, hold]

/-- A zone is given its configuration when the checks of R64 pass; a change of the traverse time alone skips those from 3 on. -/
theorem Hall.takeZone_gives (number : inRange 1 128 n = true)
    (idle : ∀ z, h.zone n = some z → z.holder = none ∧ z.wait = [] ∧ z.hold = none) {c : ZoneConfig} (fits : zoneFits c = true)
    (kept : c = keptConfig c) (joined : usesLoop c.use = false → c.attach ≠ n ∧ h.isLoop c.attach = true)
    (single : ∀ p ∈ h.zones, p.1 ≠ n → p.2.cfg.use ≠ c.use)
    (unnamed : ∀ z, h.zone n = some z → (z.cfg.use ≠ c.use ∨ z.cfg.attach ≠ c.attach) → h.zoneNamed n = false)
    (loops : h.isLoop n = true → h.attached n = true → usesLoop c.use = true) :
    h.takeZone false n (some c) =
      (({ h with zones := tput h.zones n ⟨c, none, [], none⟩ } : Hall).zonesChanged (h.newlyServed (some c))).accept .none := by
  have joined : (!usesLoop c.use && (decide (c.attach = n) || !h.isLoop c.attach)) = false := by
    cases hl : usesLoop c.use with
    | true => rfl
    | false => simp [joined hl]
  have single : (h.zones.any fun p => decide (p.1 ≠ n ∧ p.2.cfg.use = c.use)) = false := by
    simpa using fun k z mem other => single (k, z) mem other
  have unnamed : (recasts (h.zone n) (some c) && h.zoneNamed n) = false := by
    cases hz : h.zone n with
    | none => rfl
    | some z =>
      by_cases e : z.cfg.use ≠ c.use ∨ z.cfg.attach ≠ c.attach
      · rw [unnamed z hz e, Bool.and_false]
      · simp [recasts, e]
  have loops : (h.isLoop n && h.attached n && !usesLoop c.use) = false := by
    cases hl : h.isLoop n with
    | false => rfl
    | true =>
      cases ha : h.attached n with
      | false => rfl
      | true => rw [loops hl ha]; rfl
  unfold Hall.takeZone
  rw [Option.map_some, ← kept]
  simp only [Option.all_some, number, fits, Hall.zone_not_busy idle, Option.any_some, joined, single, unnamed, loops]
  simp

theorem Hall.takeZone_removes (number : inRange 1 128 n = true)
    (idle : ∀ z, h.zone n = some z → z.holder = none ∧ z.wait = [] ∧ z.hold = none) (unnamed : h.zoneNamed n = false)
    (bare : h.isLoop n = true → h.attached n = false) :
    h.takeZone false n none = (({ h with zones := tdel h.zones n } : Hall).zonesChanged none).accept .none := by
  have bare : (h.isLoop n && h.attached n) = false := by
    cases hl : h.isLoop n with
    | false => rfl
    | true => simp [bare hl]
  unfold Hall.takeZone
  simp only [number, Hall.zone_not_busy idle, unnamed, bare, Option.map_none, Option.all_none, Option.any_none]
  simp

end

/-! ### The requests -/

/-- Settles O30: the walk by whether the bay becomes free, and each request by the checks it passes, what follows being the
consequences it owes. -/
theorem baysAislesAndZonesAreSet : Obligations.BaysAislesAndZonesAreSet := by
  refine ⟨fun h b x new => ?_, ?_, ?_, ?_⟩
  · rw [Hall.configureBay_owes new, Bay.becomesFree_iff]
    simp only [Bay.free_iff, and_assoc]
  · intro s q b blocked ok idle a1 a2 p1 p2
    have inside : bayInRange b = true := bayInRange_iff.mpr ⟨a1, a2, p1, p2⟩
    have saving : s.saving = false := congrArg Option.isSome idle
    refine ⟨fun k clear => ?_, fun clear => ?_, fun x hx used frees => ?_, fun x k hx used more => ?_⟩
    · exact ⟨_, rfl, State.request_accepts ok (by simpa only [saving] using Hall.takeBay_sets inside clear k)
        (s.hall.configureBay_follows b _).toSteps⟩
    · exact ⟨_, rfl, State.request_accepts ok (by simpa only [saving] using Hall.takeBay_removes inside clear)
        (Hall.Follows.refl _).toSteps⟩
    · exact ⟨_, rfl, State.request_accepts ok (by simpa only [saving] using Hall.takeBay_blocks inside hx used frees)
        (s.hall.configureBay_follows b _).toSteps⟩
    · exact congrArg Host.Outcome.next (State.request_tells ok
        (by simpa only [saving, Hall.refuse] using Hall.takeBay_refused inside hx used more))
  · intro s q n ok idle n1 n16
    have saving : s.saving = false := congrArg Option.isSome idle
    have sets (g : Option Nat) (grade : ∀ x, g = some x → x ≤ 15 ∧ (tget s.hall.grades x).isSome) :
        ∃ t, exec (.setAisle q n g) s = .next t ∧
          s.Accepts t q 0x0A .none { s.hall with aisles := setAssignment s.hall.aisles n g } := by
      obtain ⟨b, taken, follows⟩ := Hall.takeAisle_sets (inRange_iff.mpr ⟨n1, n16⟩) grade
      exact ⟨_, rfl, State.request_accepts ok (by simpa only [saving] using taken) follows.toSteps⟩
    refine ⟨fun g hg known => sets (some g) fun x hx => ?_, sets none fun x hx => nomatch hx⟩
    cases hx
    exact ⟨hg, known⟩
  · intro s q n ok idle n1 n128 calm
    have number := inRange_iff.mpr ⟨n1, n128⟩
    have saving : s.saving = false := congrArg Option.isSome idle
    refine ⟨fun c fits kept joined single unnamed loops => ?_, fun unnamed bare => ?_⟩
    · have taken := Hall.takeZone_gives number calm fits kept joined single unnamed loops
      exact ⟨_, rfl, State.request_accepts ok (by simpa only [saving] using taken) (Hall.zonesChanged_follows _ _).toSteps⟩
    · have taken := Hall.takeZone_removes number calm unnamed bare
      exact ⟨_, rfl, State.request_accepts ok (by simpa only [saving] using taken) (Hall.zonesChanged_follows _ _).toSteps⟩

end Sys2Proof.Machine
end

section
/-! PROOF. The Bay Map: the bay a reel is given, reservations, the walk of the missions that wait, and the slots of the Mission Table (O28). -/

-- One theorem after another, as in the laws: elaborated all at once they ask for more threads than the check has room for.
set_option Elab.async false

namespace Sys2Proof.Machine

/-! ### The first free bay (R48, R52, R53) -/

theorem Hall.served_iff {h : Hall} {u : ZoneUse} : h.served u = true ↔ ∃ p ∈ h.zones, p.2.cfg.use = u := by
  simp [Hall.served, Hall.zoneOf]

/-- A free bay of a kind in a served aisle of those meant (R48). -/
def Hall.FreeBay (h : Hall) (k : BayKind) (meant : Nat → Prop) (b : BayAddr) : Prop :=
  meant b.aisle ∧ (∃ p ∈ h.zones, p.2.cfg.use = .aisle b.aisle) ∧
    ∃ x, h.bay b = some x ∧ x.kind = k ∧ x.blocked = false ∧ x.occupant = none ∧ x.reserved = none

/-- The free bay of the lowest aisle, and there of the lowest position (R52). -/
def Hall.FirstBay (h : Hall) (k : BayKind) (meant : Nat → Prop) (b : BayAddr) : Prop :=
  h.FreeBay k meant b ∧ ∀ c, h.FreeBay k meant c → b.aisle < c.aisle ∨ (b.aisle = c.aisle ∧ b.pos ≤ c.pos)

/-- Whether the search for a free bay stops at a row of the Bay Map. -/
def Hall.bayServes (h : Hall) (k : BayKind) (ok : Nat → Bool) (p : Nat × Bay) : Bool :=
  decide (p.2.kind = k) && p.2.free && h.served (.aisle (bayOfKey p.1).aisle) && ok (bayOfKey p.1).aisle

theorem Hall.firstBay_eq (h : Hall) (k : BayKind) (ok : Nat → Bool) :
    h.firstBay k ok = (h.bays.find? (h.bayServes k ok)).map fun p => bayOfKey p.1 := rfl

section
variable {h : Hall} {k : BayKind} {ok : Nat → Bool} {meant : Nat → Prop} {b : BayAddr}

/-- The rows the search stops at are the free bays. -/
theorem Hall.freeBay_iff (sorted : tsorted h.bays = true) (keyed : ∀ p ∈ h.bays, bayKey (bayOfKey p.1) = p.1)
    (good : ∀ a, ok a = true ↔ meant a) : h.FreeBay k meant b ↔ ∃ p ∈ h.bays, h.bayServes k ok p = true ∧ bayOfKey p.1 = b := by
  have serves (p : Nat × Bay) : h.bayServes k ok p = true ↔ p.2.kind = k ∧ p.2.free = true ∧
      (∃ z ∈ h.zones, z.2.cfg.use = .aisle (bayOfKey p.1).aisle) ∧ meant (bayOfKey p.1).aisle := by
    simp only [Hall.bayServes, Bool.and_eq_true, decide_eq_true_eq, Hall.served_iff, good, and_assoc]
  constructor
  · rintro ⟨aisle, zone, x, hx, kind, blocked, occupant, reserved⟩
    have mem : (bayKey b, x) ∈ h.bays := tget_mem hx
    have same : bayOfKey (bayKey b) = b := bayKey_inj (keyed _ mem)
    refine ⟨_, mem, (serves _).mpr ⟨kind, Bay.free_iff.mpr ⟨occupant, reserved, blocked⟩, ?_, ?_⟩, same⟩
    · rw [same]; exact zone
    · rw [same]; exact aisle
  · rintro ⟨p, mem, found, rfl⟩
    obtain ⟨kind, free, zone, aisle⟩ := (serves p).mp found
    obtain ⟨occupant, reserved, blocked⟩ := Bay.free_iff.mp free
    have hx : h.bay (bayOfKey p.1) = some p.2 := by rw [Hall.bay, keyed p mem]; exact tget_of_mem sorted mem
    exact ⟨aisle, zone, p.2, hx, kind, blocked, occupant, reserved⟩

/-- The numbers of bays are in the order of their addresses. -/
theorem bayOfKey_ordered {i j : Nat} (order : i ≤ j) :
    (bayOfKey i).aisle < (bayOfKey j).aisle ∨ ((bayOfKey i).aisle = (bayOfKey j).aisle ∧ (bayOfKey i).pos ≤ (bayOfKey j).pos) := by
  unfold bayOfKey
  dsimp only
  omega

/-- The search finds the first free bay, the rows being in order. -/
theorem Hall.firstBay_some (sorted : tsorted h.bays = true) (keyed : ∀ p ∈ h.bays, bayKey (bayOfKey p.1) = p.1)
    (good : ∀ a, ok a = true ↔ meant a) (found : h.firstBay k ok = some b) : h.FirstBay k meant b := by
  rw [Hall.firstBay_eq, Option.map_eq_some_iff] at found
  obtain ⟨p, found, rfl⟩ := found
  obtain ⟨stops, before, after, rows, passed⟩ := List.find?_eq_some_iff_append.mp found
  have mem : p ∈ h.bays := by rw [rows]; simp
  refine ⟨(Hall.freeBay_iff sorted keyed good).mpr ⟨p, mem, stops, rfl⟩, fun c free => ?_⟩
  obtain ⟨r, hr, serves, rfl⟩ := (Hall.freeBay_iff sorted keyed good).mp free
  refine bayOfKey_ordered ?_
  have order := (tsorted_iff _).mp sorted
  rw [rows, List.map_append, List.map_cons, List.pairwise_append, List.pairwise_cons] at order
  obtain ⟨-, ⟨later, -⟩, -⟩ := order
  rw [rows, List.mem_append, List.mem_cons] at hr
  rcases hr with hr | rfl | hr
  · exact absurd serves (by simpa using passed r hr)
  · exact Nat.le_refl _
  · exact Nat.le_of_lt (later _ (List.mem_map_of_mem hr))

theorem Hall.firstBay_none (sorted : tsorted h.bays = true) (keyed : ∀ p ∈ h.bays, bayKey (bayOfKey p.1) = p.1)
    (good : ∀ a, ok a = true ↔ meant a) (none : h.firstBay k ok = none) : ¬h.FreeBay k meant b := by
  rw [Hall.firstBay_eq, Option.map_eq_none_iff] at none
  intro free
  obtain ⟨p, mem, serves, -⟩ := (Hall.freeBay_iff sorted keyed good).mp free
  exact List.find?_eq_none.mp none p mem serves

end

/-! ### The bay chosen for a reel (R52, R53) -/

section
variable {h : Hall} {grade : Nat} {b : BayAddr}

theorem Hall.selectBay_held (h : Hall) (grade : Nat) : h.selectBay grade true = h.firstBay .quarantine fun _ => true := rfl

/-- Whether an aisle is assigned a grade, and whether it is ANY. -/
theorem Hall.aisle_of_grade (a : Nat) : decide (tget h.aisles a = some grade) = true ↔ tget h.aisles a = some grade := decide_eq_true_iff

theorem Hall.aisle_any (a : Nat) : (tget h.aisles a).isNone = true ↔ tget h.aisles a = none := Option.isNone_iff_eq_none

theorem Hall.selectBay_stored (sorted : tsorted h.bays = true) (keyed : ∀ p ∈ h.bays, bayKey (bayOfKey p.1) = p.1)
    (chosen : h.selectBay grade false = some b) : h.FirstBay .normal (fun a => tget h.aisles a = some grade) b ∨
      ((∀ c, ¬h.FreeBay .normal (fun a => tget h.aisles a = some grade) c) ∧ h.FirstBay .normal (fun a => tget h.aisles a = none) b) := by
  rcases Option.or_eq_some_iff.mp chosen with own | ⟨none, any⟩
  · exact .inl (Hall.firstBay_some sorted keyed Hall.aisle_of_grade own)
  · exact .inr ⟨fun c => Hall.firstBay_none sorted keyed Hall.aisle_of_grade none, Hall.firstBay_some sorted keyed Hall.aisle_any any⟩

theorem Hall.selectBay_stored_none (sorted : tsorted h.bays = true) (keyed : ∀ p ∈ h.bays, bayKey (bayOfKey p.1) = p.1)
    (none : h.selectBay grade false = none) (b : BayAddr) : ¬h.FreeBay .normal (fun a => tget h.aisles a = some grade) b ∧
      ¬h.FreeBay .normal (fun a => tget h.aisles a = .none) b := by
  obtain ⟨own, any⟩ := Option.or_eq_none_iff.mp none
  exact ⟨Hall.firstBay_none sorted keyed Hall.aisle_of_grade own, Hall.firstBay_none sorted keyed Hall.aisle_any any⟩

theorem Hall.selectFor_some {ref : ReelRef} {r : Reel} (hr : h.reel ref = some r) (hold : Bool) :
    h.selectFor ref hold = h.selectBay r.grade (hold || decide (r.state = .quarantined)) := by
  simp [Hall.selectFor, Hall.heldBack, hr]

theorem Hall.selectFor_none {ref : ReelRef} (hr : h.reel ref = none) (hold : Bool) : h.selectFor ref hold = none := by
  simp [Hall.selectFor, hr]

end

/-! ### Missions created (R54, R57, R95) -/

section
variable {h : Hall} {m : Mission} {slot : Nat} {b : BayAddr} {x : Bay}

theorem Hall.named_iff {ref : ReelRef} : h.named ref = true ↔ ∃ p ∈ h.missions, p.2.reel = some ref := by
  simp [Hall.named]

/-- No reel is named by two missions (R95). -/
def Hall.NamesOnce (g : Hall) : Prop :=
  ∀ p ∈ g.missions, ∀ q ∈ g.missions, ∀ ref, p.2.reel = some ref → q.2.reel = some ref → p.1 = q.1

theorem Hall.createMission_named (named : m.reel.any h.named = true) : h.createMission m = (h, none) := by
  unfold Hall.createMission
  split
  · rw [if_pos named]
  · rfl

/-- A mission whose reel no other names, entered in a slot. -/
theorem Hall.NamesOnce.enter (once : h.NamesOnce) (new : m.reel.any h.named = false) (slot : Nat) : (h.enterMission slot m).NamesOnce := by
  have other {p : Nat × Mission} (mem : p ∈ h.missions) {ref : ReelRef} (names : p.2.reel = some ref) : m.reel ≠ some ref := by
    intro e
    rw [e] at new
    exact absurd (Hall.named_iff.mpr ⟨p, mem, names⟩) (by simpa using new)
  intro p hp q hq ref pref qref
  rw [Hall.enterMission_missions] at hp hq
  rcases mem_tput hp with hp | rfl <;> rcases mem_tput hq with hq | rfl
  · exact once p hp q hq ref pref qref
  · exact absurd qref (other hp pref)
  · exact absurd pref (other hq qref)
  · rfl

theorem Hall.NamesOnce.create (once : h.NamesOnce) (m : Mission) : (h.createMission m).1.NamesOnce := by
  by_cases named : m.reel.any h.named = true
  · rw [Hall.createMission_named named]; exact once
  · have new : m.reel.any h.named = false := by simpa using named
    cases free : lowestFree h.missions 48 with
    | none => rw [Hall.createMission_full free]; exact once
    | some slot => rw [Hall.createMission_made free new]; exact once.enter (m := { m with created := h.clock }) new slot

@[simp] theorem Hall.enterMission_bays (h : Hall) (slot : Nat) (m : Mission) : (h.enterMission slot m).bays = h.bays := by
  unfold Hall.enterMission; dsimp only; split <;> simp

theorem Hall.enterMission_owes (waits : m.state = .waiting) : Job.arbiter ∈ (h.enterMission slot m).agenda := by
  unfold Hall.enterMission
  rw [if_pos waits]
  exact Hall.mem_push.mpr (.inl rfl)

theorem Hall.reserve_bay (hx : h.bay b = some x) (slot : Nat) : (h.reserve slot (some b)).bay b = some { x with reserved := some slot } := by
  rw [Hall.reserve, Hall.bay_modBay, if_pos rfl, hx]
  rfl

theorem Hall.createWithBay_spec (free : lowestFree h.missions 48 = some slot) (new : m.reel.any h.named = false) (hx : h.bay b = some x) :
    (h.createWithBay m (some b)).2 = some slot ∧ (h.createWithBay m (some b)).1.bay b = some { x with reserved := some slot } ∧
      (h.createWithBay m (some b)).1.mission slot = some { m with created := h.clock, drop := some (.bay b) } := by
  rw [Hall.createWithBay_made free new]
  refine ⟨rfl, Hall.reserve_bay ?_ slot, ?_⟩
  · rwa [Hall.bay, Hall.enterMission_bays]
  · rw [Hall.mission, Hall.reserve_missions, Hall.enterMission_missions, tget_tput_same]
    rfl

end

/-! ### The walk of the missions that wait for a bay (R51, R56) -/

theorem Mission.waitsForBay_iff {m : Mission} : m.waitsForBay = true ↔ (m.kind = .intake ∨ m.kind = .ret) ∧ m.drop = none := by
  simp [Mission.waitsForBay]

theorem Hall.watchBays_noFreeBay {h : Hall} (sound : h.Sound) : (h.watchBays.fault ⟨.noFreeBay, .none⟩).active = true ↔
    ∃ p ∈ h.missions, (p.2.kind = .intake ∨ p.2.kind = .ret) ∧ p.2.drop = none := by
  rw [Hall.watchBays, Hall.setActive_active sound.faults, List.any_eq_true]
  simp only [Mission.waitsForBay_iff]

section
variable {h : Hall} {slot : Nat} {m : Mission} {ref : ReelRef} {b : BayAddr} {x : Bay}

theorem Hall.gotDrop_owes (hm : h.mission slot = some m) : Job.arbiter ∈ (h.gotDrop slot).agenda := by
  unfold Hall.gotDrop
  rw [hm]
  exact Hall.mem_push.mpr (.inl rfl)

/-- A mission given its bay by the walk. -/
def Hall.dropGiven (slot : Nat) (b : BayAddr) (h : Hall) : Hall :=
  ((h.modMission slot fun m => { m with drop := some (.bay b) }).reserve slot (some b)).push (.gotDrop slot)

theorem Hall.walkOne_gives (hm : h.mission slot = some m) (waits : m.waitsForBay = true) (href : m.reel = some ref)
    (free : h.selectFor ref m.holdBack = some b) : h.walkOne slot = h.dropGiven slot b := by
  unfold Hall.walkOne
  simp only [hm, waits, href, Option.bind_some, free]
  rfl

theorem Hall.walkOne_full (hm : h.mission slot = some m) (full : (m.reel.bind fun ref => h.selectFor ref m.holdBack) = none) :
    h.walkOne slot = h := by
  unfold Hall.walkOne
  simp only [hm, full, ite_self]

theorem Hall.walkOne_passes (hm : h.mission slot = some m) (done : m.waitsForBay = false) : h.walkOne slot = h := by
  unfold Hall.walkOne
  simp only [hm, done]
  rfl

theorem Hall.walkOne_vacant (hm : h.mission slot = none) : h.walkOne slot = h := by
  unfold Hall.walkOne
  rw [hm]

/-- One mission of the walk: it is given a bay, or the hall is as it was, and then no bay is free for it if it waits for one. -/
theorem Hall.walkOne_cases (h : Hall) (slot : Nat) :
    (∃ m ref b, h.mission slot = some m ∧ m.waitsForBay = true ∧ m.reel = some ref ∧ h.selectFor ref m.holdBack = some b ∧
      h.walkOne slot = h.dropGiven slot b) ∨
    (h.walkOne slot = h ∧ ∀ m ref, h.mission slot = some m → m.waitsForBay = true → m.reel = some ref →
      h.selectFor ref m.holdBack = none) := by
  cases hm : h.mission slot with
  | none => exact .inr ⟨Hall.walkOne_vacant hm, fun _ _ e => nomatch e⟩
  | some m =>
    cases hw : m.waitsForBay with
    | false => exact .inr ⟨Hall.walkOne_passes hm hw, fun n ref e waits => by cases e; simp [hw] at waits⟩
    | true =>
      cases free : m.reel.bind fun ref => h.selectFor ref m.holdBack with
      | none => exact .inr ⟨Hall.walkOne_full hm free, fun n ref e _ href => by cases e; simpa [href] using free⟩
      | some b =>
        obtain ⟨ref, href, chosen⟩ := Option.bind_eq_some_iff.mp free
        exact .inl ⟨m, ref, b, rfl, hw, href, chosen, Hall.walkOne_gives hm hw href chosen⟩

theorem Hall.dropGiven_spec (hm : h.mission slot = some m) (hx : h.bay b = some x) :
    (h.dropGiven slot b).mission slot = some { m with drop := some (.bay b) } ∧
      (h.dropGiven slot b).bay b = some { x with reserved := some slot } ∧ Job.gotDrop slot ∈ (h.dropGiven slot b).agenda := by
  have hm' : tget h.missions slot = some m := hm
  refine ⟨?_, ?_, Hall.mem_push.mpr (.inl rfl)⟩
  · simp [Hall.mission, Hall.dropGiven, hm']
  · rw [Hall.dropGiven, Hall.bay, Hall.push_bays]
    exact Hall.reserve_bay (h := h.modMission slot _) hx slot

end

/-! #### A bay once taken stays taken for the rest of the walk -/

/-- `b` is `a` after a part of the walk: bays have been reserved for missions that waited, and nothing else bears on the choice of a bay. -/
structure Hall.Walked (a b : Hall) : Prop where
  reels : b.reels = a.reels
  zones : b.zones = a.zones
  aisles : b.aisles = a.aisles
  bays : ∀ q ∈ b.bays, q.2.free = true → q ∈ a.bays
  missions : ∀ k n, b.mission k = some n → n.drop = none → a.mission k = some n

namespace Hall.Walked

variable {a b c : Hall}

theorem refl (a : Hall) : a.Walked a := ⟨rfl, rfl, rfl, fun _ mem _ => mem, fun _ _ e _ => e⟩

theorem trans (x : a.Walked b) (y : b.Walked c) : a.Walked c where
  reels := y.reels.trans x.reels
  zones := y.zones.trans x.zones
  aisles := y.aisles.trans x.aisles
  bays q mem free := x.bays q (y.bays q mem free) free
  missions k n e bare := x.missions k n (y.missions k n e bare) bare

theorem dropGiven (h : Hall) (slot : Nat) (d : BayAddr) : h.Walked (h.dropGiven slot d) where
  reels := by simp [Hall.dropGiven, Hall.reserve]
  zones := by simp [Hall.dropGiven, Hall.reserve]
  aisles := by simp [Hall.dropGiven, Hall.reserve]
  bays q mem free := by
    rw [Hall.dropGiven, Hall.push_bays] at mem
    rcases mem_tmod mem with mem | ⟨x, -, -, rfl⟩
    · exact mem
    · simp [Bay.free] at free
  missions k n e bare := by
    have e : tget (tmod h.missions slot fun m => { m with drop := some (.bay d) }) k = some n := by
      simpa [Hall.mission, Hall.dropGiven] using e
    rw [tget_tmod] at e
    split at e
    · obtain ⟨m, -, rfl⟩ := Option.map_eq_some_iff.mp e
      simp at bare
    · exact e

theorem walkOne (h : Hall) (slot : Nat) : h.Walked (h.walkOne slot) := by
  rcases h.walkOne_cases slot with ⟨_, _, d, -, -, -, -, e⟩ | ⟨e, -⟩
  · rw [e]; exact dropGiven h slot d
  · rw [e]; exact refl h

/-- What telling a fault leaves is as the walk has left it. -/
theorem still (x : a.Walked b) (e : c.still = b.still) : a.Walked c := x.trans
  { reels := Hall.still_field e Hall.reels fun _ => rfl
    zones := Hall.still_field e Hall.zones fun _ => rfl
    aisles := Hall.still_field e Hall.aisles fun _ => rfl
    bays := fun q mem _ => by rwa [← Hall.still_field e Hall.bays fun _ => rfl]
    missions := fun k n hn _ => by rwa [Hall.mission, ← Hall.still_field e Hall.missions fun _ => rfl] }

theorem firstBay_none (x : a.Walked b) {k : BayKind} {ok : Nat → Bool} (none : a.firstBay k ok = none) : b.firstBay k ok = .none := by
  rw [Hall.firstBay_eq, Option.map_eq_none_iff, List.find?_eq_none] at none ⊢
  intro p mem serves
  have served : b.served = a.served := by funext u; rw [Hall.served, Hall.served, Hall.zoneOf, Hall.zoneOf, x.zones]
  have free : p.2.free = true := by
    simp only [Hall.bayServes, Bool.and_eq_true] at serves
    exact serves.1.1.2
  exact none p (x.bays p mem free) (by rwa [Hall.bayServes, ← served])

theorem selectFor_none (x : a.Walked b) {ref : ReelRef} {hold : Bool} (none : a.selectFor ref hold = none) :
    b.selectFor ref hold = .none := by
  have reel : b.reel ref = a.reel ref := by rw [Hall.reel, Hall.reel, x.reels]
  cases hr : a.reel ref with
  | none => exact Hall.selectFor_none (reel.trans hr) hold
  | some r =>
    rw [Hall.selectFor_some hr] at none
    rw [Hall.selectFor_some (reel.trans hr)]
    cases held : hold || decide (r.state = .quarantined) with
    | true =>
      rw [held, Hall.selectBay_held] at none
      exact x.firstBay_none none
    | false =>
      rw [held] at none
      obtain ⟨own, any⟩ := Option.or_eq_none_iff.mp none
      refine Option.or_eq_none_iff.mpr ⟨?_, ?_⟩
      · rw [x.aisles]; exact x.firstBay_none own
      · rw [x.aisles]; exact x.firstBay_none any

end Hall.Walked

/-- No bay is free for the mission of a slot, if it waits for one. -/
def Hall.NoBayFor (h : Hall) (slot : Nat) : Prop :=
  ∀ m ref, h.mission slot = some m → m.waitsForBay = true → m.reel = some ref → h.selectFor ref m.holdBack = none

theorem Hall.NoBayFor.walked {a b : Hall} {slot : Nat} (none : a.NoBayFor slot) (x : a.Walked b) : b.NoBayFor slot :=
  fun m ref hm waits href => x.selectFor_none (none m ref (x.missions slot m hm (Mission.waitsForBay_iff.mp waits).2) waits href)

/-- A mission the walk has come to waits no longer, or finds no bay. -/
theorem Hall.walkOne_noBay (h : Hall) (slot : Nat) : (h.walkOne slot).NoBayFor slot := by
  rcases h.walkOne_cases slot with ⟨m, ref, d, hm, -, -, -, e⟩ | ⟨e, none⟩
  · intro n ref' hn waits
    have bare := (Mission.waitsForBay_iff.mp waits).2
    have hm : tget h.missions slot = some m := hm
    rw [e] at hn
    simp only [Hall.mission, Hall.dropGiven, Hall.push_missions, Hall.reserve_missions, Hall.modMission_missions, tget_tmod_same, hm,
      Option.map_some, Option.some.injEq] at hn
    subst hn
    simp at bare
  · rw [e]; exact none

theorem Hall.walk_noBay (l : List Nat) (h : Hall) : h.Walked (l.foldl Hall.walkOne h) ∧ ∀ k ∈ l, (l.foldl Hall.walkOne h).NoBayFor k := by
  induction l generalizing h with
  | nil => exact ⟨.refl h, fun _ mem => nomatch mem⟩
  | cons s l ih =>
    obtain ⟨walked, none⟩ := ih (h.walkOne s)
    refine ⟨(Hall.Walked.walkOne h s).trans walked, fun k mem => ?_⟩
    rcases List.mem_cons.mp mem with rfl | mem
    · exact (h.walkOne_noBay k).walked walked
    · exact none k mem

/-! #### The order of the walk (R95) -/

/-- A mission stands before another in the table, or they are the same slot. -/
def Mission.UpTo (p q : Nat × Mission) : Prop :=
  classRank p.2.cls < classRank q.2.cls ∨ (classRank p.2.cls = classRank q.2.cls ∧ (p.2.deadline < q.2.deadline ∨
    (p.2.deadline = q.2.deadline ∧ (p.2.created < q.2.created ∨ (p.2.created = q.2.created ∧ p.1 ≤ q.1)))))

theorem Hall.tableOrder_ordered (h : Hall) : h.tableOrder.Pairwise Mission.UpTo := by
  refine sortBy_pairwise (fun p q e => ?_) (fun p q e => ?_) (fun p q r pq qr => ?_) h.missions
  · simp only [Mission.keys, keysBefore, Bool.and_false, Bool.or_false, Bool.or_eq_true, Bool.and_eq_true, decide_eq_true_eq] at e
    unfold Mission.UpTo
    omega
  · simp only [Mission.keys, keysBefore, Bool.and_false, Bool.or_false, Bool.or_eq_false_iff, Bool.and_eq_false_iff,
      decide_eq_false_iff_not] at e
    unfold Mission.UpTo
    omega
  · unfold Mission.UpTo at *
    omega

theorem Hall.tableOrder_perm (h : Hall) : h.tableOrder.Perm h.missions := sortBy_perm _ _

/-- After the walk no mission waits that a bay is free for (R56). -/
theorem Hall.walkBays_noBay (h : Hall) (slot : Nat) : h.walkBays.NoBayFor slot := by
  obtain ⟨walked, none⟩ := Hall.walk_noBay (h.tableOrder.map (·.1)) h
  have watched := (Hall.Walked.refl _).still (Hall.watchBays_still ((h.tableOrder.map (·.1)).foldl Hall.walkOne h))
  intro m ref hm waits
  have before := (walked.trans watched).missions slot m hm (Mission.waitsForBay_iff.mp waits).2
  have listed : slot ∈ h.tableOrder.map (·.1) := List.mem_map.mpr ⟨(slot, m), h.tableOrder_perm.mem_iff.mpr (tget_mem before), rfl⟩
  exact (none slot listed).walked watched m ref hm waits

/-! ### A reservation ends, or moves with its mission (R55, R57) -/

section
variable {h : Hall} {slot : Nat} {b : BayAddr} {x : Bay} {m : Mission} {ref : ReelRef} {hold : Bool}

theorem Hall.dropReservation_bay (held : h.reservedBay slot = some b) (hx : h.bay b = some x) :
    (h.dropReservation slot).bay b = some { x with reserved := none } ∧ Job.bayWalk ∈ (h.dropReservation slot).agenda := by
  unfold Hall.dropReservation
  rw [held]
  refine ⟨?_, Hall.mem_push.mpr (.inl rfl)⟩
  dsimp only
  rw [Hall.bay, Hall.push_bays]
  refine (Hall.bay_modBay h b b _).trans ?_
  rw [if_pos rfl, hx]
  rfl

/-- A mission as the rules for a RETURN leave it, but for its drop (R55). -/
def Mission.asReturn (m : Mission) (clock : Nat) (hold : Bool) : Mission :=
  { m with kind := .ret, cls := .ret, deadline := clock, call := none, holdBack := hold }

/-- A reserved bay of the right kind is kept. -/
theorem Hall.contentOfReturn_keeps (held : h.reservedBay slot = some b) (right : h.rightKind b (h.heldBack ref hold) = true)
    (hm : h.mission slot = some m) (href : m.reel = some ref) :
    h.contentOfReturn slot hold = h.modMission slot fun _ => { m.asReturn h.clock hold with drop := some (.bay b) } := by
  unfold Hall.contentOfReturn
  rw [hm]
  dsimp only
  rw [href]
  dsimp only
  rw [held, Option.filter_some, if_pos right]
  simp only [Mission.asReturn, href]

/-- A bay of the wrong kind is given up, and a new one is chosen. -/
theorem Hall.contentOfReturn_chooses (held : h.reservedBay slot = some b) (wrong : h.rightKind b (h.heldBack ref hold) = false)
    (hm : h.mission slot = some m) (href : m.reel = some ref) :
    h.contentOfReturn slot hold =
      (((h.dropReservation slot).modMission slot fun _ =>
        { m.asReturn h.clock hold with drop := ((h.dropReservation slot).selectFor ref hold).map .bay }).reserve slot
          ((h.dropReservation slot).selectFor ref hold)).watchBays := by
  unfold Hall.contentOfReturn
  rw [hm]
  dsimp only
  rw [href]
  dsimp only
  rw [held, Option.filter_some, if_neg (by simp [wrong])]
  simp only [Mission.asReturn, href]

/-- The bay a RETURN keeps, or the one it is given instead. -/
theorem Hall.contentOfReturn_spec (held : h.reservedBay slot = some b) (hx : h.bay b = some x) (hm : h.mission slot = some m)
    (href : m.reel = some ref) :
    (x.kind = (if h.heldBack ref hold then .quarantine else .normal) → (h.contentOfReturn slot hold).bays = h.bays ∧
      (h.contentOfReturn slot hold).mission slot = some { m.asReturn h.clock hold with drop := some (.bay b) }) ∧
    (x.kind ≠ (if h.heldBack ref hold then .quarantine else .normal) →
      (h.contentOfReturn slot hold).mission slot =
        some { m.asReturn h.clock hold with drop := ((h.dropReservation slot).selectFor ref hold).map .bay } ∧
      ∀ d y, (h.dropReservation slot).selectFor ref hold = some d → (h.contentOfReturn slot hold).bay d = some y →
        y.reserved = some slot) := by
  have hm' : tget h.missions slot = some m := hm
  refine ⟨fun right => ?_, fun wrong => ?_⟩
  · rw [Hall.contentOfReturn_keeps held (by simp [Hall.rightKind, hx, right]) hm href]
    exact ⟨rfl, by simp [Hall.mission, hm']⟩
  · rw [Hall.contentOfReturn_chooses held (by simp [Hall.rightKind, hx, wrong]) hm href]
    refine ⟨by simp [Hall.mission, Hall.watchBays, hm'], fun d y chosen hy => ?_⟩
    rw [Hall.bay, Hall.watchBays_bays, chosen] at hy
    rw [← Hall.bay, Hall.reserve, Hall.bay_modBay, if_pos rfl] at hy
    obtain ⟨z, -, rfl⟩ := Option.map_eq_some_iff.mp hy
    rfl

/-- A bay that loses its occupant and is free then starts the walk (R51). -/
theorem Hall.clearPlace_frees (hx : h.bay b = some x) (open_ : x.blocked = false) (unreserved : x.reserved = none) :
    (h.clearPlace (.bay b)).bay b = some { x with occupant := none } ∧ Job.bayWalk ∈ (h.clearPlace (.bay b)).agenda := by
  refine ⟨by rw [Hall.clearPlace_bay, if_pos rfl, hx]; rfl, ?_⟩
  have cleared : (h.modBay b fun x => { x with occupant := none }).bay b = some { x with occupant := none } := by
    rw [Hall.bay_modBay, if_pos rfl, hx]; rfl
  rw [Hall.clearPlace, Hall.bayMayBeFree, cleared]
  simp [open_, unreserved, Hall.mem_push]

end

/-! ### The slot a mission leaves (R95) -/

/-- What is owed stays owed, in its place: all that is owed anew comes behind it. -/
def Hall.OwesOn (a b : Hall) : Prop := a.agenda <+: b.agenda

namespace Hall.OwesOn

variable {a b c : Hall}

theorem refl (a : Hall) : a.OwesOn a := List.prefix_rfl

/-- What leaves the agenda as it was. -/
theorem same (x : a.OwesOn b) (e : c.agenda = b.agenda) : a.OwesOn c := by unfold Hall.OwesOn; rwa [e]

theorem push (x : a.OwesOn b) (j : Job) : a.OwesOn (b.push j) := by
  unfold Hall.push; split
  · exact x
  · exact x.trans (List.prefix_append _ _)

theorem oweCeiling (x : a.OwesOn b) (n : Nat) : a.OwesOn (b.oweCeiling n) := x.same (Hall.oweCeiling_agenda b n)

theorem changeArm (x : a.OwesOn b) (st : StandAddr) (arm : ArmName) (f : Arm → Arm) : a.OwesOn (b.changeArm st arm f) :=
  x.same (b.changeArm_agenda st arm f)

theorem requestPrep (x : a.OwesOn b) (st : StandAddr) (arm : ArmName) (d : Nat) : a.OwesOn (b.requestPrep st arm d) := by
  have panel (g : Hall) (n : Nat) : (g.sendPanel n).agenda = g.agenda := Hall.still_field (g.sendPanel_still n) Hall.agenda fun _ => rfl
  unfold Hall.requestPrep; split
  · split
    · exact x
    · split
      · dsimp only; split
        · exact x.same (panel _ _)
        · exact x
      · exact x.same (panel _ _)
  · exact x

theorem emptyArm (x : a.OwesOn b) (st : StandAddr) (arm : ArmName) : a.OwesOn (b.emptyArm st arm) := by
  have emptied : a.OwesOn ((b.modStand st fun s => { s with running := s.running.filter (· ≠ arm) }).changeArm st arm fun x =>
      { x with state := .empty, reel := none, beforeUnload := none }) := x.same (Hall.changeArm_agenda _ _ _ _)
  unfold Hall.emptyArm; dsimp only; split
  · exact (emptied.push _).push _
  · exact emptied.push _

theorem restoreArm (x : a.OwesOn b) (st : StandAddr) (arm : ArmName) (ref : Option ReelRef) : a.OwesOn (b.restoreArm st arm ref) := by
  unfold Hall.restoreArm; split
  · split
    · dsimp only; split
      · exact (x.changeArm _ _ _).push _
      · exact (x.changeArm _ _ _).requestPrep _ _ _
    · exact x
  · exact x

theorem closeHandover (x : a.OwesOn b) (st : StandAddr) : a.OwesOn (b.closeHandover st) := by
  unfold Hall.closeHandover; split
  · extract_lets g loading g'
    have gone : a.OwesOn g := x.same (Hall.oweCeiling_agenda _ _)
    have emptied : a.OwesOn g' := by
      unfold g'; split
      · exact gone.emptyArm _ _
      · exact gone
    split
    · exact (emptied.push _).push _
    · exact emptied.push _
  · exact x

theorem handoverEnds (x : a.OwesOn b) (slot : Nat) : a.OwesOn (b.handoverEnds slot) := by
  unfold Hall.handoverEnds; split
  · exact x.closeHandover _
  · exact x

theorem armRestored (x : a.OwesOn b) (m : Mission) : a.OwesOn (b.armRestored m) := by
  unfold Hall.armRestored; split
  · exact x.restoreArm _ _ _
  · exact x

theorem callOwed (x : a.OwesOn b) (m : Mission) : a.OwesOn (b.callOwed m) := by
  unfold Hall.callOwed; split
  · exact (x.push _).oweCeiling _
  · exact x

end Hall.OwesOn

/-- What may ask for a slot (R95). -/
theorem Job.asksSlot_false {j : Job} (calm : j.asksSlot = false) : j ≠ .chargersFree ∧ (∀ g w, j ≠ .starvedRetry g w) ∧
    (∀ v, j ≠ .chargeNeed v) ∧ (∀ st, j ≠ .reRaise st) ∧ ∀ st, j ≠ .callTest st := by
  refine ⟨?_, fun g w => ?_, fun v => ?_, fun st => ?_, fun st => ?_⟩ <;> (rintro rfl; exact Bool.noConfusion calm)

/-- The requesters that wait for a slot are owed ahead of all that may ask for one. -/
theorem Hall.oweSlots_ahead {h : Hall} (new : Job.missionLeft ∉ h.agenda) :
    ∃ pre post, h.oweSlots.agenda = pre ++ Job.missionLeft :: post ∧ ∀ j ∈ pre, j.asksSlot = false := by
  refine ⟨_, _, congrArg Hall.agenda (if_neg new), fun j mem => ?_⟩
  simpa using List.mem_takeWhile_imp mem

theorem Hall.mem_dropReservation {h : Hall} {slot : Nat} {j : Job} (mem : j ∈ (h.dropReservation slot).agenda) :
    j = .bayWalk ∨ j ∈ h.agenda := by
  unfold Hall.dropReservation at mem
  split at mem
  · exact (Hall.mem_push.mp mem).imp_right id
  · exact .inr mem

/-- The end of a mission owes the slot it leaves ahead of all that the same end makes ask for one (R95, log 87). -/
theorem Hall.endMission_ahead {h : Hall} {slot : Nat} {m : Mission} (hm : h.mission slot = some m) (new : Job.missionLeft ∉ h.agenda)
    (o : MissionOutcome) :
    ∃ pre post, (h.endMission slot o).agenda = pre ++ Job.missionLeft :: post ∧ ∀ j ∈ pre, j.asksSlot = false := by
  have leaves : ∃ pre post, (h.missionLeaves slot m o).agenda = pre ++ Job.missionLeft :: post ∧ ∀ j ∈ pre, j.asksSlot = false := by
    refine Hall.oweSlots_ahead fun mem => ?_
    rw [Hall.watchBays_agenda] at mem
    rcases Hall.mem_dropReservation mem with e | mem
    · exact Job.noConfusion e
    · refine new ?_
      split at mem <;> simpa using mem
  obtain ⟨pre, post, e, calm⟩ := leaves
  obtain ⟨more, later⟩ := (((Hall.OwesOn.refl (h.missionLeaves slot m o)).handoverEnds slot).armRestored m).callOwed m
  refine ⟨pre, post ++ more, ?_, calm⟩
  rw [Hall.endMission_eq hm, ← later, e, List.append_assoc, List.cons_append]

/-! ### The Bay Map -/

/-- Settles O28: the search of the bays in order, missions entered in free slots, the walk, whose reservations only take bays away, and the
agenda, to which the end of a mission adds behind the slot it owes. -/
theorem baysAreChosenAndReserved : Obligations.BaysAreChosenAndReserved := by
  refine ⟨?_, fun h ref hold => ⟨fun r hr => Hall.selectFor_some hr hold, fun hr => Hall.selectFor_none hr hold⟩, ?_,
    fun h sound => Hall.watchBays_noFreeBay sound, ?_, ?_, ?_, fun h b x hx => Hall.clearPlace_frees hx, ?_,
    fun h => ⟨rfl, by decide⟩⟩
  · intro h grade sorted keyed
    have all (a : Nat) : true = true ↔ True := iff_true_intro rfl
    exact ⟨fun b chosen => Hall.firstBay_some sorted keyed all chosen, fun none b => Hall.firstBay_none sorted keyed all none,
      fun b => Hall.selectBay_stored sorted keyed, fun none => Hall.selectBay_stored_none sorted keyed none⟩
  · intro h m
    refine ⟨fun once => Hall.NamesOnce.create once m, Hall.createMission_full, fun ref href named =>
      Hall.createMission_named (by rw [href]; exact named), fun slot free unnamed => ?_⟩
    have new : m.reel.any h.named = false := by
      cases href : m.reel with
      | none => rfl
      | some ref => exact unnamed ref href
    rw [Hall.createMission_made free new]
    exact ⟨rfl, Hall.enterMission_missions _ _ _, fun waits => Hall.enterMission_owes waits,
      fun b x hx => Hall.createWithBay_spec free new hx⟩
  · intro h slot m hm
    refine ⟨Hall.gotDrop_owes hm, fun ref b x kind bare href free hx => ?_, fun ref href full =>
      Hall.walkOne_full hm (by rw [href]; exact full), fun done => Hall.walkOne_passes hm ?_⟩
    · rw [Hall.walkOne_gives hm (Mission.waitsForBay_iff.mpr ⟨kind, bare⟩) href free]
      exact Hall.dropGiven_spec hm hx
    · rw [← Bool.not_eq_true, Mission.waitsForBay_iff]
      rintro ⟨kind, bare⟩
      rcases done with ⟨noIntake, noReturn⟩ | placed
      · exact kind.elim noIntake noReturn
      · simp [bare] at placed
  · intro h
    exact ⟨h.tableOrder_perm, h.tableOrder_ordered, rfl, fun slot m ref hm kind bare href =>
      h.walkBays_noBay slot m ref hm (Mission.waitsForBay_iff.mpr ⟨kind, bare⟩) href⟩
  · intro h slot b x held hx
    obtain ⟨dropped, owed⟩ := Hall.dropReservation_bay held hx
    exact ⟨dropped, owed, fun m ref hold hm href => Hall.contentOfReturn_spec held hx hm href⟩
  · intro h slot m o hm new
    obtain ⟨pre, post, e, calm⟩ := Hall.endMission_ahead hm new o
    exact ⟨pre, post, e, fun j mem => Job.asksSlot_false (calm j mem)⟩

end Sys2Proof.Machine
end

section
/-! PROOF. Missions by the host: Manual Mission, Cancel Mission and Acknowledge Vehicle Abort (O32). -/

-- One theorem after another, as in the laws: elaborated all at once they ask for more threads than the check has room for.
set_option Elab.async false

namespace Sys2Proof.Machine

/-! ### Manual Mission (R96) -/

section
variable {h : Hall} {m : Mission} {slot : Nat}

/-- The mission a request asks for, in its slot, with what follows from it. -/
theorem answerSlot_createMission (free : lowestFree h.missions 48 = some slot) (new : m.reel.any h.named = false) (refused : Hall) :
    ∃ g, answerSlot refused (h.createMission m) = g.accept (.number slot) ∧
      Hall.Follows { h with missions := tput h.missions slot { m with created := h.clock } } g := by
  rw [Hall.createMission_made free new]
  exact ⟨_, rfl, h.enterMission_follows _⟩

theorem answerSlot_createWithBay (free : lowestFree h.missions 48 = some slot) (new : m.reel.any h.named = false) (refused : Hall)
    (b : Option BayAddr) :
    ∃ g, answerSlot refused (h.createWithBay m b) = g.accept (.number slot) ∧
      Hall.Follows { h with missions := tput h.missions slot { m with drop := b.map .bay, created := h.clock } } g := by
  rw [Hall.createWithBay_made free new]
  exact ⟨_, rfl, (h.enterMission_follows _).reserve slot b⟩

end

/-- A drop bay the host may name: it is in the Bay Map, and free; with none named the bay is chosen. -/
def Hall.MayDrop (h : Hall) (bay : Option BayAddr) : Prop :=
  ∀ b, bay = some b → 1 ≤ b.aisle ∧ b.aisle ≤ 16 ∧ 1 ≤ b.pos ∧ b.pos ≤ 48 ∧
    ∃ x, h.bay b = some x ∧ x.blocked = false ∧ x.occupant = none ∧ x.reserved = none

section
variable {h : Hall} {bay : Option BayAddr}

theorem Hall.MayDrop.exists (may : h.MayDrop bay) : h.namedExists bay = true := by
  cases bay with
  | none => rfl
  | some b =>
    obtain ⟨a1, a16, p1, p48, x, hx, -⟩ := may b rfl
    simp [Hall.namedExists, bayInRange_iff.mpr ⟨a1, a16, p1, p48⟩, hx]

theorem Hall.MayDrop.free (may : h.MayDrop bay) : h.namedFree bay = true := by
  cases bay with
  | none => rfl
  | some b =>
    obtain ⟨-, -, -, -, x, hx, blocked, occupant, reserved⟩ := may b rfl
    simp [Hall.namedFree, hx, Bay.free_iff.mpr ⟨occupant, reserved, blocked⟩]

variable {id : ReelId} {i : Nat} {r : Reel}

theorem Hall.takeManual_reel {kind : MissionKind} (reel : kind = .intake ∨ kind = .ret) (may : h.MayDrop bay)
    (hr : h.reelById id = some (i, r)) (n : Nat) (deadline : Option Nat) :
    h.takeManual kind id bay n deadline = h.manualReel kind ⟨i, id⟩ r bay (deadline.getD h.clock) := by
  unfold Hall.takeManual
  rcases reel with rfl | rfl <;> simp only [may.exists, hr] <;> rfl

variable {slot : Nat} (may : h.MayDrop bay) (call : r.call = none) (unnamed : h.named ⟨i, id⟩ = false) (due : Nat)
include may call unnamed

/-- A reel that no call and no mission has passes check 3 (R96). -/
theorem Hall.manualReel_passes : (r.call.isSome || h.named ⟨i, id⟩ || !h.namedFree bay) = false := by
  simp [call, unnamed, may.free]

theorem Hall.manualReel_dock {d : Nat} (place : r.loc = .dock d) (held : r.state = .atDock ∨ r.state = .quarantined) :
    h.manualReel .intake ⟨i, id⟩ r bay due =
      answerSlot h (h.createWithBay (intakeMission ⟨i, id⟩ d due) (bay.or (h.selectFor ⟨i, id⟩ false))) := by
  unfold Hall.manualReel
  rw [Hall.manualReel_passes may call unnamed, place]
  exact if_pos held

theorem Hall.manualReel_bay {b : BayAddr} (place : r.loc = .bay b) :
    h.manualReel .ret ⟨i, id⟩ r bay due =
      answerSlot h (h.createWithBay { returnMission ⟨i, id⟩ (some (.bay b)) h.clock false with deadline := due }
        (bay.or (h.selectFor ⟨i, id⟩ false))) := by
  unfold Hall.manualReel
  rw [Hall.manualReel_passes may call unnamed, place]
  rfl

theorem Hall.manualReel_barred {v : Nat} (place : r.loc = .vehicle v)
    (barred : (h.vehicle v).mission.isSome ∨ (h.vehicle v).abort.isSome ∨ (h.vehicle v).supervision ≠ .reporting) :
    h.manualReel .ret ⟨i, id⟩ r bay due = h.refuse .state := by
  unfold Hall.manualReel
  rw [Hall.manualReel_passes may call unnamed, place]
  refine (if_neg Bool.false_ne_true).trans (if_pos ?_)
  simpa [or_assoc] using barred

theorem Hall.manualReel_vehicle {v : Nat} (place : r.loc = .vehicle v) (idle : (h.vehicle v).mission = none)
    (clear : (h.vehicle v).abort = none) (reports : (h.vehicle v).supervision = .reporting) (made : (h.makeReturn v bay).2 = some slot) :
    h.manualReel .ret ⟨i, id⟩ r bay due =
      ((h.makeReturn v bay).1.modMission slot fun m => { m with deadline := due }).accept (.number slot) := by
  unfold Hall.manualReel
  have fits : ((h.vehicle v).mission.isSome || (h.vehicle v).abort.isSome ||
      decide ((h.vehicle v).supervision ≠ .reporting)) = false := by simp [idle, clear, reports]
  rw [Hall.manualReel_passes may call unnamed, place]
  dsimp only
  rw [fits, ← Prod.mk.eta (p := h.makeReturn v bay), made]
  rfl

end

/-! #### The RETURN of a reel on a vehicle (R96, R107) -/

/-- The RETURN of a reel on a vehicle, as it is entered: it is under way at once. -/
def Hall.returnAboard (h : Hall) (v : Nat) (ref : ReelRef) (b : Option BayAddr) : Mission :=
  { returnMission ref none h.clock false with state := .carrying, vehicle := some v, drop := b.map .bay, created := h.clock }

@[simp] theorem Hall.enterMission_vehicles (h : Hall) (slot : Nat) (m : Mission) : (h.enterMission slot m).vehicles = h.vehicles := by
  unfold Hall.enterMission; dsimp only; split <;> simp

@[simp] theorem Hall.reserve_vehicles (h : Hall) (slot : Nat) (b : Option BayAddr) : (h.reserve slot b).vehicles = h.vehicles := by
  unfold Hall.reserve; split <;> simp

section
variable {h : Hall} {v slot : Nat} {ref : ReelRef}

theorem Hall.makeReturn_made (load : (h.vehicle v).load = some ref) (free : lowestFree h.missions 48 = some slot)
    (new : h.named ref = false) (bay : Option BayAddr) :
    h.makeReturn v bay =
      ((((h.enterMission slot (h.returnAboard v ref (bay.or (h.selectFor ref false)))).reserve slot
        (bay.or (h.selectFor ref false))).modVehicle v fun x => { x with mission := some slot }).carry slot, some slot) := by
  unfold Hall.makeReturn
  rw [load]
  dsimp only
  rw [Hall.createWithBay_made free (by simpa [returnMission] using new)]
  rfl

/-- The RETURN made for a vehicle is in its slot, and is the vehicle's mission. -/
theorem Hall.makeReturn_spec (load : (h.vehicle v).load = some ref) (free : lowestFree h.missions 48 = some slot)
    (new : h.named ref = false) (bay : Option BayAddr) :
    (h.makeReturn v bay).2 = some slot ∧
      (∃ way, (h.makeReturn v bay).1.mission slot =
        some { h.returnAboard v ref (bay.or (h.selectFor ref false)) with route := way }) ∧
      ((h.makeReturn v bay).1.vehicle v).mission = some slot := by
  have known : (tget h.vehicles v).isSome := by
    cases hx : tget h.vehicles v with
    | some x => rfl
    | none => simp [Hall.vehicle, hx, Vehicle.cold] at load
  rw [Hall.makeReturn_made load free new]
  set m := h.returnAboard v ref (bay.or (h.selectFor ref false)) with hm
  set entered := (h.enterMission slot m).reserve slot (bay.or (h.selectFor ref false)) with he
  have there : (entered.modVehicle v fun x => { x with mission := some slot }).mission slot = some m := by
    simp [Hall.mission, he]
  refine ⟨rfl, ⟨_, Hall.carry_mission there rfl⟩, ?_⟩
  rw [Vehicle.borne_field (Hall.carry_borne _ _ v) Vehicle.mission, Hall.vehicle_modVehicle, if_pos rfl]
  right
  simpa [he] using known

end

/-! #### The requests -/

section
variable {s : State} {q : Req} {slot : Nat} {deadline : Option Nat}

theorem State.manualMission_park (ok : q.ok 0x14) (free : lowestFree s.hall.missions 48 = some slot) {n : Nat} (n1 : 1 ≤ n)
    (n24 : n ≤ 24) (served : s.hall.served (.park n) = true) (id : ReelId) (bay : Option BayAddr) :
    ∃ t, exec (.manualMission q .park id bay n deadline) s = .next t ∧ s.Accepts t q 0x14 (.number slot)
      { s.hall with
        missions := tput s.hall.missions slot { parkMission n (deadline.getD s.hall.clock) with created := s.hall.clock } } := by
  obtain ⟨g, answer, follows⟩ := answerSlot_createMission (m := parkMission n (deadline.getD s.hall.clock)) free rfl s.hall
  refine ⟨_, rfl, State.request_accepts ok ?_ follows.toSteps⟩
  rw [← answer]
  exact if_pos (by rw [inRange_iff.mpr ⟨n1, n24⟩, served]; rfl)

variable {id : ReelId} {bay : Option BayAddr} {i : Nat} {r : Reel} (ok : q.ok 0x14) (free : lowestFree s.hall.missions 48 = some slot)
  (hr : s.hall.reelById id = some (i, r)) (call : r.call = none) (unnamed : s.hall.named ⟨i, id⟩ = false) (may : s.hall.MayDrop bay)
include ok free hr call unnamed may

theorem State.manualMission_intake {d : Nat} (place : r.loc = .dock d) (held : r.state = .atDock ∨ r.state = .quarantined) (n : Nat) :
    ∃ t, exec (.manualMission q .intake id bay n deadline) s = .next t ∧ s.Accepts t q 0x14 (.number slot)
      { s.hall with
        missions := tput s.hall.missions slot { intakeMission ⟨i, id⟩ d (deadline.getD s.hall.clock) with
          drop := (bay.or (s.hall.selectFor ⟨i, id⟩ false)).map .bay, created := s.hall.clock } } := by
  obtain ⟨g, answer, follows⟩ := answerSlot_createWithBay (m := intakeMission ⟨i, id⟩ d (deadline.getD s.hall.clock)) free
    (by simpa [intakeMission] using unnamed) s.hall (bay.or (s.hall.selectFor ⟨i, id⟩ false))
  refine ⟨_, rfl, State.request_accepts ok ?_ follows.toSteps⟩
  rw [Hall.takeManual_reel (.inl rfl) may hr, Hall.manualReel_dock may call unnamed _ place held, answer]

theorem State.manualMission_fromBay {b : BayAddr} (place : r.loc = .bay b) (n : Nat) :
    ∃ t, exec (.manualMission q .ret id bay n deadline) s = .next t ∧ s.Accepts t q 0x14 (.number slot)
      { s.hall with
        missions := tput s.hall.missions slot { returnMission ⟨i, id⟩ (some (.bay b)) s.hall.clock false with
          deadline := deadline.getD s.hall.clock, drop := (bay.or (s.hall.selectFor ⟨i, id⟩ false)).map .bay
          created := s.hall.clock } } := by
  obtain ⟨g, answer, follows⟩ := answerSlot_createWithBay
    (m := { returnMission ⟨i, id⟩ (some (.bay b)) s.hall.clock false with deadline := deadline.getD s.hall.clock }) free
    (by simpa [returnMission] using unnamed) s.hall (bay.or (s.hall.selectFor ⟨i, id⟩ false))
  refine ⟨_, rfl, State.request_accepts ok ?_ follows.toSteps⟩
  rw [Hall.takeManual_reel (.inr rfl) may hr, Hall.manualReel_bay may call unnamed _ place, answer]

variable {v : Nat} (place : r.loc = .vehicle v)
include place

omit free in
theorem State.manualMission_barred (n : Nat)
    (barred : (s.hall.vehicle v).mission.isSome ∨ (s.hall.vehicle v).abort.isSome ∨ (s.hall.vehicle v).supervision ≠ .reporting) :
    exec (.manualMission q .ret id bay n deadline) s = .next (s.reply q 0x14 .state .none) := by
  refine congrArg Host.Outcome.next (State.request_tells ok ?_)
  rw [Hall.takeManual_reel (.inr rfl) may hr, Hall.manualReel_barred may call unnamed _ place barred]
  rfl

/-- The RETURN of a reel on an idle vehicle: what is made for it takes the host's deadline (log 80). -/
theorem State.manualMission_aboard (n : Nat) (idle : (s.hall.vehicle v).mission = none) (clear : (s.hall.vehicle v).abort = none)
    (reports : (s.hall.vehicle v).supervision = .reporting) (load : (s.hall.vehicle v).load = some ⟨i, id⟩) :
    let due := deadline.getD s.hall.clock
    ∃ t m, exec (.manualMission q .ret id bay n deadline) s = .next t ∧ s.Answers t q 0x14 .ok (.number slot) ∧
      t.hall.setting = s.hall.setting ∧ t.hall.mission slot = some m ∧ m.kind = .ret ∧ m.reel = some ⟨i, id⟩ ∧ m.pickup = none ∧
      m.deadline = due ∧ m.created = s.hall.clock ∧ m.call = none ∧
      t.hall = ((s.hall.makeReturn v bay).1.modMission slot fun m => { m with deadline := due }).finish := by
  intro due
  obtain ⟨made, ⟨way, entered⟩, -⟩ := Hall.makeReturn_spec load free unnamed bay
  have taken : s.hall.takeManual .ret id bay n deadline =
      ((s.hall.makeReturn v bay).1.modMission slot fun m => { m with deadline := due }).accept (.number slot) := by
    rw [Hall.takeManual_reel (.inr rfl) may hr, Hall.manualReel_vehicle may call unnamed _ place idle clear reports made]
  obtain ⟨answers, hall⟩ := State.request_finishes ok taken
  set g := (s.hall.makeReturn v bay).1.modMission slot fun m => { m with deadline := due } with hg
  have handled : Hall.Handles true true s.hall g :=
    (((Hall.Follows.refl s.hall).makeReturn v bay).handles).modMission slot _
  have there : tget g.missions slot =
      some { s.hall.returnAboard v ⟨i, id⟩ (bay.or (s.hall.selectFor ⟨i, id⟩ false)) with route := way, deadline := due } := by
    rw [hg, Hall.modMission_missions, tget_tmod_same, ← Hall.mission, entered]
    rfl
  obtain ⟨m, hm, step⟩ := g.finish_steps.missions slot _ there (by simp [Hall.returnAboard, returnMission])
  exact ⟨_, m, rfl, answers, hall ▸ (Hall.setting_of_ground g.finish_steps.same).trans handled.setting, hall ▸ hm, step.kind, step.reel,
    step.pickup, step.deadline, step.created, step.call, hall⟩

end

/-! ### Cancel Mission (R96, R108) -/

theorem Mission.picked_iff {m : Mission} : m.picked = true ↔ (m.state = .carrying ∨ m.state = .handover) ∧ m.reel.isSome := by
  simp [Mission.picked]

section
variable {h : Hall} {slot : Nat} {m : Mission} {v : Nat}

theorem Hall.reelAboard_iff (hv : m.vehicle = some v) :
    h.reelAboard m = true ↔ ∃ ref r, m.reel = some ref ∧ h.reel ref = some r ∧ r.loc = .vehicle v := by
  unfold Hall.reelAboard
  rw [hv]
  cases m.reel with
  | none => simp
  | some ref => simp [Option.any_eq_true]

/-! #### The cases of R108 -/

theorem Hall.hostCancel_unassigned (hv : m.vehicle = none) : h.hostCancel slot m = (h.cancelBeforePick slot .cancelled, true) := by
  unfold Hall.hostCancel
  rw [hv]

theorem Hall.hostCancel_charge (hv : m.vehicle = some v) (kind : m.kind = .charge) : h.hostCancel slot m =
    (((((h.endMission slot .cancelled).direct v .hold).setActivity v .idle).push (.chargeNeed v)).push .arbiter, true) := by
  unfold Hall.hostCancel
  rw [hv]
  exact if_pos kind

theorem Hall.hostCancel_atTransfer (hv : m.vehicle = some v) (kind : m.kind ≠ .charge) (at_ : (h.vehicle v).atTransfer = true) :
    h.hostCancel slot m = (h, false) := by
  unfold Hall.hostCancel
  rw [hv]
  exact (if_neg kind).trans (if_pos at_)

variable (hv : m.vehicle = some v) (kind : m.kind ≠ .charge) (away : (h.vehicle v).atTransfer = false)
include hv kind away

/-- A mission whose reel is not yet picked, or no longer at its vehicle. -/
theorem Hall.hostCancel_unladen (unladen : m.picked = false ∨ h.reelAboard m = false) :
    h.hostCancel slot m = ((h.abort v .hostCancel).cancelBeforePick slot .cancelled, true) := by
  unfold Hall.hostCancel
  rw [hv]
  dsimp only
  rw [if_neg kind, if_neg (by simp [away])]
  rcases unladen with e | e
  · exact if_pos (by simp [e])
  · simp only [e, Bool.not_false, if_true, ite_self]

theorem Hall.hostCancel_laden (picked : m.picked = true) (aboard : h.reelAboard m = true) :
    h.hostCancel slot m = if m.kind = .ret then (h, false) else
      (((h.abort v .hostCancel).turnToReturn slot false).holdAborted v, true) := by
  unfold Hall.hostCancel
  rw [hv]
  dsimp only
  rw [if_neg kind, if_neg (by simp [away]), if_neg (by simp [picked]), if_neg (by simp [aboard])]

end

/-! #### A mission that is removed -/

section
variable {h : Hall} {slot : Nat} {m : Mission} {v : Nat}

/-- A cancel before the pick leaves the abort records of the vehicles. -/
theorem Hall.cancelBeforePick_aborts (hm : h.mission slot = some m) (o : MissionOutcome) (w : Nat) :
    ((h.cancelBeforePick slot o).vehicle w).abort = (h.vehicle w).abort := by
  have hm' : (h.releaseReel m .fleetController).mission slot = some m := by rwa [Hall.mission, Hall.releaseReel_missions]
  have ended : (((h.releaseReel m .fleetController).endMission slot o).vehicle w).abort = (h.vehicle w).abort := by
    rw [Hall.endMission_vehicle _ _ hm']
    have same : (h.releaseReel m .fleetController).vehicle w = h.vehicle w := by rw [Hall.vehicle, Hall.releaseReel_vehicles]; rfl
    split <;> rw [same]
  unfold Hall.cancelBeforePick
  rw [hm]
  dsimp only
  split
  · rw [Vehicle.borne_field ((Hall.afterEnd_borne _ _ _ _ w).trans (Hall.direct_borne _ _ _ w)) Vehicle.abort, ended]
  · exact ended

/-- A cancel before the pick is told if three notices fit besides: so many may the release of the reel tell. -/
theorem Hall.cancelBeforePick_told (hm : h.mission slot = some m) (room : h.notices.length + 3 < 64) (o : MissionOutcome) :
    ∃ k, ⟨k, .missionEnd slot m.kind m.reel m.vehicle o⟩ ∈ (h.cancelBeforePick slot o).notices := by
  have hm' : (h.releaseReel m .fleetController).mission slot = some m := by rwa [Hall.mission, Hall.releaseReel_missions]
  have ended := Hall.endMission_tells hm' (((Tells.refl h).releaseReel m .fleetController).room (by omega)) o
  unfold Hall.cancelBeforePick
  rw [hm]
  dsimp only
  split
  · rwa [Hall.butRoads_field ((Hall.afterEnd_butRoads _ _ _ _).trans (Hall.direct_butRoads _ _ _)) Hall.notices]
  · exact ended

/-- `g` is `h` without the mission of a slot: its end is told, and its vehicle has the host's cause in its abort record, but for a
CHARGE mission's (R105, R108). -/
structure Hall.Cancelled (h g : Hall) (slot : Nat) (m : Mission) : Prop where
  missions : g.missions = tdel h.missions slot
  aborts : ∀ v, m.vehicle = some v → m.kind ≠ .charge → (tget h.vehicles v).isSome →
    ∃ x, (g.vehicle v).abort = some x ∧ .hostCancel ∈ x.causes
  tells : h.notices.length ≤ 48 → ∃ k, ⟨k, .missionEnd slot m.kind m.reel m.vehicle .cancelled⟩ ∈ g.notices

theorem Hall.cancelled_unassigned (hm : h.mission slot = some m) (hv : m.vehicle = none) :
    h.Cancelled (h.cancelBeforePick slot .cancelled) slot m where
  missions := Hall.cancelBeforePick_missions hm _
  aborts v e := by rw [hv] at e; cases e
  tells room := Hall.cancelBeforePick_told hm (by omega) _

theorem Hall.cancelled_charge (hm : h.mission slot = some m) (kind : m.kind = .charge) (v : Nat) : h.Cancelled
    (((((h.endMission slot .cancelled).direct v .hold).setActivity v .idle).push (.chargeNeed v)).push .arbiter) slot m := by
  have told : (((((h.endMission slot .cancelled).direct v .hold).setActivity v .idle).push (.chargeNeed v)).push .arbiter).butRoads =
      (h.endMission slot .cancelled).butRoads := by simp
  refine ⟨?_, fun w _ other => absurd kind other, fun room => ?_⟩
  · rw [Hall.butRoads_field told Hall.missions, Hall.endMission_missions hm]
  · rw [Hall.butRoads_field told Hall.notices]
    exact Hall.endMission_tells hm (by omega) _

theorem Hall.cancelled_unladen (hm : h.mission slot = some m) (hv : m.vehicle = some v) :
    h.Cancelled ((h.abort v .hostCancel).cancelBeforePick slot .cancelled) slot m := by
  have hm' : (h.abort v .hostCancel).mission slot = some m := by rwa [Hall.mission, Hall.abort_missions]
  refine ⟨?_, fun w hw _ known => ?_, fun room => Hall.cancelBeforePick_told hm' ?_ _⟩
  · rw [Hall.cancelBeforePick_missions hm', Hall.abort_missions]
  · obtain rfl : v = w := Option.some.inj (hv.symm.trans hw)
    rw [Hall.cancelBeforePick_aborts hm']
    exact Hall.abort_causes known _
  · have one : (h.abort v .hostCancel).notices.length ≤ h.notices.length + 1 := (Tells.refl h).abort v .hostCancel
    omega

/-- Which missions a cancel removes (R108). -/
theorem Hall.hostCancel_removes (hm : h.mission slot = some m)
    (free : m.vehicle = none ∨ ∃ v, m.vehicle = some v ∧ (m.kind = .charge ∨
      (h.vehicle v).atTransfer = false ∧ ((m.state ≠ .carrying ∧ m.state ≠ .handover) ∨
        ∀ ref r, m.reel = some ref → h.reel ref = some r → r.loc ≠ .vehicle v))) :
    (h.hostCancel slot m).2 = true ∧ h.Cancelled (h.hostCancel slot m).1 slot m := by
  rcases free with hv | ⟨v, hv, charge | ⟨away, unladen⟩⟩
  · rw [Hall.hostCancel_unassigned hv]
    exact ⟨rfl, Hall.cancelled_unassigned hm hv⟩
  · rw [Hall.hostCancel_charge hv charge]
    exact ⟨rfl, Hall.cancelled_charge hm charge v⟩
  · by_cases charge : m.kind = .charge
    · rw [Hall.hostCancel_charge hv charge]
      exact ⟨rfl, Hall.cancelled_charge hm charge v⟩
    have unladen : m.picked = false ∨ h.reelAboard m = false := by
      simp only [← Bool.not_eq_true, Mission.picked_iff, Hall.reelAboard_iff hv]
      rcases unladen with ⟨carrying, handover⟩ | elsewhere
      · exact .inl fun picked => picked.1.elim carrying handover
      · exact .inr fun ⟨ref, r, href, hr, place⟩ => elsewhere ref r href hr place
    rw [Hall.hostCancel_unladen hv charge away unladen]
    exact ⟨rfl, Hall.cancelled_unladen hm hv⟩

/-- A mission with its reel aboard goes on as the RETURN of that reel (R55, R108). -/
theorem Hall.hostCancel_turns (hm : h.mission slot = some m) (hv : m.vehicle = some v) (kind : m.kind = .intake ∨ m.kind = .deliver)
    (away : (h.vehicle v).atTransfer = false) (picked : m.picked = true) (aboard : h.reelAboard m = true) :
    (h.hostCancel slot m).2 = true ∧
      ∃ n, (h.hostCancel slot m).1.mission slot = some n ∧ n.kind = .ret ∧ n.reel = m.reel := by
  have charge : m.kind ≠ .charge := by rcases kind with e | e <;> simp [e]
  have ret : m.kind ≠ .ret := by rcases kind with e | e <;> simp [e]
  rw [Hall.hostCancel_laden hv charge away picked aboard, if_neg ret]
  obtain ⟨ref, href⟩ := Option.isSome_iff_exists.mp (Mission.picked_iff.mp picked).2
  have hm' : (h.abort v .hostCancel).mission slot = some m := by rwa [Hall.mission, Hall.abort_missions]
  obtain ⟨n, hn, turned, reel⟩ := Hall.turnToReturn_mission hm' href false
  obtain ⟨o, ho, turned', reel'⟩ := ((Hall.Follows.refl _).holdAborted v).ret hn turned
  exact ⟨rfl, o, ho, turned', reel'.trans reel⟩

end

/-! #### The requests -/

section
variable {s : State} {q : Req} {slot : Nat} {m : Mission} (ok : q.ok 0x15)
include ok

theorem State.cancelMission_vacant (hm : s.hall.mission slot = none) :
    exec (.cancelMission q slot) s = .next (s.reply q 0x15 .notFound .none) := by
  refine congrArg Host.Outcome.next (State.request_tells ok ?_)
  rw [Hall.takeCancel, hm]
  rfl

variable (hm : s.hall.mission slot = some m)
include hm

theorem State.cancelMission_refused (refused : (s.hall.hostCancel slot m).2 = false) :
    exec (.cancelMission q slot) s = .next (s.reply q 0x15 .state .none) := by
  refine congrArg Host.Outcome.next (State.request_tells ok ?_)
  rw [Hall.takeCancel, hm]
  dsimp only
  rw [← Prod.mk.eta (p := s.hall.hostCancel slot m), refused]
  rfl

theorem State.cancelMission_taken (taken : (s.hall.hostCancel slot m).2 = true) :
    ∃ t, exec (.cancelMission q slot) s = .next t ∧ s.Answers t q 0x15 .ok .none ∧ t.hall = (s.hall.hostCancel slot m).1.finish ∧
      t.hall.setting = s.hall.setting := by
  have answer : s.hall.takeCancel slot = (s.hall.hostCancel slot m).1.accept .none := by
    rw [Hall.takeCancel, hm]
    dsimp only
    rw [← Prod.mk.eta (p := s.hall.hostCancel slot m), taken]
  obtain ⟨answers, hall⟩ := State.request_finishes ok answer
  have cancelled : Hall.Handles true true s.hall (s.hall.hostCancel slot m).1 := (Hall.Handles.refl _).hostCancel slot m
  exact ⟨_, rfl, answers, hall, hall ▸ (Hall.setting_of_ground (Hall.finish_trace _).same).trans cancelled.setting⟩

end

/-! ### Acknowledge Vehicle Abort (R106) -/

section
variable {h : Hall} {v : Nat}

theorem Hall.goOn_follows (h : Hall) (v : Nat) : h.Follows (h.goOn v) := by
  unfold Hall.goOn
  dsimp only
  split
  · exact (Hall.Follows.refl h).resumeMission _
  · exact (Hall.Follows.refl h).returnIfOwed v
  · exact ((Hall.Follows.refl h).chargeTest v).push _

variable {r : AbortRecord} (number : inRange 1 24 v = true)
include number

theorem Hall.takeAckAbort_clear (none : (h.vehicle v).abort = none) : h.takeAckAbort v = h.refuse .state := by
  unfold Hall.takeAckAbort
  rw [number, none]
  rfl

theorem Hall.takeAckAbort_lost (record : (h.vehicle v).abort = some r) (lost : (h.vehicle v).supervision = .lost)
    (cause : .vehicleLost ∈ r.causes) : h.takeAckAbort v =
      (h.modVehicle v fun x => { x with abort := some { r with causes := [.vehicleLost] } }).accept (.causes [.vehicleLost]) := by
  unfold Hall.takeAckAbort
  rw [number, record]
  exact (if_neg Bool.false_ne_true).trans (if_pos ⟨lost, cause⟩)

theorem Hall.takeAckAbort_removes (record : (h.vehicle v).abort = some r)
    (found : ¬((h.vehicle v).supervision = .lost ∧ .vehicleLost ∈ r.causes)) :
    h.takeAckAbort v = ((h.modVehicle v fun x => { x with abort := none }).goOn v).accept (.causes []) := by
  unfold Hall.takeAckAbort
  rw [number, record]
  exact (if_neg Bool.false_ne_true).trans (if_neg found)

end

/-! ### Missions by the host -/

/-- Settles O32: each request by the checks it passes; of a cancel, what it removes or turns, and of the rest, what follows. -/
theorem hostMissionsEnterAndLeave : Obligations.HostMissionsEnterAndLeave := by
  refine ⟨fun s q slot deadline ok free => ⟨?_, ?_⟩, fun s q slot ok => ⟨?_, ?_, ?_, ?_, ?_⟩, fun s q v ok v1 v24 => ?_⟩
  · intro id bay n n1 n24 served
    exact State.manualMission_park ok free n1 n24 served id bay
  · intro id i r bay n hr call unnamed may
    refine ⟨fun d place held => State.manualMission_intake ok free hr call unnamed may place held n,
      fun b place => State.manualMission_fromBay ok free hr call unnamed may place n, fun v x place hx => ?_⟩
    obtain rfl := Hall.vehicle_of_record hx
    refine ⟨State.manualMission_barred ok hr call unnamed may place n, fun idle clear reports load => ?_⟩
    obtain ⟨t, m, ht, answers, setting, hm, kind, reel, pickup, due, created, noCall, hall⟩ :=
      State.manualMission_aboard (deadline := deadline) ok free hr call unnamed may place n idle clear reports load
    obtain ⟨-, ⟨way, entered⟩, bound⟩ := Hall.makeReturn_spec load free unnamed bay
    exact ⟨t, m, ht, answers, setting, hm, kind, reel, pickup, due, created, noCall, hall, by rw [entered]; rfl, bound⟩
  · intro m hm removable
    obtain ⟨taken, cancelled⟩ := Hall.hostCancel_removes hm removable
    obtain ⟨t, ht, answers, hall, setting⟩ := State.cancelMission_taken ok hm taken
    refine ⟨t, ht, answers, hall, fun sorted => ?_, fun k hk => ?_, setting, cancelled.aborts, fun room => ?_⟩
    · rw [Hall.mission, cancelled.missions, tget_tdel_same sorted]
    · rw [Hall.mission, cancelled.missions, tget_tdel_ne _ hk]; rfl
    · obtain ⟨k, told⟩ := cancelled.tells room
      exact ⟨k, hall ▸ (Hall.finish_trace _).notices.subset told⟩
  · intro m v ref r hm hv kind away state href hr place
    have picked : m.picked = true := Mission.picked_iff.mpr ⟨state, by simp [href]⟩
    obtain ⟨taken, n, hn, turned, reel⟩ :=
      Hall.hostCancel_turns hm hv kind away picked ((Hall.reelAboard_iff hv).mpr ⟨ref, r, href, hr, place⟩)
    obtain ⟨t, ht, answers, hall, setting⟩ := State.cancelMission_taken ok hm taken
    obtain ⟨o, ho, turned', reel'⟩ := (Hall.finish_steps _).ret hn turned
    exact ⟨t, o, ht, answers, hall ▸ ho, turned', reel'.trans (reel.trans href), setting⟩
  · intro m v hm hv kind at_
    exact State.cancelMission_refused ok hm (by rw [Hall.hostCancel_atTransfer hv kind at_])
  · intro m v ref r hm hv kind state href hr place
    have charge : m.kind ≠ .charge := by simp [kind]
    refine State.cancelMission_refused ok hm ?_
    cases away : (s.hall.vehicle v).atTransfer with
    | true => rw [Hall.hostCancel_atTransfer hv charge away]
    | false =>
      rw [Hall.hostCancel_laden hv charge away (Mission.picked_iff.mpr ⟨state, by simp [href]⟩)
        ((Hall.reelAboard_iff hv).mpr ⟨ref, r, href, hr, place⟩), if_pos kind]
  · exact State.cancelMission_vacant ok
  · have number := inRange_iff.mpr ⟨v1, v24⟩
    refine ⟨fun r record found => ?_, fun r record lost cause jobs ceilings => ?_, fun none => ?_⟩
    · have accepts := State.request_accepts (s := s) (f := fun h => h.takeAckAbort v) ok
        (Hall.takeAckAbort_removes number record found) (Hall.goOn_follows _ v).toSteps
      refine ⟨_, rfl, accepts, fun served => ?_⟩
      rw [accepts.2.aborts served v, Hall.vehicle_modVehicle _ _ _ _ (.inl rfl), if_pos rfl]
    · refine congrArg Host.Outcome.next ((State.request_taken ok s _).trans ?_)
      rw [Hall.takeAckAbort_lost number record lost cause]
      exact congrArg (fun g => ({ s with hall := g } : State).reply q 0x16 .ok (.causes [.vehicleLost]))
        (Hall.finish_of_nothing_owed jobs ceilings)
    · exact congrArg Host.Outcome.next (State.request_tells ok (Hall.takeAckAbort_clear number none))

end Sys2Proof.Machine
end

section
/-! PROOF. Zones and their holders: what Traffic Control's operations on zones leave (R69 to R79). -/

-- One theorem after another, as in the laws: elaborated all at once they ask for more threads than the check has room for.
set_option Elab.async false

namespace Sys2Proof.Machine

/-! ### Zones after an update -/

/-- The holder and the charger hold of zone `k` (R62). -/
def Hall.grip (h : Hall) (k : Nat) : Option (Option Nat × Option ChargerHold) := (h.zone k).map fun y => (y.holder, y.hold)

/-- The holder of zone `k` (R62). -/
def Hall.holderOf (h : Hall) (k : Nat) : Option Nat := (h.zone k).bind Zone.holder

/-- Vehicle `v` stands in the wait list of a zone (R74). -/
def Hall.Waits (h : Hall) (v : Nat) : Prop := ∃ p ∈ h.zones, v ∈ p.2.wait

section
variable (h : Hall)

theorem Hall.zone_congr {a b : Hall} (e : a.zones = b.zones) (k : Nat) : a.zone k = b.zone k := by rw [Hall.zone, e]; rfl

theorem Hall.zone_modZone (z k : Nat) (f : Zone → Zone) :
    (h.modZone z f).zone k = if k = z then (h.zone k).map f else h.zone k := by
  rw [Hall.zone, Hall.modZone_zones, tget_tmod]; rfl

theorem Hall.zone_modZone_same (z : Nat) (f : Zone → Zone) : (h.modZone z f).zone z = (h.zone z).map f := by
  rw [Hall.zone_modZone, if_pos rfl]

theorem Hall.zone_modZone_ne {z k : Nat} (ne : k ≠ z) (f : Zone → Zone) : (h.modZone z f).zone k = h.zone k := by
  rw [Hall.zone_modZone, if_neg ne]

theorem Hall.holderOf_eq_some {k v : Nat} : h.holderOf k = some v ↔ ∃ x, h.zone k = some x ∧ x.holder = some v :=
  Option.bind_eq_some_iff

theorem Hall.holderOf_eq_grip (k : Nat) : h.holderOf k = (h.grip k).bind (·.1) := by
  unfold Hall.holderOf Hall.grip; cases h.zone k <;> rfl

/-- A change of a zone that leaves its holder. -/
theorem Hall.holderOf_modZone {f : Zone → Zone} (hf : ∀ x, (f x).holder = x.holder) (z k : Nat) :
    (h.modZone z f).holderOf k = h.holderOf k := by
  unfold Hall.holderOf
  rw [Hall.zone_modZone]
  split
  · cases h.zone k with
    | none => rfl
    | some x => exact hf x
  · rfl

/-- A change of a zone that leaves its holder and its charger hold. -/
theorem Hall.grip_modZone {f : Zone → Zone} (hf : ∀ x, ((f x).holder, (f x).hold) = (x.holder, x.hold)) (z k : Nat) :
    (h.modZone z f).grip k = h.grip k := by
  unfold Hall.grip
  rw [Hall.zone_modZone]
  split
  · cases h.zone k with
    | none => rfl
    | some x => exact congrArg some (hf x)
  · rfl

theorem Hall.waits_modZone {f : Zone → Zone} (hf : ∀ x, (f x).wait ⊆ x.wait) {z v : Nat} (w : (h.modZone z f).Waits v) : h.Waits v := by
  obtain ⟨p, mem, waits⟩ := w
  obtain mem | ⟨x, listed, -, rfl⟩ := mem_tmod mem
  · exact ⟨p, mem, waits⟩
  · exact ⟨(z, x), listed, hf x waits⟩

/-- Zones are configured before and after what keeps their configuration. -/
theorem Hall.zone_fixed {a b : Hall} (same : b.ground = a.ground) (k : Nat) : (b.zone k).map Zone.fixed = (a.zone k).map Zone.fixed := by
  have e : tview Zone.fixed b.zones = tview Zone.fixed a.zones := congrArg Hall.zones same
  rw [Hall.zone, Hall.zone, ← tget_tview, e, tget_tview]

end

/-! ### A wait entry is removed (R74) -/

/-- A zone with vehicle `v` out of its wait list (R74). -/
def Zone.without (v : Nat) (x : Zone) : Zone := { x with wait := x.wait.filter (· ≠ v) }

theorem Zone.without_subset (v : Nat) (x : Zone) : (x.without v).wait ⊆ x.wait := List.filter_subset_self _

section
variable {h : Hall} {v : Nat}

theorem Hall.unwait_eq {z : Nat} (waits : h.waitsFor v = some z) : h.unwait v = h.modZone z (Zone.without v) := by
  unfold Hall.unwait; rw [waits]; rfl

theorem Hall.unwait_none (idle : h.waitsFor v = none) : h.unwait v = h := by
  unfold Hall.unwait; rw [idle]

/-- The zone a vehicle stood waiting for has it in its list no more. -/
theorem Hall.unwait_left {k : Nat} (waits : h.waitsFor v = some k) {y : Zone} (hy : (h.unwait v).zone k = some y) : v ∉ y.wait := by
  rw [Hall.unwait_eq waits, Hall.zone_modZone_same, Option.map_eq_some_iff] at hy
  obtain ⟨x, -, rfl⟩ := hy
  simp [Zone.without]

/-- A wait list that has not the vehicle stays as it is. -/
theorem Hall.unwait_wait {k : Nat} {x : Zone} (hx : h.zone k = some x) (absent : v ∉ x.wait) : (h.unwait v).zone k = some x := by
  have kept : x.without v = x := by
    have all : x.wait.filter (fun u => decide (u ≠ v)) = x.wait :=
      List.filter_eq_self.mpr fun u mem => decide_eq_true fun e => absent (e ▸ mem)
    rw [Zone.without, all]
  cases hw : h.waitsFor v with
  | none => rwa [Hall.unwait_none hw]
  | some z =>
    rw [Hall.unwait_eq hw, Hall.zone_modZone]
    split
    · rw [hx, Option.map_some, kept]
    · exact hx

variable (h v)

@[simp] theorem Hall.unwait_vehicles : (h.unwait v).vehicles = h.vehicles := by unfold Hall.unwait; split <;> rfl

@[simp] theorem Hall.unwait_vehicle (w : Nat) : (h.unwait v).vehicle w = h.vehicle w := by simp [Hall.vehicle]

theorem Hall.unwait_grip (k : Nat) : (h.unwait v).grip k = h.grip k := by
  cases hw : h.waitsFor v with
  | none => rw [Hall.unwait_none hw]
  | some z => rw [Hall.unwait_eq hw]; exact h.grip_modZone (f := Zone.without v) (fun _ => rfl) z k

theorem Hall.unwait_holderOf (k : Nat) : (h.unwait v).holderOf k = h.holderOf k := by
  rw [Hall.holderOf_eq_grip, Hall.unwait_grip, ← Hall.holderOf_eq_grip]

theorem Hall.unwait_waits {w : Nat} (waits : (h.unwait v).Waits w) : h.Waits w := by
  cases hw : h.waitsFor v with
  | none => rwa [Hall.unwait_none hw] at waits
  | some z => rw [Hall.unwait_eq hw] at waits; exact h.waits_modZone (Zone.without_subset v) waits

variable {h v}

/-- A vehicle that waits in one list only waits nowhere once its entry is removed. -/
theorem Hall.unwait_clears (sorted : tsorted h.zones = true) (one : ∀ p ∈ h.zones, v ∈ p.2.wait → h.waitsFor v = some p.1) :
    ¬ (h.unwait v).Waits v := by
  intro waits
  cases hw : h.waitsFor v with
  | none =>
    rw [Hall.unwait_none hw] at waits
    obtain ⟨p, mem, waits⟩ := waits
    exact absurd (one p mem waits) (by simp [hw])
  | some z =>
    obtain ⟨p, mem, waits⟩ := waits
    have here : (h.unwait v).zone p.1 = some p.2 := tget_of_mem (by rw [Hall.unwait_eq hw]; exact tsorted_tmod sorted _ _) mem
    have only : h.waitsFor v = some p.1 := by
      rw [Hall.unwait_eq hw] at mem
      obtain mem | ⟨x, listed, -, rfl⟩ := mem_tmod mem
      · exact one p mem waits
      · exact one (z, x) listed (Zone.without_subset v x waits)
    exact Hall.unwait_left only here waits

end

/-! ### A grant (R73, R92) -/

/-- A zone in the hands of vehicle `v` (R73). -/
def Zone.given (v : Nat) (x : Zone) : Zone := { x with holder := some v, hold := none }

section
variable (h : Hall) (v z : Nat)

@[simp] theorem Hall.refreshMove_zones : (h.refreshMove v).zones = h.zones := by
  unfold Hall.refreshMove; split
  · dsimp only; split <;> rfl
  · rfl

@[simp] theorem Hall.refreshMove_zone (k : Nat) : (h.refreshMove v).zone k = h.zone k := Hall.zone_congr (h.refreshMove_zones v) k

theorem Hall.issue_ahead (k : DirKind) (w : Nat) : ((h.issue v k).vehicle w).ahead = (h.vehicle w).ahead := by
  unfold Hall.issue Hall.vehicle
  dsimp only
  rw [Hall.sendDirective_vehicles, Hall.modVehicle_vehicles, tget_tmod]
  split
  · cases tget h.vehicles w <;> rfl
  · rfl

theorem Hall.refreshMove_ahead (w : Nat) : ((h.refreshMove v).vehicle w).ahead = (h.vehicle w).ahead := by
  unfold Hall.refreshMove; split
  · dsimp only; split
    · rfl
    · exact h.issue_ahead v _ w
  · rfl

/-- A MOVE is current with the place of the furthest zone held, whether issued again or not (R92). -/
theorem Hall.refreshMove_kind {zones : List Nat} {n : Nat} (move : (h.vehicle v).directive.kind = .move zones n)
    (known : (tget h.vehicles v).isSome) :
    ((h.refreshMove v).vehicle v).directive.kind = .move zones ((h.vehicle v).through zones) := by
  unfold Hall.refreshMove
  rw [move]
  dsimp only
  split
  · rename_i same; rw [move, same]
  · change ((h.modVehicle v _).vehicle v).directive.kind = _
    rw [Hall.vehicle_modVehicle _ _ _ _ (.inr known), if_pos rfl]

theorem Hall.grant_zone (k : Nat) : (h.grant v z).zone k = ((h.unwait v).modZone z (Zone.given v)).zone k := by
  unfold Hall.grant; dsimp only; rw [Hall.refreshMove_zone]; rfl

theorem Hall.grant_grip (k : Nat) : (h.grant v z).grip k = if k = z then (h.grip k).map fun _ => (some v, none) else h.grip k := by
  rw [← h.unwait_grip v k, Hall.grip, Hall.grant_zone, Hall.zone_modZone]
  unfold Hall.grip
  split
  · cases (h.unwait v).zone k <;> rfl
  · rfl

theorem Hall.grant_holderOf (k : Nat) (configured : (h.zone z).isSome) :
    (h.grant v z).holderOf k = if k = z then some v else h.holderOf k := by
  rw [Hall.holderOf_eq_grip, Hall.grant_grip]
  split
  · rename_i e; subst e
    obtain ⟨x, hx⟩ := Option.isSome_iff_exists.mp configured
    simp [Hall.grip, hx]
  · exact (h.holderOf_eq_grip k).symm

theorem Hall.grant_waits {w : Nat} (waits : (h.grant v z).Waits w) : h.Waits w := by
  unfold Hall.grant Hall.Waits at waits
  dsimp only at waits
  rw [Hall.refreshMove_zones] at waits
  exact h.unwait_waits v (Hall.waits_modZone (h.unwait v) (z := z) (f := Zone.given v) (fun _ => List.Subset.refl _) waits)

variable {h v}

theorem Hall.grant_ahead (known : (tget h.vehicles v).isSome) (w : Nat) :
    ((h.grant v z).vehicle w).ahead = if w = v then (h.vehicle w).ahead ++ [z] else (h.vehicle w).ahead := by
  unfold Hall.grant
  dsimp only
  rw [Hall.refreshMove_ahead, Hall.vehicle_modVehicle _ _ _ _ (.inr (by simpa using known))]
  split
  · simp [Hall.vehicle]
  · simp [Hall.vehicle]

/-- The MOVE of a vehicle granted a zone goes through that zone (R92). -/
theorem Hall.grant_move (known : (tget h.vehicles v).isSome) {zones : List Nat} {n : Nat}
    (move : (h.vehicle v).directive.kind = .move zones n) (bound : (h.vehicle v).withdraw = false) :
    ((h.grant v z).vehicle v).directive.kind = .move zones (placeIn zones z) := by
  obtain ⟨g, hg⟩ : ∃ g, g = ((h.unwait v).modZone z (Zone.given v)).modVehicle v
    fun x => { x with ahead := x.ahead ++ [z] } := ⟨_, rfl⟩
  have vehicle : g.vehicle v = { h.vehicle v with ahead := (h.vehicle v).ahead ++ [z] } := by
    rw [hg, Hall.vehicle_modVehicle _ _ _ _ (.inr (by simpa using known)), if_pos rfl]
    simp [Hall.vehicle]
  have known : (tget g.vehicles v).isSome := by rw [hg, Hall.modVehicle_known]; simpa using known
  have through : (g.vehicle v).through zones = placeIn zones z := by
    rw [vehicle]; simp [Vehicle.through, Vehicle.furthest, bound]
  rw [← through]
  exact hg ▸ g.refreshMove_kind v (by rw [vehicle]; exact move) known

/-- The zone the vehicle stood waiting for has it in its list no more. -/
theorem Hall.grant_left {k : Nat} (waits : h.waitsFor v = some k) {y : Zone} (hy : (h.grant v z).zone k = some y) : v ∉ y.wait := by
  rw [Hall.grant_zone, Hall.zone_modZone] at hy
  split at hy
  · obtain ⟨x, hx, rfl⟩ := Option.map_eq_some_iff.mp hy
    exact (Hall.unwait_left waits hx : v ∉ x.wait)
  · exact Hall.unwait_left waits hy

end

end Sys2Proof.Machine
end

section
/-! PROOF. What a vehicle holds and is granted while zones are released and the zone arbiter runs (R72, R75 to R79). -/

-- One theorem after another, as in the laws: elaborated all at once they ask for more threads than the check has room for.
set_option Elab.async false

namespace Sys2Proof.Machine

/-- From `a` to `b` vehicle `v` has left the zones `gone` and the zone arbiter has run: what else `v` holds it keeps, what it holds
besides has been granted ahead of it, and only a vehicle that waits is granted anything. -/
structure Hall.Leaves (v : Nat) (gone : List Nat) (a b : Hall) : Prop where
  keeps : ∀ k, a.holderOf k = some v → k ∉ gone → b.holderOf k = some v
  holds : ∀ k, b.holderOf k = some v → (a.holderOf k = some v ∧ k ∉ gone) ∨ k ∈ (b.vehicle v).ahead
  waits : b.Waits v → a.Waits v
  ahead : (a.vehicle v).ahead <+: (b.vehicle v).ahead
  idle : ¬ a.Waits v → (b.vehicle v).ahead = (a.vehicle v).ahead

/-- A vehicle that a zone may follow is one of the table. -/
theorem Hall.follows_known {h : Hall} {v z : Nat} (follows : h.follows v z = true) : (tget h.vehicles v).isSome := by
  cases hv : tget h.vehicles v with
  | some x => rfl
  | none => simp [Hall.follows, Hall.vehicle, hv, Vehicle.cold, Vehicle.furthest] at follows

namespace Hall.Leaves

variable {v : Nat} {gone l : List Nat} {a b c : Hall}

theorem refl (v : Nat) (a : Hall) : a.Leaves v [] a :=
  ⟨fun _ held _ => held, fun _ held => .inl ⟨held, List.not_mem_nil⟩, id, List.prefix_rfl, fun _ => rfl⟩

theorem trans (x : a.Leaves v gone b) (y : b.Leaves v l c) : a.Leaves v (gone ++ l) c where
  keeps k held kept := by
    rw [List.mem_append, not_or] at kept
    exact y.keeps k (x.keeps k held kept.1) kept.2
  holds k held := by
    obtain ⟨held, kept⟩ | granted := y.holds k held
    · obtain ⟨held, kept'⟩ | granted := x.holds k held
      · exact .inl ⟨held, by simp [kept, kept']⟩
      · exact .inr (y.ahead.subset granted)
    · exact .inr granted
  waits w := x.waits (y.waits w)
  ahead := x.ahead.trans y.ahead
  idle calm := (y.idle fun w => calm (x.waits w)).trans (x.idle calm)

/-- Work in which the vehicle leaves no zone. -/
theorem work (x : a.Leaves v gone b) (y : b.Leaves v [] c) : a.Leaves v gone c := by simpa using x.trans y

/-- A walk of a list in which the vehicle leaves no zone. -/
theorem foldl {f : Hall → Nat → Hall} (hf : ∀ h z, Hall.Leaves v [] h (f h z)) (l : List Nat) (x : a.Leaves v gone b) :
    a.Leaves v gone (l.foldl f b) := by
  induction l generalizing b with
  | nil => exact x
  | cons z l ih => exact ih (x.work (hf b z))

/-- A walk of a list of zones that the vehicle leaves. -/
theorem leave {f : Hall → Nat → Hall} (hf : ∀ h z, Hall.Leaves v [z] h (f h z)) (l : List Nat) (x : a.Leaves v gone b) :
    a.Leaves v (gone ++ l) (l.foldl f b) := by
  induction l generalizing gone b with
  | nil => simpa using x
  | cons z l ih => simpa using ih (x.trans (hf b z))

/-- Work that changes neither what vehicles hold nor what is granted ahead of them. -/
theorem calm (x : a.Leaves v gone b) (holders : ∀ k, c.holderOf k = b.holderOf k) (waits : c.Waits v → b.Waits v)
    (vehicle : (c.vehicle v).ahead = (b.vehicle v).ahead) : a.Leaves v gone c :=
  x.work ⟨fun k held _ => (holders k).trans held, fun k held => .inl ⟨(holders k).symm.trans held, List.not_mem_nil⟩, waits,
    vehicle ▸ List.prefix_rfl, fun _ => vehicle⟩

/-- Work that changes neither zones nor vehicles. -/
theorem still (x : a.Leaves v gone b) (zones : c.zones = b.zones) (vehicles : c.vehicles = b.vehicles) : a.Leaves v gone c :=
  x.calm (fun k => by rw [Hall.holderOf, Hall.zone_congr zones]; rfl) (fun ⟨p, mem, w⟩ => ⟨p, zones ▸ mem, w⟩)
    (by rw [Hall.vehicle, vehicles]; rfl)

/-! ### Updates -/

theorem push (x : a.Leaves v gone b) (j : Job) : a.Leaves v gone (b.push j) := x.still (b.push_zones j) (b.push_vehicles j)

theorem modZone (x : a.Leaves v gone b) (z : Nat) (f : Zone → Zone) (holder : ∀ y, (f y).holder = y.holder := by intro; rfl)
    (wait : ∀ y, (f y).wait ⊆ y.wait := by exact fun _ => List.Subset.refl _) : a.Leaves v gone (b.modZone z f) :=
  x.calm (b.holderOf_modZone holder z) (b.waits_modZone wait) rfl

theorem unwait (x : a.Leaves v gone b) (w : Nat) : a.Leaves v gone (b.unwait w) :=
  x.calm (b.unwait_holderOf w) (b.unwait_waits w) (by rw [Hall.unwait_vehicle])

/-- A zone is taken from its holder. -/
theorem empty (b : Hall) (v z : Nat) (f : Zone → Zone) (holder : ∀ y, (f y).holder = none := by intro; rfl)
    (wait : ∀ y, (f y).wait ⊆ y.wait := by exact fun _ => List.Subset.refl _) : b.Leaves v [z] (b.modZone z f) where
  keeps k held kept := by
    rw [List.mem_singleton] at kept
    rwa [Hall.holderOf, Hall.zone_modZone_ne _ kept]
  holds k held := by
    by_cases e : k = z
    · subst e
      obtain ⟨y, hy, held⟩ := (Hall.holderOf_eq_some _).mp held
      rw [Hall.zone_modZone_same, Option.map_eq_some_iff] at hy
      obtain ⟨y, -, rfl⟩ := hy
      rw [holder y] at held
      exact nomatch held
    · rw [Hall.holderOf, Hall.zone_modZone_ne _ e] at held
      exact .inl ⟨held, by simpa using e⟩
  waits := b.waits_modZone wait
  ahead := List.prefix_rfl
  idle _ := rfl

/-- A zone that nobody holds is granted to a vehicle that waited. -/
theorem grant (x : a.Leaves v gone b) {w z : Nat} (waits : a.Waits w) (known : (tget b.vehicles w).isSome)
    (free : ∃ y, b.zone z = some y ∧ y.holder = none) : a.Leaves v gone (b.grant w z) := by
  obtain ⟨y, hy, free⟩ := free
  have holder (k : Nat) : (b.grant w z).holderOf k = if k = z then some w else b.holderOf k := b.grant_holderOf w z k (by simp [hy])
  have ahead := Hall.grant_ahead z known v
  refine ⟨fun k held kept => ?_, fun k held => ?_, fun waits => x.waits (b.grant_waits w z waits), ?_, fun calm => ?_⟩
  · have held := x.keeps k held kept
    rw [holder, if_neg]
    · exact held
    · rintro rfl
      simp [Hall.holderOf, hy, free] at held
  · rw [holder] at held
    rw [ahead]
    split at held
    · rename_i e; subst e
      cases held
      simp
    · refine (x.holds k held).imp_right fun granted => ?_
      split
      · exact List.mem_append_left _ granted
      · exact granted
  · rw [ahead]
    split
    · exact x.ahead.trans (List.prefix_append _ _)
    · exact x.ahead
  · have other : v ≠ w := by rintro rfl; exact calm waits
    rw [ahead, if_neg other, x.idle calm]

/-! ### The arbiter and the releases (R72, R75 to R79) -/

theorem arbitrate (x : a.Leaves v gone b) {z : Nat} {l : List Nat} (waits : ∀ w ∈ l, a.Waits w)
    (free : ∃ y, b.zone z = some y ∧ y.holder = none) : a.Leaves v gone (b.arbitrate z l) := by
  induction l generalizing b with
  | nil => exact x
  | cons w l ih =>
    have rest : ∀ u ∈ l, a.Waits u := fun u mem => waits u (List.mem_cons_of_mem _ mem)
    unfold Hall.arbitrate; split
    · refine ih (x.unwait w) rest ?_
      obtain ⟨y, hy, free⟩ := free
      have gripped : (b.unwait w).grip z = some (y.holder, y.hold) := by rw [Hall.unwait_grip, Hall.grip, hy]; rfl
      obtain ⟨y', hy', e⟩ := Option.map_eq_some_iff.mp gripped
      exact ⟨y', hy', (congrArg Prod.fst e).trans free⟩
    · rename_i follows
      split
      · exact x.grant (waits w List.mem_cons_self) (Hall.follows_known (by simpa using follows)) free
      · exact ih x rest free

theorem runZone (x : a.Leaves v gone b) (z : Nat) : a.Leaves v gone (b.runZone z) := by
  unfold Hall.runZone
  cases hz : b.zone z with
  | none => exact x
  | some y =>
    dsimp only; split
    · rename_i free
      simp only [Zone.free, Bool.and_eq_true, Option.isNone_iff_eq_none] at free
      refine x.work ((refl v b).arbitrate (fun w mem => ⟨(z, y), tget_mem hz, ?_⟩) ⟨y, hz, free.1⟩)
      rw [List.mem_append] at mem
      exact mem.elim List.mem_of_mem_filter List.mem_of_mem_filter
    · exact x

theorem admissionWalk (x : a.Leaves v gone b) : a.Leaves v gone b.admissionWalk := by
  unfold Hall.admissionWalk
  refine x.foldl (fun h z => ?_) _
  split
  · exact (refl v h).runZone z
  · exact refl v h

theorem afterFall (x : a.Leaves v gone b) (was : Bool) (w : Nat) (below : Bool) : a.Leaves v gone (b.afterFall was w below) := by
  unfold Hall.afterFall; split
  · exact x.admissionWalk
  · exact x

theorem dropHolder (b : Hall) (v z : Nat) : b.Leaves v [z] (b.dropHolder z) := by
  have emptied := empty b v z fun y => { y with holder := none }
  unfold Hall.dropHolder; dsimp only; split
  · exact emptied.push _
  · exact emptied

theorem releaseZone (b : Hall) (v w z : Nat) : b.Leaves v [z] (b.releaseZone w z) :=
  ((dropHolder b v z).runZone z).afterFall _ _ _

theorem endHold (x : a.Leaves v gone b) (z : Nat) : a.Leaves v gone (b.endHold z) := ((x.modZone z _).push _).runZone z

theorem releaseHold (x : a.Leaves v gone b) (w : Nat) : a.Leaves v gone (b.releaseHold w) := by
  unfold Hall.releaseHold; split
  · exact x.endHold _
  · exact x

theorem leaveZone (b : Hall) (v w z : Nat) : b.Leaves v [z] (b.leaveZone w z) := by
  unfold Hall.leaveZone; split
  · exact ((refl v b).releaseHold w).trans (empty _ v z _)
  · exact releaseZone b v w z

end Hall.Leaves

/-! ### Withdrawal, a lost vehicle cleared, decommissioning (R77, R81) -/

section
variable {h : Hall} {v : Nat}

/-- The zones a vehicle holds are those listed under it. -/
theorem Hall.mem_held {z : Nat} (held : h.holderOf z = some v) : z ∈ h.held v := by
  obtain ⟨x, hx, held⟩ := (Hall.holderOf_eq_some _).mp held
  exact List.mem_map.mpr ⟨(z, x), List.mem_filter.mpr ⟨tget_mem hx, by simpa using held⟩, rfl⟩

/-- A change of a vehicle leaves the zones and their wait lists. -/
theorem Hall.modVehicle_waits (f : Vehicle → Vehicle) (w : Nat) : (h.modVehicle v f).Waits w ↔ h.Waits w := Iff.rfl

/-- With nothing granted ahead of it and no wait entry, a vehicle that leaves zones holds what it held of the others. -/
theorem Hall.Leaves.exact {gone : List Nat} {a b : Hall} (x : a.Leaves v gone b) (waits : ¬ a.Waits v) (bare : (a.vehicle v).ahead = [])
    (k : Nat) : b.holderOf k = some v ↔ a.holderOf k = some v ∧ k ∉ gone := by
  refine ⟨fun held => (x.holds k held).resolve_right ?_, fun held => x.keeps k held.1 held.2⟩
  rw [x.idle waits, bare]
  exact List.not_mem_nil

variable (sorted : tsorted h.zones = true) (one : ∀ p ∈ h.zones, v ∈ p.2.wait → h.waitsFor v = some p.1)

theorem Hall.modVehicle_bare {f : Vehicle → Vehicle} (bare : ∀ x, (f x).ahead = []) : ((h.modVehicle v f).vehicle v).ahead = [] := by
  rw [Hall.vehicle, Hall.modVehicle_vehicles, tget_tmod_same]
  cases tget h.vehicles v with
  | none => rfl
  | some x => exact bare x

include sorted one

/-- After a withdrawal the vehicle has the zones it had but those granted ahead of it, and waits for none (R77). -/
theorem Hall.withdraw_spec : ((h.withdraw v).vehicle v).ahead = [] ∧ ¬ (h.withdraw v).Waits v ∧
    ∀ k, (h.withdraw v).holderOf k = some v ↔ h.holderOf k = some v ∧ k ∉ (h.vehicle v).ahead := by
  obtain ⟨g, hg⟩ : ∃ g, g = (h.unwait v).modVehicle v fun x => { x with ahead := [], withdraw := false } := ⟨_, rfl⟩
  have waits : ¬ g.Waits v := by rw [hg, Hall.modVehicle_waits]; exact Hall.unwait_clears sorted one
  have bare : (g.vehicle v).ahead = [] := by rw [hg]; exact Hall.modVehicle_bare fun _ => rfl
  have left : g.Leaves v (h.vehicle v).ahead (h.withdraw v) := by
    have walk := (Hall.Leaves.refl v g).leave (fun h z => Hall.Leaves.releaseZone h v v z) (h.vehicle v).ahead
    rw [hg] at walk ⊢
    exact walk
  refine ⟨(left.idle waits).trans bare, fun w => waits (left.waits w), fun k => ?_⟩
  rw [left.exact waits bare, ← h.unwait_holderOf v k, hg]
  rfl

/-- A cleared lost vehicle holds no zone but its recorded front and tail (R81, log 74). -/
theorem Hall.clearLostZones_holds {k : Nat} (held : (h.clearLostZones v).holderOf k = some v) :
    (h.vehicle v).front = some k ∨ (h.vehicle v).tail = some k := by
  obtain ⟨g, hg⟩ : ∃ g, g = (h.unwait v).modVehicle v fun x => { x with ahead := [], withdraw := false } := ⟨_, rfl⟩
  obtain ⟨gone, hgone⟩ : ∃ gone, gone = (h.held v).filter fun z =>
    !(decide ((h.vehicle v).front = some z) || decide ((h.vehicle v).tail = some z)) := ⟨_, rfl⟩
  have waits : ¬ g.Waits v := by rw [hg, Hall.modVehicle_waits]; exact Hall.unwait_clears sorted one
  have bare : (g.vehicle v).ahead = [] := by rw [hg]; exact Hall.modVehicle_bare fun _ => rfl
  have left : g.Leaves v gone (h.clearLostZones v) := by
    have walk := (((Hall.Leaves.refl v g).leave (fun h z => Hall.Leaves.dropHolder h v z) gone).foldl
      (fun h z => (Hall.Leaves.refl v h).runZone z) gone).afterFall (h.holdsLoop v) v
        (gone.foldl (fun h z => h.dropHolder z) g).admits
    rw [hg, hgone] at walk ⊢
    exact walk
  obtain ⟨held, kept⟩ := (left.exact waits bare k).mp held
  have held : h.holderOf k = some v := by rw [← h.unwait_holderOf v k]; rw [hg] at held; exact held
  have := Hall.mem_held held
  rw [hgone, List.mem_filter] at kept
  simpa [this, or_iff_not_imp_left] using kept

/-- A decommissioned vehicle holds no zone (R81). -/
theorem Hall.unseat_holds (k : Nat) : (h.unseat v).holderOf k ≠ some v := by
  intro held
  obtain ⟨g, hg⟩ : ∃ g, g = (h.unwait v).modVehicle v Vehicle.unseated := ⟨_, rfl⟩
  have waits : ¬ g.Waits v := by rw [hg, Hall.modVehicle_waits]; exact Hall.unwait_clears sorted one
  have bare : (g.vehicle v).ahead = [] := by rw [hg]; exact Hall.modVehicle_bare fun _ => rfl
  have left : g.Leaves v (g.held v) (h.unseat v) := by
    have walk := ((Hall.Leaves.refl v g).leave (fun h z => Hall.Leaves.releaseZone h v v z) (g.held v)).releaseHold v
    have told := walk.still (c := (((g.held v).foldl (Hall.releaseZone v) g).releaseHold v).lower ⟨.zoneConflict, .vehicle v⟩)
      (Hall.still_field (Hall.lower_still _ _) Hall.zones fun _ => rfl) (Hall.still_field (Hall.lower_still _ _) Hall.vehicles fun _ => rfl)
    rw [hg] at told ⊢
    exact told
  obtain ⟨held, kept⟩ := (left.exact waits bare k).mp held
  exact kept (Hall.mem_held held)

end

end Sys2Proof.Machine
end

section
/-! PROOF. The zone arbiter, requests, releases, charger holds and positions of vehicles (O33). -/

-- One theorem after another, as in the laws: elaborated all at once they ask for more threads than the check has room for.
set_option Elab.async false

namespace Sys2Proof.Machine

/-! ### The loop-holding count and merges (R69) -/

theorem Zone.loopPos_isSome {x : Zone} : x.loopPos.isSome = true ↔ ∃ k, x.cfg.use = .loop k := by
  unfold Zone.loopPos; split <;> simp_all

theorem Hall.holdsLoop_iff {h : Hall} {v : Nat} :
    h.holdsLoop v = true ↔ ∃ p ∈ h.zones, p.2.holder = some v ∧ ∃ k, p.2.cfg.use = .loop k := by
  simp only [Hall.holdsLoop, List.any_eq_true, Bool.and_eq_true, decide_eq_true_eq, Zone.loopPos_isSome]

theorem Hall.mayGrant_iff {h : Hall} {v z : Nat} : h.mayGrant v z = true ↔
    (h.isLoop z = true → h.loopCount + 1 < h.loopSize ∨ ∃ p ∈ h.zones, p.2.holder = some v ∧ ∃ k, p.2.cfg.use = .loop k) := by
  rw [← Hall.holdsLoop_iff, Hall.mayGrant, Hall.admits]
  cases h.isLoop z <;> cases h.holdsLoop v <;> simp

/-! ### Requests and wait lists (R73, R74) -/

section
variable {h : Hall} {v z f : Nat} {x : Zone}

theorem Hall.follows_of (hf : (h.vehicle v).furthest = some f) : h.follows v z = h.successor f z := by simp [Hall.follows, hf]

theorem Hall.requestZone_stray (astray : ∀ f, (h.vehicle v).furthest = some f → h.successor f z = false) : h.requestZone v z = h := by
  have astray : h.follows v z = false := by
    cases hf : (h.vehicle v).furthest with
    | none => simp [Hall.follows, hf]
    | some f => rw [Hall.follows_of hf, astray f hf]
  unfold Hall.requestZone
  split
  · rfl
  · simp [astray]

theorem Hall.requestZone_ahead (full : 2 ≤ (h.vehicle v).ahead.length) : h.requestZone v z = h := by
  unfold Hall.requestZone
  split
  · rfl
  · split
    · rfl
    · exact if_pos full

theorem Hall.requestZone_held (hx : h.zone z = some x) (held : x.holder = some v) : h.requestZone v z = h := by
  unfold Hall.requestZone
  rw [hx]
  dsimp only
  rw [if_pos held, ite_self, ite_self]

theorem Hall.join_waits (hx : h.zone z = some x) (waits : v ∈ x.wait) : h.join v z = (h, true) := by
  unfold Hall.join; rw [hx]; simp [waits]

theorem Hall.join_full (hx : h.zone z = some x) (absent : v ∉ x.wait) (full : 4 ≤ x.wait.length) : h.join v z = (h, false) := by
  unfold Hall.join; rw [hx]; simp [absent, Config.waitSlots, Nat.not_lt.mpr full]

theorem Hall.join_room (hx : h.zone z = some x) (absent : v ∉ x.wait) (room : x.wait.length < 4) :
    h.join v z = ((h.unwait v).modZone z fun x => { x with wait := x.wait ++ [v] }, true) := by
  unfold Hall.join; rw [hx]; simp [absent, Config.waitSlots, room]

/-- A full list takes nobody (log 28). -/
theorem Hall.join_refused (refused : (h.join v z).2 = false) : (h.join v z).1 = h := by
  unfold Hall.join at refused ⊢
  split
  · split
    · rfl
    · split
      · simp_all
      · rfl
  · rfl

/-- A vehicle joins a list with room, and is then in no other (R74). -/
theorem Hall.join_spec (hx : h.zone z = some x) (absent : v ∉ x.wait) (room : x.wait.length < 4) :
    (h.join v z).2 = true ∧ ((h.join v z).1.zone z).map (·.wait) = some (x.wait ++ [v]) ∧
      ∀ k y, k ≠ z → h.waitsFor v = some k → (h.join v z).1.zone k = some y → v ∉ y.wait := by
  rw [Hall.join_room hx absent room]
  refine ⟨rfl, ?_, fun k y ne waits hy => ?_⟩
  · rw [Hall.zone_modZone_same, Hall.unwait_wait hx absent]; rfl
  · rw [Hall.zone_modZone_ne _ ne] at hy
    exact Hall.unwait_left waits hy

/-- The cases of a request that may be granted (R73). -/
theorem Hall.requestZone_eq (hx : h.zone z = some x) (hf : (h.vehicle v).furthest = some f) (next : h.successor f z = true)
    (room : (h.vehicle v).ahead.length < 2) (other : x.holder ≠ some v) : h.requestZone v z =
      if h.allStop = true then (h.join v z).1
      else if ∃ c, x.hold = some c ∧ c.vehicle = v then h.grant v z
      else if ¬(x.holder = none ∧ x.hold = none) then (h.join v z).1
      else if x.wait ≠ [] then (if (h.join v z).2 then (h.join v z).1.runZone z else h)
      else if h.mayGrant v z = false then (h.join v z).1
      else h.grant v z := by
  have follows : ¬(!h.follows v z) = true := by simp [Hall.follows_of hf, next]
  have below : ¬Config.aheadSlots ≤ (h.vehicle v).ahead.length := Nat.not_le.mpr room
  have queued : (match h.join v z with
      | (g, true) => g.runZone z
      | (g, false) => g) = if (h.join v z).2 then (h.join v z).1.runZone z else h := by
    split
    · rename_i e; simp [e]
    · rename_i e
      have same := Hall.join_refused (h := h) (v := v) (z := z) (by rw [e])
      rw [e] at same ⊢
      exact same
  unfold Hall.requestZone
  rw [hx]
  dsimp only
  rw [if_neg follows, if_neg below, if_neg other]
  refine if_congr Iff.rfl rfl (if_congr (by simp [Option.any_eq_true]) rfl (if_congr ?_ rfl (if_congr ?_ queued
    (if_congr (by simp) rfl rfl))))
  · simp only [Zone.free, Bool.not_eq_true', ← Bool.not_eq_true, Bool.and_eq_true, Option.isNone_iff_eq_none]
  · simp

end

/-! ### The zone arbiter (R75) -/

section
variable {h : Hall} {z : Nat} {x : Zone}

theorem Hall.eligible_eq (w : Nat) : h.eligible w z = (decide ((h.vehicle w).supervision = .reporting ∧ h.allStop = false ∧
    (h.vehicle w).ahead.length < 2) && h.mayGrant w z) := by
  rw [Hall.eligible, Bool.decide_and, Bool.decide_and, ← Bool.and_assoc]
  cases h.allStop <;> rfl

/-- The first of the vehicles that may be given the zone is given it. -/
theorem Hall.arbitrate_follows {l : List Nat} (follows : ∀ w ∈ l, h.follows w z = true) :
    h.arbitrate z l = match l.find? fun w => h.eligible w z with
      | some w => h.grant w z
      | none => h := by
  induction l with
  | nil => rfl
  | cons w l ih =>
    unfold Hall.arbitrate
    rw [if_neg (by simp [follows w List.mem_cons_self]), List.find?_cons]
    cases h.eligible w z with
    | true => rfl
    | false => exact ih fun u mem => follows u (List.mem_cons_of_mem _ mem)

theorem Hall.arbitrate_stale {w : Nat} (stale : h.follows w z = false) (rest : List Nat) :
    h.arbitrate z (w :: rest) = (h.unwait w).arbitrate z rest := by
  rw [Hall.arbitrate, if_pos (by simp [stale])]

theorem Hall.runZone_taken (hx : h.zone z = some x) (taken : x.holder.isSome ∨ x.hold.isSome) : h.runZone z = h := by
  have taken : x.free = false := by
    rw [Zone.free, Bool.and_eq_false_iff, Option.isNone_eq_false_iff, Option.isNone_eq_false_iff]
    exact taken
  unfold Hall.runZone; rw [hx]; simp [taken]

theorem Hall.runZone_free (hx : h.zone z = some x) (holder : x.holder = none) (hold : x.hold = none) :
    h.runZone z = h.arbitrate z (x.wait.filter h.holdsLoop ++ x.wait.filter fun v => !h.holdsLoop v) := by
  unfold Hall.runZone; rw [hx]; simp [Zone.free, holder, hold]

theorem Hall.runZone_grants (hx : h.zone z = some x) (holder : x.holder = none) (hold : x.hold = none)
    (follows : ∀ w ∈ x.wait, h.follows w z = true) :
    h.runZone z = match (x.wait.filter h.holdsLoop ++ x.wait.filter fun w => !h.holdsLoop w).find? fun w =>
        decide ((h.vehicle w).supervision = .reporting ∧ h.allStop = false ∧ (h.vehicle w).ahead.length < 2) && h.mayGrant w z with
      | some w => h.grant w z
      | none => h := by
  rw [Hall.runZone_free hx holder hold, Hall.arbitrate_follows, funext Hall.eligible_eq]
  · intro w mem
    rw [List.mem_append] at mem
    exact follows w (mem.elim List.mem_of_mem_filter List.mem_of_mem_filter)

end

/-! ### Releases and charger holds (R72, R78, R79) -/

section
variable {h : Hall} {v z : Nat} {x : Zone}

theorem Hall.isCharger_modZone (h : Hall) {f : Zone → Zone} (hf : ∀ x, (f x).cfg = x.cfg) (z k : Nat) :
    (h.modZone z f).isCharger k = h.isCharger k := by
  unfold Hall.isCharger
  rw [Hall.zone_modZone]
  split
  · cases h.zone k with
    | none => rfl
    | some x => simp only [Option.map_some, Option.any_some, hf x]
  · rfl

theorem Hall.push_admits (h : Hall) (j : Job) : (h.push j).admits = h.admits := by
  have holds : (h.push j).holdsLoop = h.holdsLoop := funext fun v => by simp [Hall.holdsLoop]
  rw [Hall.admits, Hall.loopCount, Hall.loopSize, holds, Hall.push_zones]
  rfl

/-- What a release frees: the zone, and a charger is told of (R72). -/
theorem Hall.dropHolder_eq (h : Hall) (z : Nat) : h.dropHolder z =
    if h.isCharger z then (h.modZone z fun y => { y with holder := none }).push .chargersFree
    else h.modZone z fun y => { y with holder := none } := by
  unfold Hall.dropHolder
  dsimp only
  rw [h.isCharger_modZone (f := fun y => { y with holder := none }) fun _ => rfl]

theorem Hall.dropHolder_admits (h : Hall) (z : Nat) : (h.dropHolder z).admits = (h.modZone z fun y => { y with holder := none }).admits := by
  rw [Hall.dropHolder_eq]
  split
  · exact Hall.push_admits _ _
  · rfl

theorem Hall.releaseZone_eq (h : Hall) (v z : Nat) : h.releaseZone v z =
    if h.holdsLoop v = true ∧ ((h.dropHolder z).runZone z).holdsLoop v = false ∧
        (h.modZone z fun y => { y with holder := none }).loopCount + 1 < (h.modZone z fun y => { y with holder := none }).loopSize then
      ((h.dropHolder z).runZone z).admissionWalk
    else (h.dropHolder z).runZone z := by
  unfold Hall.releaseZone Hall.afterFall
  dsimp only
  rw [Hall.dropHolder_admits, Hall.admits]
  refine if_congr ?_ rfl rfl
  simp only [Bool.and_eq_true, Bool.not_eq_true', decide_eq_true_eq, and_assoc]

/-- Consequences make no charger hold (R78). -/
theorem Hall.Follows.hold {a b : Hall} (x : a.Follows b) {k : Nat} {y z : Zone} (hy : a.zone k = some y) (hz : b.zone k = some z)
    (free : y.hold = none) : z.hold = none := by
  obtain ⟨w, hw, step⟩ := x.zones.get hy
  have same : some w = some z := hw.symm.trans hz
  cases same
  exact step.hold.elim (fun e => e.trans free) id

/-- The hold of a vehicle on a charger is over once it is released (R79). -/
theorem Hall.releaseHold_ends {k : Nat} (held : h.heldCharger v = some k) {y : Zone} (hy : (h.releaseHold v).zone k = some y) :
    y.hold = none := by
  unfold Hall.releaseHold Hall.endHold at hy
  rw [held] at hy
  have follows := ((Hall.Follows.refl (h.modZone k fun x => { x with hold := none })).push .chargersFree).runZone k
  have configured : ((h.modZone k fun x => { x with hold := none }).zone k).isSome := by
    have e := congrArg Option.isSome (Hall.zone_fixed follows.same k)
    rw [Option.isSome_map, Option.isSome_map] at e
    rw [← e]
    exact Option.isSome_of_eq_some hy
  obtain ⟨x, hx⟩ := Option.isSome_iff_exists.mp configured
  refine follows.hold hx hy ?_
  rw [Hall.zone_modZone_same, Option.map_eq_some_iff] at hx
  obtain ⟨x, -, rfl⟩ := hx
  rfl

theorem Hall.keepsCharger_iff : h.keepsCharger v = true ↔
    0 < h.params.holdTime ∧ ∃ slot m, (h.vehicle v).mission = some slot ∧ h.mission slot = some m ∧ m.kind ≠ .charge := by
  simp only [Hall.keepsCharger, Bool.and_eq_true, decide_eq_true_eq, Option.any_eq_true, Option.bind_eq_some_iff]
  exact and_congr_right fun _ =>
    ⟨fun ⟨m, ⟨slot, bears, hm⟩, kind⟩ => ⟨slot, m, bears, hm, kind⟩, fun ⟨slot, m, bears, hm, kind⟩ => ⟨m, ⟨slot, bears, hm⟩, kind⟩⟩

/-- A charger that is left with a mission under way is put on hold, and no other charger is then on hold for the vehicle (R78). -/
theorem Hall.leaveZone_holds (hx : h.zone z = some x) (charger : h.isCharger z = true) (keeps : h.keepsCharger v = true) :
    (h.leaveZone v z).grip z = some (none, some ⟨v, min 4294967295 (h.clock + h.params.holdTime)⟩) ∧
      ∀ k y, k ≠ z → h.heldCharger v = some k → (h.leaveZone v z).zone k = some y → y.hold = none := by
  have roads := (Hall.Roads.refl h).releaseHold v
  have clock : (h.releaseHold v).clock = h.clock := roads.field Hall.clock
  have params : (h.releaseHold v).params = h.params := roads.field Hall.params
  have made : h.leaveZone v z = (h.releaseHold v).modZone z fun x =>
      { x with holder := none, hold := some ⟨v, min 4294967295 (h.clock + h.params.holdTime)⟩ } := by
    unfold Hall.leaveZone
    rw [if_pos (by simp [charger, keeps])]
    dsimp only
    rw [clock, params]
    rfl
  rw [made]
  refine ⟨?_, fun k y ne held hy => ?_⟩
  · have configured := congrArg Option.isSome (Hall.zone_fixed ((Hall.Follows.refl h).releaseHold v).same z)
    rw [Option.isSome_map, Option.isSome_map, hx] at configured
    obtain ⟨y, hy⟩ := Option.isSome_iff_exists.mp configured
    rw [Hall.grip, Hall.zone_modZone_same, hy]; rfl
  · rw [Hall.zone_modZone_ne _ ne] at hy
    exact Hall.releaseHold_ends held hy

theorem Hall.leaveZone_releases (not : ¬(h.isCharger z && h.keepsCharger v) = true) : h.leaveZone v z = h.releaseZone v z := if_neg not

end

/-! ### Positions (R70 to R72) -/

section
variable {h : Hall} {v front : Nat} {tail : Option Nat}

theorem Hall.Roads.leaveZone {a b : Hall} (x : a.Roads b) (v z : Nat) : a.Roads (b.leaveZone v z) := by
  unfold Hall.leaveZone; split
  · exact (x.releaseHold v).modZone z _
  · exact x.releaseZone v z

theorem Hall.haltFleet_keeps : h.haltFleet.zones = h.zones ∧ ∀ v, (h.haltFleet.vehicle v).ahead = (h.vehicle v).ahead := by
  have one (g : Hall) (u : Nat) : (g.haltVehicle u).zones = g.zones ∧ ∀ v, ((g.haltVehicle u).vehicle v).ahead = (g.vehicle v).ahead := by
    unfold Hall.haltVehicle Hall.stopVehicle
    dsimp only
    split
    · refine ⟨rfl, fun v => (Hall.issue_ahead _ _ _ v).trans ?_⟩
      unfold Hall.vehicle
      rw [Hall.modVehicle_vehicles, tget_tmod]
      split
      · cases tget g.vehicles v <;> rfl
      · rfl
    · exact ⟨rfl, fun _ => rfl⟩
  have all (l : List Nat) : ∀ g : Hall, (l.foldl Hall.haltVehicle g).zones = g.zones ∧
      ∀ v, ((l.foldl Hall.haltVehicle g).vehicle v).ahead = (g.vehicle v).ahead := by
    induction l with
    | nil => exact fun g => ⟨rfl, fun _ => rfl⟩
    | cons u l ih =>
      intro g
      obtain ⟨zones, ahead⟩ := ih (g.haltVehicle u)
      obtain ⟨zones', ahead'⟩ := one g u
      exact ⟨zones.trans zones', fun v => (ahead v).trans (ahead' v)⟩
  unfold Hall.haltFleet
  split
  · exact ⟨rfl, fun _ => rfl⟩
  · exact all _ _

/-- An entry made active leaves zones and grants, all-stop or not (R197, R203). -/
theorem Hall.raise_keeps (k : FaultKey) : (h.raise k).zones = h.zones ∧ ∀ v, ((h.raise k).vehicle v).ahead = (h.vehicle v).ahead := by
  have changed (c : FaultChange) (e : FaultEntry) : (h.changeFault k c e).zones = h.zones ∧
      ∀ v, ((h.changeFault k c e).vehicle v).ahead = (h.vehicle v).ahead := by
    refine ⟨Hall.still_field (h.changeFault_still k c e) Hall.zones fun _ => rfl, fun v => ?_⟩
    rw [Hall.vehicle, Hall.still_field (h.changeFault_still k c e) Hall.vehicles fun _ => rfl]; rfl
  unfold Hall.raise
  split
  · exact ⟨rfl, fun _ => rfl⟩
  · dsimp only
    split
    · obtain ⟨zones, ahead⟩ := changed .active ((h.fault k).activate h.clock)
      obtain ⟨zones', ahead'⟩ := Hall.haltFleet_keeps (h := h.changeFault k .active ((h.fault k).activate h.clock))
      exact ⟨zones'.trans zones, fun v => (ahead' v).trans (ahead v)⟩
    · exact changed _ _

/-- The conflict of a report, as R71 has it. -/
theorem Hall.conflicts_iff : h.conflicts v front tail = true ↔ (∀ x, h.zone front = some x → x.holder ≠ some v) ∨
    ∃ t x u, tail = some t ∧ h.zone t = some x ∧ x.holder = some u ∧ u ≠ v := by
  unfold Hall.conflicts
  rw [Bool.or_eq_true]
  refine or_congr ?_ ?_
  · cases h.zone front <;> simp
  · simp only [Option.any_eq_true, Bool.and_eq_true, decide_eq_true_eq, Option.isSome_iff_exists]
    constructor
    · rintro ⟨t, ht, x, hx, ⟨u, hu⟩, other⟩
      exact ⟨t, x, u, ht, hx, hu, fun e => other (e ▸ hu)⟩
    · rintro ⟨t, x, u, ht, hx, hu, other⟩
      exact ⟨t, ht, x, hx, ⟨u, hu⟩, fun e => other (Option.some.inj (hu.symm.trans e))⟩

/-- The hall with the position of a vehicle's report taken, before zones are released (R70). -/
def Hall.positioned (v front : Nat) (tail : Option Nat) (h : Hall) : Hall :=
  (h.lower ⟨.zoneConflict, .vehicle v⟩).modVehicle v fun x =>
    { x with ahead := aheadAfter x.ahead front, front := some front, tail := h.takenTail tail }

theorem Hall.positioned_zones : (h.positioned v front tail).zones = h.zones := Hall.still_field (Hall.lower_still _ _) Hall.zones fun _ => rfl

theorem Hall.positioned_vehicle (known : (tget h.vehicles v).isSome) : (h.positioned v front tail).vehicle v =
    { h.vehicle v with ahead := aheadAfter (h.vehicle v).ahead front, front := some front, tail := h.takenTail tail } := by
  have same : (h.lower ⟨.zoneConflict, .vehicle v⟩).vehicles = h.vehicles := Hall.still_field (Hall.lower_still _ _) Hall.vehicles fun _ => rfl
  rw [Hall.positioned, Hall.vehicle_modVehicle _ _ _ _ (.inr (by rwa [same])), if_pos rfl, Hall.vehicle, same]
  rfl

theorem Hall.takePosition_conflict (conflict : h.conflicts v front tail = true) (request : Option Nat) :
    h.takePosition v front tail request = h.raise ⟨.zoneConflict, .vehicle v⟩ := if_pos conflict

/-- A position without conflict is taken; a REPORTING vehicle then releases what it has left, and its request is taken (R70, R72). -/
theorem Hall.takePosition_eq (clear : ¬h.conflicts v front tail = true) (known : (tget h.vehicles v).isSome) (request : Option Nat) :
    h.takePosition v front tail request = if (h.vehicle v).supervision = .reporting then
      (match request with
        | some z => ((h.positioned v front tail).releaseLeft v).requestZone v z
        | none => (h.positioned v front tail).releaseLeft v)
    else h.positioned v front tail := by
  have taken : (h.lower ⟨.zoneConflict, .vehicle v⟩).takenTail tail = h.takenTail tail := by
    unfold Hall.takenTail Hall.zone
    rw [Hall.still_field (Hall.lower_still h _) Hall.zones fun _ => rfl]
  have supervision : ((h.positioned v front tail).vehicle v).supervision = (h.vehicle v).supervision := by rw [Hall.positioned_vehicle known]
  unfold Hall.takePosition
  dsimp only
  rw [if_neg clear, taken, ← supervision]
  rfl

/-- What a REPORTING vehicle holds when it has released the zones it left: front, tail and the zones granted ahead of it (R72). -/
theorem Hall.releaseLeft_spec (g : Hall) (v : Nat) :
    g.Roads (g.releaseLeft v) ∧ (g.vehicle v).ahead <+: ((g.releaseLeft v).vehicle v).ahead ∧
    (∀ k, g.holderOf k = some v → ((g.vehicle v).front = some k ∨ (g.vehicle v).tail = some k ∨ k ∈ (g.vehicle v).ahead) →
      (g.releaseLeft v).holderOf k = some v) ∧
    ∀ k, (g.releaseLeft v).holderOf k = some v →
      (g.vehicle v).front = some k ∨ (g.vehicle v).tail = some k ∨ k ∈ ((g.releaseLeft v).vehicle v).ahead := by
  have left := (Hall.Leaves.refl v g).leave (fun h z => Hall.Leaves.leaveZone h v v z) ((g.held v).filter fun z =>
    !(decide ((g.vehicle v).front = some z) || decide ((g.vehicle v).tail = some z) || (g.vehicle v).ahead.contains z))
  refine ⟨(Hall.Roads.refl g).foldl (fun h z => (Hall.Roads.refl h).leaveZone v z) _, left.ahead, fun k held kept => ?_, fun k held => ?_⟩
  · refine left.keeps k held ?_
    simp only [List.nil_append, List.mem_filter, Bool.not_eq_true', Bool.or_eq_false_iff, decide_eq_false_iff_not,
      List.contains_eq_mem, not_and, and_imp]
    rintro - front tail ahead
    rcases kept with e | e | e
    · exact front e
    · exact tail e
    · exact ahead e
  · obtain ⟨held, kept⟩ | granted := left.holds k held
    · simp only [List.nil_append, List.mem_filter, Hall.mem_held held, true_and, Bool.not_eq_true', Bool.not_eq_false, Bool.or_eq_true,
        decide_eq_true_eq, List.contains_eq_mem] at kept
      obtain (front | tail) | ahead := kept
      · exact .inl front
      · exact .inr (.inl tail)
      · exact .inr (.inr (left.ahead.subset ahead))
    · exact .inr (.inr granted)

end

/-! ### Traffic Control's acts on zones -/

/-- Settles O33: each act by the lemma on its operation; what is held after releases by the relation every release and every run of the
zone arbiter keeps. -/
theorem zonesAreGrantedAndReleased : Obligations.ZonesAreGrantedAndReleased := by
  refine ⟨fun h => ?_, fun h v z => Hall.mayGrant_iff, fun h v z x sorted hx known => ?_, fun h v z hz => ?_, fun h v z x hx => ?_,
    fun h => rfl, fun h v sorted one => ?_, fun h v front tail sorted known => ?_⟩
  · refine congrArg List.length (List.filter_congr fun u _ => ?_)
    refine congrArg (List.any h.zones) (funext fun p => ?_)
    rw [Zone.loopPos]
    cases p.2.cfg.use <;> rfl
  · have gripped (k : Nat) := h.grant_grip v z k
    have here : h.grip z = some (x.holder, x.hold) := by rw [Hall.grip, hx]; rfl
    refine ⟨?_, ?_, fun k ne => ?_, fun k y waits hy => Hall.grant_left z waits hy, fun zones n move bound =>
      Hall.grant_move z known move bound⟩
    · exact (gripped z).trans (by rw [if_pos rfl, here]; rfl)
    · rw [Hall.grant_ahead z known, if_pos rfl]
    · exact (gripped k).trans (if_neg ne)
  · unfold Hall.requestZone; rw [hz]
  · refine ⟨Hall.requestZone_stray, Hall.requestZone_ahead, Hall.requestZone_held hx, fun f hf next room other => ?_, Hall.join_waits hx,
      Hall.join_full hx, Hall.join_spec hx, Hall.runZone_taken hx, Hall.runZone_grants hx, fun w rest stale => Hall.arbitrate_stale stale rest,
      ?_, ⟨fun ⟨charger, time, mission⟩ => Hall.leaveZone_holds hx charger (Hall.keepsCharger_iff.mpr ⟨time, mission⟩), fun stays => ?_⟩, rfl⟩
    · have cases := Hall.requestZone_eq hx hf next room other
      refine ⟨fun stop => by rw [cases, if_pos stop], fun run own => by rw [cases, run, if_neg Bool.false_ne_true, if_pos own],
        fun run taken others => ?_, fun run holder hold => ?_⟩
      · have taken : ¬(x.holder = none ∧ x.hold = none) := by
          rintro ⟨holder, hold⟩
          simp [holder, hold] at taken
        have foreign : ¬∃ c, x.hold = some c ∧ c.vehicle = v := fun ⟨c, hc, own⟩ => others c hc own
        rw [cases, run, if_neg Bool.false_ne_true, if_neg foreign, if_pos taken]
      · have unheld : ¬∃ c, x.hold = some c ∧ c.vehicle = v := by simp [hold]
        rw [run, if_neg Bool.false_ne_true, if_neg unheld, if_neg (not_not.mpr ⟨holder, hold⟩)] at cases
        refine ⟨fun queue => by rw [cases, if_pos queue], fun empty barred => ?_, fun empty may => ?_⟩
        · rw [cases, if_neg (not_not.mpr empty), if_pos barred]
        · rw [cases, if_neg (not_not.mpr empty), if_neg (by simp [may])]
    · refine (h.releaseZone_eq v z).trans ?_
      rw [Hall.dropHolder_eq]
      rfl
    · refine Hall.leaveZone_releases fun leaves => stays ?_
      rw [Bool.and_eq_true, Hall.keepsCharger_iff] at leaves
      exact leaves
  · obtain ⟨bare, waits, holds⟩ := Hall.withdraw_spec sorted one
    refine ⟨bare, fun z x ahead hx held => ?_, fun z x kept hx held => ?_, fun p mem wait => waits ⟨p, mem, wait⟩,
      fun z x hx held => ?_, fun z x hx held => ?_⟩
    · exact ((holds z).mp ((Hall.holderOf_eq_some _).mpr ⟨x, hx, held⟩)).2 ahead
    · exact (Hall.holderOf_eq_some _).mp ((holds z).mpr ⟨(Hall.holderOf_eq_some _).mpr ⟨x, hx, held⟩, kept⟩)
    · exact Hall.clearLostZones_holds sorted one ((Hall.holderOf_eq_some _).mpr ⟨x, hx, held⟩)
    · exact Hall.unseat_holds sorted one z ((Hall.holderOf_eq_some _).mpr ⟨x, hx, held⟩)
  · refine ⟨fun conflict request => ?_, fun clear => ?_⟩
    · rw [Hall.takePosition_conflict (Hall.conflicts_iff.mpr conflict)]
      obtain ⟨zones, ahead⟩ := Hall.raise_keeps (h := h) ⟨.zoneConflict, .vehicle v⟩
      exact ⟨zones, h.raise_active _, ahead v⟩
    · have taken (request : Option Nat) := Hall.takePosition_eq (mt Hall.conflicts_iff.mp clear) known request
      have placed := Hall.positioned_vehicle (front := front) (tail := tail) known
      refine ⟨fun lost request => ?_, fun reporting => ?_⟩
      · rw [taken request, lost, if_neg (by decide), placed]
        exact ⟨Hall.positioned_zones, rfl, rfl, rfl⟩
      · obtain ⟨roads, ahead, kept, held⟩ := (h.positioned v front tail).releaseLeft_spec v
        have fronted : (((h.positioned v front tail).releaseLeft v).vehicle v).front = some front := by
          rw [(roads.vehicles v).field Vehicle.front, placed]
        have tailed : (((h.positioned v front tail).releaseLeft v).vehicle v).tail = h.takenTail tail := by
          rw [(roads.vehicles v).field Vehicle.tail, placed]
        have left : h.takePosition v front tail none = (h.positioned v front tail).releaseLeft v := by
          rw [taken none, if_pos reporting]
        have same (k : Nat) : (h.positioned v front tail).zone k = h.zone k := Hall.zone_congr Hall.positioned_zones k
        rw [placed] at ahead kept held
        dsimp only
        rw [left]
        refine ⟨fronted, tailed, ahead, fun k x hx own stays => ?_, fun k x hx own => ?_, fun z => ?_⟩
        · refine (Hall.holderOf_eq_some _).mp (kept k ((Hall.holderOf_eq_some _).mpr ⟨x, (same k).trans hx, own⟩) ?_)
          exact stays.imp (fun e => congrArg some e.symm) id
        · exact (held k ((Hall.holderOf_eq_some _).mpr ⟨x, hx, own⟩)).imp (fun e => (Option.some.inj e).symm) id
        · rw [taken (some z), if_pos reporting]

end Sys2Proof.Machine
end

section
/-! PROOF. Commission, Decommission and Clear Lost Vehicle (O31). -/

-- One theorem after another, as in the laws: elaborated all at once they ask for more threads than the check has room for.
set_option Elab.async false

namespace Sys2Proof.Machine

/-! ### Where the vehicles stand and what their reports have said -/

/-- The places of the vehicles. -/
def Hall.places (h : Hall) : Table Vehicle := tview Vehicle.place h.vehicles

theorem Hall.places_get (h : Hall) (v : Nat) : tget h.places v = (tget h.vehicles v).map Vehicle.place := tget_tview _ _ _

theorem Hall.places_of_setting {a b : Hall} (same : b.setting = a.setting) : b.places = a.places := by
  have view (t : Table Vehicle) : tview Vehicle.place (tview Vehicle.fixed t) = tview Vehicle.place t := by
    simp only [tview, List.map_map]; rfl
  have e : tview Vehicle.place (tview Vehicle.fixed b.vehicles) = tview Vehicle.place (tview Vehicle.fixed a.vehicles) :=
    congrArg Hall.vehicles same
  rwa [view, view] at e

theorem Hall.places_of_ground {a b : Hall} (same : b.ground = a.ground) : b.places = a.places :=
  Hall.places_of_setting (Hall.setting_of_ground same)

theorem Hall.silence_of_setting {a b : Hall} (same : b.setting = a.setting) : b.fleetSilence = a.fleetSilence := by
  have e := congrArg Hall.fleetSilence same
  exact e

/-- A change of a vehicle that can be read off its place. -/
theorem Hall.places_modVehicle (h : Hall) (v : Nat) (f g : Vehicle → Vehicle) (fg : ∀ x, (f x).place = g x.place) :
    (h.modVehicle v f).places = tmod h.places v g := tview_tmod_eq _ _ _ _ _ fg

@[simp] theorem Hall.places_lower (h : Hall) (k : FaultKey) : (h.lower k).places = h.places := by
  rw [Hall.places, Hall.still_field (h.lower_still k) Hall.vehicles fun _ => rfl]; rfl

/-- Whether any vehicle is commissioned is seen of the places. -/
theorem Hall.places_commissioned (h : Hall) : (h.places.any fun p => p.2.commissioned) = h.vehicles.any fun p => p.2.commissioned := by
  rw [Hall.places, tview, List.any_map]; rfl

/-! ### Entries that become inactive (R197) -/

theorem Hall.lower_stays {h : Hall} {j : FaultKey} (off : (h.fault j).active = false) (k : FaultKey) :
    ((h.lower k).fault j).active = false := by
  by_cases same : j.num = k.num
  · have entry : h.fault k = h.fault j := by unfold Hall.fault; rw [same]
    rw [Hall.lower, entry, off, if_neg Bool.false_ne_true, off]
  · rwa [Hall.lower_fault_ne same]

/-! ### Commissioning (R87, R205) -/

/-- The first vehicle commissioned starts the silence timer of the fleet link (R205). -/
theorem Hall.commission_eq (h : Hall) (v : Nat) : h.commission v = Hall.lower ⟨.vehicleUnknown, .vehicle v⟩ { h with
    vehicles := tmod h.vehicles v fun x =>
      { x with commissioned := true, activity := .offline, seated := false, supervision := .reporting, missed := 0, timer := none }
    fleetSilence := if h.vehicles.any (fun p => p.2.commissioned) then h.fleetSilence else some (h.timebase + 200) } := by
  unfold Hall.commission
  dsimp only
  cases h.vehicles.any fun p => p.2.commissioned <;> rfl

section
variable {h : Hall} {v : Nat}

theorem Hall.takeCommission_new (number : inRange 1 24 v = true) (new : (h.vehicle v).commissioned = false) :
    h.takeCommission false v = (h.commission v).accept .none := by simp [Hall.takeCommission, number, new]

theorem Hall.takeCommission_again (number : inRange 1 24 v = true) (on : (h.vehicle v).commissioned = true) :
    h.takeCommission false v = h.accept .none := by simp [Hall.takeCommission, number, on]

/-! ### Decommissioning (R81, R87, R205) -/

/-- A vehicle's place once it is decommissioned. -/
def Vehicle.retired (x : Vehicle) : Vehicle := { x with commissioned := false, seated := false, front := none, tail := none, timer := none }

/-- A vehicle leaves its zones with a record that has no position. -/
theorem Hall.unseat_handles (h : Hall) (v : Nat) :
    ((h.unwait v).modVehicle v Vehicle.unseated).Handles false false (h.unseat v) := by
  unfold Hall.unseat
  extract_lets g
  have released : g.Follows (((g.held v).foldl (Hall.releaseZone v) g).releaseHold v) :=
    ((Follows.refl g).foldl (fun h z => (Follows.refl h).releaseZone v z) _).releaseHold v
  exact ((Hall.Handles.refl g).after released).lower _

theorem Hall.unseat_places (h : Hall) (v : Nat) :
    (h.unseat v).places = tmod h.places v fun x => { x with front := none, tail := none, seated := false } := by
  rw [Hall.places_of_setting (h.unseat_handles v).setting, Hall.places_modVehicle _ _ Vehicle.unseated
    (fun x => { x with front := none, tail := none, seated := false }) fun _ => rfl,
    Hall.places_of_ground ((Follows.refl h).unwait v).same]

theorem Hall.unseat_silence (h : Hall) (v : Nat) : (h.unseat v).fleetSilence = h.fleetSilence := by
  rw [Hall.silence_of_setting (h.unseat_handles v).setting, Hall.modVehicle_fleetSilence,
    Hall.silence_of_setting (Hall.setting_of_ground ((Follows.refl h).unwait v).same)]

/-- The hall with vehicle `v` out of its zones and out of commission, before the fleet link is looked at. -/
def Hall.dismissed (v : Nat) (h : Hall) : Hall :=
  (((h.unseat v).modVehicle v Vehicle.decommissioned).lower ⟨.vehicleSilent, .vehicle v⟩).lower ⟨.vehicleLost, .vehicle v⟩

/-- The fleet link once a vehicle has been dismissed: with none commissioned its silence timer stops (R205). -/
def Hall.linkLeft (h : Hall) : Hall :=
  if h.vehicles.any fun p => p.2.commissioned then h
  else ({ h with fleetSilence := none } : Hall).lower ⟨.fleetLinkDown, .none⟩

theorem Hall.linkLeft_places (h : Hall) : h.linkLeft.places = h.places := by
  unfold Hall.linkLeft
  split
  · rfl
  · rw [Hall.places_lower]; rfl

theorem Hall.linkLeft_silence (h : Hall) :
    h.linkLeft.fleetSilence = if h.vehicles.any fun p => p.2.commissioned then h.fleetSilence else none := by
  unfold Hall.linkLeft
  split
  · rfl
  · exact Hall.still_field (Hall.lower_still _ _) Hall.fleetSilence fun _ => rfl

theorem Hall.linkLeft_stays {h : Hall} {j : FaultKey} (off : (h.fault j).active = false) : (h.linkLeft.fault j).active = false := by
  unfold Hall.linkLeft
  split
  · exact off
  · exact Hall.lower_stays (h := { h with fleetSilence := none }) off _

theorem Hall.decommission_eq (h : Hall) (v : Nat) : h.decommission v = (h.dismissed v).linkLeft := by
  unfold Hall.decommission Hall.dismissed
  rfl

theorem Hall.dismissed_places (h : Hall) (v : Nat) : (h.dismissed v).places = tmod h.places v Vehicle.retired := by
  rw [Hall.dismissed, Hall.places_lower, Hall.places_lower,
    Hall.places_modVehicle _ _ Vehicle.decommissioned (fun x => { x with timer := none, commissioned := false }) fun _ => rfl,
    Hall.unseat_places, tmod_tmod]
  rfl

theorem Hall.dismissed_silence (h : Hall) (v : Nat) : (h.dismissed v).fleetSilence = h.fleetSilence := by
  rw [Hall.dismissed, Hall.still_field (Hall.lower_still _ _) Hall.fleetSilence fun _ => rfl,
    Hall.still_field (Hall.lower_still _ _) Hall.fleetSilence fun _ => rfl, Hall.modVehicle_fleetSilence, Hall.unseat_silence]

theorem Hall.decommission_places (h : Hall) (v : Nat) : (h.decommission v).places = tmod h.places v Vehicle.retired := by
  rw [Hall.decommission_eq, Hall.linkLeft_places, Hall.dismissed_places]

/-- The vehicles that stay commissioned. -/
theorem Hall.dismissed_commissioned (h : Hall) (v : Nat) : ((h.dismissed v).vehicles.any fun p => p.2.commissioned) =
    (tmod h.vehicles v fun x => { x with commissioned := false }).any fun p => p.2.commissioned := by
  rw [← Hall.places_commissioned, Hall.dismissed_places, ← Hall.places_modVehicle h v (fun x => { x with
    commissioned := false, seated := false, front := none, tail := none, timer := none }) _ fun _ => rfl, Hall.places_commissioned]
  have flags (f : Vehicle → Vehicle) (hf : ∀ x, (f x).commissioned = false) : ((tmod h.vehicles v f).any fun p => p.2.commissioned) =
      (tmod (tview Vehicle.commissioned h.vehicles) v fun _ => false).any fun p => p.2 := by
    rw [← tview_tmod_eq Vehicle.commissioned _ _ f (fun _ => false) hf, tview, List.any_map]; rfl
  exact (flags _ fun _ => rfl).trans (flags _ fun _ => rfl).symm

theorem Hall.decommission_silence (h : Hall) (v : Nat) : (h.decommission v).fleetSilence =
    if (tmod h.vehicles v fun x => { x with commissioned := false }).any fun p => p.2.commissioned then h.fleetSilence else none := by
  rw [Hall.decommission_eq, Hall.linkLeft_silence, Hall.dismissed_commissioned, Hall.dismissed_silence]

/-- A vehicle out of its zones is in no conflict (R81). -/
theorem Hall.unseat_calm (sound : h.Sound) : ((h.unseat v).fault ⟨.zoneConflict, .vehicle v⟩).active = false := by
  unfold Hall.unseat
  extract_lets g
  have gSound : g.Sound := ((Keeps.refl h).after ((Follows.refl h).unwait v)).modVehicle v _ [] sound
  have left : g.Follows (((g.held v).foldl (Hall.releaseZone v) g).releaseHold v) :=
    ((Follows.refl g).foldl (fun h z => (Follows.refl h).releaseZone v z) _).releaseHold v
  exact Hall.lower_inactive (left.sound [] gSound).faults _

/-- A decommissioned vehicle is in no conflict, not SILENT and not LOST (R81, R87). -/
theorem Hall.decommission_calm (sound : h.Sound) {k : FaultKind} (hk : k ∈ [FaultKind.zoneConflict, .vehicleSilent, .vehicleLost]) :
    ((h.decommission v).fault ⟨k, .vehicle v⟩).active = false := by
  obtain ⟨g, hg⟩ : ∃ g, g = (h.unseat v).modVehicle v Vehicle.decommissioned := ⟨_, rfl⟩
  have gSound : g.Sound := by rw [hg]; exact ((Keeps.refl h).unseat v).modVehicle v _ [] sound
  have sSound : (g.lower ⟨.vehicleSilent, .vehicle v⟩).Sound := (Keeps.refl g).lower _ [] gSound
  have dismissed : h.dismissed v = (g.lower ⟨.vehicleSilent, .vehicle v⟩).lower ⟨.vehicleLost, .vehicle v⟩ := by rw [hg]; rfl
  rw [Hall.decommission_eq, dismissed]
  refine Hall.linkLeft_stays ?_
  simp only [List.mem_cons, List.not_mem_nil, or_false] at hk
  obtain rfl | rfl | rfl := hk
  · have conflict : (g.fault ⟨.zoneConflict, .vehicle v⟩).active = false := by
      rw [hg, Hall.fault_congr (Hall.modVehicle_faults _ _ _)]; exact Hall.unseat_calm sound
    exact Hall.lower_stays (Hall.lower_stays conflict _) _
  · exact Hall.lower_stays (Hall.lower_inactive gSound.faults _) _
  · exact Hall.lower_inactive sSound.faults _

theorem Hall.takeDecommission_idle (number : inRange 1 24 v = true) (on : (h.vehicle v).commissioned = true)
    (mission : (h.vehicle v).mission = none) (load : (h.vehicle v).load = none) :
    h.takeDecommission false v = (h.decommission v).accept .none := by
  simp [Hall.takeDecommission, number, on, mission, load]

theorem Hall.takeDecommission_refused (number : inRange 1 24 v = true)
    (busy : (h.vehicle v).commissioned = false ∨ (h.vehicle v).mission.isSome ∨ (h.vehicle v).load.isSome) :
    h.takeDecommission false v = h.refuse .state := by
  have busy : (!(h.vehicle v).commissioned || (h.vehicle v).mission.isSome || (h.vehicle v).load.isSome) = true := by
    simpa [or_assoc] using busy
  unfold Hall.takeDecommission
  dsimp only
  rw [number, busy]
  rfl

/-! ### A lost vehicle is cleared (R81, R91) -/

theorem Hall.clearLost_follows (h : Hall) (v : Nat) :
    Hall.Follows (({ h with vehicles := tmod h.vehicles v fun x => { x with supervision := .reporting, missed := 0 } } : Hall).lower
      ⟨.vehicleLost, .vehicle v⟩) (h.clearLost v) :=
  ((((Hall.Follows.refl _).clearLostZones v).setActivity v .idle).direct v .hold).push .arbiter

theorem Hall.takeClearLost_lost (number : inRange 1 24 v = true) (on : (h.vehicle v).commissioned = true)
    (lost : (h.vehicle v).supervision = .lost) : h.takeClearLost v = (h.clearLost v).accept .none := by
  simp [Hall.takeClearLost, number, on, lost]

theorem Hall.takeClearLost_refused (number : inRange 1 24 v = true)
    (not : (h.vehicle v).commissioned = false ∨ (h.vehicle v).supervision ≠ .lost) : h.takeClearLost v = h.refuse .state := by
  have not : (!(h.vehicle v).commissioned || decide ((h.vehicle v).supervision ≠ .lost)) = true := by simpa using not
  unfold Hall.takeClearLost
  dsimp only
  rw [number, not]
  rfl

end

theorem FaultKey.num_not_cascade {k : FaultKey} (h : [3, 4, 5, 6, 15, 20, 21].contains (faultCode k.kind) = false) :
    cascadeEntry k.num = false := by rw [cascadeEntry, Hall.Follows.num_div]; exact h

/-! ### The requests -/

theorem Hall.accept_hall (h : Hall) (c : Content) : (h.accept c).hall = h.finish := rfl

/-- Settles O31: each request by the checks it passes; a decommissioned vehicle by what its leaving the zones and the commission make of
its place, the fleet link's timer and its entries. -/
theorem vehiclesAreCommissionedAndCleared : Obligations.VehiclesAreCommissionedAndCleared := by
  intro s q v v1 v24
  have number := inRange_iff.mpr ⟨v1, v24⟩
  refine ⟨fun ok idle new => ?_, fun ok idle on => ?_, fun ok idle x hx on mission load => ?_, fun ok idle busy => ?_,
    fun ok on lost => ?_, fun ok not => ?_⟩
  · have saving : s.saving = false := congrArg Option.isSome idle
    rw [← Hall.commission_eq]
    exact ⟨_, rfl, State.request_accepts ok (by simpa only [saving] using Hall.takeCommission_new number new) (Hall.Follows.refl _).toSteps⟩
  · have saving : s.saving = false := congrArg Option.isSome idle
    exact ⟨_, rfl, State.request_accepts ok (by simpa only [saving] using Hall.takeCommission_again number on) (Hall.Follows.refl _).toSteps⟩
  · have saving : s.saving = false := congrArg Option.isSome idle
    obtain rfl := Hall.vehicle_of_record hx
    obtain ⟨answers, hall⟩ := State.request_answers (s := s) (f := fun h => h.takeDecommission s.saving v) ok
      (by simpa only [saving] using Hall.takeDecommission_idle number on mission load)
    rw [Hall.accept_hall] at hall
    have after := (s.hall.decommission v).finish_trace
    have places : (s.hall.decommission v).finish.places = tmod s.hall.places v Vehicle.retired :=
      (Hall.places_of_ground after.same).trans (s.hall.decommission_places v)
    refine ⟨_, rfl, answers, ?_, fun u other => ?_, ?_, fun sound k hk => ?_⟩
    · rw [hall, ← Hall.places_get]
      rw [places, tget_tmod_same, Hall.places_get, hx]; rfl
    · rw [hall, ← Hall.places_get, ← Hall.places_get]
      rw [places, tget_tmod_ne _ _ other]
    · rw [hall]
      rw [after.field Hall.fleetSilence, Hall.decommission_silence]
    · have apart : cascadeEntry (FaultKey.mk k (.vehicle v)).num = false := by
        refine FaultKey.num_not_cascade ?_
        simp only [List.mem_cons, List.not_mem_nil, or_false] at hk
        obtain rfl | rfl | rfl := hk <;> rfl
      rw [hall, after.fault apart]
      exact Hall.decommission_calm sound.hall hk
  · have saving : s.saving = false := congrArg Option.isSome idle
    exact congrArg Host.Outcome.next (State.request_tells ok
      (by simpa only [saving, Hall.refuse] using Hall.takeDecommission_refused number busy))
  · exact ⟨_, rfl, State.request_accepts ok (Hall.takeClearLost_lost number on lost) (s.hall.clearLost_follows v).toSteps⟩
  · exact congrArg Host.Outcome.next (State.request_tells ok (Hall.takeClearLost_refused number not))

end Sys2Proof.Machine
end

section
/-! PROOF. Vehicle reports: a vehicle is unknown, is seated, or moves (O57). -/

-- One theorem after another, as in the laws: elaborated all at once they ask for more threads than the check has room for.
set_option Elab.async false

namespace Sys2Proof.Machine

/-! ### A frame of the gateway (R205, R214) -/

section
variable (h : Hall)

/-- The hall but the silence timer of the fleet link and the entry of its silence. -/
theorem Hall.fleetHeard_still : { h.fleetHeard.still with fleetSilence := none } = { h.still with fleetSilence := none } := by
  unfold Hall.fleetHeard
  dsimp only
  rw [Hall.lower_still]
  split <;> rfl

theorem Hall.fleetHeard_field {α : Type} (f : Hall → α) (hf : ∀ h : Hall, f { h.still with fleetSilence := none } = f h := by intro; rfl) :
    f h.fleetHeard = f h := by
  rw [← hf h.fleetHeard, Hall.fleetHeard_still, hf]

theorem Hall.fleetHeard_vehicles : h.fleetHeard.vehicles = h.vehicles := h.fleetHeard_field Hall.vehicles

theorem Hall.fleetHeard_zones : h.fleetHeard.zones = h.zones := h.fleetHeard_field Hall.zones

end

/-- A report with a body fault counts a link error (R214). -/
theorem State.vehicleReport_faulty {f : Frame} {r : VehicleReport} (faulty : f.len ≠ 19 ∨ f.listed = false ∨ r.vehicle = 0 ∨ 24 < r.vehicle)
    (s : State) : exec (.vehicleReport f r) s = .next { s with hall := (s.hall.fleetHeard.linkError .fleet).finish } := by
  have faulty : ¬(decide (f.len = vehicleReportLength) && f.listed && inRange 1 24 r.vehicle) = true := by
    simp only [Bool.and_eq_true, decide_eq_true_eq, inRange_iff, not_and_or, Bool.not_eq_true]
    rcases faulty with e | e | e | e
    · exact .inl (.inl e)
    · exact .inl (.inr e)
    · exact .inr (.inl (by omega))
    · exact .inr (.inr (by omega))
  change execVehicleReport f r s = _
  unfold execVehicleReport
  dsimp only
  rw [if_neg faulty]

/-- A report that passes the body checks is taken (R88). -/
theorem State.vehicleReport_taken {f : Frame} {r : VehicleReport} (ok : f.ok 19) (v1 : 1 ≤ r.vehicle) (v24 : r.vehicle ≤ 24) (s : State) :
    exec (.vehicleReport f r) s = .next { s with hall := (s.hall.fleetHeard.takeReport r).finish } := by
  obtain ⟨len, listed⟩ := ok
  have sound : (decide (f.len = vehicleReportLength) && f.listed && inRange 1 24 r.vehicle) = true := by
    rw [listed, inRange_iff.mpr ⟨v1, v24⟩, Bool.and_true, Bool.and_true]
    exact decide_eq_true len
  change execVehicleReport f r s = _
  unfold execVehicleReport
  dsimp only
  rw [if_pos sound]

section
variable {h : Hall} {r : VehicleReport}

theorem Hall.takeReport_unknown (unknown : (h.vehicle r.vehicle).commissioned = false) :
    h.takeReport r = h.raise ⟨.vehicleUnknown, .vehicle r.vehicle⟩ := by simp [Hall.takeReport, unknown]

theorem Hall.takeReport_seated (on : (h.vehicle r.vehicle).commissioned = true) (seated : (h.vehicle r.vehicle).seated = true) :
    h.takeReport r = h.takeSeated r := by simp [Hall.takeReport, on, seated]

theorem Hall.takeReport_seats (on : (h.vehicle r.vehicle).commissioned = true) (seated : (h.vehicle r.vehicle).seated = false) {g : Hall}
    (seats : h.seat r.vehicle r.front r.tail = (g, true)) : h.takeReport r = g.seated r.vehicle r.charge := by
  simp [Hall.takeReport, on, seated, seats]

end

/-! ### Seating (R80) -/

section
variable {h : Hall} {v : Nat}

/-- A zone is there and in no other vehicle's hands. -/
def Hall.Open (v : Nat) (h : Hall) (z : Nat) : Prop := ∃ y, h.zone z = some y ∧ (y.holder = none ∨ y.holder = some v)

/-- A zone that is open to the vehicle conflicts with no seating, and what is open to it stays so (R80). -/
theorem Hall.seatZone_open {z : Nat} (open_ : h.Open v z) : ∃ g, h.seatZone v z = (g, false) ∧ h.Handles false false g ∧
    ∀ k, h.Open v k → g.Open v k := by
  obtain ⟨y, hy, holder⟩ := open_
  have taken : h.Handles false false (h.modZone z fun x => { x with holder := some v, hold := none }) := (Handles.refl h).modZone z _
  have stays (k : Nat) (o : h.Open v k) : (h.modZone z fun x => { x with holder := some v, hold := none }).Open v k := by
    obtain ⟨x, hx, own⟩ := o
    unfold Hall.Open
    rw [Hall.zone_modZone, hx]
    split
    · exact ⟨_, rfl, .inr rfl⟩
    · exact ⟨x, rfl, own⟩
  unfold Hall.seatZone
  rw [hy]
  dsimp only
  obtain free | own := holder
  · rw [free, if_neg (by simp)]
    split
    · refine ⟨_, rfl, taken.push _, fun k o => ?_⟩
      obtain ⟨x, hx, own⟩ := stays k o
      exact ⟨x, (Hall.zone_congr (Hall.push_zones _ _) k).trans hx, own⟩
    · exact ⟨_, rfl, taken, stays⟩
  · rw [own, if_pos (by simp)]
    exact ⟨h, by simp, .refl h, fun _ => id⟩

/-- A vehicle that holds no zone but those of its report, which are open to it, is seated there (R80). -/
theorem Hall.seat_seats {front : Nat} {tail : Option Nat}
    (settled : ∀ p ∈ h.zones, p.2.holder = some v → p.1 = front ∨ tail = some p.1)
    (opens : ∀ z, (z = front ∨ tail = some z) → h.Open v z) : ∃ g, h.Handles false false g ∧
      h.seat v front tail = (g.modVehicle v fun x => { x with seated := true, front := some front, tail := tail, ahead := [] }, true) := by
  have stays : (h.held v).filter (fun z => !(decide (z = front) || decide (tail = some z))) = [] := by
    refine List.filter_eq_nil_iff.mpr fun z mem => ?_
    obtain ⟨p, held, rfl⟩ := List.mem_map.mp mem
    obtain ⟨listed, own⟩ := List.mem_filter.mp held
    simpa [or_iff_not_imp_left] using settled p listed (of_decide_eq_true own)
  obtain ⟨g, front_, handled, opened⟩ := Hall.seatZone_open (opens front (.inl rfl))
  unfold Hall.seat
  rw [stays]
  dsimp only [List.foldl_nil]
  cases tail with
  | none => exact ⟨g.lower ⟨.zoneConflict, .vehicle v⟩, handled.lower _, by simp only [front_]; rfl⟩
  | some t =>
    obtain ⟨g', tail_, handled', -⟩ := Hall.seatZone_open (opened t (opens t (.inr rfl)))
    exact ⟨g'.lower ⟨.zoneConflict, .vehicle v⟩, (handled.trans handled').lower _, by simp only [front_, tail_]; rfl⟩

/-- What supervision and the Fleet Controller make of the place of a vehicle once seated (R88, R89). -/
theorem Hall.seated_places (h : Hall) (v charge : Nat) : (h.seated v charge).places = tmod h.places v fun x =>
    { x with charge := min 100 charge, supervision := .reporting, missed := 0
             timer := some (h.timebase + h.params.reportPeriod / 10) } := by
  have places : ((h.modVehicle v fun x =>
      { x with charge := min 100 charge, supervision := .reporting, missed := 0, activity := .idle }).startTimer v).places =
      tmod h.places v fun x =>
        { x with charge := min 100 charge, supervision := .reporting, missed := 0
                 timer := some (h.timebase + h.params.reportPeriod / 10) } := by
    rw [Hall.startTimer, Hall.places_modVehicle _ _ _ (fun x => { x with timer := some (h.timebase + h.params.reportPeriod / 10) })
      fun _ => rfl, Hall.places_modVehicle _ _ _ (fun x =>
        { x with charge := min 100 charge, supervision := .reporting, missed := 0 }) fun _ => rfl, tmod_tmod]
  have handled : ((h.modVehicle v fun x =>
      { x with charge := min 100 charge, supervision := .reporting, missed := 0, activity := .idle }).startTimer v).Handles false false
      (h.seated v charge) := by
    unfold Hall.seated
    extract_lets a b c d
    have told : b.Handles false false c := by
      unfold c; split
      · exact (Handles.refl b).stopVehicle v _
      · exact (Handles.refl b).issue v _
    have resumed : b.Handles false false d := by
      unfold d; split
      · exact told.after ((Follows.refl c).resumeMission _)
      · exact told.after ((Follows.refl c).returnIfOwed v)
    exact (resumed.push _).push _
  rw [Hall.places_of_setting handled.setting, places]

end

/-! ### A seated vehicle (R70, R88, R89) -/

section
variable {h : Hall} {v : Nat}

/-- The place of a vehicle once its report has been heard (R89, R91). -/
theorem Hall.heard_place {x : Vehicle} (hx : tget h.vehicles v = some x) (found : x.supervision ≠ .lost) :
    tget (h.heard v).places v = some { x.place with
      supervision := .reporting, missed := if x.supervision = Supervision.silent then 0 else x.missed
      timer := some (h.timebase + h.params.reportPeriod / 10) } := by
  have timed : tget (h.startTimer v).vehicles v = some { x with timer := some (h.timebase + h.params.reportPeriod / 10) } := by
    rw [Hall.startTimer, Hall.modVehicle_vehicles, tget_tmod_same, hx]; rfl
  have supervision : ((h.startTimer v).vehicle v).supervision = x.supervision := by rw [Hall.vehicle_of_record timed]
  unfold Hall.heard
  dsimp only
  rw [supervision]
  split
  · rw [Hall.places_lower, Hall.places_get, Hall.modVehicle_vehicles, tget_tmod_same, timed]; rfl
  · rename_i heard
    have reporting : x.supervision = .reporting := by
      cases e : x.supervision <;> simp_all
    rw [Hall.places_get, timed]
    simp only [Option.map_some, ← reporting]
    rfl

theorem Hall.heard_zones (h : Hall) (v : Nat) : (h.heard v).zones = h.zones := by
  unfold Hall.heard
  dsimp only
  split
  · exact Hall.still_field (Hall.lower_still _ _) Hall.zones fun _ => rfl
  · rfl

theorem Hall.Handles.leaveZone {c k : Bool} {a b : Hall} (x : a.Handles c k b) (v z : Nat) : a.Handles c k (b.leaveZone v z) := by
  unfold Hall.leaveZone; split
  · exact (x.after ((Follows.refl b).releaseHold v)).modZone z _
  · exact x.after ((Follows.refl b).releaseZone v z)

theorem Hall.Handles.releaseLeft {c k : Bool} {a b : Hall} (x : a.Handles c k b) (v : Nat) : a.Handles c k (b.releaseLeft v) := by
  unfold Hall.releaseLeft
  exact x.trans ((Handles.refl b).foldl (fun h z => (Handles.refl h).leaveZone v z) _)

theorem Hall.Handles.progress {c k : Bool} {a b : Hall} (x : a.Handles c k b) (v : Nat) : a.Handles c k (b.progress v) := by
  unfold Hall.progress; dsimp only; split
  · split
    · split
      · split
        · exact x.after (((Follows.refl b).modMission _ _).oweCall _)
        · exact x
      · exact x
    · exact x
  · exact x

theorem Hall.Handles.leftCharger {c k : Bool} {a b : Hall} (x : a.Handles c k b) (v : Nat) (n : Option Nat) :
    a.Handles c k (b.leftCharger v n) := by
  unfold Hall.leftCharger; dsimp only; split
  · exact x.setActivity v _
  · exact x

/-- The places once a position without conflict has been taken (R70). -/
theorem Hall.takePosition_places {front : Nat} {tail : Option Nat} (clear : ¬h.conflicts v front tail = true)
    (known : (tget h.vehicles v).isSome) (request : Option Nat) : (h.takePosition v front tail request).places =
      tmod h.places v fun x => { x with front := some front, tail := h.takenTail tail } := by
  have placed : (h.positioned v front tail).places = tmod h.places v fun x => { x with front := some front, tail := h.takenTail tail } := by
    rw [Hall.positioned, Hall.places_modVehicle _ _ _ (fun x => { x with front := some front, tail := h.takenTail tail }) fun _ => rfl,
      Hall.places_lower]
  have handled : (h.positioned v front tail).Handles false false (h.takePosition v front tail request) := by
    have left := (Handles.refl (c := false) (k := false) (h.positioned v front tail)).releaseLeft v
    rw [Hall.takePosition_eq clear known]
    split
    · split
      · exact left.after ((Follows.refl _).requestZone v _)
      · exact left
    · exact .refl _
  rw [Hall.places_of_setting handled.setting, placed]

/-- The hall with the position and the charge of a seated vehicle's report taken (R88). -/
def Hall.located (r : VehicleReport) (h : Hall) : Hall :=
  ((h.heard r.vehicle).takeReportPosition r).modVehicle r.vehicle fun x => { x with charge := min 100 r.charge }

/-- What a report completes, arrives at or acknowledges changes no vehicle's place (R93). -/
theorem Hall.takeSeated_handles (h : Hall) (r : VehicleReport) : (h.located r).Handles false false (h.takeSeated r) := by
  obtain ⟨g, hg⟩ : ∃ g, g = h.located r := ⟨_, rfl⟩
  rw [← hg]
  unfold Hall.takeSeated
  extract_lets v was a b c d e
  have placed : b = g := hg.symm
  rw [placed]
  split
  · exact (Handles.refl g).compareNumber r
  · have completed : g.Handles false false c := by
      unfold c
      rw [placed]
      split
      · exact (Handles.refl g).takeCompletion r _
      · exact .refl g
    have compared : g.Handles false false d := ((completed.takeArrival r).strayCheck r).compareNumber r
    have charged : g.Handles false false e := by
      unfold e; split
      · exact compared.push _
      · exact compared
    split
    · exact charged.push _
    · exact charged

/-- The place of a seated vehicle once its report has been taken, when no conflict bars it (R70, R88, R89). -/
theorem Hall.takeSeated_place {r : VehicleReport} {x : Vehicle} (hx : tget h.vehicles r.vehicle = some x) (found : x.supervision ≠ .lost)
    (clear : ¬h.conflicts r.vehicle r.front r.tail = true) : tget (h.takeSeated r).places r.vehicle = some { x with
      front := some r.front, tail := h.takenTail r.tail, charge := min 100 r.charge, supervision := .reporting
      missed := if x.supervision = Supervision.silent then 0 else x.missed
      timer := some (h.timebase + h.params.reportPeriod / 10) }.place := by
  obtain ⟨g, hg⟩ : ∃ g, g = h.heard r.vehicle := ⟨_, rfl⟩
  have heard := Hall.heard_place hx found
  rw [← hg] at heard
  have zones : g.zones = h.zones := by rw [hg]; exact h.heard_zones _
  have conflicts : ¬g.conflicts r.vehicle r.front r.tail = true := by
    simpa only [Hall.conflicts, Hall.zone, zones] using clear
  have taken : g.takenTail r.tail = h.takenTail r.tail := by simp only [Hall.takenTail, Hall.zone, zones]
  have known : (tget g.vehicles r.vehicle).isSome := by
    have e := congrArg Option.isSome heard
    rwa [Hall.places_get, Option.isSome_map] at e
  obtain ⟨request, handled⟩ : ∃ request, (g.takePosition r.vehicle r.front r.tail request).Handles false false (g.takeReportPosition r) := by
    unfold Hall.takeReportPosition
    exact ⟨_, ((Handles.refl _).progress _).leftCharger _ _⟩
  have located : (h.located r).places = tmod (g.takeReportPosition r).places r.vehicle fun x => { x with charge := min 100 r.charge } := by
    rw [Hall.located, ← hg]
    exact Hall.places_modVehicle _ _ _ _ fun _ => rfl
  rw [Hall.places_of_setting (h.takeSeated_handles r).setting, located, tget_tmod_same, Hall.places_of_setting handled.setting,
    Hall.takePosition_places conflicts known, tget_tmod_same, heard, taken]
  rfl

end

/-! ### Vehicle reports -/

/-- Settles O57: each report by the checks it passes, and the place of its vehicle through seating or through the position it reports. -/
theorem vehicleReportsSeatAndMove : Obligations.VehicleReportsSeatAndMove := by
  intro s f r h
  have vehicle (v : Nat) : h.vehicle v = s.hall.vehicle v := by rw [Hall.vehicle, s.hall.fleetHeard_vehicles]; rfl
  have zone (z : Nat) : h.zone z = s.hall.zone z := Hall.zone_congr s.hall.fleetHeard_zones z
  have timebase : h.timebase = s.hall.timebase := s.hall.fleetHeard_field Hall.timebase
  have params : h.params = s.hall.params := s.hall.fleetHeard_field Hall.params
  refine ⟨fun faulty => ⟨_, State.vehicleReport_faulty faulty s, rfl, Hall.finish_trace _⟩, fun ok v1 v24 =>
    ⟨fun unknown => ?_, fun x hx on off settled opens => ?_, fun x z hx on seated found hz own tails => ?_⟩⟩
  · refine ⟨_, State.vehicleReport_taken ok v1 v24 s, rfl, ?_⟩
    rw [Hall.takeReport_unknown (by rwa [vehicle])]
    exact Hall.finish_trace _
  · have record : tget h.vehicles r.vehicle = some x := by rw [s.hall.fleetHeard_vehicles]; exact hx
    have known := Hall.vehicle_of_record record
    obtain ⟨g, handled, seats⟩ := Hall.seat_seats (h := h) (v := r.vehicle) (front := r.front) (tail := r.tail)
      (by rw [s.hall.fleetHeard_zones]; exact settled) fun z named => by rw [Hall.Open, zone]; exact opens z named
    have time : g.timebase = h.timebase := by have e := congrArg Hall.timebase handled.setting; exact e
    have period : g.params = h.params := by have e := congrArg Hall.params handled.setting; exact e
    refine ⟨_, State.vehicleReport_taken ok v1 v24 s, rfl, ?_⟩
    rw [← Hall.places_get, Hall.places_of_ground (Hall.finish_trace _).same,
      Hall.takeReport_seats (by rwa [known]) (by rwa [known]) seats, Hall.seated_places, tget_tmod_same,
      Hall.places_modVehicle _ _ _ (fun x => { x with seated := true, front := some r.front, tail := r.tail }) fun _ => rfl,
      tget_tmod_same, Hall.places_of_setting handled.setting, Hall.places_get, record, Hall.modVehicle_timebase, Hall.modVehicle_params,
      time, period, timebase, params]
    rfl
  · have record : tget h.vehicles r.vehicle = some x := by rw [s.hall.fleetHeard_vehicles]; exact hx
    have known := Hall.vehicle_of_record record
    have clear : ¬h.conflicts r.vehicle r.front r.tail = true := by
      rw [Hall.conflicts_iff]
      rintro (other | ⟨t, y, u, ht, hy, held, other⟩)
      · exact other z ((zone r.front).trans hz) own
      · obtain free | own := tails t y ht ((zone t).symm.trans hy)
        · rw [free] at held; exact nomatch held
        · rw [own] at held; exact other (Option.some.inj held).symm
    have tail : h.takenTail r.tail = s.hall.takenTail r.tail := by simp only [Hall.takenTail, zone]
    refine ⟨_, State.vehicleReport_taken ok v1 v24 s, rfl, ?_⟩
    rw [← Hall.places_get, Hall.places_of_ground (Hall.finish_trace _).same, Hall.takeReport_seated (by rwa [known]) (by rwa [known]),
      Hall.takeSeated_place record found clear, tail, timebase, params]

end Sys2Proof.Machine
end

section
/-! PROOF. Query Route: a zone whose attach zone is not on the loop (O16). -/

-- One theorem after another, as in the laws: elaborated all at once they ask for more threads than the check has room for.
set_option Elab.async false

namespace Sys2Proof.Machine

/-! ### A route that does not arrive (R66)

The statement says of every hall that a route ends in its destination; only its account of the way round the loop asks that the zones by
which start and destination join the loop are LOOP zones. From a zone attached to one that is none the way round the loop is empty. -/

/-- A plant with a complete loop of 8 zones, and a dock attached to zone 20, which is not configured. -/
def adrift : Hall := { Hall.reset with
  zones := ((List.range 8).map fun i => (i + 1, ⟨⟨.loop (i + 1), 0, 10⟩, none, [], none⟩)) ++ [(9, ⟨⟨.dock 1, 20, 10⟩, none, [], none⟩)] }

theorem adrift_route : adrift.loopComplete = true ∧ adrift.isLoop 20 = false ∧ adrift.route 9 1 = some [9, 20] := by decide

/-- Refutes O16: its clause on Query Route says of every hall that a route ends in its destination, but from a zone attached to no LOOP
zone the model's route stops at the zone it is attached to. R64 and R85 keep such zones out of the Zone Table, but the clause does not ask for that. -/
theorem not_trafficFleetAndFeedQueriesTell : ¬ Obligations.TrafficFleetAndFeedQueriesTell := by
  rintro ⟨-, routes, -⟩
  obtain ⟨-, -, ways, -⟩ := routes adrift 9 1
  obtain ⟨-, -, route⟩ := adrift_route
  obtain ⟨-, arrives, -⟩ := ways [9, 20] route
  exact absurd arrives (by decide)

end Sys2Proof.Machine
end

section
/-! PROOF. One tick of the timebase, and the parameters the host sets (O2, O35). -/

-- One theorem after another, as in the laws: elaborated all at once they ask for more threads than the check has room for.
set_option Elab.async false

namespace Sys2Proof.Machine

/-! ### One tick of the timebase (log 2) -/

section
variable {h : Hall}

theorem Hall.reached_iff {e : Option Nat} : h.reached e = true ↔ ∃ x, e = some x ∧ x ≤ h.timebase := by
  cases e <;> simp [Hall.reached]

/-- The wait limit of a stand's handover has run out (R130, R135). -/
theorem Hall.waitEnd_reached_iff {e : Option Handover} : h.reached (e.bind h.waitEnd) = true ↔
    ∃ x, e = some x ∧ x.waits = true ∧ x.started + h.params.waitLimit * 100 ≤ h.timebase := by
  simp only [Hall.reached_iff, Option.bind_eq_some_iff, Hall.waitEnd, Config.ticksPerSecond, Option.ite_none_right_eq_some,
    Option.some.injEq]
  constructor
  · rintro ⟨-, ⟨x, here, waits, rfl⟩, past⟩
    exact ⟨x, here, waits, past⟩
  · rintro ⟨x, here, waits, past⟩
    exact ⟨_, ⟨x, here, waits, rfl⟩, past⟩

/-- The expiries of a table: one for each record that is due. -/
theorem mem_due {α : Type} {t : Table α} {due : Nat × α → Bool} {event : Nat × α → Instr} {c : Instr} :
    c ∈ (t.filter due).map event ↔ ∃ p ∈ t, due p = true ∧ c = event p := by
  simp only [List.mem_map, List.mem_filter, and_assoc, eq_comm]

/-- An event of its own that is due. -/
theorem mem_due_one {due : Bool} {event c : Instr} : c ∈ (if due then [event] else []) ↔ due = true ∧ c = event := by
  cases due <;> simp

/-- The events due on the timebase (R89, R132, R151, R204, R205, R220). -/
theorem Hall.mem_dueEvents {c : Instr} : c ∈ h.dueEvents ↔
    (∃ p ∈ h.vehicles, h.reached p.2.timer = true ∧ c = .supervisionTimerExpiry p.1) ∨
    (∃ p ∈ h.lines, h.reached p.2.silence = true ∧ c = .lineLinkDown p.1) ∨
    (h.reached h.fleetSilence = true ∧ c = .fleetLinkDown) ∨
    (∃ p ∈ h.stands, h.reached (p.2.handover.bind h.waitEnd) = true ∧ c = .handoverWaitLimit (standOfKey p.1)) ∨
    (∃ p ∈ h.stands, h.reached p.2.retry = true ∧ c = .retryWaitExpiry (standOfKey p.1)) ∨
    (h.secondDue = true ∧ c = .hallClockAdvance) := by
  simp only [Hall.dueEvents, List.mem_append, mem_due, mem_due_one, or_assoc]

end

/-- Settles O2: the queue after a tick lists what the moved timebase makes due. -/
theorem idleStepIsOneTick : Obligations.IdleStepIsOneTick := by
  intro s idle
  have ticks : step s = .next s.tick := by rw [step, idle]
  refine ⟨s.tick, ticks, rfl, fun c => Hall.mem_dueEvents.trans ?_⟩
  simp only [Hall.waitEnd_reached_iff]
  simp only [Hall.reached_iff, Hall.secondDue, decide_eq_true_eq]
  exact Iff.rfl

/-! ### Parameters by the host (R113, R216) -/

theorem optStep_iff {step : Nat} {n : Option Nat} : optStep step n = true ↔ ∀ x, n = some x → x % step = 0 := by
  cases n <;> simp [optStep]

theorem Hall.Follows.oweAll {a b : Hall} (x : a.Follows b) : a.Follows b.oweAll := x.foldl (fun h n => (Follows.refl h).oweCeiling n) _

section
variable {h : Hall} {a : FleetArgs} {v : Nat}

/-- Parameters in range are refused only for a resume charge too near the low charge (R113). -/
theorem Hall.takeParams_refused (close : (h.params.set a).resumeCharge < (h.params.set a).lowCharge + 10) (saving : Bool) :
    h.takeParams saving a = h.refuse .range := by simp [Hall.takeParams, close]

theorem Hall.takeParams_sets (fits : fleetArgsFit a = true) (apart : (h.params.set a).lowCharge + 10 ≤ (h.params.set a).resumeCharge) :
    h.takeParams false a = (({ h with params := h.params.set a } : Hall).oweAll.push .arbiter).accept .none := by
  simp [Hall.takeParams, fits, Nat.not_lt.mpr apart]

theorem Hall.takeTolerance_sets (v1 : 1 ≤ v) (v25 : v ≤ 25) :
    h.takeTolerance false v = ({ h with massTolerance := v } : Hall).accept .none := by
  simp [Hall.takeTolerance, inRange_iff.mpr ⟨v1, v25⟩]

theorem Hall.takeTolerance_refused (out : v < 1 ∨ 25 < v) (saving : Bool) :
    h.takeTolerance saving v = h.refuse .range := by
  have out : ¬inRange 1 25 v = true := by rw [inRange_iff]; omega
  simp [Hall.takeTolerance, out]

end

/-- Settles O35: the parameters given are set and the arbiter is owed; a resume charge too near the low charge is refused, as is a mass
tolerance out of range. -/
theorem parametersAreSet : Obligations.ParametersAreSet := by
  intro s q idle
  have free : s.saving = false := by rw [State.saving, idle]; rfl
  refine ⟨fun ok a period lost low resume hold allowance pick transfer wait => ⟨fun apart => ?_, fun close => ?_⟩,
    fun ok v => ⟨fun v1 v25 => ?_, fun out => ?_⟩⟩
  · have fits : fleetArgsFit a = true := by
      simp only [fleetArgsFit, Bool.and_eq_true, optIn_iff, optStep_iff]
      exact ⟨⟨⟨⟨⟨⟨⟨⟨⟨fun x e => ⟨(period x e).1, (period x e).2.1⟩, fun x e => (period x e).2.2⟩, lost⟩, low⟩, resume⟩,
        fun x e => ⟨Nat.zero_le x, hold x e⟩⟩, allowance⟩, fun x e => ⟨Nat.zero_le x, pick x e⟩⟩,
        fun x e => ⟨Nat.zero_le x, transfer x e⟩⟩, wait⟩
    refine ⟨_, rfl, State.request_accepts ok (free ▸ Hall.takeParams_sets fits apart) ?_⟩
    exact ((Hall.Follows.refl _).oweAll.push _).toSteps
  · exact congrArg Host.Outcome.next (State.request_tells ok (Hall.takeParams_refused close _))
  · refine ⟨_, rfl, State.request_accepts ok (free ▸ Hall.takeTolerance_sets v1 v25) ?_⟩
    exact (Hall.Follows.refl _).toSteps
  · exact congrArg Host.Outcome.next (State.request_tells ok (Hall.takeTolerance_refused out _))

end Sys2Proof.Machine
end

section
/-! PROOF. Stop Fleet and Resume Fleet (O34). -/

-- One theorem after another, as in the laws: elaborated all at once they ask for more threads than the check has room for.
set_option Elab.async false

namespace Sys2Proof.Machine

/-! ### The all-stop (R110) -/

/-- A vehicle under the all-stop: STOPPED under STOP, what it did and its directive kept; one that is not seated, or whose TRANSFER or
UNLOAD is current, is left as it is (R110). -/
def Vehicle.halted (x : Vehicle) : Vehicle :=
  if x.seated && !x.transferring then { x with
    activity := .stopped, beforeStop := some x.activity, kept := some ⟨some x.directive.number, x.directive.kind⟩
    directive := ⟨x.directive.number + 1, .stop⟩ }
  else x

theorem Vehicle.halted_stopped {x : Vehicle} (seated : x.seated = true) (held : x.transferring = false) : x.halted = { x with
    activity := .stopped, beforeStop := some x.activity, kept := some ⟨some x.directive.number, x.directive.kind⟩
    directive := ⟨x.directive.number + 1, .stop⟩ } := by simp [Vehicle.halted, seated, held]

theorem Vehicle.halted_spared {x : Vehicle} (spared : x.seated = false ∨ x.transferring = true) : x.halted = x := by
  obtain e | e := spared <;> simp [Vehicle.halted, e]

section
variable (h : Hall) (v : Nat)

/-- A STOP drops no route, so that it owes no withdrawal that was not owed before (R82). -/
theorem Hall.owesWithdrawal_stop (old : DirKind) : h.owesWithdrawal v old .stop = (h.vehicle v).withdraw := by
  have kept : dropsMove old .stop = false := by cases old <;> rfl
  simp [Hall.owesWithdrawal, kept]

theorem Hall.issue_vehicles (k : DirKind) : (h.issue v k).vehicles = tmod h.vehicles v fun x => { x with
    directive := ⟨(h.vehicle v).directive.number + 1, k⟩, withdraw := h.owesWithdrawal v (h.vehicle v).directive.kind k } := rfl

/-- The all-stop of one vehicle owes nothing. -/
theorem Hall.haltVehicle_owes : (h.haltVehicle v).agenda = h.agenda ∧ (h.haltVehicle v).ceilings = h.ceilings := by
  unfold Hall.haltVehicle
  dsimp only
  split <;> exact ⟨rfl, rfl⟩

theorem Hall.Follows.haltVehicle {a b : Hall} (x : a.Follows b) (v : Nat) : a.Follows (b.haltVehicle v) := by
  unfold Hall.haltVehicle
  dsimp only
  split
  · exact x.stopVehicle v _
  · exact x

variable {h v}

/-- A seated vehicle is one of the table. -/
theorem Hall.record_of_seated (seated : (h.vehicle v).seated = true) : ∃ x, tget h.vehicles v = some x := by
  cases hx : tget h.vehicles v with
  | some x => exact ⟨x, rfl⟩
  | none => simp [Hall.vehicle, hx, Vehicle.cold] at seated

/-- A vehicle is stopped with its withdrawal still owed as it was (R82, R110). -/
theorem Hall.stopVehicle_vehicles {x : Vehicle} (hx : tget h.vehicles v = some x) (k : Kept) :
    (h.stopVehicle v k).vehicles = tmod h.vehicles v fun _ => { x with
      kept := some k, beforeStop := some x.activity, activity := .stopped, directive := ⟨x.directive.number + 1, .stop⟩ } := by
  have record : (h.modVehicle v fun x => { x with kept := some k, beforeStop := some x.activity, activity := .stopped }).vehicle v =
      { x with kept := some k, beforeStop := some x.activity, activity := .stopped } :=
    Hall.vehicle_of_record (by rw [Hall.modVehicle_vehicles, tget_tmod_same, hx]; rfl)
  rw [Hall.stopVehicle, Hall.issue_vehicles, Hall.owesWithdrawal_stop, record]
  exact tmod_tmod_congr hx rfl

variable (h v)

/-- The all-stop of one vehicle is seen at that vehicle alone. -/
theorem Hall.haltVehicle_vehicle (w : Nat) :
    (h.haltVehicle v).vehicle w = if w = v then (h.vehicle w).halted else h.vehicle w := by
  unfold Hall.haltVehicle
  dsimp only
  split
  · rename_i stops
    obtain ⟨seated, held⟩ : (h.vehicle v).seated = true ∧ (h.vehicle v).transferring = false := by simpa using stops
    obtain ⟨x, hx⟩ := Hall.record_of_seated seated
    obtain rfl := Hall.vehicle_of_record hx
    rw [Hall.vehicle, Hall.stopVehicle_vehicles hx, tget_tmod]
    split
    · rename_i same
      rw [same, hx]
      exact (Vehicle.halted_stopped seated held).symm
    · rfl
  · rename_i stays
    split
    · rename_i same
      rw [same, Vehicle.halted, if_neg stays]
    · rfl

end

section
variable {h : Hall} (run : h.allStop = false)
include run

theorem Hall.haltFleet_running : h.haltFleet = vehicleNumbers.foldl Hall.haltVehicle { h with allStop := true } := by
  rw [Hall.haltFleet, run]; rfl

theorem Hall.haltFleet_follows : Hall.Follows { h with allStop := true } h.haltFleet := by
  rw [Hall.haltFleet_running run]
  exact (Follows.refl _).foldl (fun g v => (Follows.refl g).haltVehicle v) _

/-- The all-stop reaches every vehicle of the fleet, each once (R110). -/
theorem Hall.haltFleet_vehicle {v : Nat} (v1 : 1 ≤ v) (v24 : v ≤ 24) : h.haltFleet.vehicle v = (h.vehicle v).halted := by
  have listed : v ∈ vehicleNumbers := List.mem_map.mpr ⟨v - 1, List.mem_range.mpr (by omega), by omega⟩
  obtain ⟨changed, -⟩ := foldl_view (view := Hall.vehicle) (key := id) (F := fun _ => Vehicle.halted)
    (fun v _ g w => g.haltVehicle_vehicle v w) (by decide : (vehicleNumbers.map id).Nodup) { h with allStop := true }
  rw [Hall.haltFleet_running run]
  exact changed v listed

theorem Hall.haltFleet_owes : h.haltFleet.agenda = h.agenda ∧ h.haltFleet.ceilings = h.ceilings := by
  have all (l : List Nat) : ∀ g : Hall, (l.foldl Hall.haltVehicle g).agenda = g.agenda ∧
      (l.foldl Hall.haltVehicle g).ceilings = g.ceilings := by
    induction l with
    | nil => exact fun g => ⟨rfl, rfl⟩
    | cons u l ih =>
      intro g
      obtain ⟨agenda, ceilings⟩ := ih (g.haltVehicle u)
      obtain ⟨agenda', ceilings'⟩ := g.haltVehicle_owes u
      exact ⟨agenda.trans agenda', ceilings.trans ceilings'⟩
  rw [Hall.haltFleet_running run]
  exact all _ _

end

/-- An all-stopped fleet is not stopped again (R110). -/
theorem Hall.haltFleet_again {h : Hall} (stop : h.allStop = true) : h.haltFleet = h := by rw [Hall.haltFleet, if_pos stop]

/-! ### The end of the all-stop (R92, R112) -/

/-- The place of a zone in a route it is a zone of. -/
theorem getElem?_placeIn {zones : List Nat} {z : Nat} (listed : z ∈ zones) : zones[placeIn zones z - 1]? = some z := by
  unfold placeIn
  split
  · rename_i i found
    obtain ⟨inside, here, -⟩ := List.findIdx?_eq_some_iff_getElem.mp found
    simpa [List.getElem?_eq_getElem inside] using here
  · rename_i absent
    exact absurd rfl (of_decide_eq_false (List.findIdx?_eq_none_iff.mp absent z listed))

/-- The directive a STOPPED vehicle goes on with: the one kept, a MOVE granted through the zone its grants lead to now (R92, R112). -/
def Vehicle.goesOnWith (x : Vehicle) : DirKind :=
  match x.kept with
  | some ⟨_, .move zones _⟩ => .move zones (x.through zones)
  | some k => k.kind
  | none => .hold

theorem Vehicle.goesOnWith_none {x : Vehicle} (none : x.kept = none) : x.goesOnWith = .hold := by rw [goesOnWith, none]

theorem Vehicle.goesOnWith_other {x : Vehicle} {k : Kept} (kept : x.kept = some k) (other : ∀ zones n, k.kind ≠ .move zones n) :
    x.goesOnWith = k.kind := by
  obtain ⟨number, kind⟩ := k
  rw [goesOnWith, kept]
  cases kind with
  | move zones n => exact absurd rfl (other zones n)
  | _ => rfl

theorem Vehicle.goesOnWith_move {x : Vehicle} {k : Kept} {zones : List Nat} {n : Nat} (kept : x.kept = some k)
    (move : k.kind = .move zones n) : x.goesOnWith = .move zones (x.through zones) := by
  obtain ⟨number, kind⟩ := k
  obtain rfl := move
  rw [goesOnWith, kept]

/-- A MOVE is granted through the zone the vehicle's grants lead to, when that is one of its route (R92). -/
theorem Vehicle.getElem?_through {x : Vehicle} {zones : List Nat} {z : Nat}
    (leads : (if x.withdraw then x.front else x.furthest) = some z) (listed : z ∈ zones) : zones[x.through zones - 1]? = some z := by
  rw [Vehicle.through, leads]
  exact getElem?_placeIn listed

section
variable {h : Hall} {v : Nat} {x : Vehicle}

theorem Hall.resumeVehicle_other (active : (h.vehicle v).activity ≠ .stopped) : h.resumeVehicle v = h := if_neg active

theorem Hall.resumeVehicle_stopped (stopped : (h.vehicle v).activity = .stopped) : h.resumeVehicle v =
    (h.modVehicle v fun x => { x with activity := x.beforeStop.getD .idle, beforeStop := none, kept := none }).issue v
      (h.vehicle v).goesOnWith := if_pos stopped

/-- A STOPPED vehicle takes its activity again and is sent the directive it goes on with, under a new number (R112). -/
theorem Hall.resumeVehicle_eq (hx : tget h.vehicles v = some x) (stopped : x.activity = .stopped) : ∃ owed,
    h.resumeVehicle v = ({ h with vehicles := tmod h.vehicles v fun _ => { x with
      activity := x.beforeStop.getD .idle, beforeStop := none, kept := none
      directive := ⟨x.directive.number + 1, x.goesOnWith⟩, withdraw := owed } } : Hall).sendDirective v
        ⟨x.directive.number + 1, x.goesOnWith⟩ := by
  have known := Hall.vehicle_of_record hx
  have record : (h.modVehicle v fun x => { x with activity := x.beforeStop.getD .idle, beforeStop := none, kept := none }).vehicle v =
      { x with activity := x.beforeStop.getD .idle, beforeStop := none, kept := none } :=
    Hall.vehicle_of_record (by rw [Hall.modVehicle_vehicles, tget_tmod_same, hx]; rfl)
  rw [Hall.resumeVehicle_stopped (known ▸ stopped), known]
  unfold Hall.issue
  rw [record]
  exact ⟨_, congrArg (fun t => Hall.sendDirective v _ { h with vehicles := t }) (tmod_tmod_congr hx rfl)⟩

end

section
variable {h : Hall}

theorem Hall.anyConflict_iff : h.anyConflict = true ↔ ∃ p ∈ h.faults, p.2.1.kind = .zoneConflict ∧ p.2.2.active = true := by
  simp only [Hall.anyConflict, List.any_eq_true, Bool.and_eq_true, decide_eq_true_eq]

theorem Hall.takeResume_refused (refused : h.allStop = false ∨ h.anyConflict = true) : h.takeResume = h.refuse .state := by
  obtain e | e := refused <;> simp [Hall.takeResume, e]

/-- The hall once the all-stop has ended: the zone arbiter has run, the vehicles go on and those that need charge are served (R76, R112). -/
def Hall.resumed (h : Hall) : Hall :=
  (vehicleNumbers.foldl Hall.resumeVehicle (Hall.resumeWalk { h with allStop := false })).serveChargers.push .arbiter

theorem Hall.takeResume_resumes (stop : h.allStop = true) (clear : ¬h.anyConflict = true) : h.takeResume = h.resumed.accept .none := by
  simp [Hall.takeResume, Hall.resumed, stop, clear]

theorem Hall.resumed_follows (h : Hall) : Hall.Follows { h with allStop := false } h.resumed :=
  (((Follows.refl _).resumeWalk.foldl follows_resumeVehicle _).serveChargers).push _

end

/-! ### The requests -/

/-- Settles O34: each STOPPED vehicle of itself, then Stop Fleet as a walk that changes each vehicle once, and Resume Fleet by the
conditions that refuse it. -/
theorem allStopKeepsAndResumes : Obligations.AllStopKeepsAndResumes := by
  refine ⟨fun h v x hx => ⟨fun active => ?_, fun stopped => ?_⟩, fun s q =>
    ⟨fun ok run => ?_, fun ok stop => ?_, fun ok stop clear => ?_, fun ok refused => ?_⟩⟩
  · exact Hall.resumeVehicle_other (by rwa [Hall.vehicle_of_record hx])
  · obtain ⟨owed, eq⟩ := Hall.resumeVehicle_eq hx stopped
    rw [eq, Hall.sendDirective_vehicles, Hall.sendDirective_sent]
    refine ⟨_, _, by rw [tget_tmod_same, hx]; rfl, rfl, rfl, rfl, rfl, rfl, Vehicle.goesOnWith_none, fun k => Vehicle.goesOnWith_other,
      fun k zones n kept move => ⟨_, Vehicle.goesOnWith_move kept move, fun z leads listed => Vehicle.getElem?_through leads listed⟩,
      fun w other => tget_tmod_ne _ _ other⟩
  · have accepts := State.request_accepts (f := fun h => h.haltFleet.accept .none) ok rfl (Hall.haltFleet_follows run).toSteps
    refine ⟨_, rfl, accepts, fun jobs ceilings v v1 v24 => ?_⟩
    obtain ⟨agenda, owed⟩ := Hall.haltFleet_owes run
    have hall : (s.request q 0x17 fun h => h.haltFleet.accept .none).hall = s.hall.haltFleet := by
      rw [State.request_taken ok]
      exact Hall.finish_of_nothing_owed (agenda.trans jobs) (owed.trans ceilings)
    have halted : (s.request q 0x17 fun h => h.haltFleet.accept .none).hall.vehicle v = (s.hall.vehicle v).halted := by
      rw [hall, Hall.haltFleet_vehicle run v1 v24]
    refine ⟨fun seated held => ?_, fun spared => halted.trans (Vehicle.halted_spared spared)⟩
    have stopped := halted.trans (Vehicle.halted_stopped seated held)
    exact ⟨congrArg Vehicle.activity stopped, congrArg Vehicle.beforeStop stopped, congrArg Vehicle.kept stopped,
      congrArg Vehicle.directive stopped⟩
  · exact ⟨_, rfl, State.request_accepts ok (congrArg (Hall.accept · .none) (Hall.haltFleet_again stop)) (Hall.Follows.refl _).toSteps⟩
  · have clear : ¬s.hall.anyConflict = true := by
      rw [Hall.anyConflict_iff]
      rintro ⟨p, listed, conflict, active⟩
      exact Bool.false_ne_true ((clear p listed conflict).symm.trans active)
    have resumes := Hall.takeResume_resumes stop clear
    obtain ⟨-, hall⟩ := State.request_answers ok resumes
    refine ⟨_, rfl, State.request_accepts ok resumes s.hall.resumed_follows.toSteps, hall.trans ?_⟩
    rw [Hall.accept, Hall.resumed, vehicleNumbers]
  · refine congrArg Host.Outcome.next (State.request_tells ok (Hall.takeResume_refused ?_))
    exact refused.imp_right Hall.anyConflict_iff.mpr

end Sys2Proof.Machine
end

section
/-! PROOF. Vehicles that miss their reports, and the silence of the fleet link (O58). -/

-- One theorem after another, as in the laws: elaborated all at once they ask for more threads than the check has room for.
set_option Elab.async false

namespace Sys2Proof.Machine

/-! ### A missed report (R89) -/

/-- A vehicle whose supervision timer has run out: one more report is missed, and the timer starts again (R89). -/
def Vehicle.missing (timer : Nat) (x : Vehicle) : Vehicle := { x with missed := min 255 (x.missed + 1), timer := some timer }

/-- The hall once a missed report of vehicle `v` has been counted (R89). -/
def Hall.missedReport (v : Nat) (h : Hall) : Hall :=
  h.modVehicle v (Vehicle.missing (h.timebase + h.params.reportPeriod / 10))

/-- The hall once a vehicle that was REPORTING is told of as SILENT (R89). -/
def Hall.silenced (v : Nat) (h : Hall) : Hall :=
  if (h.vehicle v).supervision = .reporting then
    (h.modVehicle v fun x => { x with supervision := .silent }).raise ⟨.vehicleSilent, .vehicle v⟩
  else h

/-- A change of a record is what it makes of that record. -/
theorem tmod_congr {α : Type} {t : Table α} {k : Nat} {x : α} {f g : α → α} (hx : tget t k = some x) (same : f x = g x) :
    tmod t k f = tmod t k g := by
  induction t with
  | nil => rfl
  | cons p t ih =>
    obtain ⟨j, y⟩ := p
    rw [tget_cons] at hx
    split at hx
    · rename_i here
      obtain rfl := Option.some.inj hx
      simp [tmod, here, same]
    · rename_i other
      simp [tmod, other, ih hx]

section
variable (h : Hall) (v : Nat)

theorem Hall.startTimer_missedReport :
    (h.startTimer v).modVehicle v (fun x => { x with missed := satAdd Config.max8 x.missed 1 }) = h.missedReport v :=
  congrArg (fun t => { h with vehicles := t }) (tmod_tmod _ _ _ _)

theorem Hall.supervisionExpiry_eq : h.supervisionExpiry v =
    if (((h.missedReport v).silenced v).vehicle v).supervision ≠ .lost ∧
        ((h.missedReport v).silenced v).params.lostCount ≤ (((h.missedReport v).silenced v).vehicle v).missed then
      ((h.missedReport v).silenced v).loseVehicle v
    else (h.missedReport v).silenced v := by
  rw [← Hall.startTimer_missedReport]; rfl

/-- Becoming SILENT is told and changes nothing but the vehicle. -/
theorem Hall.silenced_still (reporting : (h.vehicle v).supervision = .reporting) :
    (h.silenced v).still = (h.modVehicle v fun x => { x with supervision := .silent }).still := by
  rw [Hall.silenced, if_pos reporting, Hall.raise_still _ rfl]

variable {h v} {x : Vehicle}

theorem Hall.missedReport_record (hx : tget h.vehicles v = some x) :
    tget (h.missedReport v).vehicles v = some (x.missing (h.timebase + h.params.reportPeriod / 10)) := by
  rw [Hall.missedReport, Hall.modVehicle_vehicles, tget_tmod_same, hx]; rfl

/-- A vehicle that has been silenced is not REPORTING, and has missed what it had. -/
theorem Hall.silenced_record (hx : tget h.vehicles v = some x) : tget (h.silenced v).vehicles v = some { x with
    supervision := if x.supervision = Supervision.reporting then .silent else x.supervision } := by
  have known := Hall.vehicle_of_record hx
  by_cases reporting : x.supervision = .reporting
  · rw [Hall.still_field (h.silenced_still v (known ▸ reporting)) Hall.vehicles fun _ => rfl, Hall.modVehicle_vehicles, tget_tmod_same,
      hx, if_pos reporting]
    rfl
  · rw [Hall.silenced, known, if_neg reporting, hx, if_neg reporting]

theorem Hall.silenced_params : (h.silenced v).params = h.params := by
  unfold Hall.silenced
  split
  · exact Hall.still_field (Hall.raise_still _ rfl) Hall.params fun _ => rfl
  · rfl

/-- A missed report of a REPORTING vehicle makes it SILENT (R89). -/
theorem Hall.missedReport_silences (hx : tget h.vehicles v = some x) (reporting : x.supervision = .reporting) :
    (h.missedReport v).silenced v = Hall.raise ⟨.vehicleSilent, .vehicle v⟩ { h with vehicles := tmod h.vehicles v fun y => { y with
      missed := min 255 (x.missed + 1), timer := some (h.timebase + h.params.reportPeriod / 10), supervision := Supervision.silent } } := by
  have still : ((h.missedReport v).vehicle v).supervision = .reporting := by rwa [Hall.vehicle_of_record (Hall.missedReport_record hx)]
  rw [Hall.silenced, if_pos still]
  exact congrArg (fun t => Hall.raise _ { h with vehicles := t }) (tmod_tmod_congr hx rfl)

/-- A missed report of a vehicle that is SILENT already is only counted (R89). -/
theorem Hall.missedReport_silent (hx : tget h.vehicles v = some x) (silent : x.supervision = .silent) :
    (h.missedReport v).silenced v = { h with vehicles := tmod h.vehicles v fun y => { y with
      missed := min 255 (x.missed + 1), timer := some (h.timebase + h.params.reportPeriod / 10) } } := by
  have still : ((h.missedReport v).vehicle v).supervision = .silent := by rwa [Hall.vehicle_of_record (Hall.missedReport_record hx)]
  rw [Hall.silenced, still, if_neg Supervision.noConfusion]
  have record : tmod h.vehicles v (Vehicle.missing (h.timebase + h.params.reportPeriod / 10)) = tmod h.vehicles v fun y => { y with
      missed := min 255 (x.missed + 1), timer := some (h.timebase + h.params.reportPeriod / 10) } := tmod_congr hx rfl
  rw [Hall.missedReport, Hall.modVehicle, record]

/-- A vehicle that is not LOST becomes so with the report missed, when that makes lost-count of them (R90). -/
theorem Hall.supervisionExpiry_cases (hx : tget h.vehicles v = some x) (found : x.supervision ≠ .lost) : h.supervisionExpiry v =
    if h.params.lostCount ≤ min 255 (x.missed + 1) then ((h.missedReport v).silenced v).loseVehicle v else (h.missedReport v).silenced v := by
  have record := Hall.vehicle_of_record (Hall.silenced_record (Hall.missedReport_record hx))
  have supervised : (if x.supervision = Supervision.reporting then .silent else x.supervision) ≠ Supervision.lost := by
    split <;> [exact Supervision.noConfusion; exact found]
  rw [Hall.supervisionExpiry_eq, record, Hall.silenced_params]
  exact if_congr (and_iff_right supervised) rfl rfl

/-! ### A vehicle is LOST (R90) -/

/-- The loss of a vehicle leaves every vehicle's place but for the supervision of this one (R90). -/
theorem Hall.loseVehicle_handles (h : Hall) (v : Nat) :
    (h.modVehicle v fun x => { x with supervision := .lost }).Handles false false (h.loseVehicle v) := by
  unfold Hall.loseVehicle
  extract_lets a b c d e
  have told : a.Handles false false c := (((Handles.refl a).lower _).raise _).abort v _
  have unladen : a.Handles false false d := by
    unfold d; split
    · exact told.askVehicleLost v _
    · exact told
  exact unladen.loseVehicleTail v

theorem Hall.loseVehicle_place (hx : tget h.vehicles v = some x) :
    tget (h.loseVehicle v).places v = some { x with supervision := .lost }.place := by
  rw [Hall.places_of_setting (h.loseVehicle_handles v).setting, Hall.places_get, Hall.modVehicle_vehicles, tget_tmod_same, hx]; rfl

end

/-! ### Expiries -/

section
variable {s : State} {v : Nat}

theorem State.supervisionExpiry_due (due : s.hall.reached (s.hall.vehicle v).timer = true) :
    exec (.supervisionTimerExpiry v) s = .next { s with hall := (s.hall.supervisionExpiry v).finish } :=
  congrArg Host.Outcome.next (if_pos due)

theorem State.supervisionExpiry_early (early : ¬s.hall.reached (s.hall.vehicle v).timer = true) :
    exec (.supervisionTimerExpiry v) s = .next s := congrArg Host.Outcome.next (if_neg early)

theorem State.fleetLinkDown_due (due : s.hall.reached s.hall.fleetSilence = true) : exec .fleetLinkDown s =
    .next { s with hall := (({ s.hall with fleetSilence := none } : Hall).raise ⟨.fleetLinkDown, .none⟩).finish } :=
  congrArg Host.Outcome.next (if_pos due)

theorem State.fleetLinkDown_early (early : ¬s.hall.reached s.hall.fleetSilence = true) : exec .fleetLinkDown s = .next s :=
  congrArg Host.Outcome.next (if_neg early)

theorem Hall.not_reached {h : Hall} {e : Option Nat} (ahead : ∀ x, e = some x → h.timebase < x) : ¬h.reached e = true := by
  rw [Hall.reached_iff]
  rintro ⟨x, here, past⟩
  exact absurd (ahead x here) (Nat.not_lt.mpr past)

end

/-- An all-stop holds once the fleet has been halted (R110). -/
theorem Hall.haltFleet_allStop (h : Hall) : h.haltFleet.allStop = true := by
  cases run : h.allStop with
  | false => have e := congrArg Hall.allStop (Hall.haltFleet_follows run).same; exact e
  | true => rw [Hall.haltFleet_again run, run]

/-- A FATAL fleet entry that becomes active stops the fleet (R203). -/
theorem Hall.raise_allStop {h : Hall} {k : FaultKey} (fatal : stopsFleet k.kind = true) (new : (h.fault k).active = false) :
    (h.raise k).allStop = true := by
  unfold Hall.raise
  rw [new, fatal]
  exact Hall.haltFleet_allStop _

/-- Settles O58: the expiry counts the report, silences a vehicle that was REPORTING, and loses one with lost-count reports missed; the
silence of the fleet link raises its entry, which stops the fleet. -/
theorem silentVehiclesAreLost : Obligations.SilentVehiclesAreLost := by
  intro s
  refine ⟨fun v x e hx timed past found => ?_, fun v ahead => State.supervisionExpiry_early (Hall.not_reached ahead),
    fun e timed past => ?_, fun ahead => State.fleetLinkDown_early (Hall.not_reached ahead)⟩
  · intro missed timer
    have known := Hall.vehicle_of_record hx
    have due : s.hall.reached (s.hall.vehicle v).timer = true := by
      rw [known, Hall.reached_iff]; exact ⟨e, timed, past⟩
    have expiry := Hall.supervisionExpiry_cases hx found
    have counted := Hall.missedReport_record hx
    refine ⟨fun few reporting => ?_, fun few silent => ?_, fun many => ?_⟩
    · refine ⟨_, State.supervisionExpiry_due due, rfl, ?_⟩
      rw [expiry, if_neg (Nat.not_le.mpr few), Hall.missedReport_silences hx reporting]
      exact Hall.finish_trace _
    · refine ⟨_, State.supervisionExpiry_due due, rfl, ?_⟩
      rw [expiry, if_neg (Nat.not_le.mpr few), Hall.missedReport_silent hx silent]
      exact Hall.finish_trace _
    · refine ⟨_, State.supervisionExpiry_due due, rfl, ?_⟩
      rw [expiry, if_pos many, ← Hall.places_get, Hall.places_of_ground (Hall.finish_trace _).same,
        Hall.loseVehicle_place (Hall.silenced_record counted)]
      rfl
  · refine ⟨_, State.fleetLinkDown_due (Hall.reached_iff.mpr ⟨e, timed, past⟩), ⟨rfl, Hall.finish_trace _⟩, fun new => ?_⟩
    exact ((Hall.finish_trace _).field Hall.allStop).trans (Hall.raise_allStop rfl new)

end Sys2Proof.Machine
end

section
/-! PROOF. STAND STATUS: an arm whose unload began while it ran (O56). -/

-- One theorem after another, as in the laws: elaborated all at once they ask for more threads than the check has room for.
set_option Elab.async false

namespace Sys2Proof.Machine

/-! ### An arm whose unload began while it ran (R116, R135, R139)

Return Reel unloads a standby arm alone, so an UNLOADING arm was LOADED, PREPARING or PREPARED before; the statement does not ask for that.
In `plantRecalled` arm A is UNLOADING with RUNNING as its state before. A STAND STATUS that gives it the role RUNNING cancels the unload first,
which puts the arm back to RUNNING and leaves the running arm alone; the arm then has the state of its role, and so is not made the running
arm either. -/

/-- The RETURN mission that is to unload reel 0 from arm A of stand 1.1. -/
def missionRecalled : Mission :=
  { returnMission ⟨0, [1]⟩ (some (.arm ⟨1, 1⟩ .a)) 0 false with created := 0 }

/-- Stand 1.1, UNKNOWN and without a running arm, whose arm A was RUNNING before it was UNLOADING. -/
def standRecalled : Stand :=
  { Stand.fresh ⟨0, 1200, 140, 115, 15, 40, 46000, 300, 0⟩ true with
    armA := ⟨.unloading, some ⟨0, [1]⟩, 0, 0, some .running, false⟩ }

/-- The cold part with line 1, that stand, its mission and its reel. -/
def plantRecalled : Hall :=
  { Hall.reset with
    reels := [(0, reelCrossed [1] .onArm (.arm ⟨1, 1⟩ .a) none)]
    missions := [(0, missionRecalled)]
    lines := [(1, Line.fresh LineCfg.default 0)]
    stands := [(standKey ⟨1, 1⟩, standRecalled)] }

theorem plantRecalled_runs_no_arm :
    ((plantRecalled.takeStatus ⟨1, 1⟩ ⟨.running, some [1]⟩ ⟨.standby, none⟩).stand ⟨1, 1⟩).map
      (fun y => (y.armA.state, y.running)) = some (.running, none) := by decide +kernel

/-- Refutes O56: its clause on roles says that an arm that takes the role RUNNING, and was not RUNNING before, becomes the running arm;
arm A of `plantRecalled` becomes RUNNING, and the stand has no running arm. -/
theorem not_standStatusEstablishesArms : ¬ Obligations.StandStatusEstablishesArms := by
  rintro ⟨-, statuses, -⟩
  obtain ⟨-, roles⟩ := statuses plantRecalled ⟨1, 1⟩ ⟨.running, some [1]⟩ ⟨.standby, none⟩ standRecalled rfl
  obtain ⟨y, hy, -, -, -, -, -, runs, -⟩ := roles (Line.fresh LineCfg.default 0) (.inl rfl) rfl rfl (fun _ => rfl) rfl
  have idle := plantRecalled_runs_no_arm
  rw [hy, Option.map_some, runs rfl rfl (by decide)] at idle
  exact absurd idle (by simp)

end Sys2Proof.Machine
end

section
/-! PROOF. Set Line Feed, Set Ceiling, Acknowledge Ceiling Flags, and a line that is heard (O36). -/

-- One theorem after another, as in the laws: elaborated all at once they ask for more threads than the check has room for.
set_option Elab.async false

namespace Sys2Proof.Machine

/-! ### What a heard line is owed (R163, R202) -/

/-- A line to which nothing is owed any more. -/
def Line.settled (l : Line) : Line := { l with oweCeiling := false, oweHold := false }

/-- The present hold state of a line as it is sent (R202). -/
def Hall.holdMsg (h : Hall) (n : Nat) : LineMsg :=
  match tget h.holds n with
  | some x => .hold x.count x.first
  | none => .release

/-- A line that is settled, and has been sent its ceiling where it was owed it. -/
def Hall.toldCeiling (n : Nat) (l : Line) (h : Hall) : Hall :=
  if l.oweCeiling then (h.modLine n Line.settled).sendCeiling n else h.modLine n Line.settled

section
variable {h : Hall} {n : Nat} {l : Line}

theorem Hall.sendHold_eq (h : Hall) (n : Nat) : h.sendHold n = h.sendLine n (h.holdMsg n) := by
  unfold Hall.sendHold Hall.holdMsg
  cases tget h.holds n <;> rfl

@[simp] theorem Hall.sendHold_holds (h : Hall) (n : Nat) : (h.sendHold n).holds = h.holds := by rw [Hall.sendHold_eq]; rfl

@[simp] theorem Hall.resendHold_holds (h : Hall) (n : Nat) : (h.resendHold n).holds = h.holds := by
  unfold Hall.resendHold; split <;> simp

@[simp] theorem Hall.resendHold_faults (h : Hall) (n : Nat) : (h.resendHold n).faults = h.faults := by
  unfold Hall.resendHold; split <;> simp

theorem Hall.resendHold_sent (h : Hall) (n : Nat) : ∃ seq, Sent.line n seq (h.holdMsg n) ∈ (h.resendHold n).sent := by
  unfold Hall.resendHold; split <;> simp [Hall.sendHold_eq]

theorem Hall.resendHold_notices {x : LineHold} (held : tget h.holds n = some x) (room : h.notices.length < 64) :
    ∃ k, ⟨k, .lineHold n (some x)⟩ ∈ (h.resendHold n).notices := by
  unfold Hall.resendHold
  rw [held]
  have sent : (h.sendHold n).notices = h.notices := by rw [Hall.sendHold_eq]; rfl
  exact Hall.notified (by rwa [sent]) List.prefix_rfl

@[simp] theorem Hall.noteCeiling_holds (h : Hall) (n : Nat) : (h.noteCeiling n).holds = h.holds := by
  unfold Hall.noteCeiling; split <;> simp

@[simp] theorem Hall.noteCeiling_faults (h : Hall) (n : Nat) : (h.noteCeiling n).faults = h.faults := by
  unfold Hall.noteCeiling; split <;> simp

@[simp] theorem Hall.sendCeiling_holds (h : Hall) (n : Nat) : (h.sendCeiling n).holds = h.holds := by
  unfold Hall.sendCeiling; split <;> simp

@[simp] theorem Hall.sendCeiling_faults (h : Hall) (n : Nat) : (h.sendCeiling n).faults = h.faults := by
  unfold Hall.sendCeiling; split <;> simp

theorem Hall.greet_eq (hl : h.line n = some l) :
    h.greet n = if l.oweHold then (h.toldCeiling n l).resendHold n else h.toldCeiling n l := by
  unfold Hall.greet; rw [hl]; rfl

theorem Hall.settled_line (hl : h.line n = some l) : (h.modLine n Line.settled).line n = some l.settled := by
  rw [Hall.line, Hall.modLine_lines, tget_tmod_same, show tget h.lines n = some l from hl, Option.map_some]

theorem Hall.toldCeiling_line (hl : h.line n = some l) :
    ∃ k, (h.toldCeiling n l).line n = some k ∧ k.silence = l.silence ∧ k.oweCeiling = false ∧ k.oweHold = false ∧ k.cfg = l.cfg ∧
      k.run = l.run ∧ k.speed = l.speed := by
  unfold Hall.toldCeiling; split
  · exact ⟨_, Hall.sendCeiling_line (Hall.settled_line hl), rfl, rfl, rfl, rfl, rfl, rfl⟩
  · exact ⟨_, Hall.settled_line hl, rfl, rfl, rfl, rfl, rfl, rfl⟩

theorem Hall.toldCeiling_sent (hl : h.line n = some l) (owed : l.oweCeiling = true) :
    ∃ seq, Sent.line n seq (.ceiling l.ceiling) ∈ (h.toldCeiling n l).sent := by
  obtain ⟨seq, sent⟩ := Hall.sendCeiling_sent (Hall.settled_line hl)
  rw [Hall.toldCeiling, if_pos owed, sent]
  exact ⟨seq, List.mem_append_right _ (List.mem_singleton_self _)⟩

theorem Hall.toldCeiling_holds (h : Hall) (n : Nat) (l : Line) :
    (h.toldCeiling n l).holds = h.holds ∧ (h.toldCeiling n l).faults = h.faults := by
  unfold Hall.toldCeiling; split <;> simp

theorem Hall.Tells.noteCeiling {a b : Hall} {m : Nat} (x : a.Tells m b) (n : Nat) : a.Tells (m + 1) (b.noteCeiling n) := by
  unfold Hall.noteCeiling; split
  · exact x.notify _
  · exact x.mono (Nat.le_succ m)

theorem Hall.toldCeiling_tells (h : Hall) (n : Nat) (l : Line) : h.Tells 1 (h.toldCeiling n l) := by
  have quiet {g : Hall} (e : g.notices = h.notices) : h.Tells 0 g := (Hall.Tells.refl h).same e
  unfold Hall.toldCeiling; split
  · unfold Hall.sendCeiling; split
    · refine Hall.Tells.noteCeiling (m := 0) (quiet ?_) n
      rfl
    · exact (quiet rfl).mono (Nat.zero_le 1)
  · exact (quiet rfl).mono (Nat.zero_le 1)

theorem Hall.greet_holds (hl : h.line n = some l) : (h.greet n).holds = h.holds ∧ (h.greet n).faults = h.faults := by
  obtain ⟨holds, faults⟩ := h.toldCeiling_holds n l
  rw [Hall.greet_eq hl]
  split <;> simp [holds, faults]

/-- The record of a line that has been greeted. -/
theorem Hall.greet_line (hl : h.line n = some l) :
    ∃ k, (h.greet n).line n = some k ∧ k.silence = l.silence ∧ k.oweCeiling = false ∧ k.oweHold = false ∧ k.cfg = l.cfg ∧
      k.run = l.run ∧ k.speed = l.speed := by
  rw [Hall.greet_eq hl]
  split
  · rw [Hall.line, Hall.resendHold_lines]
    exact Hall.toldCeiling_line hl
  · exact Hall.toldCeiling_line hl

theorem Hall.greet_ceiling (hl : h.line n = some l) (owed : l.oweCeiling = true) :
    ∃ seq, Sent.line n seq (.ceiling l.ceiling) ∈ (h.greet n).sent := by
  obtain ⟨seq, sent⟩ := Hall.toldCeiling_sent hl owed
  rw [Hall.greet_eq hl]
  split
  · exact ⟨seq, ((Hall.Follows.refl _).resendHold n).sent.subset sent⟩
  · exact ⟨seq, sent⟩

theorem Hall.greet_hold (hl : h.line n = some l) (owed : l.oweHold = true) :
    (∃ seq, Sent.line n seq ((h.greet n).holdMsg n) ∈ (h.greet n).sent) ∧
      ∀ x, tget (h.greet n).holds n = some x → h.notices.length ≤ 62 → ∃ k, ⟨k, .lineHold n (some x)⟩ ∈ (h.greet n).notices := by
  rw [Hall.greet_eq hl, if_pos owed]
  constructor
  · rw [Hall.holdMsg, Hall.resendHold_holds]
    exact Hall.resendHold_sent _ n
  · intro x held room
    rw [Hall.resendHold_holds] at held
    exact Hall.resendHold_notices held ((h.toldCeiling_tells n l).room (by omega))

/-- A change of a record that is no change. -/
theorem tmod_same {α : Type} {t : Table α} {k : Nat} {x : α} {f : α → α} (hx : tget t k = some x) (same : f x = x) : tmod t k f = t := by
  induction t with
  | nil => rfl
  | cons p t ih =>
    obtain ⟨j, y⟩ := p
    rw [tget_cons] at hx
    split at hx
    · rename_i here
      obtain rfl := Option.some.inj hx
      simp [tmod, here, same]
    · rename_i other
      simp [tmod, other, ih hx]

/-- A line that is owed nothing is not changed. -/
theorem Hall.greet_nothing (hl : h.line n = some l) (ceiling : l.oweCeiling = false) (hold : l.oweHold = false) : h.greet n = h := by
  rw [Hall.greet_eq hl, hold, Hall.toldCeiling, ceiling]
  exact congrArg (fun t => ({ h with lines := t } : Hall)) (tmod_same hl (by cases l; cases ceiling; cases hold; rfl))

end

/-! ### A link that returns (R142, R204) -/

/-- The LOAD REQUEST of a stand that is still asked is sent again (R142). -/
def Hall.askAgain (n : Nat) (h : Hall) (st : StandAddr) : Hall :=
  match h.handover st with
  | some x => if x.kind = .load ∧ x.phase = .asked then h.sendLine n (.loadRequest st x.arm x.reel.id) else h
  | none => h

/-- A line whose link has returned, before anything is sent on it. -/
def Hall.linkBack (n : Nat) (h : Hall) : Hall :=
  (h.lower ⟨.lineLinkDown, .line n⟩).modLine n fun l => { l with lastStatus := none, oweCeiling := true, oweHold := true }

section
variable {h : Hall} {n : Nat} {l : Line}

theorem Hall.linkReturns_eq (h : Hall) (n : Nat) :
    h.linkReturns n = (((h.linkBack n).sendPanel n).standsOf n).foldl (Hall.askAgain n) ((h.linkBack n).sendPanel n) := rfl

theorem Hall.askAgain_follows (h : Hall) (n : Nat) (st : StandAddr) : h.Follows (h.askAgain n st) := by
  unfold Hall.askAgain; split
  · split
    · exact (Hall.Follows.refl h).sendLine n _
    · exact .refl h
  · exact .refl h

/-- A repeated LOAD REQUEST leaves all but what is sent. -/
theorem Hall.askAgain_field {α : Type} (view : Hall → α) (same : ∀ g m, view (Hall.sendLine n m g) = view g) (h : Hall) (st : StandAddr) :
    view (h.askAgain n st) = view h := by
  unfold Hall.askAgain; split
  · split
    · exact same h _
    · rfl
  · rfl

theorem Hall.askAgain_all {α : Type} (view : Hall → α) (same : ∀ g m, view (Hall.sendLine n m g) = view g) (h : Hall)
    (l : List StandAddr) : view (l.foldl (Hall.askAgain n) h) = view h := by
  induction l generalizing h with
  | nil => rfl
  | cons st l ih => exact (ih _).trans (Hall.askAgain_field view same h st)

/-- Every stand of the list that is still asked is asked again. -/
theorem Hall.askAgain_sent {st : StandAddr} {y : Handover} (load : y.kind = .load) (asked : y.phase = .asked) :
    ∀ {l : List StandAddr} {g : Hall}, st ∈ l → g.handover st = some y →
      ∃ seq, Sent.line n seq (.loadRequest st y.arm y.reel.id) ∈ (l.foldl (Hall.askAgain n) g).sent
  | x :: l, g, listed, hy => by
    rw [List.foldl_cons]
    rcases List.mem_cons.mp listed with rfl | later
    · have now : Sent.line n (g.link (.line n)).txSeq (.loadRequest st y.arm y.reel.id) ∈ (g.askAgain n st).sent := by
        rw [Hall.askAgain, hy]
        simp [load, asked]
      exact ⟨_, ((Hall.Follows.refl _).foldl (fun h st => h.askAgain_follows n st) l).sent.subset now⟩
    · exact Hall.askAgain_sent load asked later ((Hall.askAgain_field (fun h => h.handover st) (fun _ _ => rfl) g x).trans hy)

theorem Hall.linkBack_line (hl : h.line n = some l) :
    (h.linkBack n).line n = some { l with lastStatus := none, oweCeiling := true, oweHold := true } := by
  rw [Hall.line, Hall.linkBack, Hall.modLine_lines, tget_tmod_same, Hall.lower_lines, show tget h.lines n = some l from hl, Option.map_some]

theorem Hall.linkBack_still (h : Hall) (n : Nat) : (h.linkBack n).still = h.still := (Hall.modLine_still _ n _).trans (h.lower_still _)

theorem Hall.linkReturns_line (hl : h.line n = some l) :
    (h.linkReturns n).line n = some { l with lastStatus := none, oweCeiling := true, oweHold := true } := by
  rw [Hall.linkReturns_eq, Hall.askAgain_all (fun g => g.line n) (fun _ _ => rfl), Hall.line, Hall.sendPanel_lines]
  exact Hall.linkBack_line hl

theorem Hall.linkReturns_tells (h : Hall) (n : Nat) : h.Tells 2 (h.linkReturns n) := by
  rw [Hall.linkReturns_eq]
  refine ((Hall.Tells.refl h).lower ⟨.lineLinkDown, .line n⟩).same ?_
  rw [Hall.askAgain_all Hall.notices (fun _ _ => rfl)]
  unfold Hall.sendPanel; split <;> rfl

theorem Hall.linkReturns_faults (h : Hall) (n : Nat) : (h.linkReturns n).faults = (h.lower ⟨.lineLinkDown, .line n⟩).faults := by
  rw [Hall.linkReturns_eq, Hall.askAgain_all Hall.faults (fun _ _ => rfl)]
  unfold Hall.sendPanel; split <;> rfl

/-- What the panel shows is not changed by the return of the link. -/
theorem Hall.panel_congr {a b : Hall} (e : a.still = b.still) {k : Line} (slot : k.slot = l.slot) (waiting : k.waiting = l.waiting) :
    a.panel k = b.panel l := by
  have stand : a.stand = b.stand := funext fun st => Hall.still_field e (fun h => h.stand st) fun _ => rfl
  have reel : a.reel = b.reel := funext fun ref => Hall.still_field e (fun h => h.reel ref) fun _ => rfl
  rw [Hall.panel, Hall.panel, slot, waiting, stand, reel]

theorem Hall.linkReturns_panel (hl : h.line n = some l) : ∃ seq, Sent.line n seq (.prepPanel (h.panel l)) ∈ (h.linkReturns n).sent := by
  rw [Hall.linkReturns_eq]
  have shown : ((h.linkBack n).sendPanel n) = (h.linkBack n).sendLine n (.prepPanel (h.panel l)) := by
    rw [Hall.sendPanel, Hall.linkBack_line hl, ← Hall.panel_congr (h.linkBack_still n)]
    all_goals rfl
  refine ⟨((h.linkBack n).link (.line n)).txSeq, ?_⟩
  refine ((Hall.Follows.refl _).foldl (fun h st => h.askAgain_follows n st) _).sent.subset ?_
  rw [shown, Hall.sendLine_sent]
  exact List.mem_append_right _ (List.mem_singleton_self _)

theorem Hall.linkReturns_loads {st : StandAddr} {y : Handover} (listed : st ∈ h.standsOf n) (hy : h.handover st = some y)
    (load : y.kind = .load) (asked : y.phase = .asked) :
    ∃ seq, Sent.line n seq (.loadRequest st y.arm y.reel.id) ∈ (h.linkReturns n).sent := by
  have still : ((h.linkBack n).sendPanel n).still = h.still := (Hall.sendPanel_still _ n).trans (h.linkBack_still n)
  rw [Hall.linkReturns_eq]
  refine Hall.askAgain_sent load asked ?_ ((Hall.still_field still (fun h => h.handover st) fun _ => rfl).trans hy)
  rwa [Hall.still_field still (fun h => h.standsOf n) fun _ => rfl]

/-! ### A line that is heard (R204) -/

/-- A line whose silence timer starts again. -/
def Hall.timed (n : Nat) (h : Hall) : Hall := h.modLine n fun l => { l with silence := some (h.timebase + 200) }

theorem Hall.timed_line (hl : h.line n = some l) : (h.timed n).line n = some { l with silence := some (h.timebase + 200) } := by
  rw [Hall.line, Hall.timed, Hall.modLine_lines, tget_tmod_same, show tget h.lines n = some l from hl, Option.map_some]

theorem Hall.lineHeard_up (hl : h.line n = some l) (up : (h.fault ⟨.lineLinkDown, .line n⟩).active = false) :
    h.lineHeard n = (h.timed n).greet n := by
  have up : (h.timed n).linkDown n = false := up
  rw [Hall.lineHeard, hl]
  exact congrArg (Hall.greet n) (if_neg (Bool.eq_false_iff.mp up))

theorem Hall.lineHeard_down (hl : h.line n = some l) (down : (h.fault ⟨.lineLinkDown, .line n⟩).active = true) :
    h.lineHeard n = ((h.timed n).linkReturns n).greet n := by
  have down : (h.timed n).linkDown n = true := down
  rw [Hall.lineHeard, hl]
  exact congrArg (Hall.greet n) (if_pos down)

theorem Hall.greet_prefix (h : Hall) (n : Nat) : h.sent <+: (h.greet n).sent := by
  cases hl : h.line n with
  | none => unfold Hall.greet; rw [hl]
  | some l =>
    have told : h.sent <+: (h.toldCeiling n l).sent := by
      unfold Hall.toldCeiling; split
      · exact ((Hall.Follows.refl (h.modLine n Line.settled)).sendCeiling n).sent
      · exact List.prefix_rfl
    rw [Hall.greet_eq hl]
    split
    · exact told.trans ((Hall.Follows.refl _).resendHold n).sent
    · exact told

/-- What a line is sent when it is heard is sent by its greeting, or by the return of its link before it. -/
theorem Hall.lineHeard_sent (hl : h.line n = some l) (down : (h.fault ⟨.lineLinkDown, .line n⟩).active = true) :
    ((h.timed n).linkReturns n).sent <+: (h.lineHeard n).sent := by
  rw [Hall.lineHeard_down hl down]
  exact Hall.greet_prefix _ n

/-- A line that is heard is greeted: its record before the greeting, the hall it is greeted in, and what is owed to it. -/
theorem Hall.lineHeard_greets (hl : h.line n = some l) : ∃ g k, h.lineHeard n = g.greet n ∧ g.line n = some k ∧
    k = { l with silence := some (h.timebase + 200), lastStatus := k.lastStatus, oweCeiling := k.oweCeiling, oweHold := k.oweHold } ∧
    (l.oweCeiling = true ∨ (h.fault ⟨.lineLinkDown, .line n⟩).active = true → k.oweCeiling = true) ∧
    (l.oweHold = true ∨ (h.fault ⟨.lineLinkDown, .line n⟩).active = true → k.oweHold = true) ∧ h.Tells 2 g ∧
    g.faults = (h.lower ⟨.lineLinkDown, .line n⟩).faults := by
  cases down : (h.fault ⟨.lineLinkDown, .line n⟩).active with
  | true =>
    refine ⟨_, _, Hall.lineHeard_down hl down, Hall.linkReturns_line (Hall.timed_line hl), rfl, fun _ => rfl, fun _ => rfl, ?_, ?_⟩
    · exact Hall.linkReturns_tells (h.timed n) n
    · rw [Hall.linkReturns_faults]
      have lowered (g : Hall) (on : (g.fault ⟨.lineLinkDown, .line n⟩).active = true) :
          (g.lower ⟨.lineLinkDown, .line n⟩).faults =
            (g.setFault ⟨.lineLinkDown, .line n⟩ { g.fault ⟨.lineLinkDown, .line n⟩ with active := false }).faults := by
        rw [Hall.lower, if_pos on, Hall.changeFault_faults]
      rw [lowered h down, lowered (h.timed n) down]
      rfl
  | false =>
    refine ⟨_, _, Hall.lineHeard_up hl down, Hall.timed_line hl, rfl, by simp, by simp, ?_, ?_⟩
    · exact ((Hall.Tells.refl h).mono (Nat.zero_le 2)).same rfl
    · rw [Hall.lower, down]
      rfl

theorem Hall.lineHeard_line (hl : h.line n = some l) :
    ∃ k, (h.lineHeard n).line n = some k ∧ k.silence = some (h.timebase + 200) ∧ k.oweCeiling = false ∧ k.oweHold = false ∧
      k.cfg = l.cfg ∧ k.run = l.run ∧ k.speed = l.speed := by
  obtain ⟨g, k, heard, hk, eq, -⟩ := Hall.lineHeard_greets hl
  rw [heard]
  obtain ⟨k', hk', silence, ceiling, hold, cfg, run, speed⟩ := Hall.greet_line hk
  rw [eq] at silence cfg run speed
  exact ⟨k', hk', silence, ceiling, hold, cfg, run, speed⟩

theorem Hall.lineHeard_nothing (hl : h.line n = some l) (ceiling : l.oweCeiling = false) (hold : l.oweHold = false)
    (up : (h.fault ⟨.lineLinkDown, .line n⟩).active = false) : h.lineHeard n = h.timed n := by
  rw [Hall.lineHeard_up hl up]
  exact Hall.greet_nothing (Hall.timed_line hl) ceiling hold

/-- A frame with a body fault counts one link error (R214). -/
theorem Hall.lineFrame_faulty {f : Frame} {k : Nat} {ok : Bool} (fault : f.len ≠ k ∨ f.listed = false ∨ ok = false) (h : Hall)
    (take : Hall → Hall) : h.lineFrame f k ok take = ((h.lineHeard f.link).linkError (.line f.link)).finish := by
  refine if_neg fun fits => ?_
  simp only [Bool.and_eq_true, decide_eq_true_eq] at fits
  obtain ⟨⟨len, listed⟩, ok⟩ := fits
  simp [len, listed, ok] at fault

end

/-! ### Set Line Feed (R117) -/

section
variable {h : Hall} {n : Nat} {l : Line} {a : LineFeedArgs}

/-- The feed settings of a line after Set Line Feed. -/
def Hall.feedPlan (h : Hall) (n : Nat) (a : LineFeedArgs) : LineCfg := (((h.line n).map (·.cfg)).getD LineCfg.default).set a

/-- Set Line Feed passes its checks of ranges (R117). -/
structure Hall.MayFeed (h : Hall) (n : Nat) (a : LineFeedArgs) : Prop where
  range : inRange 1 4 n = true
  fits : feedArgsFit a = true
  order : (h.feedPlan n a).crawl ≤ (h.feedPlan n a).lineMax

theorem Hall.takeFeed_fits (may : h.MayFeed n a) : h.takeFeed false n a =
    if (h.line n).isSome then (h.refeedLine n (h.feedPlan n a)).accept .none
    else (h.configureLine n (h.feedPlan n a) CountCfg.default).accept .none := by
  obtain ⟨range, fits, order⟩ := may
  unfold Hall.feedPlan at order ⊢
  simp [Hall.takeFeed, range, fits, Nat.not_lt.mpr order]

theorem Hall.configureLine_follows (h : Hall) (n : Nat) (c : LineCfg) (k : CountCfg) : Hall.Follows { h with
    lines := tput h.lines n (Line.fresh c h.timebase)
    counts := tput h.counts n (LineCount.fresh k)
    unassigned := tput h.unassigned n Totals.zero } (h.configureLine n c k) := (Hall.Follows.refl _).evalHold n

/-- A host ceiling brought into range, without CHANGED_BY_HOST (R162, log 61). -/
theorem Hall.refeedLine_follows (h : Hall) (n : Nat) (c : LineCfg) :
    (h.modLine n fun l => { l with cfg := c, hostCeiling := c.fitCeiling l.hostCeiling }).Follows (h.refeedLine n c) := by
  have owed := (Hall.Follows.refl (h.modLine n fun l => { l with cfg := c, hostCeiling := c.fitCeiling l.hostCeiling })).oweCeiling n
  unfold Hall.refeedLine; dsimp only; split
  · exact owed
  · exact owed.foldl (fun h st => (Hall.Follows.refl h).testOverdue st) _

/-! ### Set Ceiling and Acknowledge Ceiling Flags (R162) -/

/-- The host sets the ceiling of a line; only a change sets CHANGED_BY_HOST (R162). -/
theorem Hall.hostCeiling_follows (hl : h.line n = some l) (u : Nat) :
    (h.modLine n fun l => if u = l.hostCeiling then l else { l with hostCeiling := u, byHost := true }).Follows
      ((h.hostCeiling n u l).oweCeiling n) := by
  unfold Hall.hostCeiling; split
  · rename_i same
    rw [show (h.modLine n fun l => if u = l.hostCeiling then l else { l with hostCeiling := u, byHost := true }) = h from
      congrArg (fun t => ({ h with lines := t } : Hall)) (tmod_same hl (if_pos same))]
    exact (Hall.Follows.refl h).oweCeiling n
  · rename_i other
    rw [show (h.modLine n fun l => if u = l.hostCeiling then l else { l with hostCeiling := u, byHost := true }) =
        h.modLine n fun l => { l with hostCeiling := u, byHost := true } from
      congrArg (fun t => ({ h with lines := t } : Hall)) (tmod_congr hl (if_neg other))]
    dsimp only; split
    · exact (Hall.Follows.refl _).oweCeiling n
    · exact ((Hall.Follows.refl _).noteCeiling n).oweCeiling n

/-- The flags of a line are cleared; where one was set, that is noted (R162). -/
def Hall.flagsCleared (n : Nat) (h : Hall) : Hall := h.modLine n fun l => { l with reduced := false, byHost := false }

theorem Hall.takeAckCeiling_eq (hl : h.line n = some l) :
    h.takeAckCeiling n = (if l.reduced || l.byHost then (h.flagsCleared n).noteCeiling n else h.flagsCleared n).accept .none := by
  unfold Hall.takeAckCeiling
  rw [hl]; dsimp only
  split
  · rfl
  · rename_i clear
    simp only [Bool.or_eq_true, not_or, Bool.not_eq_true] at clear
    obtain ⟨reduced, byHost⟩ := clear
    have same : h.flagsCleared n = h :=
      congrArg (fun t => ({ h with lines := t } : Hall)) (tmod_same hl (by cases l; cases reduced; cases byHost; rfl))
    rw [same]

theorem Hall.flagsCleared_noted (b : Bool) (h : Hall) :
    (h.flagsCleared n).Follows (if b then (h.flagsCleared n).noteCeiling n else h.flagsCleared n) := by
  cases b with
  | true => exact (Hall.Follows.refl _).noteCeiling n
  | false => exact .refl _

/-- Where nothing is owed, the cleared flags are all that becomes of the line. -/
theorem Hall.flagsCleared_finish (hl : h.line n = some l) (jobs : h.agenda = []) (ceilings : h.ceilings = []) (b : Bool) :
    (if b then (h.flagsCleared n).noteCeiling n else h.flagsCleared n).finish.line n = some { l with reduced := false, byHost := false } := by
  have cleared : (h.flagsCleared n).line n = some { l with reduced := false, byHost := false } := by
    rw [Hall.line, Hall.flagsCleared, Hall.modLine_lines, tget_tmod_same, show tget h.lines n = some l from hl, Option.map_some]
  cases b with
  | true =>
    have agenda : ((h.flagsCleared n).noteCeiling n).agenda = h.agenda := Hall.still_field (Hall.noteCeiling_still _ n) Hall.agenda fun _ => rfl
    rw [if_pos rfl, Hall.finish_of_nothing_owed (agenda.trans jobs) ((Hall.noteCeiling_ceilings _ n).trans ceilings), Hall.line,
      Hall.noteCeiling_lines]
    exact cleared
  | false => exact (congrArg (fun g => Hall.line g n) (Hall.finish_of_nothing_owed (h := h.flagsCleared n) jobs ceilings)).trans cleared

end

/-- Settles O36: Set Line Feed by the checks it passes, Set Ceiling by whether the ceiling changes, Acknowledge Ceiling Flags by whether one
is set, and a line that is heard by the hall in which it is greeted. -/
theorem linesAreFedAndHeard : Obligations.LinesAreFedAndHeard := by
  refine ⟨fun s q n => ⟨?_, ?_, ?_, ?_⟩, fun h n l hl => ?_⟩
  · intro ok idle n1 n4 a lineMax crawl prep call issue strip old c order
    have free : s.saving = false := by rw [State.saving, idle]; rfl
    have may : s.hall.MayFeed n a := by
      refine ⟨inRange_iff.mpr ⟨n1, n4⟩, ?_, order⟩
      simp only [feedArgsFit, Bool.and_eq_true, optIn_iff, optStep_iff]
      exact ⟨⟨⟨⟨⟨⟨⟨fun x e => ⟨(lineMax x e).1, (lineMax x e).2.1⟩, fun x e => (lineMax x e).2.2⟩,
        fun x e => ⟨(crawl x e).1, (crawl x e).2.1⟩⟩, fun x e => (crawl x e).2.2⟩, prep⟩, fun x e => ⟨Nat.zero_le x, call x e⟩⟩,
        fun x e => ⟨Nat.zero_le x, issue x e⟩⟩, fun x e => ⟨Nat.zero_le x, strip x e⟩⟩
    have taken := Hall.takeFeed_fits may
    refine ⟨fun new => ?_, fun l hl => ?_⟩
    · rw [new] at taken
      exact ⟨_, rfl, State.request_accepts ok (free ▸ taken) (s.hall.configureLine_follows n c CountCfg.default).toSteps⟩
    · rw [hl] at taken
      exact ⟨_, rfl, State.request_accepts ok (free ▸ taken) (s.hall.refeedLine_follows n c).toSteps⟩
  · intro ok l v hl u
    refine ⟨_, rfl, State.request_accepts ok (f := fun h => h.takeCeiling n v) ?_ (Hall.hostCeiling_follows hl u).toSteps⟩
    rw [Hall.takeCeiling, hl]
    rfl
  · intro ok l hl
    have taken := Hall.takeAckCeiling_eq hl
    refine ⟨_, rfl, State.request_accepts ok taken (Hall.flagsCleared_noted _ s.hall).toSteps, fun jobs ceilings => ?_⟩
    rw [(State.request_finishes ok taken).2]
    exact Hall.flagsCleared_finish hl jobs ceilings _
  · intro new
    exact ⟨fun ok v => congrArg Host.Outcome.next (State.request_tells ok (by rw [Hall.takeCeiling, new]; rfl)),
      fun ok => congrArg Host.Outcome.next (State.request_tells ok (by rw [Hall.takeAckCeiling, new]; rfl))⟩
  · have field {α : Type} (f : Hall → α) (hf : ∀ h : Hall, f h.still = f h) : f (h.lineHeard n) = f h :=
      Hall.still_field (h.lineHeard_still n) f hf
    obtain ⟨g, k, heard, hk, eq, oweCeiling, oweHold, tells, faults⟩ := Hall.lineHeard_greets hl
    refine ⟨Hall.lineHeard_nothing hl, field Hall.reels fun _ => rfl, field Hall.stands fun _ => rfl, field Hall.missions fun _ => rfl,
      field Hall.vehicles fun _ => rfl, field Hall.counts fun _ => rfl, field Hall.editions fun _ => rfl, fun sound => ?_,
      Hall.lineHeard_line hl, ⟨fun owed => ?_, fun owed => ?_, fun down => ⟨?_, fun st listed y hy load asked => ?_⟩⟩,
      fun f length ok take link fault => ?_⟩
    · rw [heard, Hall.fault_congr ((Hall.greet_holds hk).2.trans faults)]
      exact Hall.lower_inactive sound.faults _
    · have sent := Hall.greet_ceiling hk (oweCeiling owed)
      rw [eq] at sent
      rwa [heard]
    · obtain ⟨sent, noted⟩ := Hall.greet_hold hk (oweHold owed)
      rw [heard]
      refine ⟨sent, fun x held room => noted x held ?_⟩
      have few : g.notices.length ≤ h.notices.length + 2 := tells
      omega
    · obtain ⟨seq, sent⟩ := Hall.linkReturns_panel (Hall.timed_line hl)
      exact ⟨seq, (Hall.lineHeard_sent hl down).subset sent⟩
    · obtain ⟨seq, sent⟩ := Hall.linkReturns_loads (h := h.timed n) listed hy load asked
      exact ⟨seq, (Hall.lineHeard_sent hl down).subset sent⟩
    · rw [Hall.lineFrame_faulty fault, link]

end Sys2Proof.Machine
end

section
/-! PROOF. Set Stand, Stand Out of Service and Stand In Service (O37). -/

-- One theorem after another, as in the laws: elaborated all at once they ask for more threads than the check has room for.
set_option Elab.async false

namespace Sys2Proof.Machine

/-! ### Set Stand (R119) -/

/-- Fields not given keep their setting, or take the default where the stand is new (R119). -/
theorem StandCfg.set_eq (old : Option StandCfg) (a : StandArgs) : StandCfg.set old a =
    let c := old.getD ⟨0, 0, 140, 115, 15, 40, 46000, 300, 0⟩
    ⟨a.grade, a.width, a.ds.getD c.ds, a.dmin.getD c.dmin, a.lockMargin.getD c.lockMargin, a.maxStep.getD c.maxStep,
      a.webPath.getD c.webPath, a.allowance.getD c.allowance, a.offset.getD c.offset⟩ := by
  cases old <;> rfl

/-- What Set Stand makes of a stand's configuration. -/
def Hall.standPlan (h : Hall) (st : StandAddr) (a : StandArgs) : StandCfg := StandCfg.set ((h.stand st).map (·.cfg)) a

/-- The stand Set Stand makes where there was none; its roles are due while its line is BROKEN (log 18). -/
def Hall.standMade (h : Hall) (st : StandAddr) (a : StandArgs) : Stand :=
  { Stand.fresh (h.standPlan st a) false with rolesDue := h.broken st.line }

/-- Set Stand passes its checks of ranges, of the line and of the grade (R119). -/
structure Hall.MaySet (h : Hall) (st : StandAddr) (a : StandArgs) : Prop where
  range : standInRange st = true
  fits : standArgsFit a = true
  order : (h.standPlan st a).dmin < (h.standPlan st a).ds
  line : (h.line st.line).isSome
  grade : (tget h.grades a.grade).isSome

section
variable {h : Hall} {st : StandAddr} {a : StandArgs} {x : Stand}

theorem Hall.takeStand_new (may : h.MaySet st a) (new : h.stand st = none) :
    h.takeStand false st a =
      (({ h with stands := tput h.stands (standKey st) (h.standMade st a) } : Hall).oweCeiling st.line).accept .none := by
  obtain ⟨range, fits, order, line, grade⟩ := may
  simp only [Hall.standPlan, new, Option.map_none] at order
  simp [Hall.takeStand, new, range, fits, Nat.not_le.mpr order, Option.isSome_iff_ne_none.mp line, Option.isSome_iff_ne_none.mp grade,
    Hall.standMade, Hall.standPlan]

theorem Hall.takeStand_known (may : h.MaySet st a) (hx : h.stand st = some x) :
    h.takeStand false st a = if x.replans (h.standPlan st a) && h.reelUnderWay x then h.refuse .state
      else (h.reconfigureStand st (h.standPlan st a)).accept .none := by
  obtain ⟨range, fits, order, line, grade⟩ := may
  simp only [Hall.standPlan, hx, Option.map_some] at order ⊢
  simp [Hall.takeStand, hx, range, fits, Nat.not_le.mpr order, Option.isSome_iff_ne_none.mp line, Option.isSome_iff_ne_none.mp grade]

/-- What follows a new configuration; a change of plan ends the call of the stand (R126). -/
theorem Hall.reconfigureStand_follows (h : Hall) (st : StandAddr) (c : StandCfg) :
    (h.modStand st fun s => { s with cfg := c }).Follows (h.reconfigureStand st c) := by
  have owed := (Hall.Follows.refl (h.modStand st fun s => { s with cfg := c })).oweCeiling st.line
  unfold Hall.reconfigureStand; dsimp only; split
  · exact owed.endCall st .planChanged none nofun
  · exact owed

end

/-! ### Stand Out of Service (R120) -/

/-- `b` is `a` after consequences, but for what has become of the missions and of the abort records. -/
structure Hall.TraceCore (a b : Hall) : Prop where
  same : b.ground = a.ground
  sent : a.sent <+: b.sent
  notices : a.notices <+: b.notices
  stands : TableRel StandStep a.stands b.stands
  zones : TableRel ZoneStep a.zones b.zones

namespace Hall.TraceCore

variable {a b d : Hall}

theorem of_but (x : a.TraceBut b) : a.TraceCore b := ⟨x.same, x.sent, x.notices, x.stands, x.zones⟩

theorem of_follows (x : a.Follows b) : a.TraceCore b := of_but (TraceBut.of_steps x.toSteps)

theorem trans (x : a.TraceCore b) (y : b.TraceCore d) : a.TraceCore d where
  same := y.same.trans x.same
  sent := x.sent.trans y.sent
  notices := x.notices.trans y.notices
  stands := x.stands.trans (fun _ _ _ p q => p.trans q) y.stands
  zones := x.zones.trans (fun _ _ _ p q => p.trans q) y.zones

theorem follow (x : a.TraceCore b) (y : b.Follows d) : a.TraceCore d := x.trans (of_follows y)

/-- An abort record is no more than a vehicle's, with its notice (R105). -/
theorem abort (x : a.TraceCore b) (v : Nat) (c : AbortCause) : a.TraceCore (b.abort v c) := by
  have marked (r : AbortRecord) : b.TraceCore (b.modVehicle v fun y => { y with abort := some r }) :=
    ⟨congrArg (fun l => { b.ground with vehicles := l })
      (tview_tmod Vehicle.fixed b.vehicles v (fun y => { y with abort := some r }) fun _ _ => rfl),
      List.prefix_rfl, List.prefix_rfl, .refl .refl _, .refl .refl _⟩
  unfold Hall.abort; extract_lets; split
  · exact x
  · exact (x.trans (marked _)).follow ((Hall.Follows.refl _).notify _)

theorem turnToReturn (x : a.TraceCore b) (slot : Nat) (q : Bool) : a.TraceCore (b.turnToReturn slot q) :=
  x.trans (of_but ((TraceBut.refl b).turnToReturn slot q))

/-- While some stand out of service has a call or a handover, that is all `Hall.Trace` says from a hall without its missions. -/
theorem trace (x : a.TraceCore b) (unserved : ¬a.Served) : Hall.Trace { a with missions := [] } b where
  same := x.same
  sent := x.sent
  notices := x.notices
  stands := x.stands
  missions _ _ h := by simp at h
  zones := x.zones
  aborts served := absurd served unserved

end Hall.TraceCore

section
variable {h : Hall} {st : StandAddr} {x : Stand}

/-- A stand as Stand Out of Service leaves it (R120). -/
def Stand.outOfService (s : Stand) : Stand := { s with inService := false, mode := .outOfService }

/-- Stand Out of Service, up to the end of the stand's call. -/
def Hall.retired (st : StandAddr) (h : Hall) : Hall :=
  ((h.modStand st fun s => { s with inService := false }).setMode st .outOfService).lower (standFault .standStarved st)

theorem Hall.retired_follows (h : Hall) (st : StandAddr) : (h.modStand st Stand.outOfService).Follows (h.retired st) := by
  have mode := (h.modStand st fun s => { s with inService := false }).setMode_follows st .outOfService
  simp only [Hall.modStand, tmod_tmod] at mode
  exact mode.lower _ rfl

theorem Hall.retired_stand (hx : h.stand st = some x) : (h.retired st).stand st = some x.outOfService := by
  rw [Hall.stand, Hall.retired, Hall.lower_stands, Hall.setMode_stands, Hall.modStand_stands, Hall.modStand_stands, tmod_tmod,
    tget_tmod_same, tget_stands_of hx]
  rfl

/-- What the host's removal of the stand makes of a LOAD handover that has not been granted (R120). -/
def Hall.loadRecalled (st : StandAddr) (h : Hall) : Hall :=
  match h.handover st with
  | some x =>
    if x.kind = HandoverKind.load ∧ x.phase ≠ Phase.granted then
      ((h.abort x.vehicle .standOutOfService).turnToReturn x.mission false).holdAborted x.vehicle
    else h
  | none => h

theorem Hall.outOfService_eq (h : Hall) (st : StandAddr) :
    h.outOfService st = (((h.retired st).endCall st .outOfService none).loadRecalled st).endPrep st := rfl

theorem Hall.loadRecalled_core (h : Hall) (st : StandAddr) : h.TraceCore (h.loadRecalled st) := by
  have here := Hall.TraceCore.of_follows (Hall.Follows.refl h)
  unfold Hall.loadRecalled; split
  · split
    · exact ((here.abort _ _).turnToReturn _ _).follow ((Hall.Follows.refl _).holdAborted _)
    · exact here
  · exact here

/-- A stand out of service with a call or a handover is not served. -/
theorem Hall.Served.idle {a : Hall} (served : a.Served) (hx : a.stand st = some x) (out : x.inService = false) :
    x.call = none ∧ x.handover = none := by
  have no : ¬(x.call.isSome ∨ x.handover.isSome) := fun busy => by
    rw [served _ (tget_mem (tget_stands_of hx)) busy] at out; cases out
  simpa using no

theorem Hall.CallsServed.idle {a : Hall} (served : a.CallsServed) (hx : a.stand st = some x) (out : x.inService = false) : x.call = none := by
  by_contra call
  rw [served _ (tget_mem (tget_stands_of hx)) (Option.isSome_iff_ne_none.mpr call)] at out
  cases out

/-- The end of the call of a stand out of service follows: with a call not served, consequences may make abort records. -/
theorem Hall.retired_endCall_follows (hx : h.stand st = some x) :
    (h.modStand st Stand.outOfService).Follows ((h.retired st).endCall st .outOfService none) := by
  by_cases served : (h.modStand st Stand.outOfService).CallsServed
  · have call : (h.retired st).call st = none := by
      rw [Hall.call, Hall.retired_stand hx, Option.bind_some]
      exact served.idle (x := x.outOfService) (by rw [Hall.stand, Hall.modStand_stands, tget_tmod_same, tget_stands_of hx]; rfl) rfl
    unfold Hall.endCall
    rw [call]
    exact h.retired_follows st
  · exact (h.retired_follows st).endCall st .outOfService none fun _ => served

/-- What follows Stand Out of Service, but for the missions (R120). -/
theorem Hall.outOfService_trace (hx : h.stand st = some x) :
    Hall.Trace { h.modStand st Stand.outOfService with missions := [] } (h.outOfService st).finish := by
  have ended := Hall.retired_endCall_follows hx
  rw [Hall.outOfService_eq]
  by_cases served : (h.modStand st Stand.outOfService).Served
  · have out : (h.modStand st Stand.outOfService).stand st = some x.outOfService := by
      rw [Hall.stand, Hall.modStand_stands, tget_tmod_same, tget_stands_of hx]; rfl
    obtain ⟨call, handover⟩ := served.idle out rfl
    have stays : (h.retired st).endCall st .outOfService none = h.retired st := by
      unfold Hall.endCall
      rw [Hall.call, Hall.retired_stand hx, Option.bind_some, call]
    have free : (h.retired st).handover st = none := by rw [Hall.handover, Hall.retired_stand hx, Option.bind_some, handover]
    rw [stays, Hall.loadRecalled, free]
    exact (Hall.TraceBut.of_steps ((h.retired_follows st).endPrep st).toSteps.finish).steps.trace
  · refine ((Hall.TraceCore.of_follows ended).trans (Hall.loadRecalled_core _ st) |>.follow
      ((Hall.Follows.refl _).endPrep st)).trans (Hall.TraceCore.of_but (Hall.TraceBut.of_steps (Hall.finish_steps _))) |>.trace served

theorem Hall.takeOut_taken (hx : h.stand st = some x) (out : x.mode ≠ .outOfService) (idle : x.mode ≠ .splicing)
    (stopped : x.armA.state ≠ .running ∧ x.armB.state ≠ .running ∨ ∀ l, h.line st.line = some l → l.run ≠ .running) :
    h.takeOut st = (h.outOfService st).accept .none := by
  have still : h.runsNow st x = false := by
    rcases stopped with ⟨noA, noB⟩ | stopped
    · simp [Hall.runsNow, noA, noB]
    · cases hl : h.line st.line with
      | none => simp [Hall.runsNow, hl]
      | some l => simp [Hall.runsNow, hl, stopped l hl]
  simp [Hall.takeOut, hx, out, idle, still]

/-! ### Stand In Service (R120) -/

/-- A stand as Stand In Service leaves it: UNKNOWN until its arms are established (R120). -/
def Stand.intoService (s : Stand) : Stand :=
  { s with inService := true, mode := .unknown, armA := { s.armA with known := false }, armB := { s.armB with known := false } }

theorem Hall.intoService_follows (h : Hall) (st : StandAddr) : (h.modStand st Stand.intoService).Follows (h.intoService st) := by
  have mode := (h.modStand st fun s => { s with inService := true, armA := { s.armA with known := false }
                                                armB := { s.armB with known := false } }).setMode_follows st .unknown
  simp only [Hall.modStand, tmod_tmod] at mode
  exact mode

end

/-- Settles O37: Set Stand by the checks it passes, Stand Out of Service by whether a call or a handover stands at the stand, and Stand In
Service by what its mode owes. -/
theorem standsAreSetAndServed : Obligations.StandsAreSetAndServed := by
  intro s q st
  refine ⟨fun ok idle l1 l4 s1 s8 a grade15 w300 w2400 ds dmin lock step web allowance offset => ?_, fun ok x hx out calm stopped => ?_,
    fun ok x hx out => ?_, fun ok x hx inService => ?_, fun new => ⟨fun ok => ?_, fun ok => ?_⟩⟩
  · intro old c order line grade
    have free : s.saving = false := by rw [State.saving, idle]; rfl
    have plan : s.hall.standPlan st a = c := StandCfg.set_eq _ a
    have may : s.hall.MaySet st a := by
      refine ⟨?_, ?_, plan ▸ order, line, grade⟩
      · simp only [standInRange, Bool.and_eq_true, inRange_iff]
        exact ⟨⟨l1, l4⟩, s1, s8⟩
      · simp only [standArgsFit, Bool.and_eq_true, optIn_iff, inRange_iff, Option.all_eq_true, decide_eq_true_eq]
        exact ⟨⟨⟨⟨⟨⟨⟨⟨⟨Nat.zero_le _, grade15⟩, w300, w2400⟩, ds⟩, dmin⟩, fun x e => ⟨Nat.zero_le _, lock x e⟩⟩, step⟩, web⟩,
          fun x e => ⟨Nat.zero_le _, allowance x e⟩⟩, offset⟩
    refine ⟨fun new => ?_, fun x hx allowed => ?_, fun x hx replan under => ?_⟩
    · refine ⟨_, rfl, State.request_accepts ok (free ▸ Hall.takeStand_new may new) ?_⟩
      rw [Hall.standMade, plan]
      exact ((Hall.Follows.refl _).oweCeiling _).toSteps
    · have sets : s.hall.takeStand s.saving st a = (s.hall.reconfigureStand st c).accept .none := by
        rw [free, Hall.takeStand_known may hx, plan, if_neg]
        rcases allowed with same | free
        · simp [Stand.replans, same]
        · simp [free]
      exact ⟨_, rfl, State.request_accepts ok sets (s.hall.reconfigureStand_follows st c).toSteps⟩
    · refine congrArg Host.Outcome.next (State.request_tells ok ?_)
      rw [free, Hall.takeStand_known may hx, plan, if_pos (by simp [Stand.replans, replan, under])]
      rfl
  · obtain ⟨answers, hall⟩ := State.request_finishes ok (Hall.takeOut_taken hx out calm stopped)
    exact ⟨_, rfl, answers, hall ▸ Hall.outOfService_trace hx⟩
  · exact ⟨_, rfl, State.request_accepts ok (f := fun h => h.takeIn st) (by simp [Hall.takeIn, hx, out])
      (s.hall.intoService_follows st).toSteps⟩
  · exact congrArg Host.Outcome.next (State.request_tells ok (by simp [Hall.takeIn, hx, inService, Hall.refuse]))
  · exact congrArg Host.Outcome.next (State.request_tells ok (by simp [Hall.takeOut, new, Hall.refuse]))
  · exact congrArg Host.Outcome.next (State.request_tells ok (by simp [Hall.takeIn, new, Hall.refuse]))

end Sys2Proof.Machine
end

section
/-! PROOF. LINE STATUS: the run state and speed of the line, and the copies it counts (O48). -/

-- One theorem after another, as in the laws: elaborated all at once they ask for more threads than the check has room for.
set_option Elab.async false

namespace Sys2Proof.Machine

/-! ### What is fixed of a line through a message's rule (R118) -/

/-- A line but its preparation list and its ceiling. -/
def Hall.fixedLine (h : Hall) (n : Nat) : Option Line := (h.line n).map Line.fixed

section
variable {a b h : Hall} {n : Nat} {l : Line} {c k : Bool}

theorem Hall.fixedLine_eq (h : Hall) (n : Nat) : h.fixedLine n = tget h.setting.lines n := (tget_tview Line.fixed h.lines n).symm

theorem Hall.Handles.fixedLine (x : a.Handles c k b) (n : Nat) : b.fixedLine n = a.fixedLine n := by
  rw [Hall.fixedLine_eq, Hall.fixedLine_eq, x.setting]

theorem Hall.Handles.timebase (x : a.Handles c k b) : b.timebase = a.timebase := by
  have e := congrArg Hall.timebase x.setting; exact e

/-- A change of the line's record that does not look at its preparation list or its ceiling. -/
theorem Hall.modLine_fixedLine (h : Hall) (n : Nat) (f : Line → Line) (hf : ∀ l, (f l).fixed = f l.fixed := by intro; rfl) :
    (h.modLine n f).fixedLine n = (h.fixedLine n).map f := by
  simp only [Hall.fixedLine, Hall.line, Hall.modLine_lines, tget_tmod_same, Option.map_map]
  exact congrArg (fun g => (tget h.lines n).map g) (funext hf)

/-- A greeting follows from the line being settled (R163, R202). -/
theorem Hall.greet_follows (hl : h.line n = some l) : (h.modLine n Line.settled).Follows (h.greet n) := by
  have told : (h.modLine n Line.settled).Follows (h.toldCeiling n l) := by
    unfold Hall.toldCeiling; split
    · exact (Hall.Follows.refl _).sendCeiling n
    · exact .refl _
  rw [Hall.greet_eq hl]
  split
  · exact told.resendHold n
  · exact told

theorem Hall.greet_fixedLine (hl : h.line n = some l) : (h.greet n).fixedLine n = some l.settled.fixed := by
  rw [((Hall.greet_follows hl).handles (c := true) (k := true)).fixedLine n, Hall.fixedLine, Hall.settled_line hl, Option.map_some]

/-- The record of a line that has been heard, but for its last LINE STATUS. -/
theorem Hall.lineHeard_fixedLine (hl : h.line n = some l) : ∃ last, (h.lineHeard n).fixedLine n = some (Line.fixed
    { l with silence := some (h.timebase + 200), lastStatus := last, oweCeiling := false, oweHold := false }) := by
  obtain ⟨g, k, heard, hk, eq, -⟩ := Hall.lineHeard_greets hl
  refine ⟨k.lastStatus, ?_⟩
  rw [heard, Hall.greet_fixedLine hk, eq]
  rfl

@[simp] theorem Hall.lineHeard_timebase (h : Hall) (n : Nat) : (h.lineHeard n).timebase = h.timebase :=
  Hall.still_field (h.lineHeard_still n) Hall.timebase fun _ => rfl

@[simp] theorem Hall.lineHeard_count (h : Hall) (n m : Nat) : (h.lineHeard n).count m = h.count m :=
  Hall.still_field (h.lineHeard_still n) (fun g => g.count m) fun _ => rfl

end

/-! ### A line's counts but its divert intervals -/

/-- A line's counts but its divert intervals and the wait of a warm restart. -/
def LineCount.intake (c : LineCount) : LineCount := { c with intervals := [], resend := false }

/-- The counts of every line but the divert intervals. -/
def Hall.intakes (h : Hall) : Table LineCount := tview LineCount.intake h.counts

section
variable (h : Hall) (n : Nat)

theorem Hall.count_intake : (h.count n).map LineCount.intake = tget h.intakes n := (tget_tview LineCount.intake h.counts n).symm

theorem Hall.intakes_congr {a b : Hall} (e : a.counts = b.counts) : a.intakes = b.intakes := congrArg (tview LineCount.intake) e

theorem Hall.intakes_of_still {a b : Hall} (e : a.still = b.still) : a.intakes = b.intakes :=
  Hall.intakes_congr (Hall.still_field e Hall.counts fun _ => rfl)

theorem Hall.modCount_intakes (f : LineCount → LineCount) (hf : ∀ c, (f c).intake = c.intake := by intro; rfl) :
    (h.modCount n f).intakes = h.intakes :=
  tview_tmod LineCount.intake h.counts n f fun c _ => hf c

theorem Hall.forget_intakes : (h.forget n).intakes = h.intakes := h.modCount_intakes n _

theorem Hall.unsend_intakes : (h.unsend n).intakes = h.intakes := h.modCount_intakes n _

theorem Hall.sendAll_intakes (ms : List LineMsg) : (h.sendAll n ms).intakes = h.intakes := Hall.intakes_congr (h.sendAll_counts n ms)

theorem Hall.offer_intakes (first : Nat) (stop : Option Nat) (cause : Cause) : (h.offer n first stop cause).intakes = h.intakes := by
  unfold Hall.offer; split
  · exact (Hall.modCount_intakes _ n _).trans (h.sendAll_intakes n _)
  · rfl

theorem Hall.offerStart_intakes : (h.offerStart n).intakes = h.intakes := by
  unfold Hall.offerStart; split
  · exact h.offer_intakes n _ _ _
  · rfl

theorem Hall.schedule_intakes : (h.schedule n).intakes = h.intakes := by
  unfold Hall.schedule; split
  · split
    · exact (Hall.modCount_intakes _ n _).trans (h.sendAll_intakes n _)
    · rfl
  · rfl

theorem Hall.easeStart_intakes : (h.easeStart n).intakes = h.intakes := by
  unfold Hall.easeStart; split
  · rfl
  · exact Hall.intakes_of_still (Hall.lower_still h _)

theorem Hall.testStart_intakes : (h.testStart n).intakes = h.intakes := Hall.intakes_of_still (h.setActive_still rfl _)

theorem Hall.closeOpen_intakes (e : Nat) (cause : Cause) : (h.closeOpen n e cause).intakes = h.intakes := by
  unfold Hall.closeOpen; split
  · split
    · extract_lets ended followed
      have closed : ended.intakes = h.intakes := (Hall.modCount_intakes _ n _).trans (h.sendAll_intakes n _)
      have offered : followed.intakes = ended.intakes := by
        unfold followed; split
        · exact ended.offer_intakes n _ _ _
        · rfl
      rw [Hall.easeStart_intakes, Hall.schedule_intakes, offered, closed]
    · rfl
  · rfl

theorem Hall.endBreak_intakes : (h.endBreak n).intakes = h.intakes := by
  unfold Hall.endBreak; split
  · exact h.closeOpen_intakes n _ _
  · rfl

end

/-! ### Count intake (R165, R168) -/

/-- What a line's counts `c` have become when a LINE STATUS has brought a gate count: one that jumps is taken but counts nothing, and
any other is counted, and what lies deeper than the buffer is final (R165, R168). -/
structure LineCount.Takes (new : GateCount) (c d : LineCount) : Prop where
  gate : d.gate = some new
  cfg : d.cfg = c.cfg
  edition : d.edition = c.edition
  first : c.gate = none → d.counted = c.counted ∧ d.finalized = c.finalized
  counts : ∀ g, c.gate = some g → (new - g).toNat ≤ c.cfg.jumpLimit →
    d.counted = min 281474976710655 (c.counted + (new - g).toNat) ∧ d.finalized = max c.finalized (d.counted - c.cfg.depth)
  jumps : ∀ g, c.gate = some g → c.cfg.jumpLimit < (new - g).toNat →
    d.counted = c.counted ∧ d.finalized = c.finalized ∧ d.good = c.good ∧ d.waste = c.waste

/-- The intake of a gate count does not speak of divert intervals. -/
theorem LineCount.Takes.congr {gate : GateCount} {c c' d d' : LineCount} (x : c.Takes gate d) (earlier : c'.intake = c.intake)
    (later : d'.intake = d.intake) : c'.Takes gate d' := by
  have shown : c.intake.Takes gate d.intake := ⟨x.gate, x.cfg, x.edition, x.first, x.counts, x.jumps⟩
  rw [← earlier, ← later] at shown
  exact ⟨shown.gate, shown.cfg, shown.edition, shown.first, shown.counts, shown.jumps⟩

section
variable {h : Hall} {n : Nat} {c : LineCount} {gate g : GateCount}

theorem Hall.modCount_count (hc : h.count n = some c) (f : LineCount → LineCount) : (h.modCount n f).count n = some (f c) := by
  rw [Hall.count, Hall.modCount_counts, tget_tmod_same, show tget h.counts n = some c from hc, Option.map_some]

theorem Hall.finalizeDepth_count (hc : h.count n = some c) : (h.finalizeDepth n).count n =
    some (if c.counted - c.cfg.depth ≤ c.finalized then c else c.finalizeTo (c.counted - c.cfg.depth)) := by
  unfold Hall.finalizeDepth
  rw [hc]
  exact h.finalizeTo_count hc _

theorem Hall.takeCount_first (hc : h.count n = some c) (fresh : c.gate = none) :
    (h.takeCount n gate).count n = some { c with gate := some gate } := by
  rw [Hall.takeCount, hc]
  dsimp only
  rw [fresh]
  exact Hall.modCount_count hc _

theorem Hall.takeCount_counts (hc : h.count n = some c) (old : c.gate = some g) (near : (gate - g).toNat ≤ c.cfg.jumpLimit) :
    ∃ d, (h.takeCount n gate).count n = some d ∧ d.gate = some gate ∧ d.cfg = c.cfg ∧ d.edition = c.edition ∧
      d.counted = satAdd Config.max48 c.counted (gate - g).toNat ∧ d.finalized = max c.finalized (d.counted - c.cfg.depth) := by
  have final := Hall.finalizeDepth_count (Hall.modCount_count hc fun c =>
    { c with counted := satAdd Config.max48 c.counted (gate - g).toNat, gate := some gate })
  have taken : (h.takeCount n gate).count n = ((h.modCount n fun c =>
      { c with counted := satAdd Config.max48 c.counted (gate - g).toNat, gate := some gate }).finalizeDepth n).count n := by
    rw [Hall.takeCount, hc]
    dsimp only
    rw [old]
    dsimp only
    rw [if_pos near]
    exact Hall.still_field (Hall.lower_still _ _) (fun g => g.count n) fun _ => rfl
  refine ⟨_, taken.trans final, ?_⟩
  split
  · rename_i shallow
    exact ⟨rfl, rfl, rfl, rfl, (Nat.max_eq_left shallow).symm⟩
  · rename_i deep
    exact ⟨rfl, rfl, rfl, rfl, (Nat.max_eq_right (Nat.le_of_not_le deep)).symm⟩

theorem Hall.takeCount_jumps (hc : h.count n = some c) (old : c.gate = some g) (far : c.cfg.jumpLimit < (gate - g).toNat) :
    ∃ d, (h.takeCount n gate).count n = some d ∧ d.intake = { c.intake with gate := some gate } := by
  have rebased : (h.takeCount n gate).intakes = (h.modCount n fun c => { c with gate := some gate }).intakes := by
    rw [Hall.takeCount, hc]
    dsimp only
    rw [old]
    dsimp only
    rw [if_neg (Nat.not_le.mpr far)]
    rw [Hall.intakes_of_still (Hall.raise_still _ rfl), Hall.forget_intakes, Hall.unsend_intakes]
  have shown := Hall.count_intake (h.takeCount n gate) n
  rw [rebased, ← Hall.count_intake, Hall.modCount_count hc] at shown
  exact Option.map_eq_some_iff.mp shown

theorem Hall.takeCount_takes (hc : h.count n = some c) : ∃ d, (h.takeCount n gate).count n = some d ∧ c.Takes gate d := by
  cases old : c.gate with
  | none => exact ⟨_, Hall.takeCount_first hc old, rfl, rfl, rfl, fun _ => ⟨rfl, rfl⟩, by simp [old], by simp [old]⟩
  | some g =>
    by_cases near : (gate - g).toNat ≤ c.cfg.jumpLimit
    · obtain ⟨d, hd, gated, cfg, edition, counted, finalized⟩ := Hall.takeCount_counts hc old near
      refine ⟨d, hd, gated, cfg, edition, by simp [old], fun g' e _ => ?_, fun g' e far => ?_⟩ <;>
        obtain rfl := Option.some.inj (old.symm.trans e)
      · exact ⟨counted, finalized⟩
      · exact absurd near (Nat.not_le.mpr far)
    · obtain ⟨d, hd, shown⟩ := Hall.takeCount_jumps hc old (Nat.not_le.mp near)
      have rebased : c.Takes gate { c with gate := some gate } := by
        refine ⟨rfl, rfl, rfl, fun _ => ⟨rfl, rfl⟩, fun g' e close => ?_, fun _ _ _ => ⟨rfl, rfl, rfl, rfl⟩⟩
        obtain rfl := Option.some.inj (old.symm.trans e)
        exact absurd close near
      exact ⟨d, hd, rebased.congr rfl shown⟩

end

/-! ### The rule of LINE STATUS (R118, R157, R165) -/

/-- The gate count of a LINE STATUS taken, the START interval being offered before it (R165, R175). -/
def Hall.gateTaken (n : Nat) (l : Line) (run : RunState) (gate : GateCount) (h : Hall) : Hall :=
  (if (h.forget n).starts n l.run run then (h.forget n).offerStart n else h.forget n).takeCount n gate

/-- A line as a LINE STATUS has it run. -/
def Line.runs (after : RunState) (speed : Nat) (l : Line) : Line := { l with run := after, speed := speed }

section
variable (h : Hall) (n : Nat) (l : Line) (run : RunState) (speed : Nat) (gate : GateCount)

theorem Hall.gateTaken_handles : h.Handles false false (h.gateTaken n l run gate) := by
  have forgot : h.Handles false false (h.forget n) := (Hall.Handles.refl h).forget n
  refine Hall.Handles.takeCount ?_ n gate
  split
  · unfold Hall.offerStart; split
    · exact forgot.offer n _ _ _
    · exact forgot
  · exact forgot

/-- What the Waste Counter does when the line's run state has been taken (R174, R175, R177). -/
theorem Hall.countStatus_after : ((h.gateTaken n l run gate).modLine n (Line.runs (runAfter l.run run speed) speed)).Handles false false
    (h.countStatus n l run speed gate) ∧ (h.countStatus n l run speed gate).intakes = (h.gateTaken n l run gate).intakes := by
  obtain ⟨g, hg⟩ : ∃ g, g = (h.gateTaken n l run gate).modLine n (Line.runs (runAfter l.run run speed) speed) := ⟨_, rfl⟩
  have counted : h.countStatus n l run speed gate =
      ((if l.run = .broken ∧ runAfter l.run run speed = .running then g.endBreak n else g).schedule n).testStart n := by rw [hg]; rfl
  have intakes : g.intakes = (h.gateTaken n l run gate).intakes := by rw [hg]; rfl
  rw [counted, ← hg, Hall.testStart_intakes, Hall.schedule_intakes, ← intakes]
  split
  · refine ⟨(Hall.Handles.schedule ?_ n).testStart n, g.endBreak_intakes n⟩
    unfold Hall.endBreak; split
    · exact (Hall.Handles.refl g).closeOpen n _ _
    · exact .refl g
  · exact ⟨((Hall.Handles.refl g).schedule n).testStart n, rfl⟩

/-- What the Feed Planner does when the time of a LINE STATUS has been taken (R118, R123). -/
theorem Hall.feedStatus_after (last : Option Nat) : (h.modLine n fun l => { l with lastStatus := some h.timebase }).Handles true false
    (h.feedStatus n last speed) := by
  unfold Hall.feedStatus; extract_lets dt timed stepped tested
  have step : timed.Handles true false stepped := (Hall.Handles.refl timed).foldl (fun h st => (Hall.Handles.refl h).estimateStep _ _ st) _
  have test : timed.Handles true false tested := step.foldl (fun h st => (Hall.Handles.refl h).push _) _
  exact test.foldl (fun h st => (Hall.Handles.refl h).spliceTest st) _

theorem Hall.takeLineStatus_eq (hl : h.line n = some l) : h.takeLineStatus n run speed gate =
    (h.countStatus n l run (min 1200 speed) gate).feedStatus n l.lastStatus (min 1200 speed) := by
  rw [Hall.takeLineStatus, hl]
  rfl

/-- What a LINE STATUS makes of the line (R118, R157). -/
theorem Hall.takeLineStatus_fixedLine (hl : h.line n = some l) : (h.takeLineStatus n run speed gate).fixedLine n =
    (h.fixedLine n).map fun k => { k with
      run := runAfter l.run run (min 1200 speed), speed := min 1200 speed, lastStatus := some h.timebase } := by
  have gated := h.gateTaken_handles n l run gate
  obtain ⟨counted, -⟩ := h.countStatus_after n l run (min 1200 speed) gate
  have time : (h.countStatus n l run (min 1200 speed) gate).timebase = h.timebase := counted.timebase.trans gated.timebase
  have timed (g : Hall) := g.modLine_fixedLine n fun l => { l with lastStatus := some g.timebase }
  have ran := (h.gateTaken n l run gate).modLine_fixedLine n (Line.runs (runAfter l.run run (min 1200 speed)) (min 1200 speed))
  rw [Hall.takeLineStatus_eq h n l run speed gate hl, (Hall.feedStatus_after _ n _ _).fixedLine n, timed, counted.fixedLine n, ran,
    gated.fixedLine n, Option.map_map, time]
  rfl

/-- What a LINE STATUS makes of the counts (R165, R168). -/
theorem Hall.takeLineStatus_takes {c : LineCount} (hl : h.line n = some l) (hc : h.count n = some c) :
    ∃ d, (h.takeLineStatus n run speed gate).count n = some d ∧ c.Takes gate d := by
  obtain ⟨g, hg⟩ : ∃ g, g = (if (h.forget n).starts n l.run run then (h.forget n).offerStart n else h.forget n) := ⟨_, rfl⟩
  have before : g.intakes = h.intakes := by
    rw [hg]; split
    · rw [Hall.offerStart_intakes, Hall.forget_intakes]
    · exact h.forget_intakes n
  have after : (h.takeLineStatus n run speed gate).intakes = (g.takeCount n gate).intakes := by
    rw [Hall.takeLineStatus_eq h n l run speed gate hl, Hall.intakes_congr ((Hall.feedStatus_after _ n _ _).counts rfl), hg]
    exact (h.countStatus_after n l run (min 1200 speed) gate).2
  have shown (a b : Hall) (x : LineCount) (e : a.intakes = b.intakes) (hx : b.count n = some x) :
      ∃ y, a.count n = some y ∧ y.intake = x.intake := by
    have e : (a.count n).map LineCount.intake = some x.intake := by rw [Hall.count_intake, e, ← Hall.count_intake, hx]; rfl
    exact Option.map_eq_some_iff.mp e
  obtain ⟨c', hc', earlier⟩ := shown g h c before hc
  obtain ⟨d', hd', takes⟩ := Hall.takeCount_takes (gate := gate) hc'
  obtain ⟨d, hd, later⟩ := shown _ _ d' after hd'
  exact ⟨d, hd, takes.congr earlier.symm later⟩

end

theorem runAfter_eq (before reported : RunState) (speed : Nat) :
    runAfter before reported speed = if before = .broken ∧ ¬(reported = .running ∧ 0 < speed) then .broken else reported := by
  unfold runAfter
  by_cases broken : before = .broken
  · by_cases runs : reported = .running ∧ 0 < speed
    · simp [runs]
    · simp [broken, runs]
  · simp [broken]

/-- Settles O48: the line is heard, its run state and the gate count are taken, and consequences leave both. -/
theorem lineStatusCountsCopies : Obligations.LineStatusCountsCopies := by
  intro s f n run speed gate l ok link hl
  obtain ⟨last, heard⟩ := Hall.lineHeard_fixedLine hl
  obtain ⟨k, hk, fixed⟩ := Option.map_eq_some_iff.mp heard
  have before : k.run = l.run := by
    have e := congrArg Line.run fixed; exact e
  have took : s.hall.lineFrame f 8 (decide (n = f.link)) (Hall.takeLineStatus n run speed gate) =
      ((s.hall.lineHeard n).takeLineStatus n run speed gate).finish := by
    rw [Hall.lineFrame_taken ok (decide_eq_true link.symm), link]
  have trace := took ▸ ((s.hall.lineHeard n).takeLineStatus n run speed gate).finish_trace
  refine ⟨_, rfl, rfl, ?_, fun c hc => ?_⟩
  · refine (trace.lines n).trans ?_
    refine (Hall.takeLineStatus_fixedLine _ n k run speed gate hk).trans ?_
    rw [heard, Option.map_some, before, runAfter_eq, Hall.lineHeard_timebase]
    rfl
  · obtain ⟨d, hd, takes⟩ := Hall.takeLineStatus_takes _ n k run speed gate hk ((s.hall.lineHeard_count n n).trans hc)
    refine ⟨d, ?_, takes.gate, takes.cfg, takes.edition, takes.first, fun g old => ⟨takes.counts g old, takes.jumps g old⟩⟩
    exact (congrArg (fun t => tget t n) trace.counts).trans hd

end Sys2Proof.Machine
end
